-- ==== Sys2Proof/Word.lean ====
section
/-! DEFINITION. Words and plain data shapes of the Klopo K3 model (R10: bit 0 is least significant, memory is little-endian). -/

namespace Sys2Proof

/-- A 32-bit register or memory word. -/
abbrev Word := BitVec 32
/-- A 64-bit scalar register or register pair (R44). -/
abbrev DWord := BitVec 64
/-- One byte of memory. -/
abbrev Byte := BitVec 8
/-- A set of lanes of one gang; bit l is lane l (R12). -/
abbrev LaneMask := BitVec 32
/-- A 57-bit virtual address, the width of a strand's PC (R20, R193). -/
abbrev VAddr := BitVec 57

/-- Sparse contents by key: strictly rising keys, no entry equal to zero, an unlisted key reads as zero.
Register files, scratchpads, the operand buffer and memory are all held this way. -/
abbrev SMap (w : Nat) := List (Nat × BitVec w)

end Sys2Proof
end

