-- ==== Sys2Proof/Config.lean ====
section
/-! DEFINITION. What the manual leaves to the device or to other parties as constants with no body: nothing in Lean can
evaluate them or prove a value of them. -/

namespace Sys2Proof

/-- The special functions whose bits R66 bounds and R67 fixes without stating (R66, R67). -/
inductive SfuFn where
  | rsq | exp2 | log2 | sin | cos | tanh | sigm
deriving DecidableEq, Repr

/-- The device's own bits of a special function at an operand (R67); free within the bound of R66 (assumption 20). -/
opaque Config.sfuBits : SfuFn → Word → Word

/-- SHA-512 of a message (R210, R211): a published function the manual names and does not define (assumption 21). -/
opaque Config.sha512 : List Byte → BitVec 512

/-- Whether an Ed25519 signature verifies under the key of an image kind (R210, R438; assumption 21). -/
opaque Config.ed25519Ok : Nat → List Byte → Bool

/-- The signature the device's own key makes (R211; assumption 21). -/
opaque Config.attestSign : List Byte → BitVec 512

/-- The device's serial number, which the manual does not give (R211; assumption 22). -/
opaque Config.serialNumber : BitVec 64

/-- A die's process speed code, fused at test (R449; assumption 22). -/
opaque Config.processCode : Nat → BitVec 16

/-- The service core that made the log record of a sequence number, which is not promised (R204; assumption 22). -/
opaque Config.serviceCore : Nat → BitVec 2

/-- Addresses of Grotto's arrays and event queues in service-die memory, which the manual does not give (R456; assumption 22). -/
opaque Config.serviceAddr : Nat → BitVec 64

/-- A free choice among several that the manual allows, by its place in the run (assumption 22). -/
opaque Config.freeChoice : Nat → Nat

/-- The Ultra Ethernet port that the events of a job's owner leave by, which the manual does not give (R444; assumption 128). -/
opaque Config.eventPort : Nat → BitVec 1

/-- A frame of 4,096 bytes of a context's memory that Grotto assigns: for a page of a scratchpad window, or for a save area (R200, R227;
assumption 106). -/
opaque Config.freeFrame : Nat → BitVec 27

end Sys2Proof
end

