-- ==== Sys2Proof/Syntax.lean ====
section
/-! DEFINITION. The instructions of Cyanade-3 (R251) and the device's other steps (the opcode table's events), one
constructor per row of the opcode table. Operand fields are decoded here once; the machine never sees raw encodings. -/

namespace Sys2Proof

/-! ### Operands (R41, R42, R240 to R247, R266) -/

/-- A register operand code: 0x00 to 0xBF a vector register, 0xC0 to 0xFE a scalar register, 0xFF the zero register (R41). -/
inductive Reg where
  | v (n : Fin 192)
  | s (n : Fin 63)
  | zr
deriving DecidableEq, Repr

/-- A predicate source: index 0 to 47 and an inversion (R266); a guard has the same parts (R238). -/
structure PSrc where
  neg : Bool
  idx : Fin 48
deriving DecidableEq, Repr

/-- The last source "register or imm8" (R242). -/
inductive Src where
  | reg (r : Reg)
  | imm (b : BitVec 8)
deriving DecidableEq, Repr

/-- Fields common to every 64-bit instruction: first guard, switch marker, fusion barrier (R238, R247, R248). -/
structure Hdr where
  g1 : PSrc
  sw : Bool
  fb : Bool
deriving DecidableEq, Repr

/-- Fields common to every 96- and 128-bit instruction: two guards and how they combine (R239, R247). -/
structure Hdr2 where
  g1 : PSrc
  g2 : PSrc
  gor : Bool
  sw : Bool
  fb : Bool
deriving DecidableEq, Repr

/-! ### Type codes (R245) -/

/-- The integer type codes of R265. -/
inductive ITy where
  | i32 | n32 | i64 | n64
deriving DecidableEq, Repr

/-- The element type codes of loads and stores, MOD 1 to 12 (R328). -/
inductive MTy where
  | i32 | n32 | i64 | n64 | i16 | n16 | i8 | n8 | f32 | f64 | f16 | bf16
deriving DecidableEq, Repr

/-- The floating type codes of R303. -/
inductive FTy where
  | f32 | f64
deriving DecidableEq, Repr

/-- Rounding modifiers (R60). -/
inductive RM where
  | rn | rz | ru | rd
deriving DecidableEq, Repr

/-- Integer condition codes (R280). -/
inductive CC where
  | eq | ne | lt | le | gt | ge
deriving DecidableEq, Repr

/-- The ORDER field of the atomics (R327). -/
inductive Order where
  | none | acq | rel | ar
deriving DecidableEq, Repr

/-- The VEC field: one, two or four elements (R327). -/
inductive Vec where
  | x1 | x2 | x4
deriving DecidableEq, Repr

/-- An atomic operation code of ATOM (R341). -/
inductive AOp where
  | add | min | max | and | or | xor | exch | inc | dec
deriving DecidableEq, Repr

/-- A floating atomic operation of ATOMF (R341). -/
inductive AFOp where
  | add | min | max
deriving DecidableEq, Repr

/-- A HOP operation (R341). -/
inductive HOp where
  | badd | bsub | merge
deriving DecidableEq, Repr

/-- A placement or matrix format code or conversion code is kept as its number (R69, R72, R73, R313). -/
abbrev Fmt := BitVec 6

/-! ### Operand shapes, one structure per mould -/

/-- Two sources, the last a register or imm8 (R269). -/
structure Int2 where
  h : Hdr
  ty : ITy
  d : Reg
  a : Reg
  b : Src
deriving DecidableEq, Repr

/-- Three sources, the last a register or imm8 (R269). -/
structure Int3 where
  h : Hdr
  ty : ITy
  d : Reg
  a : Reg
  b : Reg
  c : Src
deriving DecidableEq, Repr

/-- Three sources at 32 bits only: `sgn` is .i32, otherwise .n32 (R272, R276). -/
structure Int3N where
  h : Hdr
  sgn : Bool
  d : Reg
  a : Reg
  b : Reg
  c : Src
deriving DecidableEq, Repr

/-- One source (R274, R278). -/
structure Int1 where
  h : Hdr
  ty : ITy
  d : Reg
  a : Reg
deriving DecidableEq, Repr

/-- One signed source, `wide` for .i64 and otherwise .i32 (IABS and INEG, R269). -/
structure IntS1 where
  h : Hdr
  wide : Bool
  d : Reg
  a : Reg
deriving DecidableEq, Repr

/-- The position and length of BFI: two immediates or one register (R277). -/
inductive BfiSel where
  | imm (pos len : BitVec 8)
  | reg (c : Reg)
deriving DecidableEq, Repr

/-- The six type codes of MOV (R282). -/
inductive MovTy where
  | i32 | n32 | f32 | i64 | n64 | f64
deriving DecidableEq, Repr

/-- The special registers of MOVSR, by selector (R46). -/
inductive SReg where
  | laneid | gangid | teamid | gridid | core | part | clock | promise | maxabs | strand | forkdepth
deriving DecidableEq, Repr

/-- The operation of PSET (R286). -/
inductive POp where
  | and | or | xor
deriving DecidableEq, Repr

/-- The forms of PMOV (R287): `high` selects pg1. -/
inductive PMovForm where
  | toReg (high : Bool) (d : Reg)
  | fromReg (high : Bool) (a : Reg)
deriving DecidableEq, Repr

/-- A floating operand with its modifiers (R302). -/
structure FOp where
  r : Reg
  neg : Bool
  abs : Bool
deriving DecidableEq, Repr

/-- FADD, FSUB, FMUL and FFMA's first two operands (R304). -/
structure FArith where
  h : Hdr
  ty : FTy
  rm : RM
  ftz : Bool
  d : Reg
  a : FOp
  b : FOp
deriving DecidableEq, Repr

/-- FMIN and FMAX: RM 00 plain, 01 .nan (R302, R306). -/
structure FMinMax where
  h : Hdr
  ty : FTy
  nan : Bool
  ftz : Bool
  d : Reg
  a : FOp
  b : FOp
deriving DecidableEq, Repr

/-- One floating source with rounding: FRND (R309). -/
structure FUn where
  h : Hdr
  ty : FTy
  rm : RM
  ftz : Bool
  d : Reg
  a : FOp
deriving DecidableEq, Repr

/-- The mould of the special functions (R312). -/
structure Sfu where
  h : Hdr
  rm : RM
  ftz : Bool
  d : Reg
  a : FOp
deriving DecidableEq, Repr

/-- The shared encoding of the conversions (R315). -/
structure Cvt where
  h : Hdr2
  d : Reg
  a : Reg
  sc : Reg
  sat : Bool
  satf : Bool
  x2 : Bool
  dst : Fmt
  src : Fmt
  di : BitVec 4
  si : BitVec 4
deriving DecidableEq, Repr

/-- Element widths of PACK and UNPK (R320). -/
inductive EWidth where
  | e2 | e4 | e6 | e8 | e16
deriving DecidableEq, Repr

/-- The extension of UNPK (R320). -/
inductive UnpkMode where
  | zero | sign | t2
deriving DecidableEq, Repr

/-- Operands of a packed dot product (R321). -/
structure Dot where
  h : Hdr
  d : Reg
  a : Reg
  b : Reg
  c : Reg
deriving DecidableEq, Repr

/-- Element kinds of DP4 (R321). -/
inductive Dp4Kind where
  | int (ua ub : Bool)
  | flt (rm : RM) (a5 b5 : Bool)
deriving DecidableEq, Repr

/-- Element kinds of DP8 (R321). -/
inductive Dp8Kind where
  | int (ua ub : Bool)
  | flt (rm : RM)
deriving DecidableEq, Repr

/-- Element kinds of DP2 (R321). -/
inductive Dp2Kind where
  | int (ua ub : Bool)
  | flt (rm : RM) (bf : Bool)
deriving DecidableEq, Repr

/-- A fused group: the members in address order (R325). -/
inductive Fused where
  | mulAdd (m a : FArith)
  | addMax (a : FArith) (x : FMinMax)
  | fmaMax (m : FArith) (negc : Bool) (c : Reg) (x : FMinMax)
  | mulAddMax (m a : FArith) (x : FMinMax)
deriving DecidableEq, Repr

/-- The target of CALL: a displacement or a register (R288). -/
inductive CallTarget where
  | disp (n : BitVec 24)
  | reg (r : Reg)
deriving DecidableEq, Repr

/-- What PUB publishes (R299). -/
inductive PubWhat where
  | v (n : Fin 192)
  | p (n : Fin 47)
deriving DecidableEq, Repr

/-- A global memory operand with the 24-bit offset (R244). -/
structure GMem where
  base : Reg
  index : Reg
  off : BitVec 24
deriving DecidableEq, Repr

/-- A memory operand with the 16-bit offset: scratchpad, CAS and HOP (R244, R327). -/
structure SMem where
  base : Reg
  index : Reg
  off : BitVec 16
deriving DecidableEq, Repr

/-- HINT of the cached loads and stores: eviction priority and span hint (R327). -/
structure CHint where
  pri : BitVec 2
  span : BitVec 2
deriving DecidableEq, Repr

/-- A coordinate as it stands after loading: die, physical row and column (R249). -/
structure PCoord where
  die : BitVec 2
  prow : BitVec 4
  pcol : BitVec 4
deriving DecidableEq, Repr

/-- LDG, LDC, LDT (R335). -/
structure Ld where
  h : Hdr2
  ahead : Bool
  vec : Vec
  ty : MTy
  d : Reg
  m : GMem
deriving DecidableEq, Repr

/-- STG (R336). -/
structure St where
  h : Hdr2
  ahead : Bool
  vec : Vec
  ty : MTy
  data : Reg
  m : GMem
deriving DecidableEq, Repr

/-- LDS (R337). -/
structure LdS where
  h : Hdr2
  ahead : Bool
  vec : Vec
  ty : MTy
  d : Reg
  m : SMem
deriving DecidableEq, Repr

/-- STS (R337). -/
structure StS where
  h : Hdr2
  ahead : Bool
  vec : Vec
  ty : MTy
  data : Reg
  m : SMem
deriving DecidableEq, Repr

/-- The level of PREF (R340). -/
inductive PrefLevel where
  | l1 | l2 | c | t
deriving DecidableEq, Repr

/-- The floating types of ATOMF, RED and REDU (R341); bf16 is a packed pair. -/
inductive AFTy where
  | f32 | f64 | bf16
deriving DecidableEq, Repr

/-- Fields shared by the atomics (R327). -/
structure AHdr where
  h : Hdr2
  order : Order
  ahead : Bool
deriving DecidableEq, Repr

/-- The types of CAS (R341). -/
inductive CasTy where
  | i32 | n32 | i64 | n64 | f32 | f64
deriving DecidableEq, Repr

/-- What RED combines (R344). -/
inductive RedOp where
  | int (op : AOp) (ty : ITy)
  | flt (op : AFOp) (ty : AFTy)
deriving DecidableEq, Repr

/-- The REDU operators: a tag, and whether MOD is the .n code where the tag accepts both (R345). -/
structure ReduOp where
  tag : Fin 16
  nTy : Bool
deriving DecidableEq, Repr

/-- The operation of ATOMS: integer, floating, or compare-and-swap (R343). -/
inductive AtomsOp where
  | int (op : AOp) (ty : ITy) (b : Src)
  | flt (op : AFOp) (b : Reg)
  | cas (ty : CasTy) (cmp : Reg)
deriving DecidableEq, Repr

/-- ATOMS operands: `m.index` is the index, or the new value for CAS; the offset is 15 bits (R343). -/
structure Atoms where
  a : AHdr
  op : AtomsOp
  d : Reg
  base : Reg
  index : Reg
  off : BitVec 15
deriving DecidableEq, Repr

/-- A byte range of FLUSH and INVAL (R347). -/
structure Rng where
  h : Hdr2
  base : Reg
  off : BitVec 24
  len : Src
deriving DecidableEq, Repr

/-- WAITW operands (R349). -/
structure WaitW where
  h : Hdr2
  cc : CC
  acq : Bool
  ty : ITy
  d : Reg
  m : GMem
  b : Reg
deriving DecidableEq, Repr

/-- OBLD and OBST operands (R358). `toff` counts 16-byte units. -/
structure Ob where
  h : Hdr2
  sp : Bool
  n : Fin 8
  toff : BitVec 16
  base : Reg
  vs : Reg
  vsh : Reg
deriving DecidableEq, Repr

/-- The element types of AS.PUSH (R373). -/
inductive PushTy where
  | i32 | n32 | f32 | i16 | n16 | i8 | n8 | f16 | bf16
deriving DecidableEq, Repr

/-- The forms of AS.ADDR (R372); level 4 is the lane stride. -/
inductive AsAddr where
  | base (q : Fin 4) (a : Reg)
  | baseSp (q : Fin 4) (a : Reg)
  | str (q : Fin 4) (k : Fin 5) (stride : Word)
deriving DecidableEq, Repr

/-- AS.LOOP's count: immediate or register (R371). -/
inductive AsCount where
  | imm (n : Word)
  | reg (r : Reg)
deriving DecidableEq, Repr

/-- A VOTE result: to a register or to a predicate (R398). -/
inductive VoteDst where
  | ballot (d : Reg)
  | count (d : Reg)
  | any (pd : Fin 48)
  | all (pd : Fin 48)
deriving DecidableEq, Repr

/-- The source-lane mode of SHFL (R400). -/
inductive ShflMode where
  | lane | near | rot | xor
deriving DecidableEq, Repr

/-- The 32-bit types of SHFL (R398). -/
inductive ShTy where
  | i32 | n32 | f32
deriving DecidableEq, Repr

/-- The types of MATCH (R398). -/
inductive MatTy where
  | i32 | n32 | i64 | n64 | f32 | f64
deriving DecidableEq, Repr

/-- The operations of REDUX with their types (R398). -/
inductive RxOp where
  | int (op : Fin 6) (sgn : Bool)
  | fmin
  | fmax
deriving DecidableEq, Repr

/-- ELECT's destination (R398). -/
inductive ElectDst where
  | pred (pd : Fin 48)
  | id (d : Reg)
deriving DecidableEq, Repr

/-! ### Arguments of the device's other steps -/

/-- A gang by its place: core number, partition, gang slot (R11). -/
structure GKey where
  core : Nat
  part : Nat
  slot : Nat
deriving DecidableEq, Repr

/-- A team by context number, grid and team identifier (R13). -/
structure TKey where
  ctx : Nat
  grid : BitVec 32
  team : BitVec 64
deriving DecidableEq, Repr

/-- A gang as a debug session names it, resident or saved: its place and its team (R205, R226). -/
structure GangRef where
  key : GKey
  team : TKey
deriving DecidableEq, Repr

/-- The three background moves of R107. -/
inductive BgMove where
  | writeHome | endOwnership | drop
deriving DecidableEq, Repr

/-- A value a debug session writes (R205). -/
inductive DbgWrite where
  | v (n lane : Nat) (x : Word)
  | s (n : Nat) (x : DWord)
  | p (n lane : Nat) (x : Bool)
  | m (n : Nat) (x : Word)
  | pc (strand : Nat) (x : VAddr)
  | strand (n : Nat) (x : BitVec 640)
  | fork (n : Nat) (x : BitVec 576)
  | mem (va : Nat) (x : Byte)
deriving DecidableEq, Repr

/-- The register of a function's request window that a host write names (R444). -/
inductive RingReg where
  | reqBase | rplBase | evtBase | resBase | sizes | enable | vectors
deriving DecidableEq, Repr

/-- Where a request came from (R442). -/
inductive ReqPath where
  | pcie (fn : Nat)
  | uet (port job : Nat)
deriving DecidableEq, Repr

/-- What the home slice ALU does (R341, R344); `redu` is a REDU forwarded to the page's home (R90, R152). -/
inductive HomeOp where
  | int (op : AOp) (ty : ITy)
  | flt (op : AFOp) (ty : AFTy)
  | hop (op : HOp) (ty : ITy)
  | cas (ty : CasTy)
  | redu (tag : Fin 16)
deriving DecidableEq, Repr

/-- A transaction arriving over Tether (R149 to R152, R208, R447): a page-directory request, a page ownership grant with the
page's bytes, a page the home asks its owner to give up, a page given up with the bytes written, the news that a page's owner holds
release records or holds none any more, words of a page homed here that its owner has written home with its number for them, that such words have
been received, that a page granted has been gained, an atomic forwarded to a page homed here with its sender's number for it, the home slice its
page is pinned to and its ORDER, the old value that answers one forwarded from here, or a transaction in transit with its sender, its device and
the links it has passed (R448). -/
inductive FlitBody where
  | pageRequest (page : Nat)
  | pageGrant (page : Nat) (bytes : List (Nat × BitVec 8))
  | pageRecall (page : Nat)
  | pageReturn (page : Nat) (bytes : List (Nat × BitVec 8))
  | relRec (page : Nat) (held : Bool)
  | homeWrite (id pa : Nat) (bytes : List (BitVec 8))
  | homeWritten (id : Nat)
  | pageGained (page : Nat)
  | forwarded (id pa : Nat) (pin : Option Nat) (op : HomeOp) (x y : DWord) (order : Order)
  | atomicReply (id : Nat) (old : DWord)
  | through (src dst links : Nat) (body : FlitBody)
  | nothing
deriving DecidableEq, Repr

/-- A Tether flit as received: link, sender's domain identifier and device number, whether its CRC holds, body (R447). -/
structure Flit where
  link : Nat
  domain : BitVec 32
  dev : Nat
  crcOk : Bool
  body : FlitBody
deriving DecidableEq, Repr

/-- The instructions and the other steps of the device: one constructor per row of the opcode table. `patrolScrub` says what the scrub
finds at an address: nothing, a corrected error (false), an uncorrectable one (true). The rows with no operand stand last. -/
inductive Instr where
  -- integer arithmetic (R269 to R273)
  | iadd (sat : Bool) (o : Int2)
  | isub (sat : Bool) (o : Int2)
  | imul (o : Int2)
  | imulh (o : Int2)
  | imad (sat : Bool) (o : Int3)
  | imadw (o : Int3N)
  | iaddc (h : Hdr) (sub : Bool) (ty : ITy) (d a b : Reg) (pc : PSrc)
  | imin (o : Int2)
  | imax (o : Int2)
  | iabs (o : IntS1)
  | ineg (o : IntS1)
  -- logic, shifts, fields (R274 to R279)
  | and (o : Int2)
  | or (o : Int2)
  | xor (o : Int2)
  | not (o : Int1)
  | bool3 (h : Hdr2) (fn : Fin 16) (ty : ITy) (d a b : Reg) (c : Src)
  | shl (o : Int2)
  | shr (o : Int2)
  | shra (o : Int2)
  | shd (o : Int3N)
  | rot (o : Int2)
  | bfe (o : Int3)
  | bfi (h : Hdr2) (ty : ITy) (d a b : Reg) (sel : BfiSel)
  | popc (o : Int1)
  | clz (o : Int1)
  | brev (o : Int1)
  | bsel (h : Hdr) (d a b c : Reg)
  -- compare, select, move (R280 to R285)
  | icmp (h : Hdr) (cc : CC) (ty : ITy) (pd : Fin 48) (a : Reg) (b : Src)
  | isel (h : Hdr) (ty : ITy) (d a b : Reg) (pc : PSrc)
  | mov (h : Hdr) (ty : MovTy) (d a : Reg)
  | movi (h : Hdr2) (hi : Bool) (d : Reg) (imm : Word)
  | movsr (h : Hdr) (sel : SReg) (d : Reg)
  | lea (h : Hdr2) (sx : Bool) (sh : BitVec 2) (d : Reg) (m : GMem)
  -- floating point (R302 to R311)
  | fadd (o : FArith)
  | fsub (o : FArith)
  | fmul (o : FArith)
  | ffma (o : FArith) (negc : Bool) (c : Reg)
  | fmin (o : FMinMax)
  | fmax (o : FMinMax)
  | fcmp (h : Hdr) (ty : FTy) (ftz : Bool) (cc : Fin 14) (pd : Fin 48) (a b : FOp)
  | fsel (h : Hdr) (ty : FTy) (d a b : Reg) (pc : PSrc)
  | fclass (h : Hdr) (ty : FTy) (d a : Reg)
  | frnd (o : FUn)
  | fscale (o : FUn) (n : Reg)
  -- special functions (R312)
  | rcp (o : Sfu)
  | rsq (o : Sfu)
  | sqrt (o : Sfu)
  | exp2 (o : Sfu)
  | log2 (o : Sfu)
  | sin (o : Sfu)
  | cos (o : Sfu)
  | tanh (o : Sfu)
  | sigm (o : Sfu)
  -- conversion, packing, packed products, flag registers (R313 to R326)
  | cvt (rm : RM) (o : Cvt)
  | cvtSr (rnd : Reg) (o : Cvt)
  | cvtx (rm : RM) (o : Cvt)
  | pack (h : Hdr) (w : EWidth) (d a b : Reg) (j : BitVec 4)
  | unpk (h : Hdr) (mode : UnpkMode) (w : EWidth) (d a : Reg) (j : BitVec 4)
  | dp4 (k : Dp4Kind) (o : Dot)
  | dp8 (k : Dp8Kind) (o : Dot)
  | dp2 (k : Dp2Kind) (o : Dot)
  | pfma (rm : RM) (bf bl : Bool) (o : Dot)
  | clrmx (h : Hdr) (mx fl : Bool)
  | rdmx (h : Hdr) (clr fl : Bool) (d : Reg)
  | fusedGroup (g : Fused)
  -- branches and strand control (R288 to R301)
  | bra (h : Hdr2) (disp : BitVec 24)
  | braAny (h : Hdr2) (disp : BitVec 24)
  | braAll (h : Hdr2) (disp : BitVec 24)
  | call (h : Hdr2) (link : Reg) (t : CallTarget)
  | ret (h : Hdr) (t : Reg)
  | jmpi (h : Hdr) (t : Reg)
  | fork (h : Hdr2) (f : Fin 8) (p : PSrc) (lfalse : BitVec 24) (ltail : Word)
  | endarm (h : Hdr) (f : Fin 8)
  | pub (h : Hdr) (f : Fin 8) (w : PubWhat)
  | join (h : Hdr) (f : Fin 8) (d a b : Fin 192)
  | joinp (h : Hdr) (f : Fin 8) (pd : Fin 48) (pa pb : PSrc)
  | memdone (h : Hdr) (f : Fin 8)
  | exit (h : Hdr)
  | nop (h : Hdr)
  | nopW (h : Hdr2)
  | pset (h : Hdr) (op : POp) (pd : Fin 48) (pa pb : PSrc)
  | pmov (h : Hdr) (form : PMovForm)
  -- memory (R327 to R351)
  | ldg (o : Ld) (acq : Bool) (hint : CHint)
  | stg (o : St) (rel : Bool) (hint : CHint)
  | lds (o : LdS)
  | sts (o : StS)
  | ldsRemote (o : LdS) (c : PCoord)
  | stsRemote (o : StS) (c : PCoord)
  | ldc (o : Ld) (pri : BitVec 2)
  | ldt (o : Ld) (pri : BitVec 2)
  | pref (h : Hdr2) (level : PrefLevel) (m : GMem) (hint : CHint)
  | atom (a : AHdr) (op : AOp) (ty : ITy) (d : Reg) (m : GMem) (b : Reg)
  | cas (a : AHdr) (ty : CasTy) (d : Reg) (m : SMem) (cmp new : Reg)
  | atomf (a : AHdr) (op : AFOp) (ty : AFTy) (d : Reg) (m : GMem) (b : Reg)
  | hop (a : AHdr) (op : HOp) (ty : ITy) (d : Reg) (m : SMem) (b c : Reg)
  | red (h : Hdr2) (ahead : Bool) (op : RedOp) (m : GMem) (b : Reg)
  | redu (h : Hdr2) (ahead : Bool) (op : ReduOp) (m : GMem) (b : Reg)
  | atoms (o : Atoms)
  | atomsRemote (o : Atoms) (prow pcol : BitVec 4)
  | fence (h : Hdr)
  | pfence (h : Hdr) (c t : Bool)
  | flush (r : Rng)
  | inval (r : Rng)
  | sdrain (h : Hdr)
  | waitw (o : WaitW)
  | sppin (h : Hdr) (a : Reg) (n : Src)
  | spunpin (h : Hdr) (a : Reg) (n : Src)
  -- operand buffer, matrix engine, access slice, copy-engine companions (R352 to R388)
  | resv (h : Hdr2) (shr : Bool) (fmt : BitVec 5) (n : Fin 8) (d a b c : Reg)
  | relv (h : Hdr) (n : Fin 8)
  | obld (o : Ob)
  | obst (o : Ob)
  | mma (h : Hdr) (a : Reg)
  | mmawait (h : Hdr) (d : Reg) (n : Fin 4)
  | mqstat (h : Hdr) (d : Reg)
  | rowp (h : Hdr) (k : Bool) (d : Reg)
  | asLoop (h : Hdr2) (k : Fin 4) (c : AsCount)
  | asAddr (h : Hdr2) (f : AsAddr)
  | asPush (h : Hdr) (q : Fin 4) (ty : PushTy) (m : Reg)
  | asEnd (h : Hdr)
  | asEndAbort (h : Hdr)
  | pop (h : Hdr) (d : Reg) (q : Fin 4)
  | fqstat (h : Hdr) (d : Reg) (q : Fin 4)
  | prom (h : Hdr) (d : Reg)
  | sleep (h : Hdr) (tillCycle : Bool) (a : Reg)
  -- masks, barriers, lanes, launch, traps, counters (R389 to R414)
  | mjoin (h : Hdr) (k : Fin 12)
  | mleave (h : Hdr) (k : Fin 12)
  | mwait (h : Hdr) (set : Bool) (k : Fin 12) (b : Src)
  | mset (h : Hdr) (k : Fin 12) (b : Src)
  | mget (h : Hdr) (d : Reg) (k : Fin 12)
  | bar (h : Hdr) (n : Fin 16) (count : Reg)
  | bara (h : Hdr) (d : Reg) (n : Fin 16) (count : Reg)
  | barw (h : Hdr) (n : Fin 16) (a : Reg)
  | sbar (h : Hdr) (d : Reg) (n : Fin 16) (a b : Reg)
  | vote (h : Hdr) (dst : VoteDst) (pa : PSrc)
  | shfl (h : Hdr) (mode : ShflMode) (ty : ShTy) (d a : Reg) (b : Src) (fill : Reg)
  | matchI (h : Hdr) (all : Bool) (ty : MatTy) (d a : Reg)
  | redux (h : Hdr) (op : RxOp) (d a : Reg)
  | elect (h : Hdr) (dst : ElectDst)
  | launch (h : Hdr) (d a : Reg) (place : Option PCoord)
  | launchCwait (h : Hdr) (a : Reg)
  | trap (h : Hdr2) (code : Word)
  | bkpt (h : Hdr) (code : BitVec 8)
  | halt (h : Hdr)
  | perf (h : Hdr) (clr : Bool) (sel : Fin 4) (d : Reg)
  | sampctlStart (h : Hdr) (a : Reg)
  | sampctlStop (h : Hdr)
  | sampctlDrop (h : Hdr) (d : Reg)
  -- moves of memory (R101 to R153)
  | storeQueueRetire (core id : Nat)
  | storeRegistration (id : Nat)
  | releaseWriteThrough (id : Nat)
  | acquireAtHome (id : Nat)
  | atomicAtHome (id : Nat)
  | loadFetch (id : Nat)
  | dataReturn (core id : Nat)
  | backgroundWriteback (core wa : Nat) (m : BgMove)
  | updateOnlyEnter (id : Nat)
  | reduAccept (core id : Nat)
  | recallReturn (sector core : Nat)
  | pathFill (id : Nat)
  | engineRegistration (id : Nat)
  | engineWrite (core eng : Nat)
  -- scheduling and placement (R154 to R187)
  | strandWaitCountExpiry (core part : Nat)
  | gangSwap (core part : Nat)
  | forcedGangSwap (core part : Nat)
  | teamPlacement (ctx : Nat)
  | teamStrandsReady (t : TKey)
  | gridDescriptorWrite (core id : Nat)
  | teamExit (t : TKey)
  | softBarrierDeadline (t : TKey) (bar : Fin 16)
  | sleepWake (g : GKey) (strand : Nat)
  | promiseMiss (core eng : Nat)
  | storeCheck (g : GKey)
  -- engines (R174 to R182, R359 to R385)
  | matrixCommandAccept (g : GKey)
  | tileStep (core : Nat)
  | matrixCommandComplete (g : GKey)
  | bridlePush (core : Nat)
  | pushEnterQueue (g : GKey) (q : Fin 4)
  | scratchpadStart (core : Nat)
  | cqWrite (core id : Nat)
  | ceCopy (core id : Nat)
  | ceGather (core id : Nat)
  | ceScatter (core id : Nat)
  | ceReduceCopy (core id : Nat)
  | ceAccept (core eng : Nat)
  | ceCommandComplete (core eng : Nat)
  -- translation and other devices (R149 to R153, R197 to R199, R349)
  | pageOwnershipRequest (page dev : Nat)
  | pageGiveUp (page : Nat)
  | waitwRefetch (core id : Nat)
  -- recovery (R185 to R191, R213 to R231, R424 to R430)
  | preemption (t : TKey)
  | resumption (t : TKey)
  | timeSliceEnd (group : Nat)
  | runtimeLimit (t : TKey)
  -- debugging (R205 to R207, R326, R408)
  | debugPartitionStop (core part : Nat)
  | debugPartitionResume (core part : Nat)
  | debugHalt (g : GangRef)
  | debugResume (g : GangRef)
  | debugWriteState (g : GangRef) (w : DbgWrite)
  | debugSetBreakpoint (ctx va : Nat) (set : Bool)
  -- host rings, network, links (R441 to R448)
  | reqtail (fn : Nat) (x : Word)
  | rplhead (fn : Nat) (x : Word)
  | evthead (fn : Nat) (x : Word)
  | ringRegisterWrite (fn : Nat) (r : RingReg) (x : DWord)
  | uetMessageReceive (port job : Nat) (words : List Word)
  | eventWrite (ctx : Nat)
  | flitReceive (f : Flit)
  | flitReplay (link : Nat)
  | linkLaneFailure (link lanes : Nat)
  | linkTraining (link peer : Nat)
  | routeRewrite (dev : Nat) (mask : BitVec 18)
  -- memory stacks, monitors, power, boot (R178 to R180, R232, R412, R413, R436 to R452)
  | hbmRequestIssue (pc : Nat)
  | hbmRowClose (pc bank : Nat)
  | hbmRefreshDue (pc : Nat)
  | patrolScrub (pa : Nat) (err : Option Bool)
  | sample (core part : Nat)
  | powerEstimate (watts : Nat)
  | pstateCheck (watts : Nat)
  | thermalTrip (die tmax : Nat)
  | bringupTestsDone (ok : Bool)
  | instructionFetch (core asid va : Nat)
  | engineRead (core eng : Nat)
  | debugStep (g : GKey) (strand : Nat)
  | hbmWindowWrite (off : Nat) (bytes : List (BitVec 8))
  | endpointLinkTraining (width rate : Nat)
  -- steps with no operand, of the families above: requests, memory, recovery, board
  | ornSequencerRelease
  | faultRecordWrite
  | shootdownComplete
  | forwardedAtomic
  | hangWalk
  | grottoFaultAnswer
  | pageRepair
  | lazyBinding
  | createContext
  | destroyContext
  | writePageTableEntry
  | launchHostGrid
  | holdPage
  | releasePage
  | deferPages
  | grantDebugRight
  | revokeDebugRight
  | attestationReport
  | registerSampleBuffer
  | strataControl
  | resumeOrTerminate
  | readLogs
  | domainMembershipChange
  | leaveLanternService
  | writeImageSlot
  | serviceImageRestart
  | setPowerCap
  | grottoHandoverAdopt
  | replyWrite
  | strataLatch
  | thermalRecovery
  | inputOutOfLimits
  | deviceReset
  | bootStage
deriving DecidableEq, Repr

end Sys2Proof
end

