-- ==== Sys2Proof/WellFormed.lean ====
section
/-! DEFINITION. Which instructions have an encoding: the register rules of R241 that the operand alone decides, and the
field values and combinations that R245, R246 and the entries leave unassigned. Register allocation (R43) and pending
operands (R48) depend on the gang and are checked at issue. -/

namespace Sys2Proof

/-- A register that may hold a 64-bit operand: not an odd vector register (R44). -/
def Reg.pairOk : Reg → Bool
  | .v n => n.val % 2 == 0
  | .s _ => true
  | .zr => true

/-- A vector register. -/
def Reg.isV : Reg → Bool
  | .v _ => true
  | _ => false

/-- A 32-bit or 64-bit data operand at the width the type gives (R44, R265). -/
def Reg.okAt (wide : Bool) (r : Reg) : Bool := !wide || r.pairOk

/-- A last source at a width (R242). -/
def Src.okAt (wide : Bool) : Src → Bool
  | .reg r => r.okAt wide
  | .imm _ => true

/-- The 64-bit integer types (R265). -/
def ITy.wide : ITy → Bool
  | .i64 | .n64 => true
  | _ => false

/-- The signed integer types (R265). -/
def ITy.signed : ITy → Bool
  | .i32 | .i64 => true
  | _ => false

/-- The 64-bit floating type (R303). -/
def FTy.wide : FTy → Bool
  | .f64 => true
  | .f32 => false

/-- The 64-bit types of MOV (R282). -/
def MovTy.wide : MovTy → Bool
  | .i64 | .n64 | .f64 => true
  | _ => false

/-- The 8-byte elements (R328). -/
def MTy.wide : MTy → Bool
  | .i64 | .n64 | .f64 => true
  | _ => false

/-- The 8-byte types of CAS (R341). -/
def CasTy.wide : CasTy → Bool
  | .i64 | .n64 | .f64 => true
  | _ => false

/-- The 8-byte type of ATOMF (R341). -/
def AFTy.wide : AFTy → Bool
  | .f64 => true
  | _ => false

/-- The 8-byte types of MATCH (R398). -/
def MatTy.wide : MatTy → Bool
  | .i64 | .n64 | .f64 => true
  | _ => false

/-- The special registers of 64 bits (R46). -/
def SReg.wide : SReg → Bool
  | .teamid | .clock | .promise => true
  | _ => false

/-- A longer header whose second guard is at its fixed value, pt with GC 0 (R240): BOOL3, BFI and LEA, whose entries fix
it (R274, R277, R285), and the instructions whose entries permit no second guard. DEDUCED (log entry 32). -/
def Hdr2.one (h : Hdr2) : Bool := h.g2 == ⟨false, 47⟩ && !h.gor

/-- A two-source integer instruction whose operands all have the type's width. -/
def Int2.ok (o : Int2) : Bool := o.d.okAt o.ty.wide && o.a.okAt o.ty.wide && o.b.okAt o.ty.wide

/-- A shift: its count is read as 32 bits (R265). -/
def Int2.okShift (o : Int2) : Bool := o.d.okAt o.ty.wide && o.a.okAt o.ty.wide

/-- A three-source integer instruction. -/
def Int3.ok (o : Int3) : Bool :=
  o.d.okAt o.ty.wide && o.a.okAt o.ty.wide && o.b.okAt o.ty.wide && o.c.okAt o.ty.wide

/-- BFE: position and length are read as 32 bits (R265). -/
def Int3.okField (o : Int3) : Bool := o.d.okAt o.ty.wide && o.a.okAt o.ty.wide

/-- A floating operation of two operands (R303). -/
def FArith.ok (o : FArith) : Bool := o.d.okAt o.ty.wide && o.a.r.okAt o.ty.wide && o.b.r.okAt o.ty.wide

/-- FMIN and FMAX (R303). -/
def FMinMax.ok (o : FMinMax) : Bool := o.d.okAt o.ty.wide && o.a.r.okAt o.ty.wide && o.b.r.okAt o.ty.wide

/-- FRND and FSCALE (R303). -/
def FUn.ok (o : FUn) : Bool := o.d.okAt o.ty.wide && o.a.r.okAt o.ty.wide

/-- The conversion codes that R313 accepts. -/
def Cvt.ok (o : Cvt) : Bool := o.dst.toNat < 36 && o.src.toNat < 36

/-- A global address: the base is 64 bits wide (R244). -/
def GMem.ok (m : GMem) : Bool := m.base.pairOk

/-- A global address with the short offset (R244). -/
def SMem.ok (m : SMem) : Bool := m.base.pairOk

/-- Types that take part in RED: the integer operations 0 to 5, the floating ones with the types ATOMF accepts (R344). -/
def RedOp.ok : RedOp → Reg → Bool
  | .int op ty, b => (match op with | .exch | .inc | .dec => false | _ => true) && b.okAt ty.wide
  | .flt op ty, b => (match op, ty with | .add, _ => true | _, .bf16 => false | _, _ => true) && b.okAt ty.wide

/-- The tags of REDU and the types each accepts (R345): `nTy` only where the tag's row gives two codes. -/
def ReduOp.ok (o : ReduOp) (b : Reg) : Bool :=
  o.tag.val != 0 && o.tag.val != 15 && b.okAt (o.tag.val == 2) &&
    (!o.nTy || o.tag.val == 1 || o.tag.val == 2 || o.tag.val == 7 || o.tag.val == 8 || o.tag.val == 9)

/-- ATOMS: operand widths, and the combinations without an encoding (R343). -/
def Atoms.ok (o : Atoms) : Bool :=
  match o.op with
  | .int _ ty b => o.d.okAt ty.wide && b.okAt ty.wide
  | .flt _ _ => true
  | .cas ty cmp =>
    (match ty with | .f64 => false | _ => true) && o.d.okAt ty.wide && cmp.okAt ty.wide && o.index.okAt ty.wide

/-- The members of a fused group are FP32 and share their first guard; no member but the last marks a switch, carries the
fusion barrier or writes zr; each reads the result before it (R325). -/
def Fused.ok (g : Fused) : Bool :=
  let fOk (m : FArith) (h : Hdr) (last : Bool) : Bool :=
    m.ty == .f32 && m.h.g1 == h.g1 && (last || (!m.h.sw && !m.h.fb && m.d != .zr))
  let xOk (x : FMinMax) (h : Hdr) : Bool := x.ty == .f32 && x.h.g1 == h.g1
  let reads (d a b : Reg) : Bool := a == d || b == d
  match g with
  | .mulAdd m a => fOk m m.h false && fOk a m.h true && reads m.d a.a.r a.b.r
  | .addMax a x => fOk a a.h false && xOk x a.h && reads a.d x.a.r x.b.r
  | .fmaMax m _ _ x => fOk m m.h false && xOk x m.h && reads m.d x.a.r x.b.r
  | .mulAddMax m a x =>
    fOk m m.h false && fOk a m.h false && xOk x m.h && reads m.d a.a.r a.b.r && reads a.d x.a.r x.b.r

/-- An instruction's length in bytes (R236, R251); a fused group's is that of its members together, and the device's other
steps have none. -/
def Instr.len : Instr → Nat
  | .bool3 .. | .bfi .. | .lea .. | .cvt .. | .cvtSr .. | .cvtx .. | .bra .. | .braAny .. | .braAll .. | .call ..
  | .nopW .. | .ldg .. | .stg .. | .lds .. | .sts .. | .ldsRemote .. | .stsRemote .. | .ldc .. | .ldt .. | .pref ..
  | .atom .. | .cas .. | .atomf .. | .hop .. | .red .. | .redu .. | .atoms .. | .atomsRemote .. | .flush .. | .inval ..
  | .waitw .. | .resv .. | .obld .. | .obst .. => 12
  | .movi .. | .fork .. | .asLoop .. | .asAddr .. | .trap .. => 16
  | .fusedGroup (.mulAddMax ..) => 24
  | .fusedGroup _ => 16
  | .iadd .. | .isub .. | .imul .. | .imulh .. | .imad .. | .imadw .. | .iaddc .. | .imin .. | .imax .. | .iabs ..
  | .ineg .. | .and .. | .or .. | .xor .. | .not .. | .shl .. | .shr .. | .shra .. | .shd .. | .rot .. | .bfe ..
  | .popc .. | .clz .. | .brev .. | .bsel .. | .icmp .. | .isel .. | .mov .. | .movsr .. | .fadd .. | .fsub ..
  | .fmul .. | .ffma .. | .fmin .. | .fmax .. | .fcmp .. | .fsel .. | .fclass .. | .frnd .. | .fscale .. | .rcp ..
  | .rsq .. | .sqrt .. | .exp2 .. | .log2 .. | .sin .. | .cos .. | .tanh .. | .sigm .. | .pack .. | .unpk .. | .dp4 ..
  | .dp8 .. | .dp2 .. | .pfma .. | .clrmx .. | .rdmx .. | .ret .. | .jmpi .. | .endarm .. | .pub .. | .join ..
  | .joinp .. | .memdone .. | .exit .. | .nop .. | .pset .. | .pmov .. | .fence .. | .pfence .. | .sdrain ..
  | .sppin .. | .spunpin .. | .relv .. | .mma .. | .mmawait .. | .mqstat .. | .rowp .. | .asPush .. | .asEnd ..
  | .asEndAbort .. | .pop .. | .fqstat .. | .prom .. | .sleep .. | .mjoin .. | .mleave .. | .mwait .. | .mset ..
  | .mget .. | .bar .. | .bara .. | .barw .. | .sbar .. | .vote .. | .shfl .. | .matchI .. | .redux .. | .elect ..
  | .launch .. | .launchCwait .. | .bkpt .. | .halt .. | .perf .. | .sampctlStart .. | .sampctlStop ..
  | .sampctlDrop .. => 8
  | _ => 0

/-- The instructions an encoding exists for. The device's other steps have none and are well-formed as they stand. -/
def Instr.wellFormed : Instr → Bool
  | .iadd _ o | .isub _ o | .imul o | .imulh o | .imin o | .imax o | .and o | .or o | .xor o => o.ok
  | .imad _ o => o.ok
  | .imadw o => o.d.pairOk
  | .iaddc _ _ ty d a b _ => d.okAt ty.wide && a.okAt ty.wide && b.okAt ty.wide
  | .iabs o | .ineg o => o.d.okAt o.wide && o.a.okAt o.wide
  | .not o | .brev o => o.d.okAt o.ty.wide && o.a.okAt o.ty.wide
  | .bool3 h _ ty d a b c => h.one && d.okAt ty.wide && a.okAt ty.wide && b.okAt ty.wide && c.okAt ty.wide
  | .shl o | .shr o | .shra o | .rot o => o.okShift
  | .shd _ => true
  | .bfe o => o.okField
  | .bfi h ty d a b _ => h.one && d.okAt ty.wide && a.okAt ty.wide && b.okAt ty.wide
  | .popc o | .clz o => o.a.okAt o.ty.wide
  | .bsel .. => true
  | .icmp _ _ ty _ a b => a.okAt ty.wide && b.okAt ty.wide
  | .isel _ ty d a b _ => d.okAt ty.wide && a.okAt ty.wide && b.okAt ty.wide
  | .mov _ ty d a => d.okAt ty.wide && a.okAt ty.wide
  | .movi h _ _ _ => h.one
  | .movsr _ sel d => d.okAt sel.wide
  | .lea h _ _ d m => h.one && d.pairOk && m.ok
  | .fadd o | .fsub o | .fmul o => o.ok
  | .ffma o _ c => o.ok && c.okAt o.ty.wide
  | .fmin o | .fmax o => o.ok
  | .fcmp _ ty _ _ _ a b => a.r.okAt ty.wide && b.r.okAt ty.wide
  | .fsel _ ty d a b _ => d.okAt ty.wide && a.okAt ty.wide && b.okAt ty.wide
  | .fclass _ ty _ a => a.okAt ty.wide
  | .frnd o => o.ok
  | .fscale o _ => o.ok
  | .cvt _ o | .cvtSr _ o | .cvtx _ o => o.ok
  | .clrmx _ mx fl => mx || fl
  | .call _ link t => link.pairOk && (match t with | .disp _ => true | .reg r => r.pairOk)
  | .ret _ t | .jmpi _ t => t.pairOk
  | .ldg o _ _ | .ldc o _ | .ldt o _ => o.m.ok && o.d.okAt o.ty.wide
  | .stg o _ _ => o.m.ok && o.data.okAt o.ty.wide
  | .lds o | .ldsRemote o _ => o.d.okAt o.ty.wide
  | .sts o | .stsRemote o _ => o.data.okAt o.ty.wide
  | .pref _ _ m _ => m.ok
  | .atom _ _ ty d m b => m.ok && d.okAt ty.wide && b.okAt ty.wide
  | .cas _ ty d m cmp new => m.ok && d.okAt ty.wide && cmp.okAt ty.wide && new.okAt ty.wide
  | .atomf _ op ty d m b =>
    m.ok && d.okAt ty.wide && b.okAt ty.wide && (match op, ty with | .add, _ => true | _, .bf16 => false | _, _ => true)
  | .hop _ op ty d m b c =>
    m.ok && d.okAt ty.wide && b.okAt ty.wide && c.okAt ty.wide &&
      (match op with | .merge => true | _ => !ty.signed)
  | .red _ _ op m b => m.ok && op.ok b
  | .redu _ _ op m b => m.ok && op.ok b
  | .atoms o | .atomsRemote o _ _ => o.ok
  | .pfence _ c t => c || t
  | .flush r | .inval r => r.h.one && r.base.pairOk
  | .sdrain h => h.g1 == ⟨false, 47⟩
  | .nopW h => h.one
  | .waitw o => o.h.one && o.m.ok && o.d.okAt o.ty.wide && o.b.okAt o.ty.wide
  | .obld o | .obst o => o.sp || o.base.pairOk
  | .mma _ a => a.pairOk
  | .asLoop h _ (.imm _) => h.one
  | .asLoop h _ (.reg a) => h.one && a != .zr
  | .asAddr h (.base _ a) => h.one && a.pairOk
  | .asAddr h _ => h.one
  | .prom _ d => d.pairOk
  | .sleep _ tillCycle a => a.okAt tillCycle
  | .matchI _ _ ty _ a => a.okAt ty.wide
  | .redux _ (.int _ _) _ _ => true
  | .launch _ _ a _ => a.pairOk
  | .perf _ _ _ d => d.pairOk
  | .fusedGroup g => g.ok
  | _ => true

end Sys2Proof
end

