-- ==== Sys2Proof/Decode.lean ====
section
/-! DEFINITION. Decoding: the fields of an instruction's bits (R236 to R249), the checks 3 to 7 of R252 that need no
machine state, the instruction of every opcode of R251, and after it the encoder written from the same tables. -/

namespace Sys2Proof

/-! ### Fields (R238, R239) -/

/-- The fields of an instruction as they stand in its bits (R238, R239). -/
structure Raw where
  len : BitVec 2
  sw : BitVec 1
  fb : BitVec 1
  opc : BitVec 9
  g1 : BitVec 7
  d : BitVec 8
  mod : BitVec 4
  a : BitVec 8
  b : BitVec 8
  c : BitVec 8
  hint : BitVec 4
  sub : BitVec 4
  e : BitVec 8
  f : BitVec 8
  g2 : BitVec 7
  gc : BitVec 1
  x : BitVec 8
  imm : BitVec 32
deriving DecidableEq, Repr

/-- The fields found in 128 bits, bit 0 first in memory (R236, R238, R239). -/
def Raw.ofBits (w : BitVec 128) : Raw :=
  { len := w.extractLsb' 0 2, sw := w.extractLsb' 2 1, fb := w.extractLsb' 3 1, opc := w.extractLsb' 4 9,
    g1 := w.extractLsb' 13 7, d := w.extractLsb' 20 8, mod := w.extractLsb' 28 4, a := w.extractLsb' 32 8,
    b := w.extractLsb' 40 8, c := w.extractLsb' 48 8, hint := w.extractLsb' 56 4, sub := w.extractLsb' 60 4,
    e := w.extractLsb' 64 8, f := w.extractLsb' 72 8, g2 := w.extractLsb' 80 7, gc := w.extractLsb' 87 1,
    x := w.extractLsb' 88 8, imm := w.extractLsb' 96 32 }

/-- The 128 bits that hold the fields (R238, R239). -/
def Raw.toBits (r : Raw) : BitVec 128 :=
  (r.imm ++ r.x ++ r.gc ++ r.g2 ++ r.f ++ r.e : BitVec 64) ++
    ((r.sub ++ r.hint ++ r.c ++ r.b ++ r.a : BitVec 32) ++
      (r.mod ++ r.d ++ r.g1 ++ r.opc ++ r.fb ++ r.sw ++ r.len : BitVec 32) : BitVec 64)

/-- An instruction's length in bytes by its LEN field; none for 11 (R236). -/
def lenBytes (l : BitVec 2) : Option Nat :=
  match l.toNat with
  | 0 => some 8
  | 1 => some 12
  | 2 => some 16
  | _ => none

/-- Why a fetch window holds no instruction (R252, checks 3 to 7). `guardField` when a guard field itself failed, so that
the record holds the active lanes. `combination i` where every field passes check 7 and the entry forbids them together: `i` names the
same registers, for check 8 comes first (R246, R252 item 9). -/
inductive Reject where
  | illegalOpcode
  | illegalForm (guardField : Bool)
  | illegalAlign
  | combination (i : Instr)
deriving DecidableEq, Repr

/-! ### Operand fields -/

/-- A one-bit field as a truth value. -/
def bit1 (b : BitVec 1) : Bool := b == 1#1

/-- A register operand field (R41, R240). -/
def Reg.ofCode (c : BitVec 8) : Reg :=
  if h : c.toNat < 192 then .v ⟨c.toNat, h⟩
  else if h' : c.toNat - 192 < 63 then .s ⟨c.toNat - 192, h'⟩ else .zr

/-- A register operand's code (R41, R240). -/
def Reg.code : Reg → BitVec 8
  | .v n => BitVec.ofNat 8 n.val
  | .s n => BitVec.ofNat 8 (192 + n.val)
  | .zr => 0xFF#8

/-- A field that must be below `n`. -/
def fin? (n : Nat) {w : Nat} (x : BitVec w) : Option (Fin n) := if h : x.toNat < n then some ⟨x.toNat, h⟩ else none

/-- A guard field: bit 6 inverts, bits 5:0 the index, 48 to 63 refused (R42, R238). -/
def PSrc.ofG (g : BitVec 7) : Option PSrc :=
  match fin? 48 (g.extractLsb' 0 6) with
  | some i => some ⟨bit1 (g.extractLsb' 6 1), i⟩
  | none => none

/-- The guard field of a predicate and its inversion (R238). -/
def PSrc.g (p : PSrc) : BitVec 7 := BitVec.ofBool p.neg ++ BitVec.ofNat 6 p.idx.val

/-- A predicate source in an eight-bit field: bit 7 must be 0 (R266). -/
def PSrc.of8 (x : BitVec 8) : Option PSrc :=
  if x.extractLsb' 7 1 = 0#1 then PSrc.ofG (x.extractLsb' 0 7) else none

/-- The eight-bit field of a predicate source (R266). -/
def PSrc.c8 (p : PSrc) : BitVec 8 := 0#1 ++ p.g

/-- A predicate destination: bits 7 and 6 must be 0 (R266). -/
def pd8 (x : BitVec 8) : Option (Fin 48) := fin? 48 x

/-- `some v` where the condition holds. -/
def okIf {α : Type} (c : Bool) (v : α) : Option α := if c then some v else none

/-- The header of a 64-bit instruction (R238). -/
def Raw.hdr (r : Raw) : Option Hdr :=
  match PSrc.ofG r.g1 with
  | some g => some ⟨g, bit1 r.sw, bit1 r.fb⟩
  | none => none

/-- The header of a 96- or 128-bit instruction (R239). -/
def Raw.hdr2 (r : Raw) : Option Hdr2 :=
  match PSrc.ofG r.g1, PSrc.ofG r.g2 with
  | some g, some g' => some ⟨g, g', bit1 r.gc, bit1 r.sw, bit1 r.fb⟩
  | _, _ => none

/-- SUB bits 62:60. -/
def Raw.sub3 (r : Raw) : BitVec 3 := r.sub.extractLsb' 0 3
/-- IMM, SUB bit 63 (R242). -/
def Raw.isImm (r : Raw) : Bool := bit1 (r.sub.extractLsb' 3 1)
/-- SUB bit 60, 61, 62. -/
def Raw.sb (r : Raw) (k : Nat) : Bool := bit1 (r.sub.extractLsb' k 1)

/-- The last source of a two-source instruction: with IMM, B is 0xFF; otherwise C is 0xFF (R240, R242). -/
def Raw.src2 (r : Raw) : Option Src :=
  if r.isImm then okIf (r.b == 0xFF#8) (.imm r.c) else okIf (r.c == 0xFF#8) (.reg (Reg.ofCode r.b))

/-- The last source of a three-source instruction (R242). -/
def Raw.src3 (r : Raw) : Src := if r.isImm then .imm r.c else .reg (Reg.ofCode r.c)

/-! ### Type codes (R245) -/

/-- MOD 1 to 4 (R265). -/
def ITy.ofMod (m : BitVec 4) : Option ITy :=
  match m.toNat with
  | 1 => some .i32
  | 2 => some .n32
  | 3 => some .i64
  | 4 => some .n64
  | _ => none

/-- The MOD code of an integer type. -/
def ITy.mod : ITy → BitVec 4
  | .i32 => 1
  | .n32 => 2
  | .i64 => 3
  | .n64 => 4

/-- MOD 1 to 12 (R328). -/
def MTy.ofMod (m : BitVec 4) : Option MTy :=
  match m.toNat with
  | 1 => some .i32
  | 2 => some .n32
  | 3 => some .i64
  | 4 => some .n64
  | 5 => some .i16
  | 6 => some .n16
  | 7 => some .i8
  | 8 => some .n8
  | 9 => some .f32
  | 10 => some .f64
  | 11 => some .f16
  | 12 => some .bf16
  | _ => none

/-- The MOD code of an element type. -/
def MTy.mod : MTy → BitVec 4
  | .i32 => 1
  | .n32 => 2
  | .i64 => 3
  | .n64 => 4
  | .i16 => 5
  | .n16 => 6
  | .i8 => 7
  | .n8 => 8
  | .f32 => 9
  | .f64 => 10
  | .f16 => 11
  | .bf16 => 12

/-- MOD 9 and 10 (R303). -/
def FTy.ofMod (m : BitVec 4) : Option FTy :=
  match m.toNat with
  | 9 => some .f32
  | 10 => some .f64
  | _ => none

/-- The MOD code of a floating type. -/
def FTy.mod : FTy → BitVec 4
  | .f32 => 9
  | .f64 => 10

/-- The types of MOV (R282). -/
def MovTy.ofMod (m : BitVec 4) : Option MovTy :=
  match m.toNat with
  | 1 => some .i32
  | 2 => some .n32
  | 9 => some .f32
  | 3 => some .i64
  | 4 => some .n64
  | 10 => some .f64
  | _ => none

/-- The MOD code of a type of MOV. -/
def MovTy.mod : MovTy → BitVec 4
  | .i32 => 1
  | .n32 => 2
  | .f32 => 9
  | .i64 => 3
  | .n64 => 4
  | .f64 => 10

/-- The types of CAS (R341). -/
def CasTy.ofMod (m : BitVec 4) : Option CasTy :=
  match m.toNat with
  | 1 => some .i32
  | 2 => some .n32
  | 3 => some .i64
  | 4 => some .n64
  | 9 => some .f32
  | 10 => some .f64
  | _ => none

/-- The MOD code of a type of CAS. -/
def CasTy.mod : CasTy → BitVec 4
  | .i32 => 1
  | .n32 => 2
  | .i64 => 3
  | .n64 => 4
  | .f32 => 9
  | .f64 => 10

/-- The types of MATCH (R398). -/
def MatTy.ofMod (m : BitVec 4) : Option MatTy :=
  match m.toNat with
  | 1 => some .i32
  | 2 => some .n32
  | 3 => some .i64
  | 4 => some .n64
  | 9 => some .f32
  | 10 => some .f64
  | _ => none

/-- The MOD code of a type of MATCH. -/
def MatTy.mod : MatTy → BitVec 4
  | .i32 => 1
  | .n32 => 2
  | .i64 => 3
  | .n64 => 4
  | .f32 => 9
  | .f64 => 10

/-- The types of ATOMF: MOD 9, 10 and 12 (R341). -/
def AFTy.ofMod (m : BitVec 4) : Option AFTy :=
  match m.toNat with
  | 9 => some .f32
  | 10 => some .f64
  | 12 => some .bf16
  | _ => none

/-- The MOD code of a type of ATOMF. -/
def AFTy.mod : AFTy → BitVec 4
  | .f32 => 9
  | .f64 => 10
  | .bf16 => 12

/-- The types of SHFL (R398). -/
def ShTy.ofMod (m : BitVec 4) : Option ShTy :=
  match m.toNat with
  | 1 => some .i32
  | 2 => some .n32
  | 9 => some .f32
  | _ => none

/-- The MOD code of a type of SHFL. -/
def ShTy.mod : ShTy → BitVec 4
  | .i32 => 1
  | .n32 => 2
  | .f32 => 9

/-- The element types of AS.PUSH (R373). -/
def PushTy.ofMod (m : BitVec 4) : Option PushTy :=
  match m.toNat with
  | 1 => some .i32
  | 2 => some .n32
  | 9 => some .f32
  | 5 => some .i16
  | 6 => some .n16
  | 7 => some .i8
  | 8 => some .n8
  | 11 => some .f16
  | 12 => some .bf16
  | _ => none

/-- The MOD code of an element type of AS.PUSH. -/
def PushTy.mod : PushTy → BitVec 4
  | .i32 => 1
  | .n32 => 2
  | .f32 => 9
  | .i16 => 5
  | .n16 => 6
  | .i8 => 7
  | .n8 => 8
  | .f16 => 11
  | .bf16 => 12

/-- MOD 1 and 2, true for the signed one (R272, R276). -/
def sgnOfMod (m : BitVec 4) : Option Bool :=
  match m.toNat with
  | 1 => some true
  | 2 => some false
  | _ => none

/-- MOD of a 32-bit type by its signedness. -/
def modOfSgn (b : Bool) : BitVec 4 := if b then 1 else 2

/-- A rounding field (R302). -/
def RM.ofBits (b : BitVec 2) : RM :=
  match b.toNat with
  | 0 => .rn
  | 1 => .rz
  | 2 => .ru
  | _ => .rd

/-- The rounding field (R302). -/
def RM.bits : RM → BitVec 2
  | .rn => 0
  | .rz => 1
  | .ru => 2
  | .rd => 3

/-- SUB 62:61, the rounding field (R302, R315, R321). -/
def Raw.rm (r : Raw) : RM := RM.ofBits (r.sub.extractLsb' 1 2)

/-- The integer conditions, codes 0 to 5 (R280). -/
def CC.ofBits (b : BitVec 3) : Option CC :=
  match b.toNat with
  | 0 => some .eq
  | 1 => some .ne
  | 2 => some .lt
  | 3 => some .le
  | 4 => some .gt
  | 5 => some .ge
  | _ => none

/-- The code of an integer condition (R280). -/
def CC.bits : CC → BitVec 3
  | .eq => 0
  | .ne => 1
  | .lt => 2
  | .le => 3
  | .gt => 4
  | .ge => 5

/-- ORDER (R327). -/
def Order.ofBits (b : BitVec 2) : Order :=
  match b.toNat with
  | 0 => .none
  | 1 => .acq
  | 2 => .rel
  | _ => .ar

/-- The ORDER field (R327). -/
def Order.bits : Order → BitVec 2
  | .none => 0
  | .acq => 1
  | .rel => 2
  | .ar => 3

/-- VEC; 11 refused (R327). -/
def Vec.ofBits (b : BitVec 2) : Option Vec :=
  match b.toNat with
  | 0 => some .x1
  | 1 => some .x2
  | 2 => some .x4
  | _ => none

/-- The VEC field (R327). -/
def Vec.bits : Vec → BitVec 2
  | .x1 => 0
  | .x2 => 1
  | .x4 => 2

/-- The operations of ATOM by code (R341). -/
def AOp.ofBits (b : BitVec 4) : Option AOp :=
  match b.toNat with
  | 0 => some .add
  | 1 => some .min
  | 2 => some .max
  | 3 => some .and
  | 4 => some .or
  | 5 => some .xor
  | 6 => some .exch
  | 7 => some .inc
  | 8 => some .dec
  | _ => none

/-- The code of an operation of ATOM (R341). -/
def AOp.bits : AOp → BitVec 4
  | .add => 0
  | .min => 1
  | .max => 2
  | .and => 3
  | .or => 4
  | .xor => 5
  | .exch => 6
  | .inc => 7
  | .dec => 8

/-- The operations of ATOMF by code (R341). -/
def AFOp.ofBits (b : BitVec 4) : Option AFOp :=
  match b.toNat with
  | 0 => some .add
  | 1 => some .min
  | 2 => some .max
  | _ => none

/-- The code of an operation of ATOMF (R341). -/
def AFOp.bits : AFOp → BitVec 4
  | .add => 0
  | .min => 1
  | .max => 2

/-- The operations of HOP by code (R341). -/
def HOp.ofBits (b : BitVec 4) : Option HOp :=
  match b.toNat with
  | 0 => some .badd
  | 1 => some .bsub
  | 2 => some .merge
  | _ => none

/-- The code of an operation of HOP (R341). -/
def HOp.bits : HOp → BitVec 4
  | .badd => 0
  | .bsub => 1
  | .merge => 2

/-- The special registers by selector (R46). -/
def SReg.ofBits (b : BitVec 4) : Option SReg :=
  match b.toNat with
  | 0 => some .laneid
  | 1 => some .gangid
  | 2 => some .teamid
  | 3 => some .gridid
  | 4 => some .core
  | 5 => some .part
  | 6 => some .clock
  | 7 => some .promise
  | 8 => some .maxabs
  | 9 => some .strand
  | 10 => some .forkdepth
  | _ => none

/-- The selector of a special register (R46). -/
def SReg.bits : SReg → BitVec 4
  | .laneid => 0
  | .gangid => 1
  | .teamid => 2
  | .gridid => 3
  | .core => 4
  | .part => 5
  | .clock => 6
  | .promise => 7
  | .maxabs => 8
  | .strand => 9
  | .forkdepth => 10

/-- The element widths of PACK and UNPK (R320). -/
def EWidth.ofBits (b : BitVec 3) : Option EWidth :=
  match b.toNat with
  | 0 => some .e2
  | 1 => some .e4
  | 2 => some .e6
  | 3 => some .e8
  | 4 => some .e16
  | _ => none

/-- The code of an element width (R320). -/
def EWidth.bits : EWidth → BitVec 3
  | .e2 => 0
  | .e4 => 1
  | .e6 => 2
  | .e8 => 3
  | .e16 => 4

/-- PREF's level (R340). -/
def PrefLevel.ofBits (b : BitVec 2) : PrefLevel :=
  match b.toNat with
  | 0 => .l1
  | 1 => .l2
  | 2 => .c
  | _ => .t

/-- The field of PREF's level (R340). -/
def PrefLevel.bits : PrefLevel → BitVec 2
  | .l1 => 0
  | .l2 => 1
  | .c => 2
  | .t => 3

/-- SHFL's mode (R398). -/
def ShflMode.ofBits (b : BitVec 2) : ShflMode :=
  match b.toNat with
  | 0 => .lane
  | 1 => .near
  | 2 => .rot
  | _ => .xor

/-- The field of SHFL's mode (R398). -/
def ShflMode.bits : ShflMode → BitVec 2
  | .lane => 0
  | .near => 1
  | .rot => 2
  | .xor => 3

/-- PSET's operation; 3 refused (R286). -/
def POp.ofBits (b : BitVec 2) : Option POp :=
  match b.toNat with
  | 0 => some .and
  | 1 => some .or
  | 2 => some .xor
  | _ => none

/-- The field of PSET's operation (R286). -/
def POp.bits : POp → BitVec 2
  | .and => 0
  | .or => 1
  | .xor => 2

/-! ### Moulds -/

/-- The two-source integer mould, SUB 62:60 left to the caller (R269). -/
def Raw.int2 (r : Raw) : Option Int2 :=
  match r.hdr, ITy.ofMod r.mod, r.src2 with
  | some h, some ty, some b => okIf (r.hint == 0#4) ⟨h, ty, Reg.ofCode r.d, Reg.ofCode r.a, b⟩
  | _, _, _ => none

/-- The three-source integer mould (R269). -/
def Raw.int3 (r : Raw) : Option Int3 :=
  match r.hdr, ITy.ofMod r.mod with
  | some h, some ty => okIf (r.hint == 0#4) ⟨h, ty, Reg.ofCode r.d, Reg.ofCode r.a, Reg.ofCode r.b, r.src3⟩
  | _, _ => none

/-- The three-source mould at 32 bits, SUB 62:60 zero (R272, R276). -/
def Raw.int3n (r : Raw) : Option Int3N :=
  match r.hdr, sgnOfMod r.mod with
  | some h, some sg =>
    okIf (r.hint == 0#4 && r.sub3 == 0#3) ⟨h, sg, Reg.ofCode r.d, Reg.ofCode r.a, Reg.ofCode r.b, r.src3⟩
  | _, _ => none

/-- The one-source mould (R274, R278). -/
def Raw.int1 (r : Raw) : Option Int1 :=
  match r.hdr, ITy.ofMod r.mod with
  | some h, some ty =>
    okIf (r.hint == 0#4 && r.sub == 0#4 && r.b == 0xFF#8 && r.c == 0xFF#8) ⟨h, ty, Reg.ofCode r.d, Reg.ofCode r.a⟩
  | _, _ => none

/-- IABS and INEG: .i32 and .i64 only (R269). -/
def Raw.ints1 (r : Raw) : Option IntS1 :=
  match r.int1 with
  | some o =>
    (match o.ty with
     | .i32 => some ⟨o.h, false, o.d, o.a⟩
     | .i64 => some ⟨o.h, true, o.d, o.a⟩
     | _ => none)
  | none => none

/-- The operand modifiers of a (R302). -/
def Raw.fa (r : Raw) : FOp := ⟨Reg.ofCode r.a, bit1 (r.hint.extractLsb' 0 1), bit1 (r.hint.extractLsb' 1 1)⟩
/-- The operand modifiers of b (R302). -/
def Raw.fbOp (r : Raw) : FOp := ⟨Reg.ofCode r.b, bit1 (r.hint.extractLsb' 2 1), bit1 (r.hint.extractLsb' 3 1)⟩

/-- FADD, FSUB, FMUL, FFMA (R304). -/
def Raw.farith (r : Raw) : Option FArith :=
  match r.hdr, FTy.ofMod r.mod with
  | some h, some ty => some ⟨h, ty, r.rm, r.sb 0, Reg.ofCode r.d, r.fa, r.fbOp⟩
  | _, _ => none

/-- FMIN and FMAX (R302, R304). -/
def Raw.fminmax (r : Raw) : Option FMinMax :=
  match r.hdr, FTy.ofMod r.mod with
  | some h, some ty =>
    okIf (!r.sb 2 && !r.isImm && r.c == 0xFF#8) ⟨h, ty, r.sb 1, r.sb 0, Reg.ofCode r.d, r.fa, r.fbOp⟩
  | _, _ => none

/-- FRND and FSCALE (R304). -/
def Raw.fun1 (r : Raw) : Option FUn :=
  match r.hdr, FTy.ofMod r.mod with
  | some h, some ty =>
    okIf (!r.isImm && r.hint.extractLsb' 2 2 == 0#2 && r.c == 0xFF#8) ⟨h, ty, r.rm, r.sb 0, Reg.ofCode r.d, r.fa⟩
  | _, _ => none

/-- The special functions (R312). -/
def Raw.sfu (r : Raw) : Option Sfu :=
  match r.hdr with
  | some h =>
    okIf (r.mod == 9#4 && !r.isImm && r.hint.extractLsb' 2 2 == 0#2 && r.b == 0xFF#8 && r.c == 0xFF#8)
      ⟨h, r.rm, r.sb 0, Reg.ofCode r.d, r.fa⟩
  | none => none

/-- The shared encoding of the conversions (R315, R316). -/
def Raw.cvt (r : Raw) : Option Cvt :=
  match r.hdr2 with
  | some h =>
    okIf (r.mod == 0#4 && r.hint.extractLsb' 1 3 == 0#3 && r.e.extractLsb' 6 2 == 0#2 && r.f.extractLsb' 6 2 == 0#2)
      { h := h, d := Reg.ofCode r.d, a := Reg.ofCode r.a, sc := Reg.ofCode r.c, sat := r.isImm, satf := r.sb 0,
        x2 := bit1 (r.hint.extractLsb' 0 1), dst := r.e.extractLsb' 0 6, src := r.f.extractLsb' 0 6,
        di := r.x.extractLsb' 0 4, si := r.x.extractLsb' 4 4 }
  | none => none

/-- The packed products' operands (R321). -/
def Raw.dot (r : Raw) : Option Dot :=
  match r.hdr with
  | some h => okIf (!r.isImm) ⟨h, Reg.ofCode r.d, Reg.ofCode r.a, Reg.ofCode r.b, Reg.ofCode r.c⟩
  | none => none

/-- X:F:E, the 24-bit offset or displacement (R243, R244). -/
def Raw.off24 (r : Raw) : BitVec 24 := r.x ++ r.f ++ r.e
/-- F:E, the 16-bit offset (R244). -/
def Raw.off16 (r : Raw) : BitVec 16 := r.f ++ r.e
/-- A global operand with the long offset (R244). -/
def Raw.gmem (r : Raw) : GMem := ⟨Reg.ofCode r.a, Reg.ofCode r.b, r.off24⟩
/-- A memory operand with the short offset (R244). -/
def Raw.smem (r : Raw) : SMem := ⟨Reg.ofCode r.a, Reg.ofCode r.b, r.off16⟩

/-- LDG, LDC and LDT (R327). -/
def Raw.ld (r : Raw) : Option Ld :=
  match r.hdr2, MTy.ofMod r.mod, Vec.ofBits (r.sub.extractLsb' 1 2) with
  | some h, some ty, some v => okIf (r.c == 0xFF#8) ⟨h, r.isImm, v, ty, Reg.ofCode r.d, r.gmem⟩
  | _, _, _ => none

/-- STG (R327). -/
def Raw.st (r : Raw) : Option St :=
  match r.hdr2, MTy.ofMod r.mod, Vec.ofBits (r.sub.extractLsb' 1 2) with
  | some h, some ty, some v => okIf (r.d == 0xFF#8) ⟨h, r.isImm, v, ty, Reg.ofCode r.c, r.gmem⟩
  | _, _, _ => none

/-- LDS, either form (R327). -/
def Raw.lds (r : Raw) : Option LdS :=
  match r.hdr2, MTy.ofMod r.mod, Vec.ofBits (r.sub.extractLsb' 1 2) with
  | some h, some ty, some v =>
    okIf (r.c == 0xFF#8 && r.hint.extractLsb' 2 2 == 0#2) ⟨h, r.isImm, v, ty, Reg.ofCode r.d, r.smem⟩
  | _, _, _ => none

/-- STS, either form (R327). -/
def Raw.sts (r : Raw) : Option StS :=
  match r.hdr2, MTy.ofMod r.mod, Vec.ofBits (r.sub.extractLsb' 1 2) with
  | some h, some ty, some v =>
    okIf (r.d == 0xFF#8 && r.hint.extractLsb' 2 2 == 0#2) ⟨h, r.isImm, v, ty, Reg.ofCode r.c, r.smem⟩
  | _, _, _ => none

/-- X and HINT 57:56 of a remote form as loaded (R249). -/
def Raw.coordX (r : Raw) : PCoord := ⟨r.hint.extractLsb' 0 2, r.x.extractLsb' 4 4, r.x.extractLsb' 0 4⟩

/-- HINT of a cached access (R327). -/
def Raw.chint (r : Raw) : CHint := ⟨r.hint.extractLsb' 2 2, r.hint.extractLsb' 0 2⟩

/-- ORDER and .ahead of an atomic (R327). -/
def Raw.ahdr (r : Raw) : Option AHdr :=
  match r.hdr2 with
  | some h => some ⟨h, Order.ofBits (r.sub.extractLsb' 2 2), r.sb 1⟩
  | none => none

/-- What RED combines (R344). -/
def Raw.redOp (r : Raw) : Option RedOp :=
  match ITy.ofMod r.mod with
  | some ty => (match AOp.ofBits r.hint with | some op => some (.int op ty) | none => none)
  | none =>
    (match AFTy.ofMod r.mod, AFOp.ofBits r.hint with
     | some ty, some op => some (.flt op ty)
     | _, _ => none)

/-- The tag and type of REDU (R345): the type code must be one the tag's row gives. -/
def Raw.reduOp (r : Raw) : Option ReduOp :=
  let tag : Fin 16 := r.hint.toFin
  match tag.val, r.mod.toNat with
  | 1, 1 => some ⟨tag, false⟩
  | 1, 2 => some ⟨tag, true⟩
  | 2, 3 => some ⟨tag, false⟩
  | 2, 4 => some ⟨tag, true⟩
  | 3, 1 => some ⟨tag, false⟩
  | 4, 1 => some ⟨tag, false⟩
  | 5, 2 => some ⟨tag, false⟩
  | 6, 2 => some ⟨tag, false⟩
  | 7, 1 => some ⟨tag, false⟩
  | 7, 2 => some ⟨tag, true⟩
  | 8, 1 => some ⟨tag, false⟩
  | 8, 2 => some ⟨tag, true⟩
  | 9, 1 => some ⟨tag, false⟩
  | 9, 2 => some ⟨tag, true⟩
  | 10, 9 => some ⟨tag, false⟩
  | 11, 12 => some ⟨tag, false⟩
  | 12, 9 => some ⟨tag, false⟩
  | 13, 9 => some ⟨tag, false⟩
  | 14, 9 => some ⟨tag, false⟩
  | _, _ => none

/-- MOD of a REDU (R345). -/
def ReduOp.mod (o : ReduOp) : BitVec 4 :=
  match o.tag.val, o.nTy with
  | 1, false => 1
  | 1, true => 2
  | 2, false => 3
  | 2, true => 4
  | 3, _ => 1
  | 4, _ => 1
  | 5, _ => 2
  | 6, _ => 2
  | 7, false => 1
  | 7, true => 2
  | 8, false => 1
  | 8, true => 2
  | 9, false => 1
  | 9, true => 2
  | 11, _ => 12
  | _, _ => 9

/-- ATOMS (R343). -/
def Raw.atoms (r : Raw) : Option Atoms :=
  let imm := bit1 (r.f.extractLsb' 7 1)
  let off : BitVec 15 := r.f.extractLsb' 0 7 ++ r.e
  let mk (a : AHdr) (op : AtomsOp) : Option Atoms := some ⟨a, op, Reg.ofCode r.d, Reg.ofCode r.a, Reg.ofCode r.b, off⟩
  match r.ahdr with
  | some a =>
    if r.hint = 9#4 then
      (match imm, CasTy.ofMod r.mod with
       | false, some ty => mk a (.cas ty (Reg.ofCode r.c))
       | _, _ => none)
    else if r.mod = 9#4 then
      (match imm, AFOp.ofBits r.hint with
       | false, some op => mk a (.flt op (Reg.ofCode r.c))
       | _, _ => none)
    else
      (match AOp.ofBits r.hint, ITy.ofMod r.mod with
       | some op, some ty => mk a (.int op ty (if imm then .imm r.c else .reg (Reg.ofCode r.c)))
       | _, _ => none)
  | none => none

/-- FLUSH and INVAL (R347). -/
def Raw.rng (r : Raw) : Option Rng :=
  match r.hdr2 with
  | some h =>
    okIf (r.mod == 0#4 && r.hint == 0#4 && r.sub3 == 0#3 && r.d == 0xFF#8 && r.b == 0xFF#8)
      ⟨h, Reg.ofCode r.a, r.off24, r.src3⟩
  | none => none

/-- OBLD and OBST (R358). -/
def Raw.ob (r : Raw) : Option Ob :=
  match r.hdr2, fin? 8 r.e with
  | some h, some n =>
    okIf (r.mod == 0#4 && r.hint == 0#4 && r.sub.extractLsb' 1 3 == 0#3 && r.d == 0xFF#8)
      ⟨h, r.sb 0, n, r.x ++ r.f, Reg.ofCode r.a, Reg.ofCode r.b, Reg.ofCode r.c⟩
  | _, _ => none

/-- Every field of a 64-bit instruction but the guard at its fixed value (R240). -/
def Raw.bare (r : Raw) : Bool :=
  r.d == 0xFF#8 && r.a == 0xFF#8 && r.b == 0xFF#8 && r.c == 0xFF#8 && r.mod == 0#4 && r.sub == 0#4 && r.hint == 0#4

/-- E, F and X at their fixed value (R240). -/
def Raw.extZero (r : Raw) : Bool := r.e == 0#8 && r.f == 0#8 && r.x == 0#8

/-! ### Opcodes (R251) -/

/-- Bind over a decoded part. -/
def andThen {α β : Type} (x : Option α) (f : α → Option β) : Option β :=
  match x with
  | some v => f v
  | none => none

/-- Opcodes 0x000 to 0x020: integer, logic, fields, compare, move (R269 to R285). -/
def decodeInt (r : Raw) : Option Instr :=
  match r.opc.toNat with
  | 0x000 => andThen r.int2 fun o => okIf (!r.sb 1 && !r.sb 0) (.iadd (r.sb 2) o)
  | 0x001 => andThen r.int2 fun o => okIf (!r.sb 1 && !r.sb 0) (.isub (r.sb 2) o)
  | 0x002 => andThen r.int2 fun o => okIf (r.sub3 == 0#3) (.imul o)
  | 0x003 => andThen r.int2 fun o => okIf (r.sub3 == 0#3) (.imulh o)
  | 0x004 => andThen r.int3 fun o => okIf (!r.sb 1 && !r.sb 0) (.imad (r.sb 2) o)
  | 0x005 => andThen r.int3n fun o => some (.imadw o)
  | 0x006 =>
    andThen r.hdr fun h => andThen (ITy.ofMod r.mod) fun ty => andThen (PSrc.of8 r.c) fun p =>
      okIf (r.hint == 0#4 && !r.isImm && !r.sb 2 && !r.sb 0)
        (.iaddc h (r.sb 1) ty (Reg.ofCode r.d) (Reg.ofCode r.a) (Reg.ofCode r.b) p)
  | 0x007 => andThen r.int2 fun o => okIf (r.sub3 == 0#3) (.imin o)
  | 0x008 => andThen r.int2 fun o => okIf (r.sub3 == 0#3) (.imax o)
  | 0x009 => andThen r.ints1 fun o => some (.iabs o)
  | 0x00A => andThen r.ints1 fun o => some (.ineg o)
  | 0x00B => andThen r.int2 fun o => okIf (r.sub3 == 0#3) (.and o)
  | 0x00C => andThen r.int2 fun o => okIf (r.sub3 == 0#3) (.or o)
  | 0x00D => andThen r.int2 fun o => okIf (r.sub3 == 0#3) (.xor o)
  | 0x00E => andThen r.int1 fun o => some (.not o)
  | 0x00F =>
    andThen r.hdr2 fun h => andThen (ITy.ofMod r.mod) fun ty => andThen (fin? 16 r.e) fun fn =>
      okIf (r.hint == 0#4 && r.sub3 == 0#3 && r.f == 0#8 && r.x == 0#8)
        (.bool3 h fn ty (Reg.ofCode r.d) (Reg.ofCode r.a) (Reg.ofCode r.b) r.src3)
  | 0x010 => andThen r.int2 fun o => okIf (r.sub3 == 0#3) (.shl o)
  | 0x011 => andThen r.int2 fun o => okIf (r.sub3 == 0#3) (.shr o)
  | 0x012 => andThen r.int2 fun o => okIf (r.sub3 == 0#3) (.shra o)
  | 0x013 => andThen r.int3n fun o => some (.shd o)
  | 0x014 => andThen r.int2 fun o => okIf (r.sub3 == 0#3) (.rot o)
  | 0x015 => andThen r.int3 fun o => okIf (r.sub3 == 0#3) (.bfe o)
  | 0x016 =>
    andThen r.hdr2 fun h => andThen (ITy.ofMod r.mod) fun ty =>
      let sel := if r.isImm then okIf (r.c == 0xFF#8) (BfiSel.imm r.e r.f)
        else okIf (r.e == 0#8 && r.f == 0#8) (BfiSel.reg (Reg.ofCode r.c))
      andThen sel fun sel => okIf (r.hint == 0#4 && r.sub3 == 0#3 && r.x == 0#8)
        (.bfi h ty (Reg.ofCode r.d) (Reg.ofCode r.a) (Reg.ofCode r.b) sel)
  | 0x017 => andThen r.int1 fun o => some (.popc o)
  | 0x018 => andThen r.int1 fun o => some (.clz o)
  | 0x019 => andThen r.int1 fun o => some (.brev o)
  | 0x01A =>
    andThen r.hdr fun h => okIf (r.mod == 0#4 && r.sub == 0#4 && r.hint == 0#4)
      (.bsel h (Reg.ofCode r.d) (Reg.ofCode r.a) (Reg.ofCode r.b) (Reg.ofCode r.c))
  | 0x01B =>
    andThen r.hdr fun h => andThen (ITy.ofMod r.mod) fun ty => andThen (CC.ofBits r.sub3) fun cc =>
      andThen (pd8 r.d) fun pd => andThen r.src2 fun b => okIf (r.hint == 0#4)
        (.icmp h cc ty pd (Reg.ofCode r.a) b)
  | 0x01C =>
    andThen r.hdr fun h => andThen (ITy.ofMod r.mod) fun ty => andThen (PSrc.of8 r.c) fun p =>
      okIf (r.hint == 0#4 && r.sub == 0#4) (.isel h ty (Reg.ofCode r.d) (Reg.ofCode r.a) (Reg.ofCode r.b) p)
  | 0x01D =>
    andThen r.hdr fun h => andThen (MovTy.ofMod r.mod) fun ty =>
      okIf (r.hint == 0#4 && r.sub == 0#4 && r.b == 0xFF#8 && r.c == 0xFF#8)
        (.mov h ty (Reg.ofCode r.d) (Reg.ofCode r.a))
  | 0x01E =>
    andThen r.hdr2 fun h =>
      okIf (r.mod == 0#4 && r.hint == 0#4 && r.sub.extractLsb' 1 3 == 0#3 && r.a == 0xFF#8 && r.b == 0xFF#8 &&
        r.c == 0xFF#8 && r.extZero) (.movi h (r.sb 0) (Reg.ofCode r.d) r.imm)
  | 0x01F =>
    andThen r.hdr fun h => andThen (SReg.ofBits r.hint) fun sel =>
      okIf (r.mod == 0#4 && r.sub == 0#4 && r.a == 0xFF#8 && r.b == 0xFF#8 && r.c == 0xFF#8)
        (.movsr h sel (Reg.ofCode r.d))
  | 0x020 =>
    andThen r.hdr2 fun h => okIf (r.mod == 0#4 && r.hint == 0#4 && !r.isImm && r.c == 0xFF#8)
      (.lea h (r.sb 2) (r.sub.extractLsb' 0 2) (Reg.ofCode r.d) r.gmem)
  | _ => none

/-- Opcodes 0x040 to 0x09D: floating point, special functions, conversion, packing (R304 to R324). -/
def decodeFloat (r : Raw) : Option Instr :=
  match r.opc.toNat with
  | 0x040 => andThen r.farith fun o => okIf (!r.isImm && r.c == 0xFF#8) (.fadd o)
  | 0x041 => andThen r.farith fun o => okIf (!r.isImm && r.c == 0xFF#8) (.fsub o)
  | 0x042 => andThen r.farith fun o => okIf (!r.isImm && r.c == 0xFF#8) (.fmul o)
  | 0x043 => andThen r.farith fun o => some (.ffma o r.isImm (Reg.ofCode r.c))
  | 0x044 => andThen r.fminmax fun o => some (.fmin o)
  | 0x045 => andThen r.fminmax fun o => some (.fmax o)
  | 0x046 =>
    andThen r.hdr fun h => andThen (FTy.ofMod r.mod) fun ty => andThen (fin? 14 r.c) fun cc => andThen (pd8 r.d) fun pd =>
      okIf (r.sub.extractLsb' 1 3 == 0#3) (.fcmp h ty (r.sb 0) cc pd r.fa r.fbOp)
  | 0x047 =>
    andThen r.hdr fun h => andThen (FTy.ofMod r.mod) fun ty => andThen (PSrc.of8 r.c) fun p =>
      okIf (r.sub == 0#4 && r.hint == 0#4) (.fsel h ty (Reg.ofCode r.d) (Reg.ofCode r.a) (Reg.ofCode r.b) p)
  | 0x048 =>
    andThen r.hdr fun h => andThen (FTy.ofMod r.mod) fun ty =>
      okIf (r.sub == 0#4 && r.hint == 0#4 && r.b == 0xFF#8 && r.c == 0xFF#8)
        (.fclass h ty (Reg.ofCode r.d) (Reg.ofCode r.a))
  | 0x049 => andThen r.fun1 fun o => okIf (r.b == 0xFF#8) (.frnd o)
  | 0x04A => andThen r.fun1 fun o => some (.fscale o (Reg.ofCode r.b))
  | 0x080 => andThen r.sfu fun o => some (.rcp o)
  | 0x081 => andThen r.sfu fun o => some (.rsq o)
  | 0x082 => andThen r.sfu fun o => some (.sqrt o)
  | 0x083 => andThen r.sfu fun o => some (.exp2 o)
  | 0x084 => andThen r.sfu fun o => some (.log2 o)
  | 0x085 => andThen r.sfu fun o => some (.sin o)
  | 0x086 => andThen r.sfu fun o => some (.cos o)
  | 0x087 => andThen r.sfu fun o => some (.tanh o)
  | 0x088 => andThen r.sfu fun o => some (.sigm o)
  | 0x090 => andThen r.cvt fun o => okIf (r.b == 0xFF#8) (.cvt r.rm o)
  | 0x091 => andThen r.cvt fun o => okIf (r.sub.extractLsb' 1 2 == 0#2) (.cvtSr (Reg.ofCode r.b) o)
  | 0x092 => andThen r.cvt fun o => okIf (r.b == 0xFF#8) (.cvtx r.rm o)
  | 0x093 =>
    andThen r.hdr fun h => andThen (EWidth.ofBits (r.hint.extractLsb' 0 3)) fun w =>
      okIf (r.mod == 0#4 && r.sub == 0#4 && !bit1 (r.hint.extractLsb' 3 1) && r.c.extractLsb' 4 4 == 0#4)
        (.pack h w (Reg.ofCode r.d) (Reg.ofCode r.a) (Reg.ofCode r.b) (r.c.extractLsb' 0 4))
  | 0x094 =>
    andThen r.hdr fun h => andThen (EWidth.ofBits (r.hint.extractLsb' 0 3)) fun w =>
      let mode : Option UnpkMode := match r.sub.toNat with
        | 0 => some .zero
        | 2 => some .sign
        | 4 => some .t2
        | _ => none
      andThen mode fun m =>
        okIf (r.mod == 0#4 && !bit1 (r.hint.extractLsb' 3 1) && r.c.extractLsb' 4 4 == 0#4 && r.b == 0xFF#8)
          (.unpk h m w (Reg.ofCode r.d) (Reg.ofCode r.a) (r.c.extractLsb' 0 4))
  | 0x098 =>
    andThen r.dot fun o =>
      let k : Option Dp4Kind := match r.hint.toNat with
        | 0 => okIf (!r.sb 2) (.int (r.sb 1) (r.sb 0))
        | 1 => okIf (!r.sb 0) (.flt r.rm false false)
        | 2 => okIf (!r.sb 0) (.flt r.rm true true)
        | 3 => okIf (!r.sb 0) (.flt r.rm false true)
        | 4 => okIf (!r.sb 0) (.flt r.rm true false)
        | _ => none
      andThen k fun k => okIf (r.mod == 0#4) (.dp4 k o)
  | 0x099 =>
    andThen r.dot fun o =>
      let k : Option Dp8Kind := match r.hint.toNat with
        | 0 => okIf (!r.sb 2) (.int (r.sb 1) (r.sb 0))
        | 1 => okIf (!r.sb 0) (.flt r.rm)
        | _ => none
      andThen k fun k => okIf (r.mod == 0#4) (.dp8 k o)
  | 0x09A =>
    andThen r.dot fun o =>
      let k : Option Dp2Kind := match r.hint.toNat with
        | 0 => okIf (!r.sb 2) (.int (r.sb 1) (r.sb 0))
        | 1 => okIf (!r.sb 0) (.flt r.rm false)
        | 2 => okIf (!r.sb 0) (.flt r.rm true)
        | _ => none
      andThen k fun k => okIf (r.mod == 0#4) (.dp2 k o)
  | 0x09B =>
    andThen r.dot fun o =>
      let bf : Option Bool := match r.mod.toNat with
        | 11 => some false
        | 12 => some true
        | _ => none
      andThen bf fun bf => okIf (r.hint == 0#4) (.pfma r.rm bf (r.sb 0) o)
  | 0x09C =>
    andThen r.hdr fun h =>
      okIf (r.mod == 0#4 && r.hint == 0#4 && r.sub.extractLsb' 2 2 == 0#2 && (r.sb 0 || r.sb 1) && r.d == 0xFF#8 &&
        r.a == 0xFF#8 && r.b == 0xFF#8 && r.c == 0xFF#8) (.clrmx h (r.sb 0) (r.sb 1))
  | 0x09D =>
    andThen r.hdr fun h =>
      okIf (r.mod == 0#4 && r.hint == 0#4 && r.sub.extractLsb' 2 2 == 0#2 && r.a == 0xFF#8 && r.b == 0xFF#8 &&
        r.c == 0xFF#8) (.rdmx h (r.sb 1) (r.sb 0) (Reg.ofCode r.d))
  | _ => none

/-- Opcodes 0x0C0 to 0x0D9: branches, strand control, predicates (R286 to R301). PUB of a scalar register, zr or p47 and JOIN of a
scalar register or zr are no instruction here, so that they trap at check 7 of R252; the entries trap them in no stated order (log 122,
the model's reading). -/
def decodeControl (r : Raw) : Option Instr :=
  let noReg := r.d == 0xFF#8 && r.a == 0xFF#8 && r.b == 0xFF#8 && r.c == 0xFF#8
  let zero := r.mod == 0#4 && r.sub == 0#4 && r.hint == 0#4
  match r.opc.toNat with
  | 0x0C0 => andThen r.hdr2 fun h => okIf (noReg && zero) (.bra h r.off24)
  | 0x0C1 => andThen r.hdr2 fun h => okIf (noReg && zero) (.braAny h r.off24)
  | 0x0C2 => andThen r.hdr2 fun h => okIf (noReg && zero) (.braAll h r.off24)
  | 0x0C3 =>
    andThen r.hdr2 fun h =>
      let t := if r.sb 0 then okIf (r.extZero) (CallTarget.reg (Reg.ofCode r.a))
        else okIf (r.a == 0xFF#8) (CallTarget.disp r.off24)
      andThen t fun t =>
        okIf (r.mod == 0#4 && r.hint == 0#4 && r.sub.extractLsb' 1 3 == 0#3 && r.b == 0xFF#8 && r.c == 0xFF#8)
          (.call h (Reg.ofCode r.d) t)
  | 0x0C4 =>
    andThen r.hdr fun h => okIf (zero && r.d == 0xFF#8 && r.b == 0xFF#8 && r.c == 0xFF#8) (.ret h (Reg.ofCode r.a))
  | 0x0C5 =>
    andThen r.hdr fun h => okIf (zero && r.d == 0xFF#8 && r.b == 0xFF#8 && r.c == 0xFF#8) (.jmpi h (Reg.ofCode r.a))
  | 0x0C8 =>
    andThen r.hdr2 fun h => andThen (fin? 8 r.c) fun f => andThen (PSrc.of8 r.a) fun p =>
      okIf (zero && r.d == 0xFF#8 && r.b == 0xFF#8) (.fork h f p r.off24 r.imm)
  | 0x0C9 =>
    andThen r.hdr fun h => andThen (fin? 8 r.c) fun f =>
      okIf (zero && r.d == 0xFF#8 && r.a == 0xFF#8 && r.b == 0xFF#8) (.endarm h f)
  | 0x0CA =>
    andThen r.hdr fun h => andThen (fin? 8 r.c) fun f =>
      let w : Option PubWhat :=
        if r.sb 0 then (match fin? 47 r.a with | some n => some (.p n) | none => none)
        else (match Reg.ofCode r.a with | .v n => some (.v n) | _ => none)
      andThen w fun w =>
        okIf (r.mod == 0#4 && r.hint == 0#4 && r.sub.extractLsb' 1 3 == 0#3 && r.d == 0xFF#8 && r.b == 0xFF#8)
          (.pub h f w)
  | 0x0CB =>
    andThen r.hdr fun h => andThen (fin? 8 r.c) fun f =>
      (match Reg.ofCode r.d, Reg.ofCode r.a, Reg.ofCode r.b with
       | .v d, .v a, .v b => okIf zero (.join h f d a b)
       | _, _, _ => none)
  | 0x0CC =>
    andThen r.hdr fun h => andThen (fin? 8 r.c) fun f => andThen (pd8 r.d) fun d => andThen (PSrc.of8 r.a) fun a =>
      andThen (PSrc.of8 r.b) fun b => okIf zero (.joinp h f d a b)
  | 0x0CD =>
    andThen r.hdr fun h => andThen (fin? 8 r.c) fun f =>
      okIf (zero && r.d == 0xFF#8 && r.a == 0xFF#8 && r.b == 0xFF#8) (.memdone h f)
  | 0x0CE => andThen r.hdr fun h => okIf r.bare (.exit h)
  | 0x0CF => andThen r.hdr fun h => okIf r.bare (.nop h)
  | 0x0D0 => andThen r.hdr2 fun h => okIf (r.bare && r.extZero) (.nopW h)
  | 0x0D8 =>
    andThen r.hdr fun h => andThen (POp.ofBits (r.sub.extractLsb' 0 2)) fun op => andThen (pd8 r.d) fun pd =>
      andThen (PSrc.of8 r.a) fun a => andThen (PSrc.of8 r.b) fun b =>
        okIf (r.mod == 0#4 && r.hint == 0#4 && r.sub.extractLsb' 2 2 == 0#2 && r.c == 0xFF#8) (.pset h op pd a b)
  | 0x0D9 =>
    andThen r.hdr fun h =>
      let form := if r.sb 0 then okIf (r.d == 0xFF#8) (PMovForm.fromReg (r.sb 1) (Reg.ofCode r.a))
        else okIf (r.a == 0xFF#8) (PMovForm.toReg (r.sb 1) (Reg.ofCode r.d))
      andThen form fun form =>
        okIf (r.mod == 0#4 && r.hint == 0#4 && r.sub.extractLsb' 2 2 == 0#2 && r.b == 0xFF#8 && r.c == 0xFF#8)
          (.pmov h form)
  | _ => none

/-- Opcodes 0x100 to 0x127: memory (R327 to R350). -/
def decodeMemory (r : Raw) : Option Instr :=
  let noReg := r.d == 0xFF#8 && r.a == 0xFF#8 && r.b == 0xFF#8 && r.c == 0xFF#8
  match r.opc.toNat with
  | 0x100 => andThen r.ld fun o => some (.ldg o (r.sb 0) r.chint)
  | 0x101 => andThen r.st fun o => some (.stg o (r.sb 0) r.chint)
  | 0x102 =>
    andThen r.lds fun o =>
      if r.sb 0 then some (.ldsRemote o r.coordX) else okIf (r.x == 0#8 && r.hint == 0#4) (.lds o)
  | 0x103 =>
    andThen r.sts fun o =>
      if r.sb 0 then some (.stsRemote o r.coordX) else okIf (r.x == 0#8 && r.hint == 0#4) (.sts o)
  | 0x104 =>
    andThen r.ld fun o => okIf (!r.sb 0 && r.hint.extractLsb' 0 2 == 0#2) (.ldc o (r.hint.extractLsb' 2 2))
  | 0x105 =>
    andThen r.ld fun o => okIf (!r.sb 0 && r.hint.extractLsb' 0 2 == 0#2) (.ldt o (r.hint.extractLsb' 2 2))
  | 0x106 =>
    andThen r.hdr2 fun h => okIf (r.mod == 0#4 && r.sub.extractLsb' 2 2 == 0#2 && r.d == 0xFF#8 && r.c == 0xFF#8)
      (.pref h (PrefLevel.ofBits (r.sub.extractLsb' 0 2)) r.gmem r.chint)
  | 0x110 =>
    andThen r.ahdr fun a => andThen (AOp.ofBits r.hint) fun op => andThen (ITy.ofMod r.mod) fun ty =>
      okIf (!r.sb 0) (.atom a op ty (Reg.ofCode r.d) r.gmem (Reg.ofCode r.c))
  | 0x111 =>
    andThen r.ahdr fun a => andThen (CasTy.ofMod r.mod) fun ty => okIf (!r.sb 0 && r.hint == 0#4)
      (.cas a ty (Reg.ofCode r.d) r.smem (Reg.ofCode r.c) (Reg.ofCode r.x))
  | 0x112 =>
    andThen r.ahdr fun a => andThen (AFOp.ofBits r.hint) fun op => andThen (AFTy.ofMod r.mod) fun ty =>
      okIf (!r.sb 0) (.atomf a op ty (Reg.ofCode r.d) r.gmem (Reg.ofCode r.c))
  | 0x113 =>
    andThen r.ahdr fun a => andThen (HOp.ofBits r.hint) fun op => andThen (ITy.ofMod r.mod) fun ty =>
      okIf (!r.sb 0) (.hop a op ty (Reg.ofCode r.d) r.smem (Reg.ofCode r.c) (Reg.ofCode r.x))
  | 0x114 =>
    andThen r.hdr2 fun h => andThen r.redOp fun op => okIf (r.sub3 == 0#3 && r.d == 0xFF#8)
      (.red h r.isImm op r.gmem (Reg.ofCode r.c))
  | 0x115 =>
    andThen r.hdr2 fun h => andThen r.reduOp fun op => okIf (r.sub3 == 0#3 && r.d == 0xFF#8)
      (.redu h r.isImm op r.gmem (Reg.ofCode r.c))
  | 0x116 =>
    andThen r.atoms fun o =>
      if r.sb 0 then some (.atomsRemote o (r.x.extractLsb' 4 4) (r.x.extractLsb' 0 4)) else okIf (r.x == 0#8) (.atoms o)
  | 0x120 => andThen r.hdr fun h => okIf r.bare (.fence h)
  | 0x121 =>
    andThen r.hdr fun h =>
      okIf (noReg && r.mod == 0#4 && r.hint == 0#4 && r.sub.extractLsb' 2 2 == 0#2 && (r.sb 0 || r.sb 1))
        (.pfence h (r.sb 0) (r.sb 1))
  | 0x122 => andThen r.rng fun o => some (.flush o)
  | 0x123 => andThen r.rng fun o => some (.inval o)
  | 0x124 => andThen r.hdr fun h => okIf r.bare (.sdrain h)
  | 0x125 =>
    andThen r.hdr2 fun h => andThen (CC.ofBits r.sub3) fun cc => andThen (ITy.ofMod r.mod) fun ty =>
      okIf (r.hint == 0#4) (.waitw ⟨h, cc, r.isImm, ty, Reg.ofCode r.d, r.gmem, Reg.ofCode r.c⟩)
  | 0x126 =>
    andThen r.hdr fun h => andThen r.src2 fun n =>
      okIf (r.mod == 0#4 && r.hint == 0#4 && r.sub3 == 0#3 && r.d == 0xFF#8) (.sppin h (Reg.ofCode r.a) n)
  | 0x127 =>
    andThen r.hdr fun h => andThen r.src2 fun n =>
      okIf (r.mod == 0#4 && r.hint == 0#4 && r.sub3 == 0#3 && r.d == 0xFF#8) (.spunpin h (Reg.ofCode r.a) n)
  | _ => none

/-- Opcodes 0x160 to 0x181: operand buffer, matrix engine, access slice, copy engines (R356 to R387). -/
def decodeEngine (r : Raw) : Option Instr :=
  let zero := r.mod == 0#4 && r.sub == 0#4 && r.hint == 0#4
  let abc := r.a == 0xFF#8 && r.b == 0xFF#8 && r.c == 0xFF#8
  match r.opc.toNat with
  | 0x160 =>
    andThen r.hdr2 fun h => andThen (fin? 8 r.f) fun n =>
      okIf (r.mod == 0#4 && r.hint == 0#4 && r.x == 0#8 && r.sub.extractLsb' 1 3 == 0#3 && r.e.extractLsb' 5 3 == 0#3)
        (.resv h (r.sb 0) (r.e.extractLsb' 0 5) n (Reg.ofCode r.d) (Reg.ofCode r.a) (Reg.ofCode r.b) (Reg.ofCode r.c))
  | 0x161 =>
    andThen r.hdr fun h => andThen (fin? 8 r.c) fun n =>
      okIf (zero && r.d == 0xFF#8 && r.a == 0xFF#8 && r.b == 0xFF#8) (.relv h n)
  | 0x162 => andThen r.ob fun o => some (.obld o)
  | 0x163 => andThen r.ob fun o => some (.obst o)
  | 0x164 =>
    andThen r.hdr fun h => okIf (zero && r.d == 0xFF#8 && r.b == 0xFF#8 && r.c == 0xFF#8) (.mma h (Reg.ofCode r.a))
  | 0x165 =>
    andThen r.hdr fun h => andThen (fin? 4 r.c) fun n => okIf (zero && r.a == 0xFF#8 && r.b == 0xFF#8)
      (.mmawait h (Reg.ofCode r.d) n)
  | 0x166 => andThen r.hdr fun h => okIf (zero && abc) (.mqstat h (Reg.ofCode r.d))
  | 0x167 =>
    andThen r.hdr fun h => okIf (abc && r.mod == 0#4 && r.hint == 0#4 && r.sub.extractLsb' 1 3 == 0#3)
      (.rowp h (r.sb 0) (Reg.ofCode r.d))
  | 0x170 =>
    andThen r.hdr2 fun h => andThen (fin? 4 r.e) fun k =>
      let cnt := if r.a = 0xFF#8 then some (AsCount.imm r.imm) else okIf (r.imm == 0#32) (AsCount.reg (Reg.ofCode r.a))
      andThen cnt fun cnt =>
        okIf (zero && r.d == 0xFF#8 && r.b == 0xFF#8 && r.c == 0xFF#8 && r.f == 0#8 && r.x == 0#8) (.asLoop h k cnt)
  | 0x171 =>
    andThen r.hdr2 fun h => andThen (fin? 4 r.e) fun q =>
      let form : Option AsAddr := match (r.sub.extractLsb' 0 2).toNat with
        | 0 => okIf (r.f == 0#8 && r.imm == 0#32) (.base q (Reg.ofCode r.a))
        | 2 => okIf (r.f == 0#8 && r.imm == 0#32) (.baseSp q (Reg.ofCode r.a))
        | 1 => andThen (fin? 5 r.f) fun k => okIf (r.a == 0xFF#8) (.str q k r.imm)
        | _ => none
      andThen form fun form =>
        okIf (r.mod == 0#4 && r.hint == 0#4 && r.sub.extractLsb' 2 2 == 0#2 && r.d == 0xFF#8 && r.b == 0xFF#8 &&
          r.c == 0xFF#8 && r.x == 0#8) (.asAddr h form)
  | 0x172 =>
    andThen r.hdr fun h => andThen (fin? 4 r.d) fun q => andThen (PushTy.ofMod r.mod) fun ty =>
      okIf (r.sub == 0#4 && r.hint == 0#4 && r.a == 0xFF#8 && r.c == 0xFF#8) (.asPush h q ty (Reg.ofCode r.b))
  | 0x173 =>
    andThen r.hdr fun h =>
      let ok := abc && r.d == 0xFF#8 && r.mod == 0#4 && r.hint == 0#4 && r.sub.extractLsb' 1 3 == 0#3
      if r.sb 0 then okIf ok (.asEndAbort h) else okIf ok (.asEnd h)
  | 0x174 =>
    andThen r.hdr fun h => andThen (fin? 4 r.c) fun q => okIf (zero && r.a == 0xFF#8 && r.b == 0xFF#8)
      (.pop h (Reg.ofCode r.d) q)
  | 0x175 =>
    andThen r.hdr fun h => andThen (fin? 4 r.c) fun q => okIf (zero && r.a == 0xFF#8 && r.b == 0xFF#8)
      (.fqstat h (Reg.ofCode r.d) q)
  | 0x180 => andThen r.hdr fun h => okIf (zero && abc) (.prom h (Reg.ofCode r.d))
  | 0x181 =>
    andThen r.hdr fun h =>
      okIf (r.mod == 0#4 && r.hint == 0#4 && r.sub.extractLsb' 1 3 == 0#3 && r.d == 0xFF#8 && r.b == 0xFF#8 &&
        r.c == 0xFF#8) (.sleep h (r.sb 0) (Reg.ofCode r.a))
  | _ => none

/-- Opcodes 0x1A0 to 0x1D5: masks, barriers, lanes, launch, traps, counters (R390 to R411). -/
def decodeSystem (r : Raw) : Option Instr :=
  let noReg := r.d == 0xFF#8 && r.a == 0xFF#8 && r.b == 0xFF#8 && r.c == 0xFF#8
  let zero := r.mod == 0#4 && r.sub == 0#4
  match r.opc.toNat with
  | 0x1A0 => andThen r.hdr fun h => andThen (fin? 12 r.hint) fun k => okIf (zero && noReg) (.mjoin h k)
  | 0x1A1 => andThen r.hdr fun h => andThen (fin? 12 r.hint) fun k => okIf (zero && noReg) (.mleave h k)
  | 0x1A2 =>
    andThen r.hdr fun h => andThen (fin? 12 r.hint) fun k => andThen r.src2 fun b =>
      okIf (r.mod == 0#4 && r.sub.extractLsb' 1 2 == 0#2 && r.d == 0xFF#8 && r.a == 0xFF#8) (.mwait h (r.sb 0) k b)
  | 0x1A3 =>
    andThen r.hdr fun h => andThen (fin? 12 r.hint) fun k => andThen r.src2 fun b =>
      okIf (r.mod == 0#4 && r.sub3 == 0#3 && r.d == 0xFF#8 && r.a == 0xFF#8) (.mset h k b)
  | 0x1A4 =>
    andThen r.hdr fun h => andThen (fin? 12 r.hint) fun k =>
      okIf (zero && r.a == 0xFF#8 && r.b == 0xFF#8 && r.c == 0xFF#8) (.mget h (Reg.ofCode r.d) k)
  | 0x1A8 =>
    andThen r.hdr fun h => okIf (zero && r.d == 0xFF#8 && r.a == 0xFF#8 && r.c == 0xFF#8)
      (.bar h r.hint.toFin (Reg.ofCode r.b))
  | 0x1A9 =>
    andThen r.hdr fun h => okIf (zero && r.a == 0xFF#8 && r.c == 0xFF#8)
      (.bara h (Reg.ofCode r.d) r.hint.toFin (Reg.ofCode r.b))
  | 0x1AA =>
    andThen r.hdr fun h => okIf (zero && r.d == 0xFF#8 && r.b == 0xFF#8 && r.c == 0xFF#8)
      (.barw h r.hint.toFin (Reg.ofCode r.a))
  | 0x1AB =>
    andThen r.hdr fun h => okIf (zero && r.c == 0xFF#8)
      (.sbar h (Reg.ofCode r.d) r.hint.toFin (Reg.ofCode r.a) (Reg.ofCode r.b))
  | 0x1B0 =>
    andThen r.hdr fun h => andThen (PSrc.of8 r.a) fun pa =>
      let dst : Option VoteDst := match (r.sub.extractLsb' 0 2).toNat with
        | 0 => some (.ballot (Reg.ofCode r.d))
        | 1 => some (.count (Reg.ofCode r.d))
        | 2 => andThen (pd8 r.d) fun p => some (.any p)
        | _ => andThen (pd8 r.d) fun p => some (.all p)
      andThen dst fun dst =>
        okIf (r.mod == 0#4 && r.hint == 0#4 && r.sub.extractLsb' 2 2 == 0#2 && r.b == 0xFF#8 && r.c == 0xFF#8)
          (.vote h dst pa)
  | 0x1B1 =>
    andThen r.hdr fun h => andThen (ShTy.ofMod r.mod) fun ty =>
      okIf (r.hint == 0#4 && !r.sb 2)
        (.shfl h (ShflMode.ofBits (r.sub.extractLsb' 0 2)) ty (Reg.ofCode r.d) (Reg.ofCode r.a) r.src3 (Reg.ofCode r.b))
  | 0x1B2 =>
    andThen r.hdr fun h => andThen (MatTy.ofMod r.mod) fun ty =>
      okIf (r.hint == 0#4 && r.sub.extractLsb' 1 3 == 0#3 && r.b == 0xFF#8 && r.c == 0xFF#8)
        (.matchI h (r.sb 0) ty (Reg.ofCode r.d) (Reg.ofCode r.a))
  | 0x1B3 =>
    andThen r.hdr fun h =>
      let op : Option RxOp := match r.mod.toNat with
        | 1 => andThen (fin? 6 r.hint) fun k => some (.int k true)
        | 2 => andThen (fin? 6 r.hint) fun k => some (.int k false)
        | 9 => (match r.hint.toNat with
          | 1 => some .fmin
          | 2 => some .fmax
          | _ => none)
        | _ => none
      andThen op fun op => okIf (r.sub == 0#4 && r.b == 0xFF#8 && r.c == 0xFF#8)
        (.redux h op (Reg.ofCode r.d) (Reg.ofCode r.a))
  | 0x1B4 =>
    andThen r.hdr fun h =>
      let dst : Option ElectDst := if r.sb 0 then some (.id (Reg.ofCode r.d)) else andThen (pd8 r.d) fun p => some (.pred p)
      andThen dst fun dst =>
        okIf (r.mod == 0#4 && r.hint == 0#4 && r.sub.extractLsb' 1 3 == 0#3 && r.a == 0xFF#8 && r.b == 0xFF#8 &&
          r.c == 0xFF#8) (.elect h dst)
  | 0x1D0 =>
    andThen r.hdr fun h =>
      let base := r.mod == 0#4 && r.hint.extractLsb' 2 2 == 0#2 && r.sub.extractLsb' 2 2 == 0#2 && r.b == 0xFF#8
      let none? := r.c == 0xFF#8 && r.hint.extractLsb' 0 2 == 0#2
      match (r.sub.extractLsb' 0 2).toNat with
      | 0 => okIf (base && none?) (.launch h (Reg.ofCode r.d) (Reg.ofCode r.a) none)
      | 1 =>
        okIf base (.launch h (Reg.ofCode r.d) (Reg.ofCode r.a)
          (some ⟨r.hint.extractLsb' 0 2, r.c.extractLsb' 4 4, r.c.extractLsb' 0 4⟩))
      | 2 => okIf (base && none? && r.d == 0xFF#8) (.launchCwait h (Reg.ofCode r.a))
      | _ => none
  | 0x1D1 => andThen r.hdr2 fun h => okIf (r.bare && r.extZero) (.trap h r.imm)
  | 0x1D2 =>
    andThen r.hdr fun h => okIf (zero && r.hint == 0#4 && r.d == 0xFF#8 && r.a == 0xFF#8 && r.b == 0xFF#8)
      (.bkpt h r.c)
  | 0x1D3 => andThen r.hdr fun h => okIf r.bare (.halt h)
  | 0x1D4 =>
    andThen r.hdr fun h => andThen (fin? 4 r.c) fun sel =>
      okIf (r.mod == 0#4 && r.hint == 0#4 && r.sub.extractLsb' 1 3 == 0#3 && r.a == 0xFF#8 && r.b == 0xFF#8)
        (.perf h (r.sb 0) sel (Reg.ofCode r.d))
  | 0x1D5 =>
    andThen r.hdr fun h =>
      let base := r.mod == 0#4 && r.hint == 0#4 && r.sub.extractLsb' 2 2 == 0#2 && r.b == 0xFF#8 && r.c == 0xFF#8
      match (r.sub.extractLsb' 0 2).toNat with
      | 0 => okIf (base && r.d == 0xFF#8) (.sampctlStart h (Reg.ofCode r.a))
      | 1 => okIf (base && r.d == 0xFF#8 && r.a == 0xFF#8) (.sampctlStop h)
      | 2 => okIf (base && r.a == 0xFF#8) (.sampctlDrop h (Reg.ofCode r.d))
      | _ => none
  | _ => none

/-- The length R251 gives an opcode, in bytes; none for an unassigned or reserved one. -/
def opcLen (o : BitVec 9) : Option Nat :=
  let n := o.toNat
  if n ≤ 0x00E then some 8
  else if n = 0x00F then some 12
  else if n ≤ 0x015 then some 8
  else if n = 0x016 then some 12
  else if n ≤ 0x01D then some 8
  else if n = 0x01E then some 16
  else if n = 0x01F then some 8
  else if n = 0x020 then some 12
  else if n < 0x040 then none
  else if n ≤ 0x04A then some 8
  else if n < 0x080 then none
  else if n ≤ 0x088 then some 8
  else if n < 0x090 then none
  else if n ≤ 0x092 then some 12
  else if n ≤ 0x094 then some 8
  else if n < 0x098 then none
  else if n ≤ 0x09D then some 8
  else if n < 0x0C0 then none
  else if n ≤ 0x0C3 then some 12
  else if n ≤ 0x0C5 then some 8
  else if n < 0x0C8 then none
  else if n = 0x0C8 then some 16
  else if n ≤ 0x0CF then some 8
  else if n = 0x0D0 then some 12
  else if n < 0x0D8 then none
  else if n ≤ 0x0D9 then some 8
  else if n < 0x100 then none
  else if n ≤ 0x106 then some 12
  else if n < 0x110 then none
  else if n ≤ 0x116 then some 12
  else if n < 0x120 then none
  else if n ≤ 0x121 then some 8
  else if n ≤ 0x123 then some 12
  else if n = 0x124 then some 8
  else if n = 0x125 then some 12
  else if n ≤ 0x127 then some 8
  else if n < 0x160 then none
  else if n = 0x160 then some 12
  else if n = 0x161 then some 8
  else if n ≤ 0x163 then some 12
  else if n ≤ 0x167 then some 8
  else if n < 0x170 then none
  else if n ≤ 0x171 then some 16
  else if n ≤ 0x175 then some 8
  else if n < 0x180 then none
  else if n ≤ 0x181 then some 8
  else if n < 0x1A0 then none
  else if n ≤ 0x1A4 then some 8
  else if n < 0x1A8 then none
  else if n ≤ 0x1AB then some 8
  else if n < 0x1B0 then none
  else if n ≤ 0x1B4 then some 8
  else if n < 0x1D0 then none
  else if n = 0x1D0 then some 8
  else if n = 0x1D1 then some 16
  else if n ≤ 0x1D5 then some 8
  else none

/-- The instruction of an opcode's fields, before the register rules of R241. -/
def decodeRaw (r : Raw) : Option Instr :=
  let n := r.opc.toNat
  if n < 0x040 then decodeInt r
  else if n < 0x0C0 then decodeFloat r
  else if n < 0x100 then decodeControl r
  else if n < 0x160 then decodeMemory r
  else if n < 0x1A0 then decodeEngine r
  else decodeSystem r

/-- SUB of a packed dot product with the bits that its HINT's kind does not use put right: a and b unsigned go with the integer
kind, RM with the floating ones (R321). -/
def Raw.dotMend (r : Raw) (last : Nat) : Raw :=
  if last < r.hint.toNat then r
  else { r with sub := r.sub &&& (if r.hint = 0 then 0b1011#4 else 0b1110#4) }

/-- ATOMS with what goes with another operation, type or form put right (R343). -/
def Raw.atomsMend (r : Raw) : Raw :=
  let r0 := if r.sb 0 then r else { r with x := 0 }
  let r1 := if bit1 (r.f.extractLsb' 7 1) && (r.hint == 9#4 || r.mod == 9#4) then { r0 with f := r.f &&& 0x7F#8, c := 0xFF#8 } else r0
  if r.mod = 9#4 ∧ 3 ≤ r.hint.toNat ∧ r.hint.toNat ≤ 8 then { r1 with hint := 0 } else r1

/-- The fields with one that the entry itself refuses put right: a condition, a selector or a slot in C; an operation, a tag or an
imm8 that does not go with the type; a field of SUB, HINT, E, F or X that the entry assigns, but for another form or kind of the same
opcode (R246, R277, R288, R307, R320, R321, R337, R341, R343 to R345, R372, R398, R405, R410). -/
def Raw.mend (r : Raw) : Raw :=
  let n := r.mod.toNat
  match r.opc.toNat with
  | 0x016 => if r.isImm then r else { r with e := 0, f := 0 }
  | 0x046 | 0x1D4 => { r with c := 0 }
  | 0x093 | 0x094 => { r with c := r.c &&& 0x0F#8 }
  | 0x098 => r.dotMend 4
  | 0x099 => r.dotMend 1
  | 0x09A => r.dotMend 2
  | 0x0C3 => if r.sb 0 then { r with e := 0, f := 0, x := 0 } else r
  | 0x102 | 0x103 => if r.sb 0 then r else { r with x := 0, hint := r.hint &&& 0b1100#4 }
  | 0x112 => if r.hint.toNat ≤ 2 then { r with hint := 0 } else r
  | 0x113 => if r.hint.toNat ≤ 1 then { r with hint := 2 } else r
  | 0x114 => if r.hint.toNat ≤ 5 then { r with hint := 0 } else r
  | 0x115 =>
    if 1 ≤ r.hint.toNat ∧ r.hint.toNat ≤ 14 then
      { r with hint := if n ≤ 2 then 1 else if n ≤ 4 then 2 else if n = 12 then 11 else 10 }
    else r
  | 0x116 => r.atomsMend
  | 0x171 => if !r.sb 0 && decide (r.f.toNat ≤ 4) then { r with f := 0 } else r
  | 0x1B3 => if r.hint.toNat ≤ 5 then { r with hint := 1 } else r
  | 0x1D0 => if r.sb 0 then r else { r with hint := r.hint &&& 0b1100#4 }
  | _ => r

/-- How fields that are no instruction's are refused: by the entry's own check where they are right one by one, by check 7 otherwise
(R246, R252). -/
def Raw.refusal (r : Raw) : Reject :=
  match decodeRaw r.mend with
  | some i => if i.wellFormed then .combination i else .illegalForm false
  | none => .illegalForm false

/-- Whether G2 and GC are a second guard: in the longer forms, but for the opcodes whose entries permit none and leave the
two at their fixed values (R240; `Hdr2.one`). -/
def Raw.second (r : Raw) : Bool :=
  r.len != 0#2 && !([0x00F, 0x016, 0x01E, 0x020, 0x0D0, 0x122, 0x123, 0x125, 0x170, 0x171].contains r.opc.toNat)

/-- Whether a guard field fails check 7 of R252, which is tested before the other fields. -/
def Raw.badGuard (r : Raw) : Bool :=
  (PSrc.ofG r.g1).isNone || (r.second && (PSrc.ofG r.g2).isNone)

/-- Checks 3 to 7 of R252 on the fields, `avail` bytes being left in the fetch window (R237). -/
def decodeFields (r : Raw) (avail : Nat) : Except Reject Instr :=
  match lenBytes r.len with
  | none => .error (.illegalForm false)
  | some l =>
    if avail < l then .error .illegalAlign
    else match opcLen r.opc with
      | none => .error .illegalOpcode
      | some l' =>
        if l ≠ l' then .error (.illegalForm false)
        else if r.badGuard then .error (.illegalForm true)
        else match decodeRaw r with
          | some i => if i.wellFormed then .ok i else .error r.refusal
          | none => .error r.refusal

/-- The guards an instruction's bits give, where its guard fields can be read: what the record's lane mask is taken from
when the instruction itself is refused (R252). With fewer than 12 bytes left in the fetch window there is no second guard to
read. -/
def Raw.guards (r : Raw) (avail : Nat) : Option (PSrc × PSrc × Bool) :=
  if r.second && decide (12 ≤ avail) then
    (match PSrc.ofG r.g1, PSrc.ofG r.g2 with
     | some g, some g' => some (g, g', bit1 r.gc)
     | _, _ => none)
  else
    (match PSrc.ofG r.g1 with
     | some g => some (g, ⟨false, 47⟩, false)
     | none => none)

/-- Little-endian bytes as one number, the first byte least significant (R10, R236). -/
def bytesLE : List Byte → Nat
  | [] => 0
  | b :: rest => b.toNat + 256 * bytesLE rest

/-- Decoding from bytes, total: the instruction and the bytes after it, or the reason there is none. A list shorter than an
instruction counts as its window's end. -/
def decodeBytes (bs : List Byte) : Except Reject (Instr × List Byte) :=
  match decodeFields (Raw.ofBits (BitVec.ofNat 128 (bytesLE (bs.take 16)))) bs.length with
  | .ok i => .ok (i, bs.drop i.len)
  | .error e => .error e

/-! ### The encoder (R238 to R249 and the encoding tables of R269 to R411) -/

/-- A 64-bit instruction with every field at its fixed value (R240). -/
def Raw.base1 (h : Hdr) (opc : BitVec 9) : Raw :=
  { len := 0, sw := BitVec.ofBool h.sw, fb := BitVec.ofBool h.fb, opc := opc, g1 := h.g1.g, d := 0xFF#8, mod := 0,
    a := 0xFF#8, b := 0xFF#8, c := 0xFF#8, hint := 0, sub := 0, e := 0, f := 0, g2 := 0, gc := 0, x := 0, imm := 0 }

/-- A 96-bit (`len` 1) or 128-bit (`len` 2) instruction with every field at its fixed value (R240). -/
def Raw.base2 (len : BitVec 2) (h : Hdr2) (opc : BitVec 9) : Raw :=
  { len := len, sw := BitVec.ofBool h.sw, fb := BitVec.ofBool h.fb, opc := opc, g1 := h.g1.g, d := 0xFF#8, mod := 0,
    a := 0xFF#8, b := 0xFF#8, c := 0xFF#8, hint := 0, sub := 0, e := 0, f := 0, g2 := h.g2.g, gc := BitVec.ofBool h.gor,
    x := 0, imm := 0 }

/-- SUB from its four bits, bit 63 first. -/
def subBits (b3 b2 b1 b0 : Bool) : BitVec 4 :=
  (BitVec.ofBool b3 ++ BitVec.ofBool b2 ++ BitVec.ofBool b1 ++ BitVec.ofBool b0 : BitVec 4)

/-- SUB as bit 63, bits 62:61 and bit 60. -/
def subMid (b3 : Bool) (m : BitVec 2) (b0 : Bool) : BitVec 4 := (BitVec.ofBool b3 ++ m ++ BitVec.ofBool b0 : BitVec 4)

/-- IMM of a last source (R242). -/
def Src.isImm : Src → Bool
  | .imm _ => true
  | .reg _ => false

/-- B of a two-source instruction (R242). -/
def Src.bField : Src → BitVec 8
  | .imm _ => 0xFF#8
  | .reg r => r.code

/-- C of a two-source instruction (R242). -/
def Src.cField2 : Src → BitVec 8
  | .imm c => c
  | .reg _ => 0xFF#8

/-- C of a three-source instruction (R242). -/
def Src.cField3 : Src → BitVec 8
  | .imm c => c
  | .reg r => r.code

/-- A two-source integer instruction with SUB 62:61 as given (R269). -/
def encInt2 (opc : BitVec 9) (b62 b61 : Bool) (o : Int2) : Raw :=
  { Raw.base1 o.h opc with
    d := o.d.code, mod := o.ty.mod, a := o.a.code, b := o.b.bField, c := o.b.cField2,
    sub := subBits o.b.isImm b62 b61 false }

/-- A three-source integer instruction (R269). -/
def encInt3 (opc : BitVec 9) (b62 : Bool) (o : Int3) : Raw :=
  { Raw.base1 o.h opc with
    d := o.d.code, mod := o.ty.mod, a := o.a.code, b := o.b.code, c := o.c.cField3,
    sub := subBits o.c.isImm b62 false false }

/-- A three-source instruction at 32 bits (R272, R276). -/
def encInt3n (opc : BitVec 9) (o : Int3N) : Raw :=
  { Raw.base1 o.h opc with
    d := o.d.code, mod := modOfSgn o.sgn, a := o.a.code, b := o.b.code, c := o.c.cField3,
    sub := subBits o.c.isImm false false false }

/-- A one-source instruction (R274, R278). -/
def encInt1 (opc : BitVec 9) (o : Int1) : Raw :=
  { Raw.base1 o.h opc with d := o.d.code, mod := o.ty.mod, a := o.a.code }

/-- IABS and INEG (R269). -/
def encIntS1 (opc : BitVec 9) (o : IntS1) : Raw :=
  { Raw.base1 o.h opc with d := o.d.code, mod := if o.wide then 3 else 1, a := o.a.code }

/-- HINT of two modified operands (R302). -/
def fHint (a b : FOp) : BitVec 4 := subBits b.abs b.neg a.abs a.neg

/-- FADD, FSUB, FMUL, FFMA (R304). -/
def encFArith (opc : BitVec 9) (negc : Bool) (c : BitVec 8) (o : FArith) : Raw :=
  { Raw.base1 o.h opc with
    d := o.d.code, mod := o.ty.mod, a := o.a.r.code, b := o.b.r.code, c := c, hint := fHint o.a o.b,
    sub := subMid negc o.rm.bits o.ftz }

/-- FMIN and FMAX (R304). -/
def encFMinMax (opc : BitVec 9) (o : FMinMax) : Raw :=
  { Raw.base1 o.h opc with
    d := o.d.code, mod := o.ty.mod, a := o.a.r.code, b := o.b.r.code, hint := fHint o.a o.b,
    sub := subBits false false o.nan o.ftz }

/-- FRND and FSCALE (R304). -/
def encFUn (opc : BitVec 9) (b : BitVec 8) (o : FUn) : Raw :=
  { Raw.base1 o.h opc with
    d := o.d.code, mod := o.ty.mod, a := o.a.r.code, b := b, hint := subBits false false o.a.abs o.a.neg,
    sub := subMid false o.rm.bits o.ftz }

/-- The special functions (R312). -/
def encSfu (opc : BitVec 9) (o : Sfu) : Raw :=
  { Raw.base1 o.h opc with
    d := o.d.code, mod := 9, a := o.a.r.code, hint := subBits false false o.a.abs o.a.neg,
    sub := subMid false o.rm.bits o.ftz }

/-- The conversions (R315). -/
def encCvt (opc : BitVec 9) (rm : BitVec 2) (b : BitVec 8) (o : Cvt) : Raw :=
  { Raw.base2 1 o.h opc with
    d := o.d.code, a := o.a.code, b := b, c := o.sc.code, sub := subMid o.sat rm o.satf,
    hint := subBits false false false o.x2, e := 0#2 ++ o.dst, f := 0#2 ++ o.src, x := o.si ++ o.di }

/-- The packed products (R321). -/
def encDot (opc : BitVec 9) (hint sub mod : BitVec 4) (o : Dot) : Raw :=
  { Raw.base1 o.h opc with
    d := o.d.code, a := o.a.code, b := o.b.code, c := o.c.code, hint := hint, sub := sub, mod := mod }

/-- X, F and E of a 24-bit offset (R243, R244). -/
def withOff24 (r : Raw) (n : BitVec 24) : Raw :=
  { r with x := n.extractLsb' 16 8, f := n.extractLsb' 8 8, e := n.extractLsb' 0 8 }

/-- F and E of a 16-bit offset (R244). -/
def withOff16 (r : Raw) (n : BitVec 16) : Raw := { r with f := n.extractLsb' 8 8, e := n.extractLsb' 0 8 }

/-- A global operand (R244). -/
def withGMem (r : Raw) (m : GMem) : Raw := withOff24 { r with a := m.base.code, b := m.index.code } m.off

/-- An operand with the short offset (R244). -/
def withSMem (r : Raw) (m : SMem) : Raw := withOff16 { r with a := m.base.code, b := m.index.code } m.off

/-- LDG, LDC, LDT (R327). -/
def encLd (opc : BitVec 9) (b60 : Bool) (hint : BitVec 4) (o : Ld) : Raw :=
  withGMem { Raw.base2 1 o.h opc with
    d := o.d.code, mod := o.ty.mod, hint := hint, sub := subMid o.ahead o.vec.bits b60 } o.m

/-- LDS (R327); X and HINT 57:56 are the coordinate's (R249). -/
def encLdS (rem : Bool) (x : BitVec 8) (die : BitVec 2) (o : LdS) : Raw :=
  withSMem { Raw.base2 1 o.h 0x102 with
    d := o.d.code, mod := o.ty.mod, hint := 0#2 ++ die, x := x, sub := subMid o.ahead o.vec.bits rem } o.m

/-- STS (R327). -/
def encStS (rem : Bool) (x : BitVec 8) (die : BitVec 2) (o : StS) : Raw :=
  withSMem { Raw.base2 1 o.h 0x103 with
    c := o.data.code, mod := o.ty.mod, hint := 0#2 ++ die, x := x, sub := subMid o.ahead o.vec.bits rem } o.m

/-- The fields every home atomic shares (R327). -/
def encA (opc : BitVec 9) (a : AHdr) (hint mod : BitVec 4) (d b : Reg) (b60 : Bool) : Raw :=
  { Raw.base2 1 a.h opc with
    d := d.code, c := b.code, mod := mod, hint := hint,
    sub := (a.order.bits ++ BitVec.ofBool a.ahead ++ BitVec.ofBool b60 : BitVec 4) }

/-- ATOMS (R343). -/
def encAtoms (rem : Bool) (x : BitVec 8) (o : Atoms) : Raw :=
  let r := match o.op with
    | .int op ty b => { encA 0x116 o.a op.bits ty.mod o.d .zr rem with
        c := b.cField3, f := BitVec.ofBool b.isImm ++ o.off.extractLsb' 8 7 }
    | .flt op b => { encA 0x116 o.a op.bits 9 o.d b rem with f := 0#1 ++ o.off.extractLsb' 8 7 }
    | .cas ty cmp => { encA 0x116 o.a 9 ty.mod o.d cmp rem with f := 0#1 ++ o.off.extractLsb' 8 7 }
  { r with a := o.base.code, b := o.index.code, e := o.off.extractLsb' 0 8, x := x }

/-- FLUSH and INVAL (R347). -/
def encRng (opc : BitVec 9) (o : Rng) : Raw :=
  withOff24 { Raw.base2 1 o.h opc with
    a := o.base.code, c := o.len.cField3, sub := subBits o.len.isImm false false false } o.off

/-- OBLD and OBST (R358). -/
def encOb (opc : BitVec 9) (o : Ob) : Raw :=
  { Raw.base2 1 o.h opc with
    a := o.base.code, b := o.vs.code, c := o.vsh.code, sub := subBits false false false o.sp,
    e := BitVec.ofNat 8 o.n.val, f := o.toff.extractLsb' 0 8, x := o.toff.extractLsb' 8 8 }

/-- MOD of what RED combines (R344). -/
def RedOp.mod : RedOp → BitVec 4
  | .int _ ty => ty.mod
  | .flt _ ty => ty.mod

/-- HINT of what RED combines (R344). -/
def RedOp.hint : RedOp → BitVec 4
  | .int op _ => op.bits
  | .flt op _ => op.bits

/-- The fields of an instruction; none for a fused group, which is its members' words one after another, and for the
device's other steps, which have no encoding. -/
def Instr.raw : Instr → Option Raw
  | .iadd sat o => some (encInt2 0x000 sat false o)
  | .isub sat o => some (encInt2 0x001 sat false o)
  | .imul o => some (encInt2 0x002 false false o)
  | .imulh o => some (encInt2 0x003 false false o)
  | .imad sat o => some (encInt3 0x004 sat o)
  | .imadw o => some (encInt3n 0x005 o)
  | .iaddc h sub ty d a b p =>
    some { Raw.base1 h 0x006 with
      d := d.code, mod := ty.mod, a := a.code, b := b.code, c := p.c8, sub := subBits false false sub false }
  | .imin o => some (encInt2 0x007 false false o)
  | .imax o => some (encInt2 0x008 false false o)
  | .iabs o => some (encIntS1 0x009 o)
  | .ineg o => some (encIntS1 0x00A o)
  | .and o => some (encInt2 0x00B false false o)
  | .or o => some (encInt2 0x00C false false o)
  | .xor o => some (encInt2 0x00D false false o)
  | .not o => some (encInt1 0x00E o)
  | .bool3 h fn ty d a b c =>
    some { Raw.base2 1 h 0x00F with
      d := d.code, mod := ty.mod, a := a.code, b := b.code, c := c.cField3, e := BitVec.ofNat 8 fn.val,
      sub := subBits c.isImm false false false }
  | .shl o => some (encInt2 0x010 false false o)
  | .shr o => some (encInt2 0x011 false false o)
  | .shra o => some (encInt2 0x012 false false o)
  | .shd o => some (encInt3n 0x013 o)
  | .rot o => some (encInt2 0x014 false false o)
  | .bfe o => some (encInt3 0x015 false o)
  | .bfi h ty d a b (.imm pos len) =>
    some { Raw.base2 1 h 0x016 with
      d := d.code, mod := ty.mod, a := a.code, b := b.code, e := pos, f := len, sub := subBits true false false false }
  | .bfi h ty d a b (.reg c) =>
    some { Raw.base2 1 h 0x016 with d := d.code, mod := ty.mod, a := a.code, b := b.code, c := c.code }
  | .popc o => some (encInt1 0x017 o)
  | .clz o => some (encInt1 0x018 o)
  | .brev o => some (encInt1 0x019 o)
  | .bsel h d a b c => some { Raw.base1 h 0x01A with d := d.code, a := a.code, b := b.code, c := c.code }
  | .icmp h cc ty pd a b =>
    some { Raw.base1 h 0x01B with
      d := BitVec.ofNat 8 pd.val, mod := ty.mod, a := a.code, b := b.bField, c := b.cField2,
      sub := BitVec.ofBool b.isImm ++ cc.bits }
  | .isel h ty d a b p =>
    some { Raw.base1 h 0x01C with d := d.code, mod := ty.mod, a := a.code, b := b.code, c := p.c8 }
  | .mov h ty d a => some { Raw.base1 h 0x01D with d := d.code, mod := ty.mod, a := a.code }
  | .movi h hi d imm =>
    some { Raw.base2 2 h 0x01E with d := d.code, imm := imm, sub := subBits false false false hi }
  | .movsr h sel d => some { Raw.base1 h 0x01F with d := d.code, hint := sel.bits }
  | .lea h sx sh d m =>
    some (withGMem { Raw.base2 1 h 0x020 with
      d := d.code, sub := (0#1 ++ BitVec.ofBool sx ++ sh : BitVec 4) } m)
  | .fadd o => some (encFArith 0x040 false 0xFF o)
  | .fsub o => some (encFArith 0x041 false 0xFF o)
  | .fmul o => some (encFArith 0x042 false 0xFF o)
  | .ffma o negc c => some (encFArith 0x043 negc c.code o)
  | .fmin o => some (encFMinMax 0x044 o)
  | .fmax o => some (encFMinMax 0x045 o)
  | .fcmp h ty ftz cc pd a b =>
    some { Raw.base1 h 0x046 with
      d := BitVec.ofNat 8 pd.val, mod := ty.mod, a := a.r.code, b := b.r.code, c := BitVec.ofNat 8 cc.val,
      hint := fHint a b, sub := subBits false false false ftz }
  | .fsel h ty d a b p =>
    some { Raw.base1 h 0x047 with d := d.code, mod := ty.mod, a := a.code, b := b.code, c := p.c8 }
  | .fclass h ty d a => some { Raw.base1 h 0x048 with d := d.code, mod := ty.mod, a := a.code }
  | .frnd o => some (encFUn 0x049 0xFF o)
  | .fscale o n => some (encFUn 0x04A n.code o)
  | .rcp o => some (encSfu 0x080 o)
  | .rsq o => some (encSfu 0x081 o)
  | .sqrt o => some (encSfu 0x082 o)
  | .exp2 o => some (encSfu 0x083 o)
  | .log2 o => some (encSfu 0x084 o)
  | .sin o => some (encSfu 0x085 o)
  | .cos o => some (encSfu 0x086 o)
  | .tanh o => some (encSfu 0x087 o)
  | .sigm o => some (encSfu 0x088 o)
  | .cvt rm o => some (encCvt 0x090 rm.bits 0xFF o)
  | .cvtSr rnd o => some (encCvt 0x091 0 rnd.code o)
  | .cvtx rm o => some (encCvt 0x092 rm.bits 0xFF o)
  | .pack h w d a b j =>
    some { Raw.base1 h 0x093 with
      d := d.code, a := a.code, b := b.code, c := 0#4 ++ j, hint := 0#1 ++ w.bits }
  | .unpk h mode w d a j =>
    some { Raw.base1 h 0x094 with
      d := d.code, a := a.code, c := 0#4 ++ j, hint := 0#1 ++ w.bits,
      sub := match mode with | .zero => 0 | .sign => 2 | .t2 => 4 }
  | .dp4 (.int ua ub) o => some (encDot 0x098 0 (subBits false false ua ub) 0 o)
  | .dp4 (.flt rm a5 b5) o =>
    some (encDot 0x098 (match a5, b5 with
      | false, false => 1
      | true, true => 2
      | false, true => 3
      | true, false => 4) (subMid false rm.bits false) 0 o)
  | .dp8 (.int ua ub) o => some (encDot 0x099 0 (subBits false false ua ub) 0 o)
  | .dp8 (.flt rm) o => some (encDot 0x099 1 (subMid false rm.bits false) 0 o)
  | .dp2 (.int ua ub) o => some (encDot 0x09A 0 (subBits false false ua ub) 0 o)
  | .dp2 (.flt rm bf) o => some (encDot 0x09A (if bf then 2 else 1) (subMid false rm.bits false) 0 o)
  | .pfma rm bf bl o => some (encDot 0x09B 0 (subMid false rm.bits bl) (if bf then 12 else 11) o)
  | .clrmx h mx fl => some { Raw.base1 h 0x09C with sub := subBits false false fl mx }
  | .rdmx h clr fl d => some { Raw.base1 h 0x09D with d := d.code, sub := subBits false false clr fl }
  | .fusedGroup _ => none
  | .bra h n => some (withOff24 (Raw.base2 1 h 0x0C0) n)
  | .braAny h n => some (withOff24 (Raw.base2 1 h 0x0C1) n)
  | .braAll h n => some (withOff24 (Raw.base2 1 h 0x0C2) n)
  | .call h link (.disp n) => some (withOff24 { Raw.base2 1 h 0x0C3 with d := link.code } n)
  | .call h link (.reg t) =>
    some { Raw.base2 1 h 0x0C3 with d := link.code, a := t.code, sub := subBits false false false true }
  | .ret h t => some { Raw.base1 h 0x0C4 with a := t.code }
  | .jmpi h t => some { Raw.base1 h 0x0C5 with a := t.code }
  | .fork h f p lf lt =>
    some (withOff24 { Raw.base2 2 h 0x0C8 with a := p.c8, c := BitVec.ofNat 8 f.val, imm := lt } lf)
  | .endarm h f => some { Raw.base1 h 0x0C9 with c := BitVec.ofNat 8 f.val }
  | .pub h f (.v n) => some { Raw.base1 h 0x0CA with a := (Reg.v n).code, c := BitVec.ofNat 8 f.val }
  | .pub h f (.p n) =>
    some { Raw.base1 h 0x0CA with
      a := BitVec.ofNat 8 n.val, c := BitVec.ofNat 8 f.val, sub := subBits false false false true }
  | .join h f d a b =>
    some { Raw.base1 h 0x0CB with
      d := (Reg.v d).code, a := (Reg.v a).code, b := (Reg.v b).code, c := BitVec.ofNat 8 f.val }
  | .joinp h f pd pa pb =>
    some { Raw.base1 h 0x0CC with d := BitVec.ofNat 8 pd.val, a := pa.c8, b := pb.c8, c := BitVec.ofNat 8 f.val }
  | .memdone h f => some { Raw.base1 h 0x0CD with c := BitVec.ofNat 8 f.val }
  | .exit h => some (Raw.base1 h 0x0CE)
  | .nop h => some (Raw.base1 h 0x0CF)
  | .nopW h => some (Raw.base2 1 h 0x0D0)
  | .pset h op pd pa pb =>
    some { Raw.base1 h 0x0D8 with d := BitVec.ofNat 8 pd.val, a := pa.c8, b := pb.c8, sub := 0#2 ++ op.bits }
  | .pmov h (.toReg high d) => some { Raw.base1 h 0x0D9 with d := d.code, sub := subBits false false high false }
  | .pmov h (.fromReg high a) => some { Raw.base1 h 0x0D9 with a := a.code, sub := subBits false false high true }
  | .ldg o acq hint => some (encLd 0x100 acq (hint.pri ++ hint.span) o)
  | .stg o rel hint =>
    some (withGMem { Raw.base2 1 o.h 0x101 with
      c := o.data.code, mod := o.ty.mod, hint := hint.pri ++ hint.span, sub := subMid o.ahead o.vec.bits rel } o.m)
  | .lds o => some (encLdS false 0 0 o)
  | .sts o => some (encStS false 0 0 o)
  | .ldsRemote o c => some (encLdS true (c.prow ++ c.pcol) c.die o)
  | .stsRemote o c => some (encStS true (c.prow ++ c.pcol) c.die o)
  | .ldc o pri => some (encLd 0x104 false (pri ++ 0#2) o)
  | .ldt o pri => some (encLd 0x105 false (pri ++ 0#2) o)
  | .pref h level m hint =>
    some (withGMem { Raw.base2 1 h 0x106 with hint := hint.pri ++ hint.span, sub := 0#2 ++ level.bits } m)
  | .atom a op ty d m b => some (withGMem (encA 0x110 a op.bits ty.mod d b false) m)
  | .cas a ty d m cmp new => some { withSMem (encA 0x111 a 0 ty.mod d cmp false) m with x := new.code }
  | .atomf a op ty d m b => some (withGMem (encA 0x112 a op.bits ty.mod d b false) m)
  | .hop a op ty d m b c => some { withSMem (encA 0x113 a op.bits ty.mod d b false) m with x := c.code }
  | .red h ahead op m b =>
    some (withGMem { Raw.base2 1 h 0x114 with
      c := b.code, mod := op.mod, hint := op.hint, sub := subBits ahead false false false } m)
  | .redu h ahead op m b =>
    some (withGMem { Raw.base2 1 h 0x115 with
      c := b.code, mod := op.mod, hint := BitVec.ofNat 4 op.tag.val, sub := subBits ahead false false false } m)
  | .atoms o => some (encAtoms false 0 o)
  | .atomsRemote o prow pcol => some (encAtoms true (prow ++ pcol) o)
  | .fence h => some (Raw.base1 h 0x120)
  | .pfence h c t => some { Raw.base1 h 0x121 with sub := subBits false false t c }
  | .flush o => some (encRng 0x122 o)
  | .inval o => some (encRng 0x123 o)
  | .sdrain h => some (Raw.base1 h 0x124)
  | .waitw o =>
    some (withGMem { Raw.base2 1 o.h 0x125 with
      d := o.d.code, c := o.b.code, mod := o.ty.mod, sub := BitVec.ofBool o.acq ++ o.cc.bits } o.m)
  | .sppin h a n =>
    some { Raw.base1 h 0x126 with
      a := a.code, b := n.bField, c := n.cField2, sub := subBits n.isImm false false false }
  | .spunpin h a n =>
    some { Raw.base1 h 0x127 with
      a := a.code, b := n.bField, c := n.cField2, sub := subBits n.isImm false false false }
  | .resv h share fmt n d a b c =>
    some { Raw.base2 1 h 0x160 with
      d := d.code, a := a.code, b := b.code, c := c.code, sub := subBits false false false share, e := 0#3 ++ fmt,
      f := BitVec.ofNat 8 n.val }
  | .relv h n => some { Raw.base1 h 0x161 with c := BitVec.ofNat 8 n.val }
  | .obld o => some (encOb 0x162 o)
  | .obst o => some (encOb 0x163 o)
  | .mma h a => some { Raw.base1 h 0x164 with a := a.code }
  | .mmawait h d n => some { Raw.base1 h 0x165 with d := d.code, c := BitVec.ofNat 8 n.val }
  | .mqstat h d => some { Raw.base1 h 0x166 with d := d.code }
  | .rowp h k d => some { Raw.base1 h 0x167 with d := d.code, sub := subBits false false false k }
  | .asLoop h k (.imm n) => some { Raw.base2 2 h 0x170 with e := BitVec.ofNat 8 k.val, imm := n }
  | .asLoop h k (.reg a) => some { Raw.base2 2 h 0x170 with e := BitVec.ofNat 8 k.val, a := a.code }
  | .asAddr h (.base q a) => some { Raw.base2 2 h 0x171 with e := BitVec.ofNat 8 q.val, a := a.code }
  | .asAddr h (.baseSp q a) =>
    some { Raw.base2 2 h 0x171 with e := BitVec.ofNat 8 q.val, a := a.code, sub := subBits false false true false }
  | .asAddr h (.str q k n) =>
    some { Raw.base2 2 h 0x171 with
      e := BitVec.ofNat 8 q.val, f := BitVec.ofNat 8 k.val, imm := n, sub := subBits false false false true }
  | .asPush h q ty m => some { Raw.base1 h 0x172 with d := BitVec.ofNat 8 q.val, b := m.code, mod := ty.mod }
  | .asEnd h => some (Raw.base1 h 0x173)
  | .asEndAbort h => some { Raw.base1 h 0x173 with sub := subBits false false false true }
  | .pop h d q => some { Raw.base1 h 0x174 with d := d.code, c := BitVec.ofNat 8 q.val }
  | .fqstat h d q => some { Raw.base1 h 0x175 with d := d.code, c := BitVec.ofNat 8 q.val }
  | .prom h d => some { Raw.base1 h 0x180 with d := d.code }
  | .sleep h till a => some { Raw.base1 h 0x181 with a := a.code, sub := subBits false false false till }
  | .mjoin h k => some { Raw.base1 h 0x1A0 with hint := BitVec.ofNat 4 k.val }
  | .mleave h k => some { Raw.base1 h 0x1A1 with hint := BitVec.ofNat 4 k.val }
  | .mwait h set k b =>
    some { Raw.base1 h 0x1A2 with
      b := b.bField, c := b.cField2, hint := BitVec.ofNat 4 k.val, sub := subBits b.isImm false false set }
  | .mset h k b =>
    some { Raw.base1 h 0x1A3 with
      b := b.bField, c := b.cField2, hint := BitVec.ofNat 4 k.val, sub := subBits b.isImm false false false }
  | .mget h d k => some { Raw.base1 h 0x1A4 with d := d.code, hint := BitVec.ofNat 4 k.val }
  | .bar h n count => some { Raw.base1 h 0x1A8 with b := count.code, hint := BitVec.ofNat 4 n.val }
  | .bara h d n count => some { Raw.base1 h 0x1A9 with d := d.code, b := count.code, hint := BitVec.ofNat 4 n.val }
  | .barw h n a => some { Raw.base1 h 0x1AA with a := a.code, hint := BitVec.ofNat 4 n.val }
  | .sbar h d n a b =>
    some { Raw.base1 h 0x1AB with d := d.code, a := a.code, b := b.code, hint := BitVec.ofNat 4 n.val }
  | .vote h (.ballot d) pa => some { Raw.base1 h 0x1B0 with d := d.code, a := pa.c8 }
  | .vote h (.count d) pa =>
    some { Raw.base1 h 0x1B0 with d := d.code, a := pa.c8, sub := subBits false false false true }
  | .vote h (.any pd) pa =>
    some { Raw.base1 h 0x1B0 with d := BitVec.ofNat 8 pd.val, a := pa.c8, sub := subBits false false true false }
  | .vote h (.all pd) pa =>
    some { Raw.base1 h 0x1B0 with d := BitVec.ofNat 8 pd.val, a := pa.c8, sub := subBits false false true true }
  | .shfl h mode ty d a b fill =>
    some { Raw.base1 h 0x1B1 with
      d := d.code, a := a.code, b := fill.code, c := b.cField3, mod := ty.mod,
      sub := (BitVec.ofBool b.isImm ++ 0#1 ++ mode.bits : BitVec 4) }
  | .matchI h all ty d a =>
    some { Raw.base1 h 0x1B2 with d := d.code, a := a.code, mod := ty.mod, sub := subBits false false false all }
  | .redux h (.int op sg) d a =>
    some { Raw.base1 h 0x1B3 with d := d.code, a := a.code, mod := modOfSgn sg, hint := BitVec.ofNat 4 op.val }
  | .redux h .fmin d a => some { Raw.base1 h 0x1B3 with d := d.code, a := a.code, mod := 9, hint := 1 }
  | .redux h .fmax d a => some { Raw.base1 h 0x1B3 with d := d.code, a := a.code, mod := 9, hint := 2 }
  | .elect h (.pred pd) => some { Raw.base1 h 0x1B4 with d := BitVec.ofNat 8 pd.val }
  | .elect h (.id d) => some { Raw.base1 h 0x1B4 with d := d.code, sub := subBits false false false true }
  | .launch h d a none => some { Raw.base1 h 0x1D0 with d := d.code, a := a.code }
  | .launch h d a (some c) =>
    some { Raw.base1 h 0x1D0 with
      d := d.code, a := a.code, c := c.prow ++ c.pcol, hint := 0#2 ++ c.die, sub := subBits false false false true }
  | .launchCwait h a => some { Raw.base1 h 0x1D0 with a := a.code, sub := subBits false false true false }
  | .trap h code => some { Raw.base2 2 h 0x1D1 with imm := code }
  | .bkpt h code => some { Raw.base1 h 0x1D2 with c := code }
  | .halt h => some (Raw.base1 h 0x1D3)
  | .perf h clr sel d =>
    some { Raw.base1 h 0x1D4 with d := d.code, c := BitVec.ofNat 8 sel.val, sub := subBits false false false clr }
  | .sampctlStart h a => some { Raw.base1 h 0x1D5 with a := a.code }
  | .sampctlStop h => some { Raw.base1 h 0x1D5 with sub := subBits false false false true }
  | .sampctlDrop h d => some { Raw.base1 h 0x1D5 with d := d.code, sub := subBits false false true false }
  | _ => none

/-- The 32-bit words of an instruction, lowest first (R236): two, three or four of them; none where there is no encoding. -/
def encode (i : Instr) : List Word :=
  match i.raw with
  | some r =>
    let w := r.toBits
    ([w.extractLsb' 0 32, w.extractLsb' 32 32, w.extractLsb' 64 32, w.extractLsb' 96 32] : List Word).take (i.len / 4)
  | none => []

/-- The bytes of words as memory holds them (R236). -/
def wordBytes : List Word → List Byte
  | [] => []
  | w :: rest => w.extractLsb' 0 8 :: w.extractLsb' 8 8 :: w.extractLsb' 16 8 :: w.extractLsb' 24 8 :: wordBytes rest

/-- The sixteen bytes of a table word: its bits, and zeros above `nbits`. -/
def tableBytes (nbits w : Nat) : List Byte :=
  let v := BitVec.ofNat 128 (w % 2 ^ nbits)
  wordBytes [v.extractLsb' 0 32, v.extractLsb' 32 32, v.extractLsb' 64 32, v.extractLsb' 96 32]

/-- What the decoder reads from an instruction whose bits are `w`, the bits above `nbits` zero. -/
def decodeTableWord (nbits w : Nat) : Option Instr :=
  match decodeBytes (tableBytes nbits w) with
  | .ok (i, _) => some i
  | .error _ => none

end Sys2Proof
end

