-- ==== Sys2Proof/Machine/State.lean ====
section
/-! DEFINITION. The state of the whole device as plain data: strands, gangs, teams, cores, homes, engines, contexts, Grotto
and the services, and the machine right after device reset. Fields the model adds for itself say so. -/

namespace Sys2Proof.Machine

/-! ### Strands, forks and waits (R20, R21, R183, R228, R229) -/

/-- KIND of a strand (R20). -/
inductive StrandKind where
  | root | trueArm | falseArm | tail
deriving DecidableEq, Repr

/-- STATE of a strand, in the order of its codes 0 to 7 (R228). -/
inductive StrandState where
  | ready | parked | joinWait | memJoinWait | faultParked | sleeping | barWait | halted
deriving DecidableEq, Repr

/-- KIND of a wait-for entry, in the order of its codes (R183). -/
inductive WaitKind where
  | none | barrier | mask | join | memJoin | word | promise | childGrid
deriving DecidableEq, Repr

/-- A wait-for table entry (R183); `sig` names the expected signaller when SIGKNOWN is 1; `began` is the cycle of which SINCE keeps 32 bits
(the model's own). -/
structure WaitFor where
  obj : DWord
  since : Word
  kind : WaitKind
  sig : Option (GKey × Nat)
  began : DWord := 0
deriving DecidableEq, Repr

/-- What a strand in barrier or mask wait, or asleep, will be released by; `seq` is SBAR's place in the issue order (R349, R387, R391, R395, R396, R406). -/
inductive WaitOn where
  | none
  | bar (n : Nat) (tok : Word)
  | sbar (n : Nat) (tok : Word) (d : Reg) (lanes : LaneMask) (seq : Nat)
  | mask (set : Bool) (k : Nat) (sel : Word)
  | word
  | wake (cycle : DWord)
  | promise (cycle : DWord)
  | descr
  | grid (serial : Nat)
  | checks (ssn : Nat)
  | copies (d : Reg) (lanes : LaneMask)
  | block
deriving DecidableEq, Repr

/-- One step of a strand's lineage, innermost first: the FORK instance that made it, the side taken and the FORK's
masks (R23; model's own
record of the lineage that R23 and R25 define). -/
structure PathEl where
  inst : Nat
  fork : Fin 8
  side : StrandKind
  tmask : LaneMask
  fmask : LaneMask
deriving DecidableEq, Repr

/-- A collapsed FORK of a strand that has a record, with the addresses its later phases start at (R29); model's own, since
the record itself holds only the phase and the masks. -/
structure CollEl where
  fork : Fin 8
  inst : Nat
  lfalse : VAddr
  ltail : VAddr
deriving DecidableEq, Repr

/-- An outstanding MMAWAIT: destination, lanes, target count (R227, R367). -/
structure MmaWait where
  d : Reg
  lanes : LaneMask
  seq : Nat
  target : Word
deriving DecidableEq, Repr

/-- A strand-table slot (R20). `coll` holds the collapse records by fork identifier in the 66 bits of R228. The fields from
`path` on are the wait-for entry (R183), the wait count (R164), the wait records (R227), the spin record (R186) and the
model's own marks: `heldVas` are the addresses shootdowns last held (R198), `own` is 0 or the sample reason for which its
instruction itself could not issue when last tried (R162), `notBefore` the first cycle in which it may issue (R166, R296, R298), `born` is
the gang's issue count when the strand was made, `issued` the cycle of its last issue plus one with the PC of that issue. -/
structure Strand where
  valid : Bool
  pc : VAddr
  mask : LaneMask
  rank : BitVec 4
  kind : StrandKind
  fork : Fin 8
  state : StrandState
  mdone : BitVec 8
  coll : SMap 66
  cstack : List CollEl
  path : List PathEl
  wait : WaitFor
  waitOn : WaitOn
  waitCount : Nat
  mmaWait : Option MmaWait
  lastSw : Nat
  born : Nat
  faultVa : DWord
  heldVas : List DWord
  own : Nat
  notBefore : DWord
  spinLo : VAddr
  spinHi : VAddr
  spinCount : Nat
  spinAccess : Bool
  issued : DWord
  issuedPc : VAddr
deriving DecidableEq, Repr

/-- A fork-table entry (R21, R229); `inst` is the model's own instance number of the FORK that took the entry. -/
structure Fork where
  busy : Bool
  tmask : LaneMask
  fmask : LaneMask
  tslot : BitVec 4
  fslot : BitVec 4
  lslot : BitVec 4
  tdone : Bool
  tend : Bool
  fdone : Bool
  fend : Bool
  tpub : BitVec 239
  fpub : BitVec 239
  pside : StrandKind
  pfork : Fin 8
  inst : Nat
deriving DecidableEq, Repr

/-- A FORK that a gang has executed and that still governs its identifier for some lane of some strand: its instance, whether it
collapsed, its masks, and the lineage of the strand that executed it, from which program order follows (R25, R31; the model's own record). -/
structure PastFork where
  inst : Nat
  fork : Fin 8
  collapsed : Bool
  tmask : LaneMask
  fmask : LaneMask
  path : List PathEl
deriving DecidableEq, Repr

/-! ### Accesses and what later ones wait for (R95, R109, R113, R117) -/

/-- Who made an access: its gang, strand, place in the gang's issue order, time, .ahead, lineage, PC, lanes,
team and context field (R95, R100). -/
structure Who where
  g : GKey
  strand : Nat
  seq : Nat
  clock : DWord
  ahead : Bool
  path : List PathEl
  pc : VAddr
  mask : LaneMask
  skind : StrandKind
  fork : Fin 8
  team : TKey
  field : BitVec 16
deriving DecidableEq, Repr

/-- The context of an access. -/
def Who.ctx (w : Who) : Nat := w.team.ctx

/-- What later accesses of a thread wait for (R109, R113, R117): a fence, a path fence, an acquire. -/
inductive HoldKind where
  | fence
  | pfence (c t : Bool)
  | acquire
deriving DecidableEq, Repr

/-- A wait laid on the later accesses of the threads of `who` (R109, R113, R117). -/
structure Hold where
  id : Nat
  who : Who
  kind : HoldKind
deriving DecidableEq, Repr

/-! ### Engine work of a gang (R359, R370, R379, R381) -/

/-- What a matrix-queue command is (R227). -/
inductive MKind where
  | mma | obld | obst
deriving DecidableEq, Repr

/-- A matrix-queue command with its progress (R227, R359, R365). For an MMA `blk` is its parameter block, `need` the words of
it still to arrive; for OBLD and OBST the fields from `base` on are the operands (R358). The rest is the model's own: its
store-queue entry, the acceptance count at its acceptance (0 before), the destination ranges still to be registered, the
claimed words still to be written, one for each write of them to come (R145). -/
structure MCmd where
  kind : MKind
  who : Who
  blk : List Byte
  need : List Nat
  base : Nat
  vs : Nat
  vsh : Word
  toff : Nat
  res : Fin 8
  sp : Bool
  entry : Option Nat
  retired : Bool
  accepted : Nat
  started : Bool
  faulted : Bool
  pieces : List (Nat × Nat)
  words : List Nat
  tile : Nat
  kstep : Nat
  rows : Nat
  part : Nat := 0
  readyAt : Nat := 0
  stopVa : Nat := 0
deriving DecidableEq, Repr

/-- A stream of a gang's access slice (R370, R379). -/
structure Stream where
  base : DWord
  strides : List Word
  vmask : LaneMask
  ty : Option PushTy
  sp : Bool
deriving DecidableEq, Repr

/-- A gang's access slice: trip counts, the next push (its point and its stream), the streams (R370, R379); `finished` once
every push has started, `who` the AS.END that started it (model's own). -/
structure Slice where
  trips : List Word
  idx : List Word
  q : Nat
  streams : List Stream
  running : Bool
  stopped : Bool
  finished : Bool
  who : Who
  stopVa : Nat := 0
deriving DecidableEq, Repr

/-- A push in flight to a feed queue: one 32-bit value per lane, whether its elements have returned, and the lanes read at homes whose
elements have not (R375). -/
structure Push where
  id : Nat
  vals : SMap 32
  ready : Bool
  need : List Nat := []
deriving DecidableEq, Repr

/-- A feed queue: entries in order, one 32-bit value per lane, and pushes in flight to it (R375). -/
structure FeedQ where
  entries : List (SMap 32)
  inflight : List Push
deriving DecidableEq, Repr

/-- An outstanding PROM: its destination, and the place in the issue order before which every CGO store must have been accepted
or refused (R386). -/
structure PromWait where
  d : Reg
  lanes : LaneMask
  strand : Nat
  seq : Nat
deriving DecidableEq, Repr

/-- A LAUNCH whose descriptor is being loaded or whose entry has not yet become a grid: destination, leader lane, the core it
names, the descriptor's bytes, the words still to arrive, its store-queue entry (R405; the model's own record). -/
structure LCmd where
  who : Who
  d : Reg
  lead : Nat
  place : Option Nat
  badPlace : Bool
  va : DWord
  blk : List Byte
  need : List Nat
  entry : Option Nat
deriving DecidableEq, Repr

/-- Where an uncorrectable error stands in a gang's storage (R232): the 8-byte word of two lanes of a vector register, a scalar register,
a predicate, a slot of the strand table, or the gang's fork and pending state. -/
inductive BadReg where
  | v (n pair : Nat)
  | s (n : Nat)
  | p (n : Nat)
  | strand (k : Nat)
  | tables
deriving DecidableEq, Repr

/-- A PERF of the cycle that is not over: what it is to read once the cycle has been counted, its place in the issue order, where, in which lanes,
and whether it clears (R410). -/
structure PerfRead where
  seq : Nat
  sel : Nat
  clr : Bool
  d : Reg
  part : LaneMask
deriving DecidableEq, Repr

/-- A gang: its place, identifiers, registers, tables, counters and engine state (R11 to R13, R41, R45, R55, R227). `pcs` holds the PCs of
the instructions whose results are pending, by the number a pending mark gives them (R206). `pendV` and `pendS` are keyed by register
times 32 plus lane, and so is `pendX`, the pending bits of the issuing strand's lanes whose guard failed (R48); `sSeq` the place in the
issue order of the last write to each scalar register (R45). `openSlots` and `openForks` are the strand slots and fork entries that
were free when the cycle began (R296), `past` the FORKs that still govern (R25), `perfReads` the PERFs of the cycle (R410). -/
structure Gang where
  key : GKey
  team : TKey
  ctxField : BitVec 16
  gangId : Word
  nregs : Nat
  launched : LaneMask
  live : LaneMask
  resident : Bool
  v : SMap 32
  p : SMap 32
  s : SMap 64
  m : SMap 32
  strands : List Strand
  forks : List Fork
  pendV : SMap 64
  pendP : SMap 64
  pendS : SMap 64
  pendX : SMap 64
  sSeq : SMap 64
  openSlots : BitVec 16
  openForks : BitVec 8
  past : List PastFork
  fpflags : Word
  maxabs : Word
  promise : DWord
  ssn : BitVec 16
  halted : Bool
  trapParked : Bool
  ageStamp : DWord
  active : Bool
  pendingFor : Nat
  broughtIn : Option DWord
  lateness : Nat
  cq : SMap 64
  cqWritten : BitVec 4
  mq : List MCmd
  mIssued : Word
  mCompleted : Word
  fq : List FeedQ
  slice : Slice
  perf : SMap 64
  perfReads : List PerfRead := []
  issueSeq : Nat
  forkInst : Nat
  storeFault : Bool
  holds : List Hold
  proms : List PromWait
  launches : List LCmd
  pcs : List (Nat × VAddr)
  bad : List BadReg := []
deriving DecidableEq, Repr

/-! ### Teams, barriers, grids (R12 to R16, R154, R200, R393, R404) -/

/-- KIND of a barrier (R393). -/
inductive BarKind where
  | idle | hardCount | hardAll | soft
deriving DecidableEq, Repr

/-- One barrier of a team (R393). -/
structure Bar where
  arrived : BitVec 1024
  deadline : DWord
  inst : Word
  expect : Nat
  count : Nat
  kind : BarKind
deriving DecidableEq, Repr

/-- A TOB reservation record (R355). -/
structure Resv where
  g : GKey
  id : Fin 8
  off : Nat
  len : Nat
  fmt : BitVec 5
  pitch : Nat
  soff : Nat
  shr : Bool
deriving DecidableEq, Repr

/-- A gang as pre-emption saved it, with its TOB reservations and their bytes (R226, R227). -/
structure Saved where
  base : Nat
  gang : Gang
  resv : List (Resv × List Byte)
deriving DecidableEq, Repr

/-- A team: place, size, scratchpad window, barriers, life (R12, R51, R158, R187, R200, R393). `stopping` from its pre-emption point on, `preempted`
once it has left; `saved` then holds its gangs, and `recBase` is the address of its team record (R226, R227, R397). `frames` are the addresses of the frames that back the pages of its window, `held`
the physical page of each page that stands in one, and `sp` the bytes of those pages (R200). -/
structure Team where
  key : TKey
  core : Nat
  threads : Nat
  nregs : Nat
  pages : Nat
  sp : SMap 8
  frames : List Nat
  held : List (Nat × Nat)
  unpinned : List Nat
  spBad : List Nat := []
  bars : List Bar
  placedAt : DWord
  started : Bool
  stopping : Bool
  preempted : Bool
  runtime : Nat
  saved : List Saved
  recBase : Nat := 0
deriving DecidableEq, Repr

/-- A live grid's descriptor and progress (R14 to R16, R154, R404). -/
structure Grid where
  ctx : Nat
  id : Word
  entry : VAddr
  gx : Nat
  gy : Nat
  gz : Nat
  threads : Nat
  regs : Nat
  curve : Nat
  pages : Nat
  param : DWord
  placed : Nat
  exited : Nat
  parent : Option Word
  place : Option Nat
  host : Bool
  accepted : DWord
deriving DecidableEq, Repr

/-! ### Memory accesses in flight (R102 to R120, R141 to R147) -/

/-- Page attributes an access carries from translation (R131, R194); `pin` is the home a pinned page names. -/
structure Attr where
  wt : Bool
  cache : BitVec 2
  pri : BitVec 2
  span : BitVec 2
  pin : Option Nat
deriving DecidableEq, Repr

/-- One element of one lane's access: virtual address, physical address once translated (`ok`), page attributes, size, the
bytes it writes or its operands `x` and `y`. -/
structure LaneAcc where
  lane : Nat
  elem : Nat
  va : DWord
  ok : Bool
  pa : Nat
  attr : Attr
  size : Nat
  bytes : List Byte
  x : DWord
  y : DWord
deriving DecidableEq, Repr

/-- Where a returning value goes (R48): a register of lanes, element by element. -/
inductive RegWrite where
  | v (n lane : Nat) (x : Word)
  | s (n : Nat) (x : DWord)
deriving DecidableEq, Repr

/-- The view state of a word a block holds (R100). -/
inductive VState where
  | valid | clean | dirty
deriving DecidableEq, Repr

/-- One word of a block: its state, value, the bytes its owner wrote, and whether an uncorrectable error stands in it, the only copy
(R121, R232, R334). -/
structure VWord where
  st : VState
  x : Word
  written : BitVec 4
  known : BitVec 4
  bad : Bool := false
deriving DecidableEq, Repr

/-- The kind of a store-queue entry (R102); a store is a command where it goes to the command page (R380), `remote` names the
target core of a remote STS, none where its coordinate fails R249. -/
inductive SQKind where
  | store
  | release
  | atomic (op : HomeOp)
  | red (op : HomeOp)
  | redu (tag : Fin 16)
  | flush
  | inval
  | matrix
  | slice
  | remoteSts (target : Option Nat)
  | command
  | launch
deriving DecidableEq, Repr

/-- A store-queue entry: one instruction's accesses for the lanes of one slice (R100, R102). A retired REDU keeps in `accs` the contributions still
to be made and in `far` those forwarded to another device, a retired store in `old` what the view held of its words before (the model's
own). -/
structure SQEntry where
  id : Nat
  who : Who
  slice : Nat
  kind : SQKind
  order : Order
  ssn : BitVec 16
  pri : BitVec 2
  accs : List LaneAcc
  ty : Option MTy
  dst : Option Reg
  checked : Bool
  held : Bool
  far : List LaneAcc := []
  old : List (Nat × Option VWord) := []
deriving DecidableEq, Repr

/-- The kind of a request on the ORN (R141): engines are numbered as in R132, `push` is a read of Bridle, `askBack` the recall that a home sends to a
core. -/
inductive OrnKind where
  | register
  | release
  | acquireLoad
  | atomic (op : HomeOp)
  | red (op : HomeOp)
  | fetch
  | l2Fill
  | uEnter (tag : Fin 16)
  | pathFill (tile : Bool)
  | engReg (eng : Nat)
  | engRead (eng : Nat)
  | engWrite (eng : Nat)
  | push (q id : Nat) (ty : PushTy)
  | watch
  | remote (id dev : Nat) (op : HomeOp)
  | askBack (core : Nat)
deriving DecidableEq, Repr

/-- The part of a request on the ORN for one sector, with its order key (R142) and what it carries. The parts of one request
share `grp`: they take one reservation and one point together, and each sector is then served by itself (R133, R143). A request is
presented once every entry of `after` has completed (R103, R106, R109); one that a shootdown does not wait for, since it waits for an entry
whose own check that shootdown holds, is `late`, and is translated afresh (R197). `entered` is the CLOCK at which its die tree admitted it
(R142, R176), `spread` the sectors of the frame that the access fetches (R123), `forced` the bytes that a fetch takes from the home whatever
the view holds (R106), or the words that an engine reads before it writes them (R147), `done` words of a registration that a write home has
registered already (R104). -/
structure OrnReq where
  id : Nat
  grp : Nat
  clock : DWord
  entered : Option DWord
  die : Nat
  pos : Nat
  agent : Nat
  core : Nat
  who : Who
  kind : OrnKind
  order : Order
  entry : Option Nat
  sector : Nat
  accs : List LaneAcc
  ty : Option MTy
  dst : Option Reg
  pri : BitVec 2
  span : BitVec 2
  after : List Nat
  late : Bool
  spread : List Nat
  forced : List Nat
  done : List Nat
deriving DecidableEq, Repr

/-- An atomic forwarded to another device, its reply still to come (R152). -/
structure Fwd where
  id : Nat
  dev : Nat
  core : Nat
  who : Who
  op : HomeOp
  acc : LaneAcc
  ty : Option MTy
  dst : Option Reg
  entry : Option Nat
deriving DecidableEq, Repr

/-- A result on its way back to a strand (R48, R144). `flags` are ORed into FPFLAGS when it returns (R312); `sfu` marks a
special function's result, which CLRMX and RDMX wait for (R324); `words` are the home words it brings (R144). -/
structure Flight where
  id : Nat
  g : GKey
  strand : Nat
  writes : List RegWrite
  flags : Word
  seq : Nat
  sfu : Bool
  words : List Nat := []
deriving DecidableEq, Repr

/-- A watched word of WAITW, one lane, with the instruction's destination (R349); `again` is set where no watch was free, and
the lane fetches again. -/
structure Watch where
  id : Nat
  who : Who
  lane : Nat
  va : DWord
  pa : Nat
  cc : CC
  ty : ITy
  acq : Bool
  cmp : DWord
  dst : Reg
  value : Option DWord
  placed : Bool
  again : Bool
  home : Nat
deriving DecidableEq, Repr

/-! ### Caches and homes (R100, R121 to R139) -/

/-- An L1 span block: frame, first word held, words, priority, recency, and how it was filled (R121, R124). -/
structure Block where
  frame : Nat
  start : Nat
  words : List VWord
  pri : Nat
  age : Nat
  predIdx : Option Nat
  touched : BitVec 16
deriving DecidableEq, Repr

/-- A partial of one word: its value (64 bits wide for tags 2 and 14) its contributed bit (R86, R135),
and whether an uncorrectable error stands in it (R232). -/
structure Partial where
  x : DWord
  set : Bool
  bad : Bool := false
deriving DecidableEq, Repr

/-- An update-only sector of a core's L1, a block of its own, with its home slice, priority and recency (R135, R345). -/
structure UBSector where
  sector : Nat
  tag : Nat
  parts : List Partial
  home : Nat
  pri : Nat
  age : Nat
deriving DecidableEq, Repr

/-- A parked partial at a home (R139). -/
structure Parked where
  sector : Nat
  core : Nat
  tag : Nat
  parts : List Partial
  home : Nat
deriving DecidableEq, Repr

/-- An owner entry of a directory entry (R132). -/
structure Owner where
  core : Nat
  mask : BitVec 8
deriving DecidableEq, Repr

/-- The engine entry of a directory entry (R132, R134). -/
structure EngOwn where
  core : Nat
  eng : Nat
  mask : BitVec 8
deriving DecidableEq, Repr

/-- A home directory entry of one sector; `owners` is oldest first (R132). -/
structure Dir where
  sector : Nat
  owners : List Owner
  eng : Option EngOwn
  uTag : Nat
  uhold : BitVec 256
  merging : Bool
  recalled : List (Nat × List Partial)
deriving DecidableEq, Repr

/-- A block of a home slice's L2: a run of sectors of one frame, those whose words HBM does not hold yet, the context whose agent made
the fill of each, and its priority (R122, R203). A device lists them most recent first. -/
structure L2Blk where
  home : Nat
  frame : Nat
  lo : Nat
  hi : Nat
  dirty : BitVec 16
  ctxs : List Nat
  pri : Nat
deriving DecidableEq, Repr

/-- A release record of a home word (R108, R110). -/
structure RelRec where
  word : Nat
  cores : BitVec 256
  home : Nat
deriving DecidableEq, Repr

/-- A translation cache entry (R196). -/
structure Tlb where
  asid : Nat
  va : Nat
  size : Nat
  pte : DWord
deriving DecidableEq, Repr

/-- An instruction-buffer line: one fetch window of a context (R199, R237, R433). -/
structure ILine where
  asid : Nat
  va : Nat
  bits : BitVec 256
deriving DecidableEq, Repr

/-- A copy-engine command (R381 to R384). The fields from `pieces` on are the model's own: destination ranges still to be
registered, claimed words still to be written, elements read and written, data read and not yet written by destination
address, whether a scatter's writes are in order, and whether a write is on the ORN. -/
structure CeCmd where
  who : Who
  entry : Nat
  src : Nat
  dst : Nat
  idx : Nat
  op : Nat
  tag : Nat
  esize : Nat
  count : Nat
  promise : DWord
  accepted : Bool
  missed : Bool
  faulted : Bool
  pieces : List (Nat × Nat)
  words : List Nat
  read : Nat
  buf : List (Nat × List Byte)
  sorted : Bool
  stopVa : Nat := 0
  writing : Bool := false
deriving DecidableEq, Repr

/-- A copy engine: its queue and its previous promise (R181). -/
structure CopyEng where
  queue : List CeCmd
  promise : DWord
deriving DecidableEq, Repr

/-- Stall sampling of one context on one partition; `late` are records whose page another device owns meanwhile (R150, R411, R412). -/
structure Samp where
  ctx : Nat
  running : Bool
  period : Nat
  start : DWord
  ptr : Nat
  drop : Word
  last : Nat
  seen : DWord
  stopAt : Option DWord := none
  late : List (Nat × List Byte) := []
deriving DecidableEq, Repr

/-- A strand that a partition has selected, with the PC it stood at, and whether it issued (R163, R412). -/
structure Pick where
  g : GKey
  strand : Nat
  pc : VAddr
  went : Bool := false
deriving DecidableEq, Repr

/-- An issue partition: a stop for a debug session, the sampler, the strands of its last selection, first-selected first, and the cycle of that, the
strand that R164 has named first since, and the cycle of its last change of sets (R163 to R166, R206, R412). -/
structure Part where
  stopped : Option Nat
  samp : List Samp
  selectedAt : Option DWord
  selected : List Pick
  forced : Option (GKey × Nat)
  swapAt : Option DWord := none
deriving DecidableEq, Repr

/-- What a scratchpad instruction does at the banks (R337, R338, R343). -/
inductive SpOp where
  | load
  | store
  | atomic (op : HomeOp)
  | push (q id : Nat) (ty : PushTy)
deriving DecidableEq, Repr

/-- A scratchpad instruction waiting for the banks of the core that holds it, by source IP0 to IP3, remote, CE0, CE1, Bridle
(R174); `entry` is the store-queue entry of a remote STS. -/
structure SpReq where
  src : Nat
  id : Nat
  who : Who
  team : TKey
  op : SpOp
  order : Order
  accs : List LaneAcc
  ty : Option MTy
  dst : Option Reg
  entry : Option Nat
deriving DecidableEq, Repr

/-- The turn a matrix engine is in (R177, R359, R365): the gang, the row its step or epilogue began at, the cycle in which it began, the B slice
once that is loaded, elements and scale of each row, and the bytes left of a transfer step. -/
structure MxTurn where
  g : GKey
  row0 : Nat
  since : DWord
  bs : Option (List (List Byte × List Byte))
  left : Nat := 0
deriving DecidableEq, Repr

/-- What an engine's read of part of a sector has returned, for the command that asked: the bytes, or none where they are an uncorrectable error
(R147, R234). -/
structure EngIn where
  eng : Nat
  g : GKey
  seq : Nat
  pa : Nat
  n : Nat
  bytes : Option (List Byte)
deriving DecidableEq, Repr

/-- A core (R4). `sq` holds its store queues' entries in issue order, `gone` those that have retired and are not complete,
in the order they retired (R103, R104); `issued` the cycle in which its partitions last selected, and `busy` the strands that published latencies
and issue costs held in it (R162, R163; the model's own). -/
structure Core where
  num : Nat
  blocks : List Block
  ub : List UBSector
  cpath : List (Nat × Word)
  tpath : List (Nat × Word)
  sq : List SQEntry
  gone : List SQEntry
  inflight : List Flight
  ibuf : List ILine
  tlb : List Tlb
  pred : SMap 8
  tob : SMap 8
  tobCtx : SMap 32
  resv : List Resv
  parts : List Part
  ces : List CopyEng
  spq : List SpReq
  spLast : Nat
  mxLast : Nat
  mxTurn : Option MxTurn
  tobBad : List Nat := []
  brLast : Nat
  issued : Option DWord
  busy : List (GKey × Nat) := []
  engIn : List EngIn := []
deriving DecidableEq, Repr

/-! ### Contexts, Grotto and the host (R189, R204, R215 to R217, R424 to R430, R442 to R445) -/

/-- A fault-queue or store-fault record, words 0 to 7 (R215, R217). -/
structure FRec where
  w0 : Word
  w1 : Word
  w23 : DWord
  w45 : DWord
  w6 : Word
  w7 : Word
deriving DecidableEq, Repr

/-- A record as it is detected, which may have to wait for room in its queue (R216): the store-fault queue when `store`; `found` the cycle it
was detected in; `g` and `strand` name what stopped; `copy` says that its page was held or deferred, so that the owner gets a copy (R424, R426);
`done` that what stopped has gone on meanwhile, so that the record has nothing left to be answered. -/
structure PendRec where
  store : Bool
  found : DWord
  fr : FRec
  g : GKey
  strand : Nat
  team : TKey
  write : Bool
  copy : Bool := false
  done : Bool := false
deriving DecidableEq, Repr

/-- A record Grotto has still to answer, with the gang and strand it stopped (R213, R430): `taken` once Grotto has read it and
something is still to come, `due` the cycle in which the resume command reaches its strand (R220); `copy` and `done` as in `PendRec`. -/
structure Todo where
  seq : Word
  fr : FRec
  store : Bool
  g : GKey
  strand : Nat
  team : TKey
  write : Bool
  taken : Bool
  due : Option DWord
  copy : Bool := false
  done : Bool := false
deriving DecidableEq, Repr

/-- An event slot (R444), with the gang and strand its record stopped. -/
structure Event where
  kind : Nat
  seq : Word
  clock : DWord
  fr : FRec
  g : GKey
  strand : Nat
  team : TKey
deriving DecidableEq, Repr

/-- A page by its first address and size. -/
structure Page where
  va : Nat
  size : Nat
deriving DecidableEq, Repr

/-- A page in the repair queue: its context, and whether it is copy-on-write (R427). -/
structure Repair where
  ctx : Nat
  page : Page
  cow : Bool
deriving DecidableEq, Repr

/-- A breakpoint with the bytes it replaced (R408). -/
structure Brk where
  va : Nat
  old : DWord
deriving DecidableEq, Repr

/-- A sorik-ld binding: symbol index, code address of its stub, address it binds to, whether bound (R222, R261). -/
structure Binding where
  sym : Nat
  stub : Nat
  target : Nat
  bound : Bool
deriving DecidableEq, Repr

/-- A context: descriptor and what Grotto keeps with it (R189, R205, R211, R222, R411, R424, R426). `waitGrid` is the grid whose next
team fitted on no core, `retry` whether a team has left since (R155); `backing` keeps the entry of each held or deferred page as it was (R424, R426). -/
structure Ctx where
  num : Nat
  gen : Nat
  root : Nat
  coreset : BitVec 256
  group : Nat
  slice : Nat
  quota : Nat
  remote : BitVec 320
  limit : DWord
  hang : Word
  debug : Word
  sbuf : Option (Nat × Nat)
  digest : BitVec 512
  serial : Nat
  held : List Page
  deferred : List Page
  events : List Event
  waiting : List Event
  eventSeq : Word
  breaks : List Brk
  haltOrder : List (GKey × TKey)
  bindings : List Binding
  waitGrid : Option Word
  retry : Bool
  backing : List (Page × DWord) := []
deriving DecidableEq, Repr

/-- A translation-log record (R204). -/
structure TLog where
  kind : Nat
  ctx : BitVec 16
  cores : Nat
  va : Nat
  len : Nat
  stalled : DWord
  start : DWord
  fin : DWord
  value : DWord
  seq : Word
deriving DecidableEq, Repr

/-- An error-log record (R235). -/
structure ELog where
  ctx : BitVec 16
  kind : Nat
  unit : Nat
  w1 : Word
  addr : DWord
deriving DecidableEq, Repr

/-- A shootdown in progress (R197, R204); `ids` are the accesses it waits for. -/
structure Shoot where
  asid : Nat
  ctx : BitVec 16
  va : Nat
  len : Nat
  cores : BitVec 256
  start : DWord
  xRemoved : Bool
  waitSq : List (Nat × Nat)
  waitOrn : List Nat
  stalled : DWord
deriving DecidableEq, Repr

/-- A request in Grotto's request order (R442): where it came from, the function whose holder sent it (0 the administrator, n the
owner of context n; R441, R446), the cycle it arrived in, words 0 to 15. -/
structure Req where
  path : ReqPath
  holder : Nat
  arrived : DWord
  words : List Word
deriving DecidableEq, Repr

/-- A reply waiting to be written (R442, R444). -/
structure Reply where
  path : ReqPath
  ctx : BitVec 16
  status : Nat
  id : Word
  result : DWord
  bulk : List Byte
deriving DecidableEq, Repr

/-- The ring registers of a PCIe function, and the MSI-X vectors signalled, oldest first (R441, R444). Its rings and its result area stand in host
memory (`State.hostMem`). -/
structure Fn where
  num : Nat
  reqBase : DWord
  rplBase : DWord
  evtBase : DWord
  resBase : DWord
  sizes : Word
  enable : Word
  reqTail : Word
  reqHead : Word
  rplTail : Word
  rplHead : Word
  evtTail : Word
  evtHead : Word
  vectors : Word
  signals : List Nat
deriving DecidableEq, Repr

/-- The dump of a partition stop (R206): its gangs as they stood, the store-queue entries of its slices and the core's block
tags. -/
structure Dump where
  core : Nat
  part : Nat
  gangs : List Gang
  entries : List SQEntry
  blocks : List Block
  ub : List UBSector
deriving DecidableEq, Repr

/-! ### Links, stacks, power, boot (R7, R149, R178 to R180, R208, R413, R436 to R456) -/

/-- A Tether link: what its status register reads, the buffers of its two channels that this device may still spend, and its replay buffer, the last
flits sent, by their transactions (R447). -/
structure Link where
  replay : Word
  tdrop : BitVec 16
  peer : Nat
  lanes : Nat
  state : Nat
  reqFree : Nat := 64
  dataFree : Nat := 128
  kept : List FlitBody := []
deriving DecidableEq, Repr

/-- A transaction to a device that has not left whole: the flits still to be sent, and the link the first of them left on (R447, R448). -/
structure Outgoing where
  dev : Nat
  body : FlitBody
  left : Nat
  link : Option Nat
deriving DecidableEq, Repr

/-- A transaction that has left: the link, the device it is for, and what its flits carried (R447, R448). -/
structure Sent where
  link : Nat
  dev : Nat
  body : FlitBody
deriving DecidableEq, Repr

/-- A page-directory entry of a page homed here that is not owned by its home device; `granted` the device the page has been sent to, until that
has taken it (R149, R150). -/
structure PageDir where
  page : Nat
  st : Nat
  owner : Nat
  relrec : Bool
  xfer : Nat
  granted : Option Nat := none
deriving DecidableEq, Repr

/-- An operation another device has forwarded to a page homed here: its identifier there, the device, the operation, the home slice a
pinned page names (R131, R152). -/
structure RemOp where
  id : Nat
  dev : Nat
  pa : Nat
  op : HomeOp
  x : DWord
  y : DWord
  order : Order
  pin : Option Nat := none
deriving DecidableEq, Repr

/-- A request held by a pseudo-channel controller (R179). -/
structure HReq where
  addr : Nat
  write : Bool
  since : DWord
deriving DecidableEq, Repr

/-- A pseudo-channel: held requests and those that wait for room, open rows by bank with their last access, refreshes owed, write-drain
mode, RFSTALL, the cycles requests have waited for forced refreshes, the cycle an all-bank refresh holds it to, and the cycle a refresh
last fell due in (R179, R180). The spec names latency counters and gives no layout of them: this one count is the model's (assumption 101). -/
structure PChan where
  num : Nat
  reqs : List HReq
  late : List HReq
  rows : List (Nat × Nat × DWord)
  owed : Nat
  drain : Bool
  rfstall : Nat
  waited : Nat
  busy : DWord
  dueAt : Option DWord
deriving DecidableEq, Repr

/-- How far the device has come since reset (R437 to R440, R450). -/
inductive Service where
  | boot (stage : Nat)
  | stuck (stage : Nat)
  | lantern
  | leaving
  | full
  | thermal
  | stopped
deriving DecidableEq, Repr

/-- One service-die flash slot: the image's header fields that matter and its bytes (R438). -/
structure Image where
  kind : Nat
  version : Nat
  bytes : List Byte
deriving DecidableEq, Repr

/-- The two slots, fused minimum and preference bank of one image kind, which slot runs and the image that runs (R438, R455). -/
structure ImgBank where
  a : Option Image
  b : Option Image
  minVersion : Nat
  blown : Nat
  runningB : Bool
  running : Option Image
deriving DecidableEq, Repr

/-- Strata: enable, exponent, destination, the counters and the last latch (R413). -/
structure Strata where
  on : Bool
  k : Nat
  dst : Nat
  len : Nat
  pwrhold : Nat
  pstchg : Nat
  latched : List Nat
deriving DecidableEq, Repr

/-- A service-image handover table (R456). -/
structure Handover where
  clock : DWord
  digest : BitVec 512
  contexts : Nat
  images : Nat
  faultPos : Nat
  storePos : Nat
  logSeq : Word
deriving DecidableEq, Repr

/-- An image's sections: its code section's address, which is Grotto's choice, as a multiple of 64 KiB, the bytes of its code and data sections, and
where its binding table lies (R431, R433, R456). -/
structure Sections where
  unit : Nat
  codeSize : Nat
  dataSize : Nat
  table : Nat
deriving DecidableEq, Repr

/-- A multiple of `n` that is the first at or above a place. -/
def upTo (n x : Nat) : Nat := (x + n - 1) / n * n

/-- Where the code section lies (R431). -/
def Sections.code (x : Sections) : Nat := 65536 * x.unit

/-- Where the data section lies: at the first 64 KiB boundary above the end of the code section (R431). -/
def Sections.data (x : Sections) : Nat := (x.code + x.codeSize) / 65536 * 65536 + 65536

/-- Where the const section lies: at the first 4 KiB boundary at or above the end of the data section (R431). -/
def Sections.const (x : Sections) : Nat := upTo 4096 (x.data + x.dataSize)

/-- One image of the code heap: the context field, the places, the load digest (R456). -/
structure CodeImg where
  ctx : BitVec 16
  secs : Sections
  digest : BitVec 512
deriving DecidableEq, Repr

/-- Where a soft error strikes (R232, R235): a register or table of a gang; a byte of a core's scratchpad or TOB;
a word of a core's L1, of its constant or tile path, a line of its instruction buffer, a translation of its cache or of a die's; a home sector in
L2 or HBM; the directory entry of a sector; service-die memory. -/
inductive SoftErr where
  | reg (g : GKey) (r : BadReg)
  | scratch (core addr : Nat)
  | l1 (core word : Nat)
  | path (core : Nat) (tile : Bool) (word : Nat)
  | tob (core addr : Nat)
  | ibuf (core asid va : Nat)
  | tlb (core asid va : Nat) (die : Bool)
  | home (pa : Nat)
  | dir (sector : Nat)
  | service (addr : Nat)
deriving DecidableEq, Repr

/-- A register that the host reads: of function 0's management registers a die's monitor, a link's status, a page's directory entry, a route, a
core's place, the window's offset, the records lost by the two logs, the messages discarded, to which the spec gives no addresses; or what
stands at an offset of a function's request window (R149, R204, R235, R441, R444, R446 to R449, R453). -/
inductive MgmtReg where
  | monitor (die : Nat)
  | link (k : Nat)
  | page (page : Nat)
  | route (dev : Nat)
  | coreMap (core : Nat)
  | offset
  | logLost
  | errLost
  | uetDrops
  | ring (fn off : Nat)
deriving DecidableEq, Repr

/-- What a debug session reads of its context: a register of a gang in a lane, or a slot of its tables; bytes of memory mapped by the context, as the
home holds them; the home directory entry of the sector of an address; a core's update-only block of that sector (R205, R422). -/
inductive DbgRead where
  | v (g : GKey) (t : TKey) (n lane : Nat)
  | s (g : GKey) (t : TKey) (n : Nat)
  | p (g : GKey) (t : TKey) (n : Nat)
  | m (g : GKey) (t : TKey) (n : Nat)
  | strand (g : GKey) (t : TKey) (n : Nat)
  | fork (g : GKey) (t : TKey) (n : Nat)
  | home (ctx va n : Nat)
  | dir (ctx va : Nat)
  | block (ctx va core : Nat)
deriving DecidableEq, Repr

/-- A move of the schedule: the partitions of a core select and issue, but for the strands that published latencies and issue costs
hold in this cycle (R162, R165), or another step of the device happens. Of those that are no row of the opcode table, the host writes its own
memory, reads HBM through function 0's window or a management register, a debug session reads, and a link's receiver frees buffers (R205, R422, R441,
R444, R447). -/
inductive Move where
  | issue (core : Nat) (busy : List (GKey × Nat))
  | event (i : Instr)
  | load (ctx : Nat) (secs : Sections) (image : List Byte) (table : List Binding)
  | bindJob (job holder : Nat)
  | offset (x : DWord)
  | soft (hard : Bool) (e : SoftErr)
  | hostWrite (addr : Nat) (bytes : List Byte)
  | windowRead (off n : Nat)
  | mgmtRead (r : MgmtReg)
  | dbgRead (r : DbgRead)
  | credit (link : Nat) (data : Bool) (n : Nat)
deriving DecidableEq, Repr

/-- One entry of the schedule: cycles that pass first, then the move. -/
structure Sched where
  cycles : Nat
  move : Move
deriving DecidableEq, Repr

/-- The device. A core that `cores` does not list is empty (`Core.empty`), and so is a pseudo-channel that `pchans` does not list.
`lastServed` is the context the work distributor last placed a team for (R192); `recAt` and `storeAt` hold the cycle of the last record of
each queue and how many records it has of that cycle (R216).
`ownedRemote`, `pageAsked`, `pageRecalls` and `relTold` are pages of other devices that this one owns, has asked for, is asked back,
and has told the home of release records of; `tripped` says that Lantern service follows a thermal trip (R450); `pageWaits` the devices that
wait for a page homed here, in order (R150); `giving` pages this device is giving up, with the home writes still to be acknowledged (R151);
`outbox` what waits to leave over Tether and `sent` what has left; `departing` a device that is leaving the domain, with the step reached
(R209); `hostMem` the host's memory and `hostReads` what it has read of the device, oldest first (R441, R444); `dbgAnswers` the statuses of
debug requests turned away (R457). `cur` is the gang whose strand `curStrand` issues (every other gang stands in `gangs`); `sched` is the
model's own input: which move comes next and how many cycles pass before it, where the manual leaves that to timing. -/
structure State where
  -- the issuing gang and the others
  cur : Gang
  curStrand : Nat
  gangs : List Gang
  teams : List Team
  grids : List Grid
  cores : List Core
  -- time and schedule
  clock : DWord
  sched : List Sched
  nextId : Nat
  freeCtr : Nat
  -- homes
  mem : SMap 8
  dirs : List Dir
  rel : List RelRec
  parked : List Parked
  watches : List Watch
  ornWait : List OrnReq
  orn : List OrnReq
  fwd : List Fwd
  dieTlb : List (Nat × Tlb)
  poison : List Nat
  l2 : List L2Blk
  -- contexts and Grotto
  ctxs : List Ctx
  gens : List (Nat × Nat)
  turns : List (Nat × Nat × DWord)
  lastServed : Nat
  faultQ : List FRec
  storeQ : List FRec
  storeRead : Nat
  faultSeq : Word
  recAt : DWord × Nat
  storeAt : DWord × Nat
  pendRecs : List PendRec
  todo : List Todo
  repairs : List Repair
  shoots : List Shoot
  tlog : List TLog
  tlogSeq : Word
  logLost : Nat
  elog : List ELog
  errLost : Nat
  reqs : List Req
  replies : List Reply
  fns : List Fn
  hbmOff : DWord
  jobs : List (Nat × Nat)
  uetDrops : Nat
  uetSent : List (Nat × Nat × List Word)
  hostMem : SMap 8
  hostReads : List (List Byte)
  dbgAnswers : List Nat
  grottoUp : Bool
  handover : Option Handover
  codeHeap : List CodeImg
  dumps : List Dump
  stepping : Option (GKey × Nat)
  -- links and domain
  links : List Link
  routes : List (BitVec 18)
  domain : BitVec 32
  devNum : Nat
  members : BitVec 320
  pageDirs : List PageDir
  ownedRemote : List Nat
  pageWaits : List (Nat × Nat)
  pageAsked : List Nat
  pageRecalls : List Nat
  relTold : List Nat
  remoteOps : List RemOp
  outbox : List Outgoing
  sent : List Sent
  giving : List (Nat × List Nat)
  departing : Option (Nat × Nat)
  -- stacks
  pchans : List PChan
  -- power, monitors, boot
  service : Service
  tripped : Bool
  pstate : Nat
  cap : Nat
  withhold : Bool
  estimates : List (DWord × Nat)
  pstateAt : Option DWord
  tmax : List Nat
  volt : List Nat
  strata : Strata
  banks : List ImgBank
  enable : List (BitVec 72)
  pcie : Nat × Nat
  pcieUp : Bool
  issueStopped : Bool
  tickWalk : Nat
deriving DecidableEq, Repr

/-- Reasons the model would stop. The manual has every trap and fault recorded and the machine go on, so there is none: no
meaning raises a fault, and a run never ends in one. -/
inductive Fault where
deriving DecidableEq, Repr

/-- Reasons an instruction has no meaning in this model. -/
inductive Refusal where
  /-- Raised by the dispatcher alone, for an instruction not modelled yet; safe: the run stops before any effect. -/
  | notModelled (mnemonic : String)
deriving DecidableEq, Repr

/-! ### Empty values and the machine after device reset -/

/-- No wait (R183: an entry cleared). -/
def WaitFor.empty : WaitFor := { obj := 0, since := 0, kind := .none, sig := none }

/-- A strand-table slot that holds no strand (R20, R228). -/
def Strand.empty : Strand :=
  { valid := false, pc := 0, mask := 0, rank := 0, kind := .root, fork := 0, state := .ready, mdone := 0, coll := [], cstack := [],
    path := [], wait := WaitFor.empty, waitOn := .none, waitCount := 0, mmaWait := none, lastSw := 0, born := 0,
    faultVa := 0, heldVas := [], own := 0, notBefore := 0, spinLo := 0, spinHi := 0, spinCount := 0, spinAccess := false, issued := 0, issuedPc := 0 }

/-- A free fork-table entry (R21, R229). -/
def Fork.empty : Fork :=
  { busy := false, tmask := 0, fmask := 0, tslot := 0, fslot := 0, lslot := 0, tdone := false, tend := false,
    fdone := false, fend := false, tpub := 0, fpub := 0, pside := .root, pfork := 0, inst := 0 }

/-- No access: no core has the number 256. -/
def Who.empty : Who :=
  { g := ⟨256, 0, 0⟩, strand := 0, seq := 0, clock := 0, ahead := false, path := [], pc := 0, mask := 0, skind := .root, fork := 0,
    team := ⟨0, 0, 0⟩, field := 0 }

/-- An access slice with no loop and no stream (R370). -/
def Slice.empty : Slice :=
  { trips := List.replicate 4 1, idx := List.replicate 4 0,
    streams := List.replicate 4 { base := 0, strides := List.replicate 5 0, vmask := 0, ty := none, sp := false },
    q := 0, running := false, stopped := false, finished := false, who := Who.empty }

/-- A gang slot with no gang in it. Its registers read zero (R160 gives a launched gang zeros). -/
def Gang.empty : Gang :=
  { key := ⟨0, 0, 0⟩, team := ⟨0, 0, 0⟩, ctxField := 0, gangId := 0, nregs := 0, launched := 0, live := 0,
    resident := false, v := [], p := [], s := [], m := [], strands := List.replicate 16 Strand.empty,
    forks := List.replicate 8 Fork.empty, pendV := [], pendP := [], pendS := [], pendX := [], sSeq := [],
    openSlots := BitVec.allOnes 16, openForks := BitVec.allOnes 8, past := [], fpflags := 0, maxabs := 0, promise := 0,
    ssn := 0, halted := false, trapParked := false, ageStamp := 0, active := false, pendingFor := 0, broughtIn := none,
    lateness := 0, cq := [], cqWritten := 0, mq := [], mIssued := 0, mCompleted := 0,
    fq := List.replicate 4 ⟨[], []⟩, slice := Slice.empty, perf := [], issueSeq := 0, forkInst := 0,
    storeFault := false, holds := [], proms := [], launches := [], pcs := [] }

/-- A barrier idle at instance 0 (R393). -/
def Bar.empty : Bar := { arrived := 0, deadline := 0, inst := 0, expect := 0, count := 0, kind := .idle }

/-- An issue partition with nothing issued (R206, R412). -/
def Part.empty : Part := { stopped := none, samp := [], selectedAt := none, selected := [], forced := none }

/-- Core `n` with empty caches, queues, buffers and engines (R4, R180). -/
def Core.empty (n : Nat) : Core :=
  { num := n, blocks := [], ub := [], cpath := [], tpath := [], sq := [], gone := [], inflight := [], ibuf := [], tlb := [], pred := [],
    tob := [], tobCtx := [], resv := [], parts := List.replicate 4 Part.empty, ces := List.replicate 2 ⟨[], 0⟩, spq := [],
    spLast := 7, mxLast := 63, mxTurn := none, brLast := 63, issued := none }

/-- A PCIe function whose ring registers hold their reset values, all 0 (R444). -/
def Fn.empty (n : Nat) : Fn :=
  { num := n, reqBase := 0, rplBase := 0, evtBase := 0, resBase := 0, sizes := 0, enable := 0, reqTail := 0, reqHead := 0,
    rplTail := 0, rplHead := 0, evtTail := 0, evtHead := 0, vectors := 0, signals := [] }

/-- A link that is down (R447: every field 0). -/
def Link.empty : Link := { replay := 0, tdrop := 0, peer := 0, lanes := 0, state := 0 }

/-- A pseudo-channel with no request and no open row (R179, R180). -/
def PChan.empty (n : Nat) : PChan := { num := n, reqs := [], late := [], rows := [], owed := 0, drain := false, rfstall := 0, waited := 0, busy := 0, dueAt := none }

/-- Strata disabled with its counters at 0 (R413). -/
def Strata.empty : Strata :=
  { on := false, k := 10, dst := 0, len := 0, pwrhold := 0, pstchg := 0, latched := [] }

/-- Both slots empty, minimum version 0, no preference fuse blown (DESIGN CHOICE, unsafe: flash and fuses keep what they
held, and the manual states no content; assumption 5). -/
def ImgBank.empty : ImgBank := { a := none, b := none, minVersion := 0, blown := 0, runningB := false, running := none }

/-- The device right after device reset (R437): CLOCK 0 (R46), the fault sequence number 0 (R216), every register the manual
gives a reset value at that value, boot stage 1 about to run, no gang placed. The values the manual does not give are
assumptions 5 to 8. -/
def State.reset : State :=
  { cur := Gang.empty, curStrand := 0, gangs := [], teams := [], grids := [], cores := [],
    clock := 0, sched := [], nextId := 1, freeCtr := 0,
    mem := [], dirs := [], rel := [], parked := [], watches := [], ornWait := [], orn := [], fwd := [], dieTlb := [], poison := [], l2 := [],
    ctxs := [], gens := [], turns := [], lastServed := 31, faultQ := [], storeQ := [], storeRead := 0, faultSeq := 0, recAt := (0, 0), storeAt := (0, 0), pendRecs := [], todo := [],
    repairs := [], shoots := [], tlog := [], tlogSeq := 0, logLost := 0, elog := [], errLost := 0, reqs := [],
    replies := [], fns := (List.range 32).map Fn.empty, hbmOff := 0, jobs := [], uetDrops := 0, uetSent := [], hostMem := [],
    hostReads := [], dbgAnswers := [],
    grottoUp := false, handover := none, codeHeap := [], dumps := [], stepping := none,
    links := List.replicate 18 Link.empty, routes := List.replicate 320 0, domain := 0, devNum := 0, members := 0,
    pageDirs := [], ownedRemote := [], pageWaits := [], pageAsked := [], pageRecalls := [], relTold := [], remoteOps := [],
    outbox := [], sent := [], giving := [], departing := none,
    pchans := [],
    service := .boot 1, tripped := false, pstate := 0, cap := 2200, withhold := false, estimates := [], pstateAt := none, tmax := List.replicate 4 0,
    volt := List.replicate 4 0, strata := Strata.empty, banks := List.replicate 3 ImgBank.empty,
    enable := List.replicate 4 (BitVec.ofNat 72 (2 ^ 64 - 1)), pcie := (0, 0), pcieUp := false, issueStopped := true,
    tickWalk := 0 }

end Sys2Proof.Machine
end

