-- ==== Sys2Proof/Machine/Maps.lean ====
section
/-! DEFINITION. Operations on sparse contents, lists kept by key, and lane sets: what registers, scratchpads, buffers,
memory and the device's tables are read and written with. -/

namespace Sys2Proof.Machine

/-! ### Sparse contents -/

/-- The value at a key: zero when unlisted. -/
def smGet {w : Nat} : SMap w → Nat → BitVec w
  | [], _ => 0
  | (k, v) :: rest, a => if k = a then v else smGet rest a

/-- The contents with a key unlisted. -/
def smErase {w : Nat} : SMap w → Nat → SMap w
  | [], _ => []
  | (k, v) :: rest, a => if k = a then smErase rest a else (k, v) :: smErase rest a

/-- The contents with an entry put in its place by key. -/
def smInsert {w : Nat} : SMap w → Nat → BitVec w → SMap w
  | [], a, x => [(a, x)]
  | (k, v) :: rest, a, x => if a < k then (a, x) :: (k, v) :: rest else (k, v) :: smInsert rest a x

/-- The contents after a write: writing zero unlists the key. -/
def smSet {w : Nat} (m : SMap w) (a : Nat) (x : BitVec w) : SMap w :=
  if x = 0 then smErase m a else smInsert (smErase m a) a x

/-- Canonical form: keys strictly rising, no entry zero. -/
def smWf {w : Nat} : SMap w → Bool
  | [] => true
  | (k, v) :: rest =>
    v != 0 && (match rest with | [] => true | (k', _) :: _ => decide (k < k')) && smWf rest

/-- Memory's canonical form: addresses strictly rising, no entry equal to what an unlisted address reads as. -/
abbrev Memory.wf (m : SMap 8) : Bool := smWf m

/-- What a byte that nothing has written reads as (DESIGN CHOICE, unsafe; assumption 1). -/
def unlistedByte : Byte := 0

/-- `n` bytes from an address up. -/
def smBytes (m : SMap 8) (a : Nat) : Nat → List Byte
  | 0 => []
  | n + 1 => smGet m a :: smBytes m (a + 1) n

/-- Bytes written from an address up. -/
def smPut (m : SMap 8) (a : Nat) : List Byte → SMap 8
  | [] => m
  | b :: rest => smPut (smSet m a b) (a + 1) rest

/-- A little-endian number of `n` bytes (R10). -/
def leNat : List Byte → Nat
  | [] => 0
  | b :: rest => b.toNat + 256 * leNat rest

/-- The `n` little-endian bytes of a number (R10). -/
def leBytes (x : Nat) : Nat → List Byte
  | 0 => []
  | n + 1 => BitVec.ofNat 8 x :: leBytes (x / 256) n

/-- The 32-bit word at an address (R10). -/
def smWord (m : SMap 8) (a : Nat) : Word := BitVec.ofNat 32 (leNat (smBytes m a 4))

/-- The 64-bit word at an address (R10). -/
def smDWord (m : SMap 8) (a : Nat) : DWord := BitVec.ofNat 64 (leNat (smBytes m a 8))

/-! ### Lane sets -/

/-- The lanes of a mask, lowest first (R333). -/
def lanesOf (m : LaneMask) : List Nat := (List.range 32).filter (fun l => m.getLsbD l)

/-- How many lanes a mask holds. -/
def laneCount (m : LaneMask) : Nat := (lanesOf m).length

/-- The lowest lane of a mask (R45, R352). -/
def lowLane (m : LaneMask) : Option Nat := (lanesOf m).head?

/-- The highest lane of a mask (R380). -/
def highLane (m : LaneMask) : Option Nat := (lanesOf m).getLast?

/-- The mask of one lane. -/
def laneBit (l : Nat) : LaneMask := 1#32 <<< l

/-- The mask of the lanes a condition holds on. -/
def maskOf (c : Nat → Bool) : LaneMask :=
  (List.range 32).foldl (fun m l => if c l then m ||| laneBit l else m) 0#32

/-! ### Lists by key -/

/-- Change the elements a condition picks. -/
def modWhere {α : Type} (c : α → Bool) (f : α → α) (l : List α) : List α := l.map (fun x => if c x then f x else x)

/-- Change the element a condition picks, or add one. -/
def upsert {α : Type} (c : α → Bool) (x : α) (f : α → α) (l : List α) : List α :=
  if l.any c then modWhere c f l else l ++ [f x]

/-- Change the element at a place. -/
def modAt {α : Type} (l : List α) (n : Nat) (f : α → α) : List α :=
  match l[n]? with
  | some x => l.set n (f x)
  | none => l

/-- The element at a place. -/
def atD {α : Type} (l : List α) (n : Nat) (d : α) : α :=
  match l[n]? with
  | some x => x
  | none => d

end Sys2Proof.Machine
end

