-- ==== Sys2Proof/Machine/Ops.lean ====
section
/-! DEFINITION. Named operations over the state: the issuing strand and gang, other gangs, cores and teams, registers,
pending bits, waits; taking a trap (R212 to R216) and going on after one (R220, R222). -/

namespace Sys2Proof.Machine

/-! ### The issuing strand and gang -/

/-- The issuing gang's strand slot `k` (R20). -/
def Gang.strandAt (g : Gang) (k : Nat) : Strand := atD g.strands k Strand.empty

/-- Change strand slot `k` of a gang. -/
def Gang.modStrand (g : Gang) (k : Nat) (f : Strand → Strand) : Gang := { g with strands := modAt g.strands k f }

/-- Fork-table entry `f` of a gang (R21). -/
def Gang.forkAt (g : Gang) (f : Nat) : Fork := atD g.forks f Fork.empty

/-- Change fork-table entry `f`. -/
def Gang.modFork (g : Gang) (f : Nat) (h : Fork → Fork) : Gang := { g with forks := modAt g.forks f h }

/-- The issuing strand. -/
def State.strand (s : State) : Strand := s.cur.strandAt s.curStrand

/-- Change the issuing gang. -/
def State.modCur (s : State) (f : Gang → Gang) : State := { s with cur := f s.cur }

/-- Change the issuing strand. -/
def State.modStrand (s : State) (f : Strand → Strand) : State := s.modCur fun g => g.modStrand s.curStrand f

/-! ### Other gangs, cores and teams -/

/-- The gangs on the device: the issuing one, when it is resident, and the others. -/
def State.allGangs (s : State) : List Gang := if s.cur.resident then s.cur :: s.gangs else s.gangs

/-- The gang at a place (R11). -/
def State.gangAt (s : State) (k : GKey) : Gang :=
  if s.cur.resident && s.cur.key == k then s.cur
  else (s.gangs.find? (fun g => g.key == k)).getD Gang.empty

/-- Change the gang at a place. -/
def State.modGang (s : State) (k : GKey) (f : Gang → Gang) : State :=
  if s.cur.resident && s.cur.key == k then s.modCur f
  else { s with gangs := modWhere (fun g => g.key == k) f s.gangs }

/-- Change every gang a condition picks. -/
def State.modGangs (s : State) (c : Gang → Bool) (f : Gang → Gang) : State :=
  { s with cur := if s.cur.resident && c s.cur then f s.cur else s.cur, gangs := modWhere c f s.gangs }

/-- Make the gang at a place, and a strand of it, the issuing one. -/
def State.focus (s : State) (k : GKey) (strand : Nat) : State :=
  if s.cur.resident && s.cur.key == k then { s with curStrand := strand }
  else match s.gangs.find? (fun g => g.key == k) with
    | some g =>
      let rest := s.gangs.filter (fun g' => g'.key != k)
      { s with cur := g, curStrand := strand, gangs := if s.cur.resident then s.cur :: rest else rest }
    | none => s

/-- A core by its number (R3). -/
def State.coreAt (s : State) (n : Nat) : Core := (s.cores.find? (fun c => c.num == n)).getD (Core.empty n)

/-- Change a core. -/
def State.modCore (s : State) (n : Nat) (f : Core → Core) : State :=
  { s with cores := upsert (fun c => c.num == n) (Core.empty n) f s.cores }

/-- A team (R13). -/
def State.teamAt (s : State) (k : TKey) : Option Team := s.teams.find? (fun t => t.key == k)

/-- Change a team. -/
def State.modTeam (s : State) (k : TKey) (f : Team → Team) : State :=
  { s with teams := modWhere (fun t => t.key == k) f s.teams }

/-- A context by number (R189). -/
def State.ctxAt (s : State) (n : Nat) : Option Ctx := s.ctxs.find? (fun c => c.num == n)

/-- Change a context. -/
def State.modCtx (s : State) (n : Nat) (f : Ctx → Ctx) : State :=
  { s with ctxs := modWhere (fun c => c.num == n) f s.ctxs }

/-- The 16-bit context field: number in bits 4:0, generation in bits 15:5 (R189). -/
def Ctx.field (x : Ctx) : BitVec 16 := BitVec.ofNat 16 (x.gen % 2048 * 32 + x.num)

/-- The live gangs of a team. -/
def State.teamGangs (s : State) (k : TKey) : List Gang := s.allGangs.filter (fun g => g.team == k)

/-- Change every gang of a team, the saved ones of a pre-empted team among them (R225, R226). -/
def State.modTeamGangs (s : State) (k : TKey) (f : Gang → Gang) : State :=
  (s.modGangs (fun g => g.team == k) f).modTeam k fun t => { t with saved := t.saved.map fun v => { v with gang := f v.gang } }

/-- A gang of a team by its place, resident or saved (R226). -/
def State.gangOf (s : State) (k : GKey) (t : TKey) : Option Gang :=
  match s.allGangs.find? (fun g => g.key == k && g.team == t) with
  | some g => some g
  | none => (s.teamAt t).bind fun x => (x.saved.map (·.gang)).find? fun g => g.key == k

/-- Change a gang of a team, resident or saved. -/
def State.onGang (s : State) (k : GKey) (t : TKey) (f : Gang → Gang) : State :=
  s.modTeamGangs t fun g => if g.key == k then f g else g

/-- A figure of HBM or Tether in cycles at the P-state's clock (R451). -/
def State.scaled (s : State) (n : Nat) : Nat := (n * atD [25, 20, 15, 10] s.pstate 10 + 24) / 25

/-- The issuing gang's core. -/
def State.myCore (s : State) : Core := s.coreAt s.cur.key.core

/-- Change the issuing gang's core. -/
def State.modMyCore (s : State) (f : Core → Core) : State := s.modCore s.cur.key.core f

/-- A number no request, entry or result has yet (the model's own). -/
def State.fresh (s : State) : Nat × State := (s.nextId, { s with nextId := s.nextId + 1 })

/-- The next value of the counter that free values are drawn by (the model's own). -/
def State.tick (s : State) : Nat × State := (s.freeCtr, { s with freeCtr := s.freeCtr + 1 })

/-! ### Registers (R41 to R45) -/

/-- The 32-bit vector register `n` of lane `l`. -/
def Gang.vr (g : Gang) (n l : Nat) : Word := smGet g.v (n * 32 + l)

/-- The 64-bit value of an even/odd pair: the low word is the even register's (R44). -/
def Gang.vpair (g : Gang) (n l : Nat) : DWord := g.vr (n + 1) l ++ g.vr n l

/-- A 32-bit source in a lane: a scalar gives bits 31:0, zr gives 0 (R42, R44). -/
def Gang.rd32 (g : Gang) (r : Reg) (l : Nat) : Word :=
  match r with
  | .v n => g.vr n.val l
  | .s n => (smGet g.s n.val).setWidth 32
  | .zr => 0

/-- A 64-bit source in a lane (R42, R44). -/
def Gang.rd64 (g : Gang) (r : Reg) (l : Nat) : DWord :=
  match r with
  | .v n => g.vpair n.val l
  | .s n => smGet g.s n.val
  | .zr => 0

/-- A source at the operation's width, zero-extended to 64 bits. -/
def Gang.rd (g : Gang) (wide : Bool) (r : Reg) (l : Nat) : DWord :=
  if wide then g.rd64 r l else (g.rd32 r l).setWidth 64

/-- A last source: a register or an imm8, zero-extended (R242). -/
def Gang.rdSrc (g : Gang) (wide : Bool) (b : Src) (l : Nat) : DWord :=
  match b with
  | .reg r => g.rd wide r l
  | .imm x => x.setWidth 64

/-- A last source read as 32 bits: counts, positions, lengths (R265). -/
def Gang.rdSrc32 (g : Gang) (b : Src) (l : Nat) : Word :=
  match b with
  | .reg r => g.rd32 r l
  | .imm x => x.setWidth 32

/-- Vector register `n` written in one lane. -/
def setV (m : SMap 32) (n l : Nat) (x : Word) : SMap 32 := smSet m (n * 32 + l) x

/-- A vector destination written in one lane, one register or a pair (R44). -/
def setVW (wide : Bool) (n : Nat) (x : Nat → DWord) (m : SMap 32) (l : Nat) : SMap 32 :=
  if wide then setV (setV m n l ((x l).setWidth 32)) (n + 1) l ((x l).extractLsb' 32 32)
  else setV m n l ((x l).setWidth 32)

/-- Scalar register `n` written by the gang's `seq`-th instruction (R45). -/
def Gang.setScalar (g : Gang) (seq n : Nat) (x : DWord) : Gang :=
  { g with s := smSet g.s n x, sSeq := smSet g.sSeq n (BitVec.ofNat 64 seq) }

/-- A result of the gang's `seq`-th instruction comes to scalar register `n`: nothing where a later instruction has written it (R45). -/
def Gang.wrScalar (g : Gang) (seq n : Nat) (x : DWord) : Gang :=
  if (smGet g.sSeq n).toNat ≤ seq then g.setScalar seq n x else g

/-- A register written in the lanes of `part`: a vector register in each lane, a scalar register from the lowest lane with
bits 63:32 cleared at 32 bits, zr nowhere (R42, R44, R45). -/
def Gang.wr (g : Gang) (wide : Bool) (d : Reg) (part : LaneMask) (x : Nat → DWord) : Gang :=
  match d with
  | .v n => { g with v := (lanesOf part).foldl (setVW wide n.val x) g.v }
  | .s n =>
    match lowLane part with
    | some l => g.setScalar (g.issueSeq + 1) n.val (if wide then x l else ((x l).setWidth 32).setWidth 64)
    | none => g
  | .zr => g

/-- A result of the gang's `seq`-th instruction written in the lanes of `part`, 32 bits wide: as any write, but for a scalar register that
a later instruction has written (R45). -/
def Gang.wrLate (g : Gang) (seq : Nat) (d : Reg) (part : LaneMask) (x : Word) : Gang :=
  match d with
  | .s n => if part = 0 then g else g.wrScalar seq n.val (x.setWidth 64)
  | _ => g.wr false d part fun _ => x.setWidth 64

/-- A 32-bit result (R44). -/
def Gang.wr32 (g : Gang) (d : Reg) (part : LaneMask) (x : Nat → Word) : Gang :=
  g.wr false d part fun l => (x l).setWidth 64

/-- The lanes on which a predicate is true; p47 is true on all (R42). -/
def Gang.pmask (g : Gang) (i : Nat) : LaneMask := if i = 47 then BitVec.allOnes 32 else smGet g.p i

/-- The lanes on which a predicate operand is true (R247, R266). -/
def Gang.psrc (g : Gang) (p : PSrc) : LaneMask := if p.neg then ~~~ g.pmask p.idx.val else g.pmask p.idx.val

/-- A predicate written in the lanes of `part`; writes to p47 are discarded (R42). -/
def Gang.wrP (g : Gang) (i : Nat) (part val : LaneMask) : Gang :=
  if i = 47 then g else { g with p := smSet g.p i ((g.pmask i &&& ~~~ part) ||| (val &&& part)) }

/-- The lanes of `m` whose guards pass (R247). -/
def Gang.guarded (g : Gang) (m : LaneMask) (g1 g2 : PSrc) (gor : Bool) : LaneMask :=
  m &&& (if gor then g.psrc g1 ||| g.psrc g2 else g.psrc g1 &&& g.psrc g2)

/-! ### Pending results (R48, R49) -/

/-- A pending mark: which instruction of the gang produces the result, and for which strand. -/
def pendMark (seq strand : Nat) : BitVec 64 := BitVec.ofNat 64 ((seq + 1) * 16 + strand)

/-- The producer of a pending mark, as the gang's issue count before it plus one; 0 where nothing is pending. -/
def pendSeq (m : BitVec 64) : Nat := m.toNat / 16

/-- The strand a pending mark belongs to. -/
def pendStrand (m : BitVec 64) : Nat := m.toNat % 16

/-- Lanes of `n` consecutive registers from `k` take a mark. -/
def markLanes (m : SMap 64) (k n : Nat) (lanes : LaneMask) (mark : BitVec 64) : SMap 64 :=
  (List.range n).foldl (fun m j => (lanesOf lanes).foldl (fun m l => smSet m ((k + j) * 32 + l) mark) m) m

/-- `n` consecutive vector registers from `r`, or a scalar, marked in every lane of the issuing strand: for a vector register those of
`part`, to which data returns, apart from the others of the strand's lanes `mask` (R48). No register holds a mark for zr, so a .sw load or atomic whose destination is
zr does not park its strand for itself (DESIGN CHOICE: R48 and R49 do not say; assumption 94). -/
def Gang.markPend (g : Gang) (r : Reg) (n : Nat) (mask part : LaneMask) (mark : BitVec 64) : Gang :=
  let all := mask ||| part
  if part = 0 then g
  else match r with
    | .v k => { g with pendV := markLanes g.pendV k.val n part mark, pendX := markLanes g.pendX k.val n (all &&& ~~~ part) mark }
    | .s k => { g with pendS := markLanes g.pendS k.val 1 all mark }
    | .zr => g

/-- The pending marks of a register and its followers in the lanes of a mask. -/
def Gang.pendOf (g : Gang) (r : Reg) (n : Nat) (m : LaneMask) : List (BitVec 64) :=
  match r with
  | .v k => (List.range n).flatMap fun j => (lanesOf m).flatMap fun l =>
    [smGet g.pendV ((k.val + j) * 32 + l), smGet g.pendX ((k.val + j) * 32 + l)]
  | .s k => (lanesOf m).map fun l => smGet g.pendS (k.val * 32 + l)
  | .zr => []

/-- Whether a mark stops a strand's read or write: pending, and no switch marker of the strand came after it (R48). -/
def hazardMark (st : Strand) (m : BitVec 64) : Bool := m != 0 && decide (st.lastSw < pendSeq m)

/-- Whether a result issued by the strand is still outstanding (R49). -/
def Gang.outstanding (g : Gang) (k : Nat) : Bool :=
  let mine (e : Nat × BitVec 64) : Bool := pendStrand e.2 == k && decide ((g.strandAt k).born < pendSeq e.2)
  g.pendV.any mine || g.pendP.any mine || g.pendS.any mine

/-- A result of the gang's `n`-th instruction is pending. -/
def Gang.producing (g : Gang) (n : Nat) : Bool :=
  g.pendV.any (fun e => pendSeq e.2 == n) || g.pendP.any (fun e => pendSeq e.2 == n) || g.pendS.any fun e => pendSeq e.2 == n

/-- The PCs kept after an instruction at `pc`: of those whose results are pending (R206). -/
def Gang.pcsAfter (g : Gang) (pc : VAddr) : List (Nat × VAddr) :=
  ((g.issueSeq + 1, pc) :: g.pcs).filter fun p => g.producing p.1

/-- The state a strand takes when a wait ends: parked while results it marked a switch after are outstanding (R49). -/
def Gang.wakeState (g : Gang) (k : Nat) : StrandState :=
  let mine (e : Nat × BitVec 64) : Bool :=
    pendStrand e.2 == k && decide ((g.strandAt k).born < pendSeq e.2) && decide (pendSeq e.2 ≤ (g.strandAt k).lastSw)
  if g.pendV.any mine || g.pendP.any mine || g.pendS.any mine then .parked else .ready

/-- End the wait of strand `k`, which issues from cycle `c` on (R183: the entry is cleared; R387, R392, R397, R406). -/
def Gang.wake (g : Gang) (c : DWord) (k : Nat) : Gang :=
  g.modStrand k fun st => { st with state := g.wakeState k, wait := WaitFor.empty, waitOn := .none, notBefore := c }

/-- Parked strands whose results have all returned are ready again (R49). -/
def Gang.unpark (g : Gang) : Gang :=
  { g with strands := g.strands.zipIdx.map fun (st, k) =>
      if st.state == .parked && st.waitOn == .none && g.wakeState k == .ready then { st with state := .ready } else st }

/-- The pending bits of lanes whose guard failed go with the last of an instruction's data (R48). -/
def Gang.clearOthers (g : Gang) (mark : BitVec 64) : Gang :=
  if g.pendV.any fun e => e.2 == mark then g else { g with pendX := g.pendX.filter fun e => e.2 != mark }

/-- One returning value is written and its pending bit cleared where its instruction is still the producer: a vector register's lane when
the data returns, a scalar register in the place of its instruction in the issue order (R35, R45, R48). -/
def Gang.landOne (mark : BitVec 64) (g : Gang) : RegWrite → Gang
  | .v n l x =>
    { g with
      v := setV g.v n l x
      pendV := if smGet g.pendV (n * 32 + l) = mark then smSet g.pendV (n * 32 + l) 0 else g.pendV }
  | .s n x => { g.wrScalar (pendSeq mark) n x with pendS := g.pendS.filter fun e => !(e.1 / 32 == n && e.2 == mark) }

/-- Returning results of an instruction (R48). -/
def Gang.land (g : Gang) (ws : List RegWrite) (mark : BitVec 64) : Gang := (ws.foldl (Gang.landOne mark) g).clearOthers mark

/-- Every pending bit of an instruction is cleared with nothing written. -/
def Gang.unmark (g : Gang) (mark : BitVec 64) : Gang :=
  { g with
    pendV := g.pendV.filter fun e => e.2 != mark
    pendX := g.pendX.filter fun e => e.2 != mark
    pendS := g.pendS.filter fun e => e.2 != mark }

/-! ### Traps (R212 to R216) -/

/-- A precise trap or fault of an instruction: cause, access kind, the words 2 and 3 of its record, its lanes, and whether
the access carried .ahead (R215). -/
structure Trap where
  cause : Nat
  kind : Nat
  addr : DWord
  lanes : LaneMask
  ahead : Bool
deriving DecidableEq, Repr

/-- The cause codes of R213. -/
def causeNotPresent : Nat := 0x01
def causeReadOnly : Nat := 0x02
def causeExecute : Nat := 0x03
def causeCopyOnWrite : Nat := 0x04
def causeAlignment : Nat := 0x05
def causeEngineRow : Nat := 0x06
def causePromiseMiss : Nat := 0x07
def causeStore : Nat := 0x08
def causeData : Nat := 0x09
def causeIllegalOpcode : Nat := 0x10
def causeIllegalForm : Nat := 0x11
def causeIllegalAlign : Nat := 0x12
def causeUnmarkedHazard : Nat := 0x13
def causeDivergentBranch : Nat := 0x14
def causeLaunchDepth : Nat := 0x15
def causeTrap : Nat := 0x16
def causeBreakpoint : Nat := 0x17

/-- A trap that is not tied to an access: kind 0xFF, words 2 and 3 zero (R215). -/
def Trap.plain (cause : Nat) (lanes : LaneMask) : Trap := ⟨cause, 0xFF, 0, lanes, false⟩

/-- ILLEGAL_FORM. -/
def Trap.form (lanes : LaneMask) : Trap := .plain causeIllegalForm lanes

/-- Whether a cause stops the gang or only the strand (R213). -/
def causeStopsGang (cause : Nat) : Bool := !(cause ≤ 4 || cause == 6 || cause == 7)

/-- The code of a strand kind (R20). -/
def StrandKind.code : StrandKind → Nat
  | .root => 0
  | .trueArm => 1
  | .falseArm => 2
  | .tail => 3

/-- Word 0 of a record (R215). -/
def recWord0 (k : GKey) (kind cause : Nat) : Word :=
  BitVec.ofNat 32 (k.slot % 64 * 2 ^ 26 + k.part % 4 * 2 ^ 24 + k.core % 256 * 2 ^ 16 + kind % 256 * 2 ^ 8 + cause % 256)

/-- Word 1 of a record (R215). -/
def recWord1 (ctx : BitVec 16) (st : Strand) (slot : Nat) (ahead : Bool) : Word :=
  BitVec.ofNat 32 (ctx.toNat * 2 ^ 16 + st.kind.code * 2 ^ 8 + (if ahead then 2 ^ 7 else 0) + st.fork.val * 2 ^ 4 + slot % 16)

/-- The record of a trap, its sequence number still to come (R215). -/
def trapRecord (g : Gang) (slot : Nat) (t : Trap) : FRec :=
  { w0 := recWord0 g.key t.kind t.cause, w1 := recWord1 g.ctxField (g.strandAt slot) slot t.ahead, w23 := t.addr,
    w45 := (g.strandAt slot).pc.setWidth 64, w6 := t.lanes, w7 := 0 }

/-! ### The error log (R235) -/

/-- Records the error log holds. -/
def elogRoom : Nat := 4096

/-- A record joins the error log, of a context or of none; a full log loses its oldest, counted in ERRLOST (R235). -/
def State.logErr (s : State) (ctx : BitVec 16) (kind unit home stack : Nat) (addr : DWord) : State :=
  let w1 := BitVec.ofNat 32 (home % 256 * 2 ^ 24 + stack % 16 * 2 ^ 20 + s.clock.toNat % 2 ^ 20)
  let full := decide (elogRoom ≤ s.elog.length)
  { s with
    elog := (if full then s.elog.tail else s.elog) ++ [{ ctx := ctx, kind := kind, unit := unit, w1 := w1, addr := addr }]
    errLost := if full then s.errLost + 1 else s.errLost }

/-- Units of the error log (R235). -/
def unitVector : Nat := 0
def unitScalar : Nat := 1
def unitScratch : Nat := 2
def unitL1 : Nat := 3
def unitConst : Nat := 4
def unitTile : Nat := 5
def unitTob : Nat := 6
def unitIbuf : Nat := 7
def unitL2 : Nat := 8
def unitDir : Nat := 9
def unitHbm : Nat := 10
def unitService : Nat := 11

/-- The HBM stack that an error's record names: that of its address where the unit is HBM (R178, R235). -/
def errStack (unit : Nat) (addr : DWord) : Nat :=
  let u := addr.toNat / 256
  if unit = 10 then (u / 4 % 8) ^^^ (u / 2 ^ 17 % 8) else 0

/-- An uncorrectable error of unit 11 with no requesting access (R436, R440, R450). -/
def State.logService (s : State) : State := s.logErr 0 4 unitService 0 0 0

/-- Room in the two queues (R216). -/
def faultRoom : Nat := 4096
def storeRoom : Nat := 1024

/-- A record's place among those of its cycle: core, partition, gang slot, then the slot of the strand it names, which a store-fault record holds
nowhere (R216, R217). -/
def FRec.place (r : FRec) (strand : Nat) : Nat :=
  let w := r.w0.toNat
  (((w / 2 ^ 16 % 256) * 4 + w / 2 ^ 24 % 4) * 64 + w / 2 ^ 26) * 16 + strand % 16

/-- How many of a queue's records were detected in this cycle. -/
def ofCycle (clock : DWord) (at' : DWord × Nat) (q : List FRec) : Nat := if at'.1 = clock then Nat.min at'.2 q.length else 0

/-- How many records of a queue come behind a new one: of its cycle's, the last `n`, those from the first with a later place on (R216). -/
def behindRec (q : List Nat) (n place : Nat) : Nat := ((q.drop (q.length - n)).dropWhile fun x => decide (x ≤ place)).length

/-- A record put before the last `m` of a queue. -/
def putBefore (q : List FRec) (m : Nat) (r : FRec) (f : FRec → FRec) : List FRec := q.take (q.length - m) ++ r :: (q.drop (q.length - m)).map f

/-- The places of the fault queue's records, which Grotto has not read (R216). -/
def State.unreadPlaces (s : State) : List Nat := (s.todo.filter (!·.taken)).map fun d => d.fr.place d.strand

/-- A record enters the fault queue in its place among those of its cycle, the later ones of which move on by one sequence number, and
Grotto has it to answer (R216). -/
def State.enqueue (s : State) (p : PendRec) : State :=
  let n := ofCycle s.clock s.recAt s.faultQ
  let m := behindRec s.unreadPlaces n (p.fr.place p.strand)
  let seq := s.faultSeq - BitVec.ofNat 32 m
  let behind (x : Todo) : Bool := decide ((x.seq - seq).toNat < m)
  let move (x : Todo) : Todo := { x with seq := x.seq + 1, fr := { x.fr with w7 := if x.store then x.fr.w7 else x.seq + 1 } }
  { s with
    faultQ := putBefore s.faultQ m { p.fr with w7 := seq } fun x => { x with w7 := x.w7 + 1 }
    faultSeq := s.faultSeq + 1
    recAt := (s.clock, n + 1)
    todo := s.todo.filter (fun x => !behind x) ++
      { seq := seq, fr := if p.store then p.fr else { p.fr with w7 := seq }, store := p.store, g := p.g, strand := p.strand, team := p.team,
        write := p.write, taken := false, due := none, copy := p.copy, done := p.done } :: (s.todo.filter behind).map move }

/-- A record waits for room, in its place among those of its cycle (R216). -/
def State.hold (s : State) (p : PendRec) : State :=
  let behind (x : PendRec) : Bool := x.found == p.found && decide (p.fr.place p.strand < x.fr.place x.strand)
  { s with pendRecs := s.pendRecs.filter (fun x => !behind x) ++ p :: s.pendRecs.filter behind }

/-- An address lies in a page. -/
def Page.has (p : Page) (va : Nat) : Bool := decide (p.va ≤ va ∧ va < p.va + p.size)

/-- An address of a context lies in a page that is held or deferred (R424, R426). -/
def State.keptPage (s : State) (ctx va : Nat) : Bool := s.ctxs.any fun x => x.num == ctx && (x.held ++ x.deferred).any (·.has va)

/-- A record as it is detected (R216). -/
def State.detect (s : State) (r : FRec) (store : Bool) (g : GKey) (strand : Nat) (team : TKey) (write : Bool) : PendRec :=
  { store := store, found := s.clock, fr := r, g := g, strand := strand, team := team, write := write, copy := s.keptPage team.ctx r.w23.toNat }

/-- A record enters the fault queue with the next sequence number, or waits when the queue is full; either way Grotto has
it to answer (R216). -/
def State.postFault (s : State) (r : FRec) (g : GKey) (strand : Nat) (team : TKey) (write : Bool) : State :=
  let p := s.detect r false g strand team write
  if s.faultQ.length < faultRoom && s.pendRecs.isEmpty then s.enqueue p else s.hold p

/-- Whether an access kind writes (R195, R215). -/
def kindWrites (kind : Nat) : Bool := kind == 1 || kind == 2

/-- Taking a precise trap (R212, R213, R215, R216): nothing of the instruction stands; its record is written with the
strand's PC, and the strand is fault parked or the gang trap parked. Nothing saves or changes the PC: the record carries
it, and no handler runs on the gang. -/
def State.takeTrap (s : State) (t : Trap) : State :=
  let s1 := s.postFault (trapRecord s.cur s.curStrand t) s.cur.key s.curStrand s.cur.team (kindWrites t.kind)
  if causeStopsGang t.cause then s1.modCur fun g => { g with trapParked := true }
  else s1.modStrand fun st => { st with state := .faultParked, faultVa := t.addr }

/-- Going on after a trap: the strand issues the same instruction again (R220). -/
def Gang.resumeStrand (g : Gang) (k : Nat) : Gang := g.modStrand k fun st => { st with state := .ready, faultVa := 0 }

/-- Going on after a trap of the whole gang: at the trapping instruction, or past it by `skip` bytes (R222). -/
def Gang.resumeGang (g : Gang) (k : Nat) (skip : Nat) : Gang :=
  { g with trapParked := false }.modStrand k fun st => { st with pc := st.pc + BitVec.ofNat 57 skip }

end Sys2Proof.Machine
end

