-- ==== Sys2Proof/Machine/Operands.lean ====
section
/-! DEFINITION. What every instruction's issue has in common: its guards and marker (R247, R248), the registers it names
(R240 to R244), the checks of allocation and pending operands (R43, R48, R252), addresses (R244), and what issuing counts. -/

namespace Sys2Proof

/-! ### Header fields of any instruction -/

/-- pt, the predicate that is always true (R42). -/
def ptSrc : PSrc := ⟨false, 47⟩

/-- The one guard of a 64-bit instruction beside pt (R247). -/
def Hdr.wide (h : Hdr) : Hdr2 := ⟨h.g1, ptSrc, false, h.sw, h.fb⟩

/-- The header of a fused group: the guard of its members, the marker of its last member (R325). -/
def Fused.hdr : Fused → Hdr
  | .mulAdd _ a => a.h
  | .addMax _ x => x.h
  | .fmaMax _ _ _ x => x.h
  | .mulAddMax _ _ x => x.h

/-- How many instructions a fused group counts as (R326). -/
def Fused.members : Fused → Nat
  | .mulAddMax .. => 3
  | _ => 2

/-- An instruction's guards, marker and fusion barrier; the device's other steps have none (R238, R239). -/
def Instr.hdr : Instr → Hdr2
  | .iadd _ o | .isub _ o | .imul o | .imulh o | .imin o | .imax o | .and o | .or o | .xor o | .shl o | .shr o | .shra o
  | .rot o => o.h.wide
  | .imad _ o | .bfe o => o.h.wide
  | .imadw o | .shd o => o.h.wide
  | .iaddc h .. => h.wide
  | .iabs o | .ineg o => o.h.wide
  | .not o | .popc o | .clz o | .brev o => o.h.wide
  | .bool3 h .. | .bfi h .. | .movi h .. | .lea h .. => h
  | .bsel h .. | .icmp h .. | .isel h .. | .mov h .. | .movsr h .. => h.wide
  | .fadd o | .fsub o | .fmul o | .ffma o _ _ => o.h.wide
  | .fmin o | .fmax o => o.h.wide
  | .fcmp h .. | .fsel h .. | .fclass h .. => h.wide
  | .frnd o | .fscale o _ => o.h.wide
  | .rcp o | .rsq o | .sqrt o | .exp2 o | .log2 o | .sin o | .cos o | .tanh o | .sigm o => o.h.wide
  | .cvt _ o | .cvtSr _ o | .cvtx _ o => o.h
  | .pack h .. | .unpk h .. => h.wide
  | .dp4 _ o | .dp8 _ o | .dp2 _ o | .pfma _ _ _ o => o.h.wide
  | .clrmx h .. | .rdmx h .. => h.wide
  | .fusedGroup g => g.hdr.wide
  | .bra h _ | .braAny h _ | .braAll h _ | .call h _ _ | .fork h .. | .nopW h => h
  | .ret h _ | .jmpi h _ | .endarm h _ | .pub h .. | .join h .. | .joinp h .. | .memdone h _ | .exit h | .nop h
  | .pset h .. | .pmov h _ => h.wide
  | .ldg o _ _ | .ldc o _ | .ldt o _ => o.h
  | .stg o _ _ => o.h
  | .lds o | .ldsRemote o _ => o.h
  | .sts o | .stsRemote o _ => o.h
  | .pref h .. | .red h .. | .redu h .. | .resv h .. | .asLoop h .. | .asAddr h _ | .trap h _ => h
  | .atom a .. | .cas a .. | .atomf a .. | .hop a .. => a.h
  | .atoms o | .atomsRemote o _ _ => o.a.h
  | .fence h | .pfence h .. | .sdrain h | .sppin h .. | .spunpin h .. => h.wide
  | .flush r | .inval r => r.h
  | .waitw o => o.h
  | .obld o | .obst o => o.h
  | .relv h _ | .mma h _ | .mmawait h .. | .mqstat h _ | .rowp h .. | .asPush h .. | .asEnd h | .asEndAbort h | .pop h ..
  | .fqstat h .. | .prom h _ | .sleep h .. | .mjoin h _ | .mleave h _ | .mwait h .. | .mset h .. | .mget h .. | .bar h ..
  | .bara h .. | .barw h .. | .sbar h .. | .vote h .. | .shfl h .. | .matchI h .. | .redux h .. | .elect h _
  | .launch h .. | .launchCwait h _ | .bkpt h _ | .halt h | .perf h .. | .sampctlStart h _ | .sampctlStop h
  | .sampctlDrop h _ => h.wide
  | _ => ⟨ptSrc, ptSrc, false, false, false⟩

/-- How many instructions an issue counts as (R326, R410). -/
def Instr.count : Instr → Nat
  | .fusedGroup g => g.members
  | _ => 1

/-! ### Registers an instruction names (R240, R241, R48) -/

/-- One register, or an even pair at 64 bits. -/
def useW (wide : Bool) (r : Reg) : Reg × Nat := (r, if wide then 2 else 1)

/-- The register of a last source. -/
def useSrc (wide : Bool) : Src → List (Reg × Nat)
  | .reg r => [useW wide r]
  | .imm _ => []

/-- The registers of a two-source integer instruction. -/
def useInt2 (o : Int2) : List (Reg × Nat) := useW o.ty.wide o.d :: useW o.ty.wide o.a :: useSrc o.ty.wide o.b

/-- The registers of a shift: the count is 32 bits wide (R265). -/
def useShift (o : Int2) : List (Reg × Nat) := useW o.ty.wide o.d :: useW o.ty.wide o.a :: useSrc false o.b

/-- The registers of a floating operation of two operands. -/
def useF2 (o : FArith) : List (Reg × Nat) := [useW o.ty.wide o.d, useW o.ty.wide o.a.r, useW o.ty.wide o.b.r]

/-- The registers of FMIN and FMAX. -/
def useFX (o : FMinMax) : List (Reg × Nat) := [useW o.ty.wide o.d, useW o.ty.wide o.a.r, useW o.ty.wide o.b.r]

/-- The registers of the packed products. -/
def useDot (o : Dot) : List (Reg × Nat) := [(o.d, 1), (o.a, 1), (o.b, 1), (o.c, 1)]

/-- Width in bits of a conversion code's elements (R313, R314). -/
def fmtBits (c : Nat) : Nat :=
  match c with
  | 28 => 64
  | 34 => 64
  | 35 => 64
  | 0 => 32
  | 1 => 32
  | 32 => 32
  | 33 => 32
  | 2 => 16
  | 3 => 16
  | 29 => 16
  | 30 => 16
  | 7 => 6
  | 8 => 6
  | 18 => 6
  | 19 => 6
  | 27 => 6
  | 9 => 4
  | 12 => 4
  | 13 => 4
  | 20 => 4
  | 22 => 4
  | 24 => 4
  | 26 => 4
  | 14 => 2
  | 15 => 2
  | 23 => 2
  | _ => 8

/-- The registers of a conversion (R315, R317). -/
def useCvt (o : Cvt) : List (Reg × Nat) :=
  [(o.d, if fmtBits o.dst.toNat == 64 || (o.x2 && fmtBits o.dst.toNat == 32) then 2 else 1),
   (o.a, if fmtBits o.src.toNat == 64 || (o.x2 && fmtBits o.src.toNat == 32) then 2 else 1), (o.sc, 1)]

/-- Elements of a VEC field (R327). -/
def Vec.n : Vec → Nat
  | .x1 => 1
  | .x2 => 2
  | .x4 => 4

/-- Registers one element takes (R329). -/
def MTy.regs (t : MTy) : Nat := if t.wide then 2 else 1

/-- Element width in bytes (R328). -/
def MTy.bytes : MTy → Nat
  | .i8 | .n8 => 1
  | .i16 | .n16 | .f16 | .bf16 => 2
  | .i32 | .n32 | .f32 => 4
  | .i64 | .n64 | .f64 => 8

/-- The registers of a global memory operand (R244). -/
def useG (m : GMem) : List (Reg × Nat) := [(m.base, 2), (m.index, 1)]

/-- The registers of a global operand with the short offset. -/
def useS (m : SMem) : List (Reg × Nat) := [(m.base, 2), (m.index, 1)]

/-- The registers of a scratchpad operand: a 32-bit base (R244). -/
def useSp (m : SMem) : List (Reg × Nat) := [(m.base, 1), (m.index, 1)]

/-- The width of what RED takes. -/
def RedOp.wide : RedOp → Bool
  | .int _ ty => ty.wide
  | .flt _ ty => ty.wide

/-- The registers of ATOMS (R343). -/
def useAtoms (o : Atoms) : List (Reg × Nat) :=
  (o.base, 1) ::
    (match o.op with
     | .int _ ty b => [useW ty.wide o.d, (o.index, 1)] ++ useSrc ty.wide b
     | .flt _ b => [(o.d, 1), (o.index, 1), (b, 1)]
     | .cas ty cmp => [useW ty.wide o.d, useW ty.wide o.index, useW ty.wide cmp])

/-- The registers of the members of a fused group. -/
def useFused : Fused → List (Reg × Nat)
  | .mulAdd m a => useF2 m ++ useF2 a
  | .addMax a x => useF2 a ++ useFX x
  | .fmaMax m _ c x => (c, 1) :: useF2 m ++ useFX x
  | .mulAddMax m a x => useF2 m ++ useF2 a ++ useFX x

/-- Every register an instruction reads or writes, with how many consecutive vector registers it takes (R43, R44, R48). -/
def Instr.regs : Instr → List (Reg × Nat)
  | .iadd _ o | .isub _ o | .imul o | .imulh o | .imin o | .imax o | .and o | .or o | .xor o => useInt2 o
  | .imad _ o => useW o.ty.wide o.d :: useW o.ty.wide o.a :: useW o.ty.wide o.b :: useSrc o.ty.wide o.c
  | .imadw o => (o.d, 2) :: (o.a, 1) :: (o.b, 1) :: useSrc false o.c
  | .iaddc _ _ ty d a b _ => [useW ty.wide d, useW ty.wide a, useW ty.wide b]
  | .iabs o | .ineg o => [useW o.wide o.d, useW o.wide o.a]
  | .not o | .brev o => [useW o.ty.wide o.d, useW o.ty.wide o.a]
  | .bool3 _ _ ty d a b c => useW ty.wide d :: useW ty.wide a :: useW ty.wide b :: useSrc ty.wide c
  | .shl o | .shr o | .shra o | .rot o => useShift o
  | .shd o => (o.d, 1) :: (o.a, 1) :: (o.b, 1) :: useSrc false o.c
  | .bfe o => useW o.ty.wide o.d :: useW o.ty.wide o.a :: (o.b, 1) :: useSrc false o.c
  | .bfi _ ty d a b sel =>
    [useW ty.wide d, useW ty.wide a, useW ty.wide b] ++ (match sel with | .imm _ _ => [] | .reg c => [(c, 1)])
  | .popc o | .clz o => [(o.d, 1), useW o.ty.wide o.a]
  | .bsel _ d a b c => [(d, 1), (a, 1), (b, 1), (c, 1)]
  | .icmp _ _ ty _ a b => useW ty.wide a :: useSrc ty.wide b
  | .isel _ ty d a b _ => [useW ty.wide d, useW ty.wide a, useW ty.wide b]
  | .mov _ ty d a => [useW ty.wide d, useW ty.wide a]
  | .movi _ _ d _ => [(d, 1)]
  | .movsr _ sel d => [useW sel.wide d]
  | .lea _ _ _ d m => (d, 2) :: useG m
  | .fadd o | .fsub o | .fmul o => useF2 o
  | .ffma o _ c => useW o.ty.wide c :: useF2 o
  | .fmin o | .fmax o => useFX o
  | .fcmp _ ty _ _ _ a b => [useW ty.wide a.r, useW ty.wide b.r]
  | .fsel _ ty d a b _ => [useW ty.wide d, useW ty.wide a, useW ty.wide b]
  | .fclass _ ty d a => [(d, 1), useW ty.wide a]
  | .frnd o => [useW o.ty.wide o.d, useW o.ty.wide o.a.r]
  | .fscale o n => [useW o.ty.wide o.d, useW o.ty.wide o.a.r, (n, 1)]
  | .rcp o | .rsq o | .sqrt o | .exp2 o | .log2 o | .sin o | .cos o | .tanh o | .sigm o => [(o.d, 1), (o.a.r, 1)]
  | .cvt _ o | .cvtx _ o => useCvt o
  | .cvtSr r o => (r, 1) :: useCvt o
  | .pack _ _ d a b _ => [(d, 1), (a, 1), (b, 1)]
  | .unpk _ _ _ d a _ => [(d, 1), (a, 1)]
  | .dp4 _ o | .dp8 _ o | .dp2 _ o | .pfma _ _ _ o => useDot o
  | .rdmx _ _ _ d => [(d, 1)]
  | .fusedGroup g => useFused g
  | .call _ link t => (link, 2) :: (match t with | .disp _ => [] | .reg r => [(r, 2)])
  | .ret _ t | .jmpi _ t => [(t, 2)]
  | .pub _ _ (.v n) => [(.v n, 1)]
  | .join _ _ d a b => [(.v d, 1), (.v a, 1), (.v b, 1)]
  | .pmov _ (.toReg _ d) => [(d, 1)]
  | .pmov _ (.fromReg _ a) => [(a, 1)]
  | .ldg o _ _ | .ldc o _ | .ldt o _ => (o.d, o.vec.n * o.ty.regs) :: useG o.m
  | .stg o _ _ => (o.data, o.vec.n * o.ty.regs) :: useG o.m
  | .lds o | .ldsRemote o _ => (o.d, o.vec.n * o.ty.regs) :: useSp o.m
  | .sts o | .stsRemote o _ => (o.data, o.vec.n * o.ty.regs) :: useSp o.m
  | .pref _ _ m _ => useG m
  | .atom _ _ ty d m b => useW ty.wide d :: useW ty.wide b :: useG m
  | .cas _ ty d m cmp new => useW ty.wide d :: useW ty.wide cmp :: useW ty.wide new :: useS m
  | .atomf _ _ ty d m b => useW ty.wide d :: useW ty.wide b :: useG m
  | .hop _ _ ty d m b c => useW ty.wide d :: useW ty.wide b :: useW ty.wide c :: useS m
  | .red _ _ op m b => useW op.wide b :: useG m
  | .redu _ _ op m b => useW (op.tag.val == 2) b :: useG m
  | .atoms o | .atomsRemote o _ _ => useAtoms o
  | .flush r | .inval r => (r.base, 2) :: useSrc false r.len
  | .waitw o => useW o.ty.wide o.d :: useW o.ty.wide o.b :: useG o.m
  | .sppin _ a n | .spunpin _ a n => (a, 1) :: useSrc false n
  | .resv _ _ _ _ d a b c => [(d, 1), (a, 1), (b, 1), (c, 1)]
  | .obld o | .obst o => [(o.base, if o.sp then 1 else 2), (o.vs, 1), (o.vsh, 1)]
  | .mma _ a => [(a, 2)]
  | .mmawait _ d _ | .mqstat _ d | .rowp _ _ d | .pop _ d _ | .fqstat _ d _ => [(d, 1)]
  | .asLoop _ _ (.reg a) => [(a, 1)]
  | .asAddr _ (.base _ a) => [(a, 2)]
  | .asAddr _ (.baseSp _ a) => [(a, 1)]
  | .asPush _ _ _ m => [(m, 1)]
  | .prom _ d => [(d, 2)]
  | .sleep _ till a => [useW till a]
  | .mwait _ _ _ b | .mset _ _ b => useSrc false b
  | .mget _ d _ => [(d, 1)]
  | .bar _ _ c => [(c, 1)]
  | .bara _ d _ c => [(d, 1), (c, 1)]
  | .barw _ _ a => [(a, 1)]
  | .sbar _ d _ a b => [(d, 1), (a, 1), (b, 1)]
  | .vote _ (.ballot d) _ | .vote _ (.count d) _ => [(d, 1)]
  | .shfl _ _ _ d a b fill => (d, 1) :: (a, 1) :: (fill, 1) :: useSrc false b
  | .matchI _ _ ty d a => [(d, 1), useW ty.wide a]
  | .redux _ _ d a => [(d, 1), (a, 1)]
  | .elect _ (.id d) => [(d, 1)]
  | .launch _ d a _ => [(d, 1), (a, 2)]
  | .launchCwait _ a => [(a, 1)]
  | .perf _ _ _ d => [(d, 2)]
  | .sampctlStart _ a => [(a, 1)]
  | .sampctlDrop _ d => [(d, 1)]
  | _ => []

/-- Instructions that never trap UNMARKED_HAZARD: JOIN, JOINP and POP wait for the bits (R48), MOVSR and PUB do not test
them (R46, R300). -/
def Instr.hazardFree : Instr → Bool
  | .join .. | .joinp .. | .pop .. | .movsr .. | .pub .. => true
  | _ => false

/-- Store, atomic, REDU, release, engine command or barrier arrival: what the hang walk's spin record counts (R186). -/
def Instr.isAccess : Instr → Bool
  | .stg .. | .sts .. | .stsRemote .. | .atom .. | .cas .. | .atomf .. | .hop .. | .red .. | .redu .. | .atoms ..
  | .atomsRemote .. | .obld .. | .obst .. | .mma .. | .asEnd .. | .bar .. | .bara .. | .sbar .. | .launch .. => true
  | _ => false

/-- The registers an instruction writes: as a rule the first of those it names. -/
def Instr.dests : Instr → List (Reg × Nat)
  | .icmp .. | .fcmp .. | .pub .. | .stg .. | .sts .. | .stsRemote .. | .pref .. | .red .. | .redu .. | .flush .. | .inval .. | .sppin ..
  | .spunpin .. | .obld .. | .obst .. | .mma .. | .asLoop .. | .asAddr .. | .asPush .. | .sleep .. | .mwait .. | .mset .. | .bar .. | .barw ..
  | .launchCwait .. | .sampctlStart .. | .ret .. | .jmpi .. | .pmov _ (.fromReg _ _) => []
  | .cvtSr _ o => (useCvt o).take 1
  | .atoms o | .atomsRemote o _ _ => ((useAtoms o).drop 1).take 1
  | .ffma o .. => (useF2 o).take 1
  | .fusedGroup (.mulAdd m a) => (useF2 m).take 1 ++ (useF2 a).take 1
  | .fusedGroup (.addMax a x) => (useF2 a).take 1 ++ (useFX x).take 1
  | .fusedGroup (.fmaMax m _ _ x) => (useF2 m).take 1 ++ (useFX x).take 1
  | .fusedGroup (.mulAddMax m a x) => (useF2 m).take 1 ++ (useF2 a).take 1 ++ (useFX x).take 1
  | i => i.regs.take 1

/-- An instruction that keeps part of its destination, which is thereby a source too: a conversion to a narrow format, PACK, MOVI.hi (R283, R317,
R320). -/
def Instr.keepsDest : Instr → Bool
  | .cvt _ o | .cvtx _ o | .cvtSr _ o => decide (fmtBits o.dst.toNat < 32)
  | .pack .. => true
  | .movi _ hi _ _ => hi
  | _ => false

/-- The registers an instruction reads; PUB only names its register (R300). -/
def Instr.sources (i : Instr) : List (Reg × Nat) :=
  match i with
  | .pub .. => []
  | i => if i.keepsDest then i.regs else i.dests.foldl (fun l u => l.erase u) i.regs

/-- The predicates an instruction reads beside its guards. -/
def Instr.preds : Instr → List Nat
  | .iaddc _ _ _ _ _ _ p | .isel _ _ _ _ _ p | .fsel _ _ _ _ _ p | .fork _ _ p _ _ | .vote _ _ p => [p.idx.val]
  | .joinp _ _ _ p q | .pset _ _ _ p q => [p.idx.val, q.idx.val]
  | .pmov _ (.toReg high _) => if high then (List.range 16).map (32 + ·) else List.range 32
  | _ => []

end Sys2Proof

namespace Sys2Proof.Machine

open Host (Outcome)

/-- The unit of a gang's storage and the index the log gives a word of it: by register and lane pair, the manual numbers neither (R235;
DESIGN CHOICE, assumption 107). -/
def BadReg.place : BadReg → Nat × Nat
  | .v n pair => (unitVector, n * 16 + pair)
  | .s n => (unitScalar, n)
  | .p n => (unitScalar, 64 + n)
  | .strand k => (unitScalar, 128 + k)
  | .tables => (unitScalar, 144)

/-- An uncorrectable error stands in what an instruction of a strand reads: the strand's slot, the gang's tables, a predicate, a register in an
active lane (R234). -/
def badFor (i : Instr) (k : Nat) (m : LaneMask) : BadReg → Bool
  | .tables => true
  | .strand j => j == k
  | .p n => n == i.hdr.g1.idx.val || n == i.hdr.g2.idx.val || i.preds.contains n
  | .s n => i.sources.any fun u => match u.1 with | .s j => j.val == n | _ => false
  | .v n pair => (m.getLsbD (2 * pair) || m.getLsbD (2 * pair + 1)) &&
    i.sources.any fun u => match u.1 with | .v j => decide (j.val ≤ n ∧ n < j.val + u.2) | _ => false

/-- What an instruction writes over whole holds no error any more: a scalar register, or both lanes of a vector register's 8-byte word
(R232). -/
def overwritten (i : Instr) (part : LaneMask) : BadReg → Bool
  | .s n => part != 0 && !i.keepsDest && i.dests.any fun u => match u.1 with | .s j => j.val == n | _ => false
  | .v n pair => part.getLsbD (2 * pair) && part.getLsbD (2 * pair + 1) && !i.keepsDest &&
    i.dests.any fun u => match u.1 with | .v j => decide (j.val ≤ n ∧ n < j.val + u.2) | _ => false
  | _ => false

/-- Whether a named register lies within the allocation of `n` vector registers per thread (R43). Of a pair that an odd register names,
only that register is named: that it is odd is another check (R316). -/
def regAllocated (n : Nat) (u : Reg × Nat) : Bool :=
  match u.1 with
  | .v k => decide (k.val + (if u.2 = 2 ∧ k.val % 2 = 1 then 1 else u.2) ≤ n)
  | _ => true

/-- Check 7's last part: every register named is allocated (R43, R241). -/
def allocated (i : Instr) (g : Gang) : Bool := i.regs.all (regAllocated g.nregs)

/-- Check 8: a register the instruction reads or writes is pending in an active lane (R48, R252). -/
def hazard (i : Instr) (g : Gang) (st : Strand) : Bool :=
  !i.hazardFree && i.regs.any (fun u => (g.pendOf u.1 u.2 st.mask).any (hazardMark st))

/-! ### Issue -/

/-- What an instruction's own operation does once it issues: goes on at the next instruction, goes on elsewhere, leaves
the strand as the operation set it, traps, waits without issuing, or traps on uncorrectable data of a unit (R234, R235). -/
inductive Res where
  | done (s : State)
  | goto (s : State) (pc : VAddr)
  | stay (s : State)
  | trap (t : Trap)
  | wait (s : State)
  | error (t : Trap) (s : State) (unit home : Nat) (addr : DWord)

/-- The strand leaves whatever wait held its issue, and its wait count returns to 0 (R164, R183). -/
def State.begin (s : State) : State :=
  s.modStrand fun st => { st with state := .ready, wait := WaitFor.empty, waitOn := .none, waitCount := 0, heldVas := [], own := 0 }

/-- The strand's next instruction is at `pc`. -/
def State.setPc (s : State) (pc : VAddr) : State := s.modStrand fun st => { st with pc := pc }

/-- The strand has taken a branch to `pc`: its next instruction issues 3 cycles later at the earliest (R292, R434). -/
def State.branchTo (s : State) (pc : VAddr) : State := s.modStrand fun st => { st with pc := pc, notBefore := s.clock + 3 }

/-- The address after an instruction of `n` bytes. -/
def State.pcAfter (s : State) (n : Nat) : VAddr := s.strand.pc + BitVec.ofNat 57 n

/-- The spin record after an issue at `pc` (R186). -/
def Strand.spin (st : Strand) (pc : VAddr) (n : Nat) (acc : Bool) : Strand :=
  { st with
    spinLo := if st.spinCount = 0 || pc < st.spinLo then pc else st.spinLo
    spinHi := if st.spinCount = 0 || st.spinHi < pc then pc else st.spinHi
    spinCount := st.spinCount + n
    spinAccess := st.spinAccess || acc }

/-- A live strand after an issue at `pc`: its spin record, unless a gang of its team is halted, and when and where it issued last
(R186, R206, R412). -/
def Strand.counted (st : Strand) (pc : VAddr) (n : Nat) (spun acc : Bool) (clock : DWord) : Strand :=
  if st.valid then { (if spun then st.spin pc n acc else st) with issued := clock + 1, issuedPc := pc } else st

/-- A strand that issued with the switch marker: it parks until the results issued so far have returned (R49). -/
def Strand.marked (st : Strand) (seq : Nat) : Strand := if st.valid then { st with lastSw := seq } else st

/-- A ready strand takes the state a wait ends in. -/
def Strand.settled (st : Strand) (x : StrandState) : Strand :=
  if st.valid && st.state == .ready then { st with state := x } else st

/-- The gang's instruction counts after an issue (R188, R219, R326, R410). -/
def Gang.counted (g : Gang) (pc : VAddr) (n : Nat) : Gang :=
  { g with issueSeq := g.issueSeq + n, perf := smSet g.perf 0 (smGet g.perf 0 + BitVec.ofNat 64 n), pcs := g.pcsAfter pc }

/-- The switch marker of the instruction strand `k` issued last (R49). -/
def Gang.switchMark (g : Gang) (k : Nat) : Gang :=
  let g1 := g.modStrand k fun st => st.marked g.issueSeq
  g1.modStrand k fun st => st.settled (g1.wakeState k)

/-- A gang after strand `k` has issued an instruction at `pc`: its counts, the strand's spin record unless a gang of its team is
halted, and, with the switch marker, the park until the results issued so far have returned (R49, R186, R188, R219, R326). -/
def Gang.issued (g : Gang) (i : Instr) (k : Nat) (pc : VAddr) (spun acc : Bool) (clock : DWord) : Gang :=
  let g1 := (g.counted pc i.count).modStrand k fun st => st.counted pc i.count spun acc clock
  if i.hdr.sw then g1.switchMark k else g1

/-- What issuing counts, in the gang alone (R186, R188, R219, R326, R410, R412). -/
def State.retire (s : State) (i : Instr) (pc : VAddr) (part : LaneMask) : State :=
  let spun := !(s.teamGangs s.cur.team).any (·.halted)
  s.modCur fun g => g.issued i s.curStrand pc spun (i.isAccess && part != 0) s.clock

/-- The lanes in which an instruction takes effect: active lanes whose guard passes (R247, R264). -/
def State.part (s : State) (i : Instr) : LaneMask :=
  s.cur.guarded s.strand.mask i.hdr.g1 i.hdr.g2 i.hdr.gor

/-- The issue of an instruction: the allocation part of check 7, the waits that come before it issues (`gate`), check 8,
then its own operation, which makes its own checks (R252, item 9). A trap leaves the state as before the instruction. -/
def issue (i : Instr) (gate : LaneMask → State → Option State) (body : LaneMask → State → Res) (s : State) :
    Outcome State Fault Refusal :=
  let part := s.part i
  if !allocated i s.cur then .next (s.takeTrap (.form part))
  else match gate part s with
    | some s' => .next s'
    | none =>
      if hazard i s.cur s.strand then .next (s.takeTrap (.plain causeUnmarkedHazard part))
      else match body part s.begin with
        | .done s' => .next ((s'.setPc (s.pcAfter i.len)).retire i s.strand.pc part)
        | .goto s' pc => .next ((s'.branchTo pc).retire i s.strand.pc part)
        | .stay s' => .next (s'.retire i s.strand.pc part)
        | .trap t => .next (s.begin.takeTrap t)
        | .wait s' => .next s'
        | .error t s' unit home addr => .next ((s'.takeTrap t).logErr s.cur.ctxField 2 unit home (errStack unit addr) addr)

/-- No wait before issue. -/
def noGate : LaneMask → State → Option State := fun _ _ => none

/-- An instruction that only computes on the gang: the operation of every lane of Part, then the next instruction. -/
def computing (i : Instr) (f : LaneMask → Gang → Gang) (s : State) : Outcome State Fault Refusal :=
  issue i noGate (fun part s => .done (s.modCur (f part))) s

/-- An instruction whose result in each lane is a function of the gang and the lane (R45, R264). -/
def lanewise (i : Instr) (wide : Bool) (d : Reg) (f : Gang → Nat → DWord) (s : State) : Outcome State Fault Refusal :=
  computing i (fun part g => g.wr wide d part (f g)) s

/-! ### Addresses (R244) -/

/-- Base + index + offset modulo 2^64, the index zero-extended (R244). -/
def gAddr (g : Gang) (base index : Reg) (off : DWord) (l : Nat) : DWord :=
  g.rd64 base l + (g.rd32 index l).setWidth 64 + off

/-- The address of a global operand (R244). -/
def GMem.addr (m : GMem) (g : Gang) (l : Nat) : DWord := gAddr g m.base m.index (m.off.signExtend 64) l

/-- The address of a global operand with the short offset (R244). -/
def SMem.addr (m : SMem) (g : Gang) (l : Nat) : DWord := gAddr g m.base m.index (m.off.signExtend 64) l

/-- A scratchpad address, modulo 2^32 (R244, R327). -/
def SMem.spAddr (m : SMem) (g : Gang) (l : Nat) : Word :=
  g.rd32 m.base l + g.rd32 m.index l + m.off.signExtend 32

/-- The element of a predicate written as a truth value in each lane. -/
def truthMask (f : Nat → Bool) : LaneMask := maskOf f

end Sys2Proof.Machine
end

