-- ==== Sys2Proof/Machine/Flags.lean ====
section
/-! DEFINITION. The exception flags of FPFLAGS (R63, R64) and the condition codes of FCMP (R307). -/

namespace Sys2Proof.Machine

/-- NV, bit 0 (R63). -/
def flNV : Word := 0x01

/-- DZ, bit 1 (R63). -/
def flDZ : Word := 0x02

/-- OF, bit 2 (R63). -/
def flOF : Word := 0x04

/-- UF, bit 3 (R63). -/
def flUF : Word := 0x08

/-- NX, bit 4 (R63). -/
def flNX : Word := 0x10

/-- A flag where a condition holds. -/
def flagIf (c : Bool) (f : Word) : Word := if c then f else 0

/-- The flags of every lane of Part together (R64). -/
def flagsOver (part : LaneMask) (f : Nat → Word) : Word := (lanesOf part).foldl (fun a l => a ||| f l) 0

/-- Flags are ORed into FPFLAGS once (R64). -/
def Gang.orFlags (g : Gang) (f : Word) : Gang := { g with fpflags := g.fpflags ||| f }

/-- An ordering as FCMP sees it; none when unordered. -/
abbrev FOrder := Option Ordering

/-- The condition codes of FCMP by number (R307). -/
def fccHolds (cc : Nat) (o : FOrder) : Bool :=
  match cc, o with
  | 0, o => o == some .eq
  | 1, o => o.isSome && o != some .eq
  | 2, o => o == some .lt
  | 3, o => o == some .lt || o == some .eq
  | 4, o => o == some .gt
  | 5, o => o == some .gt || o == some .eq
  | 6, o => o.isNone || o == some .eq
  | 7, o => o.isNone || o != some .eq
  | 8, o => o.isNone || o == some .lt
  | 9, o => o.isNone || o == some .lt || o == some .eq
  | 10, o => o.isNone || o == some .gt
  | 11, o => o.isNone || o == some .gt || o == some .eq
  | 12, o => o.isSome
  | _, o => o.isNone

/-- Codes 2 to 5 set NV on a quiet NaN too (R307). -/
def fccSignals (cc : Nat) : Bool := decide (2 ≤ cc ∧ cc ≤ 5)

end Sys2Proof.Machine
end

