-- ==== Sys2Proof/Machine/Fp.lean ====
section
/-! DEFINITION. Number formats and their arithmetic (R59 to R80, R86): exact values, the one rounding into any format,
minimum and maximum, conversion of one element, the special functions, and the combining steps of update-only words. -/

namespace Sys2Proof.Machine

/-! ### Formats (R69 to R73, R313) -/

/-- What the all-ones exponent of a floating format means: infinity and NaN, one NaN encoding, or finite values (R69). -/
inductive TopKind where
  | ieee | oneNan | finite
deriving DecidableEq, Repr

/-- A floating format: stored width, exponent and mantissa bits, bias, and its all-ones exponent (R69). -/
structure FFmt where
  width : Nat
  eb : Nat
  mb : Nat
  bias : Nat
  top : TopKind
deriving DecidableEq, Repr

/-- FP32. -/
def f32 : FFmt := ⟨32, 8, 23, 127, .ieee⟩

/-- F64. -/
def f64 : FFmt := ⟨64, 11, 52, 1023, .ieee⟩

/-- F19, in a 32-bit container (R70). -/
def f19 : FFmt := ⟨32, 8, 10, 127, .ieee⟩

/-- BF16. -/
def bf16 : FFmt := ⟨16, 8, 7, 127, .ieee⟩

/-- F16. -/
def f16 : FFmt := ⟨16, 5, 10, 15, .ieee⟩

/-- F8E5. -/
def f8e5 : FFmt := ⟨8, 5, 2, 15, .ieee⟩

/-- F8E4. -/
def f8e4 : FFmt := ⟨8, 4, 3, 7, .oneNan⟩

/-- F4E2. -/
def f4e2 : FFmt := ⟨4, 2, 1, 1, .finite⟩

/-- A format that is not a block format: floating, integer, or T2 (R69, R72, R313). -/
inductive NFmt where
  | flt (f : FFmt)
  | int (w : Nat) (sgn : Bool)
  | t2
deriving DecidableEq, Repr

/-- The base format and the scale of a block format's code: E4M3 when true, E8M0 otherwise (R73). -/
def blockOf (c : Nat) : Option (Nat × Bool) :=
  match c with
  | 16 => some (4, false)
  | 17 => some (5, false)
  | 18 => some (7, false)
  | 19 => some (8, false)
  | 20 => some (9, false)
  | 21 => some (10, false)
  | 22 => some (12, false)
  | 23 => some (15, false)
  | 24 => some (9, true)
  | 25 => some (5, true)
  | 26 => some (12, true)
  | 27 => some (8, true)
  | 31 => some (4, true)
  | _ => none

/-- The format of a code, a block format's being its base format (R69, R72, R73, R313). -/
def nfmt (c : Nat) : NFmt :=
  match (match blockOf c with | some (b, _) => b | none => c) with
  | 0 => .flt f32
  | 1 => .flt f19
  | 2 => .flt bf16
  | 3 => .flt f16
  | 4 => .flt f8e5
  | 5 => .flt f8e4
  | 6 => .flt ⟨8, 3, 4, 3, .finite⟩
  | 7 => .flt ⟨6, 3, 2, 3, .finite⟩
  | 8 => .flt ⟨6, 2, 3, 1, .finite⟩
  | 9 => .flt f4e2
  | 10 => .int 8 true
  | 11 => .int 8 false
  | 12 => .int 4 true
  | 13 => .int 4 false
  | 14 => .int 2 true
  | 15 => .t2
  | 28 => .flt f64
  | 29 => .int 16 true
  | 30 => .int 16 false
  | 32 => .int 32 true
  | 33 => .int 32 false
  | 34 => .int 64 true
  | _ => .int 64 false

/-! ### Exact values -/

/-- An exact value: a NaN, an infinity, or (−1)^neg × p / q × 2^e with q > 0; p = 0 is a zero with its sign. -/
inductive XVal where
  | nan (sig : Bool)
  | inf (neg : Bool)
  | num (neg : Bool) (p q : Nat) (e : Int)
deriving DecidableEq, Repr

/-- A zero of a sign. -/
def XVal.zero (neg : Bool) : XVal := .num neg 0 1 0

/-- An integer. -/
def XVal.ofInt (x : Int) : XVal := .num (decide (x < 0)) x.natAbs 1 0

/-- The sign is inverted. -/
def XVal.neg : XVal → XVal
  | .nan s => .nan s
  | .inf n => .inf (!n)
  | .num n p q e => .num (!n) p q e

/-- The sign is cleared. -/
def XVal.abs : XVal → XVal
  | .nan s => .nan s
  | .inf _ => .inf false
  | .num _ p q e => .num false p q e

/-- A NaN of either kind. -/
def XVal.isNan : XVal → Bool
  | .nan _ => true
  | _ => false

/-- A signalling NaN (R62). -/
def XVal.isSig : XVal → Bool
  | .nan s => s
  | _ => false

/-- A zero of either sign. -/
def XVal.isZero : XVal → Bool
  | .num _ p _ _ => p == 0
  | _ => false

/-- An infinity. -/
def XVal.isInf : XVal → Bool
  | .inf _ => true
  | _ => false

/-- The sign. -/
def XVal.sign : XVal → Bool
  | .nan _ => false
  | .inf n => n
  | .num n _ _ _ => n

/-- The bits of a floating format's encoding without padding. -/
def FFmt.bits (f : FFmt) : Nat := 1 + f.eb + f.mb

/-- The value of an encoding (R69, R70, R62; an F8E4 NaN is quiet, R322). -/
def FFmt.value (f : FFmt) (x : Nat) : XVal :=
  let r := x / 2 ^ (f.width - f.bits) % 2 ^ f.bits
  let neg := decide (2 ^ (f.bits - 1) ≤ r)
  let ex := r / 2 ^ f.mb % 2 ^ f.eb
  let man := r % 2 ^ f.mb
  let top := 2 ^ f.eb - 1
  if ex = top ∧ f.top = .ieee then
    if man = 0 then .inf neg else .nan (decide (man < 2 ^ (f.mb - 1)))
  else if ex = top ∧ f.top = .oneNan ∧ man = 2 ^ f.mb - 1 then .nan false
  else if ex = 0 then .num neg man 1 (1 - (f.bias : Int) - f.mb)
  else .num neg (man + 2 ^ f.mb) 1 ((ex : Int) - f.bias - f.mb)

/-- The value of an element of a format (R69, R72). -/
def NFmt.value (n : NFmt) (x : Nat) : XVal :=
  match n with
  | .flt f => f.value x
  | .int w sgn =>
    let r := x % 2 ^ w
    .ofInt (if sgn && decide (2 ^ (w - 1) ≤ r) then (r : Int) - 2 ^ w else r)
  | .t2 => .ofInt (match x % 4 with | 1 => 1 | 3 => -1 | _ => 0)

/-- A block scale: E4M3 when `e4`, E8M0 otherwise (R71). -/
def scaleValue (e4 : Bool) (b : Nat) : XVal :=
  if e4 then f8e4.value b
  else if b % 256 = 255 then .nan false else .num false 1 1 (((b % 256 : Nat) : Int) - 127)

/-! ### Exact operations -/

/-- The exact product; 0 × ∞ is a NaN. -/
def XVal.mul (a b : XVal) : XVal :=
  match a, b with
  | .nan _, _ => .nan false
  | _, .nan _ => .nan false
  | .inf n, .inf m => .inf (n != m)
  | .inf n, .num m p _ _ => if p = 0 then .nan false else .inf (n != m)
  | .num n p _ _, .inf m => if p = 0 then .nan false else .inf (n != m)
  | .num n p q e, .num m p' q' e' => .num (n != m) (p * p') (q * q') (e + e')

/-- 2 to a power that is not negative. -/
def pow2 (e : Int) : Nat := 2 ^ e.toNat

/-- The exact sum; ∞ − ∞ is a NaN. An exact zero sum of values of both signs has sign `zneg` (R305). -/
def XVal.add (a b : XVal) (zneg : Bool) : XVal :=
  match a, b with
  | .nan _, _ => .nan false
  | _, .nan _ => .nan false
  | .inf n, .inf m => if n = m then .inf n else .nan false
  | .inf n, .num .. => .inf n
  | .num .., .inf m => .inf m
  | .num n p q e, .num m p' q' e' =>
    if p = 0 then (if p' = 0 then .num (if n = m then n else zneg) 0 1 0 else b)
    else if p' = 0 then a
    else
      let lo := if e ≤ e' then e else e'
      let x : Int := (p * q' * pow2 (e - lo) : Nat)
      let y : Int := (p' * q * pow2 (e' - lo) : Nat)
      let s := (if n then -x else x) + (if m then -y else y)
      if s = 0 then .num zneg 0 1 0 else .num (decide (s < 0)) s.natAbs (q * q') lo

/-- The exact quotient by a number that is not zero (R75). -/
def XVal.div (a b : XVal) : XVal :=
  match a, b with
  | .nan s, _ => .nan s
  | .inf n, b => .inf (n != b.sign)
  | .num n p q e, .num m p' q' e' => .num (n != m) (p * q') (q * p') (e - e')
  | a, _ => a

/-- How two values order; none when either is a NaN; the zeros are equal (R65). -/
def XVal.cmp (a b : XVal) : FOrder :=
  match a, b with
  | .nan _, _ => none
  | _, .nan _ => none
  | .inf n, .inf m => some (if n = m then .eq else if n then .lt else .gt)
  | .inf n, _ => some (if n then .lt else .gt)
  | _, .inf m => some (if m then .gt else .lt)
  | .num n p q e, .num m p' q' e' =>
    let lo := if e ≤ e' then e else e'
    let x : Int := (p * q' * pow2 (e - lo) : Nat)
    let y : Int := (p' * q * pow2 (e' - lo) : Nat)
    some (compare (if n then -x else x) (if m then -y else y))

/-! ### The one rounding (R60, R63, R75, R76) -/

/-- What is discarded below the last place kept. -/
inductive Rest where
  | exact | below | tie | above
deriving DecidableEq, Repr

/-- A magnitude p / q × 2^e counted in units of 2^u: the whole count and what is discarded. -/
def countIn (p q : Nat) (e u : Int) : Nat × Rest :=
  let num := p * pow2 (e - u)
  let den := q * pow2 (u - e)
  let r := num % den
  (num / den, if r = 0 then .exact else if 2 * r < den then .below else if 2 * r = den then .tie else .above)

/-- Whether the count goes up by one (R60): `away` sends ties away from zero. -/
def roundsUp (rm : RM) (away neg odd : Bool) (r : Rest) : Bool :=
  match r with
  | .exact => false
  | .below => (rm == .ru && !neg) || (rm == .rd && neg)
  | .tie => (rm == .rn && (away || odd)) || (rm == .ru && !neg) || (rm == .rd && neg)
  | .above => rm == .rn || (rm == .ru && !neg) || (rm == .rd && neg)

/-- The exponent of the leading bit of p / q × 2^e, p > 0. -/
def leadExp (p q : Nat) (e : Int) : Int :=
  let k : Int := (p.log2 : Int) - q.log2
  (if q * pow2 k ≤ p * pow2 (-k) then k else k - 1) + e

/-- The least exponent of a normal number. -/
def FFmt.emin (f : FFmt) : Int := 1 - (f.bias : Int)

/-- The encoding of the largest finite value, without sign (R69). -/
def FFmt.maxRaw (f : FFmt) : Nat :=
  match f.top with
  | .ieee => (2 ^ f.eb - 1) * 2 ^ f.mb - 1
  | .oneNan => 2 ^ (f.eb + f.mb) - 2
  | .finite => 2 ^ (f.eb + f.mb) - 1

/-- An encoding from sign and magnitude encoding, in its container (R70). -/
def FFmt.enc (f : FFmt) (neg : Bool) (raw : Nat) : Nat :=
  ((if neg then 2 ^ (f.bits - 1) else 0) + raw) * 2 ^ (f.width - f.bits)

/-- The canonical NaN of a format (R61). -/
def FFmt.canon (f : FFmt) : Nat :=
  if f = f8e5 ∨ f = f8e4 then 0x7F
  else f.enc false ((2 ^ f.eb - 1) * 2 ^ f.mb + 2 ^ (f.mb - 1))

/-- Infinity, where the format has one. -/
def FFmt.infEnc (f : FFmt) (neg : Bool) : Nat := f.enc neg ((2 ^ f.eb - 1) * 2 ^ f.mb)

/-- Ties go away from zero in formats narrower than 16 bits (R60). -/
def FFmt.away (f : FFmt) : Bool := decide (f.width < 16)

/-- A finite result beyond the largest finite value (R76). -/
def FFmt.overflow (f : FFmt) (rm : RM) (satf neg : Bool) : Nat × Word :=
  (if f.top = .ieee ∧ !satf ∧ (rm = .rn ∨ (rm = .ru ∧ !neg) ∨ (rm = .rd ∧ neg)) then f.infEnc neg
   else f.enc neg f.maxRaw, flOF ||| flNX)

/-- The magnitude encoding in units of the place kept: 2^mb for each binade above the subnormals. -/
def FFmt.place (f : FFmt) (u : Int) (n : Nat) : Nat := (u - (f.emin - f.mb)).toNat * 2 ^ f.mb + n

/-- Tiny after rounding: rounded as if the exponent had no bounds, the result is below the least normal number (R63). -/
def FFmt.tiny (f : FFmt) (rm : RM) (neg : Bool) (p q : Nat) (e k : Int) : Bool :=
  if f.emin ≤ k then false
  else if k < f.emin - 1 then true
  else
    let (n, r) := countIn p q e (k - f.mb)
    !(roundsUp rm f.away neg (n % 2 == 1) r && n + 1 == 2 ^ (f.mb + 1))

/-- A finite number that is not zero, rounded once (R60, R76). -/
def FFmt.roundNum (f : FFmt) (rm : RM) (satf neg : Bool) (p q : Nat) (e : Int) : Nat × Word :=
  let k := leadExp p q e
  if (f.bias : Int) + 1 < k then f.overflow rm satf neg
  else
    let u := (if f.emin ≤ k then k else f.emin) - f.mb
    let (n, r) : Nat × Rest := if k < u - 1 then (0, .below) else countIn p q e u
    let raw := f.place u (if roundsUp rm f.away neg (n % 2 == 1) r then n + 1 else n)
    if f.maxRaw < raw then f.overflow rm satf neg
    else (f.enc neg raw, if r = .exact then 0 else flNX ||| flagIf (f.tiny rm neg p q e k) flUF)

/-- A value rounded into a floating format with its flags (R62, R75, R76). -/
def FFmt.round (f : FFmt) (rm : RM) (satf : Bool) (x : XVal) : Nat × Word :=
  match x with
  | .nan sig => if f.top = .finite then (0, flNV) else (f.canon, flagIf sig flNV)
  | .inf neg =>
    if f.top = .ieee then (if satf then f.enc neg f.maxRaw else f.infEnc neg, 0)
    else (f.enc neg f.maxRaw, flNV)
  | .num neg p q e => if p = 0 then (f.enc neg 0, 0) else f.roundNum rm satf neg p q e

/-- The least and greatest value of an integer format. -/
def intRange (w : Nat) (sgn : Bool) : Int × Int :=
  if sgn then (-(2 ^ (w - 1)), 2 ^ (w - 1) - 1) else (0, 2 ^ w - 1)

/-- The range of a destination that is not floating (R72). -/
def NFmt.range : NFmt → Int × Int
  | .int w sgn => intRange w sgn
  | _ => (-1, 1)

/-- The low bits of an integer; T2 never holds 10 (R72, R77). -/
def NFmt.low (n : NFmt) (v : Int) : Nat :=
  match n with
  | .int w _ => (v % 2 ^ w).toNat
  | _ => let b := (v % 4).toNat; if b = 2 then 0 else b

/-- The width of a format's elements. -/
def NFmt.width : NFmt → Nat
  | .flt f => f.width
  | .int w _ => w
  | .t2 => 2

/-- A value rounded into a format (R75, R76). That a result that rounds to zero sets UF is read of a floating format, where it keeps the
source's sign; a source that an integer format or T2 rounds to 0 sets NX alone (DEDUCED; assumption 100). -/
def NFmt.round (n : NFmt) (rm : RM) (satf : Bool) (x : XVal) : Nat × Word :=
  match n with
  | .flt f => f.round rm satf x
  | _ =>
    let (lo, hi) := n.range
    match x with
    | .nan _ => (0, flNV)
    | .inf neg => (n.low (if neg then lo else hi), flNV)
    | .num neg p q e =>
      if p = 0 then (0, 0)
      else if (128 : Int) < leadExp p q e then (n.low (if neg then lo else hi), flNV)
      else
        let (c, r) : Nat × Rest := if leadExp p q e < -1 then (0, .below) else countIn p q e 0
        let m := if roundsUp rm (decide (n.width < 16)) neg (c % 2 == 1) r then c + 1 else c
        let v : Int := if neg then -(m : Int) else m
        if v < lo then (n.low lo, flNV) else if hi < v then (n.low hi, flNV)
        else (n.low v, flagIf (r != .exact) flNX)

/-- Stochastic rounding of a finite number that is not zero, counted in units of 2^u: the first 32 discarded bits and rnd
carry or not (R78). -/
def stochCount (p q : Nat) (e u : Int) (rnd : Word) : Nat × Bool :=
  if leadExp p q e < u - 40 then (0, false)
  else
    let num := p * pow2 (e - u)
    let den := q * pow2 (u - e)
    let f := num % den * 2 ^ 32 / den
    (if 2 ^ 32 ≤ f + rnd.toNat then num / den + 1 else num / den, num % den == 0)

/-- CVT.sr into a format that is not reached from an integer by an integer (R78, R319). -/
def NFmt.roundSr (n : NFmt) (satf : Bool) (rnd : Word) (x : XVal) : Nat × Word :=
  match x with
  | .num neg p q e =>
    if p = 0 then n.round .rn satf x
    else
      match n with
      | .flt f =>
        let k := leadExp p q e
        if (f.bias : Int) + 1 < k then f.overflow .rn satf neg
        else
          let u := (if f.emin ≤ k then k else f.emin) - f.mb
          let (c, ex) := stochCount p q e u rnd
          let raw := f.place u c
          if f.maxRaw < raw then f.overflow .rn satf neg
          else (f.enc neg raw, if ex then 0 else flNX ||| flagIf (decide (raw < 2 ^ f.mb)) flUF)
      | _ =>
        if (128 : Int) < leadExp p q e then n.round .rn satf x
        else
          let (c, ex) := stochCount p q e 0 rnd
          let y := n.round .rz satf (.num neg c 1 0)
          (y.1, if y.2 = 0 then flagIf (!ex) flNX else y.2)
  | _ => n.round .rn satf x

/-! ### Conversion of one element (R75 to R79, R317) -/

/-- Whether a code is an integer format that is not a block format (R77, R316). -/
def isIntCode (c : Nat) : Bool :=
  (blockOf c).isNone && (match nfmt c with | .flt _ => false | _ => true)

/-- Whether a code is a floating format; a block format is none (R64, R75, R316). -/
def isFloatCode (c : Nat) : Bool := (blockOf c).isNone && (match nfmt c with | .flt _ => true | _ => false)

/-- The exact source value of an element with its source scale (R317). -/
def sourceValue (src x sc : Nat) : XVal :=
  let v := (nfmt src).value x
  match blockOf src with
  | none => v
  | some (_, e4) =>
    let s := scaleValue e4 sc
    if s.isNan then .nan false else if s.isZero then .zero false
    else if v.isNan then v else v.mul s

/-- An integer-to-integer conversion: the low bits, or clamped with .sat (R77). -/
def intToInt (n : NFmt) (sat : Bool) (x : XVal) : Nat :=
  match x with
  | .num neg p _ _ =>
    let v : Int := if neg then -(p : Int) else p
    let (lo, hi) := n.range
    n.low (if sat then (if v < lo then lo else if hi < v then hi else v) else v)
  | _ => 0

/-- One element converted (R317): the encoding and the flags. `rnd` is CVT.sr's operand. Between equal codes every value that is no NaN keeps its
bits, infinities with .satf too, as R417 says against the row of R76; the unused bits of F19 are written 0 and T2 never as 10 (R70, R72; DEDUCED,
log entry 115). -/
def convertElem (dst src : Nat) (rm : RM) (sat satf : Bool) (rnd : Option Word) (sc : Nat) (v : XVal) : Nat × Word :=
  let n := nfmt dst
  if isIntCode dst && isIntCode src then (intToInt n sat v, 0)
  else
    let y : XVal × Bool := match blockOf dst with
      | none => (v, false)
      | some (_, e4) =>
        let s := scaleValue e4 sc
        if s.isNan || s.isZero then (.nan false, true) else (v.div s, false)
    let clamp := satf && dst != src
    let r := match rnd with
      | some w => n.roundSr clamp w y.1
      | none => n.round rm clamp y.1
    (r.1, if y.2 then flNV else r.2)

/-- MAXABS after one element with exact source value `x` (R79, R318). -/
def maxAbsWith (m : Word) (x : XVal) : Word :=
  match x with
  | .nan _ => m ||| 0x80000000#32
  | x =>
    let mag : Word := BitVec.ofNat 32 (f32.round .ru false x.abs).1
    let cur := m &&& 0x7FFFFFFF#32
    (m &&& 0x80000000#32) ||| (if cur.toNat < mag.toNat then mag else cur)

/-! ### Vector arithmetic (R59, R65, R305 to R310) -/

/-- The format of a type (R303). -/
def ftyFmt (wide : Bool) : FFmt := if wide then f64 else f32

/-- Subnormal, in FP32 or F64. -/
def isSubnormal (f : FFmt) (x : Nat) : Bool := x / 2 ^ f.mb % 2 ^ f.eb == 0 && x % 2 ^ f.mb != 0

/-- The sign bit alone. -/
def signOnly (f : FFmt) (x : Nat) : Nat := x / 2 ^ (f.width - 1) % 2 * 2 ^ (f.width - 1)

/-- .ftz on an input (R61). -/
def flushIn (f : FFmt) (ftz : Bool) (x : Nat) : Nat := if ftz && isSubnormal f x then signOnly f x else x

/-- .ftz on a result (R61). -/
def flushOut (f : FFmt) (ftz : Bool) (r : Nat × Word) : Nat × Word :=
  if ftz && isSubnormal f r.1 then (signOnly f r.1, r.2 ||| flUF ||| flNX) else r

/-- The operand modifiers (R302). -/
def modBits (f : FFmt) (neg abs : Bool) (x : Nat) : Nat :=
  let a := if abs then x - signOnly f x else x
  if neg then a - signOnly f a + (2 ^ (f.width - 1) - signOnly f a) else a

/-- An exact result rounded, NaN where invalid with NV (R305). -/
def finishArith (f : FFmt) (rm : RM) (x : XVal) : Nat × Word :=
  match x with
  | .nan _ => (f.canon, flNV)
  | x => f.round rm false x

/-- a × b + c with one rounding, NaN operands first (R305). -/
def fmaBits (f : FFmt) (rm : RM) (a b c : Nat) : Nat × Word :=
  let (x, y, z) := (f.value a, f.value b, f.value c)
  let p := x.mul y
  if x.isNan || y.isNan || z.isNan then
    (f.canon, flagIf (x.isSig || y.isSig || z.isSig || (!x.isNan && !y.isNan && p.isNan)) flNV)
  else finishArith f rm (p.add z (rm == .rd))

/-- a + b with one rounding (R305). -/
def addBits (f : FFmt) (rm : RM) (a b : Nat) : Nat × Word :=
  let (x, y) := (f.value a, f.value b)
  if x.isNan || y.isNan then (f.canon, flagIf (x.isSig || y.isSig) flNV)
  else finishArith f rm (x.add y (rm == .rd))

/-- a × b with one rounding (R305). -/
def mulBits (f : FFmt) (rm : RM) (a b : Nat) : Nat × Word :=
  let (x, y) := (f.value a, f.value b)
  if x.isNan || y.isNan then (f.canon, flagIf (x.isSig || y.isSig) flNV)
  else finishArith f rm (x.mul y)

/-- FMIN and FMAX (R65, R306): −0 is below +0. -/
def minMaxBits (f : FFmt) (isMax nan : Bool) (a b : Nat) : Nat × Word :=
  let (x, y) := (f.value a, f.value b)
  let fl := flagIf (x.isSig || y.isSig) flNV
  if x.isNan || y.isNan then
    (if nan || (x.isNan && y.isNan) then f.canon else if x.isNan then b else a, fl)
  else
    let le : Bool := match x.cmp y with
      | some .lt => true
      | some .eq => x.sign || !y.sign
      | _ => false
    (if le != isMax then a else b, fl)

/-- The class bit of FCLASS (R308). -/
def classBit (f : FFmt) (x : Nat) : Nat :=
  let neg := signOnly f x != 0
  match f.value x with
  | .nan s => if s then 8 else 9
  | .inf _ => if neg then 0 else 7
  | .num _ p _ _ =>
    if p = 0 then (if neg then 3 else 4)
    else if isSubnormal f x then (if neg then 2 else 5)
    else (if neg then 1 else 6)

/-- FRND (R309): ties to even under .rn; only NV is ever set. -/
def frndBits (f : FFmt) (rm : RM) (a : Nat) : Nat × Word :=
  match f.value a with
  | .nan s => (f.canon, flagIf s flNV)
  | .inf _ => (a, 0)
  | .num neg p q e =>
    if p = 0 ∨ 0 ≤ e then (a, 0)
    else
      let (c, r) : Nat × Rest := if leadExp p q e < -1 then (0, .below) else countIn p q e 0
      let m := if roundsUp rm false neg (c % 2 == 1) r then c + 1 else c
      ((f.round .rn false (.num neg m 1 0)).1, 0)

/-- FSCALE (R310). -/
def fscaleBits (f : FFmt) (rm : RM) (a : Nat) (n : Int) : Nat × Word :=
  match f.value a with
  | .nan s => (f.canon, flagIf s flNV)
  | .inf _ => (a, 0)
  | .num neg p q e => if p = 0 then (a, 0) else f.round rm false (.num neg p q (e + n))

/-! ### Special functions (R66, R67, R312) -/

/-- The integer square root, bit by bit. -/
def isqrt (n : Nat) : Nat :=
  (List.range (n.log2 / 2 + 1)).reverse.foldl (fun r k => if (r + 2 ^ k) * (r + 2 ^ k) ≤ n then r + 2 ^ k else r) 0

/-- RCP, correctly rounded (R66). -/
def rcpBits (rm : RM) (a : Nat) : Nat × Word :=
  match f32.value a with
  | .nan s => (f32.canon, flagIf s flNV)
  | .inf n => (f32.enc n 0, 0)
  | .num n p q e => if p = 0 then (f32.infEnc n, flDZ) else f32.round rm false (.num n q p (-e))

/-- SQRT, correctly rounded: the root of a number scaled to keep 120 bits, the last bit sticky (R66). -/
def sqrtBits (rm : RM) (a : Nat) : Nat × Word :=
  match f32.value a with
  | .nan s => (f32.canon, flagIf s flNV)
  | .inf n => if n then (f32.canon, flNV) else (a, 0)
  | .num n p _ e =>
    if p = 0 then (a, 0)
    else if n then (f32.canon, flNV)
    else
      let odd : Nat := (e % 2).toNat
      let t := p * 2 ^ (120 + odd)
      let r := isqrt t
      let y := f32.round rm false (.num false (2 * r + (if r * r = t then 0 else 1)) 1 ((e - odd) / 2 - 61))
      (y.1, y.2 &&& flNX)

/-- Fixed-point numbers of 240 fraction bits, used to bound the special functions. -/
def fxOne : Int := 2 ^ 240

/-- The product of fixed-point numbers. -/
def fxMul (a b : Int) : Int := a * b / fxOne

/-- ln 2. -/
def fxLn2 : Int := 0xb17217f7d1cf79abc9e3b39803f2f6af40f343267298b62d8a0d175b8baa

/-- π. -/
def fxPi : Int := 0x3243f6a8885a308d313198a2e03707344a4093822299f31d0082efa98ec4e

/-- The first `n` terms of the exponential series. -/
def fxExp (x : Int) (n : Nat) : Int :=
  ((List.range n).foldl (fun (st : Int × Int) (k : Nat) => (st.1 + st.2, fxMul st.2 x / ((k : Int) + 1))) (0, fxOne)).1

/-- e^t as 2^n × m with m in [1, 2). -/
def fxExpSplit (t : Int) : Int × Int :=
  let u := t * fxOne / fxLn2
  (u / fxOne, fxExp (fxMul (u % fxOne) fxLn2) 60)

/-- e^t for t ≤ 0. -/
def fxExpNeg (t : Int) : Int :=
  let (n, m) := fxExpSplit t
  m / (2 ^ n.natAbs : Nat)

/-- ln m for m in [1, 2], by the series of the inverse hyperbolic tangent. -/
def fxLn (m : Int) : Int :=
  let z := (m - fxOne) * fxOne / (m + fxOne)
  let zz := fxMul z z
  2 * ((List.range 80).foldl (fun (st : Int × Int) (k : Nat) =>
    (st.1 + st.2 / (2 * (k : Int) + 1), fxMul st.2 zz)) (0, z)).1

/-- sin x, or cos x when `c`, for x in [0, 2π). -/
def fxSin (c : Bool) (x : Int) : Int :=
  let xx := fxMul x x
  let s : Nat := if c then 0 else 1
  ((List.range 60).foldl (fun (st : Int × Int) (k : Nat) =>
    (st.1 + st.2, -(fxMul st.2 xx) / ((2 * (k : Int) + 1 + s) * (2 * (k : Int) + 2 + s)))) (0, if c then fxOne else x)).1

/-- An approximation p × 2^e of a special function at a number, and the bound of R66: twice `half` ulps at the result, or an
absolute bound 2^-a, or both; `none` where R66 gives only [−1, 1]. -/
structure SfuNear where
  p : Int
  e : Int
  ulps : Nat
  absl : Option Nat
deriving DecidableEq, Repr

/-- (−1)^neg × p × 2^e as a fixed-point number. -/
def toFx (neg : Bool) (p : Nat) (e : Int) : Int :=
  let x : Int := (p * pow2 (e + 240) / pow2 (-(e + 240)) : Nat)
  if neg then -x else x

/-- The value near which a special function's result lies, for a number that is not zero (R66): within 2^-80 of it, relative to it, and on the same side
as it of 1 and of the operand, so that the ulp measured there is that at the exact result. -/
def sfuNear (fn : SfuFn) (neg : Bool) (p : Nat) (e : Int) : Option SfuNear :=
  let big (n : Int) : Bool := decide (n ≤ leadExp p 1 e)
  match fn with
  | .rsq =>
    let odd : Nat := (e % 2).toNat
    some ⟨(2 ^ 400 / isqrt (p * 2 ^ (400 + odd)) : Nat), -((e - odd) / 2) - 200, 1, none⟩
  | .exp2 =>
    if big 9 then some ⟨1, -600, 2, none⟩
    else
      let x := toFx neg p e
      some ⟨fxExp (fxMul (x % fxOne) fxLn2) 60, x / fxOne - 240, 2, none⟩
  | .log2 =>
    let k := leadExp p 1 e
    let m : Int := (p * 2 ^ 240 / 2 ^ p.log2 : Nat)
    let v := fxLn m * fxOne / fxLn2 + k * fxOne
    some ⟨v, -240, if -fxOne ≤ v ∧ v ≤ fxOne then 0 else 2, if -fxOne ≤ v ∧ v ≤ fxOne then some 22 else none⟩
  | .sin | .cos =>
    if big 17 || (big 16 && decide ((2 : Int) ^ 256 < toFx false p e)) then none
    else some ⟨fxSin (fn == .cos) (toFx neg p e % (2 * fxPi)), -240, 0, some 21⟩
  | .tanh =>
    if big 6 then some ⟨if neg then 1 - fxOne else fxOne - 1, -240, 2, none⟩
    else if leadExp p 1 e < -40 then some ⟨if neg then 1 - (p : Int) * 2 ^ 100 else (p : Int) * 2 ^ 100 - 1, e - 100, 2, none⟩
    else
      let w := fxExpNeg (-2 * toFx false p e)
      let v := (fxOne - w) * fxOne / (fxOne + w)
      some ⟨if neg then -v else v, -240, 2, none⟩
  | .sigm =>
    if big 7 then some ⟨if neg then 1 else fxOne - 1, if neg then -300 else -240, 2, some 24⟩
    else
      let w := fxExpNeg (-(toFx false p e))
      some ⟨(if neg then w else fxOne) * fxOne / (fxOne + w), -240, 2, some 24⟩

/-- The unit in the last place of FP32 at p × 2^e, as an exponent. -/
def ulpExp (p : Int) (e : Int) : Int :=
  let k := if p = 0 then -126 else leadExp p.natAbs 1 e
  (if k < -126 then -126 else k) - 23

/-- Whether |y| ≤ u for y = a × 2^e and u = b × 2^f. -/
def leScaled (a : Nat) (e : Int) (b : Nat) (f : Int) : Bool :=
  let lo := if e ≤ f then e else f
  decide (a * pow2 (e - lo) ≤ b * pow2 (f - lo))

/-- Whether FP32 bits are within the bound. -/
def sfuInBound (near : Option SfuNear) (y : Nat) : Bool :=
  match f32.value y with
  | .num neg p q e =>
    match near with
    | none => (XVal.num false p q e).cmp (.num false 1 1 0) != some .gt
    | some n =>
      let d := (XVal.num neg p q e).add (.num (decide (0 < n.p)) n.p.natAbs 1 n.e) false
      match d with
      | .num _ dp _ de =>
        leScaled dp de n.ulps (ulpExp n.p n.e) || (match n.absl with | some a => leScaled dp de 1 (-(a : Int)) | none => false)
      | _ => false
  | _ => false

/-- The device's own bits where they are within the bound; any other bits are none R66 allows, and stand for the nearest
value to the approximation (R66, R67; assumption 20). -/
def sfuFree (fn : SfuFn) (a : Nat) (neg : Bool) (p : Nat) (e : Int) : Nat :=
  let near := sfuNear fn neg p e
  let y := (Config.sfuBits fn (BitVec.ofNat 32 a)).toNat
  if sfuInBound near y then y
  else match near with
    | some n => (f32.round .rn false (.num (decide (n.p < 0)) n.p.natAbs 1 n.e)).1
    | none => 0

/-- An integer as an exact number's value, where it is one. -/
def asInteger (neg : Bool) (p : Nat) (e : Int) : Option Int :=
  if 0 ≤ e then some (if neg then -((p * pow2 e : Nat) : Int) else (p * pow2 e : Nat))
  else if p % pow2 (-e) = 0 then some (if neg then -((p / pow2 (-e) : Nat) : Int) else (p / pow2 (-e) : Nat))
  else none

/-- The special values and flags of the functions whose other bits are the device's (R66). -/
def sfuBits (fn : SfuFn) (a : Nat) : Nat × Word :=
  let one := f32.enc false (127 * 2 ^ 23)
  match f32.value a with
  | .nan s => (f32.canon, flagIf s flNV)
  | .inf n =>
    match fn with
    | .rsq => if n then (f32.canon, flNV) else (0, 0)
    | .exp2 => (if n then 0 else f32.infEnc false, 0)
    | .log2 => if n then (f32.canon, flNV) else (a, 0)
    | .sin | .cos => (f32.canon, flNV)
    | .tanh => (f32.enc n (127 * 2 ^ 23), 0)
    | .sigm => (if n then 0 else one, 0)
  | .num n p _ e =>
    if p = 0 then
      match fn with
      | .rsq => (f32.infEnc n, flDZ)
      | .exp2 => (one, 0)
      | .log2 => (f32.infEnc true, flDZ)
      | .sin => (a, 0)
      | .cos => (one, 0)
      | .tanh => (a, 0)
      | .sigm => (f32.enc false (126 * 2 ^ 23), 0)
    else
      match fn with
      | .rsq | .log2 =>
        if n then (f32.canon, flNV)
        else if fn = .log2 ∧ asInteger n p e = some 1 then (0, 0)
        else (sfuFree fn a n p e, 0)
      | .exp2 =>
        if !n && decide (7 ≤ leadExp p 1 e) then (f32.infEnc false, flOF)
        else match (if 8 ≤ leadExp p 1 e then none else asInteger n p e) with
          | some k => if -149 ≤ k then ((f32.round .rn false (.num false 1 1 k)).1, 0) else (sfuFree fn a n p e, 0)
          | none => (sfuFree fn a n p e, 0)
      | _ => (sfuFree fn a n p e, 0)

/-! ### Combining (R86 to R88, R341) -/

/-- The sum of two FP32 values, ties to even, without flags. -/
def add32 (x y : Word) : Word := BitVec.ofNat 32 (addBits f32 .rn x.toNat y.toNat).1

/-- The sums of the two BF16 halves. -/
def addPair (x y : Word) : Word :=
  let h (a b : BitVec 16) : BitVec 16 := BitVec.ofNat 16 (addBits bf16 .rn a.toNat b.toNat).1
  h (x.extractLsb' 16 16) (y.extractLsb' 16 16) ++ h (x.extractLsb' 0 16) (y.extractLsb' 0 16)

/-- The identity of a tag (R86). -/
def tagIdentity (tag : Nat) : DWord :=
  match tag with
  | 3 => 0x7FFFFFFF
  | 4 => 0x80000000
  | 5 => 0xFFFFFFFF
  | 7 => 0xFFFFFFFF
  | 10 => 0x80000000
  | 11 => 0x80008000
  | 12 => 0xFF800000
  | 13 => 0x7F800000
  | 14 => 0x8000000000000000
  | _ => 0

/-- The combining step of a tag (R86). -/
def tagCombine (tag : Nat) (x y : DWord) : DWord :=
  let a : Word := x.setWidth 32
  let b : Word := y.setWidth 32
  match tag with
  | 1 => (a + b).setWidth 64
  | 2 => x + y
  | 3 => (if a.slt b then a else b).setWidth 64
  | 4 => (if a.slt b then b else a).setWidth 64
  | 5 => (if a.ult b then a else b).setWidth 64
  | 6 => (if a.ult b then b else a).setWidth 64
  | 7 => (a &&& b).setWidth 64
  | 8 => (a ||| b).setWidth 64
  | 9 => (a ^^^ b).setWidth 64
  | 10 => (add32 a b).setWidth 64
  | 11 => (addPair a b).setWidth 64
  | 12 => BitVec.ofNat 64 (minMaxBits f32 true false a.toNat b.toNat).1
  | 13 => BitVec.ofNat 64 (minMaxBits f32 false false a.toNat b.toNat).1
  | 14 => BitVec.ofNat 64 (addBits f64 .rn x.toNat y.toNat).1
  | _ => x

/-- An FP32 value widened exactly to F64 (R86). -/
def widen32 (x : Word) : DWord := BitVec.ofNat 64 (f64.round .rn false (f32.value x.toNat)).1

/-- A contribution as the partial takes it: tag 14 widens it (R86). -/
def tagWiden (tag : Nat) (x : DWord) : DWord := if tag = 14 then widen32 (x.setWidth 32) else x

/-- Home value ⊕ root, the home value on the left; tag 14 rounds once to FP32 (R88). -/
def tagHome (tag : Nat) (home root : DWord) : DWord :=
  if tag = 14 then
    BitVec.ofNat 64 (f32.round .rn false
      (match f32.value (home.setWidth 32 : Word).toNat, f64.value root.toNat with
       | .nan _, _ => .nan false
       | _, .nan _ => .nan false
       | x, y => x.add y false)).1
  else tagCombine tag home root

end Sys2Proof.Machine
end

