-- ==== Sys2Proof/Machine/Integer.lean ====
section
/-! DEFINITION. Meanings of the integer, logic, shift, bit-field, compare, select, move and predicate instructions
(R265 to R287): opcodes 0x000 to 0x020 and 0x0D8 to 0x0D9. -/

namespace Sys2Proof.Machine

open Host (Outcome)

/-! ### Values by type (R56, R265, R270) -/

/-- The width in bits of a type. -/
def width (wide : Bool) : Nat := if wide then 64 else 32

/-- The exact value of `x` at a width: signed for .i, unsigned for .n (R270). -/
def intVal (wide signed : Bool) (x : DWord) : Int :=
  if wide then (if signed then x.toInt else (x.toNat : Int))
  else (if signed then (x.setWidth 32 : Word).toInt else ((x.setWidth 32 : Word).toNat : Int))

/-- The least value of a type. -/
def typeMin (wide signed : Bool) : Int := if signed then -(2 ^ (width wide - 1)) else 0

/-- The greatest value of a type. -/
def typeMax (wide signed : Bool) : Int := if signed then 2 ^ (width wide - 1) - 1 else 2 ^ width wide - 1

/-- Clamp an exact value to a type's range (R57). -/
def clampTo (wide signed : Bool) (x : Int) : Int :=
  if x < typeMin wide signed then typeMin wide signed else if typeMax wide signed < x then typeMax wide signed else x

/-- An exact result, clamped under .sat, then modulo 2^64; the register write keeps the low 32 bits of a 32-bit result
(R56, R57, R270). -/
def narrowInt (sat wide signed : Bool) (x : Int) : DWord :=
  BitVec.ofInt 64 (if sat then clampTo wide signed x else x)

/-- The result of a two-source operation on exact values. -/
def int2Res (f : Int → Int → Int) (sat : Bool) (o : Int2) (g : Gang) (l : Nat) : DWord :=
  narrowInt sat o.ty.wide o.ty.signed
    (f (intVal o.ty.wide o.ty.signed (g.rd o.ty.wide o.a l)) (intVal o.ty.wide o.ty.signed (g.rdSrc o.ty.wide o.b l)))

/-- IADD (R270). -/
def execIadd (sat : Bool) (o : Int2) (s : State) : Outcome State Fault Refusal :=
  lanewise (.iadd sat o) o.ty.wide o.d (int2Res (· + ·) sat o) s

/-- ISUB (R270). -/
def execIsub (sat : Bool) (o : Int2) (s : State) : Outcome State Fault Refusal :=
  lanewise (.isub sat o) o.ty.wide o.d (int2Res (· - ·) sat o) s

/-- IMUL (R270). -/
def execImul (o : Int2) (s : State) : Outcome State Fault Refusal :=
  lanewise (.imul o) o.ty.wide o.d (int2Res (· * ·) false o) s

/-- IMULH: the floor of the exact product over 2^n (R270). -/
def execImulh (o : Int2) (s : State) : Outcome State Fault Refusal :=
  lanewise (.imulh o) o.ty.wide o.d (int2Res (fun a b => (a * b) / 2 ^ width o.ty.wide) false o) s

/-- The result of IMAD in a lane (R270). -/
def imadRes (sat : Bool) (o : Int3) (g : Gang) (l : Nat) : DWord :=
  let v (x : DWord) : Int := intVal o.ty.wide o.ty.signed x
  narrowInt sat o.ty.wide o.ty.signed
    (v (g.rd o.ty.wide o.a l) * v (g.rd o.ty.wide o.b l) + v (g.rdSrc o.ty.wide o.c l))

/-- IMAD (R270). -/
def execImad (sat : Bool) (o : Int3) (s : State) : Outcome State Fault Refusal :=
  lanewise (.imad sat o) o.ty.wide o.d (imadRes sat o) s

/-- The result of IMADW in a lane: the full a × b + c (R272). -/
def imadwRes (o : Int3N) (g : Gang) (l : Nat) : DWord :=
  let v (x : DWord) : Int := intVal false o.sgn x
  BitVec.ofInt 64 (v (g.rd false o.a l) * v (g.rd false o.b l) + v (g.rdSrc false o.c l))

/-- IMADW (R272). -/
def execImadw (o : Int3N) (s : State) : Outcome State Fault Refusal :=
  lanewise (.imadw o) true o.d (imadwRes o) s

/-- The exact sum of IADDC in a lane: operands unsigned, b complemented under .sub, the carry in from the predicate (R271). -/
def iaddcSum (sub wide : Bool) (a b : Reg) (carry : LaneMask) (g : Gang) (l : Nat) : Nat :=
  let y := (g.rd wide b l).toNat
  (g.rd wide a l).toNat + (if sub then 2 ^ width wide - 1 - y else y) + (carry.getLsbD l).toNat

/-- IADDC: the sum, and the carry out into the same predicate, inverted where the operand is (R271). -/
def execIaddc (h : Hdr) (sub : Bool) (ty : ITy) (d a b : Reg) (pc : PSrc) (s : State) : Outcome State Fault Refusal :=
  computing (.iaddc h sub ty d a b pc) (fun part g =>
    let sum := iaddcSum sub ty.wide a b (g.psrc pc) g
    let out := truthMask fun l => decide (2 ^ width ty.wide ≤ sum l)
    (g.wr ty.wide d part fun l => BitVec.ofNat 64 (sum l)).wrP pc.idx.val part (if pc.neg then ~~~ out else out)) s

/-- IMIN (R270). -/
def execImin (o : Int2) (s : State) : Outcome State Fault Refusal :=
  lanewise (.imin o) o.ty.wide o.d (int2Res (fun a b => if a ≤ b then a else b) false o) s

/-- IMAX (R270). -/
def execImax (o : Int2) (s : State) : Outcome State Fault Refusal :=
  lanewise (.imax o) o.ty.wide o.d (int2Res (fun a b => if a ≤ b then b else a) false o) s

/-- IABS; the most negative value gives itself (R270). -/
def execIabs (o : IntS1) (s : State) : Outcome State Fault Refusal :=
  lanewise (.iabs o) o.wide o.d
    (fun g l => BitVec.ofInt 64 ((intVal o.wide true (g.rd o.wide o.a l)).natAbs : Int)) s

/-- INEG; the most negative value gives itself (R270). -/
def execIneg (o : IntS1) (s : State) : Outcome State Fault Refusal :=
  lanewise (.ineg o) o.wide o.d (fun g l => BitVec.ofInt 64 (-(intVal o.wide true (g.rd o.wide o.a l)))) s

/-! ### Logic and shifts (R274 to R276) -/

/-- The result of a bitwise operation of two sources. -/
def bit2Res (f : DWord → DWord → DWord) (o : Int2) (g : Gang) (l : Nat) : DWord :=
  f (g.rd o.ty.wide o.a l) (g.rdSrc o.ty.wide o.b l)

/-- AND (R274). -/
def execAnd (o : Int2) (s : State) : Outcome State Fault Refusal :=
  lanewise (.and o) o.ty.wide o.d (bit2Res (· &&& ·) o) s

/-- OR (R274). -/
def execOr (o : Int2) (s : State) : Outcome State Fault Refusal :=
  lanewise (.or o) o.ty.wide o.d (bit2Res (· ||| ·) o) s

/-- XOR (R274). -/
def execXor (o : Int2) (s : State) : Outcome State Fault Refusal :=
  lanewise (.xor o) o.ty.wide o.d (bit2Res (· ^^^ ·) o) s

/-- NOT (R274). -/
def execNot (o : Int1) (s : State) : Outcome State Fault Refusal :=
  lanewise (.not o) o.ty.wide o.d (fun g l => ~~~ g.rd o.ty.wide o.a l) s

/-- The functions of BOOL3, bit by bit (R274). -/
def bool3Fn (fn : Fin 16) (a b c : DWord) : DWord :=
  match fn.val with
  | 0 => a &&& b &&& c
  | 1 => a ||| b ||| c
  | 2 => a ^^^ b ^^^ c
  | 3 => (a &&& b) ||| (a &&& c) ||| (b &&& c)
  | 4 => (a &&& c) ||| (b &&& ~~~ c)
  | 5 => (a &&& b) ||| c
  | 6 => (a ||| b) &&& c
  | 7 => (a ^^^ b) &&& c
  | 8 => (a &&& b) ^^^ c
  | 9 => (a ||| b) ^^^ c
  | 10 => a &&& b &&& ~~~ c
  | 11 => a ||| b ||| ~~~ c
  | 12 => ~~~ (a ^^^ b ^^^ c)
  | 13 => ~~~ (a &&& b &&& c)
  | 14 => ~~~ (a ||| b ||| c)
  | _ => (a ^^^ b ^^^ c) &&& ~~~ (a &&& b &&& c)

/-- BOOL3 (R274). -/
def execBool3 (h : Hdr2) (fn : Fin 16) (ty : ITy) (d a b : Reg) (c : Src) (s : State) : Outcome State Fault Refusal :=
  lanewise (.bool3 h fn ty d a b c) ty.wide d
    (fun g l => bool3Fn fn (g.rd ty.wide a l) (g.rd ty.wide b l) (g.rdSrc ty.wide c l)) s

/-- A shift count: bits 7:0 of the source (R58, R275). -/
def shiftCount (g : Gang) (b : Src) (l : Nat) : Nat := (g.rdSrc32 b l).toNat % 256

/-- SHL: 0 where the count reaches the width (R275). -/
def execShl (o : Int2) (s : State) : Outcome State Fault Refusal :=
  lanewise (.shl o) o.ty.wide o.d
    (fun g l => let k := shiftCount g o.b l
      if width o.ty.wide ≤ k then 0 else g.rd o.ty.wide o.a l <<< k) s

/-- SHR: zero fill, 0 where the count reaches the width (R275). -/
def execShr (o : Int2) (s : State) : Outcome State Fault Refusal :=
  lanewise (.shr o) o.ty.wide o.d
    (fun g l => let k := shiftCount g o.b l
      if width o.ty.wide ≤ k then 0 else g.rd o.ty.wide o.a l >>> k) s

/-- SHRA: sign fill, the count at most n − 1 (R275). -/
def execShra (o : Int2) (s : State) : Outcome State Fault Refusal :=
  lanewise (.shra o) o.ty.wide o.d
    (fun g l => let k := shiftCount g o.b l
      BitVec.ofInt 64 (intVal o.ty.wide true (g.rd o.ty.wide o.a l) / 2 ^ Nat.min k (width o.ty.wide - 1))) s

/-- ROT: left, by the count modulo the width (R275). -/
def execRot (o : Int2) (s : State) : Outcome State Fault Refusal :=
  lanewise (.rot o) o.ty.wide o.d
    (fun g l =>
      let n := width o.ty.wide
      let j := shiftCount g o.b l % n
      let a := (g.rd o.ty.wide o.a l).toNat
      BitVec.ofNat 64 ((a * 2 ^ j) % 2 ^ n + a / 2 ^ (n - j))) s

/-- The result of SHD: the pair va:vb shifted by a signed count of at most 32 either way (R276). -/
def shdRes (hi lo : Word) (k : Int) : Word :=
  let w : DWord := hi ++ lo
  let j := Nat.min k.natAbs 32
  if 0 ≤ k then (w <<< j).extractLsb' 32 32 else (w >>> j).extractLsb' 0 32

/-- SHD (R276). -/
def execShd (o : Int3N) (s : State) : Outcome State Fault Refusal :=
  lanewise (.shd o) false o.d
    (fun g l => (shdRes (g.rd32 o.a l) (g.rd32 o.b l)
      ((g.rdSrc32 o.c l).extractLsb' 0 8 : BitVec 8).toInt).setWidth 64) s

/-! ### Fields and counts (R277 to R279) -/

/-- The result of BFE (R277). -/
def bfeRes (wide signed : Bool) (a : DWord) (pos len0 : Nat) : DWord :=
  let n := width wide
  let len := Nat.min len0 n
  if len = 0 ∨ n ≤ pos then 0
  else
    let m := Nat.min (pos + len) n - pos
    let f := a.toNat / 2 ^ pos % 2 ^ m
    if signed && decide (2 ^ (m - 1) ≤ f) then BitVec.ofInt 64 ((f : Int) - 2 ^ m) else BitVec.ofNat 64 f

/-- BFE (R277). -/
def execBfe (o : Int3) (s : State) : Outcome State Fault Refusal :=
  lanewise (.bfe o) o.ty.wide o.d
    (fun g l => bfeRes o.ty.wide o.ty.signed (g.rd o.ty.wide o.a l) ((g.rd32 o.b l).toNat % 256)
      ((g.rdSrc32 o.c l).toNat % 256)) s

/-- The result of BFI: the field of a inserted into b (R277). -/
def bfiRes (wide : Bool) (a b : DWord) (pos len0 : Nat) : DWord :=
  let n := width wide
  let len := Nat.min len0 n
  if len = 0 ∨ n ≤ pos then b
  else
    let mask : DWord := BitVec.ofNat 64 ((2 ^ len - 1) * 2 ^ pos % 2 ^ n)
    (b &&& ~~~ mask) ||| ((a <<< pos) &&& mask)

/-- The position and length of BFI in a lane (R277). -/
def bfiField (g : Gang) (sel : BfiSel) (l : Nat) : Nat × Nat :=
  match sel with
  | .imm pos len => (pos.toNat, len.toNat)
  | .reg c => ((g.rd32 c l).toNat % 256, (g.rd32 c l).toNat / 256 % 256)

/-- BFI (R277). -/
def execBfi (h : Hdr2) (ty : ITy) (d a b : Reg) (sel : BfiSel) (s : State) : Outcome State Fault Refusal :=
  lanewise (.bfi h ty d a b sel) ty.wide d
    (fun g l => bfiRes ty.wide (g.rd ty.wide a l) (g.rd ty.wide b l) (bfiField g sel l).1 (bfiField g sel l).2) s

/-- The number of set bits among the low `n`. -/
def popCount (x : DWord) (n : Nat) : Nat := ((List.range n).filter fun k => x.getLsbD k).length

/-- POPC: a 32-bit result (R278). -/
def execPopc (o : Int1) (s : State) : Outcome State Fault Refusal :=
  lanewise (.popc o) false o.d (fun g l => BitVec.ofNat 64 (popCount (g.rd o.ty.wide o.a l) (width o.ty.wide))) s

/-- The number of leading zeros in `n` bits (R278). -/
def leadingZeros (x : DWord) (n : Nat) : Nat := if x = 0 then n else n - 1 - x.toNat.log2

/-- CLZ: a 32-bit result (R278). -/
def execClz (o : Int1) (s : State) : Outcome State Fault Refusal :=
  lanewise (.clz o) false o.d (fun g l => BitVec.ofNat 64 (leadingZeros (g.rd o.ty.wide o.a l) (width o.ty.wide))) s

/-- The low `n` bits in reverse order (R278). -/
def bitReverse (x : DWord) (n : Nat) : DWord :=
  (List.range n).foldl (fun r k => if x.getLsbD k then r ||| (1#64 <<< (n - 1 - k)) else r) 0

/-- BREV (R278). -/
def execBrev (o : Int1) (s : State) : Outcome State Fault Refusal :=
  lanewise (.brev o) o.ty.wide o.d (fun g l => bitReverse (g.rd o.ty.wide o.a l) (width o.ty.wide)) s

/-- Byte `k` of the result of BSEL (R279). -/
def bselByte (a b c : Word) (k : Nat) : Byte :=
  if c.getLsbD (12 + k) then 0
  else (b ++ a : DWord).extractLsb' (8 * (c.extractLsb' (3 * k) 3).toNat) 8

/-- BSEL (R279). -/
def execBsel (h : Hdr) (d a b c : Reg) (s : State) : Outcome State Fault Refusal :=
  lanewise (.bsel h d a b c) false d
    (fun g l =>
      let by4 := bselByte (g.rd32 a l) (g.rd32 b l) (g.rd32 c l)
      (by4 3 ++ by4 2 ++ by4 1 ++ by4 0 : Word).setWidth 64) s

/-! ### Compare, select, move (R280 to R285) -/

/-- An integer condition on exact values (R280). -/
def ccHolds (cc : CC) (a b : Int) : Bool :=
  match cc with
  | .eq => a == b
  | .ne => a != b
  | .lt => decide (a < b)
  | .le => decide (a ≤ b)
  | .gt => decide (b < a)
  | .ge => decide (b ≤ a)

/-- ICMP (R280). -/
def execIcmp (h : Hdr) (cc : CC) (ty : ITy) (pd : Fin 48) (a : Reg) (b : Src) (s : State) :
    Outcome State Fault Refusal :=
  computing (.icmp h cc ty pd a b) (fun part g =>
    g.wrP pd.val part (truthMask fun l =>
      ccHolds cc (intVal ty.wide ty.signed (g.rd ty.wide a l)) (intVal ty.wide ty.signed (g.rdSrc ty.wide b l)))) s

/-- ISEL (R281). -/
def execIsel (h : Hdr) (ty : ITy) (d a b : Reg) (pc : PSrc) (s : State) : Outcome State Fault Refusal :=
  lanewise (.isel h ty d a b pc) ty.wide d
    (fun g l => if (g.psrc pc).getLsbD l then g.rd ty.wide a l else g.rd ty.wide b l) s

/-- MOV (R282). -/
def execMov (h : Hdr) (ty : MovTy) (d a : Reg) (s : State) : Outcome State Fault Refusal :=
  lanewise (.mov h ty d a) ty.wide d (fun g l => g.rd ty.wide a l) s

/-- MOVI; .hi writes the upper half of a scalar register and traps for any other destination (R283), where the guard fails in every lane too (DEDUCED,
log entry 121). -/
def execMovi (h : Hdr2) (hi : Bool) (d : Reg) (imm : Word) (s : State) : Outcome State Fault Refusal :=
  issue (.movi h hi d imm) noGate (fun part s =>
    if hi then
      match d with
      | .s n => .done (s.modCur fun g => g.wr true d part fun _ => imm ++ (smGet g.s n.val).setWidth 32)
      | _ => .trap (.form part)
    else .done (s.modCur fun g => g.wr false d part fun _ => imm.setWidth 64)) s

/-- How many fork-table entries are busy (R46). -/
def Gang.forkDepth (g : Gang) : Nat := (g.forks.filter (·.busy)).length

/-- A special register as a lane reads it (R13, R46). -/
def sregVal (s : State) (sel : SReg) (l : Nat) : DWord :=
  match sel with
  | .laneid => BitVec.ofNat 64 l
  | .gangid => s.cur.gangId.setWidth 64
  | .teamid => s.cur.team.team
  | .gridid => s.cur.team.grid.setWidth 64
  | .core => BitVec.ofNat 64 (s.cur.key.core % 256)
  | .part => BitVec.ofNat 64 s.cur.key.part
  | .clock => s.clock
  | .promise => s.cur.promise
  | .maxabs => s.cur.maxabs.setWidth 64
  | .strand => BitVec.ofNat 64 s.curStrand
  | .forkdepth => BitVec.ofNat 64 s.cur.forkDepth

/-- MOVSR (R46, R47, R284). -/
def execMovsr (h : Hdr) (sel : SReg) (d : Reg) (s : State) : Outcome State Fault Refusal :=
  issue (.movsr h sel d) noGate (fun part s =>
    .done (s.modCur fun g => g.wr sel.wide d part (sregVal s sel))) s

/-- The result of LEA (R285). -/
def leaRes (sx : Bool) (sh : BitVec 2) (m : GMem) (g : Gang) (l : Nat) : DWord :=
  let i : DWord := if sx then (g.rd32 m.index l).signExtend 64 else (g.rd32 m.index l).setWidth 64
  g.rd64 m.base l + (i <<< sh.toNat) + m.off.signExtend 64

/-- LEA (R285). -/
def execLea (h : Hdr2) (sx : Bool) (sh : BitVec 2) (d : Reg) (m : GMem) (s : State) : Outcome State Fault Refusal :=
  lanewise (.lea h sx sh d m) true d (leaRes sx sh m) s

/-! ### Predicates (R286, R287) -/

/-- PSET's operation (R286). -/
def POp.apply (op : POp) (a b : LaneMask) : LaneMask :=
  match op with
  | .and => a &&& b
  | .or => a ||| b
  | .xor => a ^^^ b

/-- PSET (R286). -/
def execPset (h : Hdr) (op : POp) (pd : Fin 48) (pa pb : PSrc) (s : State) : Outcome State Fault Refusal :=
  computing (.pset h op pd pa pb) (fun part g => g.wrP pd.val part (POp.apply op (g.psrc pa) (g.psrc pb))) s

/-- The predicates of a group as one lane's bits: p0 to p31, or p32 to p47 in bits 15:0 (R287). -/
def predBits (g : Gang) (high : Bool) (l : Nat) : Word :=
  maskOf fun k => if high then decide (k < 16) && (g.pmask (32 + k)).getLsbD l else (g.pmask k).getLsbD l

/-- A group of predicates written from a vector register: p0 to p31, or p32 to p46 (R287). -/
def putPreds (g : Gang) (high : Bool) (n : Nat) (part : LaneMask) : Gang :=
  (List.range (if high then 15 else 32)).foldl (fun g' k =>
    g'.wrP (if high then 32 + k else k) part (truthMask fun l => (g.vr n l).getLsbD k)) g

/-- PMOV; a scalar register or zr traps (R287), where the guard fails in every lane too (DEDUCED, log entry 121). -/
def execPmov (h : Hdr) (form : PMovForm) (s : State) : Outcome State Fault Refusal :=
  issue (.pmov h form) noGate (fun part s =>
    match form with
    | .toReg high d =>
      if d.isV then .done (s.modCur fun g => g.wr32 d part (predBits g high)) else .trap (.form part)
    | .fromReg high a =>
      match a with
      | .v n => .done (s.modCur fun g => putPreds g high n.val part)
      | _ => .trap (.form part)) s

end Sys2Proof.Machine
end

