-- ==== Sys2Proof/Machine/L2.lean ====
section
/-! DEFINITION. Where home words are kept (R121, R122, R128, R131, R178, R179, R203): words, sectors and frames, the home of a frame, the
L2 of a home slice, and the requests that reach the memory stacks. It changes no value. -/

namespace Sys2Proof.Machine

/-! ### Words, sectors, frames, pages (R121, R131, R149) -/

/-- Bytes of a word, a sector and a frame; words of a frame (R121). -/
def wordOf (pa : Nat) : Nat := pa / 4
def sectorOf (pa : Nat) : Nat := pa / 32
def frameOf (pa : Nat) : Nat := pa / 512

/-- The home hash of a frame: its low eight bits name the home (R131). -/
def homeHash (frame : Nat) : Nat := ((frame % 2 ^ 15) ^^^ (frame / 2 ^ 15 % 2 ^ 15) ^^^ (frame / 2 ^ 30 % 2 ^ 13)) % 256

/-- The home slice of an address: the one its page is pinned to, or the hash's (R131). -/
def homeOf (a : Attr) (pa : Nat) : Nat :=
  match a.pin with
  | some h => h
  | none => homeHash (frameOf pa)

/-- The words an access touches. -/
def LaneAcc.words (a : LaneAcc) : List Nat :=
  (List.range ((a.pa + a.size + 3) / 4 - a.pa / 4)).map (a.pa / 4 + ·)

/-- Two ranges of addresses overlap. -/
def overlaps (a n b k : Nat) : Bool := decide (a < b + k ∧ b < a + n)

/-- Attributes of a page that nothing has translated yet. -/
def Attr.none : Attr := { wt := false, cache := 0, pri := 0, span := 0, pin := .none }

/-- The eviction priority of a fill (R128): the page's default acts as 2 where it is 3. -/
def fillPri (hint page : BitVec 2) (urgent : Bool) : Nat :=
  if urgent then 2
  else if hint = 0 then Nat.min page.toNat 2 else hint.toNat - 1

/-! ### What reaches the stacks (R178, R179) -/

/-- The pseudo-channel of a local address: stack, channel and half, as one number (R178). -/
def pchanOf (pa : Nat) : Nat :=
  let u := pa / 256
  ((u / 4 % 8) ^^^ (u / 2 ^ 17 % 8)) * 64 + ((u / 32 % 32) ^^^ (u / 2 ^ 20 % 32)) * 2 + u / 1024 % 2

/-- The stack of a local address (R178). -/
def stackOf (pa : Nat) : Nat := let u := pa / 256; (u / 4 % 8) ^^^ (u / 2 ^ 17 % 8)

/-- Reads, or writes, that a pseudo-channel controller holds (R179). -/
def hbmRoom : Nat := 64

/-- A request enters a controller that has room for its kind, behind those that wait already (R179). -/
def PChan.take (p : PChan) (q : HReq) : PChan :=
  if (p.reqs.filter fun x => x.write == q.write).length < hbmRoom && !p.late.any (fun x => x.write == q.write) then
    { p with reqs := p.reqs ++ [q] }
  else { p with late := p.late ++ [q] }

/-- A sector of local memory is presented to its pseudo-channel, which holds it or keeps it waiting for room; one that comes during a forced
refresh waits for that to end (R179, R180). -/
def hbmPut (clock : DWord) (ps : List PChan) (q : Nat × Bool) : List PChan :=
  let pa := q.1 * 32
  let f (p : PChan) : PChan :=
    { p with waited := p.waited + (p.busy.toNat - clock.toNat) }.take { addr := pa, write := q.2, since := clock }
  if pa < 2 ^ 39 then upsert (fun p => p.num == pchanOf pa) (PChan.empty (pchanOf pa)) f ps else ps

/-! ### The L2 of a home slice (R122, R128, R203) -/

/-- Sectors and tags of a set of an L2 (R122). -/
def l2Sectors : Nat := 256
def l2Tags : Nat := 32

/-- The set of a block: its home, and bits 16 to 8 of the frame (R122). -/
def L2Blk.set (b : L2Blk) : Nat × Nat := (b.home, b.frame / 256 % 512)

/-- Sectors a block holds. -/
def L2Blk.size (b : L2Blk) : Nat := b.hi - b.lo + 1

/-- A block holds a sector. -/
def L2Blk.holds (b : L2Blk) (sector : Nat) : Bool := b.frame == sector / 16 && decide (b.lo ≤ sector % 16 ∧ sector % 16 ≤ b.hi)

/-- The block to evict first of those that may be: the lowest priority, then the oldest (R128). -/
def l2Victim (l : List L2Blk) : Option L2Blk :=
  l.foldl (fun best b => match best with
    | some (v : L2Blk) => if b.pri ≤ v.pri then some b else some v
    | none => some b) none

/-- Sectors of a block that a context's agents filled (R203). -/
def L2Blk.held (b : L2Blk) (ctx : Nat) : Nat := (b.ctxs.filter (· == ctx)).length

/-- A block whose sectors are all one context's (DESIGN CHOICE, log entry 92: the manual does not say whose a block is that two
contexts filled). -/
def L2Blk.ownBy (b : L2Blk) (ctx : Nat) : Bool := b.ctxs.all (· == ctx)

/-- Evictions until a set has room for a sector, and for a tag where one is needed, of blocks that `spare` does not pick, and of one
context where `own` names it; what is left and what was evicted, or none where nothing more may be evicted (R128, R203). -/
def l2Room (set : Nat × Nat) (spare : L2Blk → Bool) (own : Option Nat) (tag : Nat) : Nat → List L2Blk → List L2Blk → Option (List L2Blk × List L2Blk)
  | 0, _, _ => none
  | fuel + 1, l, out =>
    let here := l.filter fun b => b.set == set
    if (here.map L2Blk.size).sum + 1 ≤ l2Sectors ∧ here.length + tag ≤ l2Tags then some (l, out)
    else
      match l2Victim (here.filter fun b => !spare b && own.all b.ownBy) with
      | none => none
      | some v => l2Room set spare own tag fuel (l.erase v) (v :: out)

/-- The one neighbour a fill of a sector extends (R125). -/
def l2Near (b : L2Blk) (l : List L2Blk) : Option L2Blk :=
  match l.filter fun x => x.home == b.home && x.frame == b.frame && decide (x.lo ≤ b.hi + 1 ∧ b.lo ≤ x.hi + 1) with
  | [x] => some x
  | _ => none

/-- A block with a sector beside it added: each sector stays its own context's (R203). -/
def L2Blk.join (x b : L2Blk) : L2Blk :=
  { x with
    lo := Nat.min x.lo b.lo, hi := Nat.max x.hi b.hi, dirty := x.dirty ||| b.dirty
    ctxs := if b.lo < x.lo then b.ctxs ++ x.ctxs else x.ctxs ++ b.ctxs }

/-- A fill of one sector: a new block, or its one neighbour extended (R125); a context at its quota evicts a block of its own first, and
where it has none in the set nothing is allocated (R203). -/
def l2Fill (quota ctx : Nat) (b : L2Blk) (l : List L2Blk) : Option (List L2Blk × List L2Blk) :=
  let full := decide (quota * 2048 ≤ ((l.filter fun x => x.home == b.home).map (·.held ctx)).sum)
  let near := l2Near b l
  let spare (x : L2Blk) : Bool := near == some x
  let first := if full then
      (l2Victim (l.filter fun x => x.set == b.set && !spare x && x.ownBy ctx)).map fun v => (l.erase v, [v])
    else some (l, [])
  (first.bind fun (l1, out) =>
    l2Room b.set spare (if full then some ctx else none) (if near.isSome then 0 else 1) (l2Tags + 1) l1 out).map fun (l2, out) =>
    match near with
    | some x => (x.join b :: l2.erase x, out)
    | none => (b :: l2, out)

/-- The writes to the stacks that evicted blocks make. -/
def l2Writes (out : List L2Blk) : List (Nat × Bool) :=
  out.flatMap fun b => ((List.range 16).filter fun k => b.dirty.getLsbD k).map fun k => (b.frame * 16 + k, true)

/-- What an access to a sector makes of the blocks, and what it asks of the stacks: nothing where a block holds the sector; else the
sector where it is read, and a place for it unless the page is uncached or R203 finds none. -/
def l2Next (quota home sector ctx pri : Nat) (alloc reads writes : Bool) (l : List L2Blk) : List L2Blk × List (Nat × Bool) :=
  let dirty : BitVec 16 := if writes then 1#16 <<< (sector % 16) else 0
  match l.find? (·.holds sector) with
  | some b => ({ b with dirty := b.dirty ||| dirty } :: l.erase b, [])
  | none =>
    let ask := if reads then [(sector, false)] else []
    let b : L2Blk := { home := home, frame := sector / 16, lo := sector % 16, hi := sector % 16, dirty := dirty, ctxs := [ctx], pri := pri }
    match (if alloc then l2Fill quota ctx b l else none) with
    | some (l1, out) => (l1, ask ++ l2Writes out)
    | none => (l, ask ++ if writes then [(sector, true)] else [])

/-- The L2 quota of a context in 64 KiB units; the greatest for one that is not there (R189). -/
def State.quotaOf (s : State) (ctx : Nat) : Nat :=
  match s.ctxAt ctx with
  | some x => x.quota
  | none => 64

/-- An access at a home through its L2. -/
def State.l2Access (s : State) (home sector ctx pri : Nat) (alloc reads writes : Bool) : State :=
  let (l, q) := l2Next (s.quotaOf ctx) home sector ctx pri alloc reads writes s.l2
  { s with l2 := l, pchans := q.foldl (hbmPut s.clock) s.pchans }

/-- A read at the home of an address, for an agent of a context. -/
def State.l2Read (s : State) (ctx pa : Nat) (a : Attr) : State :=
  s.l2Access (homeOf a pa) (sectorOf pa) ctx (fillPri 0 a.pri false) (a.cache != 2) true false

/-- The home takes words of a sector from a cache or an engine: into L2 where it holds the sector, else to the stack. -/
def State.l2Take (s : State) (sector : Nat) : State := s.l2Access 0 sector 0 0 false false true

end Sys2Proof.Machine
end

