-- ==== Sys2Proof/Machine/Strands.lean ====
section
/-! DEFINITION. Strands and forks of a gang (R20 to R37): lineages, governing forks, collapse records, the ends of arms and
strands, and the waits of a tail for its arms. -/

namespace Sys2Proof.Machine

/-! ### Collapse records (R20, R29, R228) -/

/-- A collapse record: phase, true mask, false mask (R228). -/
structure Coll where
  phase : Nat
  t : LaneMask
  f : LaneMask
deriving DecidableEq, Repr

/-- The 66 bits of a record: phase 65:64, false mask 63:32, true mask 31:0 (R228). -/
def Coll.bits (c : Coll) : BitVec 66 := BitVec.ofNat 2 c.phase ++ c.f ++ c.t

/-- The record of fork `f` in a strand; valid when its masks are not both zero (R20). -/
def Strand.collOf (st : Strand) (f : Nat) : Option Coll :=
  let b := smGet st.coll f
  if b.extractLsb' 0 64 = 0#64 then none
  else some ⟨(b.extractLsb' 64 2).toNat, b.extractLsb' 0 32, b.extractLsb' 32 32⟩

/-- Write the record of fork `f`. -/
def Strand.setColl (st : Strand) (f : Nat) (c : Coll) : Strand := { st with coll := smSet st.coll f c.bits }

/-- Clear the record of fork `f`. -/
def Strand.clearColl (st : Strand) (f : Fin 8) : Strand :=
  { st with coll := smErase st.coll f.val, cstack := st.cstack.filter (fun c => c.fork != f) }

/-- The record governs fork `f` in its true or false phase. -/
def Strand.inPhase (st : Strand) (f : Nat) : Bool :=
  match st.collOf f with
  | some c => decide (c.phase < 2)
  | none => false

/-- Clear MEMDONE mark `f` (R20). -/
def Strand.clearMdone (st : Strand) (f : Nat) : Strand := { st with mdone := st.mdone &&& ~~~ (1#8 <<< f) }

/-! ### Lineage (R23, R25) -/

/-- Whether a strand lies in the lineage of a side of a FORK instance (R23). -/
def Strand.inLine (st : Strand) (inst : Nat) (side : StrandKind) : Bool :=
  st.valid && st.path.any (fun e => e.inst == inst && e.side == side)

/-- The latest uncollapsed FORK `f` in a strand's lineage (R25). -/
def Strand.lineOf (st : Strand) (f : Fin 8) : Option PathEl := st.path.find? (fun e => e.fork == f)

/-- The two arms' sides. -/
def isArm (k : StrandKind) : Bool := k == .trueArm || k == .falseArm

/-- What a strand of one lineage executes comes, in the program order of a lane they share, before what a strand of another does, or
where that one stands: the lineages, outermost step first, agree as far as the first goes, or part where it takes an arm and the other the
tail (R31). -/
def lineageBefore : List PathEl → List PathEl → Bool
  | [], _ => true
  | _ :: _, [] => false
  | a :: p, b :: q =>
    if a.inst == b.inst && a.side == b.side then lineageBefore p q else a.inst == b.inst && isArm a.side && b.side == .tail

/-- A FORK executed before a place in program order (R31). -/
def PastFork.before (x : PastFork) (path : List PathEl) : Bool := lineageBefore x.path.reverse path.reverse

/-- A FORK that is later than another in the program order of their lanes (R31). -/
def PastFork.after (x y : PastFork) : Bool := y.before x.path && (!x.before y.path || decide (y.inst < x.inst))

/-- The most recent FORK `f` in a lane's program order, at a strand (R25). -/
def Gang.latestFork (g : Gang) (st : Strand) (f : Fin 8) (l : Nat) : Option PastFork :=
  (g.past.filter fun x => x.fork == f && (x.tmask ||| x.fmask).getLsbD l && x.before st.path).foldl (fun best x => match best with
    | some (b : PastFork) => if x.after b then some x else some b
    | none => some x) none

/-- The lanes a strand runs or is still to run: its own, and those of its collapse records, whose later phases may bring them back (R29). -/
def Strand.lanes (st : Strand) : LaneMask :=
  (List.range 8).foldl (fun m f => match st.collOf f with | some c => m ||| c.t ||| c.f | none => m) st.mask

/-- FORKs that still govern their identifier for some lane of some strand of a gang are kept (R25). -/
def Gang.prunePast (g : Gang) : Gang :=
  { g with past := g.past.filter fun x => g.strands.any fun st =>
      st.valid && (lanesOf (st.lanes &&& (x.tmask ||| x.fmask))).any fun l => g.latestFork st x.fork l == some x }

/-- The fork that governs `f` for a lane of a strand: a collapse record, or an uncollapsed fork with the side of it the strand lies in
(R25). A collapsed fork whose record the strand does not hold ran in an arm, and its phases are over. -/
inductive Gov where
  | coll (c : Coll)
  | line (e : PathEl)
deriving DecidableEq, Repr

/-- A past FORK as a strand sees it. -/
def PastFork.seen (x : PastFork) (st : Strand) : Gov :=
  if x.collapsed then .coll ⟨2, x.tmask, x.fmask⟩
  else .line ⟨x.inst, x.fork, match st.path.find? (fun e => e.inst == x.inst) with | some e => e.side | none => .tail, x.tmask, x.fmask⟩

/-- The governing fork of a JOIN, JOINP, PUB, MEMDONE or ENDARM naming `f`, for a lane: the most recent FORK f in the lane's program order;
a record that holds no such lane acts as it stands (R25, R29, R31). -/
def Gang.gov (g : Gang) (st : Strand) (f : Fin 8) (l : Nat) : Option Gov :=
  match st.collOf f.val with
  | none => (g.latestFork st f l).map (·.seen st)
  | some c =>
    if !(c.t ||| c.f).getLsbD l then some (.coll c)
    else match g.latestFork st f l with
      | some x => if st.cstack.any (fun k => k.fork == f && k.inst == x.inst) then some (.coll c) else some (x.seen st)
      | none => some (.coll c)

/-- The fork-table entry a lineage element names, while that instance still holds it; an instance that no longer does has
ended in every arm (R24). -/
def Gang.entryOf (g : Gang) (e : PathEl) : Option Fork :=
  let k := g.forkAt e.fork.val
  if k.busy && k.inst == e.inst then some k else none

/-- An arm of an instance has ended (R27). -/
def Gang.armEnded (g : Gang) (e : PathEl) (side : StrandKind) : Bool :=
  match g.entryOf e with
  | some k => if side == .trueArm then k.tend else k.fend
  | none => true

/-- An arm of an instance has its memory done (R32). -/
def Gang.armDone (g : Gang) (e : PathEl) (side : StrandKind) : Bool :=
  match g.entryOf e with
  | some k => if side == .trueArm then k.tdone else k.fdone
  | none => true

/-- A register bit of an arm is published (R26, R27). -/
def Gang.armPub (g : Gang) (e : PathEl) (side : StrandKind) (bit : Nat) : Bool :=
  match g.entryOf e with
  | some k => (if side == .trueArm then k.tpub else k.fpub).getLsbD bit
  | none => true

/-- The oldest live strand of an arm's lineage: the expected signaller (R184). -/
def Gang.oldestIn (g : Gang) (inst : Nat) (side : StrandKind) : Option Nat :=
  let c := (g.strands.zipIdx).filter fun (st, _) => st.inLine inst side
  (c.foldl (fun best (st, k) => match best with
    | some (r, j) => if st.rank.toNat < r then some (st.rank.toNat, k) else some (r, j)
    | none => some (st.rank.toNat, k)) (none : Option (Nat × Nat))).map (·.2)

/-- The arm of a tail's lanes it still waits for: not memory done, or, for EXIT, not ended (R32, R36). -/
def Gang.awaited (g : Gang) (st : Strand) (ended : Bool) : Option (PathEl × StrandKind) :=
  st.path.findSome? fun e =>
    if e.side != .tail then none
    else
      let open? (side : StrandKind) (m : LaneMask) : Bool :=
        (m &&& st.mask) != 0 && !(if ended then g.armEnded e side else g.armDone e side)
      if open? .trueArm e.tmask then some (e, .trueArm)
      else if open? .falseArm e.fmask then some (e, .falseArm) else none

/-! ### Fork table upkeep (R24, R27, R32) -/

/-- Every bit published. -/
def allPub : BitVec 239 := BitVec.allOnes 239

/-- A fork-table entry after strands have moved on: arms whose lineage has no strand left have ended; arms all of whose
strands have passed MEMDONE have their memory done; the entry frees when both arms and the tail lineage have ended. -/
def Fork.settled (g : Gang) (f : Nat) (e : Fork) : Fork :=
  if !e.busy then e
  else
    let live (side : StrandKind) : Bool := g.strands.any (·.inLine e.inst side)
    let done (side : StrandKind) : Bool :=
      g.strands.all fun st => !st.inLine e.inst side || (st.mdone.getLsbD f && !st.inPhase f)
    let te := e.tend || !live .trueArm
    let fe := e.fend || !live .falseArm
    if te && fe && !live .tail then Fork.empty
    else
      { e with
        tend := te, fend := fe
        tdone := e.tdone || te || done .trueArm
        fdone := e.fdone || fe || done .falseArm
        tpub := if te && !e.tend then allPub else e.tpub
        fpub := if fe && !e.fend then allPub else e.fpub }

/-- The fork table after strands have moved on. -/
def Gang.settle (g : Gang) : Gang := { g with forks := g.forks.zipIdx.map fun p => Fork.settled g p.2 p.1 }

/-- A strand ends: its slot is free and the ranks below it close up (R20, R24, R27). -/
def Gang.endStrand (g : Gang) (k : Nat) : Gang :=
  let r := (g.strandAt k).rank
  let closed : List Strand := (modAt g.strands k fun _ => Strand.empty).map fun (st : Strand) =>
    if st.valid && decide (r < st.rank) then { st with rank := st.rank - 1 } else st
  Gang.settle { g with strands := closed }

/-- The lowest strand slots that a FORK may take: free, and free when the cycle began (R22, R296). -/
def Gang.freeSlots (g : Gang) : List Nat := (g.strands.zipIdx.filter fun (st, k) => !st.valid && g.openSlots.getLsbD k).map (·.2)

/-- What is free as a cycle begins (R296). -/
def Gang.opened (g : Gang) : Gang :=
  { g with
    openSlots := (g.strands.zipIdx).foldl (fun b p => if p.1.valid then b else b ||| (1#16 <<< p.2)) 0
    openForks := (g.forks.zipIdx).foldl (fun b p => if p.1.busy then b else b ||| (1#8 <<< p.2)) 0 }

/-! ### Phases of a collapsed fork (R29, R294) -/

/-- Switch to the next phase of record `f` that has lanes, clearing MEMDONE mark f; none when no later phase has lanes. -/
def Strand.advance (st : Strand) (c : CollEl) : Option Strand :=
  match st.collOf c.fork.val with
  | none => none
  | some r =>
    let st1 := st.clearMdone c.fork.val
    if r.phase = 0 && r.f != 0 then
      some { st1.setColl c.fork.val { r with phase := 1 } with mask := r.f, pc := c.lfalse }
    else if (r.t ||| r.f) != 0 then
      some { st1.setColl c.fork.val { r with phase := 2 } with mask := r.t ||| r.f, pc := c.ltail }
    else none

/-- The collapsed FORK a strand whose mask has become empty moves on in: the innermost record in its true or false phase
whose current phase's mask is empty, unless another strand's copy has already moved on (R294). -/
def Strand.refill (st : Strand) (moved : List Nat) : Option (Strand × Nat) :=
  st.cstack.findSome? fun c =>
    match st.collOf c.fork.val with
    | some r =>
      if decide (r.phase < 2) && (if r.phase = 0 then r.t else r.f) == 0 && !moved.contains c.inst then
        (st.advance c).map fun st' => (st', c.inst)
      else none
    | none => none

/-! ### Waits for arms (R32, R36, R37) -/

/-- Whether an instruction's strand already marked a wait of this kind; the wait began when it first did. -/
def Strand.since (st : Strand) (kind : WaitKind) (clock : DWord) : Word :=
  if st.wait.kind == kind then st.wait.since else clock.setWidth 32

/-- The issuing strand enters, or stays in, a wait (R183). -/
def State.waitStrand (s : State) (state : StrandState) (kind : WaitKind) (obj : DWord) (sig : Option (GKey × Nat))
    (on : WaitOn) : State :=
  s.modStrand fun st =>
    { st with
      state := state, waitOn := on
      wait := { obj := obj, since := st.since kind s.clock, kind := kind, sig := sig,
                began := if st.wait.kind == kind then st.wait.began else s.clock } }

/-- OBJ of a join wait: fork identifier in bits 2:0, arm in bit 3 (R183). -/
def joinObj (f : Fin 8) (side : StrandKind) : DWord := BitVec.ofNat 64 (f.val + if side == .trueArm then 0 else 8)

/-- The strand waits for an arm of fork `f`, in join or memory-join wait, its signaller the oldest strand of that arm; an arm of a
collapsed fork has none (R37, R184). -/
def State.waitArm (s : State) (state : StrandState) (kind : WaitKind) (f : Fin 8) (inst : Option Nat) (side : StrandKind) : State :=
  s.waitStrand state kind (joinObj f side) ((inst.bind fun n => s.cur.oldestIn n side).map fun k => (s.cur.key, k)) .none

/-- An ordinary memory access in a tail waits for the arms of its lanes (R32). -/
def memJoinGate (part : LaneMask) (s : State) : Option State :=
  if part = 0 then none
  else (s.cur.awaited s.strand false).map fun (e, side) => s.waitArm .memJoinWait .memJoin e.fork (some e.inst) side

/-- EXIT in a tail waits until the arms of its lanes have ended (R36). Two points are the model's choice (DESIGN CHOICE; assumption 95): the
arms are those of all the strand's active lanes, as R32 has them, not only of the lanes that exit; and a strand that lies both in a tail
and in an arm waits for its tail's arms before it ends its threads. -/
def exitGate (part : LaneMask) (s : State) : Option State :=
  if part = 0 then none
  else (s.cur.awaited s.strand true).map fun (e, side) => s.waitArm .memJoinWait .memJoin e.fork (some e.inst) side

/-- One gate after another. -/
def bothGates (a b : LaneMask → State → Option State) (part : LaneMask) (s : State) : Option State :=
  match a part s with
  | some s' => some s'
  | none => b part s

/-! ### What a thread has in flight (R102, R103, R106, R113, R116) -/

/-- Whether an access was made by threads of the issuing gang in lanes of `part`. -/
def State.mine (s : State) (part : LaneMask) (w : Who) : Bool := w.g == s.cur.key && (w.mask &&& part) != 0

/-- Entries of a gang in its core's store queues that hold accesses of lanes of `part`. -/
def State.myEntries (s : State) (part : LaneMask) : List SQEntry := s.myCore.sq.filter fun e => s.mine part e.who

/-- Loads of the issuing gang not yet performed, for lanes of `part` (R106). -/
def State.myRequests (s : State) (part : LaneMask) : List OrnReq :=
  (s.ornWait ++ s.orn).filter fun r => r.entry.isNone && r.ty.isSome && s.mine part r.who

/-- Scratchpad accesses of the issuing gang that have not taken effect, for lanes of `part`; a remote one waits at its
target's core. -/
def State.mySp (s : State) (part : LaneMask) : List SpReq :=
  s.cores.flatMap fun c => c.spq.filter fun r => s.mine part r.who

/-- An entry that stores, with or without a result. -/
def SQKind.writes : SQKind → Bool
  | .store | .release | .atomic _ | .red _ | .redu _ | .remoteSts _ => true
  | _ => false

/-- An engine owns a word of an access and has not written it (R132, R146). -/
def State.engineHas (s : State) (a : LaneAcc) : Bool :=
  s.dirs.any fun d => match d.eng with
    | some e => (List.range 8).any fun k => e.mask.getLsbD k && decide (a.pa < 32 * d.sector + 4 * k + 4 ∧ 32 * d.sector + 4 * k < a.pa + a.size)
    | none => false

/-- A store that its retirement has written into the view: every word on a page the view caches, and none of an engine's, for which its
registration waits (R104; DEDUCED, assumption 33). -/
def State.inView (s : State) (e : SQEntry) : Bool :=
  e.kind == .store && e.accs.all fun a => a.attr.cache == 0 && !s.engineHas a

/-- The threads' earlier stores have reached the view or the scratchpad, or where they pass the view by have taken effect, and their
earlier loads have been performed: what an arrival, MLEAVE and MJOIN wait for (R116). -/
def State.settledFor (s : State) (part : LaneMask) : Bool :=
  !(s.myCore.sq.any fun e => s.mine part e.who && e.kind.writes) &&
  !(s.myCore.gone.any fun e => s.mine part e.who && e.kind.writes && !s.inView e) && (s.myRequests part).isEmpty && (s.mySp part).isEmpty

/-- Arrivals, MLEAVE and MJOIN wait in barrier or mask wait for the threads' earlier accesses (R116). -/
def settleGate (kind : WaitKind) (obj : Nat) (sig : State → Option (GKey × Nat)) (part : LaneMask) (s : State) : Option State :=
  if part = 0 || s.settledFor part then none
  else some (s.waitStrand .barWait kind (BitVec.ofNat 64 obj) (sig s) .block)

end Sys2Proof.Machine
end

