-- ==== Sys2Proof/Machine/Homes.lean ====
section
/-! DEFINITION. Homes and span caches (R100, R104 to R111, R121 to R140): the home value of a word, who owns it, the blocks of
an L1, drains and invalidations, placing and evicting blocks, update-only partials and their merge. -/

namespace Sys2Proof.Machine

/-! ### Home values and watches (R100, R349) -/

/-- The value a watch compares: one word, or two at 64 bits. -/
def watchValue (m : SMap 8) (w : Watch) : DWord :=
  if w.ty.wide then smDWord m w.pa else (smWord m w.pa).setWidth 64

/-- WAITW's comparison (R280, R349). -/
def watchHolds (w : Watch) (x : DWord) : Bool :=
  if w.ty.wide then (if w.ty.signed then ccHolds w.cc x.toInt w.cmp.toInt else ccHolds w.cc x.toNat w.cmp.toNat)
  else if w.ty.signed then ccHolds w.cc (x.setWidth 32 : Word).toInt (w.cmp.setWidth 32 : Word).toInt
  else ccHolds w.cc (x.setWidth 32 : Word).toNat (w.cmp.setWidth 32 : Word).toNat

/-- A watch examines its word after a change of the home value there; a satisfied one is not examined again (R349). -/
def Watch.see (m : SMap 8) (pa n : Nat) (w : Watch) : Watch :=
  if w.placed && w.value.isNone && overlaps pa n w.pa (if w.ty.wide then 8 else 4) && watchHolds w (watchValue m w) then
    { w with value := some (watchValue m w) }
  else w

/-- Home bytes change, and watches on them see it (R100, R349). -/
def State.putHome (s : State) (pa : Nat) (bs : List Byte) : State :=
  let m := smPut s.mem pa bs
  { s with mem := m, watches := s.watches.map (Watch.see m pa bs.length) }

/-- The home value of a word. -/
def State.hword (s : State) (w : Nat) : Word := smWord s.mem (4 * w)

/-- Byte `k` of a word. -/
def byteOf (x : Word) (k : Nat) : Byte := x.extractLsb' (8 * k) 8

/-- The bytes of a word that a mask names taken from `x`, the others from `y`. -/
def mixWord (mask : BitVec 4) (x y : Word) : Word :=
  (List.range 4).foldl (fun r k =>
    r ||| (((if mask.getLsbD k then byteOf x k else byteOf y k).setWidth 32 : Word) <<< (8 * k))) 0

/-- The home value of a word takes the bytes that a mask names (R334). -/
def State.putWord (s : State) (w : Nat) (mask : BitVec 4) (x : Word) : State :=
  if mask = 0 then s
  else s.putHome (4 * w) (leBytes (mixWord mask x (s.hword w)).toNat 4)

/-- Steps that change homes at one point of the order: a watch sees the words as they are when all are done (R129, R349). -/
def State.asOne (s : State) (f : State → State) : State :=
  let s1 := f { s with watches := [] }
  { s1 with watches := s.watches.map fun w => if watchValue s1.mem w = watchValue s.mem w then w else w.see s1.mem w.pa 4 }

/-! ### Directory entries (R132) -/

/-- A sector with no owners, no engine entry and no update-only state. -/
def Dir.empty (sector : Nat) : Dir :=
  { sector := sector, owners := [], eng := none, uTag := 0, uhold := 0, merging := false, recalled := [] }

/-- The directory entry of a sector. -/
def State.dirAt (s : State) (sector : Nat) : Dir := (s.dirs.find? (fun d => d.sector == sector)).getD (Dir.empty sector)

/-- An entry is kept while the sector has owners, an engine entry or update-only state (R132). -/
def Dir.inUse (d : Dir) : Bool := !d.owners.isEmpty || d.eng.isSome || d.uTag != 0

/-- Change the directory entry of a sector. -/
def State.modDir (s : State) (sector : Nat) (f : Dir → Dir) : State :=
  let d := f (s.dirAt sector)
  let rest := s.dirs.filter (fun d => d.sector != sector)
  { s with dirs := if d.inUse then d :: rest else rest }

/-- The core that owns a word. -/
def State.ownerOf (s : State) (w : Nat) : Option Nat :=
  ((s.dirAt (w / 8)).owners.find? (fun o => o.mask.getLsbD (w % 8))).map (·.core)

/-- A core's ownership of a word ends at the home; an entry left with no word is free. -/
def Dir.dropOwner (core w : Nat) (d : Dir) : Dir :=
  { d with
    owners := (modWhere (fun o => o.core == core) (fun o => { o with mask := o.mask &&& ~~~ (1#8 <<< (w % 8)) }) d.owners).filter
      (fun o => o.mask != 0) }

/-- A core is entered as the owner of a word: it holds at most one entry of a sector (R104, R132). -/
def Dir.addOwner (core w : Nat) (d : Dir) : Dir :=
  { d with
    owners := upsert (fun o => o.core == core) { core := core, mask := 0 }
      (fun o => { o with mask := o.mask ||| (1#8 <<< (w % 8)) }) d.owners }

/-- An engine owns a word and has not written it (R132, R146). -/
def State.engineOwns (s : State) (w : Nat) : Bool :=
  match (s.dirAt (w / 8)).eng with
  | some e => e.mask.getLsbD (w % 8)
  | none => false

/-! ### The view of a core (R100, R121) -/

/-- What a block holds of a word. -/
def Block.get (b : Block) (w : Nat) : Option VWord :=
  if b.frame = w / 128 ∧ b.start ≤ w % 128 then b.words[w % 128 - b.start]? else none

/-- What a core's view holds of a word; no word is held in two blocks (R125). -/
def Core.view (c : Core) (w : Nat) : Option VWord := c.blocks.findSome? (·.get w)

/-- The runs left of a block when each word is kept, changed or taken away; `i` is the first word's place in the frame. Each run is a
block with the priority, age, predictor entry and accessed sectors of the whole (DESIGN CHOICE, log entry 90: the manual speaks of
trimming and does not say what a word taken from the middle leaves). -/
def Block.pieces (b : Block) (f : Nat → VWord → Option VWord) : Nat → List VWord → List Block
  | _, [] => []
  | i, v :: rest =>
    let tail := b.pieces f (i + 1) rest
    match f (b.frame * 128 + i) v with
    | none => tail
    | some v' =>
      match tail with
      | t :: ts =>
        if t.start = i + 1 then { t with start := i, words := v' :: t.words } :: ts
        else { b with start := i, words := [v'] } :: t :: ts
      | [] => [{ b with start := i, words := [v'] }]

/-- Every word of a core's view kept, changed or made absent. -/
def Core.mapView (c : Core) (f : Nat → VWord → Option VWord) : Core :=
  { c with blocks := c.blocks.flatMap fun b => b.pieces f b.start b.words }

/-- One word of a core's view changed or made absent. -/
def Core.modView (c : Core) (w : Nat) (f : VWord → Option VWord) : Core :=
  { c with blocks := c.blocks.flatMap fun b =>
      if (b.get w).isSome then b.pieces (fun x v => if x = w then f v else some v) b.start b.words else [b] }

/-- The words of a core's view in some state. -/
def Core.wordsIn (c : Core) (st : VState) : List Nat :=
  c.blocks.flatMap fun b => (b.words.zipIdx.filter (fun p => p.1.st == st)).map fun p => b.frame * 128 + b.start + p.2

/-! ### Uncorrectable errors (R232 to R235) -/

/-- The home writes a sector with check bits that no data word can carry: every later read of it meets the error (R234). -/
def State.poisonSector (s : State) (sector : Nat) : State :=
  if s.poison.contains sector then s else { s with poison := s.poison ++ [sector] }

/-- A word of which the only copy holds an uncorrectable error goes home, or a partial does, with no access asking for it (R234, R235). -/
def State.spoil (s : State) (core pa : Nat) : State :=
  (s.logErr 0 4 unitL1 core 0 (BitVec.ofNat 64 (pa / 8 * 8))).poisonSector (pa / 32)

/-- A partial of a sector holds an uncorrectable error. -/
def State.badPartial (s : State) (sector : Nat) : Bool :=
  s.cores.any (fun c => c.ub.any fun u => u.sector == sector && u.parts.any (·.bad)) ||
  s.parked.any (fun p => p.sector == sector && p.parts.any (·.bad)) || (s.dirAt sector).recalled.any fun p => p.2.any (·.bad)

/-- A fetch or a fill of a word from its home meets an uncorrectable error: the home's own, or that of a partial that merges first; it recalls
no dirty copy (R106, R117, R231, R234). -/
def State.badHome (s : State) (w : Nat) : Bool := s.poison.contains (w / 8) || s.badPartial (w / 8)

/-- An access that recalls the dirty copy of a word meets an uncorrectable error (R231, R234). -/
def State.badWord (s : State) (w : Nat) : Bool := s.badHome w || s.cores.any (fun c => (c.view w).any (·.bad))

/-- The sector of a word whose only copy has been found to be an uncorrectable error is one at its home from now on (R231, R234). -/
def State.condemn (s : State) (w : Nat) : State :=
  let sound (p : Partial) : Partial := { p with bad := false }
  let s1 := { s with
    cores := s.cores.map fun (c : Core) =>
      { c.modView w (fun v => if v.bad then none else some v) with
        ub := modWhere (fun u => u.sector == w / 8) (fun u => { u with parts := u.parts.map sound }) c.ub }
    parked := modWhere (fun p => p.sector == w / 8) (fun p => { p with parts := p.parts.map sound }) s.parked }
  let lost := (s.cores.filter fun c => (c.view w).any (·.bad)).map (·.num)
  (lost.foldl (fun s c => s.modDir (w / 8) (Dir.dropOwner c w)) s1).poisonSector (w / 8)

/-- Accesses to a sector are under way: requests, entries of store queues, waits on its words. -/
def State.sectorBusy (s : State) (sector : Nat) : Bool :=
  (s.ornWait ++ s.orn).any (·.sector == sector) || s.watches.any (fun w => w.pa / 32 == sector) ||
  s.cores.any fun c => (c.sq ++ c.gone).any fun e => e.accs.any fun a => a.pa / 32 == sector

/-! ### Keys of requests (R142) -/

/-- Agent codes of the ORN's order key (R142). -/
def agentL1 : Nat := 0
def agentConst : Nat := 1
def agentTile : Nat := 2
def agentMatrix : Nat := 3
def agentCe (e : Nat) : Nat := 4 + e
def agentBridle : Nat := 6
def agentHome : Nat := 7

/-- A request of a core's agent, placed now (R141, R142). -/
def State.request (s : State) (core agent : Nat) (who : Who) (kind : OrnKind) (sector : Nat) (accs : List LaneAcc) : OrnReq :=
  { id := s.nextId, grp := s.nextId, clock := s.clock, entered := none, die := core / 64, pos := core % 64, agent := agent, core := core, who := who, kind := kind,
    order := .none, entry := none, sector := sector, accs := accs, ty := none, dst := none, pri := 0, span := 0, after := [], late := false,
    spread := [], forced := [], done := [] }

/-- A part of the request numbered `grp` is placed. -/
def State.placePart (s : State) (grp : Nat) (r : OrnReq) : State :=
  { s with nextId := s.nextId + 1, ornWait := s.ornWait ++ [{ r with id := s.nextId, grp := grp }] }

/-- A request of one sector is placed. -/
def State.place (s : State) (r : OrnReq) : State := s.placePart s.nextId r

/-- A request of several sectors is placed: one reservation, one point (R133, R143). -/
def State.placeAll (s : State) (rs : List OrnReq) : State := rs.foldl (fun t r => t.placePart s.nextId r) s

/-! ### Update-only state (R86 to R89, R135 to R140) -/

/-- The elements of a sector under an operator tag: eight words, or four pairs under tag 2 (R86, R138). -/
def tagElems (tag : Nat) : Nat := if tag = 2 then 4 else 8

/-- Identity partials of a sector (R135). -/
def freshParts (tag : Nat) : List Partial := List.replicate (tagElems tag) { x := tagIdentity tag, set := false }

/-- The Flowstone tree over 2^n leaves from `base` up (R88). -/
def flowstone (tag : Nat) (leaf : Nat → Option DWord) : Nat → Nat → Option DWord
  | 0, base => leaf base
  | n + 1, base =>
    match flowstone tag leaf n base, flowstone tag leaf n (base + 2 ^ n) with
    | some x, some y => some (tagCombine tag x y)
    | some x, none => some x
    | none, y => y

/-- The partial a core returned for an element, when its contributed bit is set (R138). -/
def leafOf (returned : List (Nat × List Partial)) (k core : Nat) : Option DWord :=
  (returned.find? (fun p => p.1 == core)).bind fun p =>
    let q := atD p.2 k { x := 0, set := false }
    if q.set then some q.x else none

/-- A recall that a home has sent a core. -/
def OrnReq.isRecall (r : OrnReq) : Bool := match r.kind with | .askBack _ => true | _ => false

/-- The home combines the partials of a sector into the home value, and the sector leaves update-only state (R138); a partial that is an
uncorrectable error makes the sector one (R234). -/
def State.mergeEnd (s : State) (sector : Nat) : State :=
  let d := s.dirAt sector
  let tag := d.uTag
  let parked := (s.parked.filter (fun p => p.sector == sector)).map fun p => (p.core, p.parts)
  let returned := d.recalled ++ parked
  let s1 := (List.range (tagElems tag)).foldl (fun s k =>
    match flowstone tag (leafOf returned k) 8 0 with
    | none => s
    | some root =>
      if tag = 2 then
        let pa := sector * 32 + 8 * k
        s.putHome pa (leBytes (tagHome tag (smDWord s.mem pa) root).toNat 8)
      else
        let pa := sector * 32 + 4 * k
        s.putHome pa (leBytes (tagHome tag ((smWord s.mem pa).setWidth 64) root).toNat 4)) s
  let mine (r : OrnReq) : Bool := r.isRecall && r.sector == sector
  let s2 := { s1.l2Take sector with
    parked := s1.parked.filter (fun p => p.sector != sector), ornWait := s1.ornWait.filter fun r => !mine r
    orn := s1.orn.filter fun r => !mine r }
  let s3 := s2.modDir sector fun d => { d with uTag := 0, uhold := 0, merging := false, recalled := [] }
  match returned.find? fun p => p.2.any (·.bad) with
  | some p => s3.spoil p.1 (sector * 32 + 32 / tagElems tag * p.2.findIdx (·.bad))
  | none => s3

/-- The cores in UHOLD whose partials are not at the home yet (R138). -/
def State.toRecall (s : State) (sector : Nat) : List Nat :=
  let d := s.dirAt sector
  (List.range 256).filter fun c =>
    d.uhold.getLsbD c && !d.recalled.any (fun p => p.1 == c) && !s.parked.any (fun p => p.sector == sector && p.core == c)

/-- The home of a sector sends a core a recall on the ORN (R138, R141). -/
def State.sendRecall (s : State) (sector core : Nat) : State :=
  let home := match (s.coreAt core).ub.find? fun u => u.sector == sector with | some u => u.home | none => homeHash (sector / 16)
  s.place { s.request (256 + home) agentHome Who.empty (.askBack core) sector [] with die := home / 64, pos := home % 64 }

/-- The home recalls the partials of a sector; with none outstanding the merge ends at once (R138). -/
def State.mergeStart (s : State) (sector : Nat) : State :=
  let s1 := s.modDir sector fun d => { d with merging := true }
  if (s1.toRecall sector).isEmpty then s1.mergeEnd sector else (s1.toRecall sector).foldl (fun s c => s.sendRecall sector c) s1

/-- A recalled L1 returns every partial of the sector and removes its block's sector (R138). -/
def State.recallFrom (s : State) (sector core : Nat) : State :=
  let parts := ((s.coreAt core).ub.find? (fun u => u.sector == sector)).map (·.parts)
  let s1 := s.modCore core fun c => { c with ub := c.ub.filter (fun u => u.sector != sector) }
  s1.modDir sector fun d => { d with recalled := d.recalled ++ [(core, parts.getD (freshParts d.uTag))] }

/-- A merge with its recalls, where nothing else may come between (R130, R139, R140). -/
def State.mergeNow (s : State) (sector : Nat) : State :=
  if (s.dirAt sector).uTag = 0 then s
  else ((s.toRecall sector).foldl (fun s c => s.recallFrom sector c) s).mergeEnd sector

/-! ### Writing back, draining, invalidating (R105, R107, R109, R113) -/

/-- The words of a registration that are still to be registered (R104). -/
def OrnReq.open (r : OrnReq) (core w : Nat) : Bool :=
  r.core == core && r.kind == .register && !r.done.contains w && r.accs.any fun a => a.attr.cache == 0 && a.words.contains w

/-- A core has retired a store of a word whose registration has not reached its point (R104). -/
def State.unregistered (s : State) (core w : Nat) : Bool := (s.ornWait ++ s.orn).any (·.open core w)

/-- A word that its core holds dirty and that waits, unregistered, for an engine to write it (R104 step 1): it cannot go home yet. -/
def State.stuck (s : State) (core w : Nat) : Bool := s.engineOwns w && s.unregistered core w

/-- A core's retired stores of a word are registered (R104). -/
def State.setRegistered (s : State) (core w : Nat) : State :=
  let f (r : OrnReq) : OrnReq := if r.open core w then { r with done := w :: r.done } else r
  { s with ornWait := s.ornWait.map f, orn := s.orn.map f }

/-- Another core's ownership of a word ends because `core` takes it: the bytes the owner wrote and `mask` does not cover go
home, and the word becomes absent in its view (R104, R334). -/
def State.takeFrom (s : State) (core w : Nat) (mask : BitVec 4) : State :=
  match s.ownerOf w with
  | none => s
  | some d =>
    if d = core then s
    else
      let s1 := match (s.coreAt d).view w with
        | some v => if v.bad then s.spoil d (4 * w) else s.putWord w (v.written &&& ~~~ mask) v.x
        | none => s
      (s1.modCore d fun c => c.modView w fun _ => none).modDir (w / 8) (Dir.dropOwner d w)

/-- A registered word that a core owns is written home, only the bytes its owner wrote (R334), and its view state becomes `st`; ownership
ends unless it stays owned clean (R105, R107). An uncorrectable error goes home as one (R234). -/
def State.writeOwned (s : State) (core w : Nat) (st : VState) : State :=
  match (s.coreAt core).view w with
  | none => s
  | some v =>
    if v.st == .valid then s
    else if v.bad then ((s.spoil core (4 * w)).modCore core fun c => c.modView w fun _ => none).modDir (w / 8) (Dir.dropOwner core w)
    else
      let s1 := s.putWord w v.written v.x
      let s2 := (s1.l2Take (w / 8)).modCore core fun c => c.modView w fun v => some { v with st := st, written := 0 }
      if st == .clean then s2 else s2.modDir (w / 8) (Dir.dropOwner core w)

/-- Room for an owner entry of `core`: where two others stand, the oldest entry's words are written home and the entry is
freed (R105). -/
def State.ownerRoom (s : State) (core sector : Nat) : State :=
  let d := s.dirAt sector
  if d.owners.any (fun o => o.core == core) || d.owners.length < 2 then s
  else match d.owners with
    | [] => s
    | o :: _ => (List.range 8).foldl (fun s k => if o.mask.getLsbD k then s.writeOwned o.core (sector * 8 + k) .valid else s) s

/-- An owned dirty word is written home. One whose registration has not reached its point is registered by the write (R104 steps 2 to
4: its sector merges, other owners lose it), unless an engine has still to write it (DEDUCED, log entry 33). -/
def State.writeBack (s : State) (core w : Nat) (st : VState) : State :=
  if !s.unregistered core w then s.writeOwned core w st
  else if s.engineOwns w then s
  else
    let s1 := (s.mergeNow (w / 8)).takeFrom core w (match (s.coreAt core).view w with | some v => v.written | none => 0)
    let s2 := s1.setRegistered core w
    let s3 := if st == .clean then (s2.ownerRoom core (w / 8)).modDir (w / 8) (Dir.addOwner core w) else s2
    s3.writeOwned core w st

/-- A core drains: every owned dirty word is written home and becomes valid in its view (R109, R113). -/
def State.drainCore (s : State) (core : Nat) : State :=
  s.asOne fun s => ((s.coreAt core).wordsIn .dirty).foldl (fun s w => s.writeBack core w .valid) s

/-- A core self-invalidates: every word of its view that it does not own becomes absent (R109, R113). -/
def Core.selfInvalidate (c : Core) : Core := c.mapView fun _ v => if v.st == .valid then none else some v

/-- The same of a core by number. -/
def State.invalidateCore (s : State) (core : Nat) : State := s.modCore core Core.selfInvalidate

/-- Whoever owns a word writes it home and no longer owns it (R109, R111, R147). -/
def State.recallWord (s : State) (w : Nat) : State :=
  match s.ownerOf w with
  | none => s
  | some d => s.writeBack d w .valid

/-! ### Bytes written at homes -/

/-- The words of a range of bytes. -/
def rangeWords (pa n : Nat) : List Nat := if n = 0 then [] else (List.range ((pa + n - 1) / 4 - pa / 4 + 1)).map (pa / 4 + ·)

/-- Bytes that Grotto, a sampler or a debugger writes at the home: owners lose their words, what they wrote of other bytes going home,
and an update-only sector merges first; a sector written whole holds no error any more (R234). -/
def State.homeStore (s : State) (pa : Nat) (bs : List Byte) : State :=
  let secs := (List.range ((pa + bs.length + 31) / 32 - pa / 32)).map (pa / 32 + ·)
  let s1 := secs.foldl (fun s c => s.mergeNow c) s
  let s2 := s1.asOne fun s => ((rangeWords pa bs.length).foldl (fun s w => s.takeFrom 256 w 0) s).putHome pa bs
  { s2 with poison := s2.poison.filter fun c => !decide (pa ≤ c * 32 ∧ c * 32 + 32 ≤ pa + bs.length) }

/-! ### Release records (R108, R110) -/

/-- Words a home slice keeps release records for (R110). -/
def recordRoom : Nat := 1024

/-- The oldest release record of a home is freed: every core named in it drains (R110). -/
def State.evictRecord (s : State) (home : Nat) : State :=
  match s.rel.find? (fun r => r.home == home) with
  | none => s
  | some r =>
    let s1 := { s with rel := s.rel.filter (fun x => x.word != r.word) }
    (List.range 256).foldl (fun s c => if r.cores.getLsbD c then s.drainCore c else s) s1

/-- A core joins the release record of a word (R108, R110). -/
def State.addRecord (s : State) (core w home : Nat) : State :=
  let add (r : RelRec) : RelRec := { r with cores := r.cores ||| (1#256 <<< core) }
  if s.rel.any (fun r => r.word == w) then { s with rel := modWhere (fun r => r.word == w) add s.rel }
  else
    let s1 := if (s.rel.filter (fun r => r.home == home)).length < recordRoom then s else s.evictRecord home
    { s1 with rel := s1.rel ++ [add { word := w, cores := 0, home := home }] }

/-- Every core other than `core` in the release record of a word drains and leaves it (R109). -/
def State.drainRecord (s : State) (core w : Nat) : State :=
  match s.rel.find? (fun r => r.word == w) with
  | none => s
  | some r =>
    let s1 := (List.range 256).foldl (fun s c => if r.cores.getLsbD c && c != core then s.drainCore c else s) s
    let keep := r.cores &&& (1#256 <<< core)
    { s1 with rel := (modWhere (fun x => x.word == w) (fun x => { x with cores := keep }) s1.rel).filter (fun x => x.cores != 0) }

/-! ### Blocks: placement and eviction (R122 to R128) -/

/-- Sectors of storage a block occupies (R121). -/
def Block.sectors (b : Block) : Nat := (b.start + b.words.length - 1) / 8 - b.start / 8 + 1

/-- The set of a frame (R122). -/
def l1Set (frame : Nat) : Nat := frame % 128

/-- Storage and tags of a set of an L1 (R122). -/
def setSectors : Nat := 64
def setTags : Nat := 16

/-- Sectors and tags in use in a set; an update-only sector is a block of its own (R135). -/
def Core.setUse (c : Core) (set : Nat) : Nat × Nat :=
  let bs := c.blocks.filter (fun b => l1Set b.frame == set)
  let us := c.ub.filter (fun u => l1Set (u.sector / 16) == set)
  ((bs.map Block.sectors).sum + us.length, bs.length + us.length)

/-- The spatial predictor's index for a PC (R124). -/
def predIndex (pc : VAddr) : Nat := (pc.toNat / 2 ^ 3 % 2 ^ 10) ^^^ (pc.toNat / 2 ^ 13 % 2 ^ 10)

/-- The size an entry holds, as a power of two: an entry that nothing has trained holds 4 sectors (R124). Entries are kept
with the power 2 stored as 0. -/
def predPower (m : SMap 8) (i : Nat) : Nat := (smGet m i ^^^ 2#8).toNat

/-- The power of two that a count rounds up to, at most 4. -/
def roundPower (n : Nat) : Nat := if n ≤ 1 then 0 else if n ≤ 2 then 1 else if n ≤ 4 then 2 else if n ≤ 8 then 3 else 4

/-- An evicted block trains the entry that filled it one step toward what was accessed (R124). -/
def Core.train (c : Core) (b : Block) : Core :=
  match b.predIdx with
  | none => c
  | some i =>
    let used := ((List.range 16).filter (fun k => b.touched.getLsbD k)).length
    let want := roundPower used
    let have' := predPower c.pred i
    let next := if have' < want then have' + 1 else if want < have' then have' - 1 else have'
    { c with pred := smSet c.pred i (BitVec.ofNat 8 next ^^^ 2#8) }

/-- Whether a block may be evicted before another: lower priority, then older (R128). -/
def olderThan (p a q b : Nat) : Bool := decide (p < q ∨ (p = q ∧ a < b))

/-- The span block of a set to evict first, of those a condition does not spare (R128). -/
def Core.victim (c : Core) (set : Nat) (spare : Block → Bool) : Option Block :=
  (c.blocks.filter (fun b => l1Set b.frame == set && !spare b)).foldl (fun best b => match best with
    | some (v : Block) => if olderThan b.pri b.age v.pri v.age then some b else some v
    | none => some b) none

/-- The update-only block of a set to evict first (R128). -/
def Core.uVictim (c : Core) (set : Nat) : Option UBSector :=
  (c.ub.filter (fun u => l1Set (u.sector / 16) == set)).foldl (fun best u => match best with
    | some (v : UBSector) => if olderThan u.pri u.age v.pri v.age then some u else some v
    | none => some u) none

/-- A set holds no more than its storage and tags (R122). -/
def Core.setFits (c : Core) (set : Nat) : Bool :=
  let (secs, tags) := c.setUse set
  decide (secs ≤ setSectors ∧ tags ≤ setTags)

/-! ### Parking and eviction (R128, R139) -/

/-- Sectors whose partials a home slice parks (R139): the 512 entries count sectors, whichever cores' partials they hold (DEDUCED, log
entry 91). -/
def parkRoom : Nat := 512

/-- An evicted update-only sector is parked at its home; where no entry is free, the sector of the oldest parked partial is
merged first (R139). -/
def State.park (s : State) (core : Nat) (u : UBSector) : State :=
  let s0 := s.modCore core fun c => { c with ub := c.ub.filter (fun x => x.sector != u.sector) }
  let here := s0.parked.filter (fun p => p.home == u.home)
  let full := decide (parkRoom ≤ (here.map (·.sector)).dedup.length) && !here.any (fun p => p.sector == u.sector)
  let add (s : State) : State :=
    { s with parked := s.parked ++ [{ sector := u.sector, core := core, tag := u.tag, parts := u.parts, home := u.home }] }
  if full then
    match here with
    | p :: _ => (add s0).mergeNow p.sector
    | [] => add s0
  else add s0

/-- A span block is evicted: the background moves of every word, training the predictor (R107, R124, R128). -/
def State.evictSpan (s : State) (core : Nat) (b : Block) : State :=
  let ws := (List.range b.words.length).map (b.frame * 128 + b.start + ·)
  let s1 := s.asOne fun s => ws.foldl (fun s w => s.writeBack core w .valid) s
  s1.modCore core fun c => ({ c with blocks := c.blocks.filter (fun x => !(x.frame == b.frame && x.start == b.start)) }).train b

/-- A block has a fill outstanding: a fetch of words that lie in it or beside it (R125, R128). -/
def State.filling (s : State) (core : Nat) (b : Block) : Bool :=
  (s.ornWait ++ s.orn).any fun r => r.core == core && r.kind == .fetch && r.sector / 16 == b.frame &&
    r.accs.any fun a => overlaps (a.pa / 4) ((a.size + 3) / 4) (b.frame * 128 + b.start - 1) (b.words.length + 2)

/-- One eviction in a set, or none where nothing in it may be evicted: a span block, or the parking of an update-only block (R128). A
block with a fill outstanding, or with a word that cannot go home yet, is not chosen. -/
def State.evictOne (s : State) (core set : Nat) (spare : Block → Bool) : Option State :=
  let c := s.coreAt core
  let held (b : Block) : Bool :=
    s.filling core b || (List.range b.words.length).any fun i => s.stuck core (b.frame * 128 + b.start + i)
  match c.victim set (fun b => spare b || held b), c.uVictim set with
  | some b, some u => some (if olderThan u.pri u.age b.pri b.age then s.park core u else s.evictSpan core b)
  | some b, none => some (s.evictSpan core b)
  | none, some u => some (s.park core u)
  | none, none => none

/-- Evictions in a set until what `f` makes of the core fits there, as far as there is anything to evict; what `spare` picks stays
(R122, R128). -/
def State.makeRoom (s : State) (core set : Nat) (spare : Core → Block → Bool) (f : Core → Core) : Nat → State
  | 0 => s
  | fuel + 1 =>
    let c := s.coreAt core
    if (f c).setFits set then s
    else match s.evictOne core set (spare c) with
      | some s1 => s1.makeRoom core set spare f fuel
      | none => s

/-- Words to place in one frame, from `lo` on: for each its new contents, and whether the access needs it. -/
structure Fill where
  frame : Nat
  lo : Nat
  words : List VWord
  need : Nat → Bool
  pri : Nat
  predIdx : Option Nat

/-- A block extended to the union of its words and a fill's: those held already keep what they hold, the others take the fill's
contents. It keeps its priority and its predictor entry (DESIGN CHOICE, log entry 88: the manual does not say whose it carries). -/
def Fill.union (f : Fill) (b : Block) (age : Nat) : Block :=
  let hi := Nat.max (b.start + b.words.length) (f.lo + f.words.length)
  let lo := Nat.min b.start f.lo
  let at' (i : Nat) : VWord :=
    match b.get (f.frame * 128 + i) with
    | some v => v
    | none => atD f.words (i - f.lo) { st := .valid, x := 0, written := 0, known := 0 }
  { b with start := lo, words := (List.range (hi - lo)).map fun i => at' (lo + i), age := age }

/-- The runs of a fill that no resident block holds and that the access needs, each as a new block (R125). -/
def Fill.trimmed (f : Fill) (held : Nat → Bool) (age : Nat) : List Block :=
  let b : Block := { frame := f.frame, start := f.lo, words := f.words, pri := f.pri, age := age, predIdx := f.predIdx, touched := 0 }
  (b.pieces (fun w v => if held (w % 128) then none else some v) f.lo f.words).filter fun b =>
    (List.range b.words.length).any fun i => f.need (b.start + i)

/-- A range of words of the fill's frame overlaps or abuts it. -/
def Fill.touches (f : Fill) (frame lo n : Nat) : Bool := frame == f.frame && decide (lo ≤ f.lo + f.words.length ∧ f.lo ≤ lo + n)

/-- The update-only sectors among the resident blocks that a fill overlaps or abuts (R125, R135; DEDUCED, log entry 89). -/
def Core.nearUb (c : Core) (f : Fill) : Bool := c.ub.any fun u => f.touches (u.sector / 16) (u.sector % 16 * 8) 8

/-- The one block that a fill extends, where there is one (R125). -/
def Core.extended (c : Core) (f : Fill) : Option Block :=
  match c.blocks.filter fun b => f.touches b.frame b.start b.words.length with
  | [b] => if c.nearUb f then none else some b
  | _ => none

/-- A fill is placed: an extension of its one neighbour, a new block where it has none, else what is left of it between several (R125). -/
def Core.placeFill (c : Core) (f : Fill) (age : Nat) : Core :=
  match c.extended f with
  | some b => { c with blocks := f.union b age :: c.blocks.filter (fun x => !f.touches x.frame x.start x.words.length) }
  | none =>
    let held (i : Nat) : Bool :=
      (c.view (f.frame * 128 + i)).isSome || c.ub.any fun u => u.sector == f.frame * 16 + i / 8
    if c.nearUb f || c.blocks.any (fun b => f.touches b.frame b.start b.words.length) then
      { c with blocks := f.trimmed held age ++ c.blocks }
    else
      { c with
        blocks := { frame := f.frame, start := f.lo, words := f.words, pri := f.pri, age := age, predIdx := f.predIdx, touched := 0 } ::
          c.blocks }

/-- A fill of a core's view: blocks of its set are evicted until it fits, the one it extends excepted; where nothing is left to evict the
words are not kept (R107, R125, R128). -/
def State.fill (s : State) (core : Nat) (f : Fill) : State :=
  if f.words.isEmpty then s
  else
    let set := l1Set f.frame
    let s1 := s.makeRoom core set (fun c b => (c.extended f).any fun x => x.start == b.start && x.frame == b.frame) (·.placeFill f 0) 80
    if ((s1.coreAt core).placeFill f 0).setFits set then
      let (age, s2) := s1.fresh
      s2.modCore core fun c => c.placeFill f age
    else s1

/-- Blocks of a set are evicted while it holds more than its tags, as a block that was split may leave it (R122). -/
def State.trimSet (s : State) (core set : Nat) : State := s.makeRoom core set (fun _ _ => false) id 80

/-- Every set of a core's L1 is within its tags. -/
def State.trimCore (s : State) (core : Nat) : State :=
  (((s.coreAt core).blocks.map fun b => l1Set b.frame).dedup).foldl (fun s set => s.trimSet core set) s

/-- An access to words of a block makes it the most recent, and marks the sectors accessed (R121, R124). -/
def Core.touch (c : Core) (ws : List Nat) (age : Nat) : Core :=
  { c with blocks := c.blocks.map fun b =>
      let hit := ws.filter fun w => (b.get w).isSome
      if hit.isEmpty then b
      else { b with age := age, touched := hit.foldl (fun m w => m ||| (1#16 <<< (w % 128 / 8))) b.touched } }

/-- The same of a core by number. -/
def State.touchView (s : State) (core : Nat) (ws : List Nat) : State :=
  let (age, s1) := s.fresh
  s1.modCore core fun c => c.touch ws age

/-! ### Spans (R123) -/

/-- Sectors of a span code; none defers (R123). -/
def spanOf (c : BitVec 2) : Option Nat :=
  match c.toNat with
  | 0 => none
  | 1 => some 1
  | 2 => some 4
  | _ => some 16

/-- The span size of a fill and the predictor entry it came from (R123, R124). -/
def spanSize (hint page : BitVec 2) (pred : SMap 8) (pc : VAddr) : Nat × Option Nat :=
  match spanOf hint with
  | some n => (n, none)
  | none =>
    match spanOf page with
    | some n => (n, none)
    | none => (2 ^ predPower pred (predIndex pc), some (predIndex pc))

end Sys2Proof.Machine
end

