-- ==== Sys2Proof/Machine/Layouts.lean ====
section
/-! DEFINITION. How the device's tables, records and save areas are laid out in bits and bytes where they are read or saved: block tags
(R121), directory entries (R132), wait-for entries (R183), records (R215, R217), save areas (R227 to R229), reservations (R355), slices
(R379), barriers and team records (R393, R397), monitors and the core map (R449, R453), the handover table (R456). -/

namespace Sys2Proof.Machine

/-- Fields from the lowest bit up, each with its width. -/
def pack : List (Nat × Nat) → Nat
  | [] => 0
  | (w, x) :: rest => x % 2 ^ w + 2 ^ w * pack rest

/-- A truth value as a bit. -/
def bit (b : Bool) : Nat := if b then 1 else 0

/-! ### Block tags (R121) -/

/-- A block's recency among its set's tags, 0 the most recent (R121, R128). -/
def Core.recency (c : Core) (set age : Nat) : Nat :=
  ((c.blocks.filter fun b => l1Set b.frame == set && decide (age < b.age)).length) +
    (c.ub.filter fun u => l1Set (u.sector / 16) == set && decide (age < u.age)).length

/-- The tag of a span block. -/
def Core.blockTag (c : Core) (b : Block) : Nat :=
  pack [(4, c.recency (l1Set b.frame) b.age), (2, b.pri), (4, 0), (1, 0), (1, 1), (7, b.start + b.words.length - 1), (7, b.start), (43, b.frame)]

/-- The tag of an update-only sector's block. -/
def Core.ubTag (c : Core) (u : UBSector) : Nat :=
  pack [(4, c.recency (l1Set (u.sector / 16)) u.age), (2, u.pri), (4, u.tag), (1, 1), (1, 1), (7, u.sector % 16 * 8 + 7),
    (7, u.sector % 16 * 8), (43, u.sector / 16)]

/-! ### Directory entries (R132) -/

/-- The owner entries of a sector as entry 0 and entry 1: the older one stands in entry 0. -/
def Dir.layout (d : Dir) : Nat :=
  let o (n : Nat) : Owner := atD d.owners n ⟨0, 0⟩
  let e : EngOwn := d.eng.getD ⟨0, 0, 0⟩
  pack [(4, 0), (8, e.mask.toNat), (3, e.eng), (8, e.core), (1, bit d.eng.isSome), (8, (o 0).mask.toNat), (8, (o 0).core), (1, bit (0 < d.owners.length)),
    (8, (o 1).mask.toNat), (8, (o 1).core), (1, bit (1 < d.owners.length)), (1, 0), (1, bit (d.uTag != 0)), (4, d.uTag), (256, d.uhold.toNat)]

/-! ### Wait-for entries (R183) -/

/-- The code of a wait kind (R183). -/
def WaitKind.code : WaitKind → Nat
  | .none => 0
  | .barrier => 1
  | .mask => 2
  | .join => 3
  | .memJoin => 4
  | .word => 5
  | .promise => 6
  | .childGrid => 7

/-- A wait-for table entry. -/
def WaitFor.layout (w : WaitFor) : Nat :=
  let s : GKey × Nat := w.sig.getD (⟨0, 0, 0⟩, 0)
  pack [(9, 0), (1, bit w.sig.isSome), (4, s.2), (4, s.1.slot), (2, s.1.part), (8, s.1.core), (4, w.kind.code), (32, w.since.toNat), (64, w.obj.toNat)]

/-! ### Fault records (R215, R217) -/

/-- The 32 bytes of a record. -/
def FRec.bytes (r : FRec) : List Byte :=
  leBytes r.w0.toNat 4 ++ leBytes r.w1.toNat 4 ++ leBytes r.w23.toNat 8 ++ leBytes r.w45.toNat 8 ++ leBytes r.w6.toNat 4 ++ leBytes r.w7.toNat 4

/-! ### Strand and fork tables (R228, R229) -/

/-- The code of a strand's state (R228). -/
def StrandState.code : StrandState → Nat
  | .ready => 0
  | .parked => 1
  | .joinWait => 2
  | .memJoinWait => 3
  | .faultParked => 4
  | .sleeping => 5
  | .barWait => 6
  | .halted => 7

/-- A strand-table slot in 640 bits; a collapse record with no lane is not valid, and saved as zeros. -/
def Strand.layout (st : Strand) : Nat :=
  pack ([(1, bit st.valid), (57, st.pc.toNat), (32, st.mask.toNat), (4, st.rank.toNat), (2, st.kind.code), (3, st.fork.val), (4, st.state.code)] ++
    ((List.range 8).map fun f => (66, match st.collOf f with | some _ => (smGet st.coll f).toNat | none => 0)) ++ [(8, st.mdone.toNat), (1, 0)])

/-- A fork-table entry in 576 bits. -/
def Fork.layout (f : Fork) : Nat :=
  pack [(1, bit f.busy), (32, f.tmask.toNat), (32, f.fmask.toNat), (4, f.tslot.toNat), (4, f.fslot.toNat), (4, f.lslot.toNat), (1, bit f.tdone), (1, bit f.tend),
    (1, bit f.fdone), (1, bit f.fend), (3, f.pfork.val), (2, f.pside.code), (239, f.tpub.toNat), (239, f.fpub.toNat), (12, 0)]

/-- A state by its code; 8 to 15 never occur (R228). -/
def StrandState.ofCode (n : Nat) (old : StrandState) : StrandState :=
  match n with
  | 0 => .ready
  | 1 => .parked
  | 2 => .joinWait
  | 3 => .memJoinWait
  | 4 => .faultParked
  | 5 => .sleeping
  | 6 => .barWait
  | 7 => .halted
  | _ => old

/-- A strand kind by its code (R20). -/
def StrandKind.ofCode (n : Nat) : StrandKind :=
  match n with
  | 0 => .root
  | 1 => .trueArm
  | 2 => .falseArm
  | _ => .tail

/-- A strand-table slot written from its 640 bits (R205, R228); a strand taken out of a wait waits for nothing. -/
def Strand.ofLayout (st : Strand) (b : BitVec 640) : Strand :=
  let state := StrandState.ofCode (b.extractLsb' 99 4).toNat st.state
  { st with
    valid := b.getLsbD 0, pc := b.extractLsb' 1 57, mask := b.extractLsb' 58 32, rank := b.extractLsb' 90 4
    kind := .ofCode (b.extractLsb' 94 2).toNat, fork := Fin.ofNat 8 (b.extractLsb' 96 3).toNat, state := state
    coll := (List.range 8).foldl (fun m f => smSet m f (b.extractLsb' (103 + 66 * f) 66)) [], mdone := b.extractLsb' 631 8
    wait := if state = st.state then st.wait else WaitFor.empty
    waitOn := if state = st.state then st.waitOn else .none }

/-- A fork-table entry written from its 576 bits (R205, R229). -/
def Fork.ofLayout (f : Fork) (b : BitVec 576) : Fork :=
  { f with
    busy := b.getLsbD 0, tmask := b.extractLsb' 1 32, fmask := b.extractLsb' 33 32, tslot := b.extractLsb' 65 4, fslot := b.extractLsb' 69 4
    lslot := b.extractLsb' 73 4, tdone := b.getLsbD 77, tend := b.getLsbD 78, fdone := b.getLsbD 79, fend := b.getLsbD 80
    pfork := Fin.ofNat 8 (b.extractLsb' 81 3).toNat, pside := .ofCode (b.extractLsb' 84 2).toNat, tpub := b.extractLsb' 86 239
    fpub := b.extractLsb' 325 239 }

/-! ### Pending writes (R206) -/

/-- The PC of the instruction a pending mark names. -/
def Gang.pcOf (g : Gang) (mark : BitVec 64) : VAddr := ((g.pcs.find? fun p => p.1 == pendSeq mark).map (·.2)).getD 0

/-- Every pending bit of a gang with the PC of the instruction that will write it: a vector register or a predicate (192 and up) with
its lane, a scalar register (R206). -/
def Gang.pendingWrites (g : Gang) : List (Nat × Nat × VAddr) :=
  (g.pendV.map fun e => (e.1 / 32, e.1 % 32, g.pcOf e.2)) ++ (g.pendP.map fun e => (192 + e.1 / 32, e.1 % 32, g.pcOf e.2)) ++
    ((g.pendS.map fun e => (256 + e.1 / 32, 0, g.pcOf e.2)).dedup)

/-! ### Reservations, slices, matrix commands (R355, R379, R227) -/

/-- A reservation record in 256 bits. -/
def Resv.layout (r : Resv) : Nat :=
  pack [(1, 1), (21, 0), (1, bit r.shr), (3, r.id.val), (11, r.off), (12, r.len), (6, r.g.part * 16 + r.g.slot), (5, r.fmt.toNat),
    (8, if (blockOf r.fmt.toNat).isSome then 128 else 0), (16, r.pitch), (20, r.soff), (152, 0)]

/-- A stream of a slice in 48 bytes. -/
def Stream.bytes (t : Stream) : List Byte :=
  leBytes t.base.toNat 8 ++ t.strides.flatMap (fun x => leBytes x.toNat 4) ++ leBytes t.vmask.toNat 4 ++
    leBytes (match t.ty with | some ty => ty.mod.toNat | none => 0) 1 ++ leBytes (bit t.ty.isSome + 2 * bit t.sp) 1 ++ leBytes 0 14 ++ leBytes 0 (20 - 4 * t.strides.length)

/-- A slice's state in 256 bytes. -/
def Slice.bytes (x : Slice) : List Byte :=
  x.trips.flatMap (fun n => leBytes n.toNat 4) ++ x.idx.flatMap (fun n => leBytes n.toNat 4) ++ x.streams.flatMap Stream.bytes ++
    leBytes (bit x.running + 2 * bit x.stopped) 4 ++ leBytes 0 28

/-- A matrix-queue command: 128 bytes of command, then 16 of progress, zero for any but the head (R227). -/
def MCmd.bytes (head : Bool) (c : MCmd) : List Byte :=
  let prog (x : Nat) : Nat := if head then x else 0
  let last (k : Nat) : List Byte := leBytes k 1
  match c.kind with
  | .mma => (c.blk ++ List.replicate (128 - c.blk.length) 0).take 128 ++ leBytes (prog c.tile) 4 ++ leBytes (prog c.kstep) 4 ++ leBytes (prog c.rows) 1 ++
      leBytes 0 6 ++ last 0
  | .obld | .obst =>
    leBytes c.base 8 ++ leBytes c.vs 4 ++ leBytes c.vsh.toNat 4 ++ leBytes c.toff 4 ++ leBytes c.res.val 1 ++ leBytes (bit c.sp) 1 ++ leBytes 0 106 ++
      leBytes (prog c.rows) 4 ++ leBytes 0 11 ++ last (if c.kind = .obld then 1 else 2)

/-! ### Save areas (R227) -/

/-- The header of a save area. -/
def Gang.header (g : Gang) : List Byte :=
  leBytes 1 4 ++ leBytes g.ctxField.toNat 2 ++ leBytes g.key.core 1 ++ leBytes (g.key.slot * 16 + g.key.part) 1 ++ leBytes g.ageStamp.toNat 8 ++
    leBytes g.gangId.toNat 4 ++ leBytes g.nregs 4 ++ leBytes g.fpflags.toNat 4 ++ leBytes g.maxabs.toNat 4 ++ leBytes g.promise.toNat 8 ++
    leBytes g.live.toNat 4 ++ leBytes g.ssn.toNat 2 ++ leBytes (bit g.halted + 2 * bit g.trapParked) 1 ++ leBytes 0 17

/-- The predicates of a lane in bits 46:0. -/
def Gang.predBits (g : Gang) (l : Nat) : Nat := pack ((List.range 47).map fun n => (1, bit ((smGet g.p n).getLsbD l)))

/-- The pending bits of a lane: vector registers, then predicates. -/
def Gang.pendBits (g : Gang) (l : Nat) : Nat :=
  pack (((List.range 192).map fun n => (1, bit (smGet g.pendV (n * 32 + l) != 0 || smGet g.pendX (n * 32 + l) != 0))) ++
    (List.range 47).map fun n => (1, bit (smGet g.pendP (n * 32 + l) != 0)))

/-- A feed queue: its count, then sixteen entries of one value per lane. -/
def FeedQ.bytes (q : FeedQ) : List Byte :=
  leBytes q.entries.length 4 ++ leBytes 0 60 ++
    (List.range 16).flatMap fun n => (List.range 32).flatMap fun l => leBytes (smGet (atD q.entries n []) l).toNat 4

/-- A strand's wait record: the wake cycle of a sleeping strand, an outstanding MMAWAIT (R227, R367). -/
def Strand.waitRecord (st : Strand) : List Byte :=
  let wake : DWord := if st.state = .sleeping then (match st.waitOn with | .wake c | .promise c => c | _ => 0) else 0
  leBytes wake.toNat 8 ++
    (match st.mmaWait with
     | some w => leBytes w.d.code.toNat 1 ++ leBytes 1 1 ++ leBytes 0 2 ++ leBytes w.target.toNat 4
     | none => leBytes 0 8)

/-- A saved gang's area (R227). -/
def Saved.bytes (v : Saved) : List Byte :=
  let g := v.gang
  List.flatten
    [g.header, (List.range g.nregs).flatMap fun n => (List.range 32).flatMap fun l => leBytes (g.vr n l).toNat 4,
     (List.range 32).flatMap fun l => leBytes (g.predBits l) 8, (List.range 64).flatMap fun n => leBytes (smGet g.s n).toNat 8,
     (List.range 16).flatMap fun n => leBytes (if n < 12 then (smGet g.m n).toNat else 0) 4,
     (List.range 16).flatMap fun k => leBytes (g.strandAt k).layout 80, (List.range 8).flatMap fun f => leBytes (g.forkAt f).layout 72,
     (List.range 32).flatMap fun l => leBytes (g.pendBits l) 32,
     leBytes (pack ((List.range 63).map fun n => (1, bit (g.pendS.any fun e => e.1 / 32 == n)))) 8,
     (List.range 4).flatMap fun n => leBytes (smGet g.cq n).toNat 8, leBytes g.cqWritten.toNat 24,
     (List.range 4).flatMap fun n => (match g.mq[n]? with | some c => c.bytes (n == 0) | none => leBytes 0 144),
     g.fq.flatMap FeedQ.bytes, g.slice.bytes, (List.range 16).flatMap fun k => (g.strandAt k).waitRecord,
     leBytes g.mCompleted.toNat 4, leBytes g.mIssued.toNat 4, leBytes 0 8, leBytes v.resv.length 64,
     v.resv.flatMap fun p => leBytes p.1.layout 32 ++ p.2]

/-! ### Barriers and team records (R393, R397) -/

/-- The code of a barrier's kind. -/
def BarKind.code : BarKind → Nat
  | .idle => 0
  | .hardCount => 1
  | .hardAll => 2
  | .soft => 3

/-- A barrier in 1,152 bits. -/
def Bar.layout (b : Bar) : Nat :=
  pack [(8, 0), (2, b.kind.code), (11, b.count), (11, b.expect), (32, b.inst.toNat), (64, b.deadline.toNat), (1024, b.arrived.toNat)]

/-- A pre-empted team's record: its barriers, then the counters of its gangs (R397, R410). -/
def Team.bytes (t : Team) : List Byte :=
  let counters (n : Nat) : List Byte :=
    match t.saved.find? fun v => v.gang.gangId.toNat == n with
    | some v => (List.range 4).flatMap fun k => leBytes (smGet v.gang.perf k).toNat 8
    | none => leBytes 0 32
  (t.bars.flatMap fun b => leBytes b.layout 144) ++ (List.range 32).flatMap counters

/-! ### Monitors, core map, links, pages, handover (R149, R447, R449, R453, R456) -/

/-- A die's monitor register; PROC is fused at test, a value the manual does not give (R449; assumption 22). -/
def State.monitor (s : State) (die : Nat) : Nat :=
  pack [(8, 0), (8, s.pstate), (16, atD s.tmax die 0), (16, atD s.volt die 0), (16, (Config.processCode die).toNat)]

/-- The physical coordinate of a logical core: the site of its die, by the enable mask (R453). -/
def State.siteOf (s : State) (core : Nat) : Nat :=
  let m := atD s.enable (core / 64) 0
  let sites := (List.range 72).filter fun k => m.getLsbD k
  let site := atD sites (core % 64) 0
  core / 64 * 256 + site / 8 * 16 + site % 8

/-- The core map: the coordinate of each of the 256 logical cores (R453). -/
def State.coreMap (s : State) : List Nat := (List.range 256).map s.siteOf

/-- A link's status register (R447). -/
def Link.layout (l : Link) : Nat := pack [(3, l.state), (4, l.lanes), (9, l.peer), (16, l.tdrop.toNat), (32, l.replay.toNat)]

/-- A page-directory entry (R149). -/
def PageDir.layout (d : PageDir) : Nat := pack [(20, d.xfer), (1, bit d.relrec), (9, d.owner), (2, d.st)]

/-- The handover table's 256 bytes; the addresses in service-die memory are Grotto's choice (R456; assumption 22). -/
def Handover.bytes (h : Handover) : List Byte :=
  let addr (k n : Nat) : List Byte := leBytes (Config.serviceAddr k).toNat n
  leBytes 0x4B334844 4 ++ leBytes 1 4 ++ leBytes h.clock.toNat 8 ++ leBytes h.digest.toNat 64 ++ leBytes h.contexts 4 ++ leBytes h.images 4 ++
    addr 0 8 ++ addr 1 8 ++ leBytes h.faultPos 8 ++ leBytes h.storePos 8 ++ leBytes h.logSeq.toNat 8 ++
    (List.range 32).flatMap fun n => addr (n + 2) 4

end Sys2Proof.Machine
end

