-- ==== Sys2Proof/Machine/Sync.lean ====
section
/-! DEFINITION. Meanings of the mask instructions, the team barriers and the lane operations (R389 to R403), and what
completing a barrier instance does. -/

namespace Sys2Proof.Machine

open Host (Outcome)

/-! ### Mask registers (R389 to R392) -/

/-- A mask register (R389). -/
def Gang.maskReg (g : Gang) (k : Nat) : Word := smGet g.m k

/-- Whether MWAIT's condition holds (R391). -/
def maskMet (set : Bool) (m sel : Word) : Bool := if set then m &&& sel == sel else m &&& sel == 0

/-- Strands waiting on mask register `k` whose condition now holds go on, from cycle `c` on (R391, R392). -/
def Gang.recheckMask (g : Gang) (c : DWord) (k : Nat) : Gang :=
  (List.range 16).foldl (fun g j =>
    match (g.strandAt j).waitOn with
    | .mask set k' sel => if k' = k && maskMet set (g.maskReg k) sel then g.wake c j else g
    | _ => g) g

/-- A mask register takes a value, never holding the bit of a lane that is not live (R389, R391). -/
def Gang.setMaskReg (g : Gang) (c : DWord) (k : Nat) (x : Word) : Gang :=
  { g with m := smSet g.m k (x &&& g.live) }.recheckMask c k

/-- MJOIN and MLEAVE wait as a memory access in a tail does, and for the threads' earlier accesses (R116, R392). -/
def maskGate (k : Nat) : LaneMask → State → Option State := bothGates memJoinGate (settleGate .mask k fun _ => none)

/-- MJOIN (R391). -/
def execMjoin (h : Hdr) (k : Fin 12) (s : State) : Outcome State Fault Refusal :=
  issue (.mjoin h k) (maskGate k.val) (fun part s =>
    .done (if part = 0 then s else s.modCur fun g => g.setMaskReg (s.clock + 2) k.val (g.maskReg k.val ||| part))) s

/-- MLEAVE (R391). -/
def execMleave (h : Hdr) (k : Fin 12) (s : State) : Outcome State Fault Refusal :=
  issue (.mleave h k) (maskGate k.val) (fun part s =>
    .done (if part = 0 then s else s.modCur fun g => g.setMaskReg (s.clock + 2) k.val (g.maskReg k.val &&& ~~~ part))) s

/-- The strand a mask wait's signaller is: the lowest-ranked strand holding the lowest lane still awaited (R184, R392). -/
def Gang.maskSignaller (g : Gang) (awaited : Word) : Option Nat :=
  match lowLane awaited with
  | none => none
  | some l =>
    let c := g.strands.zipIdx.filter fun p => p.1.valid && p.1.mask.getLsbD l
    (c.foldl (fun best p => match best with
      | some (r, j) => if p.1.rank.toNat < r then some (p.1.rank.toNat, p.2) else some (r, j)
      | none => some (p.1.rank.toNat, p.2)) (none : Option (Nat × Nat))).map (·.2)

/-- The bits MWAIT still awaits (R392). -/
def maskAwaited (set : Bool) (m sel : Word) : Word := if set then sel &&& ~~~ m else m &&& sel

/-- MWAIT: goes on where its condition holds, otherwise waits past itself until a change of the register makes it hold
(R391). -/
def execMwait (h : Hdr) (set : Bool) (k : Fin 12) (b : Src) (s : State) : Outcome State Fault Refusal :=
  issue (.mwait h set k b) noGate (fun part s =>
    match lowLane part with
    | none => .done s
    | some l =>
      let sel := s.cur.rdSrc32 b l
      let m := s.cur.maskReg k.val
      if maskMet set m sel then .done s
      else .done (s.waitStrand .barWait .mask (BitVec.ofNat 64 k.val)
        ((s.cur.maskSignaller (maskAwaited set m sel)).map fun j => (s.cur.key, j)) (.mask set k.val sel))) s

/-- MSET: the value ANDed with the gang's live lanes (R389, R391). -/
def execMset (h : Hdr) (k : Fin 12) (b : Src) (s : State) : Outcome State Fault Refusal :=
  issue (.mset h k b) memJoinGate (fun part s =>
    match lowLane part with
    | none => .done s
    | some l => .done (s.modCur fun g => g.setMaskReg (s.clock + 2) k.val (g.rdSrc32 b l))) s

/-- MGET (R391). -/
def execMget (h : Hdr) (d : Reg) (k : Fin 12) (s : State) : Outcome State Fault Refusal :=
  lanewise (.mget h d k) false d (fun g _ => (g.maskReg k.val).setWidth 64) s

/-! ### Barriers (R393 to R397) -/

/-- A gang's threads as bits of ARRIVED (R12, R393). -/
def threadBits (g : Gang) (lanes : LaneMask) : BitVec 1024 := (lanes.setWidth 1024) <<< (g.gangId.toNat * 32)

/-- The live threads of a team (R395). -/
def State.liveThreads (s : State) (k : TKey) : Nat := ((s.teamGangs k).map fun g => laneCount g.live).sum

/-- The barrier of the issuing team. -/
def State.barAt (s : State) (k : TKey) (n : Nat) : Bar :=
  match s.teamAt k with
  | some t => atD t.bars n Bar.empty
  | none => Bar.empty

/-- Change a barrier of a team. -/
def State.modBar (s : State) (k : TKey) (n : Nat) (f : Bar → Bar) : State :=
  s.modTeam k fun t => { t with bars := modAt t.bars n f }

/-- Strands of a gang that wait on the completed instance go on, from cycle `c` on; those of a soft instance receive its arrivals (R395 to
R397). -/
def Gang.releaseBar (c : DWord) (n : Nat) (tok : Word) (count : Nat) (g : Gang) : Gang :=
  (List.range 16).foldl (fun g j =>
    match (g.strandAt j).waitOn with
    | .bar n' tok' => if n' = n && tok' == tok then g.wake c j else g
    | .sbar n' tok' d lanes seq =>
      if n' = n && tok' == tok then
        (g.wrLate (seq + 1) d lanes (BitVec.ofNat 32 count)).wake c j
      else g
    | _ => g) g

/-- The lateness counts after a hard instance completed by an arrival of gang `by` (R168). -/
def lateAfter (b : Bar) (by' : Word) (g : Gang) : Nat :=
  if g.gangId == by' then Nat.min 15 (g.lateness + 2)
  else if b.arrived &&& threadBits g (BitVec.allOnes 32) != 0 then g.lateness - 1 else g.lateness

/-- The open instance completes: INSTANCE + 1, ARRIVED, COUNT and KIND 0 (R395), every departure goes on, and the urgency
counts change where an arrival completed a hard instance (R168). -/
def State.completeBar (s : State) (k : TKey) (n : Nat) (by' : Option Word) : State :=
  let b := s.barAt k n
  let s1 := s.modBar k n fun b => { b with inst := b.inst + 1, arrived := 0, count := 0, kind := .idle }
  let s2 := s1.modTeamGangs k (Gang.releaseBar (s.clock + 2) n b.inst b.count)
  match by' with
  | some w =>
    if b.kind == .soft then s2 else s2.modGangs (fun g => g.team == k) fun g => { g with lateness := lateAfter b w g }
  | none => s2

/-- An instance whose arrivals suffice completes. -/
def State.checkBar (s : State) (k : TKey) (n : Nat) (by' : Option Word) : State :=
  let b := s.barAt k n
  if b.kind != .idle && decide (b.expect ≤ b.count) then s.completeBar k n by' else s

/-- The conditions on which BAR and BARA trap (R395). -/
def arrivalBad (s : State) (b : Bar) (n : Nat) (part : LaneMask) : Bool :=
  let threads := match s.teamAt s.cur.team with | some t => t.threads | none => 0
  decide (threads < n) || b.arrived &&& threadBits s.cur part != 0 || b.kind == .soft ||
    (b.kind == .hardCount && n == 0) || (b.kind == .hardAll && n != 0) || (b.kind == .hardCount && n != b.expect)

/-- An arrival of the threads of Part at a hard instance, opening one where none is open (R395). -/
def State.arrive (s : State) (k : Nat) (n : Nat) (part : LaneMask) : State :=
  let live := s.liveThreads s.cur.team
  let bits := threadBits s.cur part
  let s1 := s.modBar s.cur.team k fun b =>
    let b1 := if b.kind == .idle then
        { b with kind := if n = 0 then .hardAll else .hardCount, expect := if n = 0 then live else n } else b
    { b1 with arrived := b1.arrived ||| bits, count := b1.count + laneCount part }
  s1.checkBar s.cur.team k (some s.cur.gangId)

/-- The signaller of a barrier wait: the lowest-ranked strand of the lowest-GANGID gang not yet arrived (R184). -/
def State.barSignaller (s : State) (k : TKey) (b : Bar) : Option (GKey × Nat) :=
  let late := (s.teamGangs k).filter fun g => g.live != 0 && b.arrived &&& threadBits g g.live != threadBits g g.live
  let g := late.foldl (fun best g => match best with
    | some (h : Gang) => if g.gangId.toNat < h.gangId.toNat then some g else some h
    | none => some g) none
  g.bind fun g =>
    ((g.strands.zipIdx.filter fun p => p.1.valid).foldl (fun best p => match best with
      | some (r, j) => if p.1.rank.toNat < r then some (p.1.rank.toNat, p.2) else some (r, j)
      | none => some (p.1.rank.toNat, p.2)) (none : Option (Nat × Nat))).map fun p => (g.key, p.2)

/-- The strand waits while the instance is the one named (R395). -/
def State.waitBar (s : State) (k : Nat) (tok : Word) (on : WaitOn) : State :=
  let b := s.barAt s.cur.team k
  if b.inst == tok then
    s.waitStrand .barWait .barrier (BitVec.ofNat 64 k) (s.barSignaller s.cur.team b) on
  else s

/-- Arrivals wait as a memory access in a tail does, and for the threads' earlier accesses (R116, R397). -/
def arriveGate (k : Nat) : LaneMask → State → Option State := bothGates memJoinGate (settleGate .barrier k fun s => s.barSignaller s.cur.team (s.barAt s.cur.team k))

/-- BAR (R395). -/
def execBar (h : Hdr) (k : Fin 16) (count : Reg) (s : State) : Outcome State Fault Refusal :=
  issue (.bar h k count) (arriveGate k.val) (fun part s =>
    match lowLane part with
    | none => .done s
    | some l =>
      let n := (s.cur.rd32 count l).toNat
      let b := s.barAt s.cur.team k.val
      if arrivalBad s b n part then .trap (.form part)
      else .done ((s.arrive k.val n part).waitBar k.val b.inst (.bar k.val b.inst))) s

/-- BARA: an arrival that does not wait; the token names the instance (R395). -/
def execBara (h : Hdr) (d : Reg) (k : Fin 16) (count : Reg) (s : State) : Outcome State Fault Refusal :=
  issue (.bara h d k count) (arriveGate k.val) (fun part s =>
    match lowLane part with
    | none => .done s
    | some l =>
      let n := (s.cur.rd32 count l).toNat
      let b := s.barAt s.cur.team k.val
      if arrivalBad s b n part then .trap (.form part)
      else .done ((s.arrive k.val n part).modCur fun g => g.wr32 d part fun _ => b.inst)) s

/-- BARW: departs from the instance its token names (R395). -/
def execBarw (h : Hdr) (k : Fin 16) (a : Reg) (s : State) : Outcome State Fault Refusal :=
  issue (.barw h k a) noGate (fun part s =>
    match lowLane part with
    | none => .done s
    | some l => .done (s.waitBar k.val (s.cur.rd32 a l) (.bar k.val (s.cur.rd32 a l)))) s

/-- SBAR: arrives at a soft instance, opening one where none is open, and waits for its release (R396). -/
def execSbar (h : Hdr) (d : Reg) (k : Fin 16) (a b : Reg) (s : State) : Outcome State Fault Refusal :=
  issue (.sbar h d k a b) (arriveGate k.val) (fun part s =>
    match lowLane part with
    | none => .done s
    | some l =>
      let n := (s.cur.rd32 a l).toNat
      let budget := s.cur.rd32 b l
      let bar := s.barAt s.cur.team k.val
      if n = 0 ∨ 1024 < n ∨ bar.kind = .hardCount ∨ bar.kind = .hardAll ∨ (bar.kind = .soft ∧ n ≠ bar.expect) ∨
          bar.arrived &&& threadBits s.cur part ≠ 0 then .trap (.form part)
      else
        let bits := threadBits s.cur part
        let s1 := s.modBar s.cur.team k.val fun b' =>
          let b1 := if b'.kind == .idle then
              { b' with
                kind := .soft, expect := n
                deadline := if budget = 0 then 0 else s.clock + budget.setWidth 64 } else b'
          { b1 with arrived := b1.arrived ||| bits, count := b1.count + laneCount part }
        let s2 := s1.waitBar k.val bar.inst (.sbar k.val bar.inst d part s.cur.issueSeq)
        .done (s2.checkBar s.cur.team k.val (some s.cur.gangId))) s

/-! ### Lane operations (R52, R53, R398 to R403) -/

/-- VOTE (R399). -/
def execVote (h : Hdr) (dst : VoteDst) (pa : PSrc) (s : State) : Outcome State Fault Refusal :=
  computing (.vote h dst pa) (fun part g =>
    let yes := part &&& g.psrc pa
    match dst with
    | .ballot d => g.wr32 d part fun _ => yes
    | .count d => g.wr32 d part fun _ => BitVec.ofNat 32 (laneCount yes)
    | .any pd => g.wrP pd.val part (if yes = 0 then 0 else BitVec.allOnes 32)
    | .all pd => g.wrP pd.val part (if yes = part then BitVec.allOnes 32 else 0)) s

/-- The source lane of SHFL for a receiving lane; none outside 0 to 31 (R400). -/
def shflLane (mode : ShflMode) (k : Word) (l : Nat) : Option Nat :=
  match mode with
  | .lane => if k.toNat < 32 then some k.toNat else none
  | .near =>
    let n := (l : Int) + (k.extractLsb' 0 8 : BitVec 8).toInt
    if 0 ≤ n ∧ n < 32 then some n.toNat else none
  | .rot => some ((l + k.toNat % 32) % 32)
  | .xor =>
    let n := (BitVec.ofNat 32 l ^^^ k).toNat
    if n < 32 then some n else none

/-- SHFL: sources are the strand's active lanes whatever their guard; any other source gives the fill (R53, R400). -/
def execShfl (h : Hdr) (mode : ShflMode) (ty : ShTy) (d a : Reg) (b : Src) (fill : Reg) (s : State) :
    Outcome State Fault Refusal :=
  issue (.shfl h mode ty d a b fill) noGate (fun part s =>
    let act := s.strand.mask
    .done (s.modCur fun g => g.wr32 d part fun l =>
      match shflLane mode (g.rdSrc32 b l) l with
      | some n => if act.getLsbD n then g.rd32 a n else g.rd32 fill l
      | none => g.rd32 fill l)) s

/-- MATCH (R401). -/
def execMatch (h : Hdr) (all : Bool) (ty : MatTy) (d a : Reg) (s : State) : Outcome State Fault Refusal :=
  computing (.matchI h all ty d a) (fun part g =>
    let same (l : Nat) : LaneMask := maskOf fun n => part.getLsbD n && g.rd ty.wide a n == g.rd ty.wide a l
    g.wr32 d part fun l => if all then (if same l = part then part else 0) else same l) s

/-- The integer operations of REDUX on the values of two participants (R402). -/
def reduxInt (op : Fin 6) (sgn : Bool) (a b : Word) : Word :=
  let lt : Bool := if sgn then a.slt b else a.ult b
  match op.val with
  | 0 => a + b
  | 1 => if lt then a else b
  | 2 => if lt then b else a
  | 3 => a &&& b
  | 4 => a ||| b
  | _ => a ^^^ b

/-- ELECT: the lowest lane of Part (R403). -/
def execElect (h : Hdr) (dst : ElectDst) (s : State) : Outcome State Fault Refusal :=
  computing (.elect h dst) (fun part g =>
    match lowLane part with
    | none => g
    | some n =>
      match dst with
      | .pred pd => g.wrP pd.val part (laneBit n)
      | .id d => g.wr32 d part fun _ => BitVec.ofNat 32 n) s

end Sys2Proof.Machine
end

