-- ==== Sys2Proof/Machine/Float.lean ====
section
/-! DEFINITION. Meanings of the floating-point, special-function, conversion, packing and packed-product instructions, the
status registers, fused groups (R302 to R326) and REDUX (R402): opcodes 0x040 to 0x09D. -/

namespace Sys2Proof.Machine

open Host (Outcome)

/-! ### Arithmetic (R304 to R310) -/

/-- The bits of a floating operand in a lane after its modifiers and .ftz (R61, R302). -/
def fopBits (wide ftz : Bool) (a : FOp) (g : Gang) (l : Nat) : Nat :=
  flushIn (ftyFmt wide) ftz (modBits (ftyFmt wide) a.neg a.abs (g.rd wide a.r l).toNat)

/-- A floating result with flags in each lane of Part: the register is written and FPFLAGS ORed (R64). -/
def Gang.fwrite (g : Gang) (wide : Bool) (d : Reg) (part : LaneMask) (res : Nat → Nat × Word) : Gang :=
  (g.wr wide d part fun l => BitVec.ofNat 64 (res l).1).orFlags (flagsOver part fun l => (res l).2)

/-- The result of FADD, FSUB, FMUL in a lane (R305). -/
def farithRes (f : FFmt → RM → Nat → Nat → Nat × Word) (o : FArith) (g : Gang) (l : Nat) : Nat × Word :=
  flushOut (ftyFmt o.ty.wide) o.ftz
    (f (ftyFmt o.ty.wide) o.rm (fopBits o.ty.wide o.ftz o.a g l) (fopBits o.ty.wide o.ftz o.b g l))

/-- a − b: b's sign is inverted after its modifiers (R305). -/
def subBits (f : FFmt) (rm : RM) (a b : Nat) : Nat × Word :=
  match f.value b with
  | .nan _ => addBits f rm a b
  | _ => addBits f rm a (modBits f true false b)

/-- The result of FFMA in a lane (R305). -/
def ffmaRes (o : FArith) (negc : Bool) (c : Reg) (g : Gang) (l : Nat) : Nat × Word :=
  flushOut (ftyFmt o.ty.wide) o.ftz
    (fmaBits (ftyFmt o.ty.wide) o.rm (fopBits o.ty.wide o.ftz o.a g l) (fopBits o.ty.wide o.ftz o.b g l)
      (fopBits o.ty.wide o.ftz ⟨c, negc, false⟩ g l))

/-- The result of FMIN and FMAX in a lane (R306). -/
def fminmaxRes (isMax : Bool) (o : FMinMax) (g : Gang) (l : Nat) : Nat × Word :=
  minMaxBits (ftyFmt o.ty.wide) isMax o.nan (fopBits o.ty.wide o.ftz o.a g l) (fopBits o.ty.wide o.ftz o.b g l)

/-- FADD over Part. -/
def faddG (o : FArith) (part : LaneMask) (g : Gang) : Gang := g.fwrite o.ty.wide o.d part (farithRes addBits o g)

/-- FMUL over Part. -/
def fmulG (o : FArith) (part : LaneMask) (g : Gang) : Gang := g.fwrite o.ty.wide o.d part (farithRes mulBits o g)

/-- FFMA over Part. -/
def ffmaG (o : FArith) (negc : Bool) (c : Reg) (part : LaneMask) (g : Gang) : Gang :=
  g.fwrite o.ty.wide o.d part (ffmaRes o negc c g)

/-- FMIN or FMAX over Part. -/
def fminmaxG (isMax : Bool) (o : FMinMax) (part : LaneMask) (g : Gang) : Gang :=
  g.fwrite o.ty.wide o.d part (fminmaxRes isMax o g)

/-- FADD (R305). -/
def execFadd (o : FArith) (s : State) : Outcome State Fault Refusal := computing (.fadd o) (faddG o) s

/-- FSUB (R305). -/
def execFsub (o : FArith) (s : State) : Outcome State Fault Refusal :=
  computing (.fsub o) (fun part g => g.fwrite o.ty.wide o.d part (farithRes subBits o g)) s

/-- FMUL (R305). -/
def execFmul (o : FArith) (s : State) : Outcome State Fault Refusal := computing (.fmul o) (fmulG o) s

/-- FFMA (R305). -/
def execFfma (o : FArith) (negc : Bool) (c : Reg) (s : State) : Outcome State Fault Refusal :=
  computing (.ffma o negc c) (ffmaG o negc c) s

/-- FMIN (R306). -/
def execFmin (o : FMinMax) (s : State) : Outcome State Fault Refusal := computing (.fmin o) (fminmaxG false o) s

/-- FMAX (R306). -/
def execFmax (o : FMinMax) (s : State) : Outcome State Fault Refusal := computing (.fmax o) (fminmaxG true o) s

/-- FCMP (R307). -/
def execFcmp (h : Hdr) (ty : FTy) (ftz : Bool) (cc : Fin 14) (pd : Fin 48) (a b : FOp) (s : State) :
    Outcome State Fault Refusal :=
  computing (.fcmp h ty ftz cc pd a b) (fun part g =>
    let v (x : FOp) (l : Nat) : XVal := (ftyFmt ty.wide).value (fopBits ty.wide ftz x g l)
    (g.wrP pd.val part (truthMask fun l => fccHolds cc.val ((v a l).cmp (v b l)))).orFlags
      (flagsOver part fun l =>
        flagIf ((v a l).isSig || (v b l).isSig || (fccSignals cc.val && ((v a l).isNan || (v b l).isNan))) flNV)) s

/-- FSEL (R308). -/
def execFsel (h : Hdr) (ty : FTy) (d a b : Reg) (pc : PSrc) (s : State) : Outcome State Fault Refusal :=
  lanewise (.fsel h ty d a b pc) ty.wide d
    (fun g l => if (g.psrc pc).getLsbD l then g.rd ty.wide a l else g.rd ty.wide b l) s

/-- FCLASS: a 32-bit mask of one bit (R308). -/
def execFclass (h : Hdr) (ty : FTy) (d a : Reg) (s : State) : Outcome State Fault Refusal :=
  lanewise (.fclass h ty d a) false d
    (fun g l => BitVec.ofNat 64 (2 ^ classBit (ftyFmt ty.wide) (g.rd ty.wide a l).toNat)) s

/-- FRND (R309). -/
def execFrnd (o : FUn) (s : State) : Outcome State Fault Refusal :=
  computing (.frnd o) (fun part g => g.fwrite o.ty.wide o.d part fun l =>
    frndBits (ftyFmt o.ty.wide) o.rm (fopBits o.ty.wide o.ftz o.a g l)) s

/-- FSCALE (R310). -/
def execFscale (o : FUn) (n : Reg) (s : State) : Outcome State Fault Refusal :=
  computing (.fscale o n) (fun part g => g.fwrite o.ty.wide o.d part fun l =>
    flushOut (ftyFmt o.ty.wide) o.ftz
      (fscaleBits (ftyFmt o.ty.wide) o.rm (fopBits o.ty.wide o.ftz o.a g l) (g.rd32 n l).toInt)) s

/-! ### Special functions (R312) -/

/-- The writes of a 32-bit result in the lanes of Part: each lane of a vector register, or the lowest lane's value in a
scalar register with bits 63:32 cleared (R45). -/
def resultWrites (d : Reg) (part : LaneMask) (x : Nat → Word) : List RegWrite :=
  match d with
  | .v n => (lanesOf part).map fun l => .v n.val l (x l)
  | .s n => (match lowLane part with | some l => [.s n.val ((x l).setWidth 64)] | none => [])
  | .zr => []

/-- A variable-latency result starts: its register is pending in the lanes of Part and the result is on its way back
(R48). -/
def State.launchResult (s : State) (d : Reg) (n : Nat) (part : LaneMask) (ws : List RegWrite) (flags : Word)
    (sfu : Bool) : State :=
  let (id, s1) := s.fresh
  let seq := s.cur.issueSeq
  let k := s.curStrand
  let s2 := s1.modCur fun g => g.markPend d n s.strand.mask part (pendMark seq k)
  s2.modMyCore fun c =>
    { c with
      inflight := c.inflight ++ [{ id := id, g := s.cur.key, strand := k, writes := ws, flags := flags, seq := seq, sfu := sfu }] }

/-- A special function issues (R312). -/
def sfuIssue (i : Instr) (o : Sfu) (f : RM → Nat → Nat × Word) (s : State) : Outcome State Fault Refusal :=
  issue i noGate (fun part s =>
    if part = 0 then .done s
    else
      let res (l : Nat) : Nat × Word := flushOut f32 o.ftz (f o.rm (fopBits false o.ftz o.a s.cur l))
      .done (s.launchResult o.d 1 part (resultWrites o.d part fun l => BitVec.ofNat 32 (res l).1)
        (flagsOver part fun l => (res l).2) true)) s

/-- RCP (R66, R312). -/
def execRcp (o : Sfu) (s : State) : Outcome State Fault Refusal := sfuIssue (.rcp o) o rcpBits s

/-- RSQ (R66, R312). -/
def execRsq (o : Sfu) (s : State) : Outcome State Fault Refusal := sfuIssue (.rsq o) o (fun _ => sfuBits .rsq) s

/-- SQRT (R66, R312). -/
def execSqrt (o : Sfu) (s : State) : Outcome State Fault Refusal := sfuIssue (.sqrt o) o sqrtBits s

/-- EXP2 (R66, R312). -/
def execExp2 (o : Sfu) (s : State) : Outcome State Fault Refusal := sfuIssue (.exp2 o) o (fun _ => sfuBits .exp2) s

/-- LOG2 (R66, R312). -/
def execLog2 (o : Sfu) (s : State) : Outcome State Fault Refusal := sfuIssue (.log2 o) o (fun _ => sfuBits .log2) s

/-- SIN (R66, R312). -/
def execSin (o : Sfu) (s : State) : Outcome State Fault Refusal := sfuIssue (.sin o) o (fun _ => sfuBits .sin) s

/-- COS (R66, R312). -/
def execCos (o : Sfu) (s : State) : Outcome State Fault Refusal := sfuIssue (.cos o) o (fun _ => sfuBits .cos) s

/-- TANH (R66, R312). -/
def execTanh (o : Sfu) (s : State) : Outcome State Fault Refusal := sfuIssue (.tanh o) o (fun _ => sfuBits .tanh) s

/-- SIGM (R66, R312). -/
def execSigm (o : Sfu) (s : State) : Outcome State Fault Refusal := sfuIssue (.sigm o) o (fun _ => sfuBits .sigm) s

/-! ### Conversions (R315 to R319) -/

/-- Elements of a width in one register (R314). -/
def slotCount (w : Nat) : Nat :=
  match w with
  | 64 => 1
  | 32 => 1
  | 16 => 2
  | 8 => 4
  | 6 => 4
  | 4 => 8
  | _ => 16

/-- Slot `i` of a format with the .x2 conditions of R316. -/
def slotOk (w i : Nat) (x2 : Bool) : Bool :=
  decide (i < slotCount w) && (!x2 || (w != 64 && i % 2 == 0 && (w == 32 || decide (i + 1 < slotCount w))))

/-- A register is an odd vector register. -/
def oddV : Reg → Bool
  | .v n => n.val % 2 == 1
  | _ => false

/-- The entry's own checks in the order of R316: items 1 to 6, and 7 and 8 by `last`. -/
def cvtOk (o : Cvt) (last : Bool) : Bool :=
  let dst := o.dst.toNat
  let src := o.src.toNat
  let block := (blockOf dst).isSome || (blockOf src).isSome
  let dw := fmtBits dst
  let sw := fmtBits src
  let ints := isIntCode dst && isIntCode src
  !((blockOf dst).isSome && (blockOf src).isSome) &&
  (block == (o.sc != .zr)) &&
  slotOk sw o.si.toNat o.x2 && slotOk dw o.di.toNat o.x2 &&
  o.d.isV && !(oddV o.d && (dw == 64 || (o.x2 && dw == 32))) &&
  !(oddV o.a && (sw == 64 || (o.x2 && sw == 32))) &&
  (match o.a with | .s _ => sw != 64 | _ => true) &&
  (!o.sat || ints) &&
  (!o.satf || (isFloatCode src && [0, 1, 2, 3, 4, 16, 31].contains dst)) &&
  last

/-- Element `e` of the source in a lane (R314, R317). -/
def cvtSource (o : Cvt) (g : Gang) (l e : Nat) : Nat :=
  let w := fmtBits o.src.toNat
  if w = 64 then (g.rd64 o.a l).toNat
  else if w = 32 then (if o.x2 then (g.rd64 o.a l).toNat / 2 ^ (32 * e) % 2 ^ 32 else (g.rd32 o.a l).toNat)
  else (g.rd32 o.a l).toNat / 2 ^ ((o.si.toNat + e) * w) % 2 ^ w

/-- The block scale's byte in a lane (R315). -/
def cvtScale (o : Cvt) (g : Gang) (l : Nat) : Nat := (g.rd32 o.sc l).toNat % 256

/-- The exact source value of element `e` (R317). -/
def cvtValue (o : Cvt) (g : Gang) (l e : Nat) : XVal :=
  sourceValue o.src.toNat (cvtSource o g l e) (cvtScale o g l)

/-- Element `e` converted in a lane. -/
def cvtElem (rm : RM) (rnd : Option Reg) (o : Cvt) (g : Gang) (l e : Nat) : Nat × Word :=
  convertElem o.dst.toNat o.src.toNat rm o.sat o.satf (rnd.map fun r => g.rd32 r l) (cvtScale o g l) (cvtValue o g l e)

/-- The elements a conversion makes. -/
def cvtElems (o : Cvt) : List Nat := if o.x2 then [0, 1] else [0]

/-- Slots of a register replaced: `w` bits each, from slot `j` (R314). -/
def putSlots (x w j : Nat) (xs : List Nat) : Nat :=
  (xs.zipIdx).foldl (fun x p =>
    let pos := (j + p.2) * w
    x - x / 2 ^ pos % 2 ^ w * 2 ^ pos + p.1 % 2 ^ w * 2 ^ pos) x

/-- The destination after a conversion in a lane: a pair for a 64-bit element or two of 32 bits, otherwise one register
whose other slots are kept (R317). -/
def cvtResult (rm : RM) (rnd : Option Reg) (o : Cvt) (g : Gang) (l : Nat) : DWord :=
  let w := fmtBits o.dst.toNat
  let xs := (cvtElems o).map fun e => (cvtElem rm rnd o g l e).1
  BitVec.ofNat 64 (if 32 ≤ w then putSlots 0 w 0 xs else putSlots (g.rd32 o.d l).toNat w o.di.toNat xs)

/-- A conversion over Part (R317). -/
def cvtG (rm : RM) (rnd : Option Reg) (o : Cvt) (part : LaneMask) (g : Gang) : Gang :=
  let w := fmtBits o.dst.toNat
  (g.wr (w == 64 || (o.x2 && w == 32)) o.d part (cvtResult rm rnd o g)).orFlags
    (flagsOver part fun l => (cvtElems o).foldl (fun a e => a ||| (cvtElem rm rnd o g l e).2) 0)

/-- Integer to integer takes RM 01 (R315, R316). -/
def cvtRmOk (rm : RM) (o : Cvt) : Bool := !(isIntCode o.dst.toNat && isIntCode o.src.toNat) || rm == .rz

/-- CVT (R317). -/
def execCvt (rm : RM) (o : Cvt) (s : State) : Outcome State Fault Refusal :=
  issue (.cvt rm o) noGate (fun part s =>
    if cvtOk o (cvtRmOk rm o) then .done (s.modCur (cvtG rm none o part)) else .trap (.form part)) s

/-- CVT.sr (R78, R319). -/
def execCvtSr (rnd : Reg) (o : Cvt) (s : State) : Outcome State Fault Refusal :=
  issue (.cvtSr rnd o) noGate (fun part s =>
    if cvtOk o (rnd != .zr) then .done (s.modCur (cvtG .rn (some rnd) o part)) else .trap (.form part)) s

/-- MAXABS after the elements of Part (R79, R318). -/
def cvtMaxAbs (o : Cvt) (part : LaneMask) (g : Gang) : Word :=
  (lanesOf part).foldl (fun m l => (cvtElems o).foldl (fun m e => maxAbsWith m (cvtValue o g l e)) m) g.maxabs

/-- CVTX: as CVT, and MAXABS (R318). -/
def execCvtx (rm : RM) (o : Cvt) (s : State) : Outcome State Fault Refusal :=
  issue (.cvtx rm o) noGate (fun part s =>
    if cvtOk o (cvtRmOk rm o) then
      .done (s.modCur fun g => { cvtG rm none o part g with maxabs := cvtMaxAbs o part g })
    else .trap (.form part)) s

/-! ### Packing (R320) -/

/-- The width in bits of an element (R320). -/
def EWidth.bitsOf : EWidth → Nat
  | .e2 => 2
  | .e4 => 4
  | .e6 => 6
  | .e8 => 8
  | .e16 => 16

/-- A register is a scalar register. -/
def scalarReg : Reg → Bool
  | .s _ => true
  | _ => false

/-- PACK (R320). -/
def execPack (h : Hdr) (w : EWidth) (d a b : Reg) (j : BitVec 4) (s : State) : Outcome State Fault Refusal :=
  issue (.pack h w d a b j) noGate (fun part s =>
    let n := EWidth.bitsOf w
    if scalarReg d || slotCount n ≤ j.toNat + 1 then .trap (.form part)
    else .done (s.modCur fun g => g.wr false d part fun l =>
      BitVec.ofNat 64 (putSlots (g.rd32 d l).toNat n j.toNat [(g.rd32 a l).toNat, (g.rd32 b l).toNat]))) s

/-- The value UNPK gives for a slot (R320). -/
def unpkValue (mode : UnpkMode) (n x : Nat) : DWord :=
  match mode with
  | .zero => BitVec.ofNat 64 x
  | .sign => BitVec.ofInt 64 (if 2 ^ (n - 1) ≤ x then (x : Int) - 2 ^ n else x)
  | .t2 => BitVec.ofInt 64 (match x with | 1 => 1 | 3 => -1 | _ => 0)

/-- UNPK (R320). -/
def execUnpk (h : Hdr) (mode : UnpkMode) (w : EWidth) (d a : Reg) (j : BitVec 4) (s : State) :
    Outcome State Fault Refusal :=
  issue (.unpk h mode w d a j) noGate (fun part s =>
    let n := EWidth.bitsOf w
    if scalarReg d || slotCount n ≤ j.toNat || (mode == .t2 && w != .e2) then .trap (.form part)
    else .done (s.modCur fun g => g.wr false d part fun l =>
      unpkValue mode n ((g.rd32 a l).toNat / 2 ^ (j.toNat * n) % 2 ^ n))) s

/-! ### Packed products (R321, R322) -/

/-- The elements of a 32-bit operand, lowest first. -/
def elemsOf (n : NFmt) (x : Word) : List XVal :=
  (List.range (32 / n.width)).map fun k => n.value (x.toNat / 2 ^ (k * n.width) % 2 ^ n.width)

/-- An exact value known to be an integer. -/
def XVal.toInt : XVal → Int
  | .num neg p _ _ => if neg then -(p : Int) else p
  | _ => 0

/-- The integer kind: c plus the exact sum, wrapped (R322). -/
def dotInt (ta tb : NFmt) (a b c : Word) : Word :=
  BitVec.ofInt 32 (c.toInt + ((elemsOf ta a).zipWith (fun x y => x.toInt * y.toInt) (elemsOf tb b)).sum)

/-- The floating kind: the exact sum and c, rounded once, with its NaN cases (R322). The sign of a sum that is exactly zero R85 and R322 leave open: −0
where every term is −0, and otherwise −0 under .rd and +0 in the other modes, as R305 gives it for the scalar operations (DEDUCED, log entry 117). -/
def dotFloat (ta tb : NFmt) (rm : RM) (a b c : Word) : Nat × Word :=
  let xs := elemsOf ta a
  let ys := elemsOf tb b
  let z := f32.value c.toNat
  let ps := xs.zipWith XVal.mul ys
  let terms := ps ++ [z]
  let invalid := (xs ++ ys ++ [z]).any XVal.isSig ||
    ((xs.zip ys).any fun p => !p.1.isNan && !p.2.isNan && (p.1.mul p.2).isNan) ||
    (terms.contains (.inf false) && terms.contains (.inf true))
  if invalid then (f32.canon, flNV)
  else if (xs ++ ys ++ [z]).any XVal.isNan then (f32.canon, 0)
  else
    match terms with
    | [] => (f32.canon, 0)
    | t :: rest => f32.round rm false (rest.foldl (fun s x => s.add x (rm == .rd)) t)

/-- A packed product of the integer kind over Part. -/
def dotIntG (ta tb : NFmt) (o : Dot) (part : LaneMask) (g : Gang) : Gang :=
  g.wr32 o.d part fun l => dotInt ta tb (g.rd32 o.a l) (g.rd32 o.b l) (g.rd32 o.c l)

/-- A packed product of the floating kind over Part. -/
def dotFloatG (ta tb : NFmt) (rm : RM) (o : Dot) (part : LaneMask) (g : Gang) : Gang :=
  g.fwrite false o.d part fun l => dotFloat ta tb rm (g.rd32 o.a l) (g.rd32 o.b l) (g.rd32 o.c l)

/-- DP4 (R321, R322). -/
def execDp4 (k : Dp4Kind) (o : Dot) (s : State) : Outcome State Fault Refusal :=
  computing (.dp4 k o) (match k with
    | .int ua ub => dotIntG (.int 8 !ua) (.int 8 !ub) o
    | .flt rm a5 b5 => dotFloatG (.flt (if a5 then f8e5 else f8e4)) (.flt (if b5 then f8e5 else f8e4)) rm o) s

/-- DP8 (R321, R322). -/
def execDp8 (k : Dp8Kind) (o : Dot) (s : State) : Outcome State Fault Refusal :=
  computing (.dp8 k o) (match k with
    | .int ua ub => dotIntG (.int 4 !ua) (.int 4 !ub) o
    | .flt rm => dotFloatG (.flt f4e2) (.flt f4e2) rm o) s

/-- DP2 (R321, R322). -/
def execDp2 (k : Dp2Kind) (o : Dot) (s : State) : Outcome State Fault Refusal :=
  computing (.dp2 k o) (match k with
    | .int ua ub => dotIntG (.int 16 !ua) (.int 16 !ub) o
    | .flt rm bf => dotFloatG (.flt (if bf then bf16 else f16)) (.flt (if bf then bf16 else f16)) rm o) s

/-- One half of PFMA (R322). -/
def pfmaHalf (f : FFmt) (rm : RM) (bl : Bool) (a b c : Word) (h : Nat) : Nat × Word :=
  fmaBits f rm (a.toNat / 2 ^ (16 * h) % 2 ^ 16) (b.toNat / 2 ^ (if bl then 0 else 16 * h) % 2 ^ 16)
    (c.toNat / 2 ^ (16 * h) % 2 ^ 16)

/-- PFMA (R321, R322). -/
def execPfma (rm : RM) (bf bl : Bool) (o : Dot) (s : State) : Outcome State Fault Refusal :=
  computing (.pfma rm bf bl o) (fun part g => g.fwrite false o.d part fun l =>
    let r := pfmaHalf (if bf then bf16 else f16) rm bl (g.rd32 o.a l) (g.rd32 o.b l) (g.rd32 o.c l)
    ((r 0).1 + 2 ^ 16 * (r 1).1, (r 0).2 ||| (r 1).2)) s

/-! ### FPFLAGS and MAXABS (R323, R324) -/

/-- CLRMX and RDMX do not issue while a special function of the gang is outstanding: every other update of the two
registers has taken effect when its instruction issued (R324). -/
def flagGate : LaneMask → State → Option State := fun _ s =>
  if s.myCore.inflight.any (fun f => f.g == s.cur.key && f.sfu) then some s else none

/-- CLRMX (R323). -/
def execClrmx (h : Hdr) (mx fl : Bool) (s : State) : Outcome State Fault Refusal :=
  issue (.clrmx h mx fl) flagGate (fun part s =>
    .done (if part = 0 then s else s.modCur fun g =>
      { g with maxabs := if mx then 0 else g.maxabs, fpflags := if fl then 0 else g.fpflags })) s

/-- RDMX (R323). -/
def execRdmx (h : Hdr) (clr fl : Bool) (d : Reg) (s : State) : Outcome State Fault Refusal :=
  issue (.rdmx h clr fl d) flagGate (fun part s =>
    .done (if part = 0 then s else s.modCur fun g =>
      let g1 := g.wr32 d part fun _ => if fl then g.fpflags else g.maxabs
      if clr then (if fl then { g1 with fpflags := 0 } else { g1 with maxabs := 0 }) else g1)) s

/-! ### Fused groups (R325, R326) -/

/-- The members of a fused group one after another (R68). -/
def fusedG (fg : Fused) (part : LaneMask) (g : Gang) : Gang :=
  match fg with
  | .mulAdd m a => faddG a part (fmulG m part g)
  | .addMax a x => fminmaxG true x part (faddG a part g)
  | .fmaMax m negc c x => fminmaxG true x part (ffmaG m negc c part g)
  | .mulAddMax m a x => fminmaxG true x part (faddG a part (fmulG m part g))

/-- A fused group: one issue that delivers what its members do (R326). -/
def execFusedGroup (fg : Fused) (s : State) : Outcome State Fault Refusal := computing (.fusedGroup fg) (fusedG fg) s

/-! ### REDUX (R402) -/

/-- REDUX's operation on two values: the floating operations are FMIN and FMAX of the plain form without flags (R402). -/
def reduxOp (op : RxOp) (a b : Word) : Word :=
  match op with
  | .int k sgn => reduxInt k sgn a b
  | .fmin => BitVec.ofNat 32 (minMaxBits f32 false false a.toNat b.toNat).1
  | .fmax => BitVec.ofNat 32 (minMaxBits f32 true false a.toNat b.toNat).1

/-- A NaN result is the canonical one, a single participant's too (R62, R402). -/
def reduxEnd (op : RxOp) (r : Word) : Word :=
  match op with
  | .int _ _ => r
  | _ => if (f32.value r.toNat).isNan then BitVec.ofNat 32 f32.canon else r

/-- REDUX (R402). -/
def execRedux (h : Hdr) (op : RxOp) (d a : Reg) (s : State) : Outcome State Fault Refusal :=
  computing (.redux h op d a) (fun part g =>
    match lanesOf part with
    | [] => g
    | l :: rest =>
      let r := rest.foldl (fun x k => reduxOp op x (g.rd32 a k)) (g.rd32 a l)
      g.wr32 d part fun _ => reduxEnd op r) s

end Sys2Proof.Machine
end

