-- ==== Sys2Proof/Machine/Pages.lean ====
section
/-! DEFINITION. The scratchpad's physical pages and the frames that back them (R4, R158, R200, R350). -/

namespace Sys2Proof.Machine

/-- Bytes of a page of a scratchpad window, and physical pages of a core (R4, R200). -/
def spPage : Nat := 4096
def spPages : Nat := 512

/-- Pages of a core that its teams pin: those of a team from its placement until it unpins them or is pre-empted (R158, R200). -/
def State.pinnedPages (s : State) (core : Nat) : Nat :=
  ((s.teams.filter fun t => t.core == core).map fun t => t.pages - t.unpinned.length).sum

/-- A page of a window stands in a physical page. -/
def Team.holds (t : Team) (p : Nat) : Bool := t.held.any fun h => h.1 == p

/-- A team keeps a physical page: one of its pages stands there, and, where only pinned ones count, is pinned. -/
def Team.uses (t : Team) (pinned : Bool) (k : Nat) : Bool := t.held.any fun h => h.2 == k && !(pinned && t.unpinned.contains h.1)

/-- The physical page a window page is to take: one in which nothing stands, else one whose page is not pinned; the lowest-numbered
(DESIGN CHOICE: the manual does not say which; assumption 105). -/
def State.freePage (s : State) (core : Nat) : Option Nat :=
  let here := s.teams.filter fun t => t.core == core
  let unused (pinned : Bool) : Option Nat := (List.range spPages).find? fun k => !here.any fun t => t.uses pinned k
  (unused false).or (unused true)

/-- The sectors of a page's frame pass through the L2 of its home, as those of an L2-only page (R200). -/
def State.frameAccess (s : State) (ctx frame : Nat) (reads : Bool) : State :=
  (List.range 128).foldl (fun s k => s.l2Access (homeOf Attr.none (frame + 32 * k)) (frame / 32 + k) ctx 0 true reads !reads) s

/-- A page of a team leaves its physical page for the frame that backs it, its uncorrectable errors with it (R200, R234). -/
def State.spillFrom (s : State) (t : Team) (p : Nat) : State :=
  let frame := atD t.frames p 0
  let s1 := (s.homeStore frame (smBytes t.sp (p * spPage) spPage)).frameAccess t.key.ctx frame false
  let bad := t.spBad.filter fun k => k * 8 / spPage == p
  let s2 := bad.foldl (fun s k =>
    (s.logErr 0 4 unitScratch t.core 0 (BitVec.ofNat 64 (8 * k))).poisonSector ((frame + k * 8 % spPage) / 32)) s1
  s2.modTeam t.key fun x =>
    { x with
      held := x.held.filter fun h => h.1 != p, sp := smPut x.sp (p * spPage) (List.replicate spPage 0)
      spBad := x.spBad.filter fun k => k * 8 / spPage != p }

/-- Whatever page stands in a physical page leaves it (R200). -/
def State.spillPage (s : State) (core k : Nat) : State :=
  match s.teams.find? fun t => t.core == core && t.uses false k with
  | none => s
  | some t =>
    match t.held.find? fun h => h.2 == k with
    | none => s
    | some h => s.spillFrom t h.1

/-- A page of a team's window takes a free physical page, filled from its frame unless it is to be clear; none where no page is free
(R200, R201). -/
def State.takePage (s : State) (key : TKey) (clear : Bool) (p : Nat) : Option State :=
  match s.teamAt key with
  | none => some s
  | some t =>
    if t.holds p then some s
    else
      (s.freePage t.core).map fun k =>
        let frame := atD t.frames p 0
        let s1 := s.spillPage t.core k
        let s2 := if clear then s1 else s1.frameAccess key.ctx frame true
        s2.modTeam key fun x =>
          { x with
            held := x.held ++ [(p, k)]
            sp := if clear then x.sp else smPut x.sp (p * spPage) (smBytes s2.mem frame spPage)
            spBad := if clear then x.spBad else x.spBad ++
              (List.range (spPage / 8)).filterMap fun k => if s2.poison.contains ((frame + 8 * k) / 32) then some (p * spPage / 8 + k) else none }

/-- The same of some pages, as far as there are free ones. -/
def State.takePages (s : State) (key : TKey) (clear : Bool) (ps : List Nat) : State :=
  ps.foldl (fun s p => (s.takePage key clear p).getD s) s

/-- Pages of a team are pinned, and those that stand nowhere take physical pages (R350). -/
def State.pinPages (s : State) (key : TKey) (ps : List Nat) : State :=
  (s.modTeam key fun t => { t with unpinned := t.unpinned.filter fun p => !ps.contains p }).takePages key false ps

/-- Frames for the pages of a team being placed: which of the context's memory they are is Grotto's (free; assumption 106). -/
def State.newFrames : State → Nat → State × List Nat
  | s, 0 => (s, [])
  | s, n + 1 =>
    let (k, s1) := s.tick
    let (s2, fs) := s1.newFrames n
    (s2, (Config.freeFrame k).toNat * spPage :: fs)

/-- The ranges of a window, page by page. -/
def spCut (a n : Nat) : List (Nat × Nat) :=
  if n = 0 then []
  else (List.range ((a + n - 1) / spPage - a / spPage + 1)).map fun k =>
    let lo := Nat.max a ((a / spPage + k) * spPage)
    (lo, Nat.min (a + n) ((a / spPage + k + 1) * spPage) - lo)

/-- An access to a window can go on: its page stands in a physical page or a page is free (R200). -/
def State.spMay (s : State) (key : TKey) (a : Nat) : Bool := (s.takePage key false (a / spPage)).isSome

/-- A range of a window is read: a page that stands in no physical page is brought first (R200). -/
def State.spRead (s : State) (key : TKey) (a n : Nat) : State × List Byte :=
  (spCut a n).foldl (fun (s, bs) (lo, k) =>
    let s1 := s.takePages key false [lo / spPage]
    (s1, bs ++ match s1.teamAt key with | some t => smBytes t.sp lo k | none => List.replicate k 0)) (s, [])

/-- A range of a window is written: a page that stands in no physical page is brought first (R200). -/
def State.spWrite (s : State) (key : TKey) (a : Nat) (bs : List Byte) : State :=
  (spCut a bs.length).foldl (fun s (lo, k) =>
    (s.takePages key false [lo / spPage]).modTeam key fun t =>
      { t with
        sp := smPut t.sp lo ((bs.drop (lo - a)).take k)
        spBad := t.spBad.filter fun w => !decide (lo ≤ 8 * w ∧ 8 * w + 8 ≤ lo + k) }) s

/-- The first 8-byte word of a range of a window that holds an uncorrectable error (R234). -/
def State.spError (s : State) (key : TKey) (a n : Nat) : Option Nat :=
  (s.teamAt key).bind fun t => t.spBad.find? fun k => overlaps a n (8 * k) 8

end Sys2Proof.Machine
end

