-- ==== Sys2Proof/Machine/Translate.lean ====
section
/-! DEFINITION. Translation and permission (R193 to R198): the walk of a page table, the translation caches, shootdowns that
hold accesses, and which pages this device owns (R149, R150). -/

namespace Sys2Proof.Machine

/-! ### Page-table entries (R194) -/

/-- The fields of a page-table entry. -/
def ptePresent (p : DWord) : Bool := p.getLsbD 0
def pteSize64 (p : DWord) : Bool := p.getLsbD 1
def pteLeaf (p : DWord) : Bool := p.getLsbD 2
def pteWrite (p : DWord) : Bool := p.getLsbD 3
def pteExec (p : DWord) : Bool := p.getLsbD 4
def pteCow (p : DWord) : Bool := p.getLsbD 5
def pteWt (p : DWord) : Bool := p.getLsbD 7
def pteCache (p : DWord) : BitVec 2 := if p.extractLsb' 8 2 = 3#2 then 2 else p.extractLsb' 8 2
def ptePri (p : DWord) : BitVec 2 := if p.extractLsb' 10 2 = 3#2 then 2 else p.extractLsb' 10 2
def ptePfn (p : DWord) : Nat := (p.extractLsb' 12 40).toNat
def pteSpan (p : DWord) : BitVec 2 := p.extractLsb' 53 2
def pteHome (p : DWord) : Nat := (p.extractLsb' 55 8).toNat
def ptePin (p : DWord) : Bool := p.getLsbD 63

/-- The attributes an access carries from its page's entry (R194). -/
def pteAttr (p : DWord) : Attr :=
  { wt := pteWt p, cache := pteCache p, pri := ptePri p, span := pteSpan p, pin := if ptePin p then some (pteHome p) else none }

/-- The index of a virtual address at a level (R194). -/
def vaIndex (va level : Nat) : Nat := va / 2 ^ (12 + 9 * level) % 512

/-- The walk from a table at `base` of `level` down (R194): the leaf entry and its page's size; none where the walk ends at an
entry that is not present, or a leaf at level 4 or 3. A member of a 64 KiB page takes its first member's entry. -/
def walk (m : SMap 8) (va : Nat) : Nat → Nat → Option (DWord × Nat)
  | 0, base =>
    let p := smDWord m (base + 8 * vaIndex va 0)
    if !ptePresent p then none
    else if pteSize64 p then some (smDWord m (base + 8 * (vaIndex va 0 / 16 * 16)), 65536)
    else some (p, 4096)
  | level + 1, base =>
    let p := smDWord m (base + 8 * vaIndex va (level + 1))
    if !ptePresent p then none
    else if pteLeaf p then (if level + 1 ≤ 2 then some (p, 4096 * 512 ^ (level + 1)) else none)
    else walk m va level (ptePfn p * 4096)

/-- The bytes an entry of a level covers (R194). -/
def levelSize (level : Nat) : Nat := 4096 * 512 ^ level

/-- The page an address lies in, present or not, by its entry: its first address, its size and its entry. A page that is not present
keeps its other fields (R424, R426). -/
def pageOf (m : SMap 8) (va : Nat) : Nat → Nat → Option (Page × DWord)
  | 0, base =>
    let p := smDWord m (base + 8 * vaIndex va 0)
    if pteSize64 p then some ({ va := va / 65536 * 65536, size := 65536 }, smDWord m (base + 8 * (vaIndex va 0 / 16 * 16)))
    else some ({ va := va / 4096 * 4096, size := 4096 }, p)
  | n + 1, base =>
    let p := smDWord m (base + 8 * vaIndex va (n + 1))
    if pteLeaf p && decide (n + 1 ≤ 2) then some ({ va := va / levelSize (n + 1) * levelSize (n + 1), size := levelSize (n + 1) }, p)
    else if !ptePresent p || pteLeaf p then none
    else pageOf m va n (ptePfn p * 4096)

/-- The command page (R380). -/
def cmdPageVa : Nat := 0x01FFFFFFFFFFF000
def cmdPagePa : Nat := 0x8000000000

/-- The entry of the command page: present, writable, not executable, uncached (R380). -/
def cmdPte : DWord := BitVec.ofNat 64 (cmdPagePa + 0x200 + 0x8 + 0x1)

/-- The end of HBM, below which a local address is memory (R178, R193). -/
def hbmEnd : Nat := 0x8000000000

/-- The physical address of a virtual address under an entry: PFN bits below the page size are ignored (R194). -/
def physOf (p : DWord) (size va : Nat) : Nat := ptePfn p * 4096 / size * size + va % size

/-- Whether a physical address names another device (R193). -/
def isRemote (pa : Nat) : Bool := decide (2 ^ 51 ≤ pa)

/-- The device a remote address names (R193). -/
def devOf (pa : Nat) : Nat := pa / 2 ^ 42 % 512

/-! ### Translation caches (R196) -/

/-- Entries of a core's and of a die's translation cache. -/
def coreTlbRoom : Nat := 64
def dieTlbRoom : Nat := 4096

/-- Whether a cached entry covers an address of an address space. -/
def Tlb.covers (t : Tlb) (asid va : Nat) : Bool := t.asid == asid && decide (t.va ≤ va ∧ va < t.va + t.size)

/-- An entry joins a core's cache; the one longest there leaves a full cache (assumption 9). -/
def Core.cacheTlb (c : Core) (t : Tlb) : Core := { c with tlb := t :: c.tlb.take (coreTlbRoom - 1) }

/-- An entry joins a die's cache (assumption 9). -/
def State.cacheDieTlb (s : State) (die : Nat) (t : Tlb) : State :=
  let mine := (s.dieTlb.filter (fun p => p.1 == die)).take (dieTlbRoom - 1)
  { s with dieTlb := (die, t) :: (mine ++ s.dieTlb.filter (fun p => p.1 != die)) }

/-- The addresses of the entries a walk reads (R194, R196). -/
def walkReads (m : SMap 8) (va : Nat) : Nat → Nat → List Nat
  | 0, base =>
    let a := base + 8 * vaIndex va 0
    let p := smDWord m a
    if ptePresent p && pteSize64 p then [a, base + 8 * (vaIndex va 0 / 16 * 16)] else [a]
  | level + 1, base =>
    let a := base + 8 * vaIndex va (level + 1)
    let p := smDWord m a
    if ptePresent p && !pteLeaf p then a :: walkReads m va level (ptePfn p * 4096) else [a]

/-- A walk's reads are made at the homes of the entries, whose words are cached as on an L2-only page (R196). -/
def State.walkL2 (s : State) (asid va root : Nat) : State :=
  (walkReads s.mem va 4 root).foldl (fun s a => s.l2Read asid a Attr.none) s

/-- The entry that maps an address for a core, from its cache, its die's, or a walk; what is found is cached (R196). -/
def State.lookup (s : State) (core asid va : Nat) : Option Tlb × State :=
  if va / 4096 * 4096 = cmdPageVa then (some { asid := asid, va := cmdPageVa, size := 4096, pte := cmdPte }, s)
  else
    match (s.coreAt core).tlb.find? (·.covers asid va) with
    | some t => (some t, s)
    | none =>
      match s.dieTlb.find? (fun p => p.1 == core / 64 && p.2.covers asid va) with
      | some (_, t) => (some t, s.modCore core fun c => c.cacheTlb t)
      | none =>
        match s.ctxAt asid with
        | none => (none, s)
        | some x =>
          let s1 := s.walkL2 asid va (x.root * 4096)
          match walk s.mem va 4 (x.root * 4096) with
          | none => (none, s1)
          | some (p, size) =>
            let t : Tlb := { asid := asid, va := va / size * size, size := size, pte := p }
            (some t, (s1.modCore core fun c => c.cacheTlb t).cacheDieTlb (core / 64) t)

/-! ### Pages of other devices (R149, R150) -/

/-- A page homed here is not this device's: another owns it or has been sent it. One that is asked back is, until it is given up (R150, R151). -/
def State.isAway (s : State) (d : PageDir) : Bool := d.st != 0 && !(d.st == 2 && d.owner == s.devNum && d.granted.isNone)

/-- This device owns the page of an address: a page of its own memory unless another device owns it, or a page of another
device's memory whose ownership it has gained; and it is not giving the page up (R149, R150). -/
def State.ownsPage (s : State) (pa : Nat) : Bool :=
  let page := pa / 65536
  (if isRemote pa && devOf pa != s.devNum then s.ownedRemote.contains page else !s.pageDirs.any (fun d => d.page == page && s.isAway d)) &&
  !s.giving.any (fun g => g.1 == page)

/-- A transaction that carries data travels in the data channel of a link, any other in its request channel (R447; which goes in which the spec does
not say: log 127). -/
def isDataFlit : FlitBody → Bool
  | .pageGrant .. | .pageReturn .. | .homeWrite .. | .atomicReply .. => true
  | .through _ _ _ b => isDataFlit b
  | _ => false

/-- The flits of a transaction: one for each 256 bytes of data, and one at least (R447; log 127). -/
def flitsOf : FlitBody → Nat
  | .pageGrant .. | .pageReturn .. => 256
  | .homeWrite _ _ bs => Nat.max 1 ((bs.length + 255) / 256)
  | .through _ _ _ b => flitsOf b
  | _ => 1

/-- A transaction to a device is ready to leave (R447, R448). -/
def State.send (s : State) (dev : Nat) (b : FlitBody) : State := { s with outbox := s.outbox ++ [⟨dev, b, flitsOf b, none⟩] }

/-- A page this device needs and does not own is asked for, once: of its home device, or here of the page's own directory
(R150). -/
def State.wantPage (s : State) (pa : Nat) : State :=
  let page := pa / 65536
  if s.ownsPage pa then s
  else if isRemote pa then
    if s.pageAsked.contains page then s
    else
      { s with pageAsked := s.pageAsked ++ [page] }.send (devOf pa) (.pageRequest (page % 2 ^ 26))
  else if s.pageWaits.contains (page, s.devNum) then s
  else { s with pageWaits := s.pageWaits ++ [(page, s.devNum)] }

/-! ### Checks (R195, R197) -/

/-- What an access wants of a page. -/
inductive Want where
  | read | write | fetch
deriving DecidableEq, Repr

/-- What translation answers. -/
inductive Tr where
  | ok (pa : Nat) (attr : Attr)
  | fault (cause : Nat)
  | held
deriving DecidableEq, Repr

/-- The link a transaction to a device leaves on: the lowest of its route that is up (R448). -/
def State.routeTo (s : State) (dev : Nat) : Option Nat :=
  (List.range 18).find? fun k => (atD s.routes dev 0#18).getLsbD k && (match s.links[k]? with | some l => l.state == 2 || l.state == 3 | none => false)

/-- Tether links stay down and remote addresses fault: Lantern service (R439). -/
def Service.lanternMode : Service → Bool
  | .lantern | .leaving => true
  | _ => false

/-- The physical address an entry gives. Where it is local, bits 50:42 take no part: R193 has them 0 there, and says nothing of an entry
that sets them (DESIGN CHOICE; assumption 104). -/
def localPa (pa : Nat) : Nat := if isRemote pa then pa else pa % 2 ^ 42

/-- The checks of R195 in table order, and the local addresses that name nothing (R193). -/
def checkPte (ctx : Option Ctx) (t : Tlb) (want : Want) (va : Nat) : Tr :=
  let pa := localPa (physOf t.pte t.size va)
  let far := match ctx with
    | some x => isRemote pa && !(decide (devOf pa < 320) && x.remote.getLsbD (devOf pa))
    | none => isRemote pa
  let nowhere := !isRemote pa && decide (hbmEnd ≤ pa) && !decide (pa / 4096 = cmdPagePa / 4096)
  if !ptePresent t.pte || far || nowhere then .fault causeNotPresent
  else if want == .fetch && !pteExec t.pte then .fault causeExecute
  else if want == .write && pteCow t.pte then .fault causeCopyOnWrite
  else if want == .write && !pteWrite t.pte then .fault causeReadOnly
  else .ok pa (pteAttr t.pte)

/-- A shootdown holds accesses of a core to an address (R197). -/
def Shoot.holds (h : Shoot) (core asid va : Nat) : Bool :=
  h.asid == asid && h.cores.getLsbD core && decide (h.va ≤ va ∧ va < h.va + h.len)

/-- Whether an access of a core to an address is held by a shootdown in progress (R197). -/
def State.heldBy (s : State) (core asid va : Nat) : Bool := s.shoots.any (·.holds core asid va)

/-- What is left of a translation to a remote address: one that names this device is local; in Lantern service, or with no route
up to a page this device does not own, the access fails (R439, R448). -/
def State.reach (s : State) (t : Tr) : Tr :=
  match t with
  | .ok pa attr =>
    if !isRemote pa then t
    else if devOf pa = s.devNum then (if hbmEnd ≤ pa % 2 ^ 42 then .fault causeNotPresent else .ok (pa % 2 ^ 42) attr)
    else if s.service.lanternMode || (!s.ownsPage pa && (s.routeTo (devOf pa)).isNone) then .fault causeNotPresent
    else t
  | t => t

/-- The translation of an address for an access (R193 to R197): address bits 63:57 must be 0 (R244). -/
def State.translate (s : State) (core asid : Nat) (va : DWord) (want : Want) : Tr × State :=
  if va.extractLsb' 57 7 ≠ 0#7 then (.fault causeNotPresent, s)
  else if s.heldBy core asid va.toNat then (.held, s)
  else
    match s.lookup core asid va.toNat with
    | (none, s1) => (.fault causeNotPresent, s1)
    | (some t, s1) => (s1.reach (checkPte (s1.ctxAt asid) t want va.toNat), s1)

/-- The translation of a list of accesses, in order; each keeps its own answer. -/
def State.translateAll (s : State) (core asid : Nat) (want : Want) : List LaneAcc → List (LaneAcc × Tr) × State
  | [] => ([], s)
  | a :: rest =>
    let (t, s1) := s.translate core asid a.va want
    let (ts, s2) := s1.translateAll core asid want rest
    let a' := match t with
      | .ok pa attr => { a with ok := true, pa := pa, attr := attr }
      | _ => a
    ((a', t) :: ts, s2)

/-- Whether an atomic or a reduction to an address is forwarded to the page's home device (R90, R152). -/
def State.forwards (s : State) (pa : Nat) : Bool := isRemote pa && devOf pa != s.devNum && !s.ownsPage pa

end Sys2Proof.Machine
end

