-- ==== Sys2Proof/Machine/Queue.lean ====
section
/-! DEFINITION. What memory instructions put in flight: thread order (R95), store queues (R102, R103), what supplies a load
(R106), requests on the ORN and their keys (R141 to R143), results on their way back (R48), and what holds later accesses. -/

namespace Sys2Proof.Machine

/-! ### Thread order (R95) -/

/-- The issuing instruction as the maker of accesses of some lanes. -/
def State.who (s : State) (lanes : LaneMask) (ahead : Bool) : Who :=
  let st := s.strand
  { g := s.cur.key, strand := s.curStrand, seq := s.cur.issueSeq, clock := s.clock, ahead := ahead, path := st.path, pc := st.pc,
    mask := lanes, skind := st.kind, fork := st.fork, team := s.cur.team, field := s.cur.ctxField }

/-- One is a .ahead access of a tail and the other lies in an arm of the same fork, or in what is nested there (R95). -/
def relaxed (a b : Who) : Bool :=
  a.ahead && a.path.any fun e => e.side == .tail && b.path.any fun f => f.inst == e.inst && isArm f.side

/-- Access `a` precedes `b` in the thread order of a thread that makes both (R95). -/
def precedes (a b : Who) : Bool :=
  a.g == b.g && (a.mask &&& b.mask) != 0 && decide (a.seq < b.seq) && !relaxed a b && !relaxed b a

/-! ### The order of requests (R142) -/

/-- Whether an admitted request comes before another in key order (R142); requests of one key come in the order they were placed. -/
def OrnReq.keyBefore (a b : OrnReq) : Bool :=
  let key (r : OrnReq) : List Nat := [(r.entered.getD r.clock).toNat, r.die, r.pos, r.agent, r.id]
  decide (key a < key b)

/-- The sectors a list of accesses touches, ascending (R333). -/
def sectorsOf (accs : List LaneAcc) : List Nat := ((accs.map fun a => sectorOf a.pa).dedup).insertionSort (· ≤ ·)

/-- The frames that sectors lie in, ascending: lanes on different words take their points by ascending frame (R333). -/
def framesOf (secs : List Nat) : List Nat := ((secs.map (· / 16)).dedup).insertionSort (· ≤ ·)

/-- The accesses in a sector. -/
def inSector (accs : List LaneAcc) (sec : Nat) : List LaneAcc := accs.filter fun a => sectorOf a.pa == sec

/-! ### Store-queue entries (R102, R103) -/

/-- Entries of a slice's store queue (R102). -/
def queueRoom : Nat := 24

/-- Two accesses touch a common word; addresses are compared as physical where both are translated. -/
def LaneAcc.meets (a b : LaneAcc) : Bool :=
  if a.ok && b.ok then overlaps (a.pa / 4 * 4) (a.size + a.pa % 4) (b.pa / 4 * 4) (b.size + b.pa % 4)
  else overlaps (a.va.toNat / 4 * 4) (a.size + a.va.toNat % 4) (b.va.toNat / 4 * 4) (b.size + b.va.toNat % 4)

/-- What an entry's addresses lie in: memory, a core's scratchpad, or the command page. -/
def SQKind.space : SQKind → Option (Option Nat)
  | .remoteSts t => some t
  | .command | .launch => some none
  | _ => none

/-- Two entries touch a common word. -/
def SQEntry.meets (a b : SQEntry) : Bool := a.kind.space == b.kind.space && a.accs.any fun x => b.accs.any x.meets

/-- A slice's store queue has room for one more entry. -/
def Core.sliceRoom (c : Core) (part slice : Nat) : Bool :=
  decide ((c.sq.filter fun e => e.who.g.part == part && e.slice == slice).length < queueRoom)

/-- The slices that hold lanes of a mask: four lanes to a slice (R4, R100). -/
def slicesOf (m : LaneMask) : List Nat := (List.range 8).filter fun k => m.extractLsb' (4 * k) 4 != 0#4

/-- The lanes of a slice. -/
def sliceLanes (k : Nat) : LaneMask := (15#32 : LaneMask) <<< (4 * k)

/-- Room in every slice that an instruction puts an entry in. -/
def State.queuesOpen (s : State) (slices : List Nat) : Bool :=
  slices.all fun k => s.myCore.sliceRoom s.cur.key.part k

/-- The stores whose check comes after they have entered a queue (R214). -/
def SQKind.isStore : SQKind → Bool
  | .store | .release | .red _ | .redu _ | .remoteSts _ | .command => true
  | _ => false

/-- An entry as it enters, for the issuing instruction. -/
def State.newEntry (s : State) (who : Who) (slice : Nat) (kind : SQKind) (accs : List LaneAcc) : SQEntry :=
  { id := s.nextId, who := who, slice := slice, kind := kind, order := .none, ssn := s.cur.ssn, pri := 0, accs := accs, ty := none,
    dst := none, checked := !kind.isStore, held := false }

/-- An entry enters its slice's store queue (R102). -/
def State.enter (s : State) (e : SQEntry) : State :=
  { s with nextId := s.nextId + 1 }.modCore e.who.g.core fun c => { c with sq := c.sq ++ [{ e with id := s.nextId }] }

/-- The issuing instruction has placed its entries: the gang's store count goes up by one (R217). -/
def State.countStore (s : State) : State := s.modCur fun g => { g with ssn := g.ssn + 1 }

/-- One entry per slice of the lanes of `part`, each with the accesses of its lanes (R100, R102). -/
def State.enterSlices (s : State) (part : LaneMask) (mk : State → Nat → LaneMask → SQEntry) : State :=
  ((slicesOf part).foldl (fun s k => s.enter (mk s k (part &&& sliceLanes k))) s).countStore

/-- The engine commands, which retire only once every earlier entry of the thread is complete (R103); a CQ store is no command
of itself, the CGO store is (R382). -/
def SQEntry.isCommand (e : SQEntry) : Bool :=
  match e.kind with
  | .matrix | .slice | .launch => true
  | .command => e.accs.any fun a => a.va.toNat % 4096 == 0x20
  | _ => false

/-- Whether an entry carries a release (R96). -/
def SQEntry.releases (e : SQEntry) : Bool :=
  match e.kind with
  | .release => true
  | .atomic _ => e.order == .rel || e.order == .ar
  | _ => false

/-- A request of a load, an acquire or WAITW; a prefetch is none (R332, R340). -/
def OrnReq.isLoad (r : OrnReq) : Bool := r.entry.isNone && r.ty.isSome

/-- Whether a load of a thread that precedes `w` is still to be performed (R103, R113). -/
def State.loadsOpen (s : State) (w : Who) : Bool :=
  (s.ornWait ++ s.orn).any (fun r => r.isLoad && precedes r.who w) ||
    s.cores.any fun c => c.spq.any fun r => precedes r.who w

/-- Whether a store of a thread that precedes `w` is still to complete (R103, R113). -/
def State.storesOpen (s : State) (w : Who) : Bool :=
  let c := s.coreAt w.g.core
  (c.sq ++ c.gone).any (fun e => precedes e.who w) || s.fwd.any (fun f => precedes f.who w)

/-- Every access of a thread that precedes `w` has been performed, and every earlier store is complete (R113, R116). -/
def State.clearBefore (s : State) (w : Who) : Bool := !s.loadsOpen w && !s.storesOpen w

/-- FLUSH and INVAL. -/
def SQEntry.isRange (e : SQEntry) : Bool := match e.kind with
  | .flush | .inval => true
  | _ => false

/-- An entry whose home moves change what the core's view or its update-only sectors hold. -/
def SQEntry.toView (e : SQEntry) : Bool := match e.kind with
  | .release | .redu _ => true
  | .store => e.accs.any fun a => a.attr.cache != 0
  | _ => false

/-- A load of an entry's thread before it, on a word of the entry, is still to be performed: the entry would write what the load may not read
(R98, R99; DEDUCED, log entry 111). -/
def State.loadsBefore (s : State) (e : SQEntry) : Bool :=
  e.kind.space == none && (s.ornWait ++ s.orn).any fun r => r.isLoad && precedes r.who e.who && r.accs.any fun a => e.accs.any a.meets

/-- The conditions on which an entry retires (R103, R218); entries of one instruction on one word retire in ascending lane order,
whatever their slices (R333), and an entry that follows an unperformed load of its thread on a word of both waits for it. FLUSH and INVAL,
which act on what the view holds (R130), wait for retired entries of their thread that reach the view or its update-only sectors only at their
home moves (DEDUCED, log entry 33). -/
def State.mayRetire (s : State) (e : SQEntry) : Bool :=
  let c := s.coreAt e.who.g.core
  e.checked && !e.held &&
  !c.sq.any (fun x => x.who.g == e.who.g && x.held && decide (x.id < e.id)) &&
  !c.sq.any (fun x => x.id != e.id && precedes x.who e.who) &&
  !c.sq.any (fun x => decide (x.id < e.id) && x.who.g.part == e.who.g.part &&
    (x.slice == e.slice || (x.who.g == e.who.g && x.who.seq == e.who.seq)) && x.meets e) &&
  (!(e.isCommand || e.releases || (match e.kind with | .remoteSts _ => true | _ => false)) || !s.storesOpen e.who) &&
  (!e.releases || !s.loadsOpen e.who) && !s.loadsBefore e &&
  (!e.isRange || !c.gone.any SQEntry.toView)

/-! ### What supplies a load (R106) -/

/-- Where a byte of a load comes from before any fetch: a queued store's byte, an entry that must complete first, or
nothing. -/
inductive Sup where
  | byte (b : Byte)
  | after (id : Nat)
  | none
deriving DecidableEq, Repr

/-- The byte an access writes at an address. -/
def LaneAcc.byteAt (a : LaneAcc) (va : DWord) (pa : Nat) : Option Byte :=
  if a.ok then (if a.pa ≤ pa then a.bytes[pa - a.pa]? else none)
  else if a.va.toNat ≤ va.toNat then a.bytes[va.toNat - a.va.toNat]? else none

/-- An access to the word that holds an address. -/
def LaneAcc.hitsWord (a : LaneAcc) (va : DWord) (pa : Nat) : Bool :=
  if a.ok then overlaps (pa / 4 * 4) 4 a.pa a.size else overlaps (va.toNat / 4 * 4) 4 a.va.toNat a.size

/-- An entry that acts on whole ranges, whichever lane named them (R347, R364, R374). -/
def SQEntry.spans (e : SQEntry) : Bool := match e.kind with
  | .flush | .inval | .matrix | .slice => true
  | _ => false

/-- An entry of the thread of a lane touches the word that holds an address. -/
def SQEntry.touches (e : SQEntry) (lane : Nat) (va : DWord) (pa : Nat) : Bool :=
  (e.accs ++ e.far).any fun a => (e.spans || a.lane == lane) && a.hitsWord va pa

/-- What an entry in the thread's queue says of a byte of a lane's load: a store supplies what it writes, anything else on the word
makes the load wait (R106). -/
def SQEntry.supply (e : SQEntry) (lane : Nat) (va : DWord) (pa : Nat) : Option Sup :=
  match e.kind with
  | .store | .release => ((e.accs.filter (fun a => a.lane == lane)).findSome? (·.byteAt va pa)).map .byte
  | .remoteSts _ | .command | .launch => none
  | _ => if e.touches lane va pa then some (.after e.id) else none

/-- What an entry that has retired and is not complete says of it: a store that wrote it has reached the view or is on its way to the home;
anything else on the word makes the load wait (R104, R106, R108). -/
def SQEntry.supplyGone (e : SQEntry) (lane : Nat) (va : DWord) (pa : Nat) : Option Sup :=
  match e.kind with
  | .store => ((e.accs.filter (fun a => a.lane == lane)).findSome? (·.byteAt va pa)).map fun _ => .none
  | .remoteSts _ | .command | .launch => none
  | _ => if e.touches lane va pa then some (.after e.id) else none

/-- The byte that a retired, incomplete store of the thread wrote, where neither the view nor the home has it yet: its page is cached in L2
only, or its word has left the view (R104, R106). -/
def Core.goneByte (c : Core) (who : Who) (lane : Nat) (va : DWord) (pa : Nat) : Option Byte :=
  c.gone.reverse.findSome? fun e =>
    if e.kind == .store && precedes e.who who then (e.accs.filter (fun a => a.lane == lane)).findSome? (·.byteAt va pa) else none

/-- The youngest entry of the thread that decides a byte of its load (R106). -/
def Core.queueByte (c : Core) (who : Who) (lane : Nat) (va : DWord) (pa : Nat) : Sup :=
  let mine (e : SQEntry) : Bool := precedes e.who who && e.who.mask.getLsbD lane
  ((c.sq.reverse.findSome? fun e => if mine e then e.supply lane va pa else none).or
    (c.gone.reverse.findSome? fun e => if mine e then e.supplyGone lane va pa else none)).getD .none

/-- A byte that the view holds. -/
def VWord.byteAt (v : VWord) (pa : Nat) : Option Byte := if v.known.getLsbD (pa % 4) then some (byteOf v.x (pa % 4)) else none

/-- A byte that the core holds owned, or that the thread's own store has on its way to the home: what a fetch does not bring (R106). -/
def Core.ownByte (c : Core) (who : Who) (a : LaneAcc) (va : DWord) (pa : Nat) : Option Byte :=
  match (if a.attr.cache = 0 then c.view (pa / 4) else none) with
  | some v => (if v.st = .valid then none else v.byteAt pa).or (c.goneByte who a.lane va pa)
  | none => c.goneByte who a.lane va pa

/-- A byte of a load from the core's view or from a store on its way to the home (R106). -/
def Core.heldByte (c : Core) (who : Who) (a : LaneAcc) (va : DWord) (pa : Nat) : Option Byte :=
  (c.ownByte who a va pa).or (if a.attr.cache = 0 then (c.view (pa / 4)).bind (·.byteAt pa) else none)

/-- The addresses of an access's bytes. -/
def LaneAcc.bytesAt (a : LaneAcc) : List (DWord × Nat) :=
  (List.range a.size).map fun k => (a.va + BitVec.ofNat 64 k, a.pa + k)

/-- Each byte of an access from the queue, or where the page is cached in L1 the view, or a store on its way to the home (R106). -/
def Core.sources (c : Core) (who : Who) (a : LaneAcc) : List Sup :=
  a.bytesAt.map fun (va, pa) =>
    match c.queueByte who a.lane va pa with
    | .none =>
      match c.heldByte who a va pa with
      | some b => .byte b
      | none => .none
    | x => x

/-- The bytes, when every one is supplied. -/
def supBytes (l : List Sup) : Option (List Byte) :=
  l.mapM fun x => match x with | .byte b => some b | _ => none

/-- The entries a load waits for (R106). -/
def Core.loadAfter (c : Core) (who : Who) (accs : List LaneAcc) : List Nat :=
  (accs.flatMap fun a => (c.sources who a).filterMap fun x => match x with | .after id => some id | _ => none).dedup

/-- The bytes for which a load waits for an entry, and which it then fetches whatever its view holds (R106). -/
def Core.forcedBytes (c : Core) (who : Who) (accs : List LaneAcc) : List Nat :=
  (accs.flatMap fun a =>
    ((c.sources who a).zip a.bytesAt).filterMap fun (p : Sup × DWord × Nat) => match p.1 with | .after _ => some p.2.2 | _ => none).dedup

/-- The words of a load's accesses that a fetch must bring, with some bytes to be taken from the home in any case: those the queue and the view do not supply, and with one of them
every word that the core does not own of an aligned access of 8 or 16 bytes (R106, R126). -/
def Core.fetchWords (c : Core) (who : Who) (accs : List LaneAcc) (forced : List Nat) : List Nat :=
  let missing := (forced.map (· / 4) ++ accs.flatMap fun a =>
    ((c.sources who a).zip a.bytesAt).filterMap fun (p : Sup × DWord × Nat) => match p.1 with | .byte _ => none | _ => some (p.2.2 / 4)).dedup
  let wide := accs.flatMap fun a =>
    let mine := accs.filter fun b => b.lane == a.lane
    let n := (mine.map (·.size)).sum
    let lo := (mine.map (·.pa)).foldl Nat.min a.pa
    let ws := mine.flatMap LaneAcc.words
    if (n = 8 ∨ n = 16) ∧ lo % n = 0 ∧ ws.any missing.contains then
      ws.filter fun w => match c.view w with | some v => v.st == .valid | none => true
    else []
  (missing ++ wide).dedup

/-! ### Values of loads (R328, R329) -/

/-- An element's value in its register or pair (R329). -/
def extendElem (ty : MTy) (x : Nat) : DWord :=
  match ty with
  | .i8 => ((BitVec.ofNat 8 x).signExtend 32).setWidth 64
  | .i16 => ((BitVec.ofNat 16 x).signExtend 32).setWidth 64
  | _ => BitVec.ofNat 64 x

/-- The register writes of an element: a vector register or pair, or the scalar where the lane is the one R45 chooses. -/
def elemWrites (d : Reg) (ty : MTy) (low : Option Nat) (lane elem : Nat) (x : Nat) : List RegWrite :=
  let v := extendElem ty x
  match d with
  | .v n =>
    let r := n.val + elem * ty.regs
    if ty.wide then [.v r lane (v.setWidth 32), .v (r + 1) lane (v.extractLsb' 32 32)] else [.v r lane (v.setWidth 32)]
  | .s n => if low = some lane then [.s n.val v] else []
  | .zr => []

/-- What a home answers is on its way back to the strand of an access, with the words it brings (R48, R144). -/
def State.bringBack (s : State) (core : Nat) (who : Who) (words : List Nat) (ws : List RegWrite) : State :=
  if ws.isEmpty then s
  else
    let (id, s1) := s.fresh
    s1.modCore core fun c =>
      { c with
        inflight := c.inflight ++
          [{ id := id, g := who.g, strand := who.strand, writes := ws, flags := 0, seq := who.seq, sfu := false, words := words }] }

/-- A result that no home answers is on its way back to the strand of an access (R48). -/
def State.sendBack (s : State) (core : Nat) (who : Who) (ws : List RegWrite) : State := s.bringBack core who [] ws

/-- What of a load's values goes to its register. -/
def loadWrites (who : Who) (d : Option Reg) (ty : Option MTy) (vals : List (LaneAcc × List Byte)) : List RegWrite :=
  match d, ty with
  | some d, some ty => vals.flatMap fun (a, bs) => elemWrites d ty (lowLane who.mask) a.lane a.elem (leNat bs)
  | _, _ => []

/-- Bytes of a matrix parameter block arrive, word by word (R364). -/
def MCmd.take (vals : List (LaneAcc × List Byte)) (c : MCmd) : MCmd :=
  vals.foldl (fun c (a, bs) =>
    { c with blk := c.blk.take (4 * a.elem) ++ bs ++ c.blk.drop (4 * a.elem + bs.length), need := c.need.filter (· != a.elem) }) c

/-- The same of a launch descriptor (R405). -/
def LCmd.take (vals : List (LaneAcc × List Byte)) (c : LCmd) : LCmd :=
  vals.foldl (fun c (a, bs) =>
    { c with blk := c.blk.take (4 * a.elem) ++ bs ++ c.blk.drop (4 * a.elem + bs.length), need := c.need.filter (· != a.elem) }) c

/-- What a load has read is on its way to its register, to the parameter block of an MMA, or to the
descriptor of a LAUNCH; a prefetch's goes nowhere. -/
def State.deliver (s : State) (core : Nat) (who : Who) (words : List Nat) (d : Option Reg) (ty : Option MTy)
    (vals : List (LaneAcc × List Byte)) : State :=
  match d, ty with
  | none, some _ =>
    s.modGang who.g fun g => 
      { g with
        mq := modWhere (fun c => c.who.seq == who.seq && c.entry.isNone) (MCmd.take vals) g.mq
        launches := modWhere (fun c => c.who.seq == who.seq && c.entry.isNone) (LCmd.take vals) g.launches }
  | _, _ => s.bringBack core who words (loadWrites who d ty vals)

/-! ### Completion (R103, R104, R109) -/

/-- What waited for an entry waits no longer: a request with nothing left to wait for is presented now (R142). -/
def State.releaseAfter (s : State) (id : Nat) : State :=
  { s with
    ornWait := s.ornWait.map fun r =>
      if r.after.contains id then
        let after := r.after.filter (· != id)
        { r with after := after, clock := if after.isEmpty then s.clock else r.clock }
      else r }

/-- Holds of an access on what follows it end (R109). -/
def State.dropHold (s : State) (who : Who) : State :=
  s.modGang who.g fun g => { g with holds := g.holds.filter fun h => !(h.kind == .acquire && h.who.seq == who.seq) }

/-- Whether an access still has a part to be made. -/
def State.accessOpen (s : State) (who : Who) : Bool :=
  (s.ornWait ++ s.orn).any (fun r => r.who.g == who.g && r.who.seq == who.seq) ||
  s.fwd.any (fun f => f.who.g == who.g && f.who.seq == who.seq) ||
  s.watches.any (fun w => w.who.g == who.g && w.who.seq == who.seq) ||
  s.cores.any (fun c => (c.sq ++ c.gone).any (fun e => e.who.g == who.g && e.who.seq == who.seq) ||
    c.spq.any fun r => r.who.g == who.g && r.who.seq == who.seq)

/-- An engine command has destinations still to be registered: its entry's home moves (R106, R115, R145). -/
def State.claimsOpen (s : State) (core id : Nat) : Bool :=
  s.allGangs.any (fun g => g.mq.any fun c => c.entry == some id && !c.pieces.isEmpty) ||
    (s.coreAt core).ces.any fun e => e.queue.any fun c => c.entry == id && (!c.accepted || !c.pieces.isEmpty || (c.op == 2 && !c.sorted))

/-- An entry is complete once it has no home move left (R103, R104). -/
def State.entryDone (s : State) (core id : Nat) : State :=
  let redu (e : SQEntry) : Bool := match e.kind with | .redu _ => !e.accs.isEmpty | _ => false
  if s.claimsOpen core id || (s.coreAt core).gone.any (fun e => e.id == id && redu e) || (s.ornWait ++ s.orn).any (fun r => r.entry == some id) || s.fwd.any (fun f => f.entry == some id) ||
      s.cores.any (fun c => c.spq.any fun r => r.entry == some id) then s
  else
    (s.modCore core fun c => { c with gone := c.gone.filter (fun e => e.id != id) }).releaseAfter id

/-- An access may be over: if so, what it holds goes on. -/
def State.endAccess (s : State) (who : Who) : State := if s.accessOpen who then s else s.dropHold who

/-- A request has been served: it leaves the ORN, and its entry may be complete. -/
def State.finish (s : State) (r : OrnReq) : State :=
  let s1 := { s with orn := s.orn.filter (fun x => x.id != r.id), ornWait := s.ornWait.filter (fun x => x.id != r.id) }
  let s2 := match r.entry with
    | some id => s1.entryDone r.core id
    | none => s1
  s2.endAccess r.who

/-! ### Records of accesses already issued (R215, R217, R234, R353) -/

/-- The record of an access made earlier: its cause and kind, words 2 and 3, its lanes (R215). -/
def whoRecord (ctx : BitVec 16) (w : Who) (cause kind : Nat) (addr : DWord) (lanes : LaneMask) : FRec :=
  { w0 := recWord0 w.g kind cause, w1 := recWord1 ctx { Strand.empty with kind := w.skind, fork := w.fork } w.strand w.ahead,
    w23 := addr, w45 := w.pc.setWidth 64, w6 := lanes, w7 := 0 }

/-- The gang is trap parked (R213). -/
def State.trapPark (s : State) (w : Who) : State := s.modGang w.g fun k => if k.team == w.team then { k with trapParked := true } else k

/-- An engine's failure: cause 0x06, access kind 4, the gang going on (R213, R353). -/
def State.engineFault (s : State) (w : Who) (addr : DWord) (write : Bool) : State :=
  s.postFault (whoRecord w.field w causeEngineRow 4 addr w.mask) w.g w.strand w.team write

/-- An access made earlier meets an uncorrectable error: cause 0x09, delivered as a trap of its gang (R213, R231, R234; assumption 108). -/
def State.dataFault (s : State) (w : Who) (kind : Nat) (addr : DWord) (lanes : LaneMask) : State :=
  (s.postFault (whoRecord w.field w causeData kind addr lanes) w.g w.strand w.team (kindWrites kind)).trapPark w

/-- What a drain made of the state is an error of the access that caused it where it met one (R231). -/
def State.blame (before after : State) (w : Who) (kind : Nat) : State :=
  match after.poison.find? fun c => !before.poison.contains c with
  | some c => after.dataFault w kind (BitVec.ofNat 64 (32 * c)) w.mask
  | none => after

/-! ### What later accesses wait for (R109, R113, R117) -/

/-- A hold laid by the issuing instruction on its threads' later accesses. -/
def State.addHold (s : State) (who : Who) (kind : HoldKind) : State :=
  let (id, s1) := s.fresh
  s1.modCur fun g => { g with holds := g.holds ++ [{ id := id, who := who, kind := kind }] }

/-- A hold stops the issuing strand's access of some lanes: a fence every later access of its strand (R346), an acquire or a fence those
that follow it in thread order (R109, R113, R117). -/
def Hold.stops (h : Hold) (s : State) (who : Who) : Bool :=
  precedes h.who who ||
    (h.kind != .acquire && h.who.g == who.g && h.who.strand == who.strand && decide ((s.cur.strandAt who.strand).born ≤ h.who.seq))

/-- An access of the lanes of `part` does not issue while a fence or an acquire before it is not done. -/
def holdGate (ahead : Bool) (part : LaneMask) (s : State) : Option State :=
  if part = 0 then none
  else if s.cur.holds.any (fun h => h.stops s (s.who part ahead)) then some s else none

/-- The waits of an ordinary memory access before it issues: the memory join of a tail, but for .ahead (R32, R33, R332), and
the holds. -/
def memGate (ahead : Bool) (part : LaneMask) (s : State) : Option State :=
  if ahead then holdGate ahead part s else bothGates memJoinGate (holdGate ahead) part s

/-- A dirty word of a core cannot go home yet. -/
def State.anyStuck (s : State) (core : Nat) : Bool := ((s.coreAt core).wordsIn .dirty).any (s.stuck core)

/-- A fence does what it was issued to do once its threads' earlier accesses, and its core's dirty words, allow (R113, R117). -/
def State.runHold (s : State) (h : Hold) : State :=
  let core := h.who.g.core
  let gone (s : State) : State := s.modGang h.who.g fun g => { g with holds := g.holds.filter (fun x => x.id != h.id) }
  match h.kind with
  | .fence => if s.clearBefore h.who && !s.anyStuck core then gone (s.blame ((s.drainCore core).invalidateCore core) h.who 1) else s
  | .pfence c t =>
    if !s.storesOpen h.who && !s.anyStuck core then
      gone (s.blame ((s.drainCore core).modCore core fun k =>
        { k with cpath := if c then [] else k.cpath, tpath := if t then [] else k.tpath }) h.who 1)
    else s
  | .acquire => s

/-- Every fence that can be done is done. -/
def State.runHolds (s : State) : State :=
  (s.allGangs.flatMap (·.holds)).foldl (fun s h => s.runHold h) s

end Sys2Proof.Machine
end

