-- ==== Sys2Proof/Machine/Memory.lean ====
section
/-! DEFINITION. Meanings of the memory instructions (R327 to R351): loads through the three paths, stores, scratchpad accesses,
prefetch, atomics, reductions, fences, range operations, the drain, waiting on a word, pinning. -/

namespace Sys2Proof.Machine

open Host (Outcome)

/-! ### Checks (R331) -/

/-- The strand lies in an arm that has passed MEMDONE for its governing fork, or in the true or false phase of a collapsed
fork whose mark it holds (R29, R32, R331). -/
def pastMemdone (st : Strand) : Bool :=
  (List.finRange 8).any fun f =>
    st.mdone.getLsbD f.val &&
      match st.collOf f.val with
      | some c => decide (c.phase < 2)
      | none => match st.lineOf f with | some e => e.side != .tail | none => false

/-- Lanes of a mask that fail a test. -/
def badLanes (part : LaneMask) (ok : Nat → Bool) : LaneMask := maskOf fun l => part.getLsbD l && !ok l

/-- The address of the lowest lane of a mask. -/
def lowAddr (m : LaneMask) (va : Nat → DWord) : DWord := match lowLane m with | some l => va l | none => 0

/-- Checks 1 to 4 of R331 in their order: combinations the entry forbids, MEMDONE, the registers, alignment. An empty Part
makes no access. -/
def memChecks (s : State) (part : LaneMask) (form regs : Bool) (width kind : Nat) (ahead : Bool) (va : Nat → DWord)
    (go : Unit → Res) : Res :=
  let bad := badLanes part fun l => decide ((va l).toNat % width = 0)
  if form then .trap (.form part)
  else if part ≠ 0 ∧ pastMemdone s.strand then .trap (.form part)
  else if regs then .trap (.form part)
  else if bad ≠ 0 then .trap ⟨causeAlignment, kind, lowAddr bad va, bad, ahead⟩
  else if part = 0 then .done s
  else go ()

/-- One access of a lane. -/
def mkAcc (lane elem size : Nat) (va : DWord) : LaneAcc :=
  { lane := lane, elem := elem, va := va, ok := false, pa := 0, attr := Attr.none, size := size, bytes := [], x := 0, y := 0 }

/-- The accesses of an instruction: the elements of each lane of Part, ascending (R328, R333). -/
def laneAccs (part : LaneMask) (n size : Nat) (va : Nat → DWord) : List LaneAcc :=
  (lanesOf part).flatMap fun l => (List.range n).map fun k => mkAcc l k size (va l + BitVec.ofNat 64 (k * size))

/-- The precise fault of accesses that failed translation: the lowest failing lane's cause and address, and every failing
lane (R195, R215). -/
def trFault (kind : Nat) (ahead : Bool) (ts : List (LaneAcc × Tr)) : Option Trap :=
  let bad := ts.filterMap fun p => match p.2 with | .fault c => some (p.1, c) | _ => none
  match bad with
  | [] => none
  | (a, c) :: _ => some ⟨c, kind, a.va, maskOf fun l => bad.any fun p => p.1.lane == l, ahead⟩

/-- The device registers of the command page answer no load and no atomic (R380). -/
def noDevice (t : Tr) : Tr :=
  match t with
  | .ok pa a => if hbmEnd ≤ pa % 2 ^ 42 && !isRemote pa then .fault causeNotPresent else .ok pa a
  | t => t

/-- Translation of accesses that are checked before any effect: held by a shootdown, a precise fault, or what follows
(R195, R197, R214). -/
def preciseTranslate (s : State) (kind : Nat) (ahead : Bool) (want : Want) (accs : List LaneAcc)
    (go : List LaneAcc → State → Res) : Res :=
  let (ts0, s1) := s.translateAll s.cur.key.core s.cur.team.ctx want accs
  let ts := ts0.map fun p => (p.1, noDevice p.2)
  let held := ts.filter fun p => p.2 == .held
  if !held.isEmpty then .wait (s1.modStrand fun st => { st with heldVas := held.map (·.1.va) })
  else
    match trFault kind ahead ts with
    | some t => .trap t
    | none => go (ts.map (·.1)) s1

/-! ### Registers of loads and stores (R329) -/

/-- A destination R329 refuses: a vector register that is no multiple of what the access takes, or a scalar for anything but
one element of 4 or 8 bytes. -/
def badLoadReg (d : Reg) (vec : Vec) (ty : MTy) : Bool :=
  match d with
  | .v n => n.val % (vec.n * ty.regs) != 0
  | .s _ => vec.n != 1 || decide (ty.bytes < 4)
  | .zr => false

/-- A data register R329 refuses; a scalar is broadcast (assumption 23). -/
def badStoreReg (d : Reg) (vec : Vec) (ty : MTy) : Bool :=
  match d with
  | .v n => n.val % (vec.n * ty.regs) != 0
  | _ => false

/-- The size of an access passes 16 bytes (R328). -/
def tooWide (vec : Vec) (ty : MTy) : Bool := decide (16 < vec.n * ty.bytes)

/-- The bytes of element `k` of the data register in a lane: the low bits of a vector register or pair, or the scalar
(R329). -/
def dataBytes (g : Gang) (d : Reg) (ty : MTy) (k l : Nat) : List Byte :=
  let x : DWord :=
    match d with
    | .v n =>
      let r := n.val + k * ty.regs
      if ty.wide then g.vpair r l else (g.vr r l).setWidth 64
    | .s n => smGet g.s n.val
    | .zr => 0
  leBytes x.toNat ty.bytes

/-! ### Loads (R106, R109, R117, R335) -/

/-- The three paths of a load. -/
inductive LoadPath where
  | global (acq : Bool)
  | const
  | tile
deriving DecidableEq, Repr

/-- The path copies of a core. -/
def Core.pathWords (c : Core) (tile : Bool) : List (Nat × Word) := if tile then c.tpath else c.cpath

/-- The value a path copy holds of a word (R117). -/
def Core.pathWord (c : Core) (tile : Bool) (w : Nat) : Option Word :=
  ((c.pathWords tile).find? (fun p => p.1 == w)).map (·.2)

/-- The bytes of an access from path copies, when every word is held. -/
def Core.pathBytes (c : Core) (tile : Bool) (a : LaneAcc) : Option (List Byte) :=
  a.bytesAt.mapM fun p => (c.pathWord tile (p.2 / 4)).map fun x => byteOf x (p.2 % 4)

/-- The values of a load's accesses in a sector, where the queue and the view supply every byte (R106). -/
def State.loadNow (s : State) (who : Who) (accs : List LaneAcc) : Option (List (LaneAcc × List Byte)) :=
  let c := s.coreAt who.g.core
  if (c.loadAfter who accs).isEmpty then accs.mapM fun a => (supBytes (c.sources who a)).map fun b => (a, b) else none

/-- An ordinary load of words of a frame: what the queue and the view supply now, and one request for the sectors that lack a byte
(R106, R126, R133). -/
def State.loadFrame (s : State) (who : Who) (d : Option Reg) (ty : Option MTy) (hint : CHint) (accs : List LaneAcc) : State :=
  let core := who.g.core
  let secs := sectorsOf accs
  let miss := secs.filter fun sec => (s.loadNow who (inSector accs sec)).isNone
  let after := (s.coreAt core).loadAfter who (accs.filter fun a => miss.contains (sectorOf a.pa))
  let s1 := secs.foldl (fun t sec =>
    match s.loadNow who (inSector accs sec) with
    | some vs => (t.touchView core ((inSector accs sec).flatMap LaneAcc.words)).deliver core who [] d ty vs
    | none => t) s
  s1.placeAll (miss.map fun sec =>
    { s1.request core agentL1 who .fetch sec (inSector accs sec) with
      ty := ty, dst := d, pri := hint.pri, span := hint.span, after := after, spread := miss
      forced := (s.coreAt core).forcedBytes who (inSector accs sec) })

/-- An entry of the threads of some accesses touches their words. -/
def SQEntry.hits (e : SQEntry) (accs : List LaneAcc) : Bool :=
  e.kind.space == none && accs.any fun a => e.who.mask.getLsbD a.lane && e.touches a.lane a.va a.pa

/-- An access's threads have entries to its words in their queues: an acquire is not performed then (R109). -/
def Core.queued (c : Core) (who : Who) (accs : List LaneAcc) : Bool := c.sq.any fun e => e.who.g == who.g && e.hits accs

/-- The entries that an access made at the home waits for: those to its words in its threads' queues, those of the threads before it
that have retired and are not complete (R106, R109). -/
def Core.homeAfter (c : Core) (who : Who) (accs : List LaneAcc) : List Nat :=
  ((c.sq.filter fun e => e.who.g == who.g && e.hits accs) ++ (c.gone.filter fun e => precedes e.who who && e.hits accs)).map (·.id)

/-- The FLUSHes and INVALs of the threads of an access, before it, that touch its words (R347). -/
def Core.rangeAfter (c : Core) (who : Who) (accs : List LaneAcc) : List Nat :=
  ((c.sq ++ c.gone).filter fun e => e.isRange && precedes e.who who && accs.any fun a => e.touches a.lane a.va a.pa).map (·.id)

/-- An acquire of words of a frame: performed at the home once the threads' entries to the words have completed (R109, R133, R333). -/
def State.acquireFrame (s : State) (who : Who) (d : Option Reg) (ty : Option MTy) (accs : List LaneAcc) : State :=
  let core := who.g.core
  let after := (s.coreAt core).homeAfter who accs
  s.placeAll ((sectorsOf accs).map fun sec =>
    { s.request core agentL1 who .acquireLoad sec (inSector accs sec) with
      ty := ty, dst := d, order := .acq, after := after })

/-- A path read of words of a frame: from the core's copies, or by one fill of the sectors not held, once its threads' earlier
FLUSHes and INVALs of the words are complete (R117, R133, R347). -/
def State.pathFrame (s : State) (tile : Bool) (who : Who) (d : Option Reg) (ty : Option MTy) (accs : List LaneAcc) : State :=
  let core := who.g.core
  let after := (s.coreAt core).rangeAfter who accs
  let held (sec : Nat) : Option (List (LaneAcc × List Byte)) :=
    if after.isEmpty then (inSector accs sec).mapM fun a => ((s.coreAt core).pathBytes tile a).map fun b => (a, b) else none
  let s1 := (sectorsOf accs).foldl (fun t sec =>
    match held sec with
    | some vs => t.sendBack core who (loadWrites who d ty vs)
    | none => t) s
  s1.placeAll (((sectorsOf accs).filter fun sec => (held sec).isNone).map fun sec =>
    { s1.request core (if tile then agentTile else agentConst) who (.pathFill tile) sec (inSector accs sec) with
      ty := ty, dst := d, after := after })

/-- Accesses taken frame by frame, ascending (R333). -/
def byFrame (accs : List LaneAcc) (f : State → List LaneAcc → State) (s : State) : State :=
  (framesOf (sectorsOf accs)).foldl (fun s fr => f s (accs.filter fun a => frameOf a.pa == fr)) s

/-- The accesses of a load, frame by frame (R133, R333). -/
def State.startLoad (s : State) (path : LoadPath) (who : Who) (d : Reg) (ty : MTy) (hint : CHint) (accs : List LaneAcc) : State :=
  match path with
  | .global true => byFrame accs (fun s l => s.acquireFrame who (some d) (some ty) l) (s.addHold who .acquire)
  | .global false => byFrame accs (fun s l => s.loadFrame who (some d) (some ty) hint l) s
  | .const => byFrame accs (fun s l => s.pathFrame false who (some d) (some ty) l) s
  | .tile => byFrame accs (fun s l => s.pathFrame true who (some d) (some ty) l) s

/-- Where an access finds its data: in its core's view, in path copies, at the home, which recalls a dirty copy or does not. -/
inductive Via where
  | view
  | path (tile : Bool)
  | fetch
  | home
deriving DecidableEq, Repr

/-- An access of the issuing gang's core meets an uncorrectable error (R234): the queue's bytes and a path's copies hold none. -/
def State.meets (s : State) (who : Who) (via : Via) (a : LaneAcc) : Bool :=
  let c := s.coreAt who.g.core
  match via with
  | .view => (supBytes (c.sources who a)).isNone && a.words.any s.badHome || a.words.any fun w => (c.view w).any (·.bad)
  | .path tile => (c.pathBytes tile a).isNone && a.words.any s.badHome
  | .fetch => a.words.any s.badHome
  | .home => a.words.any s.badWord

/-- The unit of a home word and its core or home: L1 where a dirty copy or a partial is the error, else L2 where it holds the sector, else HBM (R235). -/
def State.unitOf (s : State) (pa : Nat) (attr : Attr) : Nat × Nat :=
  let at' (c : Core) : Bool := (c.view (pa / 4)).any (·.bad) || c.ub.any fun u => u.sector == pa / 32 && u.parts.any (·.bad)
  if s.poison.contains (pa / 32) then (if s.l2.any (·.holds (pa / 32)) then unitL2 else unitHbm, homeOf attr pa)
  else (unitL1, match s.cores.find? at' with | some c => c.num | none => ((s.parked.find? fun p => p.sector == pa / 32).map (·.core)).getD 0)

/-- Check 6 of R331: the access meets an uncorrectable error. It is made before the instruction has any effect, as a precise fault is (R212;
assumption 108); what a recall or a merge would have met is an error of the sector from now on (R231). -/
def dataChecks (s : State) (who : Who) (kind : Nat) (ahead : Bool) (via : Via) (accs : List LaneAcc) (go : Unit → Res) : Res :=
  let bad := accs.filter (s.meets who via)
  match bad with
  | [] => go ()
  | a :: _ =>
    let (unit, at') := s.unitOf a.pa a.attr
    let s1 := ((bad.flatMap LaneAcc.words).filter s.badWord).foldl State.condemn s
    .error ⟨causeData, kind, a.va, maskOf fun l => bad.any fun x => x.lane == l, ahead⟩ s1 unit at' (BitVec.ofNat 64 (a.pa / 8 * 8))

/-- Where a load finds its data. -/
def LoadPath.via : LoadPath → Via
  | .global acq => if acq then .home else .view
  | .const => .path false
  | .tile => .path true

/-- A load (R335): its registers are pending until its data returns (R48). -/
def load (i : Instr) (path : LoadPath) (o : Ld) (hint : CHint) (s : State) : Outcome State Fault Refusal :=
  issue i (memGate o.ahead) (fun part s =>
    let acq := path == .global true
    let va := GMem.addr o.m s.cur
    memChecks s part (tooWide o.vec o.ty || (acq && (o.ahead || o.vec.n != 1))) (badLoadReg o.d o.vec o.ty) o.ty.bytes 0 o.ahead va
      fun _ =>
        preciseTranslate s 0 o.ahead .read (laneAccs part o.vec.n o.ty.bytes va) fun accs s1 =>
          let who := s1.who part o.ahead
          dataChecks s1 who 0 o.ahead path.via accs fun _ =>
            let s2 := s1.modCur fun g => g.markPend o.d (o.vec.n * o.ty.regs) s.strand.mask part (pendMark s1.cur.issueSeq s1.curStrand)
            .done (s2.startLoad path who o.d o.ty hint accs)) s

/-- LDG (R335). -/
def execLdg (o : Ld) (acq : Bool) (hint : CHint) (s : State) : Outcome State Fault Refusal :=
  load (.ldg o acq hint) (.global acq) o hint s

/-- LDC (R335). -/
def execLdc (o : Ld) (pri : BitVec 2) (s : State) : Outcome State Fault Refusal := load (.ldc o pri) .const o ⟨pri, 0⟩ s

/-- LDT (R335). -/
def execLdt (o : Ld) (pri : BitVec 2) (s : State) : Outcome State Fault Refusal := load (.ldt o pri) .tile o ⟨pri, 0⟩ s

/-! ### Stores (R102, R336, R380) -/

/-- A store waits for room in the queues of its lanes' slices (R102). -/
def roomGate (part : LaneMask) (s : State) : Option State :=
  if part = 0 || s.queuesOpen (slicesOf part) then none else some s

/-- The waits of an instruction that places entries for its lanes. -/
def storeGate (ahead : Bool) : LaneMask → State → Option State := bothGates (memGate ahead) roomGate

/-- A virtual address lies in the command page (R380). -/
def inCmdPage (va : DWord) : Bool := va.toNat / 4096 == cmdPageVa / 4096

/-- The accesses of a store with their bytes. -/
def storeAccs (g : Gang) (part : LaneMask) (vec : Vec) (ty : MTy) (d : Reg) (va : Nat → DWord) : List LaneAcc :=
  (laneAccs part vec.n ty.bytes va).map fun a => { a with bytes := dataBytes g d ty a.elem a.lane }

/-- The lane that alone accesses the command page: the highest, where its address lies there (R380). -/
def cmdLane (part : LaneMask) (va : Nat → DWord) : Option Nat := (highLane part).filter fun l => inCmdPage (va l)

/-- A store waits for room in the queues of its lanes' slices, a store to the command page in that of its one lane (R102, R380). -/
def stgGate (o : St) (part : LaneMask) (s : State) : Option State :=
  roomGate (match cmdLane part (GMem.addr o.m s.cur) with | some l => laneBit l | none => part) s

/-- STG: one entry per slice (R336); to the command page one entry of the highest lane (R380). Which page a store accesses whose lanes name both
the command page and other memory the manual does not say: the highest lane's address decides, and the other lanes store nothing (DESIGN
CHOICE, log entry 112). -/
def execStg (o : St) (rel : Bool) (hint : CHint) (s : State) : Outcome State Fault Refusal :=
  issue (.stg o rel hint) (bothGates (memGate o.ahead) (stgGate o)) (fun part s =>
    let va := GMem.addr o.m s.cur
    let top := cmdLane part va
    memChecks s part (tooWide o.vec o.ty || (rel && (o.ahead || o.vec.n != 1))) (badStoreReg o.data o.vec o.ty) o.ty.bytes 1 o.ahead
      (fun l => if top.all (· == l) then va l else 0) fun _ =>
        let accs := storeAccs s.cur part o.vec o.ty o.data va
        match top with
        | some top =>
          let only := accs.filter fun a => a.lane == top
          .done ((s.enter { s.newEntry (s.who (laneBit top) o.ahead) (top / 4) .command only with ty := some o.ty }).countStore)
        | none =>
          .done (s.enterSlices part fun s k lanes =>
            { s.newEntry (s.who lanes o.ahead) k (if rel then .release else .store)
                (accs.filter fun a => lanes.getLsbD a.lane) with
              order := if rel then .rel else .none, pri := hint.pri, ty := some o.ty })) s

/-! ### Scratchpad (R116, R174, R337, R338, R343) -/

/-- The bytes of a team's scratchpad window (R51). -/
def Team.window (t : Team) : Nat := t.pages * 4096

/-- An access lies within a window (R337). -/
def inWindow (t : Team) (a : LaneAcc) : Bool := decide (a.va.toNat + a.size ≤ t.window)

/-- The precise fault of scratchpad accesses for which `ok` fails (R51, R337). -/
def windowFault (kind : Nat) (ahead : Bool) (accs : List LaneAcc) (ok : LaneAcc → Bool) : Option Trap :=
  trFault kind ahead (accs.map fun a => (a, if ok a then Tr.ok 0 Attr.none else Tr.fault causeNotPresent))

/-- An instruction arrives at a core's scratchpad banks (R174). -/
def State.arriveSp (s : State) (core : Nat) (r : SpReq) : State :=
  { s with nextId := s.nextId + 1 }.modCore core fun c => { c with spq := c.spq ++ [{ r with id := s.nextId }] }

/-- A scratchpad instruction of the issuing gang, from its partition. -/
def State.spReq (s : State) (who : Who) (op : SpOp) (accs : List LaneAcc) : SpReq :=
  { src := s.cur.key.part, id := 0, who := who, team := s.cur.team, op := op, order := .none, accs := accs, ty := none, dst := none,
    entry := none }

/-- The window addresses of a scratchpad operand. -/
def spVa (m : SMem) (g : Gang) (l : Nat) : DWord := (SMem.spAddr m g l).setWidth 64

/-- Check 6 of R331 for an access to a window: the scratchpad's 8-byte words that hold an uncorrectable error (R234). -/
def spChecks (s : State) (t : TKey) (kind : Nat) (ahead : Bool) (accs : List LaneAcc) (go : Unit → Res) : Res :=
  let words := match s.teamAt t with | some x => x.spBad | none => []
  let bad := accs.filter fun a => words.any fun k => overlaps a.va.toNat a.size (8 * k) 8
  match bad with
  | [] => go ()
  | a :: _ =>
    .error ⟨causeData, kind, a.va, maskOf fun l => bad.any fun x => x.lane == l, ahead⟩ s unitScratch s.cur.key.core
      (BitVec.ofNat 64 (a.va.toNat / 8 * 8))

/-- LDS of the own core (R337). -/
def execLds (o : LdS) (s : State) : Outcome State Fault Refusal :=
  issue (.lds o) (memGate o.ahead) (fun part s =>
    let va := spVa o.m s.cur
    memChecks s part (tooWide o.vec o.ty) (badLoadReg o.d o.vec o.ty) o.ty.bytes 0 o.ahead va fun _ =>
      let accs := laneAccs part o.vec.n o.ty.bytes va
      match windowFault 0 o.ahead accs (fun a => (s.teamAt s.cur.team).any (inWindow · a)) with
      | some t => .trap t
      | none =>
        spChecks s s.cur.team 0 o.ahead accs fun _ =>
        let r := { s.spReq (s.who part o.ahead) .load accs with ty := some o.ty, dst := some o.d }
        let s1 := s.modCur fun g => g.markPend o.d (o.vec.n * o.ty.regs) s.strand.mask part (pendMark s.cur.issueSeq s.curStrand)
        .done (s1.arriveSp s.cur.key.core r)) s

/-- STS of the own core: no store-queue entry, thread order (R116, R337). -/
def execSts (o : StS) (s : State) : Outcome State Fault Refusal :=
  issue (.sts o) (memGate o.ahead) (fun part s =>
    let va := spVa o.m s.cur
    memChecks s part (tooWide o.vec o.ty) (badStoreReg o.data o.vec o.ty) o.ty.bytes 1 o.ahead va fun _ =>
      let accs := storeAccs s.cur part o.vec o.ty o.data va
      match windowFault 1 o.ahead accs (fun a => (s.teamAt s.cur.team).any (inWindow · a)) with
      | some t => .trap t
      | none => .done (s.arriveSp s.cur.key.core { s.spReq (s.who part o.ahead) .store accs with ty := some o.ty })) s

/-- The logical core at a physical site of a die, when it is enabled: the count of enabled sites below it (R453). -/
def State.coreOfSite (s : State) (die prow pcol : Nat) : Option Nat :=
  let m := atD s.enable die 0
  let site := prow * 8 + pcol
  if pcol < 8 && m.getLsbD site then some (die * 64 + ((List.range site).filter fun k => m.getLsbD k).length) else none

/-- The core a remote scratchpad access names: on the issuing core's own die, enabled, in the context's core set (R249). -/
def State.remoteCore (s : State) (c : PCoord) : Option Nat :=
  if c.die.toNat ≠ s.cur.key.core / 64 then none
  else (s.coreOfSite c.die.toNat c.prow.toNat c.pcol.toNat).bind fun k =>
    match s.ctxAt s.cur.team.ctx with
    | some x => if x.coreset.getLsbD k then some k else none
    | none => none

/-- The target team on a core: of the issuing team's grid, the resident one of lowest TEAMID (R338). -/
def State.targetTeam (s : State) (own : TKey) (core : Nat) : Option Team :=
  (s.teams.filter fun t => t.core == core && t.key.ctx == own.ctx && t.key.grid == own.grid && !t.preempted).foldl
    (fun best t => match best with
      | some (b : Team) => if t.key.team.toNat < b.key.team.toNat then some t else some b
      | none => some t) none

/-- The target of a remote access that is checked at issue: the core and its target team (R338). -/
def State.remoteTeam (s : State) (c : PCoord) : Option Team := (s.remoteCore c).bind fun k => s.targetTeam s.cur.team k

/-- A remote load or atomic arrives at its target after the thread's earlier remote stores (R116). -/
def remoteGate (part : LaneMask) (s : State) : Option State :=
  if s.myCore.sq.any (fun e => s.mine part e.who && match e.kind with | .remoteSts _ => true | _ => false) then some s else none

/-- The remote form of LDS: the failure is precise (R338). -/
def execLdsRemote (o : LdS) (c : PCoord) (s : State) : Outcome State Fault Refusal :=
  issue (.ldsRemote o c) (bothGates (memGate o.ahead) remoteGate) (fun part s =>
    let va := spVa o.m s.cur
    memChecks s part (tooWide o.vec o.ty) (badLoadReg o.d o.vec o.ty) o.ty.bytes 0 o.ahead va fun _ =>
      let accs := laneAccs part o.vec.n o.ty.bytes va
      let t := s.remoteTeam c
      match windowFault 0 o.ahead accs (fun a => t.any (inWindow · a)), t with
      | some f, _ => .trap f
      | none, none => .trap (.form part)
      | none, some t =>
        spChecks s t.key 0 o.ahead accs fun _ =>
        let r := { s.spReq (s.who part o.ahead) .load accs with src := 4, team := t.key, ty := some o.ty, dst := some o.d }
        let s1 := s.modCur fun g => g.markPend o.d (o.vec.n * o.ty.regs) s.strand.mask part (pendMark s.cur.issueSeq s.curStrand)
        .done (s1.arriveSp t.core r)) s

/-- The remote form of STS: a store, with an entry per slice (R214, R338). -/
def execStsRemote (o : StS) (c : PCoord) (s : State) : Outcome State Fault Refusal :=
  issue (.stsRemote o c) (storeGate o.ahead) (fun part s =>
    let va := spVa o.m s.cur
    memChecks s part (tooWide o.vec o.ty) (badStoreReg o.data o.vec o.ty) o.ty.bytes 1 o.ahead va fun _ =>
      let accs := storeAccs s.cur part o.vec o.ty o.data va
      .done (s.enterSlices part fun s k lanes =>
        { s.newEntry (s.who lanes o.ahead) k (.remoteSts (s.remoteCore c)) (accs.filter fun a => lanes.getLsbD a.lane) with
          ty := some o.ty })) s

/-! ### The home slice ALU (R341, R342) -/

/-- Operands and results at 32 or 64 bits. -/
def atWidth (wide : Bool) (x : DWord) : DWord := if wide then x else (x.setWidth 32 : Word).setWidth 64

/-- Signed or unsigned order at a width (R341). -/
def aluLess (ty : ITy) (a b : DWord) : Bool :=
  if ty.signed then (if ty.wide then a.slt b else (a.setWidth 32 : Word).slt (b.setWidth 32)) else a.ult b

/-- The integer operations of ATOM (R341). -/
def aluInt (op : AOp) (ty : ITy) (old b : DWord) : DWord :=
  match op with
  | .add => old + b
  | .min => if aluLess ty b old then b else old
  | .max => if aluLess ty old b then b else old
  | .and => old &&& b
  | .or => old ||| b
  | .xor => old ^^^ b
  | .exch => b
  | .inc => if b ≤ old then 0 else old + 1
  | .dec => if old = 0 ∨ b < old then b else old - 1

/-- The floating operations of ATOMF, which set no flag (R341). -/
def aluFlt (op : AFOp) (ty : AFTy) (old b : DWord) : DWord :=
  let one (f : FFmt) : DWord :=
    match op with
    | .add => BitVec.ofNat 64 (addBits f .rn old.toNat b.toNat).1
    | .min => BitVec.ofNat 64 (minMaxBits f false false old.toNat b.toNat).1
    | .max => BitVec.ofNat 64 (minMaxBits f true false old.toNat b.toNat).1
  match ty with
  | .f32 => one f32
  | .f64 => one f64
  | .bf16 => (addPair (old.setWidth 32) (b.setWidth 32)).setWidth 64

/-- The operations of HOP (R341). -/
def aluHop (op : HOp) (old b c : DWord) : DWord :=
  match op with
  | .badd => if old.toNat + b.toNat ≤ c.toNat then old + b else old
  | .bsub => if b ≤ old then old - b else old
  | .merge => (old &&& ~~~ c) ||| (b &&& c)

/-- Whether an operation works on 64 bits. -/
def homeWide : HomeOp → Bool
  | .int _ ty => ty.wide
  | .flt _ ty => ty == .f64
  | .hop _ ty => ty.wide
  | .cas ty => ty == .i64 || ty == .n64 || ty == .f64
  | .redu tag => tag.val == 2

/-- The new value of a word under an operation of the home slice ALU, with its operands (R341); a forwarded REDU is combined
directly into the home value (R90). -/
def aluNew (op : HomeOp) (old0 x0 y0 : DWord) : DWord :=
  let w := homeWide op
  let old := atWidth w old0
  let x := atWidth w x0
  let y := atWidth w y0
  atWidth w (match op with
    | .int op ty => aluInt op ty old x
    | .flt op ty => aluFlt op ty old x
    | .hop op _ => aluHop op old x y
    | .cas _ => if old = x then y else old
    | .redu tag => tagHome tag.val old (tagWiden tag.val x))

/-! ### Atomics (R111, R112, R341 to R345) -/

/-- The accesses of an atomic with its operands. -/
def atomAccs (part : LaneMask) (size : Nat) (va : Nat → DWord) (x y : Nat → DWord) : List LaneAcc :=
  (laneAccs part 1 size va).map fun a => { a with x := x a.lane, y := y a.lane }

/-- The element type an atomic's old value returns as. -/
def homeTy (op : HomeOp) : MTy := if homeWide op then .n64 else .n32

/-- The destination of the lanes of one slice: a scalar is written by the slice of the lowest lane alone (R45). -/
def sliceDst (d : Reg) (part lanes : LaneMask) : Reg :=
  match d with
  | .s n => if lowLane lanes = lowLane part then .s n else .zr
  | d => d

/-- .ahead with an ORDER is forbidden (R331). -/
def badOrder (a : AHdr) : Bool := a.ahead && a.order != .none

/-- An atomic at the home: translated for writing at issue, one entry per slice, its destination pending until the old value
returns; an acquire holds what follows (R109, R111, R112, R342). -/
def atomic (i : Instr) (a : AHdr) (op : HomeOp) (d : Reg) (addr : Gang → Nat → DWord) (x y : Gang → Nat → DWord) (s : State) :
    Outcome State Fault Refusal :=
  issue i (storeGate a.ahead) (fun part s =>
    let va := addr s.cur
    let size := if homeWide op then 8 else 4
    memChecks s part (badOrder a) false size 2 a.ahead va fun _ =>
      preciseTranslate s 2 a.ahead .write (atomAccs part size va (x s.cur) (y s.cur)) fun accs s1 =>
        dataChecks s1 (s1.who part a.ahead) 2 a.ahead .home accs fun _ =>
        let s2 := s1.modCur fun g => g.markPend d (homeTy op).regs s.strand.mask part (pendMark s1.cur.issueSeq s1.curStrand)
        let s3 := s2.enterSlices part fun s k lanes =>
          { s.newEntry { s.who lanes a.ahead with mask := lanes } k (.atomic op) (accs.filter fun x => lanes.getLsbD x.lane) with
            order := a.order, ty := some (homeTy op), dst := some (sliceDst d part lanes) }
        .done (if a.order == .acq || a.order == .ar then s3.addHold (s1.who part a.ahead) .acquire else s3)) s

/-- ATOM (R341). -/
def execAtom (a : AHdr) (op : AOp) (ty : ITy) (d : Reg) (m : GMem) (b : Reg) (s : State) : Outcome State Fault Refusal :=
  atomic (.atom a op ty d m b) a (.int op ty) d (fun g => GMem.addr m g) (fun g => g.rd ty.wide b) (fun _ _ => 0) s

/-- CAS (R341). -/
def execCas (a : AHdr) (ty : CasTy) (d : Reg) (m : SMem) (cmp new : Reg) (s : State) : Outcome State Fault Refusal :=
  atomic (.cas a ty d m cmp new) a (.cas ty) d (fun g => SMem.addr m g) (fun g => g.rd ty.wide cmp) (fun g => g.rd ty.wide new) s

/-- ATOMF (R341). -/
def execAtomf (a : AHdr) (op : AFOp) (ty : AFTy) (d : Reg) (m : GMem) (b : Reg) (s : State) : Outcome State Fault Refusal :=
  atomic (.atomf a op ty d m b) a (.flt op ty) d (fun g => GMem.addr m g) (fun g => g.rd ty.wide b) (fun _ _ => 0) s

/-- HOP (R341). -/
def execHop (a : AHdr) (op : HOp) (ty : ITy) (d : Reg) (m : SMem) (b c : Reg) (s : State) : Outcome State Fault Refusal :=
  atomic (.hop a op ty d m b c) a (.hop op ty) d (fun g => SMem.addr m g) (fun g => g.rd ty.wide b) (fun g => g.rd ty.wide c) s

/-- What RED does at the home (R344). -/
def RedOp.home : RedOp → HomeOp
  | .int op ty => .int op ty
  | .flt op ty => .flt op ty

/-- The accesses of a reduction that translate, which no fault holds back here: a store's failures come later (R214). -/
def State.peek (s : State) (accs : List LaneAcc) : List LaneAcc :=
  accs.filterMap fun a =>
    match noDevice (s.translate s.cur.key.core s.cur.team.ctx a.va .write).1 with
    | .ok pa attr => some { a with ok := true, pa := pa, attr := attr }
    | _ => none

/-- A reduction without return: a store (R214), one entry per slice (R344, R345). -/
def reduction (i : Instr) (ahead : Bool) (kind : SQKind) (size : Nat) (m : GMem) (x : Gang → Nat → DWord) (s : State) :
    Outcome State Fault Refusal :=
  issue i (storeGate ahead) (fun part s =>
    let va := GMem.addr m s.cur
    memChecks s part false false size 1 ahead va fun _ =>
      let accs := atomAccs part size va (x s.cur) (fun _ => 0)
      let reads := match kind with | .red _ => s.peek accs | _ => []
      dataChecks s (s.who part ahead) 1 ahead .home reads fun _ =>
      .done (s.enterSlices part fun s k lanes =>
        s.newEntry (s.who lanes ahead) k kind (accs.filter fun a => lanes.getLsbD a.lane))) s

/-- RED (R344). -/
def execRed (h : Hdr2) (ahead : Bool) (op : RedOp) (m : GMem) (b : Reg) (s : State) : Outcome State Fault Refusal :=
  reduction (.red h ahead op m b) ahead (.red (RedOp.home op)) (if op.wide then 8 else 4) m (fun g => g.rd op.wide b) s

/-- REDU (R345). -/
def execRedu (h : Hdr2) (ahead : Bool) (op : ReduOp) (m : GMem) (b : Reg) (s : State) : Outcome State Fault Refusal :=
  reduction (.redu h ahead op m b) ahead (.redu op.tag) (if op.tag.val = 2 then 8 else 4) m (fun g => g.rd (op.tag.val == 2) b) s

/-- The operation of ATOMS at the bank (R343). -/
def AtomsOp.home : AtomsOp → HomeOp
  | .int op ty _ => .int op ty
  | .flt op _ => .flt op .f32
  | .cas ty _ => .cas ty

/-- The first operand of ATOMS in a lane: b, an imm8, or cmp (R343). -/
def atomsX (op : AtomsOp) (g : Gang) (l : Nat) : DWord :=
  match op with
  | .int _ ty b => g.rdSrc ty.wide b l
  | .flt _ b => g.rd false b l
  | .cas ty cmp => g.rd ty.wide cmp l

/-- The new value of ATOMS.CAS, whose address has no index (R343). -/
def atomsY (o : Atoms) (g : Gang) (l : Nat) : DWord :=
  match o.op with
  | .cas ty _ => g.rd ty.wide o.index l
  | _ => 0

/-- The address of ATOMS (R343). -/
def atomsVa (o : Atoms) (g : Gang) (l : Nat) : DWord :=
  let index : Word := match o.op with | .cas _ _ => 0 | _ => g.rd32 o.index l
  (g.rd32 o.base l + index + o.off.signExtend 32).setWidth 64

/-- ATOMS that releases issues once every earlier access of its threads is performed and complete and its core can drain (R116). -/
def atomsGate (a : AHdr) (part : LaneMask) (s : State) : Option State :=
  if (a.order == .rel || a.order == .ar) && (!s.clearBefore (s.who part a.ahead) || s.anyStuck s.cur.key.core) then some s else none

/-- ATOMS at a core's banks: a release drains the issuing core, an acquire holds what follows until it is performed (R116,
R343). -/
def atomsAt (o : Atoms) (part : LaneMask) (src : Nat) (t : Team) (accs : List LaneAcc) (s : State) : State :=
  let op := AtomsOp.home o.op
  let who := s.who part o.a.ahead
  let r := { s.spReq who (.atomic op) accs with
    src := src, team := t.key, order := o.a.order, ty := some (homeTy op), dst := some o.d }
  let s1 := s.modCur fun g => g.markPend o.d (homeTy op).regs s.strand.mask part (pendMark s.cur.issueSeq s.curStrand)
  let s2 := if o.a.order == .rel || o.a.order == .ar then s1.drainCore s.cur.key.core else s1
  let s3 := if o.a.order == .acq || o.a.order == .ar then s2.addHold who .acquire else s2
  s3.arriveSp t.core r

/-- ATOMS with the team whose window it reaches (R338, R343). -/
def atoms (i : Instr) (o : Atoms) (gate : LaneMask → State → Option State) (src : Nat → Nat) (team : State → Option Team) (s : State) :
    Outcome State Fault Refusal :=
  issue i (bothGates (memGate o.a.ahead) (bothGates gate (atomsGate o.a))) (fun part s =>
    let va := atomsVa o s.cur
    let size := if homeWide (AtomsOp.home o.op) then 8 else 4
    memChecks s part (badOrder o.a) false size 2 o.a.ahead va fun _ =>
      let accs := atomAccs part size va (atomsX o.op s.cur) (atomsY o s.cur)
      let t := team s
      match windowFault 2 o.a.ahead accs (fun a => t.any (inWindow · a)), t with
      | some f, _ => .trap f
      | none, none => .trap (.form part)
      | none, some t => spChecks s t.key 2 o.a.ahead accs fun _ => .done (atomsAt o part (src s.cur.key.part) t accs s)) s

/-- ATOMS of the own core (R343). -/
def execAtoms (o : Atoms) (s : State) : Outcome State Fault Refusal :=
  atoms (.atoms o) o noGate id (fun s => s.teamAt s.cur.team) s

/-- The remote form of ATOMS: the target lies on the issuing core's die (R249, R343). -/
def execAtomsRemote (o : Atoms) (prow pcol : BitVec 4) (s : State) : Outcome State Fault Refusal :=
  atoms (.atomsRemote o prow pcol) o remoteGate (fun _ => 4)
    (fun s => s.remoteTeam ⟨BitVec.ofNat 2 (s.cur.key.core / 64), prow, pcol⟩) s

/-! ### Prefetch (R137, R340) -/

/-- The accesses of PREF that are not dropped: those whose translation succeeds now (R340). -/
def prefAccs (ts : List (LaneAcc × Tr)) : List LaneAcc :=
  ts.filterMap fun p => match noDevice p.2 with | .ok _ _ => some p.1 | _ => none

/-- One prefetch request for some sectors of a frame (R137, R340). -/
def State.prefetch (s : State) (who : Who) (kind : OrnKind) (hint : CHint) (accs : List LaneAcc) : State :=
  s.placeAll ((sectorsOf accs).map fun sec =>
    { s.request who.g.core agentL1 who kind sec (inSector accs sec) with pri := hint.pri, span := hint.span, spread := sectorsOf accs })

/-- PREF: a fill that writes no register; its point decides whether it is made (R137, R340). -/
def execPref (h : Hdr2) (level : PrefLevel) (m : GMem) (hint : CHint) (s : State) : Outcome State Fault Refusal :=
  issue (.pref h level m hint) noGate (fun part s =>
    if part = 0 then .done s
    else
      let (ts, s1) := s.translateAll s.cur.key.core s.cur.team.ctx .read (laneAccs part 1 1 (GMem.addr m s.cur))
      let accs := prefAccs ts
      let who := s1.who part false
      .done (match level with
        | .l1 =>
          byFrame (accs.filter fun a => a.attr.cache == 0 && ((s1.coreAt who.g.core).view (a.pa / 4)).isNone)
            (fun s l => s.prefetch who .fetch hint l) s1
        | .l2 => byFrame (accs.filter fun a => a.attr.cache != 2) (fun s l => s.prefetch who .l2Fill hint l) s1
        | .c => byFrame accs (fun s l => s.pathFrame false who none none l) s1
        | .t => byFrame accs (fun s l => s.pathFrame true who none none l) s1)) s

/-! ### Fences and ranges (R113, R117, R130, R346, R347) -/

/-- FENCE: later accesses of its threads wait until it is done (R113, R346). -/
def execFence (h : Hdr) (s : State) : Outcome State Fault Refusal :=
  issue (.fence h) (memGate false) (fun part s =>
    memChecks s part false false 1 1 false (fun _ => 0) fun _ => .done (s.addHold (s.who part false) .fence)) s

/-- PFENCE (R117, R346). -/
def execPfence (h : Hdr) (c t : Bool) (s : State) : Outcome State Fault Refusal :=
  issue (.pfence h c t) (memGate false) (fun part s =>
    memChecks s part (!c && !t) false 1 1 false (fun _ => 0) fun _ => .done (s.addHold (s.who part false) (.pfence c t))) s

/-- The address of a range operation (R347). -/
def rngVa (r : Rng) (g : Gang) (l : Nat) : DWord := g.rd64 r.base l + r.off.signExtend 64

/-- FLUSH and INVAL: one entry that covers every lane's range (R347), in the slice of the lowest lane (assumption 24). -/
def rangeOp (i : Instr) (r : Rng) (kind : SQKind) (s : State) : Outcome State Fault Refusal :=
  issue i (bothGates (memGate false) fun part s => roomGate (match lowLane part with | some l => laneBit l | none => 0) s)
    (fun part s =>
      memChecks s part false false 1 1 false (fun _ => 0) fun _ =>
        let accs := (lanesOf part).map fun l => mkAcc l 0 (s.cur.rdSrc32 r.len l).toNat (rngVa r s.cur l)
        .done ((s.enter (s.newEntry (s.who part false) ((lowLane part).getD 0 / 4) kind accs)).countStore)) s

/-- FLUSH (R130, R347). -/
def execFlush (r : Rng) (s : State) : Outcome State Fault Refusal := rangeOp (.flush r) r .flush s

/-- INVAL (R130, R347). -/
def execInval (r : Rng) (s : State) : Outcome State Fault Refusal := rangeOp (.inval r) r .inval s

/-! ### SDRAIN (R219, R348) -/

/-- A store of a gang with an entry number below `bound` whose check is still to come (R348). -/
def State.unchecked (s : State) (g : GKey) (bound : Nat) : Bool :=
  (s.coreAt g.core).sq.any fun e => e.who.g == g && e.kind.isStore && !e.checked && decide (e.id < bound)

/-- SDRAIN: its strand issues nothing more until every store the gang issued before it has passed its check, and with none open two cycles
later; a guard other than pt traps (R348). -/
def execSdrain (h : Hdr) (s : State) : Outcome State Fault Refusal :=
  issue (.sdrain h) noGate (fun part s =>
    if h.g1.neg || h.g1.idx.val != 47 then .trap (.form part)
    else if s.unchecked s.cur.key s.nextId then
      .done (s.modStrand fun st => { st with state := .parked, waitOn := .checks s.nextId })
    else .done (s.modStrand fun st => { st with notBefore := s.clock + 2 })) s

/-- Strands whose SDRAIN has nothing left to wait for go on (R348). -/
def State.wakeChecks (s : State) (g : GKey) : State :=
  s.modGang g fun k => (List.range 16).foldl (fun k j =>
    match (k.strandAt j).waitOn with
    | .checks bound => if s.unchecked g bound then k else k.wake s.clock j
    | _ => k) k

/-! ### WAITW (R349) -/

/-- A lane's watch of its word, not yet placed. -/
def State.newWatch (s : State) (who : Who) (o : WaitW) (cmp : DWord) (a : LaneAcc) : Watch :=
  { id := s.nextId, who := who, lane := a.lane, va := a.va, pa := a.pa, cc := o.cc, ty := o.ty, acq := o.acq, cmp := cmp,
    dst := o.d, value := none, placed := false, again := false, home := homeOf a.attr a.pa }

/-- A watch of a lane's word. -/
def State.addWatch (s : State) (who : Who) (o : WaitW) (cmp : DWord) (a : LaneAcc) : State :=
  { s with nextId := s.nextId + 1, watches := s.watches ++ [s.newWatch who o cmp a] }

/-- The request that first reads the words of a frame at their home for all lanes, once the entries R109 and R347 name are complete: the lanes
of a word read at one point (R333, R349). -/
def State.watchFrame (s : State) (who : Who) (o : WaitW) (accs : List LaneAcc) : State :=
  let core := who.g.core
  let after := if o.acq then (s.coreAt core).homeAfter who accs else (s.coreAt core).rangeAfter who accs
  s.placeAll ((sectorsOf accs).map fun sec =>
    { s.request core agentL1 who .watch sec (inSector accs sec) with
      ty := some (if o.ty.wide then .n64 else .n32), order := if o.acq then .acq else .none, after := after })

/-- WAITW: each lane reads its word at the home and watches it; the strand waits past WAITW until every lane is satisfied
(R349). -/
def execWaitw (o : WaitW) (s : State) : Outcome State Fault Refusal :=
  issue (.waitw o) (memGate false) (fun part s =>
    let va := GMem.addr o.m s.cur
    let size := if o.ty.wide then 8 else 4
    memChecks s part false false size 0 false va fun _ =>
      preciseTranslate s 0 false .read (laneAccs part 1 size va) fun accs s1 =>
        let who := s1.who part false
        dataChecks s1 who 0 false (if o.acq then .home else .fetch) accs fun _ =>
        let s2 := s1.modCur fun g => g.markPend o.d (if o.ty.wide then 2 else 1) s.strand.mask part (pendMark s1.cur.issueSeq s1.curStrand)
        let s3 := s2.waitStrand .barWait .word (lowAddr part va) none .word
        let s4 := accs.foldl (fun s a => s.addWatch who o (s1.cur.rd o.ty.wide o.b a.lane) a) s3
        let s5 := byFrame accs (fun s l => s.watchFrame who o l) s4
        .done (if o.acq then s5.addHold who .acquire else s5)) s

/-! ### Pinning (R158, R200, R350) -/

/-- The pages an instruction names, clipped to the window (R350). -/
def pinRange (t : Team) (va n : Nat) : List Nat := (List.range t.pages).filter fun p => decide (va ≤ p ∧ p < va + n)

/-- SPUNPIN: the pages are unpinned: another team may take their physical pages (R200, R350). -/
def execSpunpin (h : Hdr) (a : Reg) (n : Src) (s : State) : Outcome State Fault Refusal :=
  issue (.spunpin h a n) noGate (fun part s =>
    match lowLane part with
    | none => .done s
    | some l =>
      .done (s.modTeam s.cur.team fun t =>
        { t with
          unpinned := (t.unpinned ++ pinRange t (s.cur.rd32 a l).toNat (s.cur.rdSrc32 n l).toNat).dedup })) s

/-- SPPIN waits until its pages find free physical pages (R350). -/
def pinGate (a : Reg) (n : Src) (part : LaneMask) (s : State) : Option State :=
  match lowLane part, s.teamAt s.cur.team with
  | some l, some t =>
    let want := (pinRange t (s.cur.rd32 a l).toNat (s.cur.rdSrc32 n l).toNat).filter t.unpinned.contains
    if s.pinnedPages s.cur.key.core + want.length ≤ spPages then none else some s
  | _, _ => none

/-- SPPIN: the pages are pinned, and those that stand in no physical page take one and are filled from their frames (R350). -/
def execSppin (h : Hdr) (a : Reg) (n : Src) (s : State) : Outcome State Fault Refusal :=
  issue (.sppin h a n) (bothGates (memGate false) (pinGate a n)) (fun part s =>
    memChecks s part false false 1 1 false (fun _ => 0) fun _ =>
      match lowLane part with
      | none => .done s
      | some l =>
        let want := match s.teamAt s.cur.team with
          | some t => pinRange t (s.cur.rd32 a l).toNat (s.cur.rdSrc32 n l).toNat
          | none => []
        .done (s.pinPages s.cur.team want)) s

end Sys2Proof.Machine
end

