-- ==== Sys2Proof/Machine/Moves.lean ====
section
/-! DEFINITION. The moves of memory (R101 to R148, R217 to R219, R349, R428, R429): what a home does for each request at its
point in the order, results returning, background moves, merges, store checks, the scratchpad banks. -/

namespace Sys2Proof.Machine

open Host (Outcome)

/-! ### Records (R216) -/

/-- A store-fault record and its companion enter the two queues (R216, R217). A gang has one such record at most. -/
def State.enqueueStore (s : State) (p : PendRec) : State :=
  let n := ofCycle s.clock s.storeAt s.storeQ
  let m := behindRec (s.storeQ.map fun r => r.place 0) n (p.fr.place 0)
  { s.enqueue p with storeQ := putBefore s.storeQ m p.fr id, storeAt := (s.clock, n + 1) }

/-- A store-fault record with its companion enters the two queues together, or waits until both have room (R216, R217). -/
def State.postStore (s : State) (r : FRec) (g : GKey) (strand : Nat) (team : TKey) : State :=
  let p := s.detect r true g strand team true
  if s.faultQ.length < faultRoom && s.storeQ.length < storeRoom && s.pendRecs.isEmpty then s.enqueueStore p else s.hold p

/-- FAULT_RECORD_WRITE: the record that has waited longest is written, once its queues have room (R216). -/
def execFaultRecordWrite (s : State) : Outcome State Fault Refusal :=
  match s.pendRecs with
  | [] => .next s
  | p :: rest =>
    if s.faultQ.length < faultRoom && (!p.store || s.storeQ.length < storeRoom) then
      .next { (if p.store then s.enqueueStore p else s.enqueue p) with pendRecs := rest, recAt := (s.clock, 0), storeAt := (s.clock, 0) }
    else .next s

/-! ### Serving a request at its home (R101, R133, R137, R146, R150) -/

/-- The words of a request. -/
def OrnReq.words (r : OrnReq) : List Nat := (r.accs.flatMap LaneAcc.words).dedup

/-- Every word of a sector. -/
def sectorWords (sector : Nat) : List Nat := (List.range 8).map (sector * 8 + ·)

/-- The words of a request that no engine may own unwritten: a path fill and an update-only entry take the whole sector
(R117, R136, R146). -/
def OrnReq.waitWords (r : OrnReq) : List Nat :=
  match r.kind with
  | .pathFill _ | .uEnter _ => sectorWords r.sector
  | _ => r.words

/-- A prefetch makes no merge and no fill in an update-only sector (R137, R340). -/
def OrnReq.isPref (r : OrnReq) : Bool := r.entry.isNone && r.ty.isNone && (match r.kind with | .fetch | .pathFill _ | .l2Fill => true | _ => false)

/-- The sector's engine entry is this engine's (R132). -/
def State.engHolds (s : State) (core eng sector : Nat) : Bool :=
  match (s.dirAt sector).eng with
  | some e => e.core == core && e.eng == eng
  | none => false

/-- A word that an engine owns belongs to another engine. -/
def State.othersWord (s : State) (core eng w : Nat) : Bool := s.engineOwns w && !s.engHolds core eng (w / 8)

/-- What stops a request at the home: a word an engine owns and has not written; for an engine's own reads, another engine's word; for its
registration, words of the sector that another engine has still to write; for its writes, a word it does not own yet (R134, R145 to R147). -/
def State.engineStops (s : State) (r : OrnReq) : Bool :=
  match r.kind with
  | .engReg eng =>
    match (s.dirAt r.sector).eng with
    | some e => !(e.core == r.core && e.eng == eng) && e.mask != 0
    | none => false
  | .engRead eng => r.words.any (s.othersWord r.core eng)
  | .engWrite eng => r.words.any fun w => !s.engineOwns w || s.othersWord r.core eng w
  | _ => r.waitWords.any s.engineOwns

/-- A request is an operation on a page that this device does not own, to be performed at the page's home device (R90, R152). -/
def State.mustForward (s : State) (r : OrnReq) : Bool :=
  s.forwards (r.sector * 32) && match r.kind with
    | .atomic _ | .red _ | .uEnter _ => true
    | _ => false

/-- One operation is sent to the home device of its page (R90, R152). -/
def State.forward (s : State) (core : Nat) (who : Who) (op : HomeOp) (order : Order) (ty : Option MTy) (dst : Option Reg) (entry : Option Nat)
    (a : LaneAcc) : State :=
  let (id, s1) := s.fresh
  { s1.send (devOf a.pa) (.forwarded id a.pa a.attr.pin op a.x a.y order) with
    fwd := s1.fwd ++ [{ id := id, dev := devOf a.pa, core := core, who := who, op := op, acc := a, ty := ty, dst := dst, entry := entry }] }

/-- Operations forwarded lane by lane; a release drains its core first (R111, R152). -/
def State.forwardAll (s : State) (core : Nat) (who : Who) (op : HomeOp) (order : Order) (ty : Option MTy) (dst : Option Reg) (entry : Option Nat)
    (accs : List LaneAcc) : State :=
  let s0 := if (order == .rel || order == .ar) && !accs.isEmpty then s.drainCore core else s
  accs.foldl (fun s a => s.forward core who op order ty dst entry a) s0

/-- The contribution that asked for an update-only sector is made: its entry has one access fewer (R136). -/
def State.dropContribution (s : State) (r : OrnReq) : State :=
  s.modCore r.core fun c =>
    { c with gone := modWhere (fun x => some x.id == r.entry) (fun x => { x with accs := x.accs.tail }) c.gone }

/-- A contribution is forwarded: its entry keeps the word, on which a later load of the thread waits (R90, R106). -/
def State.farContribution (s : State) (r : OrnReq) : State :=
  s.modCore r.core fun c =>
    { c with gone := modWhere (fun x => some x.id == r.entry) (fun x => { x with accs := x.accs.tail, far := x.far ++ x.accs.take 1 }) c.gone }

/-- A request is forwarded at its point (R152). -/
def State.forwardReq (s : State) (r : OrnReq) : State :=
  match r.kind with
  | .atomic op | .red op => s.forwardAll r.core r.who op r.order r.ty r.dst r.entry r.accs
  | .uEnter tag => (s.forwardAll r.core r.who (.redu tag) .none none none r.entry r.accs).farContribution r
  | _ => s

/-- An acquire is not performed while its thread's queue holds an entry to its words (R109). -/
def State.acquireStops (s : State) (r : OrnReq) : Bool :=
  match r.kind with
  | .acquireLoad => (s.coreAt r.core).queued r.who r.accs
  | .watch => r.order == .acq && (s.coreAt r.core).queued r.who r.accs
  | _ => false

/-- A request must wait at its home (R109, R133, R146, R150): for an engine's write, for its thread's queue, for a page, for a merge that is under
way. -/
def State.stalls (s : State) (r : OrnReq) : Bool :=
  s.engineStops r || s.acquireStops r || (!s.ownsPage (r.sector * 32) && !s.mustForward r) || (s.dirAt r.sector).merging

/-- Every request of a list waits, or stands behind one of its sector that does (R133). -/
def State.allStalled (s : State) : List Nat → List OrnReq → Bool
  | _, [] => true
  | secs, r :: rest =>
    if secs.contains r.sector then s.allStalled secs rest else s.stalls r && s.allStalled (r.sector :: secs) rest

/-- The engine that made a request, of those that own words (R132). -/
def OrnReq.engine (r : OrnReq) : Option Nat := match r.kind with | .engRead eng | .engWrite eng => some eng | _ => none

/-- An engine's read or write does not stand behind a request of its sector that waits for that engine's own words: the engine would never write
them (R134, R146; DEDUCED, log entry 93). -/
def State.passes (s : State) (r x : OrnReq) : Bool :=
  match r.engine with
  | some eng => x.sector == r.sector && x.core < 256 && s.engineStops x && s.engHolds r.core eng r.sector
  | none => false

/-- The turn of a request in the one order: no earlier one is of its sector, and every earlier one waits at its home (R101, R133, R175); a recall
goes to a core and stands in no request's way (R138). -/
def State.firstFor (s : State) (r : OrnReq) : Bool :=
  let before := (s.orn.takeWhile (fun x => x.id != r.id)).filter fun x => !x.isRecall && !s.passes r x
  !before.any (fun x => x.sector == r.sector) && s.allStalled [] before

/-- A merge of the sector is under way or begins; when it is over the request can be served (R137, R138). One whose last partial has come to
the home by a parking ends now (R139). -/
def State.mergeFirst (s : State) (sector : Nat) : State × Bool :=
  let d := s.dirAt sector
  if d.uTag = 0 then (s, true)
  else if d.merging then (if (s.toRecall sector).isEmpty then (s.mergeEnd sector, true) else (s, false))
  else
    let s1 := s.mergeStart sector
    (s1, (s1.dirAt sector).uTag == 0)

/-- The urgent gang of a team: the greatest lateness, the lowest GANGID of those (R168). -/
def State.urgent (s : State) (g : Gang) : Bool :=
  let team := s.teamGangs g.team
  g.lateness != 0 && decide (2 ≤ team.length) &&
    team.all fun h => h.key == g.key || decide (h.lateness < g.lateness ∨ (h.lateness = g.lateness ∧ g.gangId < h.gangId))

/-- The priority a fill takes for an access with a hint (R128). -/
def State.priOf (s : State) (who : Who) (hint : BitVec 2) (a : Attr) : Nat := fillPri hint a.pri (s.urgent (s.gangAt who.g))

/-- The priority a fill takes for a request (R128). -/
def State.requestPri (s : State) (r : OrnReq) (a : Attr) : Nat := s.priOf r.who r.pri a

/-- The attributes of a request's page. -/
def OrnReq.attr (r : OrnReq) : Attr := match r.accs with | a :: _ => a.attr | [] => Attr.none

/-- Whether a request reads home words, and whether it writes them there: an ownership alone does neither (R104, R108, R111, R127). -/
def OrnReq.homeUse (r : OrnReq) : Bool × Bool :=
  match r.kind with
  | .register => (false, r.accs.any fun a => a.attr.wt || a.attr.cache != 0)
  | .release => (false, true)
  | .atomic _ | .red _ | .remote .. => (true, true)
  | .engWrite _ => (false, true)
  | .uEnter _ | .engReg _ | .askBack _ => (false, false)
  | _ => (true, false)

/-- A request that answers no strand and no engine of this device: a prefetch, an operation of another device. -/
def OrnReq.unanswered (r : OrnReq) : Bool := r.isPref || match r.kind with | .remote .. => true | _ => false

/-- The access kind of a request's records (R215). -/
def OrnReq.accessKind (r : OrnReq) : Nat :=
  match r.kind with
  | .register | .release | .red _ | .uEnter _ => 1
  | .atomic _ => 2
  | .engReg _ | .engRead _ | .engWrite _ | .push .. => 4
  | _ => 0

/-- A request that reads its sector at the home meets the sector's uncorrectable error: a load only where its queue, its view or a path copy does
not supply every byte (R234). -/
def State.meetsError (s : State) (r : OrnReq) : Bool :=
  (s.poison.contains r.sector && r.homeUse.1 && match r.kind with
    | .fetch => r.isPref || !((s.coreAt r.core).fetchWords r.who r.accs r.forced).isEmpty
    | .pathFill tile => r.isPref || r.accs.any fun a => ((s.coreAt r.core).pathBytes tile a).isNone
    | _ => true) || ((match r.kind with | .engRead _ | .push .. => true | _ => false) && r.words.any s.badWord)

/-- What an engine's read returns, for the command that made it (R147). -/
def State.addEngIn (s : State) (eng : Nat) (r : OrnReq) (f : LaneAcc → Option (List Byte)) : State :=
  s.modCore r.core fun c =>
    { c with engIn := c.engIn ++ r.accs.map fun a => { eng := eng, g := r.who.g, seq := r.who.seq, pa := a.pa, n := a.size, bytes := f a } }

/-- A request meets an uncorrectable error at its home, or in a dirty copy that it recalls (R231, R234, R235): an engine learns of it as of a read
that fails, any other access faults. -/
def State.failRead (s : State) (r : OrnReq) : State :=
  let w := (r.words.find? s.badWord).getD (r.sector * 8)
  let (unit, at') := s.unitOf (4 * w) r.attr
  let addr : DWord := BitVec.ofNat 64 (4 * w / 8 * 8)
  let s1 := (s.logErr r.who.field 2 unit at' (errStack unit addr) addr).condemn w
  match r.kind, r.accs with
  | .engRead eng, _ => s1.addEngIn eng r fun _ => none
  | _, a :: _ => s1.dataFault r.who r.accessKind a.va (maskOf fun l => r.accs.any fun x => x.lane == l)
  | _, [] => s1

/-- The use of L2 that serving a request makes (R122, R128, R203). -/
def State.l2Serve (s : State) (r : OrnReq) : State :=
  let (reads, writes) := r.homeUse
  if reads || writes then
    s.l2Access (homeOf r.attr (r.sector * 32)) r.sector r.who.ctx (s.requestPri r r.attr) (r.attr.cache != 2) reads writes
  else s

/-- The service of a request at its point: the first for its sector, on a page this device owns, no engine's word unwritten, its
sector merged where `merge` says so (R133, R137, R146, R150). Accesses that return data have met an uncorrectable error when they issued
(R331, R234), and meet here one that has come since; a prefetch fills nothing where the sector is one. An access whose drain or recall finds an
error faults by it (R231). -/
def State.serve (s : State) (id : Nat) (ok : OrnKind → Bool) (go : OrnReq → State → State) : State :=
  match s.orn.find? (fun r => r.id == id) with
  | none => s
  | some r =>
    let d := s.dirAt r.sector
    if !ok r.kind || !s.firstFor r || s.engineStops r || s.acquireStops r then s
    else if !s.ownsPage (r.sector * 32) then
      if s.mustForward r then (s.forwardReq r).finish r else s.wantPage (r.sector * 32)
    else if r.isPref && d.uTag != 0 then s.finish r
    else
      let sameTag := match r.kind with | .uEnter t => d.uTag == t.val && !d.merging | _ => false
      match (if sameTag then (s, true) else s.mergeFirst r.sector) with
      | (s1, false) => s1
      | (s1, true) =>
        if s1.meetsError r then (if r.unanswered then s1 else s1.failRead r).finish r
        else
          let s2 := go r (s1.l2Serve r)
          (if r.who.g.core < 256 then s1.blame s2 r.who r.accessKind else s2).finish r

/-! ### Registration of stores (R104, R127, R334) -/

/-- What accesses write of a word: the bytes by mask, a later access over an earlier one (R333). -/
def wordWrite (accs : List LaneAcc) (w : Nat) : BitVec 4 × Word :=
  (List.range 4).foldl (fun (p : BitVec 4 × Word) k =>
    match accs.reverse.findSome? (fun a => a.byteAt 0 (4 * w + k)) with
    | some b => (p.1 ||| (1#4 <<< k), p.2 ||| ((b.setWidth 32 : Word) <<< (8 * k)))
    | none => p) (0#4, 0#32)

/-- The maximal runs of contiguous words of an ascending list (R127). -/
def runsOf : List Nat → List (Nat × Nat)
  | [] => []
  | w :: rest =>
    match runsOf rest with
    | (a, n) :: more => if a = w + 1 then (w, n + 1) :: more else (w, 1) :: (a, n) :: more
    | [] => [(w, 1)]

/-- Ascending words of a list of accesses. -/
def wordsAscending (accs : List LaneAcc) : List Nat := ((accs.flatMap LaneAcc.words).dedup).insertionSort (· ≤ ·)

/-- Words placed in a view, frame by frame and run by run; `new` gives their contents (R125, R127). -/
def State.placeRuns (s : State) (core pri : Nat) (ws : List Nat) (new : Nat → VWord) : State :=
  (((ws.map (· / 128)).dedup).flatMap fun f => runsOf (ws.filter fun w => w / 128 == f)).foldl (fun s (w, n) =>
    if (List.range n).all fun k => ((s.coreAt core).view (w + k)).isSome then s
    else s.fill core
      { frame := w / 128, lo := w % 128, words := (List.range n).map fun k => new (w + k), need := fun _ => true, pri := pri,
        predIdx := none }) s

/-- A core's view of a word as its store leaves it: the bytes written over those it held (R104, R334). -/
def storedWord (old : Option VWord) (mask : BitVec 4) (x : Word) : VWord :=
  match old with
  | some v => { st := .dirty, x := mixWord mask x v.x, written := v.written ||| mask, known := v.known ||| mask, bad := v.bad && mask != 15#4 }
  | none => { st := .dirty, x := mixWord mask x 0, written := mask, known := mask }

/-- The words of accesses that a core's view takes: those of pages cached in L1 (R127). -/
def viewWords (accs : List LaneAcc) : List Nat := wordsAscending (accs.filter fun a => a.attr.cache == 0)

/-- The partials of some sectors leave a core's L1 for their homes' parking buffers, as on an eviction: the core's view is to take words of those
sectors, and no block holds both (R104, R135, R139; DEDUCED, log entry 113). -/
def State.parkSectors (s : State) (core : Nat) (secs : List Nat) : State :=
  ((s.coreAt core).ub.filter fun u => secs.contains u.sector).foldl (fun s u => s.park core u) s

/-- A retiring store's words in its core's view, owned dirty, the most recent (R104, R121, R127). -/
def State.storeView (s0 : State) (core : Nat) (e : SQEntry) : State :=
  let ws := viewWords e.accs
  let s := s0.parkSectors core (ws.map (· / 8))
  let new (old : Option VWord) (w : Nat) : VWord := let (mask, x) := wordWrite e.accs w; storedWord old mask x
  let s1 := ws.foldl (fun s w => s.modCore core fun c => c.modView w fun v => some (new (some v) w)) s
  let pri := s1.priOf e.who e.pri (match e.accs with | a :: _ => a.attr | [] => Attr.none)
  if ws.isEmpty then s0 else (s1.placeRuns core pri ws (new none)).touchView core ws

/-- Every word of a store that its core's view takes is held there. -/
def State.storeHeld (s : State) (core : Nat) (e : SQEntry) : Bool :=
  (viewWords e.accs).all fun w => ((s.coreAt core).view w).isSome

/-- The core's own ownership of a word ends with what it wrote and `mask` does not cover written home (R108). -/
def State.giveUp (s : State) (core w : Nat) (mask : BitVec 4) : State :=
  match (s.coreAt core).view w with
  | some v =>
    if v.st == .valid then s
    else (if v.bad && mask != 15#4 then s.spoil core (4 * w) else s.putWord w (v.written &&& ~~~ mask) v.x).modDir (w / 8) (Dir.dropOwner core w)
  | none => s

/-- A registered word in its core's view: the bytes the view has not from this store or a later one take the store's (R104). -/
def landWord (v : VWord) (mask : BitVec 4) (x : Word) : VWord :=
  storedWord (some v) (mask &&& ~~~ (if v.st == .dirty then v.written else 0)) x

/-- A store's words at its registration (R104): other owners lose them, and the core owns them; on a write-through page their
values go home too, and on an L2-only page they go home with no block placed (R127). A word that a write home has registered
already is left alone, one that the view lost since the store retired is placed again. -/
def State.registerWords (s0 : State) (r : OrnReq) : State := s0.asOne fun s =>
  let c := r.core
  let a := r.attr
  let ws := (wordsAscending r.accs).filter fun w => !r.done.contains w
  if a.cache ≠ 0 then
    ws.foldl (fun s w =>
      let (mask, x) := wordWrite r.accs w
      (((s.takeFrom c w mask).giveUp c w mask).putWord w mask x).modCore c fun k => k.modView w fun _ => none) s
  else
    let s1 := ws.foldl (fun s w =>
      let (mask, x) := wordWrite r.accs w
      (((s.takeFrom c w mask).ownerRoom c r.sector).modDir r.sector (Dir.addOwner c w)).modCore c fun k =>
        k.modView w fun v => some (landWord v mask x)) s
    let s2 := s1.placeRuns c (s.requestPri r a) ws fun w => let (mask, x) := wordWrite r.accs w; storedWord none mask x
    ws.foldl (fun s w =>
      match (s.coreAt c).view w with
      | none => let (mask, x) := wordWrite r.accs w; (s.putWord w mask x).modDir r.sector (Dir.dropOwner c w)
      | some _ => if a.wt then s.writeOwned c w .clean else s) s2

/-- What a retired store has had registered is on its way no more (R104, R106). -/
def State.dropRegistered (s : State) (r : OrnReq) : State :=
  s.modCore r.core fun c =>
    { c with gone := modWhere (fun e => some e.id == r.entry) (fun e => { e with accs := e.accs.filter fun a => sectorOf a.pa != r.sector }) c.gone }

/-- STORE_REGISTRATION (R104). -/
def execStoreRegistration (id : Nat) (s : State) : Outcome State Fault Refusal :=
  .next (s.serve id (fun k => k == .register) fun r s => (s.registerWords r).dropRegistered r)

/-! ### Releases and acquires (R108, R109) -/

/-- A release is written through: others lose the word, the core gives up its own ownership, the home takes the value and the
core joins the release record; the word is valid in the core's view (R108). -/
def State.releaseWords (s0 : State) (r : OrnReq) : State := s0.asOne fun s =>
  let c := r.core
  let a := r.attr
  let ws := wordsAscending r.accs
  let s1 := ws.foldl (fun s w =>
    let (mask, x) := wordWrite r.accs w
    let s1 := ((s.takeFrom c w mask).giveUp c w mask).putWord w mask x
    let s2 := s1.addRecord c w (homeOf a (4 * w))
    if a.cache ≠ 0 then s2.modCore c fun k => k.modView w fun _ => none
    else s2.modCore c fun k => k.modView w fun _ => some { st := .valid, x := s2.hword w, written := 0, known := 15 }) s
  if a.cache ≠ 0 then s1
  else (s1.placeRuns c (s.requestPri r a) ws fun w => { st := .valid, x := s1.hword w, written := 0, known := 15 }).touchView c ws

/-- RELEASE_WRITE_THROUGH (R108). -/
def execReleaseWriteThrough (id : Nat) (s : State) : Outcome State Fault Refusal :=
  .next (s.serve id (fun k => k == .release) fun r s => s.releaseWords r)

/-- A word owned dirty is written home and its ownership ends (R109). -/
def State.recallDirty (s : State) (w : Nat) : State :=
  match s.ownerOf w with
  | some d => (match (s.coreAt d).view w with | some v => if v.st == .dirty then s.writeBack d w .valid else s | none => s)
  | none => s

/-- Steps 1 to 3 of an acquire of words by a core: the other cores of the release records drain, a dirty copy is written home
(R109). -/
def State.acquireDrain (s : State) (core : Nat) (ws : List Nat) : State :=
  ws.foldl (fun s w => (s.drainRecord core w).recallDirty w) s

/-- The home bytes of an access. -/
def State.homeBytes (s : State) (a : LaneAcc) : List Byte := smBytes s.mem a.pa a.size

/-- ACQUIRE_AT_HOME: the drains, the read, and the self-invalidation (R109). -/
def execAcquireAtHome (id : Nat) (s : State) : Outcome State Fault Refusal :=
  .next (s.serve id (fun k => k == .acquireLoad) fun r s =>
    let s1 := s.acquireDrain r.core r.words
    if s1.poison.length ≠ s.poison.length then s1
    else
      let vs := r.accs.map fun a => (a, s1.homeBytes a)
      (s1.invalidateCore r.core).bringBack r.core r.who r.words (loadWrites r.who r.dst r.ty vs))

/-! ### Atomics (R111, R342, R344) -/

/-- One lane's operation at the home: the owners of its words written home and their ownership ended, the new value written,
the words absent from the core's view; the old value is returned (R111). -/
def State.alu (s : State) (r : OrnReq) (op : HomeOp) (acq rel : Bool) (a : LaneAcc) : State × DWord :=
  let ws := a.words
  let s0 := if acq then ws.foldl (fun s w => s.drainRecord r.core w) s else s
  let s1 := s0.asOne fun s => ws.foldl (fun s w => (s.recallWord w).modCore r.core fun k => k.modView w fun _ => none) s
  let old := BitVec.ofNat 64 (leNat (s1.homeBytes a))
  let s2 := if s1.poison.contains r.sector then s1 else s1.putHome a.pa (leBytes (aluNew op old a.x a.y).toNat a.size)
  (if rel then ws.foldl (fun s w => s.addRecord r.core w (homeOf a.attr (4 * w))) s2 else s2, old)

/-- The lanes of a request performed one after another in ascending order (R333). -/
def State.aluAll (s : State) (r : OrnReq) (op : HomeOp) (acq rel : Bool) : List LaneAcc → List (LaneAcc × List Byte) →
    State × List (LaneAcc × List Byte)
  | [], done => (s, done)
  | a :: rest, done =>
    let (s1, old) := s.alu r op acq rel a
    s1.aluAll r op acq rel rest (done ++ [(a, leBytes old.toNat a.size)])

/-- A forwarded operation at its home: an acquire drains the release record first; its old value goes back (R109, R111, R152). -/
def State.remoteAlu (s : State) (r : OrnReq) (id dev : Nat) (op : HomeOp) (a : LaneAcc) : State :=
  let ws := a.words
  let s0 := if r.order == .acq || r.order == .ar then ws.foldl (fun s w => s.drainRecord 256 w) s else s
  let s1 := s0.asOne fun s => ws.foldl State.recallWord s
  let old := BitVec.ofNat 64 (leNat (s1.homeBytes a))
  let s2 := if s1.poison.contains r.sector then s1 else s1.putHome a.pa (leBytes (aluNew op old a.x a.y).toNat a.size)
  s2.send dev (.atomicReply id old)

/-- An operation of another device on some page stands in the order. -/
def State.remoteOpen (s : State) (page : Nat) : Bool :=
  (s.ornWait ++ s.orn).any fun r => (match r.kind with | .remote .. => true | _ => false) && r.sector * 32 / 65536 == page

/-- FORWARDED_ATOMIC: the operation another device forwarded that is first in the order is performed at its home slice; where none is in
the order, the one that came first of those on whose page none stands in it is placed by that slice: those on one page are performed as they came
(R90, R131, R141, R152). -/
def execForwardedAtomic (s : State) : Outcome State Fault Refusal :=
  match s.orn.find? fun r => match r.kind with | .remote .. => true | _ => false with
  | some r =>
    .next (s.serve r.id (fun k => match k with | .remote .. => true | _ => false) fun r s =>
      match r.kind, r.accs with
      | .remote id dev op, a :: _ => s.remoteAlu r id dev op a
      | _, _ => s)
  | none =>
    match s.remoteOps.find? fun o => !s.remoteOpen (o.pa / 65536) with
    | none => .next s
    | some o =>
      let a : LaneAcc :=
        { mkAcc 0 0 (if homeWide o.op then 8 else 4) 0 with
          ok := true, pa := o.pa, attr := { Attr.none with pin := o.pin }, x := o.x, y := o.y }
      let home := homeOf a.attr o.pa
      let r := { s.request (256 + home) agentHome Who.empty (.remote o.id o.dev o.op) (sectorOf o.pa) [a] with
        die := home / 64, pos := home % 64, order := o.order }
      .next ({ s with remoteOps := s.remoteOps.erase o }.place r)

/-- ATOMIC_AT_HOME: an atomic returns its old values and, with an acquire, the core's view self-invalidates; a RED returns
nothing (R111, R342, R344). -/
def execAtomicAtHome (id : Nat) (s : State) : Outcome State Fault Refusal :=
  .next (s.serve id (fun k => match k with | .atomic _ | .red _ => true | _ => false) fun r s =>
    let acq := r.order == .acq || r.order == .ar
    let rel := r.order == .rel || r.order == .ar
    match r.kind with
    | .atomic op =>
      let (s1, vs) := s.aluAll r op acq rel r.accs []
      let s2 := if acq then s1.invalidateCore r.core else s1
      if s2.poison.length ≠ s.poison.length then s2 else s2.bringBack r.core r.who r.words (loadWrites r.who r.dst r.ty vs)
    | .red op => (s.aluAll r op false false r.accs []).1
    | _ => s)

/-! ### Fetches (R106, R123, R125, R126) -/

/-- A word that a fill may bring beside those the access needs: not in an update-only sector, not engine-owned (R106). -/
def State.mayFill (s : State) (w : Nat) : Bool := (s.dirAt (w / 8)).uTag == 0 && !s.engineOwns w && !s.poison.contains (w / 8)

/-- A word that a fill of a request may bring from the home as it is now: one that may come, and of a sector that no request before it in the order
has still to be served in, so that it has its value at the request's point (R101, R106, R144). -/
def State.mayBring (s : State) (r : OrnReq) (w : Nat) : Bool :=
  s.mayFill w && (w / 8 == r.sector ||
    !(s.orn.takeWhile fun x => x.id != r.id).any fun x => x.sector == w / 8 && x.grp != r.grp && !x.isRecall)

/-- The words that the other parts of a fetch need, where a fill may bring them (R123, R126). -/
def State.mateNeeds (s : State) (r : OrnReq) : List Nat :=
  (((s.orn.filter fun x => x.grp == r.grp && x.id != r.id && x.kind == .fetch).flatMap fun x =>
    (s.coreAt r.core).fetchWords x.who x.accs x.forced).filter (s.mayBring r))

/-- The fill of a fetch in its frame: the smallest range that covers the aligned groups around the sectors the access fetches, home
values of the words that may come, the needed ones among them (R123, R125). -/
def State.fetchFill (s : State) (r : OrnReq) (need : List Nat) : State :=
  let a := r.attr
  let c := s.coreAt r.core
  let (n, predIdx) := spanSize r.span a.span c.pred r.who.pc
  let frame := r.sector / 16
  let groups := (r.sector :: r.spread).map fun x => x % 16 / n * n
  let lo := groups.foldl Nat.min 15 * 8
  let hi := (groups.foldl Nat.max 0 + n) * 8
  let all := need ++ s.mateNeeds r
  let ws := ((List.range (hi - lo)).map (frame * 128 + lo + ·)).filter fun w => all.contains w || s.mayBring r w
  (runsOf ws).foldl (fun s (w, k) =>
    let mine := (List.range k).map (w + ·)
    if mine.any fun x => need.contains x && ((s.coreAt r.core).view x).isNone then
      s.fill r.core
        { frame := frame, lo := w % 128, words := mine.map fun x => { st := .valid, x := s.hword x, written := 0, known := 15 },
          need := fun i => all.contains (frame * 128 + i), pri := s.requestPri r a, predIdx := predIdx }
    else s) s

/-- A fetched word that the view holds already takes the home's bytes where it does not own them, or does not hold them
(R106, R126). -/
def State.refreshWord (s : State) (core w : Nat) : State :=
  s.modCore core fun c => c.modView w fun v =>
    if v.st == .valid then some { v with x := s.hword w, known := 15 }
    else some { v with x := mixWord v.known v.x (s.hword w), known := 15 }

/-- The value of an access at a fetch's point: the queue's bytes, then those that the core owns or that its thread's store has on the way, then what the
fetch brings, or the view for words that were not fetched (R106, R126). -/
def State.fetchedBytes (s : State) (c : Core) (r : OrnReq) (need : List Nat) (a : LaneAcc) : List Byte :=
  a.bytesAt.map fun (va, pa) =>
    match c.queueByte r.who a.lane va pa with
    | .byte b => b
    | _ =>
      if r.forced.contains pa then smGet s.mem pa
      else match c.ownByte r.who a va pa with
        | some b => b
        | none => if need.contains (pa / 4) then smGet s.mem pa else (c.heldByte r.who a va pa).getD (smGet s.mem pa)

/-- Watches a home slice holds (R349). -/
def watchRoom : Nat := 256

/-- The first read of a lane of WAITW, or a later one where no watch was free: satisfied at this point, or it watches its word
(R349). -/
def State.watchRead (s : State) (id : Nat) : State :=
  let busy (w : Watch) : Nat := (s.watches.filter fun x => x.placed && x.value.isNone && x.home == w.home).length
  { s with
    watches := s.watches.map fun w =>
      if w.id != id then w
      else if watchHolds w (watchValue s.mem w) then { w with value := some (watchValue s.mem w), placed := true }
      else if busy w < watchRoom then { w with placed := true, again := false }
      else { w with again := true } }

/-- The watches that a request of a WAITW reads for (R349). -/
def State.watchedBy (s : State) (r : OrnReq) : List Nat :=
  (s.watches.filter fun w => w.who.g == r.who.g && w.who.seq == r.who.seq && r.accs.any fun a => a.lane == w.lane).map (·.id)

/-- LOAD_FETCH: the value is fixed at this point, the words become valid in the view, and the data is on its way (R106, R126,
R144). On L2-only and uncached pages no block is placed (R335). -/
def execLoadFetch (id : Nat) (s : State) : Outcome State Fault Refusal :=
  .next (s.serve id (fun k => match k with | .fetch | .watch | .l2Fill => true | _ => false) fun r s =>
    match r.kind with
    | .watch => (s.watchedBy r).foldl State.watchRead s
    | .l2Fill => s
    | _ =>
    let c := s.coreAt r.core
    let need := c.fetchWords r.who r.accs r.forced
    let vs := r.accs.map fun a => (a, s.fetchedBytes c r need a)
    let s1 := if r.attr.cache = 0 then
        ((need.foldl (fun s w => s.refreshWord r.core w) s).fetchFill r need).touchView r.core r.words
      else s
    s1.deliver r.core r.who r.words r.dst r.ty vs)

/-- Words a path's cache holds (R4). -/
def pathRoom (tile : Bool) : Nat := if tile then 32768 else 16384

/-- A path's copies after a fill of a sector: those held longest leave a full cache (assumption 9). -/
def Core.pathPut (c : Core) (tile : Bool) (ws : List (Nat × Word)) : Core :=
  let old := (c.pathWords tile).filter fun p => !ws.any fun q => q.1 == p.1
  let all := old ++ ws
  let kept := all.drop (all.length - pathRoom tile)
  if tile then { c with tpath := kept } else { c with cpath := kept }

/-- PATH_FILL: all eight words of the sector from the home, kept but for an uncached page; words that a copy holds by now come from
it, since only PFENCE refreshes a copy (R117, R335). -/
def execPathFill (id : Nat) (s : State) : Outcome State Fault Refusal :=
  .next (s.serve id (fun k => match k with | .pathFill _ => true | _ => false) fun r s =>
    match r.kind with
    | .pathFill tile =>
      match r.accs.mapM fun a => ((s.coreAt r.core).pathBytes tile a).map fun b => (a, b) with
      | some vs => s.bringBack r.core r.who r.words (loadWrites r.who r.dst r.ty vs)
      | none =>
        let ws := (sectorWords r.sector).map fun w => (w, s.hword w)
        let s1 := if r.attr.cache = 2 then s else s.modCore r.core fun c => c.pathPut tile ws
        s1.bringBack r.core r.who r.words (loadWrites r.who r.dst r.ty (r.accs.map fun a => (a, s.homeBytes a)))
    | _ => s)

/-! ### Results (R48, R49, R144, R312) -/

/-- A response to a core is held while one ordered before it brings a word that it brings too (R144). -/
def Core.heldBack (c : Core) (f : Flight) : Bool :=
  (c.inflight.takeWhile fun x => x.id != f.id).any fun x => x.words.any f.words.contains

/-- DATA_RETURN: a result is written, its pending bits clear, its flags are ORed in, and strands that waited for it go on (R48,
R49, R64); one that came before an earlier-ordered response for the same word is held (R144). -/
def execDataReturn (core id : Nat) (s : State) : Outcome State Fault Refusal :=
  match ((s.coreAt core).inflight.find? (fun f => f.id == id)).filter fun f => !(s.coreAt core).heldBack f with
  | none => .next s
  | some f =>
    let s1 := s.modCore core fun c => { c with inflight := c.inflight.filter fun x => x.id != id }
    .next (s1.modGang f.g fun g =>
      ((g.land f.writes (pendMark f.seq f.strand)).orFlags f.flags).unpark)

/-! ### Background moves (R107) -/

/-- BACKGROUND_WRITEBACK (R107). -/
def execBackgroundWriteback (core wa : Nat) (m : BgMove) (s : State) : Outcome State Fault Refusal :=
  match (s.coreAt core).view wa with
  | none => .next s
  | some v =>
    match m with
    | .writeHome => .next (if v.st == .dirty then s.writeBack core wa .clean else s)
    | .endOwnership => .next (if v.st == .clean then s.writeBack core wa .valid else s)
    | .drop => .next (if v.st == .valid then s.modCore core fun c => c.modView wa fun _ => none else s)

/-! ### Update-only contributions (R87, R114, R135, R136, R139) -/

/-- The contribution of an access combined into a partial of a sector (R86, R135). -/
def contribute (tag : Nat) (a : LaneAcc) (ps : List Partial) : List Partial :=
  let k := a.pa % 32 / (if tag = 2 then 8 else 4)
  modAt ps k fun p => { p with x := tagCombine tag p.x (tagWiden tag (if tag = 2 then a.x else (a.x.setWidth 32 : Word).setWidth 64)), set := true }

/-- An update-only sector of a core's L1 takes a contribution and is the most recent. -/
def State.addPartial (s : State) (core tag : Nat) (a : LaneAcc) : State :=
  let (age, s1) := s.fresh
  s1.modCore core fun c =>
    { c with ub := modWhere (fun u => u.sector == sectorOf a.pa) (fun u => { u with parts := contribute tag a u.parts, age := age }) c.ub }

/-- An update-only block of a core: the sector's words leave its view (R136), but for those of stores that are still to be registered (R104). -/
def Core.putUb (u : UBSector) (c : Core) : Core :=
  { c.mapView fun w v => if w / 8 = u.sector && v.st != .dirty then none else some v with ub := c.ub ++ [u] }

/-- A core that holds words of a sector dirty, which stores have still to register, leaves its partials of the sector at the home (R104, R135,
R139; DEDUCED, log entry 113). -/
def State.settleUb (s : State) (core sec : Nat) : State :=
  if (s.coreAt core).blocks.any fun b => (List.range b.words.length).any fun i => (b.frame * 128 + b.start + i) / 8 == sec then
    s.parkSectors core [sec]
  else s

/-- The block an access's sector takes (R135). -/
def ubFor (tag : Nat) (a : LaneAcc) (parts : List Partial) (age : Nat) : UBSector :=
  { sector := sectorOf a.pa, tag := tag, parts := parts, home := homeOf a.attr a.pa, pri := Nat.min a.attr.pri.toNat 2, age := age }

/-- Room for an update-only block is made; it may merge sectors, this one among them (R128, R139). -/
def State.ubRoom (s : State) (core : Nat) (a : LaneAcc) : State :=
  s.makeRoom core (l1Set (sectorOf a.pa / 16)) (fun _ _ => false) (Core.putUb (ubFor 0 a [] 0)) 80

/-- An update-only block of one sector is placed in the room made for it (R136). -/
def State.placeUb (s : State) (core : Nat) (tag : Nat) (a : LaneAcc) (parts : List Partial) : State :=
  let (age, s1) := s.fresh
  s1.modCore core (Core.putUb (ubFor tag a parts age))

/-- The partial of a sector that the home has parked for a core, under the sector's tag (R139). -/
def State.parkedOf (s : State) (core sec tag : Nat) : Option Parked :=
  s.parked.find? fun p => p.sector == sec && p.core == core && (s.dirAt sec).uTag == tag

/-- A core's parked partials of a sector are taken back, or identity partials where it has none (R135, R139). -/
def State.takeParked (s : State) (core tag : Nat) (a : LaneAcc) : State :=
  let sec := sectorOf a.pa
  let parts := match s.parkedOf core sec tag with | some p => p.parts | none => freshParts tag
  { s with parked := s.parked.filter fun q => !(q.sector == sec && q.core == core) }.placeUb core tag a parts

/-- Whether an earlier REDU of the core on a word of the access is still to be accepted: those issued in one cycle by partition,
others in issue order (R87). One that a store fault holds, whose own gang's entries alone R218 holds with it, is passed over (DEDUCED, log entry
118). -/
def Core.earlierRedu (c : Core) (e : SQEntry) (a : LaneAcc) : Bool :=
  (c.sq ++ c.gone).any fun x =>
    (match x.kind with | .redu _ => true | _ => false) && x.id != e.id && !x.held && x.accs.any (·.meets a) &&
      decide ([x.who.clock.toNat, x.who.g.part, x.id] < [e.who.clock.toNat, e.who.g.part, e.id])

/-- One contribution of a retired REDU, if it can be made now: into the core's block, or into its parked partial taken back; else
the home is asked for the sector (R135 to R139). -/
def State.acceptOne (s : State) (core : Nat) (e : SQEntry) (tag : Fin 16) (a : LaneAcc) : State × Bool :=
  let sec := sectorOf a.pa
  let d := s.dirAt sec
  let c := s.coreAt core
  let asked := (s.ornWait ++ s.orn).any fun r => r.entry == some e.id && r.sector == sec
  if c.earlierRedu e a || d.merging || asked then (s, false)
  else if d.uTag = tag.val && c.ub.any (fun u => u.sector == sec) then (s.addPartial core tag.val a, true)
  else
    let s1 := if (s.parkedOf core sec tag.val).isSome then s.ubRoom core a else s
    if (s1.parkedOf core sec tag.val).isSome then (((s1.takeParked core tag.val a).addPartial core tag.val a).settleUb core sec, true)
    else (s1.place { s1.request core agentL1 e.who (.uEnter tag) sec [a] with entry := some e.id }, false)

/-- The contributions of an entry in ascending lane order, as far as they can be made now; what is left of them (R87). -/
def State.acceptAll (s : State) (core : Nat) (e : SQEntry) (tag : Fin 16) : List LaneAcc → State × List LaneAcc
  | [] => (s, [])
  | a :: rest =>
    match s.acceptOne core e tag a with
    | (s1, true) => s1.acceptAll core e tag rest
    | (s1, false) => (s1, a :: rest)

/-- A retired REDU's contributions made as far as they can be; with none left it is accepted (R106, R114). -/
def State.acceptRedu (s : State) (core id : Nat) : State :=
  match (s.coreAt core).gone.find? (fun e => e.id == id) with
  | none => s
  | some e =>
    match e.kind with
    | .redu tag =>
      let (s1, left) := s.acceptAll core e tag e.accs
      let s2 := s1.modCore core fun c => { c with gone := modWhere (fun x => x.id == id) (fun x => { x with accs := left }) c.gone }
      if left.isEmpty then (s2.entryDone core id).endAccess e.who else s2
    | _ => s

/-- REDU_ACCEPT (R135). -/
def execReduAccept (core id : Nat) (s : State) : Outcome State Fault Refusal := .next (s.acceptRedu core id)

/-- A sector enters update-only state under a tag (R136): owners' dirty words are written home, their ownership ends and the
words leave their views. -/
def State.enterU (s : State) (sector core : Nat) (tag : Fin 16) : State :=
  let s1 := (s.dirAt sector).owners.foldl (fun s o =>
    (sectorWords sector).foldl (fun s w =>
      if o.mask.getLsbD (w % 8) then (s.writeBack o.core w .valid).modCore o.core fun c => c.modView w fun _ => none else s) s) s
  s1.modDir sector fun d => { d with owners := [], uTag := tag.val, uhold := 1#256 <<< core }

/-- UPDATE_ONLY_ENTER: the sector enters update-only state, or the core joins its holders; the contribution that asked for it
is made (R136, R137, R345). -/
def execUpdateOnlyEnter (id : Nat) (s : State) : Outcome State Fault Refusal :=
  .next (s.serve id (fun k => match k with | .uEnter _ => true | _ => false) fun r s =>
    match r.kind, r.accs with
    | .uEnter tag, a :: _ =>
      let here (s : State) : Bool := (s.coreAt r.core).ub.any fun u => u.sector == r.sector
      let s0 := if here s then s else s.ubRoom r.core a
      let s1 := if (s0.dirAt r.sector).uTag = tag.val then s0.modDir r.sector fun d => { d with uhold := d.uhold ||| (1#256 <<< r.core) }
        else s0.enterU r.sector r.core tag
      let s2 := if here s1 then s1 else s1.takeParked r.core tag.val a
      let s3 := (s2.addPartial r.core tag.val a).settleUb r.core r.sector
      s3.dropContribution r
    | _, _ => s)

/-- RECALL_RETURN: a recalled core's partials reach the home once the recall has its point; with the last of them the merge ends (R138, R141). -/
def execRecallReturn (sector core : Nat) (s : State) : Outcome State Fault Refusal :=
  match s.orn.find? fun r => r.kind == .askBack core && r.sector == sector with
  | none => .next s
  | some r =>
    let s0 := { s with orn := s.orn.filter fun x => x.id != r.id }
    if !(s.dirAt sector).merging then .next s0
    else
      let s1 := if (s0.toRecall sector).contains core then s0.recallFrom sector core else s0
      .next (if (s1.toRecall sector).isEmpty then s1.mergeEnd sector else s1)

/-! ### The sequencer (R142, R143, R176) -/

/-- Reservations of a requester (R176). -/
def reservations (agent : Nat) : Nat :=
  match agent with
  | 0 => 32
  | 1 => 8
  | 2 => 16
  | 3 => 16
  | 7 => 32
  | _ => 8

/-- Lanes of a request's instruction on a lower frame, in whatever slice, have still to place theirs: lanes on different words take their points in
ascending frame address (R333). -/
def State.frameBefore (s : State) (r : OrnReq) : Bool :=
  let mine (w : Who) : Bool := w.g == r.who.g && w.seq == r.who.seq && w.g.core < 256
  let lower (a : LaneAcc) : Bool := decide (a.pa / 512 < r.sector / 16)
  r.entry.isSome && (match r.kind with | .register | .release | .atomic _ | .red _ => true | _ => false) &&
    ((s.coreAt r.core).sq.any (fun e => mine e.who && e.accs.any lower) ||
      s.ornWait.any fun x => mine x.who && x.entered.isNone && decide (x.sector / 16 < r.sector / 16))

/-- A load translated afresh has failed, and its record is not yet answered. -/
def State.reported (s : State) (r : OrnReq) : Bool :=
  let mine (f : FRec) (g : GKey) (t : TKey) : Bool := g == r.who.g && t == r.who.team && f.w45 == r.who.pc.setWidth 64 && r.accs.any fun a => a.va == f.w23
  s.todo.any (fun d => !d.store && mine d.fr d.g d.team) || s.pendRecs.any fun p => !p.store && mine p.fr p.g p.team

/-- A request contends for its die tree: nothing is left for it to wait for, its requester has a reservation for it, spent by those placed before it
that the sequencer has not released, no shootdown holds it, and its instruction's lower frames have come (R142, R143, R176, R333). -/
def State.contends (s : State) (r : OrnReq) : Bool :=
  let spends (x : OrnReq) : Bool := x.core == r.core && x.agent == r.agent &&
    (x.entered.isSome || (x.after.isEmpty && decide ([x.clock.toNat, x.grp] < [r.clock.toNat, r.grp])))
  r.entered.isNone && r.after.isEmpty && decide ((((s.ornWait.filter spends).map (·.grp)).dedup).length < reservations r.agent) &&
  !(r.late && (s.reported r || r.accs.any fun a => s.heldBy r.core r.who.ctx a.va.toNat)) &&
  !(r.order == .acq && !((s.coreAt r.core).homeAfter r.who r.accs).isEmpty) && !s.frameBefore r

/-- Requests a die tree admits in a cycle (R176). -/
def treeRoom : Nat := 16

/-- The requests a die's tree admits in this cycle, in the order of R176: by position from CLOCK mod 64 on, then by agent. -/
def State.admitted (s : State) (die : Nat) : List Nat :=
  let key (r : OrnReq) : List Nat := [(r.pos + 64 - s.clock.toNat % 64) % 64, r.agent, r.grp]
  let mine := s.ornWait.filter fun r => r.die == die && s.contends r
  (((mine.insertionSort fun a b => key a ≤ key b).map (·.grp)).dedup).take treeRoom

/-- The die trees take in requests at the end of a cycle: its CLOCK is their key (R142, R176). -/
def State.enterTrees (s : State) : State :=
  if s.ornWait.all (·.entered.isSome) then s
  else
    let take := (List.range 4).flatMap s.admitted
    { s with ornWait := modWhere (fun r => r.entered.isNone && take.contains r.grp) (fun r => { r with entered := some s.clock }) s.ornWait }

/-- A request admitted in an earlier cycle. -/
def State.presented (s : State) (r : OrnReq) : Bool := match r.entered with | some c => decide (c < s.clock) | none => false

/-- A load that a shootdown left behind an entry it holds is translated afresh when its wait is over (R197; DEDUCED, log entry 25): the request, or the
access that fails, with its cause where the entry forbids it. -/
def State.retranslate (s : State) (r : OrnReq) : Except (LaneAcc × Option Nat) OrnReq × State :=
  if !r.late then (.ok r, s)
  else
    let (ts, s1) := s.translateAll r.core r.who.ctx .read r.accs
    match ts.find? fun p => match p.2 with | .ok .. => false | _ => true with
    | some (a, .fault c) => (.error (a, some c), s1)
    | some (a, _) => (.error (a, none), s1)
    | none =>
      let accs := ts.map (·.1)
      (.ok { r with accs := accs, sector := (match accs with | a :: _ => sectorOf a.pa | [] => r.sector), late := false }, s1)

/-- The next request of the order, of those presented (R142). -/
def State.nextRequest (s : State) : Option OrnReq :=
  (s.ornWait.filter s.presented).foldl (fun best r => match best with
    | some (b : OrnReq) => if r.keyBefore b then some r else some b
    | none => some r) none

/-- The parts of a request take their point, each translated if it had to wait; where one cannot be, the request goes back to wait for its page, and
the failure is recorded as the load's own (R197, R216; DEDUCED, log entry 25). -/
def State.takePoint (s : State) : List OrnReq → List OrnReq → State
  | done, [] => { s with orn := s.orn ++ done }
  | done, r :: rest =>
    match s.retranslate r with
    | (.ok x, s1) => s1.takePoint (done ++ [x]) rest
    | (.error (a, c), s1) =>
      let back := { s1 with ornWait := s1.ornWait ++ (done ++ r :: rest).map fun x => { x with entered := none, late := true } }
      match c with
      | some c => back.postFault (whoRecord r.who.field r.who c 0 a.va (laneBit a.lane)) r.who.g r.who.strand r.who.team false
      | none => back

/-- ORN_SEQUENCER_RELEASE: the request of least key takes its point in the one order, all its sectors together (R101, R133, R142). -/
def execOrnSequencerRelease (s : State) : Outcome State Fault Refusal :=
  match s.nextRequest with
  | none => .next s
  | some r =>
    let parts := s.ornWait.filter fun x => x.grp == r.grp
    .next ({ s with ornWait := s.ornWait.filter fun x => x.grp != r.grp }.takePoint [] parts)

/-! ### Checks of stores (R217 to R219, R428 to R430) -/

/-- The answer to a store's check at one access: memory by translation, a remote window by its target team, the command page by
its form, which Lantern service refuses (R195, R338, R380, R439). -/
def State.checkStoreAcc (s : State) (e : SQEntry) (a : LaneAcc) : (LaneAcc × Tr) × State :=
  let g := s.gangAt e.who.g
  match e.kind with
  | .remoteSts t =>
    let ok := match t with
      | some k => (s.targetTeam g.team k).any (inWindow · a)
      | none => false
    ((a, if ok then .ok 0 Attr.none else .fault causeNotPresent), s)
  | .command =>
    let off := a.va.toNat % 4096
    let ok := decide (e.accs.length = 1 ∧ a.size = 8) && [0, 8, 0x10, 0x18, 0x20].contains off && !s.service.lanternMode
    ((a, if ok then .ok cmdPagePa Attr.none else .fault causeNotPresent), s)
  | _ =>
    let (t, s1) := s.translate e.who.g.core g.team.ctx a.va .write
    match noDevice t with
    | .ok pa attr => (({ a with ok := true, pa := pa, attr := attr }, .ok pa attr), s1)
    | t => ((a, t), s1)

/-- The checks of every access of an entry. -/
def State.checkAccs (s : State) (e : SQEntry) : List LaneAcc → List (LaneAcc × Tr) × State
  | [] => ([], s)
  | a :: rest =>
    let (p, s1) := s.checkStoreAcc e a
    let (ps, s2) := s1.checkAccs e rest
    (p :: ps, s2)

/-- The checks of every entry of an instruction. -/
def State.checkEntries (s : State) : List SQEntry → List (SQEntry × List (LaneAcc × Tr)) × State
  | [] => ([], s)
  | e :: rest =>
    let (p, s1) := s.checkAccs e e.accs
    let (ps, s2) := s1.checkEntries rest
    ((e, p) :: ps, s2)

/-- The next store of a gang to check: its oldest unchecked one, unless one is held or the store issued in this cycle (R428,
R429). -/
def State.nextCheck (s : State) (g : GKey) : List SQEntry :=
  let mine := (s.coreAt g.core).sq.filter fun e => e.who.g == g && e.kind.isStore
  if mine.any (·.held) then []
  else match mine.find? (fun e => !e.checked) with
    | some e => if e.who.clock < s.clock then mine.filter fun x => x.who.seq == e.who.seq else []
    | none => []

/-- The record of a store fault (R217): word 1 holds the store sequence number, word 7 the translation cause and the skid. -/
def storeRecord (g : Gang) (e : SQEntry) (cause : Nat) (addr : DWord) (lanes : LaneMask) : FRec :=
  let r := whoRecord g.ctxField e.who causeStore 1 addr lanes
  { r with
    w1 := BitVec.ofNat 32 (g.ctxField.toNat * 2 ^ 16 + e.ssn.toNat)
    w7 := BitVec.ofNat 32 (cause * 2 ^ 24 + Nat.min (g.issueSeq - e.who.seq - 1) 0xFFFFFF) }

/-- A store fault: its entries are held, its record is written, and the gang is trap parked (R217, R218). -/
def State.storeFault (s : State) (e : SQEntry) (cause : Nat) (addr : DWord) (lanes : LaneMask) : State :=
  let g := s.gangAt e.who.g
  let s1 := s.modCore e.who.g.core fun c =>
    { c with sq := modWhere (fun x => x.who.g == e.who.g && x.who.seq == e.who.seq) (fun x => { x with held := true }) c.sq }
  let s2 := s1.postStore (storeRecord g e cause addr lanes) e.who.g e.who.strand g.team
  s2.modGang e.who.g fun g => { g with trapParked := true, storeFault := true }

/-- The address unit's order: by cycle of issue, then by partition and slot (R428). -/
def checkKey (g : GKey) (e : SQEntry) : List Nat := [e.who.clock.toNat, g.part, g.slot]

/-- Every lane of a check has its translation in the core's cache, and no shootdown holds it (R196, R198, R428). -/
def State.quickCheck (s : State) (core : Nat) (es : List SQEntry) : Bool :=
  es.all fun e => (match e.kind with | .remoteSts _ => true | _ => false) ||
    e.accs.all fun a => (s.coreAt core).tlb.any (·.covers e.who.ctx a.va.toNat) && !s.heldBy core e.who.ctx a.va.toNat

/-- A store of another gang of the core comes first: it was taken before, and its check, which needs no walk, is not over (R428; log 85). -/
def State.checkAhead (s : State) (g : GKey) (e : SQEntry) : Bool :=
  s.allGangs.any fun h => h.key.core == g.core && h.key != g &&
    (match s.nextCheck h.key with
     | x :: more => decide (checkKey h.key x < checkKey g e) && s.quickCheck g.core (x :: more)
     | [] => false)

/-- STORE_CHECK: the gang's next store is checked for all its lanes at once, in its turn among the core's (R218, R428). -/
def execStoreCheck (g : GKey) (s : State) : Outcome State Fault Refusal :=
  match s.nextCheck g with
  | [] => .next s
  | e :: more =>
    if s.checkAhead g e then .next s
    else
    let (ps, s1) := s.checkEntries (e :: more)
    let all := ps.flatMap (·.2)
    let bad := all.filterMap fun p => match p.2 with | .fault c => some (p.1, c) | _ => none
    if all.any (fun p => p.2 == .held) then .next s1
    else match bad with
      | (a, c) :: _ => .next (s1.storeFault e c a.va (maskOf fun l => bad.any fun p => p.1.lane == l))
      | [] =>
        let done (x : SQEntry) : SQEntry :=
          match ps.find? (fun p => p.1.id == x.id) with
          | some p => { x with checked := true, accs := p.2.map (·.1) }
          | none => x
        .next ((s1.modCore g.core fun c => { c with sq := c.sq.map done }).wakeChecks g)

/-! ### The scratchpad banks (R116, R174) -/

/-- One lane's operation on a word of a window, and the old value. -/
def State.spAlu (s : State) (t : TKey) (op : HomeOp) (a : LaneAcc) : State × List Byte :=
  let (s1, old) := s.spRead t a.va.toNat a.size
  (s1.spWrite t a.va.toNat (leBytes (aluNew op (BitVec.ofNat 64 (leNat old)) a.x a.y).toNat a.size), old)

/-- The lanes of a scratchpad atomic one after another (R333). -/
def State.spAluAll (t : TKey) (op : HomeOp) : State → List LaneAcc → State × List (LaneAcc × List Byte)
  | s, [] => (s, [])
  | s, a :: rest =>
    let (s1, old) := s.spAlu t op a
    let (s2, vs) := s1.spAluAll t op rest
    (s2, (a, old) :: vs)

/-- What each lane reads of a window. -/
def State.spLoads (t : TKey) : State → List LaneAcc → State × List (LaneAcc × List Byte)
  | s, [] => (s, [])
  | s, a :: rest =>
    let (s1, bs) := s.spRead t a.va.toNat a.size
    let (s2, vs) := s1.spLoads t rest
    (s2, (a, bs) :: vs)

/-- The bytes of a stream's element (R373). -/
def pushSize : PushTy → Nat
  | .i32 | .n32 | .f32 => 4
  | .i16 | .n16 | .f16 | .bf16 => 2
  | .i8 | .n8 => 1

/-- The 32-bit value of a pushed element: narrow signed integers are sign-extended (R373). -/
def pushVal (ty : PushTy) (x : Nat) : Word :=
  match ty with
  | .i16 => (BitVec.ofNat 16 x).signExtend 32
  | .i8 => (BitVec.ofNat 8 x).signExtend 32
  | _ => BitVec.ofNat 32 x

/-- What a scratchpad instruction does at the banks (R116, R200, R337, R343). -/
def State.spRun (s : State) (r : SpReq) : State :=
  let home := r.who.g.core
  match r.op with
  | .load =>
    let (s1, vs) := s.spLoads r.team r.accs
    s1.sendBack home r.who (loadWrites r.who r.dst r.ty vs)
  | .store => r.accs.foldl (fun s a => s.spWrite r.team a.va.toNat a.bytes) s
  | .atomic op =>
    let (s0, vs) := s.spAluAll r.team op r.accs
    let s1 := s0.sendBack home r.who (loadWrites r.who r.dst r.ty vs)
    if r.order == .acq || r.order == .ar then s1.invalidateCore home else s1
  | .push q id ty =>
    let (s0, bs) := s.spLoads r.team r.accs
    let vals := bs.foldl (fun v p => smSet v p.1.lane (pushVal ty (leNat p.2))) ([] : SMap 32)
    s0.modGang r.who.g fun g =>
      { g with fq := modAt g.fq q fun f => { f with inflight := modWhere (·.id == id) (fun p => { p with vals := vals, ready := true }) f.inflight } }

/-- A request at the banks can be served: its pages stand in physical pages, or pages are free for them (R200). -/
def State.spReady (s : State) (r : SpReq) : Bool := r.accs.all fun a => s.spMay r.team a.va.toNat

/-- The sources in the order the banks take them after the one last served (R174). -/
def spTurn (last : Nat) : List Nat := (List.range 8).map fun k => (last + 1 + k) % 8

/-- SCRATCHPAD_START: the next source's oldest instruction takes the banks (R174); one that waits for a physical page is passed over
(R200). -/
def execScratchpadStart (core : Nat) (s : State) : Outcome State Fault Refusal :=
  let c := s.coreAt core
  match (spTurn c.spLast).findSome? (fun src => (c.spq.find? (fun r => r.src == src)).filter s.spReady) with
  | none => .next s
  | some r =>
    let s1 := s.modCore core fun c => { c with spq := c.spq.filter (fun x => x.id != r.id), spLast := r.src }
    let s2 := s1.spRun r
    let s3 := match r.entry with
      | some id => s2.entryDone r.who.g.core id
      | none => s2
    .next (s3.endAccess r.who)

/-! ### Words waited on (R349) -/

/-- WAITW_REFETCH: a lane that found no watch free reads its word at the home again (R349). -/
def execWaitwRefetch (core id : Nat) (s : State) : Outcome State Fault Refusal :=
  match s.watches.find? (fun w => w.id == id && w.again && w.who.g.core == core) with
  | none => .next s
  | some w =>
    let a : LaneAcc := { mkAcc w.lane 0 (if w.ty.wide then 8 else 4) w.va with ok := true, pa := w.pa }
    let s1 := { s with watches := modWhere (fun x => x.id == id) (fun x => { x with again := false }) s.watches }
    .next (s1.place { s1.request core agentL1 w.who .watch (sectorOf w.pa) [a] with ty := some (if w.ty.wide then .n64 else .n32) })

/-- The acquires of watches that have just been satisfied (R109, R349); they write homes and may satisfy others. -/
def State.runWatches (s : State) : Nat → State
  | 0 => s
  | fuel + 1 =>
    match s.watches.find? (fun w => w.placed && w.value.isSome) with
    | none => s
    | some w =>
      let s1 := { s with watches := modWhere (fun x => x.id == w.id) (fun x => { x with placed := false }) s.watches }
      let ws := if w.ty.wide then [w.pa / 4, w.pa / 4 + 1] else [w.pa / 4]
      let s2 := if w.acq then (s1.acquireDrain w.who.g.core ws).invalidateCore w.who.g.core else s1
      s2.runWatches fuel

/-- A WAITW whose lanes are all satisfied writes its register, and its strand goes on (R349). -/
def State.endWaitw (s : State) (who : Who) : State :=
  let mine := s.watches.filter fun w => w.who.g == who.g && w.who.seq == who.seq
  if mine.isEmpty || mine.any (fun w => w.value.isNone || w.placed) then s
  else
    let ws := mine.flatMap fun w =>
      elemWrites w.dst (if w.ty.wide then .n64 else .n32) (lowLane who.mask) w.lane 0 ((w.value.getD 0).toNat)
    let s1 := { s with watches := s.watches.filter fun w => !(w.who.g == who.g && w.who.seq == who.seq) }
    (s1.modGang who.g fun g => (g.land ws (pendMark who.seq who.strand)).wake s.clock who.strand).endAccess who

/-- Every WAITW that can end does. -/
def State.endWaitws (s : State) : State := ((s.watches.map (·.who)).dedup).foldl (fun s w => s.endWaitw w) s

/-- What follows at once from a step: watches satisfied by it, fences whose accesses are over, strands whose waits for checks are
over (R113, R117, R348, R349). -/
def State.settle (s : State) : State :=
  let s1 := (s.runWatches (s.watches.length + 1)).endWaitws
  let s2 := s1.runHolds
  (s2.allGangs.map (·.key)).foldl (fun s g => s.wakeChecks g) s2

end Sys2Proof.Machine
end

