-- ==== Sys2Proof/Machine/Tob.lean ====
section
/-! DEFINITION. The tile operand buffer and the commands to the matrix engine (R352 to R369): reservations, transfers, MMA with
its parameter block, and what reads the matrix queue. -/

namespace Sys2Proof.Machine

open Host (Outcome)

/-! ### Operands that speak for the gang (R352) -/

/-- An instruction that acts once for the gang, on the operands of the lowest lane of Part; an empty Part has no effect
(R352). -/
def onceFor (go : Nat → LaneMask → State → Res) (part : LaneMask) (s : State) : Res :=
  match lowLane part with
  | none => .done s
  | some l => go l part s

/-- A 32-bit result in every lane of Part, on its way back (R352, R388). -/
def State.giveAll (s : State) (d : Reg) (part : LaneMask) (x : Word) : State :=
  s.launchResult d 1 part (resultWrites d part fun _ => x) 0 false

/-! ### Reservations (R354 to R357) -/

/-- The reservation a gang holds under a number. -/
def Core.resvOf (c : Core) (g : GKey) (n : Nat) : Option Resv := c.resv.find? fun r => r.g == g && r.id.val == n

/-- First byte and bytes of a reservation (R354). -/
def Resv.start (r : Resv) : Nat := r.off * 256
def Resv.size (r : Resv) : Nat := r.len * 256

/-- A RESV's status (R354, R356): 2 the number is in use, 3 it meets a range of this gang, 1 it meets another's that is not
shared with it, 0 granted. -/
def State.resvStatus (s : State) (r : Resv) : Word :=
  let all := s.myCore.resv
  let meets (x : Resv) : Bool := overlaps r.off r.len x.off x.len
  if all.any (fun x => x.g == r.g && x.id == r.id) then 2
  else if all.any (fun x => x.g == r.g && meets x) then 3
  else if all.any (fun x => x.g != r.g && meets x && !(x.shr && r.shr && (s.gangAt x.g).team == s.cur.team)) then 1
  else 0

/-- The mark of a TOB unit's last holder: its context field plus one; 0 where no context has held it. -/
def ctxMark (f : BitVec 16) : Word := BitVec.ofNat 32 (f.toNat + 1)

/-- A granted range of a core: cleared where another context held any of it, and from now on this context's (R201, R354). -/
def Core.grant (r : Resv) (ctxField : BitVec 16) (c : Core) : Core :=
  let units := (List.range r.len).map (r.off + ·)
  let foreign := units.any fun u => let m := smGet c.tobCtx u; m != 0 && m != ctxMark ctxField
  { c with
    resv := c.resv ++ [r]
    tob := if foreign then c.tob.filter (fun p => p.1 < r.start || r.start + r.size ≤ p.1) else c.tob
    tobBad := if foreign then c.tobBad.filter (fun k => k * 8 < r.start || r.start + r.size ≤ k * 8) else c.tobBad
    tobCtx := units.foldl (fun m u => smSet m u (ctxMark ctxField)) c.tobCtx }

/-- Bytes written to a TOB: an 8-byte word written whole holds no error any more (R232). -/
def Core.putTob (c : Core) (a : Nat) (bs : List Byte) : Core :=
  { c with tob := smPut c.tob a bs, tobBad := c.tobBad.filter fun k => !decide (a ≤ 8 * k ∧ 8 * k + 8 ≤ a + bs.length) }

/-- The first 8-byte word of a range of a TOB that holds an uncorrectable error. -/
def Core.tobError (c : Core) (a n : Nat) : Option Nat := c.tobBad.find? fun k => overlaps a n (8 * k) 8

/-- RESV (R356). -/
def execResv (h : Hdr2) (shr : Bool) (fmt : BitVec 5) (n : Fin 8) (d a b c : Reg) (s : State) : Outcome State Fault Refusal :=
  issue (.resv h shr fmt n d a b c) noGate (onceFor fun l part s =>
    let x := s.cur.rd32 a l
    let off := (x.extractLsb' 0 11).toNat
    let len := (x.extractLsb' 16 12).toNat
    let pitch := ((s.cur.rd32 b l).extractLsb' 0 16).toNat
    let soff := ((s.cur.rd32 c l).extractLsb' 0 20).toNat
    let block := (blockOf fmt.toNat).isSome
    if len = 0 ∨ 2048 < off + len ∨ pitch = 0 ∨ pitch % 16 ≠ 0 ∨ (if block then len * 256 ≤ soff else soff ≠ 0) then .trap (.form part)
    else
      let r : Resv := { g := s.cur.key, id := n, off := off, len := len, fmt := fmt, pitch := pitch, soff := soff, shr := shr }
      let status := s.resvStatus r
      let s1 := if status = 0 then s.modMyCore (Core.grant r s.cur.ctxField) else s
      .done (s1.giveAll d part status)) s

/-! ### Commands and the parameter block (R358 to R360) -/

/-- A field of a parameter block (R360). -/
def MCmd.f (c : MCmd) (off n : Nat) : Nat := leNat ((c.blk.drop off).take n)

/-- Fields of the block (R360). -/
def MCmd.aaddr (c : MCmd) : Nat := c.f 0 8
def MCmd.baddr (c : MCmd) : Nat := c.f 8 8
def MCmd.astr (c : MCmd) : Nat := c.f 16 4
def MCmd.bstr (c : MCmd) : Nat := c.f 20 4
def MCmd.asca (c : MCmd) : Nat := c.f 24 8
def MCmd.bsca (c : MCmd) : Nat := c.f 32 8
def MCmd.ascstr (c : MCmd) : Nat := c.f 40 4
def MCmd.bscstr (c : MCmd) : Nat := c.f 44 4
def MCmd.m (c : MCmd) : Nat := c.f 48 4
def MCmd.n (c : MCmd) : Nat := c.f 52 4
def MCmd.k (c : MCmd) : Nat := c.f 56 4
def MCmd.afmt (c : MCmd) : Nat := c.f 60 1 % 32
def MCmd.bfmt (c : MCmd) : Nat := c.f 61 1 % 32
def MCmd.asrc (c : MCmd) : Bool := c.f 62 1 % 2 == 1
def MCmd.bsrc (c : MCmd) : Bool := c.f 62 1 / 2 % 2 == 1
def MCmd.acc (c : MCmd) : Nat := c.f 63 1 % 8
def MCmd.accoff (c : MCmd) : Nat := c.f 64 4
def MCmd.zero (c : MCmd) : Bool := c.f 68 4 % 2 == 1
def MCmd.store (c : MCmd) : Bool := c.f 68 4 / 2 % 2 == 1
def MCmd.relu (c : MCmd) : Bool := c.f 68 4 / 4 % 2 == 1
def MCmd.outsp (c : MCmd) : Bool := c.f 68 4 / 8 % 2 == 1
def MCmd.oaddr (c : MCmd) : Nat := c.f 72 8
def MCmd.ostr (c : MCmd) : Nat := c.f 80 4
def MCmd.ofmt (c : MCmd) : Nat := c.f 84 1

/-- Row bytes and row count of an OBLD or OBST (R358). -/
def MCmd.rowBytes (c : MCmd) : Nat := (c.vsh.extractLsb' 0 16).toNat
def MCmd.rowCount (c : MCmd) : Nat := (c.vsh.extractLsb' 16 12).toNat

/-- The class of a format code, 0 to 3 as the table of R81 lists them. -/
def fmtClass (c : Nat) : Nat :=
  if c ≤ 1 then 2 else if c ≤ 3 ∨ c = 29 ∨ c = 30 then 1 else if c = 28 then 3 else 0

/-- An accumulator (R81). -/
inductive AccKind where
  | i32 | f32 | f64
deriving DecidableEq, Repr

/-- The accumulator of a pair of formats of one class (R81). -/
def accKind (a b : Nat) : AccKind :=
  let int (c : Nat) : Bool := decide ((10 ≤ c ∧ c ≤ 15) ∨ c = 29 ∨ c = 30)
  if a = 28 then .f64 else if int a && int b then .i32 else .f32

/-- The accumulator of a command, its width in bytes, and its format code (R313, R361). -/
def MCmd.accK (c : MCmd) : AccKind := accKind c.afmt c.bfmt
def AccKind.width : AccKind → Nat
  | .f64 => 8
  | _ => 4
def AccKind.code : AccKind → Nat
  | .i32 => 32
  | .f32 => 0
  | .f64 => 28

/-- Products summed before any rounding, and the native K depth (R81, R177). -/
def MCmd.chunk (c : MCmd) : Nat :=
  match fmtClass c.afmt with
  | 0 => 128
  | 1 => 32
  | 2 => 8
  | _ => 1
def MCmd.depth (c : MCmd) : Nat :=
  match fmtClass c.afmt with
  | 0 => 128
  | 1 => 64
  | 2 => 16
  | _ => 8

/-- Bytes of one output element (R69, R313, R362). -/
def MCmd.outWidth (c : MCmd) : Nat := (nfmt c.ofmt).width / 8

/-- Tiles across, tiles, and K steps (R177, R365). -/
def MCmd.tilesN (c : MCmd) : Nat := (c.n + 63) / 64
def MCmd.tiles (c : MCmd) : Nat := (c.m + 63) / 64 * c.tilesN
def MCmd.steps (c : MCmd) : Nat := (c.k + c.depth - 1) / c.depth

/-- Bytes of `k` elements of a format, packed (R74). -/
def packedBytes (code k : Nat) : Nat := (k * (nfmt code).width + 7) / 8

/-- The ranges an OBST or an epilogue writes: rows, or rows of each output tile (R145, R358, R362). -/
def MCmd.dest (c : MCmd) : List (Nat × Nat) :=
  match c.kind with
  | .obld => []
  | .obst => if c.sp then [] else (List.range c.rowCount).map fun r => ((c.base + r * c.vs) % 2 ^ 64, c.rowBytes)
  | .mma =>
    if !c.store || c.outsp then []
    else (List.range c.m).flatMap fun i => (List.range c.tilesN).map fun t =>
      ((c.oaddr + i * c.ostr + t * 64 * c.outWidth) % 2 ^ 64, Nat.min 64 (c.n - 64 * t) * c.outWidth)

/-- Ranges cut at frames, in ascending address order (R145). -/
def cutFrames (rs : List (Nat × Nat)) : List (Nat × Nat) :=
  (rs.flatMap fun (a, n) =>
    if n = 0 then []
    else (List.range ((a + n - 1) / 512 - a / 512 + 1)).map fun k =>
      let lo := Nat.max a ((a / 512 + k) * 512)
      (lo, Nat.min (a + n) ((a / 512 + k + 1) * 512) - lo)).insertionSort fun x y => x.1 ≤ y.1

/-- The reservations a command names (R357, R360). -/
def MCmd.names (c : MCmd) (n : Nat) : Bool :=
  match c.kind with
  | .mma =>
    c.need.isEmpty && (c.acc == n || (c.asrc && c.aaddr / 2 ^ 32 % 8 == n) || (c.bsrc && c.baddr / 2 ^ 32 % 8 == n))
  | _ => c.res.val == n

/-- RELV (R357). -/
def execRelv (h : Hdr) (n : Fin 8) (s : State) : Outcome State Fault Refusal :=
  issue (.relv h n) noGate (onceFor fun _ part s =>
    if (s.myCore.resvOf s.cur.key n.val).isNone then .done s
    else if s.cur.mq.any (fun c => c.names n.val) then .trap (.form part)
    else .done (s.modMyCore fun c => { c with resv := c.resv.filter fun r => !(r.g == s.cur.key && r.id == n) })) s

/-! ### Entering the matrix queue (R177, R353, R359) -/

/-- Commands a gang's matrix queue holds (R177). -/
def mqRoom : Nat := 4

/-- A matrix command does not issue while the queue is full, or its slice's store queue is (R102, R177, R359). -/
def mqGate (part : LaneMask) (s : State) : Option State :=
  match lowLane part with
  | none => none
  | some l => if s.cur.mq.length < mqRoom && s.queuesOpen [l / 4] then none else some s

/-- A command with nothing done. -/
def MCmd.fresh (kind : MKind) (who : Who) : MCmd :=
  { kind := kind, who := who, blk := [], need := [], base := 0, vs := 0, vsh := 0, toff := 0, res := 0, sp := false, entry := none,
    retired := false, accepted := 0, started := false, faulted := false, pieces := [], words := [], tile := 0, kstep := 0, rows := 0 }

/-- The store-queue entry of a matrix command, in the slice of the lowest lane; its words are the destinations a later load of
the thread waits for (R106, R353). -/
def State.matrixEntry (s : State) (g : Gang) (c : MCmd) : SQEntry :=
  let l := (lowLane c.who.mask).getD 0
  { s.newEntry c.who (l / 4) .matrix
      (c.dest.map fun (a, n) => mkAcc l 0 n (BitVec.ofNat 64 a)) with
    ssn := g.ssn }

/-- The last byte a transfer reaches in its reservation, plus one (R358). -/
def obEnd (toff rows pitch rb : Nat) : Nat := toff + (rows - 1) * pitch + rb

/-- The lowest byte of the rows outside a window (R51, R358). -/
def outsideWindow (window base vs rows rb : Nat) : Option Nat :=
  ((List.range rows).filterMap fun r =>
    let a := base + r * vs
    if a + rb ≤ window then none else some (Nat.max a window)).foldl (fun best a => match best with
      | some b => some (Nat.min a b)
      | none => some a) none

/-- The window of the issuing gang's team. -/
def State.windowOf (s : State) (g : Gang) : Nat := match s.teamAt g.team with | some t => t.window | none => 0

/-- OBLD and OBST (R358): the checks in order, then the entry and the command. -/
def transfer (i : Instr) (kind : MKind) (o : Ob) (s : State) : Outcome State Fault Refusal :=
  issue i (bothGates (memGate false) mqGate) (onceFor fun l part s =>
    let base := if o.sp then (s.cur.rd32 o.base l).toNat else (s.cur.rd64 o.base l).toNat
    let vs := (s.cur.rd32 o.vs l).toNat
    let vsh := s.cur.rd32 o.vsh l
    let c : MCmd :=
      { MCmd.fresh kind (s.who part false) with
        base := base, vs := vs, vsh := vsh, toff := o.toff.toNat * 16, res := o.n, sp := o.sp, entry := some s.nextId }
    let bad := match s.myCore.resvOf s.cur.key o.n.val with
      | none => true
      | some r =>
        vsh.extractLsb' 28 4 != 0#4 || c.rowCount == 0 || decide (c.rowBytes < 16 ∨ r.pitch < c.rowBytes) ||
          decide (r.size < obEnd c.toff c.rowCount r.pitch c.rowBytes)
    if pastMemdone s.strand || bad then .trap (.form part)
    else if base % 16 ≠ 0 ∨ vs % 16 ≠ 0 ∨ c.rowBytes % 16 ≠ 0 then .trap ⟨causeAlignment, 4, BitVec.ofNat 64 base, part, false⟩
    else
      match (if o.sp then outsideWindow (s.windowOf s.cur) base vs c.rowCount c.rowBytes else none) with
      | some a => .trap ⟨causeNotPresent, 4, BitVec.ofNat 64 a, part, false⟩
      | none =>
        let s1 := (s.enter (s.matrixEntry s.cur c)).countStore
        .done (s1.modCur fun g => { g with mq := g.mq ++ [{ c with pieces := cutFrames c.dest }], mIssued := g.mIssued + 1 })) s

/-- OBLD (R358). -/
def execObld (o : Ob) (s : State) : Outcome State Fault Refusal := transfer (.obld o) .obld o s

/-- OBST (R358). -/
def execObst (o : Ob) (s : State) : Outcome State Fault Refusal := transfer (.obst o) .obst o s

/-! ### MMA (R363, R364) -/

/-- MMA takes a queue entry, holds its strand, and loads its parameter block by the lowest lane of Part (R364). -/
def execMma (h : Hdr) (a : Reg) (s : State) : Outcome State Fault Refusal :=
  issue (.mma h a) (bothGates (memGate false) mqGate) (onceFor fun l part s =>
    let va := s.cur.rd64 a l
    if pastMemdone s.strand then .trap (.form part)
    else if va.toNat % 128 ≠ 0 then .trap ⟨causeAlignment, 0, va, laneBit l, false⟩
    else
      preciseTranslate s 0 false .read (laneAccs (laneBit l) 32 4 fun _ => va) fun accs s1 =>
        dataChecks s1 (s1.who (laneBit l) false) 0 false .view accs fun _ =>
        let c : MCmd :=
          { MCmd.fresh .mma (s1.who part false) with blk := List.replicate 128 0, need := List.range 32, base := va.toNat }
        let s2 := s1.modCur fun g => { g with mq := g.mq ++ [c], mIssued := g.mIssued + 1 }
        let s3 := s2.modStrand fun st => { st with state := .parked, waitOn := .descr }
        let who := s1.who (laneBit l) false
        .stay (byFrame accs (fun s l => s.loadFrame who none (some .n32) ⟨0, 0⟩ l) s3)) s

/-- Items 1 and 2 of R363: reserved fields, classes, ranges, and fields that do not go with SRC, the formats or EPI. -/
def MCmd.badFields (c : MCmd) : Bool :=
  let inRange (x : Nat) : Bool := decide (1 ≤ x ∧ x ≤ 0xFFFFFF)
  let high (x : Nat) : Bool := decide (2 ^ 57 ≤ x)
  let src (tob : Bool) (addr str sca scstr fmt : Nat) : Bool :=
    let block := (blockOf fmt).isSome
    if tob then decide (2 ^ 35 ≤ addr) || addr / 2 ^ 19 % 2 ^ 13 != 0 || str != 0 || sca != 0 || scstr != 0
    else high addr || high sca || (if block then sca == 0 else sca != 0) || (sca == 0 && scstr != 0)
  let outOk := match c.accK with
    | .f32 => [0, 1, 2, 3, 4, 5].contains c.ofmt
    | .i32 => [32, 10].contains c.ofmt
    | .f64 => [28, 0].contains c.ofmt
  c.f 60 1 / 32 != 0 || c.f 61 1 / 32 != 0 || c.f 62 1 / 4 != 0 || c.f 63 1 / 8 != 0 || c.f 68 4 / 16 != 0 || c.f 85 43 != 0 ||
  fmtClass c.afmt != fmtClass c.bfmt ||
  !(inRange c.m && inRange c.n && inRange c.k) ||
  src c.asrc c.aaddr c.astr c.asca c.ascstr c.afmt || src c.bsrc c.baddr c.bstr c.bsca c.bscstr c.bfmt ||
  (if c.store then !outOk || (if c.outsp then decide (2 ^ 32 ≤ c.oaddr) else high c.oaddr)
    else c.oaddr != 0 || c.ostr != 0 || c.ofmt != 0 || c.relu || c.outsp)

/-- Item 3 of R363: reservations and their bounds. -/
def MCmd.badTob (c : MCmd) (core : Core) (g : GKey) : Bool :=
  let src (tob : Bool) (addr fmt rows : Nat) : Bool :=
    tob && match core.resvOf g (addr / 2 ^ 32 % 8) with
      | none => true
      | some r =>
        r.fmt.toNat != fmt || decide (r.size < addr % 2 ^ 19 + (rows - 1) * r.pitch + packedBytes fmt c.k) ||
          ((blockOf fmt).isSome && decide (r.size < r.soff + rows * ((c.k + 127) / 128)))
  let acc := match core.resvOf g c.acc with
    | none => true
    | some r =>
      r.fmt.toNat != (if c.accK = .f64 then 28 else 0) ||
        decide (r.size < c.accoff + (c.m - 1) * r.pitch + c.n * c.accK.width)
  src c.asrc c.aaddr c.afmt c.m || src c.bsrc c.baddr c.bfmt c.n || acc

/-- Item 4 of R363: alignment (R360); the output's is its element width. -/
def MCmd.misaligned (c : MCmd) : Bool :=
  (!c.asrc && (c.aaddr % 16 != 0 || c.astr % 16 != 0)) || (!c.bsrc && (c.baddr % 16 != 0 || c.bstr % 16 != 0)) ||
  (c.store && (c.oaddr % c.outWidth != 0 || c.ostr % c.outWidth != 0)) || c.accoff % c.accK.width != 0

/-- The checks of R363 in order; the record of item 4 holds the block's address (assumption 26). -/
def MCmd.check (c : MCmd) (s : State) : Option Trap :=
  let g := s.gangAt c.who.g
  if c.badFields || c.badTob (s.coreAt c.who.g.core) c.who.g then some (.form c.who.mask)
  else if c.misaligned then some ⟨causeAlignment, 0, BitVec.ofNat 64 c.base, c.who.mask, false⟩
  else
    match (if c.outsp then outsideWindow (s.windowOf g) c.oaddr c.ostr c.m (c.n * c.outWidth) else none) with
    | some a => some ⟨causeNotPresent, 4, BitVec.ofNat 64 a, c.who.mask, false⟩
    | none => none

/-- A precise trap of a strand that is not the issuing one (R212, R213, R364). -/
def State.trapAt (s : State) (k : GKey) (strand : Nat) (t : Trap) : State :=
  let g := s.gangAt k
  let s1 := s.postFault (trapRecord g strand t) k strand g.team (kindWrites t.kind)
  if causeStopsGang t.cause then s1.modGang k fun g => { g with trapParked := true }
  else s1.modGang k fun g => g.modStrand strand fun st => { st with state := .faultParked, faultVa := t.addr }

/-- The length of MMA (R364). -/
def mmaLen : Nat := 8

/-- An MMA whose block has arrived: checked, then its entry is placed and its strand goes on, or it traps and its entry is free
(R363, R364). -/
def State.finishMma (s : State) (c : MCmd) : State :=
  let k := c.who.g
  let g := s.gangAt k
  let mine (x : MCmd) : Bool := x.who.seq == c.who.seq
  match c.check s with
  | some t =>
    (s.modGang k fun g =>
      { g with mq := g.mq.filter (fun x => !mine x), mIssued := g.mIssued - 1 }.wake s.clock c.who.strand).trapAt k c.who.strand t
  | none =>
    if (s.coreAt k.core).sliceRoom k.part ((lowLane c.who.mask).getD 0 / 4) then
      let id := s.nextId
      (s.enter (s.matrixEntry g c)).modGang k fun g =>
        (({ g with
            mq := modWhere mine (fun x => { x with entry := some id, pieces := cutFrames x.dest }) g.mq
            ssn := g.ssn + 1 }).modStrand c.who.strand fun st =>
          { st with pc := st.pc + BitVec.ofNat 57 mmaLen }).wake s.clock c.who.strand
    else s

/-- Every MMA whose block has arrived (R364). -/
def State.finishMmas (s : State) : State :=
  ((s.allGangs.flatMap (·.mq)).filter fun c => c.kind == .mma && c.entry.isNone && c.need.isEmpty).foldl
    (fun s c => s.finishMma c) s

/-! ### MMAWAIT, MQSTAT, ROWP (R367 to R369) -/

/-- A second MMAWAIT of a strand is not ready until the first has written its register (R367). -/
def mmawaitGate (part : LaneMask) (s : State) : Option State :=
  if part ≠ 0 ∧ s.strand.mmaWait.isSome then some s else none

/-- MMAWAIT: its target is the issued count less n (R367). -/
def execMmawait (h : Hdr) (d : Reg) (n : Fin 4) (s : State) : Outcome State Fault Refusal :=
  issue (.mmawait h d n) mmawaitGate (onceFor fun _ part s =>
    let seq := s.cur.issueSeq
    let w : MmaWait := { d := d, lanes := part, seq := seq, target := s.cur.mIssued - BitVec.ofNat 32 n.val }
    .done ((s.modCur fun g => g.markPend d 1 s.strand.mask part (pendMark seq s.curStrand)).modStrand fun st => { st with mmaWait := some w })) s

/-- A wrapping count has reached a target (R367). -/
def countReached (count target : Word) : Bool := !(count - target).getLsbD 31

/-- The strands of a gang whose MMAWAIT is over receive the completed count (R367). -/
def Gang.endMmawaits (g : Gang) : Gang :=
  (List.range 16).foldl (fun g k =>
    match (g.strandAt k).mmaWait with
    | some w =>
      if countReached g.mCompleted w.target then
        ((g.land (resultWrites w.d w.lanes fun _ => g.mCompleted) (pendMark w.seq k)).modStrand k
          fun st => { st with mmaWait := none }).unpark
      else g
    | none => g) g

/-- The numbers of a gang's reservations as bits (R368). -/
def Core.resvBits (c : Core) (g : GKey) : Nat :=
  ((List.range 8).filter fun n => (c.resvOf g n).isSome).foldl (fun x n => x + 2 ^ n) 0

/-- The word MQSTAT gives (R368). -/
def mqWord (g : Gang) (c : Core) : Word :=
  let head (f : MCmd → Bool) : Nat := match g.mq with | x :: _ => if f x then 1 else 0 | [] => 0
  BitVec.ofNat 32 (g.mq.length + 8 * head (·.started) + 16 * head (·.faulted) + 256 * c.resvBits g.key)

/-- MQSTAT (R368). -/
def execMqstat (h : Hdr) (d : Reg) (s : State) : Outcome State Fault Refusal :=
  issue (.mqstat h d) noGate (onceFor fun _ part s => .done (s.giveAll d part (mqWord s.cur s.myCore))) s

/-- The word ROWP gives (R369). -/
def rowpWord (g : Gang) (k : Bool) : Word :=
  match g.mq with
  | [] => 0
  | c :: _ =>
    match c.kind, k with
    | .mma, false => BitVec.ofNat 32 c.tile
    | .mma, true => BitVec.ofNat 32 (c.kstep % 2 ^ 24 + c.rows * 2 ^ 24)
    | _, false => 0
    | _, true => BitVec.ofNat 32 (c.rows % 2 ^ 24)

/-- ROWP (R369). -/
def execRowp (h : Hdr) (k : Bool) (d : Reg) (s : State) : Outcome State Fault Refusal :=
  issue (.rowp h k d) noGate (onceFor fun _ part s => .done (s.giveAll d part (rowpWord s.cur k))) s

end Sys2Proof.Machine
end

