-- ==== Sys2Proof/Machine/Matrix.lean ====
section
/-! DEFINITION. The engines at the homes (R134, R145 to R148) and the matrix engine at work (R81 to R84, R177, R359 to R366):
acceptance, registration of destinations, tile steps and transfer steps, completion. -/

namespace Sys2Proof.Machine

open Host (Outcome)

/-! ### An engine's words at the home (R132, R134, R145, R148) -/

/-- The agent code of an engine: 0 the matrix engine, 1 CE0, 2 CE1 (R132, R142). -/
def engAgent (eng : Nat) : Nat := agentMatrix + eng

/-- What the engine's own core holds of a word dirty and unregistered, or any core owns dirty, goes home before the engine reads it
(R96, R104, R147). -/
def State.engRecall (s : State) (core w : Nat) : State := ((if s.unregistered core w then s.writeBack core w .valid else s)).recallDirty w

/-- The gangs of a core that pre-emption has saved (R226). -/
def State.savedGangs (s : State) (core : Nat) : List Gang :=
  (s.teams.filter fun t => t.core == core).flatMap fun t => t.saved.map (·.gang)

/-- The claimed, unwritten words of an engine's accepted commands. -/
def State.engClaims (s : State) (core eng : Nat) : List Nat :=
  if eng = 0 then (s.allGangs.filter (fun g => g.key.core == core) ++ s.savedGangs core).flatMap fun g => g.mq.flatMap (·.words)
  else (((s.coreAt core).ces[eng - 1]?).map fun e => e.queue.flatMap (·.words)).getD []

/-- The EMASK bit of a word is cleared; an entry with none left is free (R132). -/
def Dir.dropEngine (core eng w : Nat) (d : Dir) : Dir :=
  match d.eng with
  | some e =>
    if e.core = core ∧ e.eng = eng then
      let m := e.mask &&& ~~~ (1#8 <<< (w % 8))
      { d with eng := if m = 0 then none else some { e with mask := m } }
    else d
  | none => d

/-- Words that no command of the engine still has to write are no longer its own (R145, R148). -/
def State.clearClaims (s : State) (core eng : Nat) (ws : List Nat) : State :=
  let still := s.engClaims core eng
  ws.foldl (fun s w => if still.contains w then s else s.modDir (w / 8) (Dir.dropEngine core eng w)) s

/-- One occurrence of each word taken out of a list. -/
def eraseEach (ws l : List Nat) : List Nat := ws.foldl (fun l w => l.erase w) l

/-- The request that registers the ranges of one frame (R133, R145); `keep` says that the command may read them before it writes them. -/
def State.placeClaims (s : State) (who : Who) (eng : Nat) (entry : Option Nat) (keep : Bool) (attr : Attr) (rs : List (Nat × Nat × Nat)) : State :=
  let accs := rs.flatMap fun (va, pa, n) =>
    (List.range ((pa + n - 1) / 32 - pa / 32 + 1)).map fun k =>
      let lo := Nat.max pa ((pa / 32 + k) * 32)
      { mkAcc 0 0 (Nat.min (pa + n) ((pa / 32 + k + 1) * 32) - lo) (BitVec.ofNat 64 (va + (lo - pa))) with ok := true, pa := lo, attr := attr }
  s.placeAll ((sectorsOf accs).map fun sec =>
    let r := s.request who.g.core (engAgent eng) who (.engReg eng) sec (inSector accs sec)
    { r with entry := entry, forced := if keep then r.words else [] })

/-- How far a command's registrations came: the ranges left, the words claimed, and whether a frame failed. -/
structure Claim where
  left : List (Nat × Nat)
  words : List Nat
  failed : Bool

/-- The address a registration stands at. -/
def Claim.at' (c : Claim) : Nat := (c.left.head?.map (·.1)).getD 0

/-- Destination frames registered in ascending order (R145): a frame that fails translation stops the command and is reported
with its first destination address; a shootdown holds the rest; ranges on pages that `skip` names are not claimed. -/
def State.claimFrames (s : State) (who : Who) (eng : Nat) (entry : Option Nat) (keep : Bool) (skip : State → Nat → Bool) :
    Nat → Claim → State × Claim
  | 0, c => (s, c)
  | fuel + 1, c =>
    match c.left with
    | [] => (s, c)
    | (a, _) :: _ =>
      let frame := c.left.takeWhile fun r => r.1 / 512 == a / 512
      let rest := c.left.dropWhile fun r => r.1 / 512 == a / 512
      match s.translate who.g.core who.ctx (BitVec.ofNat 64 a) .write with
      | (t, s1) =>
        match noDevice t with
        | .held => (s1, c)
        | .fault _ => (s1.engineFault who (BitVec.ofNat 64 a) true, { c with failed := true })
        | .ok pa attr =>
          if skip s1 pa then s1.claimFrames who eng entry keep skip fuel { c with left := rest }
          else
            let phys := frame.map fun r => (r.1, pa + (r.1 - a), r.2)
            (s1.placeClaims who eng entry keep attr phys).claimFrames who eng entry keep skip fuel
              { c with left := rest, words := c.words ++ phys.flatMap fun r => rangeWords r.2.1 r.2.2 }

/-- The bytes of a word that accesses cover. -/
def coverMask (accs : List LaneAcc) (w : Nat) : BitVec 4 :=
  (List.range 4).foldl (fun m k => if accs.any fun a => decide (a.pa ≤ 4 * w + k ∧ 4 * w + k < a.pa + a.size) then m ||| (1#4 <<< k) else m) 0

/-- ENGINE_REGISTRATION: at its point an engine becomes the owner of its words; earlier owners lose them, the bytes they wrote and
the engine does not cover going home (R104, R134, R145, R334). So do the bytes of words that the command may read before it writes them,
whose values before the command its reads return (R147; DEDUCED, log entry 42). The copies its own core holds become absent, as R107 allows at any
time: the commanding gang reads what the engine wrote once its last write has synchronised with it (R96, R98; DEDUCED, log entry 34). -/
def execEngineRegistration (id : Nat) (s : State) : Outcome State Fault Refusal :=
  .next (s.serve id (fun k => match k with | .engReg _ => true | _ => false) fun r s =>
    match r.kind with
    | .engReg eng =>
      let s0 := r.words.foldl (fun s w =>
        (if s.unregistered r.core w then s.writeBack r.core w .valid else s).takeFrom 256 w (if r.forced.contains w then 0 else coverMask r.accs w)) s
      let s1 := s0.modCore r.core fun c => r.words.foldl (fun c w => c.modView w fun _ => none) c
      s1.modDir r.sector fun d =>
        let old : BitVec 8 := match d.eng with | some e => e.mask | none => 0
        { d with eng := some { core := r.core, eng := eng, mask := r.words.foldl (fun m w => m ||| (1#8 <<< (w % 8))) old } }
    | _ => s)

/-- The home takes what an engine writes (R145). -/
def State.engPut (s : State) (pa : Nat) (bs : List Byte) : State := (s.putHome pa bs).l2Take (pa / 32)

/-! ### Requests of engines (R141, R145 to R147) -/

/-- What an engine's read answers: bytes, a failed translation, uncorrectable data of the TOB or a scratchpad with its access kind, unit and place,
uncorrectable data at a home, which its error record names already (R234, R235), a wait, or one for a shootdown (R197). -/
inductive EngRd where
  | ok (bs : List Byte)
  | fault (va : Nat)
  | data (va kind unit addr : Nat)
  | bad (va : Nat)
  | held
  | stall
deriving DecidableEq, Repr

/-- The address of a failed read. -/
def EngRd.va : EngRd → Nat
  | .fault a => a
  | .data a .. => a
  | .bad a => a
  | _ => 0

/-- A read or a write of an engine. -/
def OrnReq.isEng (r : OrnReq) (core eng : Nat) : Bool := r.core == core && r.engine == some eng

/-- The engine's requests for a command that are still to be served, of those a condition picks. -/
def State.engOpen (s : State) (core eng : Nat) (who : Who) (p : OrnReq → Bool) : Bool :=
  (s.ornWait ++ s.orn).any fun r => r.isEng core eng && r.who.g == who.g && r.who.seq == who.seq && p r

/-- A command's writes that are still to be served. -/
def State.engWriting (s : State) (core eng : Nat) (who : Who) : Bool := s.engOpen core eng who fun r => r.kind == .engWrite eng

/-- An engine's request of one frame is placed: one point for its sectors (R133, R141). -/
def State.engPlace (s : State) (eng : Nat) (who : Who) (kind : OrnKind) (accs : List LaneAcc) : State :=
  s.placeAll ((sectorsOf accs).map fun sec => s.request who.g.core (engAgent eng) who kind sec (inSector accs sec))

/-- Bytes of a range of one sector for an engine's command: those its read has returned, or the read is asked for; the matrix engine's brings the
sector (R117, R141, R147). -/
def State.engGet (s : State) (core eng : Nat) (who : Who) (va pa n : Nat) (attr : Attr) : State × EngRd :=
  match (s.coreAt core).engIn.find? fun e =>
      e.eng == eng && e.g == who.g && e.seq == who.seq && decide (e.pa ≤ pa ∧ pa + n ≤ e.pa + e.n) with
  | some e =>
    match e.bytes with
    | some bs => (s, .ok ((bs.drop (pa - e.pa)).take n))
    | none => (s, .bad va)
  | none =>
    let lo := if eng = 0 then pa / 32 * 32 else pa
    let len := if eng = 0 then 32 else n
    if s.engOpen core eng who fun r => r.accs.any fun a => decide (a.pa ≤ pa ∧ pa + n ≤ a.pa + a.size) then (s, .stall)
    else
      (s.engPlace eng who (.engRead eng)
        [{ mkAcc 0 0 len (BitVec.ofNat 64 (va - (pa - lo))) with ok := true, pa := lo, attr := attr }], .stall)

/-- What a command's reads have returned is used, or the command has stopped. -/
def State.engDrop (s : State) (core eng : Nat) (who : Who) : State :=
  s.modCore core fun c => { c with engIn := c.engIn.filter fun e => !(e.eng == eng && e.g == who.g && e.seq == who.seq) }

/-- The bytes an engine reads of a request's words at their home: dirty copies go home before, and the tile path of the matrix engine's core keeps the
sector (R117, R147). -/
def State.engRead (s : State) (r : OrnReq) (eng : Nat) : State :=
  let s1 := s.asOne fun s => r.words.foldl (fun s w => s.engRecall r.core w) s
  let s2 := if eng = 0 ∧ r.attr.cache ≠ 2 then
      s1.modCore r.core fun c => c.pathPut true ((sectorWords r.sector).map fun w => (w, s1.hword w))
    else s1
  s2.addEngIn eng r fun a => some (s2.homeBytes a)

/-! ### Reads of the matrix engine (R117, R147, R361) -/

/-- A range cut at sectors. -/
def cutSectors (a n : Nat) : List (Nat × Nat) :=
  if n = 0 then []
  else (List.range ((a + n - 1) / 32 - a / 32 + 1)).map fun k =>
    let lo := Nat.max a ((a / 32 + k) * 32)
    (lo, Nat.min (a + n) ((a / 32 + k + 1) * 32) - lo)

/-- Bytes of one sector through the tile path: the core's copies, or a fill of all eight words (R117, R147). -/
def State.tilePiece (s : State) (who : Who) (va pa n : Nat) (attr : Attr) : State × EngRd :=
  let a : LaneAcc := { mkAcc 0 0 n 0 with ok := true, pa := pa, attr := attr }
  match (s.coreAt who.g.core).pathBytes true a with
  | some bs => (s, .ok bs)
  | none => s.engGet who.g.core 0 who va pa n attr

/-- Bytes of a range of a core's TOB, unless an uncorrectable error stands there (R234). -/
def State.tobRead (s : State) (core a n : Nat) : EngRd :=
  match (s.coreAt core).tobError a n with
  | some k => .data 0 5 unitTob k
  | none => .ok (smBytes (s.coreAt core).tob a n)

/-- Bytes of pieces of a virtual range, in order, through a read of one piece: the first that fails is reported once those before it are there, and
those after one that waits are asked for meanwhile. -/
def State.pieces (s : State) (core ctx : Nat) (get : State → Nat → Nat → Nat → Attr → State × EngRd) : List (Nat × Nat) → List Byte → State × EngRd
  | [], acc => (s, .ok acc)
  | (a, n) :: rest, acc =>
    match s.translate core ctx (BitVec.ofNat 64 a) .read with
    | (t, s1) =>
      match noDevice t with
      | .held => (s1, .held)
      | .fault _ => (s1, .fault a)
      | .ok pa attr =>
        match get s1 a pa n attr with
        | (s2, .ok bs) => s2.pieces core ctx get rest (acc ++ bs)
        | (s2, .stall) => ((s2.pieces core ctx get rest []).1, .stall)
        | (s2, e) => (s2, e)

/-- Bytes of a virtual range through the tile path. -/
def State.tileRead (s : State) (who : Who) (l : List (Nat × Nat)) : State × EngRd :=
  s.pieces who.g.core who.ctx (fun s va pa n attr => s.tilePiece who va pa n attr) l []

/-- Operand bytes of row `i` of A, or of column `i` of B, for elements `k0` to `k1` (R361). -/
def State.operandRow (s : State) (c : MCmd) (isA : Bool) (i k0 k1 : Nat) : State × EngRd :=
  let fmt := if isA then c.afmt else c.bfmt
  let addr := if isA then c.aaddr else c.baddr
  let off := k0 * (nfmt fmt).width / 8
  let n := packedBytes fmt (k1 - k0)
  if (if isA then c.asrc else c.bsrc) then
    match (s.coreAt c.who.g.core).resvOf c.who.g (addr / 2 ^ 32 % 8) with
    | some r => (s, s.tobRead c.who.g.core (r.start + addr % 2 ^ 19 + i * r.pitch + off) n)
    | none => (s, .ok [])
  else s.tileRead c.who (cutSectors ((addr + i * (if isA then c.astr else c.bstr) + off) % 2 ^ 64) n)

/-- The scale byte of a block of a row, none where the format has no blocks (R73, R361). -/
def State.scaleRow (s : State) (c : MCmd) (isA : Bool) (i k0 : Nat) : State × EngRd :=
  let fmt := if isA then c.afmt else c.bfmt
  let addr := if isA then c.aaddr else c.baddr
  if (blockOf fmt).isNone then (s, .ok [])
  else if (if isA then c.asrc else c.bsrc) then
    match (s.coreAt c.who.g.core).resvOf c.who.g (addr / 2 ^ 32 % 8) with
    | some r => (s, s.tobRead c.who.g.core (r.start + r.soff + i * ((c.k + 127) / 128) + k0 / 128) 1)
    | none => (s, .ok [])
  else
    let a := if isA then c.asca + i * c.ascstr else c.bsca + i * c.bscstr
    s.tileRead c.who [((a + k0 / 128) % 2 ^ 64, 1)]

/-- A row's elements for one step, as one little-endian number, with its scale (R71, R74). -/
structure OpRow where
  bits : Nat
  scale : XVal

/-- The scale of a row: 1 for a format without blocks (R81). -/
def scaleOf (fmt : Nat) (bs : List Byte) : XVal :=
  match blockOf fmt with
  | some (_, e4) => scaleValue e4 (leNat bs)
  | none => .ofInt 1

/-- A row as an operand of a format. -/
def OpRow.of (fmt : Nat) (p : List Byte × List Byte) : OpRow := ⟨leNat p.1, scaleOf fmt p.2⟩

/-- The bytes of a row and of its scale, or why they cannot be read. -/
def State.readRow (s : State) (c : MCmd) (isA : Bool) (i k0 k1 : Nat) : State × Except EngRd (List Byte × List Byte) :=
  match s.operandRow c isA i k0 k1 with
  | (s1, .ok bs) =>
    match s1.scaleRow c isA i k0 with
    | (s2, .ok sc) => (s2, .ok (bs, sc))
    | (s2, e) => (s2, .error e)
  | (s1, .stall) => ((s1.scaleRow c isA i k0).1, .error .stall)
  | (s1, e) => (s1, .error e)

/-- Rows in order, up to the first that cannot be read; those after one that waits are asked for meanwhile. -/
def State.readRows (s : State) (c : MCmd) (k0 k1 : Nat) : List Nat → List (List Byte × List Byte) → State × Except EngRd (List (List Byte × List Byte))
  | [], acc => (s, .ok acc)
  | j :: rest, acc =>
    match s.readRow c false j k0 k1 with
    | (s1, .ok r) => s1.readRows c k0 k1 rest (acc ++ [r])
    | (s1, .error .stall) => ((s1.readRows c k0 k1 rest []).1, .error .stall)
    | (s1, .error e) => (s1, .error e)

/-! ### Arithmetic (R81 to R83) -/

/-- Element `k` of a row (R69, R72, R74). -/
def OpRow.elem (r : OpRow) (fmt k : Nat) : XVal :=
  let w := (nfmt fmt).width
  (nfmt fmt).value (r.bits / 2 ^ (k * w) % 2 ^ w)

/-- The exact sum of a chunk's products from element `k0` of the step; elements at or beyond `kmax` contribute +0 (R82). The signs of zeros that R83
and R85 leave open follow IEEE 754: a product has the sign its factors give it, a zero of an integer format being +0, the sum of −0 products
alone is −0, and any other sum that is exactly zero +0 (DEDUCED, log entries 116 and 117). -/
def chunkSum (fa fb : Nat) (a b : OpRow) (k0 n kmax : Nat) : XVal :=
  (List.range n).foldl (fun x t =>
    x.add (if k0 + t < kmax then (a.elem fa (k0 + t)).mul (b.elem fb (k0 + t)) else .zero false) false) (.zero true)

/-- ChunkScale (R83). -/
def chunkScale (sum sa sb : XVal) : XVal :=
  if sa.isNan || sb.isNan then .nan false
  else if sa.isZero || sb.isZero then .zero false
  else (sum.mul sa).mul sb

/-- An accumulator takes a chunk (R82). -/
def accumulate (k : AccKind) (c : Nat) (x : XVal) : Nat :=
  match k with
  | .f32 => (addBits f32 .rn c (f32.round .rn false x).1).1
  | .f64 => (f64.round .rn false ((f64.value c).add x false)).1
  | .i32 =>
    match x with
    | .num neg p _ e => ((BitVec.ofNat 32 c) + BitVec.ofInt 32 ((asInteger neg p e).getD 0)).toNat
    | _ => c

/-- The chunks of one step enter an accumulator in ascending order (R82, R84). -/
def MCmd.element (c : MCmd) (a b : OpRow) (k0 : Nat) (acc : Nat) : Nat :=
  let kmax := c.k - k0
  (List.range (c.depth / c.chunk)).foldl (fun acc t =>
    if t * c.chunk < kmax then
      accumulate c.accK acc (chunkScale (chunkSum c.afmt c.bfmt a b (t * c.chunk) c.chunk kmax) a.scale b.scale)
    else acc) acc

/-! ### Tile steps (R361, R362, R365, R366) -/

/-- Where accumulator element (i, j) lies in the TOB (R361). -/
def MCmd.accAt (c : MCmd) (r : Resv) (i j : Nat) : Nat := r.start + c.accoff + i * r.pitch + j * c.accK.width

/-- A row of an output tile takes a step: every element of the row in the tile (R82, R365). -/
def MCmd.runRow (c : MCmd) (r : Resv) (i : Nat) (a : OpRow) (bs : List OpRow) (j0 : Nat) (core : Core) : Core :=
  let w := c.accK.width
  let old (t : SMap 8) (k : Nat) : Nat := if c.kstep = 0 && c.zero then 0 else leNat (smBytes t (c.accAt r i (j0 + k)) w)
  core.putTob (c.accAt r i j0) (bs.zipIdx.flatMap fun (b, k) => leBytes (c.element a b (c.kstep * c.depth) (old core.tob k)) w)

/-- The accumulators of a row of a tile hold an uncorrectable error (R234). -/
def State.accError (s : State) (c : MCmd) (r : Resv) (i j0 n : Nat) : Option EngRd :=
  match s.tobRead c.who.g.core (c.accAt r i j0) (n * c.accK.width) with
  | .ok _ => none
  | e => some e

/-- What is stored for an accumulator: RELU, then the conversion (R362). -/
def MCmd.outBits (c : MCmd) (x : Nat) : Nat :=
  let v : Nat :=
    if !c.relu then x
    else match c.accK with
      | .f32 => (minMaxBits f32 true false x 0).1
      | .f64 => (minMaxBits f64 true false x 0).1
      | .i32 => if x < 2 ^ 31 then x else 0
  let src := c.accK.code
  (convertElem c.ofmt src .rn (c.ofmt == 10) false none 0 ((nfmt src).value v)).1

/-- The output bytes of a row of a tile (R362). -/
def MCmd.outRow (c : MCmd) (r : Resv) (t : SMap 8) (i j0 n : Nat) : List Byte :=
  (List.range n).flatMap fun k => leBytes (c.outBits (leNat (smBytes t (c.accAt r i (j0 + k)) c.accK.width))) c.outWidth

/-- A stop of a command: reported where translation failed, a fault of the gang where the data is uncorrectable, else nothing
(R234, R235, R353, R366). An engine's command has no instruction to stop before: its data error is delivered as the engine's (R212;
assumption 108). -/
def State.engStop (s : State) (who : Who) (write : Bool) (e : EngRd) : State × Bool :=
  match e with
  | .fault a => (s.engineFault who (BitVec.ofNat 64 a) write, true)
  | .data a kind unit addr =>
    ((s.dataFault who kind (BitVec.ofNat 64 a) who.mask).logErr
      who.field 2 unit who.g.core 0 (BitVec.ofNat 64 addr), true)
  | .bad a => (s.dataFault who 4 (BitVec.ofNat 64 a) who.mask, true)
  | _ => (s, false)

/-- Change a command of a gang. -/
def State.modCmd (s : State) (c : MCmd) (f : MCmd → MCmd) : State :=
  s.modGang c.who.g fun g => { g with mq := modWhere (fun x => x.who.seq == c.who.seq) f g.mq }

/-- A command has come as far as `c`. -/
def State.keepCmd (s : State) (c : MCmd) : State := s.modCmd c fun x => { x with tile := c.tile, kstep := c.kstep, rows := c.rows, part := c.part }

/-- The engine's turn is over. -/
def State.endTurn (s : State) (core : Nat) : State := s.modCore core fun k => { k with mxTurn := none }

/-- A command comes as far as `c` and waits, the engine's turn kept; or, failing or held by a shootdown, it stops with that progress, the turn
over (R197, R359, R365, R366). -/
def State.stopCmd (s : State) (c : MCmd) (write : Bool) (e : EngRd) : State :=
  if e = .stall then s.keepCmd c
  else
    let (s1, failed) := s.engStop c.who write e
    (((s1.endTurn c.who.g.core).engDrop c.who.g.core 0 c.who).keepCmd c).modCmd c fun x => { x with faulted := failed, stopVa := e.va }

/-- Accesses of ranges of one frame each for writing bytes, all translated before any is made (R366). -/
def State.writeRanges (s : State) (core ctx : Nat) : List (Nat × Nat) → List Byte → List (List LaneAcc) → State × Except EngRd (List (List LaneAcc))
  | [], _, acc => (s, .ok acc)
  | (a, n) :: rest, bs, acc =>
    match s.translate core ctx (BitVec.ofNat 64 a) .write with
    | (t, s1) =>
      match noDevice t with
      | .held => (s1, .error .held)
      | .fault _ => (s1, .error (.fault a))
      | .ok pa attr =>
        let parts := (cutSectors pa n).map fun (p, k) =>
          { mkAcc 0 0 k (BitVec.ofNat 64 (a + (p - pa))) with ok := true, pa := p, attr := attr, bytes := (bs.drop (p - pa)).take k }
        s1.writeRanges core ctx rest (bs.drop n) (acc ++ [parts])

/-- The writes of a row of a matrix command's global output are placed on the ORN, one for each frame (R141, R145). -/
def State.storeRow (s : State) (c : MCmd) (a : Nat) (bs : List Byte) : State × Except EngRd Unit :=
  match s.writeRanges c.who.g.core c.who.ctx (cutFrames [(a % 2 ^ 64, bs.length)]) bs [] with
  | (s1, .error e) => (s1, .error e)
  | (s1, .ok l) => (l.foldl (fun s accs => s.engPlace 0 c.who (.engWrite 0) accs) s1, .ok ())

/-- A write of the matrix engine at its point: the home takes the bytes, the words no longer to be written are the engine's own no more (R145). -/
def State.mxWrite (s : State) (r : OrnReq) : State :=
  let s1 := s.asOne fun s => r.accs.foldl (fun s a => s.engPut a.pa a.bytes) s
  let s2 := s1.modGang r.who.g fun g =>
    { g with mq := modWhere (fun x => x.who.seq == r.who.seq) (fun x => { x with words := eraseEach (r.accs.flatMap LaneAcc.words) x.words }) g.mq }
  s2.clearClaims r.core 0 r.words

/-- All registrations of a command have their points (R145). -/
def State.registered (s : State) (left : List (Nat × Nat)) (entry : Option Nat) : Bool :=
  left.isEmpty && !s.ornWait.any (fun r => r.entry == entry && (match r.kind with | .engReg _ => true | _ => false))

/-- The rows of a tile. -/
def MCmd.tileRows (c : MCmd) : Nat := Nat.min 64 (c.m - c.tile / c.tilesN * 64)

/-- The next tile comes, and the turn is over. -/
def State.nextTile (s : State) (c : MCmd) : State :=
  (s.endTurn c.who.g.core).keepCmd { c with tile := c.tile + 1, kstep := 0, rows := 0 }

/-- The rows of a tile's epilogue up to those whose time has come, those at or beyond M with nothing to store; with the last of the 64, once its
writes are served, the next tile comes (R362, R365, R366). -/
def State.epilogue (s : State) (c : MCmd) (r : Resv) (due : Nat) : Nat → State
  | 0 => s.keepCmd c
  | fuel + 1 =>
    if due ≤ c.rows then (if 64 ≤ c.rows && !s.engWriting c.who.g.core 0 c.who then s.nextTile c else s.keepCmd c)
    else
      let next := { c with rows := c.rows + 1 }
      let i := c.tile / c.tilesN * 64 + c.rows
      let j0 := c.tile % c.tilesN * 64
      let n := Nat.min 64 (c.n - j0)
      let bs := c.outRow r (s.coreAt c.who.g.core).tob i j0 n
      let a := c.oaddr + i * c.ostr + j0 * c.outWidth
      if c.tileRows ≤ c.rows then s.epilogue next r due fuel
      else match s.accError c r i j0 n with
      | some e => s.stopCmd c true e
      | none =>
      if c.outsp then
        let team := (s.gangAt c.who.g).team
        if s.spMay team a then (s.spWrite team a bs).epilogue next r due fuel else s.stopCmd c true .stall
      else if !s.registered c.pieces c.entry then s.stopCmd c true .stall
      else
        match s.storeRow c a bs with
        | (s1, .ok _) => s1.epilogue next r due fuel
        | (s1, .error e) => s1.stopCmd c true e

/-- A step is over: the next step, the epilogue of the tile in the same turn, or the next tile (R177, R362, R365). -/
def State.stepDone (s : State) (c : MCmd) : State :=
  let core := c.who.g.core
  let c1 := { c with kstep := c.kstep + 1, rows := 0 }
  if c1.kstep < c.steps then (s.endTurn core).keepCmd c1
  else if c.store then
    (s.modCore core fun k => { k with mxTurn := some { g := c.who.g, row0 := 0, since := s.clock + 1, bs := some [] } }).keepCmd c1
  else s.nextTile c

/-- The rows of a step up to those whose time has come, from the first not done: a row's failure stops the step before it; rows at or beyond M
take their time and do nothing (R365, R366). -/
def State.stepRows (s : State) (c : MCmd) (r : Resv) (bs : List OpRow) (k0 k1 due : Nat) : Nat → State
  | 0 => s.keepCmd c
  | fuel + 1 =>
    if due ≤ c.rows then (if 64 ≤ c.rows then s.stepDone c else s.keepCmd c)
    else if c.tileRows ≤ c.rows then s.stepRows { c with rows := c.rows + 1 } r bs k0 k1 due fuel
    else
      let i := c.tile / c.tilesN * 64 + c.rows
      match s.readRow c true i k0 k1 with
      | (s1, .error e) => s1.stopCmd c false e
      | (s1, .ok a) =>
        let j0 := c.tile % c.tilesN * 64
        match (if c.kstep = 0 && c.zero then none else s1.accError c r i j0 bs.length) with
        | some e => s1.stopCmd c false e
        | none =>
        let s2 := (s1.engDrop c.who.g.core 0 c.who).modCore c.who.g.core fun k => c.runRow r i (.of c.afmt a) bs j0 k
        s2.stepRows { c with rows := c.rows + 1 } r bs k0 k1 due fuel

/-- Cycles of a tile step of a format (R177). -/
def stepTime (fmt : Nat) : Nat :=
  match fmtClass fmt with
  | 3 => 256
  | 2 => if fmt = 0 then 128 else 32
  | 1 => 64
  | _ =>
    let w := (nfmt fmt).width
    if w ≤ 2 then 16 else if w ≤ 4 then 32 else 64

/-- Cycles of the 64 rows a command is at: those of a step, of the slower of its formats, or the 16 of an epilogue (R177). -/
def MCmd.turnTime (c : MCmd) : Nat := if c.kstep = c.steps then 16 else Nat.max (stepTime c.afmt) (stepTime c.bfmt)

/-- How many of the 64 rows of a turn have had their time in this cycle (R365). -/
def MxTurn.due (t : MxTurn) (c : MCmd) (clock : DWord) : Nat := Nat.min 64 (t.row0 + (clock.toNat + 1 - t.since.toNat) * 64 / c.turnTime)

/-- The rows of an MMA whose time has come in a turn (R365). -/
def State.mmaRows (s : State) (c : MCmd) (t : MxTurn) (bs : List (List Byte × List Byte)) : State :=
  match (s.coreAt c.who.g.core).resvOf c.who.g c.acc with
  | none => s.endTurn c.who.g.core
  | some r =>
    let due := t.due c s.clock
    if c.kstep = c.steps then s.epilogue c r due 66
    else
      let k0 := c.kstep * c.depth
      s.stepRows c r (bs.map (.of c.bfmt)) k0 (Nat.min c.k (k0 + c.depth)) due 66

/-- A turn of an MMA goes on: its B slice is loaded, and rows follow as their time comes; one stopped in its epilogue goes on there (R177, R365,
R366). -/
def State.mmaGo (s : State) (c : MCmd) (t : MxTurn) : State :=
  let run (s : State) (bs : List (List Byte × List Byte)) : State :=
    let t1 : MxTurn := { t with row0 := c.rows, since := s.clock, bs := some bs }
    (s.modCore c.who.g.core fun k => { k with mxTurn := some t1 }).mmaRows c t1 bs
  match t.bs with
  | some bs => s.mmaRows c t bs
  | none =>
    if c.kstep = c.steps then run s []
    else
      let k0 := c.kstep * c.depth
      let j0 := c.tile % c.tilesN * 64
      match s.readRows c k0 (Nat.min c.k (k0 + c.depth)) ((List.range (Nat.min 64 (c.n - j0))).map (j0 + ·)) [] with
      | (s1, .error e) => s1.stopCmd c false e
      | (s1, .ok bs) => run (s1.engDrop c.who.g.core 0 c.who) bs

/-- The bytes of a transfer step (R358, R359). -/
def transferBytes : Nat := 4096

/-- A transfer step has come so far, with `left` bytes of it to move: it waits, the turn kept, or is over once its writes are served. -/
def State.keepMove (s : State) (c : MCmd) (left : Nat) (ended : Bool) : State :=
  let s1 := s.keepCmd c
  if ended && !s.engWriting c.who.g.core 0 c.who then s1.endTurn c.who.g.core
  else s1.modCore c.who.g.core fun k => { k with mxTurn := k.mxTurn.map fun t => { t with left := left } }

/-- What is left of a transfer step of an OBLD or OBST moves, from the first byte of the first row not moved (R358, R359). The bytes of a row
that a step ends within are moved once, in this step and the next. -/
def State.moveRows (s : State) (c : MCmd) (r : Resv) (left : Nat) : Nat → State
  | 0 => s.keepMove c left false
  | fuel + 1 =>
    if c.rows = c.rowCount ∨ left = 0 then s.keepMove c 0 true
    else
      let core := c.who.g.core
      let team := (s.gangAt c.who.g).team
      let n := Nat.min left (c.rowBytes - c.part)
      let t := r.start + c.toff + c.rows * r.pitch + c.part
      let a := c.base + c.rows * c.vs + c.part
      let next := if c.part + n < c.rowBytes then { c with part := c.part + n } else { c with rows := c.rows + 1, part := 0 }
      let stop (s : State) (e : EngRd) : State := if e = .stall then s.keepMove c left false else s.stopCmd c (c.kind == .obst) e
      match c.kind, c.sp with
      | .obld, true =>
        if !s.spMay team a then stop s .stall
        else
          match s.spError team a n with
          | some k => stop s (.data a 4 unitScratch (8 * k))
          | none =>
            let (s1, bs) := s.spRead team a n
            (s1.modCore core fun k => k.putTob t bs).moveRows next r (left - n) fuel
      | .obld, false =>
        match s.tileRead c.who (cutSectors (a % 2 ^ 64) n) with
        | (s1, .ok bs) => ((s1.engDrop core 0 c.who).modCore core fun k => k.putTob t bs).moveRows next r (left - n) fuel
        | (s1, e) => stop s1 e
      | _, sp =>
        match s.tobRead core t n with
        | .ok bs =>
          if sp then
            if s.spMay team a then (s.spWrite team a bs).moveRows next r (left - n) fuel else stop s .stall
          else if !s.registered c.pieces c.entry then stop s .stall
          else
            match s.storeRow c a bs with
            | (s1, .ok _) => s1.moveRows next r (left - n) fuel
            | (s1, .error e) => stop s1 e
        | e => stop s e

/-! ### Turns, acceptance, completion (R359, R367) -/

/-- A command has done all it had to do. -/
def MCmd.finished (c : MCmd) : Bool := match c.kind with | .mma => c.tile == c.tiles | _ => c.rows == c.rowCount

/-- The accumulator range of an MMA in its core's TOB. -/
def MCmd.accRange (c : MCmd) (core : Core) : Option (Nat × Nat) :=
  match c.kind with
  | .mma => (core.resvOf c.who.g c.acc).map fun r => (r.start + c.accoff, (c.m - 1) * r.pitch + c.n * c.accK.width)
  | _ => none

/-- An earlier-accepted, uncompleted MMA of another gang has an accumulator range that meets this one's (R359). -/
def State.sharedAhead (s : State) (c : MCmd) : Bool :=
  let core := s.coreAt c.who.g.core
  match c.accRange core with
  | none => false
  | some (a, n) =>
    s.allGangs.any fun g => g.key.core == c.who.g.core && g.key != c.who.g && g.mq.any fun x =>
      x.accepted != 0 && decide (x.accepted < c.accepted) &&
        match x.accRange core with
        | some (b, k) => overlaps a n b k
        | none => false

/-- A team is past its pre-emption point: the engines start nothing more for its gangs (R226). -/
def State.leaving (s : State) (t : TKey) : Bool := (s.teamAt t).any (·.stopping)

/-- The head of a gang's queue that the engine may begin a turn of. -/
def State.runnable (s : State) (g : Gang) : Option MCmd :=
  match g.mq with
  | c :: _ => if c.accepted != 0 && !c.faulted && !c.finished && !s.sharedAhead c && !s.leaving g.team then some c else none
  | [] => none

/-- The gang slots of a core in the order a round-robin takes them after the one last served (R177, R375). -/
def slotTurn (last : Nat) : List Nat := (List.range 64).map fun k => (last + 1 + k) % 64

/-- The gang in slot `n` of a core, numbered partition × 16 + slot (R177). -/
def State.slotGang (s : State) (core n : Nat) : Option Gang :=
  s.allGangs.find? fun g => g.key.core == core && g.key.part * 16 + g.key.slot == n

/-- The engine's turn and the command it is for. -/
def State.mxCmd (s : State) (core : Nat) : Option (MxTurn × MCmd) :=
  (s.coreAt core).mxTurn.bind fun t => ((s.gangAt t.g).mq.head?).bind fun c =>
    if t.g.core == core && c.who.g == t.g && c.accepted != 0 && !c.faulted then some (t, c) else none

/-- A turn of a matrix command goes on (R359, R365). -/
def State.turnGo (s : State) (c : MCmd) (t : MxTurn) : State :=
  match c.kind with
  | .mma => s.mmaGo c t
  | _ =>
    match (s.coreAt c.who.g.core).resvOf c.who.g c.res.val with
    | none => s.endTurn c.who.g.core
    | some r => s.moveRows c r t.left 257

/-- The homes serve an engine's reads and writes whose turn in the order has come (R133, R145, R147). -/
def State.engServe (s : State) (core eng : Nat) (write : OrnReq → State → State) : State :=
  ((s.orn.filter fun r => r.isEng core eng).map (·.id)).foldl (fun s id =>
    s.serve id (fun k => k == .engRead eng || k == .engWrite eng) fun r s => if r.kind == .engRead eng then s.engRead r eng else write r s) s

/-- TILE_STEP: the matrix engine's requests are served at their homes, and it goes on with its turn, or begins the next (R177, R359, R365). -/
def execTileStep (core : Nat) (s0 : State) : Outcome State Fault Refusal :=
  let s := s0.engServe core 0 fun r s => s.mxWrite r
  match s.mxCmd core with
  | some (t, c) => .next (s.turnGo c t)
  | none =>
    match (slotTurn (s.coreAt core).mxLast).findSome? fun n => ((s.slotGang core n).bind s.runnable).map fun c => (n, c) with
    | none => .next (s.endTurn core)
    | some (n, c) =>
      let t : MxTurn := { g := c.who.g, row0 := c.rows, since := s.clock, bs := none, left := transferBytes }
      .next (((s.modCore core fun k => { k with mxLast := n, mxTurn := some t }).modCmd c fun x => { x with started := true }).turnGo c t)

/-- The next command of a gang to be accepted, once its entry has retired, and when that and the retirement of every command before it
came to hold (R359). -/
def Gang.acceptable (g : Gang) : Option (Nat × MCmd) :=
  ((g.mq.find? fun c => c.accepted == 0).filter (·.retired)).map fun c =>
    (((g.mq.takeWhile fun x => x.who.seq != c.who.seq).map (·.readyAt)).foldl Nat.max c.readyAt, c)

/-- The command an acceptance acts on: one accepted before whose frames are not all registered, else the next, where no other gang of the
core has one that could be accepted before it (R145, R359). -/
def State.toAccept (s : State) (g : Gang) : Option MCmd :=
  match g.mq.find? fun c => c.accepted != 0 && !c.faulted && !c.pieces.isEmpty with
  | some c => some c
  | none =>
    g.acceptable.bind fun (k, c) =>
      if s.allGangs.any (fun x => x.key.core == g.key.core && x.acceptable.any fun p => decide (p.1 < k)) then none else some c

/-- MATRIX_COMMAND_ACCEPT: acceptance in the order in which the commands came to be ready for it, and the registration of the
destinations (R145, R359). -/
def execMatrixCommandAccept (g : GKey) (s : State) : Outcome State Fault Refusal :=
  match s.toAccept (s.gangAt g) with
  | none => .next s
  | some c =>
    let (id, s1) := s.fresh
    let s2 := s1.modCmd c fun x => { x with accepted := if x.accepted = 0 then id else x.accepted }
    let (s3, k) := s2.claimFrames c.who 0 c.entry (c.kind == .mma) (fun _ _ => false) c.pieces.length ⟨c.pieces, c.words, false⟩
    .next (s3.modCmd c fun x => { x with pieces := k.left, words := k.words, faulted := k.failed, stopVa := k.at' })

/-- MATRIX_COMMAND_COMPLETE: the finished head, its turn over, leaves its queue and is counted (R359, R367). -/
def execMatrixCommandComplete (g : GKey) (s : State) : Outcome State Fault Refusal :=
  match (s.gangAt g).mq with
  | c :: rest =>
    if c.accepted != 0 && c.finished && !s.engWriting g.core 0 c.who && (s.coreAt g.core).mxTurn.all (·.g != g) then .next (s.modGang g fun k => { k with mq := rest, mCompleted := k.mCompleted + 1 })
    else .next s
  | [] => .next s

end Sys2Proof.Machine
end

