-- ==== Sys2Proof/Machine/Bridle.lean ====
section
/-! DEFINITION. Access slices and feed queues (R370 to R379): their definition, Bridle's pushes, POP and FQSTAT. -/

namespace Sys2Proof.Machine

open Host (Outcome)

/-! ### Definition of a slice (R370 to R374) -/

/-- Change the issuing gang's slice. -/
def State.modSlice (s : State) (f : Slice → Slice) : State := s.modCur fun g => { g with slice := f g.slice }

/-- A definition is not changed while the slice runs (R370). -/
def sliceDef (go : Nat → LaneMask → State → Res) : LaneMask → State → Res :=
  onceFor fun l part s => if s.cur.slice.running then .trap (.form part) else go l part s

/-- AS.LOOP (R371). -/
def execAsLoop (h : Hdr2) (k : Fin 4) (c : AsCount) (s : State) : Outcome State Fault Refusal :=
  issue (.asLoop h k c) noGate (sliceDef fun l part s =>
    let n : Word := match c with
      | .imm n => n
      | .reg r => s.cur.rd32 r l
    if n = 0 then .trap (.form part) else .done (s.modSlice fun x => { x with trips := modAt x.trips k.val fun _ => n })) s

/-- Change a stream of a slice. -/
def Slice.modStream (x : Slice) (q : Nat) (f : Stream → Stream) : Slice := { x with streams := modAt x.streams q f }

/-- AS.ADDR (R372). -/
def execAsAddr (h : Hdr2) (f : AsAddr) (s : State) : Outcome State Fault Refusal :=
  issue (.asAddr h f) noGate (sliceDef fun l _ s =>
    .done (s.modSlice fun x =>
      match f with
      | .base q a => x.modStream q.val fun t => { t with base := s.cur.rd64 a l, sp := false }
      | .baseSp q a => x.modStream q.val fun t => { t with base := (s.cur.rd32 a l).setWidth 64, sp := true }
      | .str q k d => x.modStream q.val fun t => { t with strides := modAt t.strides k.val fun _ => d })) s

/-- AS.PUSH (R373). -/
def execAsPush (h : Hdr) (q : Fin 4) (ty : PushTy) (m : Reg) (s : State) : Outcome State Fault Refusal :=
  issue (.asPush h q ty m) noGate (sliceDef fun l _ s =>
    .done (s.modSlice fun x => x.modStream q.val fun t => { t with ty := some ty, vmask := s.cur.rd32 m l })) s

/-- The first stream from `q` on with a push defined. -/
def Slice.pushFrom (x : Slice) (q : Nat) : Option Nat :=
  (List.range 4).find? fun k => decide (q ≤ k) && (match x.streams[k]? with | some t => t.ty.isSome | none => false)

/-- A stream whose base or a stride is no multiple of its element width (R374). -/
def Stream.misaligned (t : Stream) : Bool :=
  match t.ty with
  | some ty => t.base.toNat % pushSize ty != 0 || t.strides.any fun d => d.toNat % pushSize ty != 0
  | none => false

/-- AS.END: its checks, then its store-queue entry; the slice starts when that retires (R353, R374). -/
def execAsEnd (h : Hdr) (s : State) : Outcome State Fault Refusal :=
  issue (.asEnd h) (bothGates (memGate false) fun part s => roomGate (match lowLane part with | some l => laneBit l | none => 0) s)
    (sliceDef fun l part s =>
      if pastMemdone s.strand || (s.cur.slice.pushFrom 0).isNone then .trap (.form part)
      else
        match s.cur.slice.streams.find? Stream.misaligned with
        | some t => .trap ⟨causeAlignment, 4, t.base, part, false⟩
        | none => .done ((s.enter (s.newEntry (s.who part false) (l / 4) .slice [])).countStore)) s

/-- AS.END.abort: the slice stops, the feed queues empty, the definition is cleared (R374). -/
def execAsEndAbort (h : Hdr) (s : State) : Outcome State Fault Refusal :=
  issue (.asEndAbort h) noGate (onceFor fun _ _ s =>
    .done (s.modCur fun g => { g with slice := Slice.empty, fq := List.replicate 4 ⟨[], []⟩ })) s

/-- A slice starts at its first point (R370, R374). -/
def Slice.start (x : Slice) (who : Who) : Slice :=
  match x.pushFrom 0 with
  | some q =>
    if x.running then x
    else { x with idx := List.replicate 4 0, q := q, running := true, stopped := false, finished := false, who := who }
  | none => x

/-! ### Pushes (R370, R375, R376) -/

/-- The next point of the nest in row-major order, from the innermost level (given first) outward; none after the last. -/
def nextPoint : List (Word × Word) → Option (List Word)
  | [] => none
  | (i, n) :: outer =>
    if i + 1 = n then (nextPoint outer).map fun r => 0 :: r else some ((i + 1) :: outer.map (·.1))

/-- The slice after a push: the next stream at the point, or the next point (R370). -/
def Slice.advance (x : Slice) : Slice :=
  match x.pushFrom (x.q + 1) with
  | some q => { x with q := q }
  | none =>
    match nextPoint (x.idx.zip x.trips).reverse with
    | some r => { x with idx := r.reverse, q := (x.pushFrom 0).getD 0 }
    | none => { x with finished := true }

/-- The address of a lane's element at the slice's point, modulo 2^64 (R370). -/
def Slice.addr (x : Slice) (t : Stream) (lane : Nat) : DWord :=
  (((x.idx ++ [BitVec.ofNat 32 lane]).zip t.strides).foldl (fun a (i, d) => a + i.setWidth 64 * d.signExtend 64) t.base)

/-- Entries a feed queue holds, pushes in flight counted (R375). -/
def fqRoom : Nat := 16

/-- The next push of a gang's slice can start. -/
def Gang.pushReady (g : Gang) : Bool :=
  g.slice.running && !g.slice.stopped && !g.slice.finished &&
    match g.fq[g.slice.q]? with
    | some f => decide (f.entries.length + f.inflight.length < fqRoom)
    | none => false

/-- The elements of a push, lane by lane, translated: their accesses, or why the push cannot start. -/
def State.pushAccs (s : State) (core ctx : Nat) (ty : PushTy) : List (Nat × DWord) → List LaneAcc → State × Except EngRd (List LaneAcc)
  | [], acc => (s, .ok acc)
  | (l, a) :: rest, acc =>
    match s.translate core ctx a .read with
    | (t, s1) =>
      match noDevice t with
      | .held => (s1, .error .held)
      | .fault _ => (s1, .error (.fault a.toNat))
      | .ok pa attr => s1.pushAccs core ctx ty rest (acc ++ [{ mkAcc l 0 (pushSize ty) a with ok := true, pa := pa, attr := attr }])

/-- A push of a gang is in flight, with the lanes whose elements are still to come from their homes, and the slice goes on to the next. -/
def Gang.pushed (g : Gang) (id : Nat) (ready : Bool) (need : List Nat) : Gang :=
  { g with
    fq := modAt g.fq g.slice.q fun f => { f with inflight := f.inflight ++ [{ id := id, vals := [], ready := ready, need := need }] }
    slice := g.slice.advance }

/-- The requests of a push, one for each frame (R141, R143, R375). -/
def State.placePush (s : State) (who : Who) (q id : Nat) (ty : PushTy) (accs : List LaneAcc) : State :=
  byFrame accs (fun s l => s.placeAll ((sectorsOf l).map fun sec =>
    s.request who.g.core agentBridle who (.push q id ty) sec (inSector l sec))) s

/-- One push of a gang's slice starts, or stops the slice; none where it can do neither yet (R375, R376). Whether a scratchpad offset outside the
window is reported with the cause 0x01 of R51 or as R353 reports an engine's failures the manual leaves open: cause 0x06, access kind 4 (DEDUCED,
log entry 114). -/
def State.push (s : State) (g : Gang) (t : Stream) (ty : PushTy) : State × Bool :=
  let x := g.slice
  let at' := (lanesOf t.vmask).map fun l => (l, x.addr t l)
  let stop (s : State) (e : EngRd) : State × Bool :=
    let (s1, failed) := s.engStop x.who false e
    (s1.modGang g.key fun g => { g with slice := { g.slice with stopped := failed, stopVa := e.va } }, failed)
  let (id, s0) := s.fresh
  if t.sp then
    match at'.find? (fun p => decide (s.windowOf g < p.2.toNat + pushSize ty)) with
    | some (_, a) => stop s (.fault a.toNat)
    | none =>
      match at'.findSome? fun p => (s.spError g.team p.2.toNat (pushSize ty)).map fun k => (p.2.toNat, k) with
      | some (a, k) => stop s (.data a 4 unitScratch (8 * k))
      | none =>
      let r : SpReq :=
        { src := 7, id := 0, who := { x.who with mask := 0 }, team := g.team, op := .push x.q id ty, order := .none,
          accs := at'.map (fun p => mkAcc p.1 0 (pushSize ty) p.2), ty := none, dst := none, entry := none }
      let s1 := s0.modGang g.key fun g => g.pushed id at'.isEmpty []
      (if at'.isEmpty then s1 else s1.arriveSp g.key.core r, true)
  else
    match s0.pushAccs g.key.core x.who.ctx ty at' [] with
    | (s1, .ok accs) => ((s1.modGang g.key fun g => g.pushed id accs.isEmpty (accs.map (·.lane))).placePush x.who x.q id ty accs, true)
    | (s1, .error e) => stop s1 e

/-- Elements of a push at their home: each has its value there, and the push is ready with the last of them (R147, R375). -/
def State.pushRead (s : State) (r : OrnReq) (q id : Nat) (ty : PushTy) : State :=
  let s1 := s.asOne fun s => r.words.foldl (fun s w => s.engRecall r.core w) s
  s1.modGang r.who.g fun g =>
    { g with
      fq := modAt g.fq q fun f =>
        { f with
          inflight := modWhere (·.id == id) (fun p =>
            let need := p.need.filter fun l => !r.accs.any (·.lane == l)
            { p with
              vals := r.accs.foldl (fun v a => smSet v a.lane (pushVal ty (leNat (s1.homeBytes a)))) p.vals
              need := need, ready := need.isEmpty }) f.inflight } }

/-- The homes serve the reads of Bridle whose turn in the order has come (R133, R375). -/
def State.bridleServe (s : State) (core : Nat) : State :=
  let mine (k : OrnKind) : Bool := match k with | .push .. => true | _ => false
  ((s.orn.filter fun r => r.core == core && mine r.kind).map (·.id)).foldl (fun s id =>
    s.serve id mine fun r s => match r.kind with | .push q id ty => s.pushRead r q id ty | _ => s) s

/-- The first of some slots whose slice can start its next push starts it and is the slot last served; one that must wait is passed over, and so is
that of a team past its pre-emption point (R226, R375). -/
def State.pushTurn (s : State) (core : Nat) : List Nat → State
  | [] => s
  | n :: rest =>
    let next (g : Gang) : Option (Stream × PushTy) := (g.slice.streams[g.slice.q]?).bind fun t => t.ty.map fun ty => (t, ty)
    match ((s.slotGang core n).filter fun g => g.pushReady && !s.leaving g.team).bind fun g => (next g).map fun p => (g, p) with
    | none => s.pushTurn core rest
    | some (g, t, ty) =>
      match s.push g t ty with
      | (s1, true) => s1.modCore core fun k => { k with brLast := n }
      | (s1, false) => s1.pushTurn core rest

/-- BRIDLE_PUSH: the next slot whose slice can go on starts one push (R375). -/
def execBridlePush (core : Nat) (s : State) : Outcome State Fault Refusal :=
  .next ((s.bridleServe core).pushTurn core (slotTurn (s.coreAt core).brLast))

/-- PUSH_ENTER_QUEUE: the oldest push in flight enters its queue once its elements have returned; with the last of them the slice
no longer runs (R370, R375). -/
def execPushEnterQueue (g : GKey) (q : Fin 4) (s : State) : Outcome State Fault Refusal :=
  .next (s.modGang g fun k =>
    match k.fq[q.val]? with
    | some f =>
      match f.inflight with
      | p :: rest =>
        if p.ready then
          let fq := k.fq.set q.val { entries := f.entries ++ [p.vals], inflight := rest }
          let last := k.slice.finished && fq.all (·.inflight.isEmpty)
          { k with fq := fq, slice := if last then { k.slice with running := false, finished := false } else k.slice }
        else k
      | [] => k
    | none => k)

/-! ### POP and FQSTAT (R377, R378) -/

/-- POP waits for an entry, and for its destination's pending bits (R48, R377). -/
def popGate (d : Reg) (q : Fin 4) (part : LaneMask) (s : State) : Option State :=
  let empty := match s.cur.fq[q.val]? with
    | some f => f.entries.isEmpty
    | none => true
  if part != 0 && (empty || (s.cur.pendOf d 1 part).any (· != 0)) then some s else none

/-- POP: the head entry, each lane its own value (R377). -/
def execPop (h : Hdr) (d : Reg) (q : Fin 4) (s : State) : Outcome State Fault Refusal :=
  issue (.pop h d q) (popGate d q) (fun part s =>
    if part = 0 then .done s
    else
      match (s.cur.fq[q.val]?).bind fun f => f.entries.head? with
      | none => .done s
      | some e =>
        let s1 := s.modCur fun g => { g with fq := modAt g.fq q.val fun f => { f with entries := f.entries.tail } }
        .done (s1.launchResult d 1 part (resultWrites d part fun l => smGet e l) 0 false)) s

/-- The word FQSTAT gives (R378). -/
def fqWord (g : Gang) (q : Nat) : Word :=
  let n := match g.fq[q]? with
    | some f => f.entries.length
    | none => 0
  BitVec.ofNat 32 (n + (if g.slice.running then 256 else 0) + (if g.slice.stopped then 512 else 0))

/-- FQSTAT (R378). -/
def execFqstat (h : Hdr) (d : Reg) (q : Fin 4) (s : State) : Outcome State Fault Refusal :=
  issue (.fqstat h d q) noGate (onceFor fun _ part s => .done (s.giveAll d part (fqWord s.cur q.val))) s

end Sys2Proof.Machine
end

