-- ==== Sys2Proof/Machine/Control.lean ====
section
/-! DEFINITION. Meanings of branches, calls, exit and the strand-control instructions (R288 to R301), the padding
instructions (R255), and what an exiting thread leaves (R36, R389, R397). -/

namespace Sys2Proof.Machine

open Host (Outcome)

/-! ### Branches (R288 to R292) -/

/-- A displacement counted in 4-byte units from the instruction's own address, modulo 2^57 (R243). -/
def labelTarget (pc : VAddr) {w : Nat} (disp : BitVec w) : VAddr := pc + (disp.signExtend 57) * 4

/-- What the guard of BRA, CALL, RET, JMPI and the strand-control instructions says: false in every active lane, true in
every active lane, or neither, which traps DIVERGENT_BRANCH (R38, R295). -/
def uniformGuard (part mask : LaneMask) (no : Res) (yes : Res) : Res :=
  if part = 0 then no else if part = mask then yes else .trap (.plain causeDivergentBranch part)

/-- BRA (R289). -/
def execBra (h : Hdr2) (disp : BitVec 24) (s : State) : Outcome State Fault Refusal :=
  issue (.bra h disp) noGate (fun part s =>
    uniformGuard part s.strand.mask (.done s) (.goto s (labelTarget s.strand.pc disp))) s

/-- BRA.ANY: taken where the guard passes on some active lane (R39, R289). -/
def execBraAny (h : Hdr2) (disp : BitVec 24) (s : State) : Outcome State Fault Refusal :=
  issue (.braAny h disp) noGate (fun part s =>
    if part = 0 then .done s else .goto s (labelTarget s.strand.pc disp)) s

/-- BRA.ALL: taken where the guard passes on every active lane (R39, R289). -/
def execBraAll (h : Hdr2) (disp : BitVec 24) (s : State) : Outcome State Fault Refusal :=
  issue (.braAll h disp) noGate (fun part s =>
    if part = s.strand.mask then .goto s (labelTarget s.strand.pc disp) else .done s) s

/-- A register target, checked in the order of R290: one value in every active lane, a multiple of 4, in range (R291). -/
def regTarget (s : State) (r : Reg) (part : LaneMask) : Except Trap VAddr :=
  let t := match lowLane part with | some l => s.cur.rd64 r l | none => 0
  if (lanesOf part).any (fun l => s.cur.rd64 r l != t) then .error (.plain causeDivergentBranch part)
  else if t.extractLsb' 0 2 ≠ 0#2 then .error (.plain causeIllegalAlign part)
  else if t.extractLsb' 57 7 ≠ 0#7 then .error ⟨causeNotPresent, 3, t, part, false⟩
  else .ok (t.setWidth 57)

/-- The target of CALL (R288, R290). -/
def callTarget (s : State) (t : CallTarget) (part : LaneMask) : Except Trap VAddr :=
  match t with
  | .disp n => .ok (labelTarget s.strand.pc n)
  | .reg r => regTarget s r part

/-- CALL: the link is written after the target is read; a call not taken writes none (R289, R290). -/
def execCall (h : Hdr2) (link : Reg) (t : CallTarget) (s : State) : Outcome State Fault Refusal :=
  issue (.call h link t) noGate (fun part s =>
    uniformGuard part s.strand.mask (.done s)
      (match callTarget s t part with
       | .error e => .trap e
       | .ok pc =>
         .goto (s.modCur fun g => g.wr true link part fun _ => (s.pcAfter 12).setWidth 64) pc)) s

/-- A transfer to a register target (R289 to R291). -/
def regJump (s : State) (t : Reg) (part : LaneMask) : Res :=
  uniformGuard part s.strand.mask (.done s)
    (match regTarget s t part with
     | .error e => .trap e
     | .ok pc => .goto s pc)

/-- RET (R289). -/
def execRet (h : Hdr) (t : Reg) (s : State) : Outcome State Fault Refusal :=
  issue (.ret h t) noGate (fun part s => regJump s t part) s

/-- JMPI (R38, R289). -/
def execJmpi (h : Hdr) (t : Reg) (s : State) : Outcome State Fault Refusal :=
  issue (.jmpi h t) noGate (fun part s => regJump s t part) s

/-! ### FORK (R22, R23, R29, R298, R423) -/

/-- Entry `f` is usable by a strand: free, and free when the cycle began, or every arm of its fork has ended and the strand is in its tail
lineage (R23, R296). -/
def Gang.usable (g : Gang) (st : Strand) (f : Fin 8) : Bool :=
  let e := g.forkAt f.val
  if e.busy then e.tend && e.fend && st.inLine e.inst .tail else g.openForks.getLsbD f.val

/-- A strand made by FORK f: the executing strand's marks and records but those of f (R20, R29). -/
def childStrand (st : Strand) (f : Fin 8) (pc : VAddr) (mask : LaneMask) (rank : BitVec 4) (kind : StrandKind)
    (el : PathEl) (born : Nat) (start : DWord) : Strand :=
  let c := (st.clearColl f).clearMdone f.val
  { Strand.empty with
    valid := true, pc := pc, mask := mask, rank := rank, kind := kind, fork := f, mdone := c.mdone, coll := c.coll,
    cstack := c.cstack, path := el :: st.path, born := born, notBefore := start }

/-- The entry an uncollapsed FORK takes: an arm with no lanes has ended, its memory done, and its slot field 0 (R229,
R298). -/
def forkEntry (st : Strand) (t f : LaneMask) (ts fs ls : Nat) (inst : Nat) : Fork :=
  { busy := true, tmask := t, fmask := f, tslot := BitVec.ofNat 4 ts, fslot := BitVec.ofNat 4 fs, lslot := BitVec.ofNat 4 ls,
    tdone := t == 0, tend := t == 0, fdone := f == 0, fend := f == 0, tpub := 0, fpub := 0, pside := st.kind,
    pfork := if st.kind == .root then 0 else st.fork, inst := inst }

/-- A gang keeps a FORK that strand `k` executes, for as long as it governs (R25). -/
def Gang.keepFork (g : Gang) (k : Nat) (f : Fin 8) (collapsed : Bool) (t fl : LaneMask) : Gang :=
  { g with past := g.past ++ [⟨g.forkInst, f, collapsed, t, fl, (g.strandAt k).path⟩] }

/-- An uncollapsed FORK: the executing slot becomes the true arm, or the false arm where no lane takes the true one; the
other strands take the lowest free slots, false arm first; the arms take the ranks just below the tail's, and the strands
behind keep their order (R22, R423). `k` is the executing slot, `next` the address after the FORK, `start` the cycle in which the three
strands are ready (R171, R298). -/
def Gang.forkUp (g : Gang) (k : Nat) (f : Fin 8) (t fl : LaneMask) (next lfalse ltail : VAddr) (start : DWord) :
    Gang :=
  let st := g.strandAt k
  let need := if t != 0 && fl != 0 then 2 else 1
  let free := g.freeSlots
  let fs := if t = 0 then k else if fl = 0 then 0 else atD free 0 0
  let ls := if need = 2 then atD free 1 0 else atD free 0 0
  let el (side : StrandKind) : PathEl := ⟨g.forkInst, f, side, t, fl⟩
  let shifted := g.strands.map fun (o : Strand) =>
    if o.valid && decide (st.rank < o.rank) then { o with rank := o.rank + BitVec.ofNat 4 need } else o
  let exec (kind : StrandKind) (mask : LaneMask) (pc : VAddr) : Strand :=
    let c := (st.clearColl f).clearMdone f.val
    { c with pc := pc, mask := mask, kind := kind, fork := f, path := el kind :: st.path, state := .ready,
             wait := WaitFor.empty, waitOn := .none, notBefore := start }
  let first := if t = 0 then exec .falseArm fl lfalse else exec .trueArm t next
  let s1 := shifted.set k first
  let s2 := if t != 0 && fl != 0 then
      s1.set fs (childStrand st f lfalse fl (st.rank + 1) .falseArm (el .falseArm) g.issueSeq start) else s1
  let s3 := s2.set ls
    (childStrand st f ltail (t ||| fl) (st.rank + BitVec.ofNat 4 need) .tail (el .tail) g.issueSeq start)
  { (g.keepFork k f false t fl) with
    strands := s3, forkInst := g.forkInst + 1
    forks := g.forks.set f.val (forkEntry st t fl (if t = 0 then 0 else k) fs ls g.forkInst) }

/-- A collapsed FORK: the strand's record, and the phase that runs first (R29, R298). -/
def Gang.forkCollapsed (g : Gang) (k : Nat) (f : Fin 8) (t fl : LaneMask) (next lfalse ltail : VAddr) : Gang :=
  let g1 := g.modStrand k fun st =>
    let c := ((st.clearColl f).setColl f.val ⟨if t = 0 then 1 else 0, t, fl⟩).clearMdone f.val
    { c with
      cstack := ⟨f, g.forkInst, lfalse, ltail⟩ :: c.cstack
      mask := if t = 0 then fl else t
      pc := if t = 0 then lfalse else next }
  { (g1.keepFork k f true t fl) with forkInst := g.forkInst + 1 }

/-- FORK (R298). -/
def execFork (h : Hdr2) (f : Fin 8) (p : PSrc) (lfalse : BitVec 24) (ltail : Word) (s : State) :
    Outcome State Fault Refusal :=
  issue (.fork h f p lfalse ltail) noGate (fun part s =>
    let st := s.strand
    uniformGuard part st.mask (.done s)
      (let t := st.mask &&& s.cur.psrc p
       let fl := st.mask &&& ~~~ t
       let need := if t != 0 && fl != 0 then 2 else 1
       let next := s.pcAfter 16
       let lf := labelTarget st.pc lfalse
       let lt := labelTarget st.pc ltail
       if s.cur.usable st f && decide (need ≤ s.cur.freeSlots.length) then
         .stay (s.modCur fun g => (g.forkUp s.curStrand f t fl next lf lt (s.clock + 2)).prunePast)
       else .stay (s.modCur fun g => (g.forkCollapsed s.curStrand f t fl next lf lt).prunePast))) s

/-! ### ENDARM, PUB, MEMDONE (R299, R300) -/

/-- The uncollapsed fork `f`, if any, whose arm a strand lies in (R29). -/
def Strand.armOf (st : Strand) (f : Fin 8) : Option Gov := (st.lineOf f).bind fun e => if isArm e.side then some (Gov.line e) else none

/-- What ENDARM, PUB and MEMDONE act on: a collapsed fork in its true or false phase, or an arm of an uncollapsed fork; none traps
ILLEGAL_FORM. `pass` lets a record in its tail phase hand the decision on, as ENDARM does (R29, R299). Where the governing forks of the
strand's lanes do not lead to one target it traps too (DESIGN CHOICE: R299 speaks of one governing fork; assumption 96). -/
def Gang.armTarget (g : Gang) (st : Strand) (f : Fin 8) (pass : Bool) : Option Gov :=
  let of (l : Nat) : Option Gov := match g.gov st f l with
    | some (.coll c) => if c.phase < 2 then some (.coll c) else if pass then st.armOf f else none
    | some (.line e) => if isArm e.side then some (.line e) else none
    | none => none
  match lowLane st.mask with
  | none => none
  | some l => if (lanesOf st.mask).all fun k => of k == of l then of l else none

/-- The innermost collapsed FORK `f` of a strand. -/
def Strand.collEl (st : Strand) (f : Fin 8) : Option CollEl := st.cstack.find? (fun c => c.fork == f)

/-- The strand ends, or moves on in an outer collapsed fork whose phase has run out of lanes (R29, R294). -/
def Gang.endOrRefill (g : Gang) (k : Nat) : Gang :=
  match (g.strandAt k).refill [] with
  | some (st, _) => g.modStrand k fun _ => st
  | none => g.endStrand k

/-- The other strands of a gang that hold a collapsed fork's record: those that FORKs in its current phase have made (R20, R29). -/
def Gang.sharers (g : Gang) (k : Nat) (c : CollEl) : List (Strand × Nat) :=
  g.strands.zipIdx.filter fun p => p.2 != k && p.1.valid && p.1.cstack.any fun x => x.inst == c.inst

/-- The lowest-ranked of some strands. -/
def lowestRank (l : List (Strand × Nat)) : Option Nat :=
  (l.foldl (fun best p => match best with
    | some (r, j) => if p.1.rank.toNat < r then some (p.1.rank.toNat, p.2) else some (r, j)
    | none => some (p.1.rank.toNat, p.2)) (none : Option (Nat × Nat))).map (·.2)

/-- ENDARM: switches the phase of a collapsed fork, or ends the strand, in either case once the other strands of its arm have ended (R27,
R300; for the collapsed fork DEDUCED from R30, by which no tail instruction issues before the false arm has ended; assumption 97). -/
def execEndarm (h : Hdr) (f : Fin 8) (s : State) : Outcome State Fault Refusal :=
  issue (.endarm h f) noGate (fun part s =>
    let st := s.strand
    let await (side : StrandKind) (l : List (Strand × Nat)) : Res :=
      .wait (s.waitStrand .joinWait .join (joinObj f side) ((lowestRank l).map fun j => (s.cur.key, j)) .none)
    uniformGuard part st.mask (.done s)
      (match s.cur.armTarget st f true with
       | none => .trap (.form part)
       | some (.coll r) =>
         (match st.collEl f with
          | none => .stay (s.modCur fun g => g.endOrRefill s.curStrand)
          | some c =>
            let l := s.cur.sharers s.curStrand c
            if !l.isEmpty then await (if r.phase = 0 then .trueArm else .falseArm) l
            else
              (match st.advance c with
               | some st' => .stay (s.modCur fun g => (g.modStrand s.curStrand fun _ => st').settle)
               | none => .stay (s.modCur fun g => g.endOrRefill s.curStrand)))
       | some (.line e) =>
         let l := s.cur.strands.zipIdx.filter fun p => p.2 != s.curStrand && p.1.inLine e.inst e.side
         if !l.isEmpty then await e.side l else .stay (s.modCur fun g => g.endStrand s.curStrand))) s

/-- The bit of a published set (R229). -/
def PubWhat.bit : PubWhat → Nat
  | .v n => n.val
  | .p n => 192 + n.val

/-- Set a bit of an arm's published set (R26). -/
def Gang.publish (g : Gang) (e : PathEl) (bit : Nat) : Gang :=
  match g.entryOf e with
  | none => g
  | some _ =>
    g.modFork e.fork.val fun k =>
      if e.side == .trueArm then { k with tpub := k.tpub ||| (1#239 <<< bit) }
      else { k with fpub := k.fpub ||| (1#239 <<< bit) }

/-- PUB (R26, R300). -/
def execPub (h : Hdr) (f : Fin 8) (w : PubWhat) (s : State) : Outcome State Fault Refusal :=
  issue (.pub h f w) noGate (fun part s =>
    uniformGuard part s.strand.mask (.done s)
      (match s.cur.armTarget s.strand f false with
       | none => .trap (.form part)
       | some (.coll _) => .done s
       | some (.line e) => .done (s.modCur fun g => g.publish e (PubWhat.bit w)))) s

/-- MEMDONE (R32, R300). -/
def execMemdone (h : Hdr) (f : Fin 8) (s : State) : Outcome State Fault Refusal :=
  issue (.memdone h f) noGate (fun part s =>
    uniformGuard part s.strand.mask (.done s)
      (match s.cur.armTarget s.strand f false with
       | none => .trap (.form part)
       | some _ =>
         .done (s.modCur fun g =>
           (g.modStrand s.curStrand fun st => { st with mdone := st.mdone ||| (1#8 <<< f.val) }).settle))) s

/-! ### JOIN and JOINP (R28, R301) -/

/-- Where one lane of a join takes its source: from neither arm, from the true source or the false one, after which arm's
publication (none for a collapsed fork); none where the lane has no governing fork or the strand lies in an arm of it, collapsed or not
(R28, R30, R301). -/
def joinLane (g : Gang) (st : Strand) (f : Fin 8) (l : Nat) : Option (Option (Bool × Option PathEl)) :=
  match g.gov st f l with
  | none => none
  | some (.coll c) =>
    if c.phase < 2 then none
    else if c.t.getLsbD l then some (some (true, none)) else if c.f.getLsbD l then some (some (false, none)) else some none
  | some (.line e) =>
    if isArm e.side then none
    else if e.tmask.getLsbD l then some (some (true, some e))
    else if e.fmask.getLsbD l then some (some (false, some e))
    else some none

/-- What a join does over its lanes: trap, wait for an arm (its publication, or the return of a pending result), or the lanes that take
the true source and those that take the false one. -/
inductive JoinPlan where
  | trap
  | waitArm (inst : Option Nat) (side : StrandKind)
  | take (t f : LaneMask)

/-- The plan of a join (R28, R301): it issues when every lane can take its source. `bit` is the published bit of each
source, none for pt, which is always published; `pend` whether a source or the destination is pending in a lane. -/
def joinPlan (g : Gang) (st : Strand) (f : Fin 8) (part : LaneMask) (bit : Bool → Option Nat) (pend : Bool → Nat → Bool) : JoinPlan :=
  (lanesOf part).foldl (fun plan l =>
    match joinLane g st f l with
    | none => .trap
    | some none => plan
    | some (some (src, arm)) =>
      let side : StrandKind := if src then .trueArm else .falseArm
      let pub : Bool := match arm, bit src with
        | some e, some b => g.armPub e side b
        | _, _ => true
      match plan with
      | .take t f' =>
        if !pub || pend src l then .waitArm (arm.map (·.inst)) side
        else if src then .take (t ||| laneBit l) f' else .take t (f' ||| laneBit l)
      | p => p)
    (.take 0 0)

/-- JOIN (R28, R301). -/
def execJoin (h : Hdr) (f : Fin 8) (d a b : Fin 192) (s : State) : Outcome State Fault Refusal :=
  issue (.join h f d a b) noGate (fun part s =>
    let g := s.cur
    let pv (n l : Nat) : Bool := smGet g.pendV (n * 32 + l) != 0 || smGet g.pendX (n * 32 + l) != 0
    match joinPlan g s.strand f part (fun t => some (if t then a.val else b.val))
        (fun t l => pv (if t then a.val else b.val) l || pv d.val l) with
    | .trap => .trap (.form part)
    | .waitArm n side => .wait (s.waitArm .joinWait .join f n side)
    | .take tl fl =>
      .done (s.modCur fun g => g.wr32 (.v d) (tl ||| fl) fun l => if tl.getLsbD l then g.vr a.val l else g.vr b.val l)) s

/-- JOINP; pt counts as published, and a write to p47 is discarded (R28, R301). -/
def execJoinp (h : Hdr) (f : Fin 8) (pd : Fin 48) (pa pb : PSrc) (s : State) : Outcome State Fault Refusal :=
  issue (.joinp h f pd pa pb) noGate (fun part s =>
    let g := s.cur
    let src (t : Bool) : PSrc := if t then pa else pb
    let pp (n l : Nat) : Bool := smGet g.pendP (n * 32 + l) != 0
    match joinPlan g s.strand f part (fun t => if (src t).idx.val = 47 then none else some (192 + (src t).idx.val))
        (fun t l => pp (src t).idx.val l || pp pd.val l) with
    | .trap => .trap (.form part)
    | .waitArm n side => .wait (s.waitArm .joinWait .join f n side)
    | .take tl fl =>
      .done (s.modCur fun g => g.wrP pd.val (tl ||| fl) ((g.psrc pa &&& tl) ||| (g.psrc pb &&& fl)))) s

/-! ### EXIT (R36, R293, R294, R389, R397) -/

/-- Lanes leave a strand: its mask and both masks of every valid record (R36, R294). -/
def Strand.without (st : Strand) (lanes : LaneMask) : Strand :=
  let keep := ~~~ lanes
  let st1 := { st with mask := st.mask &&& keep }
  (List.range 8).foldl (fun st f =>
    match st.collOf f with
    | some c => st.setColl f { c with t := c.t &&& keep, f := c.f &&& keep }
    | none => st) st1

/-- Strands left with no lane move on to a later phase or end; the executing strand first, then by rank (R294). Of strands that share a collapse
record one alone moves on, the first in that order (DEDUCED, log entry 120: the manual speaks of one strand). -/
def Gang.emptied (g : Gang) (order : List Nat) (moved : List Nat) : Gang :=
  match order with
  | [] => g
  | k :: rest =>
    let st := g.strandAt k
    if st.valid && st.mask == 0 then
      match st.refill moved with
      | some (st', inst) => (g.modStrand k fun _ => st').emptied rest (inst :: moved)
      | none => (g.endStrand k).emptied rest moved
    else g.emptied rest moved

/-- The other strand slots in ascending rank. -/
def Gang.byRank (g : Gang) (k : Nat) : List Nat :=
  (List.range 16).flatMap fun r =>
    (g.strands.zipIdx.filter fun p => p.1.valid && p.2 != k && p.1.rank.toNat == r).map (·.2)

/-- The threads of lanes end: they leave every strand, the live set and the mask registers, and strands that this releases issue from cycle
`c` on (R36, R389, R392). -/
def Gang.exitLanes (g : Gang) (c : DWord) (k : Nat) (lanes : LaneMask) : Gang :=
  let g1 := { g with
    live := g.live &&& ~~~ lanes
    strands := g.strands.map fun (st : Strand) => if st.valid then st.without lanes else st
    m := (List.range 12).foldl (fun m j => smSet m j (smGet m j &&& ~~~ lanes)) g.m }
  let g2 := (List.range 12).foldl (fun g j => g.recheckMask c j) g1
  (g2.emptied (k :: g2.byRank k) []).settle

/-- An exiting thread that had not arrived at an open instance of KIND 2 is no longer expected there, and the instance
completes where the arrivals then suffice (R397). -/
def State.barsAfterExit (s : State) (k : TKey) (g : Gang) (lanes : LaneMask) : State :=
  (List.range 16).foldl (fun s n =>
    let b := s.barAt k n
    if b.kind == .hardAll then
      let gone := (lanesOf lanes).filter fun l => !b.arrived.getLsbD (g.gangId.toNat * 32 + l)
      (s.modBar k n fun b => { b with expect := b.expect - gone.length }).checkBar k n none
    else s) s

/-- EXIT (R36, R293): a strand that keeps lanes goes on at the next instruction; one left empty moves to a later phase of a
collapsed fork or ends. -/
def execExit (h : Hdr) (s : State) : Outcome State Fault Refusal :=
  issue (.exit h) exitGate (fun part s =>
    if part = 0 then .done s
    else
      let s1 := (s.modCur fun g => g.exitLanes (s.clock + 2) s.curStrand part).barsAfterExit s.cur.team s.cur part
      if part = s.strand.mask then .stay s1 else .done s1) s

/-- NOP (R255). -/
def execNop (h : Hdr) (s : State) : Outcome State Fault Refusal := issue (.nop h) noGate (fun _ s => .done s) s

/-- NOP.W (R255). -/
def execNopW (h : Hdr2) (s : State) : Outcome State Fault Refusal := issue (.nopW h) noGate (fun _ s => .done s) s

end Sys2Proof.Machine
end

