-- ==== Sys2Proof/Machine/Copy.lean ====
section
/-! DEFINITION. Copy engines (R181, R182, R380 to R387): command registers and commands, promises, the engines at work, PROM and
SLEEP. -/

namespace Sys2Proof.Machine

open Host (Outcome)

/-! ### Command registers and CGO (R380 to R383) -/

/-- The value a command-page store writes. -/
def SQEntry.cmdValue (e : SQEntry) : Nat := match e.accs with | a :: _ => leNat a.bytes | [] => 0

/-- The offset in the command page of a command-page store. -/
def SQEntry.cmdOffset (e : SQEntry) : Nat := match e.accs with | a :: _ => a.va.toNat % 4096 | [] => 0

/-- A command-page entry of a core's store queues that may retire (R103). -/
def State.cmdEntry (s : State) (core id : Nat) : Option SQEntry :=
  (s.coreAt core).sq.find? fun e => e.id == id && e.kind == .command && s.mayRetire e

/-- An entry leaves its store queue. -/
def State.dequeue (s : State) (core id : Nat) : State := s.modCore core fun c => { c with sq := c.sq.filter (fun e => e.id != id) }

/-- CQ_WRITE: the register is written when the entry retires, with its written bit (R382). -/
def execCqWrite (core id : Nat) (s : State) : Outcome State Fault Refusal :=
  match s.cmdEntry core id with
  | none => .next s
  | some e =>
    if e.isCommand then .next s
    else
      let k := e.cmdOffset / 8
      let s1 := s.modGang e.who.g fun g =>
        { g with cq := smSet g.cq k (BitVec.ofNat 64 e.cmdValue), cqWritten := g.cqWritten ||| (1#4 <<< k) }
      .next (((s1.dequeue core id).entryDone core id).endAccess e.who)

/-- Elements of a copy command, and the bytes of one (R381). -/
def CeCmd.esz (c : CeCmd) : Nat := 2 ^ c.esize
def CeCmd.elems (c : CeCmd) : Nat := if c.op = 3 then c.count / c.esz else c.count

/-- The command the registers of a gang hold (R381). -/
def cqCommand (who : Who) (entry : Nat) (cq : SMap 64) : CeCmd :=
  let q3 := (smGet cq 3).toNat
  { who := who, entry := entry, src := (smGet cq 0).toNat, dst := (smGet cq 1).toNat, idx := (smGet cq 2).toNat, op := q3 / 2 ^ 60,
    tag := q3 / 2 ^ 56 % 16, esize := q3 / 2 ^ 53 % 8, count := q3 % 2 ^ 40, promise := 0, accepted := false, missed := false,
    faulted := false, pieces := [], words := [], read := 0, buf := [], sorted := false }

/-- Why a CGO store is refused (R383). -/
def cgoRefused (g : Gang) (cgo : Nat) : Bool :=
  let c := cqCommand Who.empty 0 g.cq
  let idxOp := c.op == 1 || c.op == 2
  g.cqWritten != 15#4 || decide (3 ≤ cgo) ||
  decide (2 ^ 57 ≤ c.src ∨ 2 ^ 57 ≤ c.dst ∨ 2 ^ 57 ≤ c.idx) || (smGet g.cq 3).toNat / 2 ^ 40 % 2 ^ 13 != 0 ||
  decide (3 < c.op) || (if c.op = 3 then c.tag == 0 || c.tag == 15 else c.tag != 0) ||
  (if c.op = 0 then c.esize != 0 else if c.op = 3 then c.esize != (if c.tag = 2 then 3 else 2) else decide (4 < c.esize)) ||
  (if idxOp then decide (4096 < c.count) || c.idx % 4 != 0 else c.count % c.esz != 0 || c.idx != 0) ||
  c.src % c.esz != 0 || c.dst % c.esz != 0

/-- Commands a copy engine's queue holds (R181). -/
def ceRoom : Nat := 16

/-- Commands queued at an engine of a core. -/
def Core.ceLength (c : Core) (eng : Nat) : Nat := ((c.ces[eng]?).map fun e => e.queue.length).getD 0

/-- The engine a CGO names (R381). -/
def cgoEngine (c : Core) (cgo : Nat) : Nat := if cgo = 2 then (if c.ceLength 1 < c.ceLength 0 then 1 else 0) else cgo

/-- A CGO store that may retire: every command-page store the gang issued before it has completed (R382). -/
def State.cgoEntry (s : State) (core id : Nat) : Option SQEntry :=
  (s.cmdEntry core id).filter fun e =>
    e.isCommand && !((s.coreAt core).sq ++ (s.coreAt core).gone).any fun x => x.kind == .command && x.who.g == e.who.g && decide (x.who.seq < e.who.seq)

/-- A CGO store gives its command of operation `op`, once its engine's queue has room: the registers are taken and their written
bits cleared (R382, R384). -/
def cgoGive (op core id : Nat) (s : State) : Outcome State Fault Refusal :=
  match s.cgoEntry core id with
  | none => .next s
  | some e =>
    let g := s.gangAt e.who.g
    let eng := cgoEngine (s.coreAt core) e.cmdValue
    let c := cqCommand e.who id g.cq
    if cgoRefused g e.cmdValue || c.op != op || decide (ceRoom ≤ (s.coreAt core).ceLength eng) then .next s
    else
      .next ((s.modGang e.who.g fun g => { g with cqWritten := 0 }).modCore core fun k =>
        { k with
          sq := k.sq.filter (fun x => x.id != id), gone := k.gone ++ [e]
          ces := modAt k.ces eng fun q => { q with queue := q.queue ++ [c] } })

/-- CE_COPY (R384). -/
def execCeCopy (core id : Nat) (s : State) : Outcome State Fault Refusal := cgoGive 0 core id s

/-- CE_GATHER (R384). -/
def execCeGather (core id : Nat) (s : State) : Outcome State Fault Refusal := cgoGive 1 core id s

/-- CE_SCATTER (R384). -/
def execCeScatter (core id : Nat) (s : State) : Outcome State Fault Refusal := cgoGive 2 core id s

/-- CE_REDUCE_COPY (R384). -/
def execCeReduceCopy (core id : Nat) (s : State) : Outcome State Fault Refusal := cgoGive 3 core id s

/-! ### Acceptance and promises (R145, R181, R384) -/

/-- Change a copy engine of a core. -/
def State.modCe (s : State) (core eng : Nat) (f : CopyEng → CopyEng) : State :=
  s.modCore core fun c => { c with ces := modAt c.ces eng f }

/-- Change a command of a copy engine. -/
def State.modCeCmd (s : State) (core eng : Nat) (c : CeCmd) (f : CeCmd → CeCmd) : State :=
  s.modCe core eng fun q => { q with queue := modWhere (fun x => x.entry == c.entry) f q.queue }

/-- How far an address's home and stack lie from a die: 0 on it, 1 on another die, 2 on another device (R178, R181). -/
def State.distance (s : State) (die : Nat) (pa : Nat) (attr : Attr) : Nat :=
  if isRemote pa && devOf pa != s.devNum then 2
  else if homeOf attr pa / 64 = die ∧ stackOf (pa % 2 ^ 42) / 2 = die then 0 else 1

/-- The farthest party of a range of virtual addresses, unit by unit of 256 bytes; parts that do not translate count for
nothing. -/
def State.farthest (s : State) (core ctx a n : Nat) : Nat :=
  (List.range (if n = 0 then 0 else (a + n - 1) / 256 - a / 256 + 1)).foldl (fun best k =>
    match (s.translate core ctx (BitVec.ofNat 64 ((a / 256 + k) * 256)) .read).1 with
    | .ok pa attr => Nat.max best (s.distance (core / 64) pa attr)
    | _ => best) 0

/-- The ranges a command reads and writes from its registers alone; what indices reach is taken as the base's unit. -/
def CeCmd.parties (c : CeCmd) : List (Nat × Nat) :=
  let n := c.elems * c.esz
  match c.op with
  | 1 => [(c.idx, 4 * c.count), (c.src, 1), (c.dst, n)]
  | 2 => [(c.idx, 4 * c.count), (c.src, n), (c.dst, 1)]
  | _ => [(c.src, n), (c.dst, n)]

/-- The promised cycle of a command accepted now (R181, R451). -/
def State.promiseOf (s : State) (core : Nat) (prev : DWord) (c : CeCmd) : DWord :=
  let bytes := if c.op = 1 ∨ c.op = 2 then c.count * Nat.max c.esz 32 else c.count
  let far := (c.parties.map fun r => s.farthest core c.who.ctx r.1 r.2).foldl Nat.max 0
  let l := s.scaled (if far = 0 then 600 else if far = 1 then 800 else 2400)
  BitVec.ofNat 64 (Nat.max s.clock.toNat prev.toNat + (bytes + 63) / 64 + l)

/-- The destination ranges a command registers at acceptance; a scatter's are known once its indices are read (R145). -/
def CeCmd.dest (c : CeCmd) : List (Nat × Nat) := if c.op = 2 then [] else [(c.dst, c.elems * c.esz)]

/-- Registration of a copy command's destinations, as far as it comes; a reduce-copy claims nothing on a page it forwards to
(R145, R384). -/
def State.claimCe (s : State) (core eng : Nat) (c : CeCmd) : State :=
  let skip (s : State) (pa : Nat) : Bool := c.op == 3 && s.forwards pa
  let (s1, k) := s.claimFrames c.who (eng + 1) (some c.entry) true skip c.pieces.length ⟨c.pieces, [], false⟩
  let s2 := s1.modCeCmd core eng c fun x =>
    { x with pieces := k.left, words := (x.words ++ k.words).dedup, faulted := k.failed, stopVa := k.at' }
  s2.entryDone core c.entry

/-- The command an acceptance acts on: one whose frames are not all registered, else the first not accepted. -/
def CopyEng.toAccept (q : CopyEng) : Option CeCmd :=
  match q.queue.find? fun c => c.accepted && !c.faulted && !c.pieces.isEmpty with
  | some c => some c
  | none => q.queue.find? fun c => !c.accepted

/-- CE_ACCEPT: the promise is written and the destination frames are registered; a command of no elements completes
(R181, R384). -/
def execCeAccept (core eng : Nat) (s : State) : Outcome State Fault Refusal :=
  match ((s.coreAt core).ces[eng]?).bind fun q => q.toAccept.map fun c => (q, c) with
  | none => .next s
  | some (q, c) =>
    if c.accepted then .next (s.claimCe core eng c)
    else
      let p := s.promiseOf core q.promise c
      let s1 := (s.modGang c.who.g fun g => if g.team == c.who.team then { g with promise := p } else g).modCe core eng fun q => { q with promise := p }
      if c.elems = 0 then
        .next ((s1.modCe core eng fun q => { q with queue := q.queue.filter fun x => x.entry != c.entry }).entryDone core c.entry)
      else
        let c1 := { c with accepted := true, promise := p, pieces := cutFrames c.dest }
        .next ((s1.modCeCmd core eng c fun _ => c1).claimCe core eng c1)

/-! ### The engine at work (R147, R384, R385) -/

/-- Bytes at the homes of a virtual range of one element or less. -/
def State.ceRead (s : State) (eng : Nat) (who : Who) (a n : Nat) : State × EngRd :=
  s.pieces who.g.core who.ctx (fun s va pa n attr => s.engGet who.g.core (eng + 1) who va pa n attr) (cutSectors (a % 2 ^ 64) n) []

/-- Whether a command still has something to read. -/
def CeCmd.mayRead (c : CeCmd) : Bool :=
  if c.op = 2 then decide (c.read < c.count)
  else decide (c.read < c.elems) && c.buf.isEmpty

/-- The next read of a command, one byte of a copy or one element of another: what it adds to the data in hand, and how far it comes (R384). -/
def State.ceNext (s : State) (eng : Nat) (c : CeCmd) : State × Except EngRd (Nat × Nat × List Byte) :=
  let data (s : State) (a dst : Nat) : State × Except EngRd (Nat × Nat × List Byte) :=
    match s.ceRead eng c.who a c.esz with
    | (s1, .ok bs) => (s1, .ok (c.read + 1, dst, bs))
    | (s1, e) => (s1, .error e)
  let index (go : State → Nat → State × Except EngRd (Nat × Nat × List Byte)) : State × Except EngRd (Nat × Nat × List Byte) :=
    match s.ceRead eng c.who (c.idx + 4 * c.read) 4 with
    | (s1, .ok ib) => go s1 (leNat ib * c.esz)
    | (s1, e) => (s1, .error e)
  match c.op with
  | 1 => index fun s off => data s (c.src + off) (c.dst + c.read * c.esz)
  | 2 => index fun s off => data s (c.src + c.read * c.esz) (c.dst + off)
  | _ => data s (c.src + c.read * c.esz) (c.dst + c.read * c.esz)

/-- A scatter's writes in ascending address order, for equal addresses the highest element's alone (R384). -/
def scatterOrder (buf : List (Nat × List Byte)) : List (Nat × List Byte) :=
  let last := buf.zipIdx.filter fun (w, i) => !(buf.drop (i + 1)).any fun x => x.1 == w.1
  (last.map (·.1)).insertionSort fun a b => a.1 ≤ b.1

/-- The head of an engine's queue while it can run. -/
def State.ceHead (s : State) (core eng : Nat) : Option CeCmd :=
  (((s.coreAt core).ces[eng]?).bind fun q => q.queue.head?).filter fun c => c.accepted && !c.faulted

/-- Whether a later write of the command touches the word at a virtual address. -/
def CeCmd.again (c : CeCmd) (va : Nat) : Bool :=
  let ws := va / 4
  if c.op = 2 then (c.buf.drop 1).any fun w => decide (w.1 / 4 ≤ ws ∧ ws ≤ (w.1 + w.2.length - 1) / 4)
  else
    let next := c.dst + c.read * c.esz
    decide (next < c.dst + c.elems * c.esz) && next / 4 == ws

/-- The home takes one element of a command: its bytes, or for a reduce-copy the combination with what it holds (R384). -/
def State.cePut (s : State) (c : CeCmd) (pa : Nat) (bs : List Byte) : State :=
  if c.op = 3 then
    let old := BitVec.ofNat 64 (leNat (smBytes s.mem pa c.esz))
    s.engPut pa (leBytes (aluNew (.redu (Fin.ofNat 16 c.tag)) old (BitVec.ofNat 64 (leNat bs)) 0).toNat c.esz)
  else s.engPut pa bs

/-- A write of a copy engine at its point: the home takes the element, its words with no later write are the engine's own no more (R145, R384). -/
def State.ceWrite (s : State) (eng : Nat) (r : OrnReq) : State :=
  match ((s.coreAt r.core).ces[eng]?).bind fun q => q.queue.find? fun c => c.who.g == r.who.g && c.who.seq == r.who.seq, r.accs with
  | some c, a :: _ =>
    let done := a.words.filter fun w => !c.again (a.va.toNat + w * 4 - a.pa)
    let s1 := (s.asOne fun s => s.cePut c a.pa a.bytes).modCeCmd r.core eng c fun x =>
      { x with buf := x.buf.tail, writing := false, words := eraseEach done x.words }
    s1.clearClaims r.core (eng + 1) done
  | _, _ => s

/-- ENGINE_READ: a copy engine's requests are served at their homes, and it reads its next element; after a scatter's last its destinations are
registered (R145, R147, R384, R385). -/
def execEngineRead (core eng : Nat) (s0 : State) : Outcome State Fault Refusal :=
  let s := s0.engServe core (eng + 1) fun r s => s.ceWrite eng r
  match s.ceHead core eng with
  | none => .next s
  | some c =>
    if !c.mayRead || !(c.op == 2 || s.registered c.pieces (some c.entry)) then .next s
    else
      match s.ceNext eng c with
      | (s1, .error e) =>
        if e = .stall ∨ e = .held then .next s1
        else
          let (s2, failed) := s1.engStop c.who false e
          .next ((s2.engDrop core (eng + 1) c.who).modCeCmd core eng c fun x => { x with faulted := failed, stopVa := e.va })
      | (s1, .ok (read, dst, bs)) =>
        let s2 := s1.engDrop core (eng + 1) c.who
        let c1 := { c with read := read, buf := c.buf ++ [(dst, bs)] }
        if c.op = 2 ∧ read = c.count then
          let buf := scatterOrder c1.buf
          let c2 := { c1 with buf := buf, sorted := true, pieces := cutFrames (buf.map fun w => (w.1 % 2 ^ 64, w.2.length)) }
          .next ((s2.modCeCmd core eng c fun _ => c2).claimCe core eng c2)
        else .next (s2.modCeCmd core eng c fun _ => c1)

/-- A command has a write to make: its data is in hand and its destinations are registered (R145). -/
def State.ceMayWrite (s : State) (c : CeCmd) : Bool := (c.op != 2 || c.sorted) && s.registered c.pieces (some c.entry)

/-- A combination forwarded to the device that homes the page (R90, R152, R384). -/
def State.ceForward (s : State) (core : Nat) (c : CeCmd) (a pa : Nat) (pin : Option Nat) (bs : List Byte) : State :=
  let (id, s1) := s.fresh
  { s1.send (devOf pa) (.forwarded id pa pin (.redu (Fin.ofNat 16 c.tag)) (BitVec.ofNat 64 (leNat bs)) 0 .none) with
    fwd := s1.fwd ++ [{ id := id, dev := devOf pa, core := core, who := c.who, op := .redu (Fin.ofNat 16 c.tag),
                        acc := { mkAcc 0 0 c.esz (BitVec.ofNat 64 a) with ok := true, pa := pa, x := BitVec.ofNat 64 (leNat bs) },
                        ty := none, dst := none, entry := none }] }

/-- ENGINE_WRITE: a copy engine's requests are served at their homes, and the write of the element it has read is placed on the ORN; a combination
with a page of another device is forwarded (R141, R145, R384, R385). -/
def execEngineWrite (core eng : Nat) (s0 : State) : Outcome State Fault Refusal :=
  let s := s0.engServe core (eng + 1) fun r s => s.ceWrite eng r
  match s.ceHead core eng with
  | none => .next s
  | some c =>
    match c.buf with
    | [] => .next s
    | (a, bs) :: rest =>
      if !s.ceMayWrite c || c.writing then .next s
      else
        match s.translate core c.who.ctx (BitVec.ofNat 64 (a % 2 ^ 64)) .write with
        | (t, s1) =>
          match noDevice t with
          | .held => .next s1
          | .fault _ =>
            .next ((s1.engineFault c.who (BitVec.ofNat 64 a) true).modCeCmd core eng c fun x => { x with faulted := true, stopVa := a % 2 ^ 64 })
          | .ok pa attr =>
            if c.op = 3 ∧ s1.forwards pa then
              .next ((s1.ceForward core c a pa attr.pin bs).modCeCmd core eng c fun x => { x with buf := rest })
            else
              let acc : LaneAcc := { mkAcc 0 0 bs.length (BitVec.ofNat 64 (a % 2 ^ 64)) with ok := true, pa := pa, attr := attr, bytes := bs }
              .next ((s1.engPlace (eng + 1) c.who (.engWrite (eng + 1)) [acc]).modCeCmd core eng c fun x => { x with writing := true })

/-- A command has written its last word. -/
def State.ceDone (s : State) (c : CeCmd) : Bool :=
  c.accepted && c.read == c.elems && c.buf.isEmpty && s.registered c.pieces (some c.entry)

/-- CE_COMMAND_COMPLETE (R384). -/
def execCeCommandComplete (core eng : Nat) (s : State) : Outcome State Fault Refusal :=
  match s.ceHead core eng with
  | none => .next s
  | some c => .next (if s.ceDone c then s.modCe core eng fun q => { q with queue := q.queue.drop 1 } else s)

/-- PROMISE_MISS: a command has not written its last word by its promised cycle (R182). -/
def execPromiseMiss (core eng : Nat) (s : State) : Outcome State Fault Refusal :=
  let late (c : CeCmd) : Bool := c.accepted && !c.missed && decide (c.promise ≤ s.clock) && !s.ceDone c
  match ((s.coreAt core).ces[eng]?).bind fun q => q.queue.find? late with
  | none => .next s
  | some c =>
    let s1 := s.postFault (whoRecord c.who.field c.who causePromiseMiss 4 c.promise c.who.mask) c.who.g c.who.strand c.who.team false
    .next (s1.modCeCmd core eng c fun x => { x with missed := true })

/-! ### PROM and SLEEP (R386, R387) -/

/-- PROM: pending until every CGO store the gang issued before it has been accepted or refused (R386). -/
def execProm (h : Hdr) (d : Reg) (s : State) : Outcome State Fault Refusal :=
  issue (.prom h d) noGate (onceFor fun _ part s =>
    let seq := s.cur.issueSeq
    .done (s.modCur fun g =>
      { g.markPend d 2 s.strand.mask part (pendMark seq s.curStrand) with
        proms := g.proms ++ [{ d := d, lanes := part, strand := s.curStrand, seq := seq }] })) s

/-- A 64-bit result in every lane of a mask (R352). -/
def pairWrites (d : Reg) (part : LaneMask) (x : DWord) : List RegWrite :=
  (lanesOf part).flatMap fun l => elemWrites d .n64 (lowLane part) l 0 x.toNat

/-- A CGO store of a gang before a place in its issue order is still to be accepted or refused (R386). -/
def State.cgoOpen (s : State) (g : Gang) (seq : Nat) : Bool :=
  let c := s.coreAt g.key.core
  c.sq.any (fun e => e.who.g == g.key && e.isCommand && e.kind == .command && !e.held && decide (e.who.seq < seq)) ||
    c.ces.any fun q => q.queue.any fun x => x.who.g == g.key && !x.accepted && decide (x.who.seq < seq)

/-- Every PROM of a gang that is over receives PROMISE (R386). -/
def State.endProms (s : State) : State :=
  s.modGangs (fun g => !g.proms.isEmpty) fun g =>
    let done := g.proms.filter fun w => !s.cgoOpen g w.seq
    let g1 := done.foldl (fun g w => g.land (pairWrites w.d w.lanes g.promise) (pendMark w.seq w.strand)) g
    { g1 with proms := g1.proms.filter fun w => s.cgoOpen g w.seq }.unpark

/-- A copy command of a gang with a promise at or before a cycle has not completed (R387). -/
def State.promiseOpen (s : State) (g : GKey) (w : DWord) : Bool :=
  (s.coreAt g.core).ces.any fun q => q.queue.any fun c =>
    c.who.g == g && c.who.team == (s.gangAt g).team && c.accepted && decide (c.promise ≤ w)

/-- SLEEP: the strand sleeps until its wake cycle (R387). -/
def execSleep (h : Hdr) (till : Bool) (a : Reg) (s : State) : Outcome State Fault Refusal :=
  issue (.sleep h till a) noGate (fun part s =>
    uniformGuard part s.strand.mask (.done s)
      (match lowLane part with
      | none => .done s
      | some l =>
        let w := if till then s.cur.rd64 a l else s.clock + (s.cur.rd32 a l).setWidth 64
        .done (s.waitStrand .sleeping .promise w none (.wake w)))) s

/-- A sleeping strand's cycle has come: it wakes, or, while a promise of its gang at or before that cycle is not kept, is fault
parked with no record until the command completes (R387). -/
def State.wakeSleeper (s : State) (g : GKey) (k : Nat) : State :=
  match ((s.gangAt g).strandAt k).state, ((s.gangAt g).strandAt k).waitOn with
  | .sleeping, .wake w =>
    if s.clock < w then s
    else if s.promiseOpen g w then s.modGang g fun x => x.modStrand k fun st => { st with state := .faultParked, waitOn := .promise w }
    else s.modGang g fun x => x.wake (s.clock + 2) k
  | _, _ => s

/-- SLEEP_WAKE (R387). -/
def execSleepWake (g : GKey) (strand : Nat) (s : State) : Outcome State Fault Refusal := .next (s.wakeSleeper g strand)

/-- Strands fault parked on a promise go on once it is kept (R182, R387). -/
def State.endPromises (s : State) : State :=
  s.modGangs (fun _ => true) fun g =>
    (List.range 16).foldl (fun g k =>
      match (g.strandAt k).state, (g.strandAt k).waitOn with
      | .faultParked, .promise w => if s.promiseOpen g.key w then g else g.wake (s.clock + 2) k
      | _, _ => g) g

/-! ### What ends at once (R364, R367, R386, R387) -/

/-- Blocks that have arrived, waits for matrix commands, PROMs and promises that are over. -/
def State.settleEngines (s : State) : State :=
  (((s.finishMmas).modGangs (fun _ => true) Gang.endMmawaits).endProms).endPromises

end Sys2Proof.Machine
end

