-- ==== Sys2Proof/Machine/Retire.lean ====
section
/-! DEFINITION. STORE_QUEUE_RETIRE (R103, R104, R108, R111, R115, R130, R347, R383): what each kind of entry does when it leaves
its store queue. -/

namespace Sys2Proof.Machine

open Host (Outcome)

/-- An entry has left its store queue and is not complete. -/
def State.leaveQueue (s : State) (core : Nat) (e : SQEntry) : State :=
  s.modCore core fun c => { c with sq := c.sq.filter (fun x => x.id != e.id), gone := c.gone ++ [e] }

/-- An entry with nothing left to do is complete. -/
def State.entryOver (s : State) (core : Nat) (e : SQEntry) : State := (s.entryDone core e.id).endAccess e.who

/-- The requests of an entry, one for each frame it touches, ascending (R104, R108, R111, R133, R333). -/
def State.placeEntry (s : State) (core : Nat) (e : SQEntry) (kind : OrnKind) (accs : List LaneAcc) : State :=
  byFrame accs (fun s l => s.placeAll ((sectorsOf l).map fun sec =>
    { s.request core agentL1 e.who kind sec (inSector l sec) with
      entry := some e.id, order := e.order, ty := e.ty, dst := e.dst, pri := e.pri })) s

/-- An operation of the home slice ALU leaves the queue: at the home here, or forwarded (R111, R152). -/
def State.retireOp (s : State) (core : Nat) (e : SQEntry) (kind : OrnKind) (op : HomeOp) : State :=
  let far := e.accs.filter fun a => s.forwards a.pa
  let near := e.accs.filter fun a => !s.forwards a.pa
  (s.placeEntry core e kind near).forwardAll core e.who op e.order e.ty e.dst (some e.id) far

/-- A store leaves the queue once this device owns its pages: its words enter the view, owned dirty, and its registrations are placed; where the
view has no room for them it stays (R104, R127, R128, R150). -/
def State.retireStore (s : State) (core : Nat) (e : SQEntry) : State :=
  match e.accs.filter fun a => !s.ownsPage a.pa with
  | [] =>
    let s1 := s.storeView core e
    let old := (viewWords e.accs).map fun w => (w, (s.coreAt core).view w)
    if s1.storeHeld core e then (s1.leaveQueue core { e with old := old }).placeEntry core e .register e.accs else s
  | far => far.foldl (fun s a => s.wantPage a.pa) s

/-- A range cut at pages of 4 KiB. -/
def cutPages (a n : Nat) : List (Nat × Nat) :=
  if n = 0 then []
  else (List.range ((a + n - 1) / 4096 - a / 4096 + 1)).map fun k =>
    let lo := Nat.max a ((a / 4096 + k) * 4096)
    (lo, Nat.min (a + n) ((a / 4096 + k + 1) * 4096) - lo)

/-- The pages of a range operation, translated each by itself (R347): physical ranges, and whether a shootdown holds one. -/
def State.rangePages (s : State) (core ctx : Nat) : List (Nat × Nat) → List (Nat × Nat) → State × List (Nat × Nat) × Bool
  | [], acc => (s, acc, false)
  | (a, n) :: rest, acc =>
    match s.translate core ctx (BitVec.ofNat 64 (a % 2 ^ 64)) .read with
    | (.held, s1) => (s1, acc, true)
    | (.ok pa _, s1) => s1.rangePages core ctx rest (acc ++ [(pa, n)])
    | (.fault _, s1) => s1.rangePages core ctx rest acc

/-- Whether a block overlaps one of some physical ranges. -/
def Block.meets (b : Block) (rs : List (Nat × Nat)) : Bool :=
  rs.any fun r => overlaps r.1 r.2 (4 * (b.frame * 128 + b.start)) (4 * b.words.length)

/-- FLUSH or INVAL over physical ranges (R130, R347): update-only sectors merge, owned dirty words of the blocks go home, and
with INVAL ownership ends and the blocks are removed. -/
def State.rangeAct (s : State) (core : Nat) (inval : Bool) (rs : List (Nat × Nat)) : State :=
  let us := (s.coreAt core).ub.filter fun u => rs.any fun r => overlaps r.1 r.2 (u.sector * 32) 32
  let s1 := us.foldl (fun s u => s.mergeNow u.sector) s
  let bs := (s1.coreAt core).blocks.filter (·.meets rs)
  let ws := bs.flatMap fun b => (List.range b.words.length).map (b.frame * 128 + b.start + ·)
  if inval then
    let s2 := ws.foldl (fun s w => s.writeBack core w .valid) s1
    s2.modCore core fun c => { c with blocks := c.blocks.filter fun b => !b.meets rs }
  else
    ws.foldl (fun s w =>
      match (s.coreAt core).view w with
      | some v => if v.st == .dirty then s.writeBack core w .clean else s
      | none => s) s1

/-- FLUSH and INVAL retire (R347). -/
def State.retireRange (s : State) (core : Nat) (e : SQEntry) (inval : Bool) : State :=
  match s.rangePages core e.who.ctx (e.accs.flatMap fun a => cutPages a.va.toNat a.size) [] with
  | (s1, _, true) => s1
  | (s1, rs, false) =>
    let ws := ((s1.coreAt core).blocks.filter (·.meets rs)).flatMap fun b => (List.range b.words.length).map (b.frame * 128 + b.start + ·)
    if ws.any (s1.stuck core) then s1 else ((s1.leaveQueue core e).rangeAct core inval rs).entryOver core e

/-- A remote STS arrives at its target's banks; where its target team is gone it is dropped (R116, R338). -/
def State.retireRemote (s : State) (core : Nat) (e : SQEntry) (target : Option Nat) : State :=
  let s1 := s.leaveQueue core e
  match target.bind fun k => (s1.targetTeam (s1.gangAt e.who.g).team k).map fun t => (k, t) with
  | some (k, t) =>
    s1.arriveSp k
      { src := 4, id := 0, who := e.who, team := t.key, op := .store, order := .none, accs := e.accs, ty := none, dst := none,
        entry := some e.id }
  | none => s1.entryOver core e

/-- A CGO store that R383 refuses is a store fault when it would retire, which one that names an engine does once that engine's queue has room
(R382, R383). -/
def State.refuseCgo (s : State) (core id : Nat) : State :=
  match s.cgoEntry core id with
  | some e =>
    let room := decide (3 ≤ e.cmdValue) || decide ((s.coreAt core).ceLength (cgoEngine (s.coreAt core) e.cmdValue) < ceRoom)
    if room && cgoRefused (s.gangAt e.who.g) e.cmdValue then
      s.storeFault e causeNotPresent (match e.accs with | a :: _ => a.va | [] => 0) e.who.mask
    else s
  | none => s

/-- What an entry does as it leaves its queue. -/
def State.retireEntry (s : State) (core : Nat) (e : SQEntry) : State :=
  let out := s.leaveQueue core e
  match e.kind with
  | .store => s.retireStore core e
  | .release => out.placeEntry core e .release e.accs
  | .atomic op => out.retireOp core e (.atomic op) op
  | .red op => out.retireOp core e (.red op) op
  | .redu tag =>
    let far := e.accs.filter fun a => s.forwards a.pa
    let near := e.accs.filter fun a => !s.forwards a.pa
    let kept := out.modCore core fun c => { c with gone := modWhere (fun x => x.id == e.id) (fun x => { x with accs := near, far := far }) c.gone }
    kept.forwardAll core e.who (.redu tag) .none none none (some e.id) far
  | .flush => s.retireRange core e false
  | .inval => s.retireRange core e true
  | .matrix =>
    (out.modGang e.who.g fun g =>
      { g with mq := modWhere (fun c => c.entry == some e.id) (fun c =>
          { c with retired := true, readyAt := (s.clock.toNat * 4 + e.who.g.part) * 2 ^ 64 + e.id }) g.mq }).entryOver core e
  | .slice => (out.modGang e.who.g fun g => { g with slice := g.slice.start e.who }).entryOver core e
  | .remoteSts t => s.retireRemote core e t
  | .launch => if s.anyStuck core then s else s.blame (out.drainCore core) e.who 1
  | .command => s

/-- STORE_QUEUE_RETIRE (R103): an entry leaves its store queue once it may. The command-page stores retire by CQ_WRITE and by
the CE commands; a refused CGO store faults here (R382, R383). -/
def execStoreQueueRetire (core id : Nat) (s : State) : Outcome State Fault Refusal :=
  match (s.coreAt core).sq.find? fun e => e.id == id with
  | none => .next s
  | some e =>
    if e.kind = .command then .next (s.refuseCgo core id)
    else .next (if s.mayRetire e then s.retireEntry core e else s)

end Sys2Proof.Machine
end

