-- ==== Sys2Proof/Machine/Launch.lean ====
section
/-! DEFINITION. Grids (R14 to R18, R154 to R160, R404 to R406): LAUNCH and its descriptor, child grids, placement of teams on
cores, their exit, and the completion of grids. -/

namespace Sys2Proof.Machine

open Host (Outcome)

/-! ### Launch descriptors (R404) -/

/-- A field of a launch descriptor. -/
def descF (blk : List Byte) (off n : Nat) : Nat := leNat ((blk.drop off).take n)

/-- What breaks R404 or names a reserved curve (R156). -/
def badDescriptor (blk : List Byte) : Bool :=
  let f := descF blk
  let dim (off : Nat) : Bool := decide (1 ≤ f off 4 ∧ f off 4 ≤ 2097152)
  f 0 8 % 4 != 0 || decide (2 ^ 57 ≤ f 0 8) || !(dim 8 && dim 12 && dim 16) || decide (2 ^ 40 < f 8 4 * f 12 4 * f 16 4) ||
  !decide (1 ≤ f 20 2 ∧ f 20 2 ≤ 1024) || !decide (1 ≤ f 22 1 ∧ f 22 1 ≤ 24) || decide (4 < f 23 1) || decide (512 < f 24 2) ||
  f 26 6 != 0 || f 40 24 != 0

/-- The grid a descriptor describes (R14, R404). -/
def gridOf (blk : List Byte) (ctx : Nat) (id : Word) (parent : Option Word) (place : Option Nat) (host : Bool) (clock : DWord) :
    Grid :=
  let f := descF blk
  { ctx := ctx, id := id, entry := BitVec.ofNat 57 (f 0 8), gx := f 8 4, gy := f 12 4, gz := f 16 4, threads := f 20 2,
    regs := f 22 1 * 8, curve := f 23 1, pages := f 24 2, param := BitVec.ofNat 64 (f 32 8), placed := 0, exited := 0,
    parent := parent, place := place, host := host, accepted := clock }

/-! ### LAUNCH and LAUNCH.cwait (R15, R405, R406) -/

/-- The core a LAUNCH placement names, when it is an enabled core of the context's set (R249). -/
def State.launchCore (s : State) (c : PCoord) : Option Nat :=
  (s.coreOfSite c.die.toNat c.prow.toNat c.pcol.toNat).bind fun k =>
    match s.ctxAt s.cur.team.ctx with
    | some x => if x.coreset.getLsbD k then some k else none
    | none => none

/-- A LAUNCH waits for room in the store queue of the leader's slice (R102, R405). -/
def launchGate (part : LaneMask) (s : State) : Option State :=
  if part = 0 || s.queuesOpen [0] then none else some s

/-- Depth of a grid by its identifier (R13). -/
def gridDepth (id : Word) : Nat := (id.extractLsb' 28 4).toNat

/-- LAUNCH: the leader loads the descriptor; the strand is held until it has arrived and been checked (R405). -/
def execLaunch (h : Hdr) (d a : Reg) (place : Option PCoord) (s : State) : Outcome State Fault Refusal :=
  issue (.launch h d a place) (bothGates (memGate false) launchGate) (fun part s =>
    let va := s.cur.rd64 a 0
    if !part.getLsbD 0 || s.cur.gangId != 0 || pastMemdone s.strand then .trap (.form part)
    else if gridDepth s.cur.team.grid = 9 then .trap (.plain causeLaunchDepth part)
    else if va.toNat % 64 ≠ 0 then .trap ⟨causeAlignment, 0xFF, va, part, false⟩
    else
      preciseTranslate s 0 false .read (laneAccs (laneBit 0) 16 4 fun _ => va) fun accs s1 =>
        dataChecks s1 (s1.who (laneBit 0) false) 0 false .view accs fun _ =>
        let core := place.bind s.launchCore
        let c : LCmd :=
          { who := s1.who part false, d := d, lead := 0, place := core, badPlace := place.isSome && core.isNone, va := va,
            blk := List.replicate 64 0, need := List.range 16, entry := none }
        let s2 := s1.modCur fun g => { g with launches := g.launches ++ [c] }
        let s3 := s2.modStrand fun st => { st with state := .parked, waitOn := .descr }
        let who := s1.who (laneBit 0) false
        .stay (byFrame accs (fun s l => s.loadFrame who none (some .n32) ⟨0, 0⟩ l) s3)) s

/-- The length of LAUNCH (R405). -/
def launchLen : Nat := 8

/-- A LAUNCH whose descriptor has arrived: checked, then its entry is placed, its destination is pending in the leader's lane and
its strand goes on (R15, R405). -/
def State.finishLaunch (s : State) (c : LCmd) : State :=
  let k := c.who.g
  let mine (x : LCmd) : Bool := x.who.seq == c.who.seq
  if badDescriptor c.blk || c.badPlace then
    (s.modGang k fun g => { g with launches := g.launches.filter fun x => !mine x }.wake s.clock c.who.strand).trapAt k c.who.strand
      (.form c.who.mask)
  else if (s.coreAt k.core).sliceRoom k.part 0 then
    let id := s.nextId
    let e : SQEntry := { s.newEntry c.who 0 .launch [] with ssn := (s.gangAt k).ssn }
    (s.enter e).modGang k fun g =>
      ((({ g with launches := modWhere mine (fun x => { x with entry := some id }) g.launches, ssn := g.ssn + 1 }).markPend c.d 1
        (g.strandAt c.who.strand).mask (laneBit c.lead) (pendMark c.who.seq c.who.strand)).modStrand c.who.strand fun st =>
          { st with pc := st.pc + BitVec.ofNat 57 launchLen }).wake s.clock c.who.strand
  else s

/-- Every LAUNCH whose descriptor has arrived. -/
def State.finishLaunches (s : State) : State :=
  ((s.allGangs.flatMap (·.launches)).filter fun c => c.entry.isNone && c.need.isEmpty).foldl (fun s c => s.finishLaunch c) s

/-- A live grid of a context holds a serial number (R14). -/
def State.serialLive (s : State) (ctx serial : Nat) : Bool :=
  s.grids.any fun g => g.ctx == ctx && (g.id.extractLsb' 0 28).toNat == serial

/-- LAUNCH.cwait: waits while a live grid of the context has the serial (R406). -/
def execLaunchCwait (h : Hdr) (a : Reg) (s : State) : Outcome State Fault Refusal :=
  issue (.launchCwait h a) noGate (onceFor fun l _ s =>
    let serial := ((s.cur.rd32 a l).extractLsb' 0 28).toNat
    if s.serialLive s.cur.team.ctx serial then
      .done (s.waitStrand .parked .childGrid (BitVec.ofNat 64 serial) none (.grid serial))
    else .done s) s

/-- Strands whose child grid has completed go on (R406). -/
def State.endCwaits (s : State) : State :=
  s.modGangs (fun _ => true) fun g =>
    (List.range 16).foldl (fun g k =>
      match (g.strandAt k).waitOn with
      | .grid n => if s.serialLive g.team.ctx n then g else g.wake (s.clock + 2) k
      | _ => g) g

/-! ### The work distributor (R14, R154) -/

/-- Live grids the work distributor holds (R154). -/
def gridRoom : Nat := 1024

/-- A grid joins the work distributor with the context's next serial number; none while that number is held or there is no room
(R14, R154). -/
def State.addGrid (s : State) (ctx depth : Nat) (blk : List Byte) (parent : Option Word) (place : Option Nat) :
    Option (State × Word) :=
  match s.ctxAt ctx with
  | none => none
  | some x =>
    if s.serialLive ctx x.serial || decide (gridRoom ≤ s.grids.length) then none
    else
      let id : Word := BitVec.ofNat 32 (depth * 2 ^ 28 + x.serial)
      some ({ s with grids := s.grids ++ [gridOf blk ctx id parent place parent.isNone s.clock] }.modCtx ctx
        fun x => { x with serial := (x.serial + 1) % 2 ^ 28 }, id)

/-- A LAUNCH of a strand waits at retire for room in the work distributor: the strand stalls (R154, R162). -/
def State.launchFull (s : State) (g : Gang) (k : Nat) : Bool :=
  decide (gridRoom ≤ s.grids.length) &&
    g.launches.any fun c => c.who.strand == k && c.entry.isSome && decide ((g.strandAt k).born ≤ c.who.seq)

/-- GRID_DESCRIPTOR_WRITE: a retired LAUNCH becomes a grid, and its GRIDID is on its way to the destination (R405). -/
def execGridDescriptorWrite (core id : Nat) (s : State) : Outcome State Fault Refusal :=
  match (s.coreAt core).gone.find? (fun e => e.id == id && e.kind == .launch) with
  | none => .next s
  | some e =>
    match (s.gangAt e.who.g).launches.find? (fun c => c.entry == some id) with
    | none => .next s
    | some c =>
      match s.addGrid e.who.ctx (gridDepth e.who.team.grid + 1) c.blk (some e.who.team.grid) c.place with
      | none => .next s
      | some (s1, gid) =>
        let s2 := s1.modGang e.who.g fun g => { g with launches := g.launches.filter fun x => x.entry != some id }
        .next ((s2.sendBack core e.who (resultWrites c.d (laneBit c.lead) fun _ => gid)).entryOver core e)

/-! ### Curves (R156, R157) -/

/-- One stage of HilbertPoint (R157). -/
def hilbertStep (d : Nat) : Nat → Nat → Nat × Nat → Nat × Nat
  | 0, _, p => p
  | fuel + 1, s, (x, y) =>
    let rx := d / 2 % 2
    let ry := (d % 2 ^^^ rx) % 2
    let (x1, y1) := if ry = 0 then (if rx = 1 then (s - 1 - y, s - 1 - x) else (y, x)) else (x, y)
    hilbertStep (d / 4) fuel (s * 2) (x1 + s * rx, y1 + s * ry)

/-- HilbertPoint over a square of side 2^n (R157). -/
def hilbertPoint (n d : Nat) : Nat × Nat := hilbertStep d n 1 (0, 0)

/-- MortonPoint: even bits give x, odd bits y (R156). -/
def mortonPoint : Nat → Nat → Nat × Nat
  | 0, _ => (0, 0)
  | n + 1, d => let (x, y) := mortonPoint n (d / 4); (2 * x + d % 2, 2 * y + d / 2 % 2)

/-- The side, as a power of two, of the smallest square that covers an extent (R156). -/
def squareLog (m : Nat) : Nat := if m ≤ 1 then 0 else Nat.log2 (m - 1) + 1

/-- The point of a curve over a square that comes `k`-th among those inside the extent. -/
def nthInside (point : Nat → Nat × Nat) (gx gy : Nat) : Nat → Nat → Nat → Nat × Nat
  | 0, d, _ => point d
  | fuel + 1, d, k =>
    let (x, y) := point d
    if x < gx ∧ y < gy then (if k = 0 then (x, y) else nthInside point gx gy fuel (d + 1) (k - 1))
    else nthInside point gx gy fuel (d + 1) k

/-- The coordinates of a grid's k-th team (R156). -/
def Grid.point (g : Grid) (k : Nat) : Nat × Nat × Nat :=
  let z := k / (g.gx * g.gy)
  let r := k % (g.gx * g.gy)
  let n := squareLog (Nat.max g.gx g.gy)
  let (x, y) := match g.curve with
    | 0 => (r % g.gx, r / g.gx)
    | 1 => (r / g.gy, r % g.gy)
    | 2 => (if r / g.gx % 2 = 0 then r % g.gx else g.gx - 1 - r % g.gx, r / g.gx)
    | 3 => nthInside (mortonPoint n) g.gx g.gy (4 ^ n) 0 r
    | _ => nthInside (hilbertPoint n) g.gx g.gy (4 ^ n) 0 r
  (x, y, z)

/-- A team's identifier (R13). -/
def teamId (p : Nat × Nat × Nat) : BitVec 64 := BitVec.ofNat 64 (p.2.2 * 2 ^ 42 + p.2.1 * 2 ^ 21 + p.1)

/-- Teams of a grid. -/
def Grid.total (g : Grid) : Nat := g.gx * g.gy * g.gz

/-! ### Placement (R12, R158 to R161, R191, R192, R200, R201) -/

/-- The contexts and cores that place teams in a service: all in full service, context 0 on CD0 in Lantern service (R437, R439,
R450). -/
def Service.places (v : Service) (ctx core : Nat) : Bool :=
  match v with
  | .full => true
  | .lantern => ctx == 0 && decide (core < 64)
  | _ => false

/-- A core is one of those a context runs on in its current turn (R158, R191). -/
def State.inTurn (s : State) (x : Ctx) (core : Nat) : Bool :=
  s.service.places x.num core && x.coreset.getLsbD core &&
  (x.group == 0 || s.turns.any (fun t => t.1 == x.group && t.2.1 == x.num))

/-- A context may run on a core now: the core is one of its turn, and for a time-sliced context the teams of the turn before have left
it (R158, R191). -/
def State.mayRun (s : State) (x : Ctx) (core : Nat) : Bool :=
  s.inTurn x core && (x.group == 0 || !s.teams.any fun t => t.core == core && t.key.ctx != x.num && !t.preempted)

/-- The gangs in a partition. -/
def State.partGangs (s : State) (core part : Nat) : List Gang := s.allGangs.filter fun g => g.key.core == core && g.key.part == part

/-- Free gang slots of a partition, lowest first (R4). -/
def State.freeGangSlots (s : State) (core part : Nat) : List Nat :=
  (List.range 16).filter fun n => !(s.partGangs core part).any fun g => g.key.slot == n

/-- The partition with the most free slots, the lowest on a tie (R159). -/
def State.firstPart (s : State) (core : Nat) : Nat :=
  (List.range 4).foldl (fun b q => if (s.freeGangSlots core b).length < (s.freeGangSlots core q).length then q else b) 0

/-- The places of a team's gangs on a core (R159). -/
def State.teamPlaces (s : State) (core gangs : Nat) : List GKey :=
  let b := s.firstPart core
  (List.range gangs).filterMap fun k =>
    ((s.freeGangSlots core ((b + k) % 4))[k / 4]?).map fun n => ⟨core, (b + k) % 4, n⟩

/-- A team of a grid fits on a core (R158). -/
def State.fits (s : State) (x : Ctx) (g : Grid) (core : Nat) : Bool :=
  let gangs := (g.threads + 31) / 32
  let places := s.teamPlaces core gangs
  s.mayRun x core && (match g.place with | some c => c == core | none => true) &&
  decide (s.pinnedPages core + g.pages ≤ spPages) && places.length == gangs &&
  (List.range 4).all fun q =>
    decide (((s.partGangs core q).map (·.nregs)).sum + (places.filter fun k => k.part == q).length * g.regs ≤ 2048)

/-- The next grid a context places a team of: greatest depth, then accepted first (R155). -/
def State.nextGrid (s : State) (ctx : Nat) : Option Grid :=
  (s.grids.filter fun g => g.ctx == ctx && decide (g.placed < g.total)).foldl (fun best g => match best with
    | some (b : Grid) => if gridDepth b.id < gridDepth g.id then some g else some b
    | none => some g) none

/-- Active gangs of a partition (R161). -/
def activeRoom : Nat := 8

/-- A gang as it is placed: every register, predicate and mask 0 but s0, which holds PARAM; one root strand at the entry
(R12, R20, R160, R161). -/
def newGang (x : Ctx) (g : Grid) (t : TKey) (key : GKey) (k : Nat) (clock : DWord) (active : Bool) : Gang :=
  let lanes := maskOf fun l => decide (k * 32 + l < g.threads)
  let root : Strand := { Strand.empty with valid := true, pc := g.entry, mask := lanes }
  { Gang.empty with
    key := key, team := t, ctxField := BitVec.ofNat 16 (x.gen % 2048 * 32 + x.num), gangId := BitVec.ofNat 32 k, nregs := g.regs,
    launched := lanes, live := lanes, resident := true, s := smSet [] 0 g.param, strands := Gang.empty.strands.set 0 root,
    ageStamp := clock, active := active }

/-- A gang takes its place; it joins the active set where that has room (R161). -/
def State.placeGang (s : State) (x : Ctx) (g : Grid) (t : TKey) (key : GKey) (k : Nat) : State :=
  let active := decide (((s.partGangs key.core key.part).filter (·.active)).length < activeRoom)
  { s with gangs := s.gangs ++ [newGang x g t key k s.clock active] }

/-- The boundary of a host grid waits where a core's dirty word cannot go home yet (R18, R118). -/
def State.boundaryWaits (s : State) (g : Grid) : Bool := g.host && g.placed == 0 && s.cores.any fun c => s.anyStuck c.num

/-- Every core drains and self-invalidates at a host grid's boundary (R18, R118). -/
def State.hostBoundary (s : State) : State :=
  s.cores.foldl (fun s c => (s.drainCore c.num).invalidateCore c.num) s

/-- The team of a grid that comes next is placed on a core: its gangs at once, its window clear, each page of it in a
physical page that whatever stands there leaves, its core's view self-invalidated (R12, R118, R159 to R161, R200, R201). -/
def State.placeTeam (s : State) (x : Ctx) (g : Grid) (core : Nat) : State :=
  let t : TKey := ⟨x.num, g.id, teamId (g.point g.placed)⟩
  let places := s.teamPlaces core ((g.threads + 31) / 32)
  let s0 := if g.host && g.placed == 0 then s.hostBoundary else s
  let (sf, fs) := s0.newFrames g.pages
  let s1 := places.zipIdx.foldl (fun s (key, k) => s.placeGang x g t key k) sf
  let team : Team :=
    { key := t, core := core, threads := g.threads, nregs := g.regs, pages := g.pages, sp := [], frames := fs, held := [],
      unpinned := [],
      bars := List.replicate 16 Bar.empty, placedAt := s.clock, started := false, stopping := false, preempted := false, runtime := 0,
      saved := [] }
  let s2 := { s1 with
    teams := s1.teams ++ [team]
    grids := modWhere (fun y => y.ctx == g.ctx && y.id == g.id) (fun y => { y with placed := y.placed + 1 }) s1.grids }
  (s2.takePages t true (List.range g.pages)).invalidateCore core

/-- The grid whose next team a context places: the one whose team fitted nowhere, else the next (R155). -/
def State.turnGrid (s : State) (x : Ctx) : Option Grid :=
  (x.waitGrid.bind fun n => s.grids.find? fun g => g.ctx == x.num && g.id == n && decide (g.placed < g.total)).or (s.nextGrid x.num)

/-- Placement is not stopped for a context (R155). -/
def Ctx.tries (x : Ctx) : Bool := x.waitGrid.isNone || x.retry

/-- The lowest-numbered core a context's next team fits on; none where placement has stopped for it (R155, R158). -/
def State.nextPlace (s : State) (x : Ctx) : Option (Grid × Nat) :=
  if x.tries then (s.turnGrid x).bind fun g => ((List.range 256).find? (s.fits x g)).map fun c => (g, c) else none

/-- How many context numbers a context stands behind the one last served, wrapping (R192). -/
def State.behind (s : State) (n : Nat) : Nat := (n + 31 - s.lastServed % 32) % 32

/-- A context is served: no other that can place a team stands before it (R192). -/
def State.served (s : State) (n : Nat) : Bool := s.ctxs.all fun y => decide (s.behind n ≤ s.behind y.num) || (s.nextPlace y).isNone

/-- A context's next team fits on none of the cores of its turn, on none of which another turn's team still stands (R155, R191). -/
def State.fitsNowhere (s : State) (x : Ctx) (g : Grid) : Bool :=
  let cores := (List.range 256).filter fun c => s.inTurn x c && match g.place with | some k => k == c | none => true
  !cores.isEmpty && cores.all fun c => s.mayRun x c && !s.fits x g c

/-- TEAM_PLACEMENT: contexts are served in turn; the context's next team goes to the lowest-numbered core it fits on, and where it fits on
none, placement stops for the context until a team of it leaves (R155, R158, R192). -/
def execTeamPlacement (ctx : Nat) (s : State) : Outcome State Fault Refusal :=
  match s.ctxAt ctx with
  | none => .next s
  | some x =>
    match s.nextPlace x with
    | some (g, core) =>
      if s.served ctx && !s.boundaryWaits g then
        .next ({ (s.placeTeam x g core) with lastServed := ctx }.modCtx ctx fun y => { y with waitGrid := none, retry := false })
      else .next s
    | none =>
      match (if x.tries then s.turnGrid x else none) with
      | some g => .next (if s.fitsNowhere x g then s.modCtx ctx fun y => { y with waitGrid := some g.id, retry := false } else s)
      | none => .next s

/-- A team of a context has exited or been pre-empted: a team that fitted nowhere is tried again (R155). -/
def State.retryPlacement (s : State) (ctx : Nat) : State := s.modCtx ctx fun x => { x with retry := true }

/-! ### Exit and completion (R16, R119) -/

/-- Nothing of the gangs of a team is left to complete: store-queue entries, matrix commands, a running slice (R119). -/
def State.teamQuiet (s : State) (t : TKey) (core : Nat) : Bool :=
  let c := s.coreAt core
  !(c.sq ++ c.gone).any (fun e => e.who.team == t) && !s.fwd.any (fun f => f.who.team == t) &&
  (s.teamGangs t).all fun g => g.mq.isEmpty && !g.slice.running

/-- A read or a write of an engine, or a read of Bridle. -/
def OrnReq.ofEngine (r : OrnReq) : Bool := match r.kind with | .engRead _ | .engWrite _ | .push .. => true | _ => false

/-- What gangs of a team still have on its way is dropped, and their places are free. -/
def State.removeGangs (s : State) (core : Nat) (gone : GKey → Bool) : State :=
  let keep (w : Who) : Bool := !(gone w.g)
  let load (r : OrnReq) : Bool := keep r.who || !(r.isLoad || r.isPref || r.ofEngine)
  let s1 := { s with
    cur := if gone s.cur.key && s.cur.resident then Gang.empty else s.cur
    gangs := s.gangs.filter fun g => !gone g.key
    ornWait := s.ornWait.filter load, orn := s.orn.filter load, watches := s.watches.filter fun w => keep w.who }
  let unSp (c : Core) : Core := { c with spq := c.spq.filter fun r => keep r.who }
  let s2 := { s1 with cores := s1.cores.map unSp }
  s2.modCore core fun c =>
    { c with
      inflight := c.inflight.filter fun f => !gone f.g
      resv := c.resv.filter fun r => !gone r.g
      mxTurn := c.mxTurn.filter fun x => !gone x.g, engIn := c.engIn.filter fun x => !gone x.g }

/-- A grid is complete: every team has exited, and no live grid is its child (R16). -/
def State.gridDone (s : State) (g : Grid) : Bool :=
  g.exited == g.total && !s.grids.any fun c => c.ctx == g.ctx && c.parent == some g.id

/-- Completed grids leave, children before the parents they let complete (R16). -/
def State.endGrids (s : State) : Nat → State
  | 0 => s
  | fuel + 1 => if s.grids.any s.gridDone then State.endGrids { s with grids := s.grids.filter fun g => !s.gridDone g } fuel else s

/-- A team counts as exited (R16). -/
def State.countExit (s : State) (t : TKey) : State :=
  let s1 := { s with
    teams := s.teams.filter fun x => x.key != t
    grids := modWhere (fun g => g.ctx == t.ctx && g.id == t.grid) (fun g => { g with exited := g.exited + 1 }) s.grids }
  (s1.endGrids (s1.grids.length + 1)).retryPlacement t.ctx

/-- TEAM_EXIT: once the last gang has ended, its entries have completed and every dirty word of the core can go home, the core drains, its resources are free, and the
team counts as exited (R16, R119). -/
def execTeamExit (t : TKey) (s : State) : Outcome State Fault Refusal :=
  match s.teamAt t with
  | none => .next s
  | some x =>
    if x.preempted || !(s.teamGangs t).all (fun g => g.live == 0) || !s.teamQuiet t x.core || s.anyStuck x.core then .next s
    else
      let keys := (s.teamGangs t).map (·.key)
      .next (((s.drainCore x.core).removeGangs x.core fun k => keys.contains k).countExit t)

/-- An open soft instance whose deadline has come completes (R396). -/
def State.passDeadline (s : State) (t : TKey) (n : Nat) : State :=
  let b := s.barAt t n
  if b.kind == .soft && b.deadline != 0 && decide (b.deadline ≤ s.clock) then s.completeBar t n none else s

/-- SOFT_BARRIER_DEADLINE (R396); that of a team that is away comes as the team resumes (R397). -/
def execSoftBarrierDeadline (t : TKey) (bar : Fin 16) (s : State) : Outcome State Fault Refusal :=
  .next (if (s.teamAt t).any (·.preempted) then s else s.passDeadline t bar.val)

end Sys2Proof.Machine
end

