-- ==== Sys2Proof/Machine/Sched.lean ====
section
/-! DEFINITION. From the instruction buffer to the issue of an instruction (R161 to R168, R199, R237, R252, R325, R433): fetch,
decode with its traps, fused groups, readiness, selection, the issue cycle of a core, the active and pending sets. -/

namespace Sys2Proof.Machine

open Host (Outcome)

/-! ### The instruction buffer (R199, R237, R433) -/

/-- Lines of the instruction buffer: 128 KiB of 32-byte fetch windows (R4, R237). -/
def ibufRoom : Nat := 4096

/-- The line that holds an address of an address space. -/
def Core.line (c : Core) (asid va : Nat) : Option ILine := c.ibuf.find? fun l => l.asid == asid && l.va == va / 32 * 32

/-- The bytes of the fetch window from an address to the window's end (R237). -/
def Core.windowBytes (c : Core) (asid va : Nat) : Option (List Byte) :=
  (c.line asid va).map fun l => (leBytes l.bits.toNat 32).drop (va % 32)

/-- Strands of a core and an address space whose next instruction lies in a window (R433). -/
def State.heldLine (s : State) (core : Nat) (l : ILine) : Bool :=
  s.allGangs.any fun g => g.key.core == core && g.team.ctx == l.asid &&
    g.strands.any fun st => st.valid && st.pc.toNat / 32 * 32 == l.va

/-- A line that is used becomes the most recently used (R433). -/
def Core.touchLine (c : Core) (asid va : Nat) : Core :=
  match c.line asid va with
  | some l => { c with ibuf := l :: c.ibuf.erase l }
  | none => c

/-- A line joins the buffer as the most recently used; a full buffer first gives up its least recently used line that no strand
is about to use (R433). -/
def State.addLine (s : State) (core : Nat) (l : ILine) : State :=
  s.modCore core fun c =>
    let old := c.ibuf.filter fun x => !(x.asid == l.asid && x.va == l.va)
    let kept :=
      if old.length < ibufRoom then old
      else match old.reverse.find? fun x => !s.heldLine core x with
        | some v => old.filter (· != v)
        | none => old
    { c with ibuf := l :: kept }

/-- A strand whose wait its next instruction tests again: in join or memory-join wait, or before an arrival, MJOIN or MLEAVE (R37,
R116). -/
def Strand.blocked (st : Strand) : Bool := st.state == .joinWait || st.state == .memJoinWait || (st.state == .barWait && st.waitOn == .block)

/-- A strand that needs its next instruction. -/
def Strand.fetching (st : Strand) : Bool := st.valid && (st.state == .ready || st.blocked)

/-- Strands of a core that need their next instruction, in a window. -/
def State.fetchers (s : State) (core asid va : Nat) : List (GKey × Nat) :=
  (s.allGangs.filter fun g => g.key.core == core && g.team.ctx == asid && !g.trapParked && !g.halted).flatMap fun g =>
    (g.strands.zipIdx.filter fun p => p.1.fetching && p.1.pc.toNat / 32 == va / 32).map fun p => (g.key, p.2)

/-- Every strand that needs the window takes a fetch fault at its own address (R195, R199, R234, R252). -/
def State.fetchFault (s : State) (core asid va cause : Nat) : State :=
  (s.fetchers core asid va).foldl (fun s (g, k) =>
    let st := (s.gangAt g).strandAt k
    s.trapAt g k ⟨cause, 3, st.pc.setWidth 64, st.mask, false⟩) s

/-- A fetch window is read from its home, or the strands that need it fault (R193, R195, R199, R252). -/
def State.fetchWindow (s : State) (core asid va : Nat) : State :=
  let w := va / 32 * 32
  match s.translate core asid (BitVec.ofNat 64 w) .fetch with
  | (t, s1) =>
    match noDevice t with
    | .held => s1
    | .fault c => s1.fetchFault core asid va c
    | .ok pa attr =>
      if !s1.ownsPage pa then s1.wantPage pa
      else if (sectorWords (pa / 32)).any s1.engineOwns then s1
      else
        match s1.mergeFirst (pa / 32) with
        | (s2, false) => s2
        | (s2, true) =>
          if s2.poison.contains (pa / 32) then
            let field := match s2.ctxAt asid with | some x => x.field | none => 0
            let (unit, at') := s2.unitOf pa attr
            let addr : DWord := BitVec.ofNat 64 pa
            (s2.fetchFault core asid va causeData).logErr field 2 unit at' (errStack unit addr) addr
          else (s2.l2Read asid pa attr).addLine core { asid := asid, va := w, bits := BitVec.ofNat 256 (leNat (smBytes s2.mem pa 32)) }

/-- INSTRUCTION_FETCH. -/
def execInstructionFetch (core asid va : Nat) (s : State) : Outcome State Fault Refusal := .next (s.fetchWindow core asid va)

/-- The windows that a core fetches before the strands of a team placed on it become ready: from its kernel's entry to the end of the code
section, up to 4 KiB; none where sorik-ld has loaded no such section (R433). -/
def State.kernelWindows (s : State) (t : Team) : List Nat :=
  match s.grids.find? (fun g => g.ctx == t.key.ctx && g.id == t.key.grid), s.ctxAt t.key.ctx with
  | some g, some x =>
    let e := g.entry.toNat
    match s.codeHeap.find? fun c => c.ctx == x.field && decide (c.secs.code ≤ e ∧ e < c.secs.code + c.secs.codeSize) with
    | some c => ((List.range 128).map fun k => e / 32 * 32 + 32 * k).filter fun w => decide (w < c.secs.code + c.secs.codeSize)
    | none => []
  | _, _ => []

/-- Cycles from placement to the first issue (R160). -/
def readyDelay : Nat := 64

/-- TEAM_STRANDS_READY: the kernel's code stands in the instruction buffer, and the strands are ready (R160, R433). -/
def execTeamStrandsReady (t : TKey) (s : State) : Outcome State Fault Refusal :=
  match s.teamAt t with
  | none => .next s
  | some x =>
    if x.started || decide (s.clock.toNat < x.placedAt.toNat + readyDelay) then .next s
    else
      .next ((s.kernelWindows x).foldl (fun s w =>
        if ((s.coreAt x.core).line t.ctx w).isSome then s.modCore x.core fun c => c.touchLine t.ctx w else s.fetchWindow x.core t.ctx w) (s.modTeam t fun x => { x with started := true }))

/-! ### Decoding the next instruction (R237, R252) -/

/-- The trap of a rejected encoding: its lanes are the active ones whose guard passes, or all active ones where a guard field
itself fails or cannot be read; a pending operand of a combination that the entry refuses comes first (R252). -/
def rejectTrap (g : Gang) (st : Strand) (bs : List Byte) (e : Reject) : Trap :=
  let lanes := match (Raw.ofBits (BitVec.ofNat 128 (bytesLE (bs.take 16)))).guards bs.length with
    | some (g1, g2, gor) => g.guarded st.mask g1 g2 gor
    | none => st.mask
  match e with
  | .illegalOpcode => .plain causeIllegalOpcode lanes
  | .illegalForm bad => .form (if bad then st.mask else lanes)
  | .illegalAlign => .plain causeIllegalAlign lanes
  | .combination i => if allocated i g && hazard i g st then .plain causeUnmarkedHazard lanes else .form lanes

/-! ### Fused groups (R325, R326) -/

/-- What a member of a group is. -/
def isMember (i : Instr) : Bool := match i with | .fmul _ | .fadd _ | .ffma .. | .fmax _ => true | _ => false

/-- The members that could follow in the window after an instruction. -/
def members : Nat → List Byte → List Instr
  | 0, _ => []
  | n + 1, bs =>
    match decodeBytes bs with
    | .ok (i, rest) => if isMember i then i :: members n rest else []
    | .error _ => []

/-- Two members agree in what R325 asks of them; the first carries neither bit 3 nor the S bit and does not write zr. -/
def joins (h k : Hdr) (d a b : Reg) : Bool := h.g1 == k.g1 && !h.fb && !h.sw && d != .zr && (a == d || b == d)

/-- A multiplication or addition of f32 goes before an addition that reads it. -/
def joinsA (m a : FArith) : Bool := !m.ty.wide && !a.ty.wide && joins m.h a.h m.d a.a.r a.b.r

/-- The same before a maximum. -/
def joinsX (m : FArith) (x : FMinMax) : Bool := !m.ty.wide && !x.ty.wide && joins m.h x.h m.d x.a.r x.b.r

/-- The longest group of a list of members that starts at its first (R325); none where it issues alone. -/
def fuse (l : List Instr) : Option Instr :=
  match l with
  | .fmul m :: .fadd a :: .fmax x :: _ =>
    if joinsA m a then (if joinsX a x then some (.fusedGroup (.mulAddMax m a x)) else some (.fusedGroup (.mulAdd m a))) else none
  | .fmul m :: .fadd a :: _ => if joinsA m a then some (.fusedGroup (.mulAdd m a)) else none
  | .fadd a :: .fmax x :: _ => if joinsX a x then some (.fusedGroup (.addMax a x)) else none
  | .ffma m negc c :: .fmax x :: _ => if joinsX m x then some (.fusedGroup (.fmaMax m negc c x)) else none
  | _ => none

/-- Members as far as each passes checks 7 and 8 and reads no uncorrectable error, of those `bad` that the members before it have not written over
(R234, R325, R326). -/
def sound (g : Gang) (k : Nat) (st : Strand) : List BadReg → List Instr → List Instr
  | _, [] => []
  | bad, i :: rest =>
    if allocated i g && !hazard i g st && !bad.any (badFor i k st.mask) then
      i :: sound g k st (bad.filter fun r => !overwritten i (g.guarded st.mask i.hdr.g1 i.hdr.g2 i.hdr.gor) r) rest
    else []

/-- Decoding in a service: Lantern service refuses some opcodes, and f64 in the floating-point instructions (R439). -/
def decodeIn (v : Service) (bs : List Byte) : Except Reject (Instr × List Byte) :=
  let r := Raw.ofBits (BitVec.ofNat 128 (bytesLE (bs.take 16)))
  let opc := r.opc.toNat
  let off := decide ((0x80 ≤ opc ∧ opc ≤ 0xBF) ∨ (0x160 ≤ opc ∧ opc ≤ 0x19F) ∨ opc = 0x1D0)
  match decodeBytes bs with
  | .error .illegalAlign => .error .illegalAlign
  | res =>
    if v.lanternMode && off && (lenBytes r.len).isSome then .error .illegalOpcode
    else
      let wide := v.lanternMode && decide (0x40 ≤ opc ∧ opc ≤ 0x4A) && r.mod == 10#4
      match res with
      | .ok p => if wide then .error (.illegalForm false) else .ok p
      | .error (.combination i) => if wide then .error (.illegalForm false) else .error (.combination i)
      | .error e => .error e

/-- What a strand issues from its window: an instruction or a group, or the trap of a rejected encoding. -/
def nextIssue (v : Service) (g : Gang) (k : Nat) (st : Strand) (group : Bool) (bs : List Byte) : Except Trap Instr :=
  match decodeIn v bs with
  | .error e => .error (rejectTrap g st bs e)
  | .ok (i, _) =>
    match (if group then fuse (sound g k st g.bad (members 3 bs)) else none) with
    | some f => .ok f
    | none => .ok i

/-! ### The issue of a strand, and what would come of it (R162) -/

/-- An instruction that reads an uncorrectable error in a register or a table: it traps with cause 0x09 and access kind 5, before it has any effect
(R213, R234, R235). -/
def State.readError (s : State) (i : Instr) (r : BadReg) : State :=
  (s.begin.takeTrap ⟨causeData, 5, 0, s.part i, false⟩).logErr s.cur.ctxField 2 r.place.1 s.cur.key.core 0 (BitVec.ofNat 64 r.place.2)

/-- The issue of an instruction in a gang in whose storage uncorrectable errors stand: what it reads may be one of them (R234), and what it
writes over whole is none any more (R232). A fused group has formed only where no member of it reads one (R326). -/
def State.issueBad (ex : Instr → State → Outcome State Fault Refusal) (i : Instr) (s : State) : Outcome State Fault Refusal :=
  let group := match i with | .fusedGroup _ => true | _ => false
  match (if !group && allocated i s.cur && !hazard i s.cur s.strand then s.cur.bad.find? (badFor i s.curStrand s.strand.mask) else none) with
  | some r => .next (s.readError i r)
  | none =>
    match ex i s with
    | .next t =>
      .next (if t.cur.issueSeq = s.cur.issueSeq then t else t.modCur fun g => { g with bad := g.bad.filter fun r => !overwritten i (s.part i) r })
    | o => o

/-- The issue of a strand with the meanings `ex`: nothing where its instruction is not there; a trap where its encoding is rejected
(R162, R252). A PC that is no multiple of 4 traps before any guard can be read: its lanes are all active ones (DESIGN CHOICE; assumption
98). -/
def State.issueWith (ex : Instr → State → Outcome State Fault Refusal) (group : Bool) (g : GKey) (k : Nat) (s : State) :
    Outcome State Fault Refusal :=
  let s1 := s.focus g k
  match (s1.coreAt g.core).windowBytes s1.cur.team.ctx s1.strand.pc.toNat with
  | none => .next s
  | some bs =>
    if s1.strand.pc.toNat % 4 ≠ 0 then .next (s1.takeTrap (.plain causeIllegalAlign s1.strand.mask))
    else
      match nextIssue s1.service s1.cur k s1.strand group bs with
      | .error t => .next (s1.begin.takeTrap t)
      | .ok i => if s1.cur.bad.isEmpty then ex i s1 else s1.issueBad ex i

/-- Instructions that R162 has wait for the memory queues, a hold, a shootdown or a page. -/
def ownCode : Instr → Nat
  | .mmawait .. => 9
  | .pop .. => 10
  | .ldg .. | .ldc .. | .ldt .. | .stg .. | .lds .. | .ldsRemote .. | .sts .. | .stsRemote .. | .atom .. | .cas .. | .atomf .. | .hop ..
  | .red .. | .redu .. | .atoms .. | .atomsRemote .. | .pref .. | .flush .. | .inval .. | .waitw .. | .sppin .. | .spunpin .. | .fence ..
  | .pfence .. | .asEnd .. | .launch .. | .mma .. | .obld .. | .obst .. => 8
  | _ => 1

/-- The sample reason of the issuing strand's own instruction, which could not issue (R162): 9 for a full matrix queue only. -/
def State.ownReason (s : State) : Nat :=
  match (s.myCore.windowBytes s.cur.team.ctx s.strand.pc.toNat).map (decodeIn s.service) with
  | some (.ok (i, _)) =>
    let part := s.part i
    match i with
    | .mma .. | .obld .. | .obst .. =>
      if (memGate false part s).isSome || !(match lowLane part with | some l => s.queuesOpen [l / 4] | none => true) then 8 else 9
    | _ => ownCode i
  | _ => 1

/-- An issue attempt waited: nothing issued, and no trap was taken. -/
def waited (before : Gang) (t : State) : Bool :=
  t.cur.issueSeq == before.issueSeq && !t.cur.trapParked && t.strand.state != .faultParked

/-- A strand that waits, as its instruction leaves it when it is tried now; none where it would issue or trap. -/
def State.trial (ex : Instr → State → Outcome State Fault Refusal) (s : State) (g : GKey) (k : Nat) : Option Strand :=
  match s.issueWith ex true g k with
  | .next t => if waited (s.gangAt g) t then some t.strand else none
  | _ => none

/-- The reason an attempt that waited leaves with its strand (R162). -/
def State.codeOf (s : State) (g : GKey) (k : Nat) (x : Strand) : Nat :=
  if x.state == .ready then (s.focus g k).ownReason else if x.state == .barWait then 4 else 3

/-- A strand once its instruction has been tried: a wait that would go on stays, with its signaller as it now is; one that is over ends, and
a join or a memory join issues no earlier than two cycles on; a ready strand keeps why it cannot issue, and with `enter` enters the wait its
instruction begins (R37, R162, R183, R184, R296). -/
def State.tried (ex : Instr → State → Outcome State Fault Refusal) (s : State) (g : Gang) (k : Nat) (enter : Bool) : Strand :=
  let st := g.strandAt k
  let freed : Strand :=
    { st with state := .ready, wait := WaitFor.empty, waitOn := .none, own := 0, notBefore := s.clock + if st.state == .barWait then 1 else 2 }
  let s1 := if st.blocked then s.modGang g.key fun h => h.modStrand k fun x => { x with state := .ready, waitOn := .none } else s
  match s1.trial ex g.key k with
  | none => if st.blocked then freed else { st with own := 0 }
  | some x =>
    let code := s1.codeOf g.key k x
    if st.blocked && x.state == .ready then { freed with own := code, heldVas := x.heldVas }
    else if st.blocked || enter then { st with state := x.state, wait := x.wait, waitOn := x.waitOn, own := code, heldVas := x.heldVas }
    else { st with own := code, heldVas := x.heldVas }

/-- The expected signaller of a barrier or mask wait, as it now is (R184). -/
def State.signalled (s : State) (g : Gang) (st : Strand) : Strand :=
  match st.wait.kind, st.waitOn with
  | .barrier, _ => { st with wait := { st.wait with sig := s.barSignaller g.team (s.barAt g.team st.wait.obj.toNat) } }
  | .mask, .mask set k sel =>
    { st with wait := { st.wait with sig := (g.maskSignaller (maskAwaited set (g.maskReg k) sel)).map fun j => (g.key, j) } }
  | _, _ => st

/-! ### Readiness and selection (R162 to R165) -/

/-- A strand's gang and place let it issue, and its instruction is there (R160, R162, R207), the active set aside. -/
def State.mayTry (s : State) (g : Gang) (k : Nat) : Bool :=
  let st := g.strandAt k
  let team := match s.teamAt g.team with | some t => t.started && !t.stopping && !t.preempted | none => false
  let part := match (s.coreAt g.key.core).parts[g.key.part]? with | some p => p.stopped != some g.team.ctx | none => false
  g.resident && team && part && !s.issueStopped && !g.halted && !g.trapParked && st.fetching &&
    ((s.coreAt g.key.core).line g.team.ctx st.pc.toNat).isSome

/-- The power limit withholds this cycle: every second one (R452). -/
def State.withheld (s : State) : Bool := s.withhold && s.clock.getLsbD 0

/-- Latencies, issue costs or the power limit hold a strand in this cycle: a branch or a wait that is over, what the issue cycle of its core was
told, a withheld cycle (R162, R171, R434, R452). -/
def State.latent (s : State) (g : Gang) (k : Nat) : Bool :=
  let c := s.coreAt g.key.core
  s.withheld || decide (s.clock < (g.strandAt k).notBefore) || (c.issued == some s.clock && c.busy.contains (g.key, k))

/-- The conditions of readiness that do not depend on the instruction (R160, R162, R166, R296), the active set aside. -/
def State.couldIssue (s : State) (g : Gang) (k : Nat) : Bool :=
  s.mayTry g k && (g.strandAt k).state == .ready && !s.latent g k && !s.launchFull g k

/-- A strand is ready: its gang is active, and its instruction, when last tried, had nothing of its own to wait for (R162). -/
def State.ready (s : State) (g : Gang) (k : Nat) : Bool := g.active && s.couldIssue g k && (g.strandAt k).own == 0

/-- The selection key (R163): smaller comes first. -/
def State.selKey (s : State) (g : Gang) (k : Nat) : List Nat :=
  [if s.urgent g then 0 else 1, g.ageStamp.toNat, g.key.slot, (g.strandAt k).rank.toNat]

/-- The ready strands of a partition. -/
def State.readyIn (s : State) (core part : Nat) : List (Gang × Nat) :=
  (s.partGangs core part).flatMap fun g => ((List.range 16).filter (s.ready g)).map fun k => (g, k)

/-- Cycles after which a wait decides (R164). -/
def waitBound : Nat := 64

/-- The strand with the greatest wait count of 64 or more, ties by the selection key (R164). -/
def State.longest (s : State) (l : List (Gang × Nat)) : Option (Gang × Nat) :=
  (l.filter fun p => decide (waitBound ≤ (p.1.strandAt p.2).waitCount)).foldl (fun best p => match best with
    | some (b : Gang × Nat) =>
      let (x, y) := ((p.1.strandAt p.2).waitCount, (b.1.strandAt b.2).waitCount)
      if y < x ∨ (x = y ∧ s.selKey p.1 p.2 < s.selKey b.1 b.2) then some p else some b
    | none => some p) none

/-- The one of some strands that comes first by the selection key (R163). -/
def State.firstByKey (s : State) (l : List (Gang × Nat)) : Option (Gang × Nat) :=
  l.foldl (fun best p => match best with
    | some (b : Gang × Nat) => if s.selKey p.1 p.2 < s.selKey b.1 b.2 then some p else some b
    | none => some p) none

/-- STRAND_WAIT_COUNT_EXPIRY: the partition's next strand is the one whose wait count has reached the bound; the selection goes by the counts as
they then are (R164). -/
def execStrandWaitCountExpiry (core part : Nat) (s : State) : Outcome State Fault Refusal :=
  match s.longest (s.readyIn core part) with
  | none => .next s
  | some (g, k) =>
    .next (s.modCore core fun c => { c with parts := modAt c.parts part fun p => { p with forced := some (g.key, k) } })

/-- Change a partition of a core. -/
def State.modPart (s : State) (core part : Nat) (f : Part → Part) : State :=
  s.modCore core fun c => { c with parts := modAt c.parts part f }

/-- The first strand of a partition, of those ready: the one with the greatest wait count once that has reached the bound, else the first by the
key (R163, R164). -/
def State.firstOf (s : State) (l : List (Gang × Nat)) : Option (Gang × Nat) := (s.longest l).or (s.firstByKey l)

/-- Two strands' slice sets are disjoint (R19, R165). -/
def disjointSlices (a b : LaneMask) : Bool := (slicesOf a).all fun n => !(slicesOf b).contains n

/-- The strands a partition selects in this cycle, of those ready: the first, and the second, which comes first by the key among those
whose slice sets are disjoint from the first's (R19, R163 to R165). `busy` are strands that published latencies or issue costs hold. -/
def State.picks (s : State) (core part : Nat) (busy : List (GKey × Nat)) : List (Gang × Nat) :=
  let l := (s.readyIn core part).filter fun p => !busy.contains (p.1.key, p.2)
  match s.firstOf l with
  | none => []
  | some a => a :: (s.firstByKey (l.filter fun p => disjointSlices (p.1.strandAt p.2).mask (a.1.strandAt a.2).mask)).toList

/-- The strands of a partition that this issue cycle tries: those of active gangs that could issue, unless there is but one, which need
not be tried before it issues. -/
def State.candidates (s : State) (core part : Nat) (busy : List (GKey × Nat)) : List (GKey × Nat) :=
  let l := ((s.partGangs core part).filter (·.active)).flatMap fun g =>
    ((List.range 16).filter fun k => s.couldIssue g k && !busy.contains (g.key, k)).map fun k => (g.key, k)
  match l with
  | [(g, k)] => if ((s.gangAt g).strandAt k).own = 0 then [] else l
  | _ => l

/-- Strands are tried, and enter the waits their instructions begin. -/
def State.tryAll (ex : Instr → State → Outcome State Fault Refusal) (s : State) (l : List (GKey × Nat)) : State :=
  l.foldl (fun s p => s.modGang p.1 fun g => g.modStrand p.2 fun _ => s.tried ex (s.gangAt p.1) p.2 true) s

/-- The strands of a partition that are ready and not selected: their wait counts, and their gangs' counters (R164, R410). -/
def State.passOver (s : State) (l : List (Gang × Nat)) : State :=
  let left (g : Gang) (k : Nat) : Bool := l.any fun p => p.1.key == g.key && p.2 == k
  s.modGangs (fun g => l.any fun p => p.1.key == g.key) fun g =>
    { g with
      strands := g.strands.zipIdx.map fun (st, k) => if left g k then { st with waitCount := st.waitCount + 1 } else st
      perf := smSet g.perf 3 (smGet g.perf 3 + 1) }

/-- A partition's selection: the strands passed over are counted, and the selected ones are named (R163 to R165). -/
def State.choose (s : State) (core part : Nat) (busy : List (GKey × Nat)) : State × List (GKey × Nat) :=
  let l := (s.readyIn core part).filter fun p => !busy.contains (p.1.key, p.2)
  let sel := (s.picks core part busy).map fun p => (p.1.key, p.2)
  (s.passOver (l.filter fun p => !sel.contains (p.1.key, p.2)), sel)

/-- The next instruction of a strand. -/
def State.nextInstr (s : State) (p : GKey × Nat) : Option Instr :=
  match ((s.coreAt p.1.core).windowBytes (s.gangAt p.1).team.ctx ((s.gangAt p.1).strandAt p.2).pc.toNat).map (decodeIn s.service) with
  | some (.ok (i, _)) => some i
  | _ => none

/-- When in its cycle an instruction acts: CLRMX and RDMX before the updates of other instructions that issue with them, a barrier arrival
in ascending GANGID, PERF after what it counts (R168, R324, R410). -/
def turnOf : Instr → Nat
  | .clrmx .. | .rdmx .. => 0
  | .bar .. | .bara .. | .sbar .. => 2
  | .perf .. => 3
  | _ => 1

/-- The order in which a core's selected instructions act: by their turn, then by partition, the first-selected first; arrivals by GANGID
(R168, R296, R324, R354). -/
def State.inTurnOrder (s : State) (l : List (GKey × Nat)) : List (GKey × Nat) :=
  let at' (n : Nat) : List (GKey × Nat) := l.filter fun p => (match s.nextInstr p with | some i => turnOf i | none => 1) == n
  at' 0 ++ at' 1 ++ (at' 2).insertionSort (fun p q => (s.gangAt p.1).gangId.toNat ≤ (s.gangAt q.1).gangId.toNat) ++ at' 3

/-- An attempt that waited leaves its reason with the strand. -/
def State.noteWait (before : Gang) (k : Nat) (t : State) : State :=
  if t.cur.key == before.key && waited before t then t.modStrand fun x => { x with own := t.codeOf before.key k x } else t

/-- A partition keeps which of the strands it selected have issued (R412). -/
def State.notePick (s : State) (p : GKey × Nat) (went : Bool) : State :=
  s.modPart p.1.core p.1.part fun q =>
    { q with selected := modWhere (fun x => x.g == p.1 && x.strand == p.2) (fun x => { x with went := went }) q.selected }

/-- The lines that selected strands issue from are used (R433). -/
def State.touchSelected (s : State) (core : Nat) (l : List (GKey × Nat)) : State :=
  l.foldl (fun s p => s.modCore core fun c =>
    c.touchLine (s.gangAt p.1).team.ctx (((s.gangAt p.1).strandAt p.2).pc.toNat / 32 * 32)) s

/-- Selected strands issue, one after the other (R165, R325). -/
def State.issueSelected (ex : Instr → State → Outcome State Fault Refusal) : List (GKey × Nat) → State → Outcome State Fault Refusal
  | [], s => .next s
  | p :: rest, s =>
    let g := s.gangAt p.1
    if g.key == p.1 && (g.strandAt p.2).valid && (g.strandAt p.2).state == .ready then
      match State.issueWith ex true p.1 p.2 (s.modPart p.1.core p.1.part fun q => { q with forced := none }) with
      | .next t => State.issueSelected ex rest ((t.noteWait g p.2).notePick p (t.cur.issueSeq != g.issueSeq))
      | o => o
    else State.issueSelected ex rest s

/-- The issue cycle of a core: in each partition the strands that could issue are tried, the first and the second are selected, the others
that are ready are passed over, and the selected ones issue. It comes once in a cycle, and not in a withheld one (R19, R162 to R165, R168,
R296, R452). -/
def State.issueCycle (ex : Instr → State → Outcome State Fault Refusal) (core : Nat) (busy : List (GKey × Nat)) (s : State) :
    Outcome State Fault Refusal :=
  if (s.coreAt core).issued == some s.clock || s.withheld then .next s
  else
    let s1 := (List.range 4).foldl (fun s q => s.tryAll ex (s.candidates core q busy)) s
    let (s2, sel) := (List.range 4).foldl (fun (acc : State × List (GKey × Nat)) q =>
      let (t, l) := acc.1.choose core q busy
      let picks := l.map fun p => ({ g := p.1, strand := p.2, pc := ((t.gangAt p.1).strandAt p.2).pc } : Pick)
      (t.modPart core q fun p => { p with selectedAt := some s.clock, selected := picks }, acc.2 ++ l)) (s1, [])
    State.issueSelected ex (s2.inTurnOrder sel)
      ((s2.touchSelected core sel).modCore core fun c => { c with issued := some s.clock, busy := busy })

/-! ### Active and pending sets (R166, R167) -/

/-- A gang can be swapped out: none of its live strands could go on; those of a gang the debugger holds are halted (R166, R205). -/
def Gang.swappable (g : Gang) : Bool :=
  g.halted || g.strands.all fun st => !st.valid || [.parked, .faultParked, .sleeping, .barWait, .halted].contains st.state

/-- A pending gang is ready: one of its strands would be if the gang were active (R166). -/
def State.pendingReady (s : State) (g : Gang) : Bool := !g.active && (List.range 16).any fun k => s.couldIssue g k && (g.strandAt k).own == 0

/-- The first of some gangs by age, then slot. -/
def oldest (l : List Gang) : Option Gang :=
  l.foldl (fun best g => match best with
    | some (b : Gang) => if [g.ageStamp.toNat, g.key.slot] < [b.ageStamp.toNat, b.key.slot] then some g else some b
    | none => some g) none

/-- A gang joins the active set: it can issue from the second cycle on (R166). -/
def State.bringIn (s : State) (g : GKey) : State := s.modGang g fun x =>
  { x with active := true, pendingFor := 0, strands := x.strands.map fun st => if st.valid then { st with notBefore := s.clock + 2 } else st }

/-- A gang leaves the active set. -/
def State.takeOut (s : State) (g : GKey) : State := s.modGang g fun x => { x with active := false, pendingFor := 0 }

/-- A partition makes its change of sets of this cycle (R166). -/
def State.swapped (s : State) (core part : Nat) : State := s.modPart core part fun p => { p with swapAt := some s.clock }

/-- GANG_SWAP: at most one change in a cycle (R166). -/
def execGangSwap (core part : Nat) (s : State) : Outcome State Fault Refusal :=
  let gs := s.partGangs core part
  match (if (atD (s.coreAt core).parts part Part.empty).swapAt = some s.clock then none else oldest (gs.filter s.pendingReady)) with
  | none => .next s
  | some p =>
    if (gs.filter (·.active)).length < activeRoom then .next ((s.bringIn p.key).swapped core part)
    else
      match (gs.filter fun g => g.active && g.swappable).foldl (fun best g => match best with
          | some (b : Gang) => if g.key.slot < b.key.slot then some g else some b
          | none => some g) none with
      | some a => .next (((s.takeOut a.key).bringIn p.key).swapped core part)
      | none => .next s

/-- Cycles a ready gang stays pending before it is brought in, and cycles it then keeps its place (R167). -/
def pendingBound : Nat := 2048
def broughtHold : Nat := 256

/-- The active gang that comes last by items 1 to 3 of the selection key, those just brought in aside (R167). -/
def State.lastActive (s : State) (gs : List Gang) : Option Gang :=
  let held (g : Gang) : Bool := match g.broughtIn with
    | some c => decide (s.clock.toNat < c.toNat + broughtHold)
    | none => false
  (gs.filter fun g => g.active && !held g).foldl (fun best g => match best with
    | some (b : Gang) => if (s.selKey b 0).take 3 < (s.selKey g 0).take 3 then some g else some b
    | none => some g) none

/-- FORCED_GANG_SWAP: of several gangs that have been ready so long, the oldest comes in (R167; which one, DESIGN CHOICE, assumption 99). -/
def execForcedGangSwap (core part : Nat) (s : State) : Outcome State Fault Refusal :=
  let gs := s.partGangs core part
  match oldest (gs.filter fun g => s.pendingReady g && decide (pendingBound ≤ g.pendingFor)), s.lastActive gs with
  | some p, some a =>
    .next (((s.takeOut a.key).bringIn p.key).modGang p.key fun g => { g with broughtIn := some s.clock })
  | _, _ => .next s

/-! ### Time (R46, R167, R187) -/

/-- A gang's counters after `n` cycles, in the active set or not: resident, in the active set (R410). -/
def Gang.countPerf (g : Gang) (n : Nat) (inSet : Bool) : Gang :=
  let add (m : SMap 64) (k n : Nat) : SMap 64 := smSet m k (smGet m k + BitVec.ofNat 64 n)
  { g with perf := add (add g.perf 1 n) 2 (if inSet then n else 0) }

/-- The counter as PERF delivers it: in a scalar register, nothing where a later instruction has written that (R45, R410). -/
def Gang.perfWrite (g : Gang) (r : PerfRead) (x : DWord) : Gang :=
  match r.d with
  | .s n => if r.part = 0 then g else g.wrScalar r.seq n.val x
  | _ => g.wr true r.d r.part fun _ => x

/-- A PERF reads its counter once its cycle has been counted, and with .clr the counter is then 0 (R410). -/
def Gang.perfRead (g : Gang) (r : PerfRead) : Gang :=
  let g1 := g.perfWrite r (smGet g.perf r.sel)
  if r.clr then { g1 with perf := smSet g1.perf r.sel 0 } else g1

/-- The PERFs of a cycle that has been counted, in the order they issued (R410). -/
def Gang.perfReadAll (g : Gang) : Gang := { g.perfReads.foldl Gang.perfRead g with perfReads := [] }

/-- A strand held by a shootdown: the translation of an access it would make, or of its next instruction (R198). -/
def State.strandHeld (s : State) (h : Shoot) (g : Gang) (st : Strand) : Bool :=
  st.fetching && !g.halted && !g.trapParked &&
    (st.heldVas.any (fun a => h.holds g.key.core g.team.ctx a.toNat) ||
      (((s.coreAt g.key.core).line g.team.ctx st.pc.toNat).isNone && h.holds g.key.core g.team.ctx st.pc.toNat))

/-- Strands and stores of a shootdown's cores held by it in a cycle (R198): loads, atomics and fetches by strand, stores by the
instruction whose check is held. -/
def State.heldCount (s : State) (h : Shoot) : Nat :=
  (s.allGangs.map fun g =>
    let strands := (g.strands.filter (s.strandHeld h g)).length
    let mine := (s.coreAt g.key.core).sq.filter fun e => e.who.g == g.key && e.kind.isStore
    let store := match (if mine.any (·.held) then none else mine.find? fun e => !e.checked) with
      | some e => mine.any fun x => x.who.seq == e.who.seq && x.accs.any fun a => h.holds g.key.core g.team.ctx a.va.toNat
      | none => false
    strands + if store then 1 else 0).sum

/-- Of `n` cycles from this one on, the withheld ones (R452). -/
def State.withheldOf (s : State) (n : Nat) : Nat := if s.withhold then (n + s.clock.toNat % 2) / 2 else 0

/-- The last of `n` cycles from this one on in which a pending gang has been ready without a break, up to the end: none before the first cycle in
which one of its strands may issue, and of the cycles of which the power limit withholds every second one at most the last (R162, R166,
R452). -/
def State.readyCycles (s : State) (g : Gang) (n : Nat) : Nat :=
  let s1 := { s with clock := s.clock + BitVec.ofNat 64 (n - 1) }
  let ready (k : Nat) : Nat :=
    if s1.couldIssue g k && (g.strandAt k).own == 0 then n - ((g.strandAt k).notBefore.toNat - s.clock.toNat) else 0
  let m := if g.active then 0 else (List.range 16).foldl (fun m k => Nat.max m (ready k)) 0
  if s.withhold then Nat.min m 1 else m

/-- How many cycles on end a pending gang has been ready, `n` cycles on (R167). -/
def State.pendingAfter (s : State) (g : Gang) (n : Nat) : Nat :=
  let m := s.readyCycles g n
  if m = n then g.pendingFor + n else m

/-- The die trees take in requests in each of `n` cycles; once none is left to take in, none comes (R142, R176). -/
def State.admitOver (s : State) (n : Nat) : State :=
  let t := (List.range (Nat.min n s.ornWait.length)).foldl (fun (t : State) k => { t with clock := s.clock + BitVec.ofNat 64 k }.enterTrees) s
  { t with clock := s.clock }

/-- The end of a cycle: strands are tried, and waits that are over end; signallers are as they now are; what is free can be taken in the
next cycle (R162, R183, R184, R296). -/
def State.cycleEnd (ex : Instr → State → Outcome State Fault Refusal) (s : State) : State :=
  s.modGangs (fun _ => true) fun g =>
    { g with strands := g.strands.zipIdx.map fun (st, k) => s.signalled g (if s.mayTry g k then s.tried ex g k false else st) }.opened

/-- The ready strands of a gang that the debugger has halted are halted from the next cycle (R20, R228, R409). -/
def Gang.halting (g : Gang) : Gang :=
  if g.halted then { g with strands := g.strands.map fun st => if st.valid && st.state == .ready then { st with state := .halted } else st }
  else g

/-- Cycles pass: CLOCK, the gangs' counters, how long ready gangs have been pending, the runtime of resident teams with no halted gang,
what shootdowns hold, the admissions of the die trees, the cycles withheld (R46, R142, R167, R187, R188, R198, R452). -/
def State.pass (ex : Instr → State → Outcome State Fault Refusal) (n : Nat) (s : State) : State :=
  if n = 0 then s
  else
    let s0 := s.cycleEnd ex
    let here (g : Gang) : Bool := g.active || g.strands.any fun st => st.valid && st.issued == s0.clock + 1
    let wait (g : Gang) : Gang :=
      { (g.halting.countPerf 1 (here g)).perfReadAll.countPerf (n - 1) g.active with pendingFor := s0.pendingAfter g n }
    let run (t : Team) : Team :=
      if t.preempted || (s0.teamGangs t.key).any (·.halted) then t else { t with runtime := t.runtime + n }
    let s1 := (s0.modGangs (fun _ => true) wait).admitOver n
    { s1 with
      clock := s1.clock + BitVec.ofNat 64 n
      teams := s1.teams.map run
      shoots := s0.shoots.map fun h => { h with stalled := h.stalled + BitVec.ofNat 64 (n * s0.heldCount h) }
      strata := { s1.strata with pwrhold := s1.strata.pwrhold + s0.withheldOf n } }

end Sys2Proof.Machine
end

