-- ==== Sys2Proof/Machine/System.lean ====
section
/-! DEFINITION. Traps, halts, counters and sampling (R407 to R412), and what a debug session does (R205 to R207, R408). -/

namespace Sys2Proof.Machine

open Host (Outcome)

/-! ### TRAP, BKPT, HALT (R407 to R409) -/

/-- TRAP (R407). -/
def execTrap (h : Hdr2) (code : Word) (s : State) : Outcome State Fault Refusal :=
  issue (.trap h code) noGate (fun part s =>
    if part = 0 then .done s else .trap ⟨causeTrap, 0xFF, code.setWidth 64, part, false⟩) s

/-- BKPT (R408). -/
def execBkpt (h : Hdr) (code : BitVec 8) (s : State) : Outcome State Fault Refusal :=
  issue (.bkpt h code) noGate (fun part s =>
    if part = 0 then .done s else .trap ⟨causeBreakpoint, 0xFF, code.setWidth 64, part, false⟩) s

/-- A debug session holds the context's right (R205). -/
def State.inDebug (s : State) (ctx : Nat) : Bool := match s.ctxAt ctx with | some x => x.debug != 0 | none => false

/-- A halted gang goes on, and its halted strands are ready again. -/
def Gang.unhalt (g : Gang) : Gang :=
  { g with halted := false, strands := g.strands.map fun st => if st.state == .halted then { st with state := .ready } else st }

/-- A gang of a team, resident or saved, is halted for the session of its context, which keeps the order (R207, R222, R226). -/
def State.haltOf (s : State) (g : GKey) (t : TKey) : State :=
  match s.gangOf g t with
  | none => s
  | some k =>
    if k.halted then s
    else (s.onGang g t fun k => { k with halted := true }).modCtx t.ctx fun x => { x with haltOrder := x.haltOrder ++ [(g, t)] }

/-- The same of the gang at a place. -/
def State.haltGang (s : State) (g : GKey) : State := s.haltOf g (s.gangAt g).team

/-- HALT: with a debug session the gang is halted for it; without one it has no effect (R409). -/
def execHalt (h : Hdr) (s : State) : Outcome State Fault Refusal :=
  issue (.halt h) noGate (fun part s =>
    if part ≠ 0 ∧ s.inDebug s.cur.team.ctx then .done (s.haltGang s.cur.key) else .done s) s

/-! ### PERF (R410) -/

/-- What the cycle of PERF itself still adds to a counter, where the gang issues nothing else in it: the instruction, the cycle, the cycle in the
active set; whether another strand was ready and not selected in it, the issue cycle has counted before its instructions issue (R410). -/
def perfNow (sel : Nat) : DWord :=
  if sel = 3 then 0 else 1

/-- PERF: the destination holds the counter with this cycle in it; once the cycle is over and all it did has been counted, `Gang.perfReadAll` brings
the destination up to that, and with .clr the counter to 0 (R410). -/
def execPerf (h : Hdr) (clr : Bool) (sel : Fin 4) (d : Reg) (s : State) : Outcome State Fault Refusal :=
  issue (.perf h clr sel d) noGate (fun part s =>
    if part = 0 then .done s
    else
      .done (s.modCur fun g =>
        { g.wr true d part fun _ => smGet g.perf sel.val + perfNow sel.val with
          perfReads := g.perfReads ++ [{ seq := g.issueSeq + 1, sel := sel.val, clr := clr, d := d, part := part }] })) s

/-! ### SAMPCTL and SAMPLE (R411, R412) -/

/-- A context's sampling state on the issuing partition. -/
def State.mySamp (s : State) : Option Samp :=
  ((s.myCore.parts[s.cur.key.part]?).bind fun p => p.samp.find? fun x => x.ctx == s.cur.team.ctx)

/-- Sampling of the issuing context on its partition is replaced. -/
def State.setSamp (s : State) (x : Samp) : State :=
  s.modPart s.cur.key.core s.cur.key.part fun p => { p with samp := p.samp.filter (fun y => y.ctx != x.ctx) ++ [x] }

/-- SAMPCTL.start: the period comes from the lowest lane of Part, as R390 and R394 have it for their operands (R411; DEDUCED, log entry 123). -/
def execSampctlStart (h : Hdr) (a : Reg) (s : State) : Outcome State Fault Refusal :=
  issue (.sampctlStart h a) noGate (onceFor fun l part s =>
    let x := s.cur.rd32 a l
    match (s.ctxAt s.cur.team.ctx).bind (·.sbuf) with
    | none => .trap (.form part)
    | some (base, _) =>
      if x = 0 ∨ x.extractLsb' 16 16 ≠ 0#16 then .trap (.form part)
      else
        .done (s.setSamp
          { ctx := s.cur.team.ctx, running := true, period := x.toNat, start := s.clock, ptr := base, drop := 0, last := 15, seen := s.clock
            late := match s.mySamp with | some y => y.late | none => [] })) s

/-- Sampling that stops in a cycle: a sample of that cycle is still taken (R432). -/
def Samp.stop (x : Samp) (clock : DWord) : Samp := { x with running := false, stopAt := if x.running then some clock else x.stopAt }

/-- SAMPCTL.stop: the records already taken stand written (R411). -/
def execSampctlStop (h : Hdr) (s : State) : Outcome State Fault Refusal :=
  issue (.sampctlStop h) noGate (onceFor fun _ _ s =>
    match s.mySamp with
    | some x => .done (s.setSamp (x.stop s.clock))
    | none => .done s) s

/-- SAMPCTL.drop (R411). -/
def execSampctlDrop (h : Hdr) (d : Reg) (s : State) : Outcome State Fault Refusal :=
  issue (.sampctlDrop h d) noGate (fun part s =>
    let x : Word := match s.mySamp with
      | some x => x.drop
      | none => 0
    .done (s.modCur fun g => g.wr32 d part fun _ => x)) s

/-- The sample reason of a strand that did not issue (R162). -/
def State.reason (s : State) (g : Gang) (k : Nat) : Nat :=
  let st := g.strandAt k
  if g.halted || st.state == .halted then 11
  else if !g.active then 6
  else if st.state == .sleeping then 7
  else if st.state == .faultParked || g.trapParked || st.state == .parked then 2
  else if st.state == .joinWait || st.state == .memJoinWait then 3
  else if st.state == .barWait then 4
  else if ((s.coreAt g.key.core).line g.team.ctx st.pc.toNat).isNone then
    (if s.heldBy g.key.core g.team.ctx st.pc.toNat then 8 else 5)
  else if s.latent g k then 1
  else if st.heldVas.any (fun a => s.heldBy g.key.core g.team.ctx a.toNat) || s.launchFull g k then 8
  else if st.own = 0 then 1 else st.own

/-- The lowest-ranked of some strand slots of a gang. -/
def Gang.lowest (g : Gang) (ok : Nat → Bool) : Option Nat :=
  ((List.range 16).filter fun k => (g.strandAt k).valid && ok k).foldl (fun best k => match best with
    | some j => if (g.strandAt k).rank < (g.strandAt j).rank then some k else some j
    | none => some k) none

/-- The strand a sample of a gang names, whether the gang issued in this cycle, and the PC: the one selected first of those that issued, else the
lowest-ranked that was ready and not selected, else the lowest-ranked live one (R412). -/
def State.sampled (s : State) (g : Gang) : Nat × Bool × VAddr :=
  let p := atD (s.coreAt g.key.core).parts g.key.part Part.empty
  let first := if p.selectedAt = some s.clock then p.selected.find? fun x => x.g == g.key && x.went else none
  match first, g.lowest fun k => (g.strandAt k).issued == s.clock + 1 with
  | some x, _ => (x.strand, true, x.pc)
  | none, some k => (k, true, (g.strandAt k).issuedPc)
  | none, none => let k := ((g.lowest (s.ready g)).or (g.lowest fun _ => true)).getD 0; (k, false, (g.strandAt k).pc)

/-- A stall-sample record of 16 bytes (R412). -/
def sampleBytes (clock : DWord) (waits issued : Bool) (reason strand : Nat) (g : GKey) (pc : VAddr) : List Byte :=
  let w1 := (if waits then 2 ^ 23 else 0) + (if issued then 2 ^ 22 else 0) + reason * 2 ^ 18 + strand * 2 ^ 14 + g.slot * 2 ^ 10 +
    g.part * 2 ^ 8 + g.core
  leBytes (clock.toNat % 2 ^ 32) 4 ++ leBytes w1 4 ++ leBytes pc.toNat 8

/-- A record goes to the buffer, or is discarded and counted (R412); one with no translation is discarded, one on a page that another device owns
waits in its place (DESIGN CHOICE, log entry 126). -/
def State.writeSample (s : State) (core : Nat) (x : Samp) (limit : Nat) (bs : List Byte) : State × Samp :=
  let drop := if x.drop = 0xFFFFFFFF#32 then x.drop else x.drop + 1
  if limit < x.ptr + 16 then (s, { x with drop := drop })
  else
    match s.translate core x.ctx (BitVec.ofNat 64 x.ptr) .write with
    | (t, s1) =>
      match noDevice t with
      | .ok pa _ =>
        if s1.ownsPage pa then (s1.homeStore pa bs, { x with ptr := x.ptr + 16 })
        else (s1.wantPage pa, { x with ptr := x.ptr + 16, late := x.late ++ [(pa, bs)] })
      | _ => (s1, { x with ptr := x.ptr + 16, drop := drop })

/-- A context's sample of this cycle on a partition (R412). -/
def State.takeSample (s : State) (core part : Nat) (x : Samp) : State :=
  let due := (x.running || x.stopAt == some s.clock) && x.seen != s.clock && (s.clock.toNat - x.start.toNat) % x.period == 0
  let gs := (s.partGangs core part).filter fun g => g.team.ctx == x.ctx
  let next := ((List.range 16).map fun k => (x.last + 1 + k) % 16).findSome? fun n => gs.find? fun g => g.key.slot == n
  match (if due then next else none), (s.ctxAt x.ctx).bind (·.sbuf) with
  | some g, some (base, limit) =>
    let (k, issued, pc) := s.sampled g
    let waits := (List.range 16).any fun j => s.ready g j && (g.strandAt j).issued != s.clock + 1
    let bs := sampleBytes s.clock waits issued (if issued then 0 else s.reason g k) k g.key pc
    let (s1, y) := s.writeSample core { x with last := g.key.slot, seen := s.clock } (base + limit) bs
    s1.modPart core part fun p => { p with samp := modWhere (fun z => z.ctx == x.ctx) (fun _ => y) p.samp }
  | _, _ => s

/-- The records of a context that waited for their page are written once this device owns it (R150, R412). -/
def State.lateSamples (s : State) (core part : Nat) (x : Samp) : State :=
  (x.late.filter fun r => s.ownsPage r.1).foldl (fun s r => s.homeStore r.1 r.2) (s.modPart core part fun p =>
    { p with samp := modWhere (fun z => z.ctx == x.ctx) (fun z => { z with late := z.late.filter fun r => !s.ownsPage r.1 }) p.samp })

/-- SAMPLE (R412). -/
def execSample (core part : Nat) (s : State) : Outcome State Fault Refusal :=
  let samps (s : State) : List Samp := (atD (s.coreAt core).parts part Part.empty).samp
  let s1 := ((samps s).filter fun x => !x.late.isEmpty).foldl (fun s x => s.lateSamples core part x) s
  .next ((samps s1).foldl (fun s x => s.takeSample core part x) s1)

/-! ### Debug sessions (R188, R205 to R208, R408) -/

/-- A debug request under no right, or for a session that is closed, is refused with status 1 (R205, R207, R457; DEDUCED, log entry 125). -/
def State.refuseDebug (s : State) : State := { s with dbgAnswers := s.dbgAnswers ++ [1] }

/-- A debug request for a context: it is carried out under the context's debug right, and refused without (R205, R457). -/
def State.debugged (s : State) (ctx : Nat) (t : State) : Outcome State Fault Refusal := .next (if s.inDebug ctx then t else s.refuseDebug)

/-- DEBUG_HALT: a gang of a team, resident or saved (R205, R226). -/
def execDebugHalt (g : GangRef) (s : State) : Outcome State Fault Refusal := s.debugged g.team.ctx (s.haltOf g.key g.team)

/-- A strand's wait counts from this cycle (R188). -/
def Strand.waitAgain (st : Strand) (clock : DWord) : Strand :=
  if st.wait.kind == .none then st else { st with wait := { st.wait with since := clock.setWidth 32, began := clock } }

/-- A gang of a team, resident or saved, goes on; with the last halted gang of its team the SINCE fields of the team's waits become this
cycle (R188). -/
def State.resumeOf (s : State) (g : GKey) (t : TKey) : State :=
  let s1 := (s.onGang g t Gang.unhalt).modCtx t.ctx fun x => { x with haltOrder := x.haltOrder.filter (· != (g, t)) }
  let saved := match s1.teamAt t with | some x => x.saved.map (·.gang) | none => []
  if (s1.teamGangs t ++ saved).any (·.halted) then s1
  else s1.modTeamGangs t fun k => { k with strands := k.strands.map fun st => st.waitAgain s.clock }

/-- The same of the gang at a place. -/
def State.resumeHalted (s : State) (g : GKey) : State := s.resumeOf g (s.gangAt g).team

/-- DEBUG_RESUME: a halted gang of a team, resident or saved (R205, R226). -/
def execDebugResume (g : GangRef) (s : State) : Outcome State Fault Refusal :=
  s.debugged g.team.ctx (if (s.gangOf g.key g.team).any (·.halted) then s.resumeOf g.key g.team else s)

/-- DEBUG_PARTITION_STOP: every gang of the partition is halted in this cycle, and the dump is taken; the right must cover every
resident gang (R205, R206). -/
def execDebugPartitionStop (core part : Nat) (s : State) : Outcome State Fault Refusal :=
  let gs := s.partGangs core part
  let ok := match gs with
    | g :: rest => s.inDebug g.team.ctx && rest.all fun h => h.team.ctx == g.team.ctx
    | [] => false
  if !ok then .next s.refuseDebug
  else
    let c := s.coreAt core
    let d : Dump := { core := core, part := part, gangs := gs, entries := c.sq.filter (fun e => e.who.g.part == part), blocks := c.blocks, ub := c.ub }
    let s1 := gs.foldl (fun s g => s.haltGang g.key) { s with dumps := s.dumps ++ [d] }
    .next (s1.modPart core part fun p => { p with stopped := gs.head?.map fun g => g.team.ctx })

/-- DEBUG_PARTITION_RESUME: the session that holds the right of the stopped context resumes every gang of it there, in one cycle (R205,
R206). -/
def execDebugPartitionResume (core part : Nat) (s : State) : Outcome State Fault Refusal :=
  match (atD (s.coreAt core).parts part Part.empty).stopped.filter s.inDebug with
  | none => .next s.refuseDebug
  | some n =>
    let mine : List (GKey × TKey) := match s.ctxAt n with
      | some x => x.haltOrder.filter fun p => p.1.core == core && p.1.part == part
      | none => []
    .next (mine.foldl (fun s p => s.resumeOf p.1 p.2) (s.modPart core part fun p => { p with stopped := none }))

/-- A debug session's write to a gang (R205). -/
def Gang.debugWrite (k : Gang) (clock : DWord) (w : DbgWrite) : Gang :=
  match w with
  | .v n l x => if n < k.nregs ∧ l < 32 then { k with v := setV k.v n l x } else k
  | .s n x => if n < 63 then { k with s := smSet k.s n x } else k
  | .p n l x => if n < 47 ∧ l < 32 then k.wrP n (laneBit l) (if x then laneBit l else 0) else k
  | .m n x => if n < 12 then k.setMaskReg (clock + 2) n (x &&& k.live) else k
  | .pc n x => k.modStrand n fun st => if st.valid then { st with pc := x } else st
  | .strand n x => k.modStrand n fun st => st.ofLayout x
  | .fork n x => { k with forks := modAt k.forks n fun f => f.ofLayout x }
  | .mem _ _ => k

/-- DEBUG_WRITE_STATE: the session writes a register, a slot of the strand or fork table as R228 and R229 lay them out, or a byte of memory
mapped by the context, whose page this device asks for first where another owns it (R150, R205). -/
def execDebugWriteState (g : GangRef) (w : DbgWrite) (s : State) : Outcome State Fault Refusal :=
  s.debugged g.team.ctx (match w with
    | .mem va x =>
      match s.translate g.key.core g.team.ctx (BitVec.ofNat 64 va) .read with
      | (r, s1) =>
        match noDevice r with
        | .ok pa _ => if s1.ownsPage pa then s1.homeStore pa [x] else s1.wantPage pa
        | _ => s1
    | w => s.onGang g.key g.team fun k => k.debugWrite s.clock w)

/-- Lines of a context that hold an address leave every instruction buffer (R199, R222). -/
def State.dropLines (s : State) (asid va n : Nat) : State :=
  { s with cores := s.cores.map fun c => { c with ibuf := c.ibuf.filter fun l => !(l.asid == asid && overlaps l.va 32 va n) } }

/-- The physical address of code of a context, by its page table (R194). -/
def State.codePa (s : State) (ctx va : Nat) : Option Nat :=
  (s.ctxAt ctx).bind fun x => (walk s.mem va 4 (x.root * 4096)).map fun p => physOf p.1 p.2 va

/-- The eight bytes of BKPT 0xFF (R408). -/
def bkptBytes : List Byte := (encode (.bkpt ⟨⟨false, 47⟩, false, false⟩ 0xFF)).flatMap fun w => leBytes w.toNat 4

/-- Where a breakpoint stands, on a page that is held meanwhile too (R207, R408). -/
def State.brkPa (s : State) (ctx : Nat) (b : Brk) : Option Nat :=
  (s.codePa ctx b.va).or ((s.ctxAt ctx).bind fun x => (pageOf s.mem b.va 4 (x.root * 4096)).map fun p => physOf p.2 p.1.size b.va)

/-- A breakpoint of a context that stands on a page another device owns (R150). -/
def State.brkAway (s : State) (x : Ctx) : Option Nat := (x.breaks.filterMap fun b => s.brkPa x.num b).find? fun pa => !s.ownsPage pa

/-- A breakpoint's instruction is put back (R207, R408). -/
def State.unbreak (s : State) (ctx : Nat) (b : Brk) : State :=
  match s.brkPa ctx b with
  | some pa => ((s.homeStore pa (leBytes b.old.toNat 8)).dropLines ctx b.va 8)
  | none => s

/-- DEBUG_SET_BREAKPOINT: BKPT 0xFF is written over the instruction, or what it replaced is put back; the page is asked for first where another
device owns it (R150, R205, R408). -/
def execDebugSetBreakpoint (ctx va : Nat) (set : Bool) (s : State) : Outcome State Fault Refusal :=
  let known := (s.ctxAt ctx).bind fun x => x.breaks.find? fun b => b.va == va
  s.debugged ctx (match set, known with
    | true, none =>
      match s.codePa ctx va with
      | none => s
      | some pa =>
        if !s.ownsPage pa then s.wantPage pa
        else
          let b : Brk := { va := va, old := smDWord s.mem pa }
          ((s.homeStore pa bkptBytes).dropLines ctx va 8).modCtx ctx fun x => { x with breaks := x.breaks ++ [b] }
    | false, some b =>
      match (s.brkPa ctx b).filter fun pa => !s.ownsPage pa with
      | some pa => s.wantPage pa
      | none => (s.unbreak ctx b).modCtx ctx fun x => { x with breaks := x.breaks.filter (fun c => c.va != va) }
    | _, _ => s)

/-! ### What a debug session reads (R205, R422) -/

/-- The physical address of a byte of memory mapped by a context. -/
def State.dbgPa (s : State) (ctx va : Nat) : Option Nat := s.codePa ctx va

/-- A home value: bytes of memory mapped by the context, as the home holds them. No merge, recall, drain or fill is caused (R422). -/
def State.dbgHome (s : State) (ctx va n : Nat) : Option (List Byte) :=
  ((List.range n).map fun k => (s.dbgPa ctx (va + k)).map fun pa => smGet s.mem pa).mapM id

/-- The home directory entry of the sector of an address; 0 where the home keeps none (R132, R422). -/
def State.dbgDir (s : State) (ctx va : Nat) : Option (List Byte) :=
  (s.dbgPa ctx va).map fun pa => leBytes (match s.dirs.find? fun d => d.sector == pa / 32 with | some d => d.layout | none => 0) 40

/-- A core's update-only block of the sector of an address: its tag, then its partials, then which words have contributed; nothing where the core
holds none (R121, R135, R422). -/
def State.dbgBlock (s : State) (ctx va core : Nat) : Option (List Byte) :=
  (s.dbgPa ctx va).map fun pa =>
    match (s.coreAt core).ub.find? fun u => u.sector == pa / 32 with
    | some u => leBytes ((s.coreAt core).ubTag u) 8 ++ u.parts.flatMap (fun p => leBytes p.x.toNat (32 / u.parts.length)) ++
        leBytes (pack (u.parts.map fun p => (1, bit p.set))) 1
    | none => []

/-- What a debug session's read gives: its context, and the bytes. -/
def State.dbgBytes (s : State) (r : DbgRead) : Nat × Option (List Byte) :=
  let reg (g : GKey) (t : TKey) (f : Gang → List Byte) : Nat × Option (List Byte) := (t.ctx, (s.gangOf g t).map f)
  match r with
  | .v g t n l => reg g t fun k => leBytes (k.vr n l).toNat 4
  | .s g t n => reg g t fun k => leBytes (smGet k.s n).toNat 8
  | .p g t n => reg g t fun k => leBytes (k.pmask n).toNat 4
  | .m g t n => reg g t fun k => leBytes (k.maskReg n).toNat 4
  | .strand g t n => reg g t fun k => leBytes (k.strandAt n).layout 80
  | .fork g t n => reg g t fun k => leBytes (k.forkAt n).layout 72
  | .home ctx va n => (ctx, s.dbgHome ctx va n)
  | .dir ctx va => (ctx, s.dbgDir ctx va)
  | .block ctx va core => (ctx, s.dbgBlock ctx va core)

/-- A debug session reads: nothing of the device changes but what it has been given (R205, R422). -/
def State.dbgRead (s : State) (r : DbgRead) : Outcome State Fault Refusal :=
  let (ctx, bytes) := s.dbgBytes r
  s.debugged ctx (match bytes with | some bs => { s with hostReads := s.hostReads ++ [bs] } | none => s)

/-! ### One step for a debug session (R326) -/

/-- DEBUG_STEP: the strand of a halted gang is to issue one instruction, in no group; the step function lets it issue
(R326). -/
def execDebugStep (g : GKey) (strand : Nat) (s : State) : Outcome State Fault Refusal :=
  s.debugged (s.gangAt g).team.ctx (if (s.gangAt g).halted then { s with stepping := some (g, strand) } else s)

/-- The stepped strand issues, unless its team is past its pre-emption point; not in a cycle in which the power limit withholds issue: it waits
for the next (R226, R326, R452). -/
def State.runStepped (ex : Instr → State → Outcome State Fault Refusal) (s : State) : Outcome State Fault Refusal :=
  match (if s.withheld then none else s.stepping) with
  | none => .next s
  | some (g, k) =>
    let s1 := { s with stepping := none }
    let st := (s1.gangAt g).strandAt k
    if (s1.gangAt g).key == g && st.valid && (st.state == .ready || st.state == .halted) && !(s1.gangAt g).trapParked && !s1.leaving (s1.gangAt g).team then State.issueWith ex false g k s1
    else .next s1

end Sys2Proof.Machine
end

