-- ==== Sys2Proof/Machine/Devices.lean ====
section
/-! DEFINITION. Shootdowns and page-table entries as Grotto writes them (R194, R197 to R199, R204); pages that pass between
devices (R149 to R153); Tether links and routes (R208, R447, R448). -/

namespace Sys2Proof.Machine

open Host (Outcome)

/-! ### The translation log (R204) -/

/-- Records the translation log holds. -/
def tlogRoom : Nat := 65536

/-- A record joins the log with the next sequence number; a full log loses its oldest record, counted in LOGLOST (R204). -/
def State.logXl (s : State) (r : TLog) : State :=
  let full := decide (tlogRoom ≤ s.tlog.length)
  { s with
    tlog := (if full then s.tlog.tail else s.tlog) ++ [{ r with seq := s.tlogSeq }]
    tlogSeq := s.tlogSeq + 1
    logLost := if full then s.logLost + 1 else s.logLost }

/-- The kind-1 record of an entry written now (R204). -/
def State.logEntry (s : State) (x : Ctx) (va len : Nat) (val : DWord) : State :=
  s.logXl { kind := 1, ctx := x.field, cores := 0, va := va, len := len, stalled := 0, start := s.clock, fin := s.clock, value := val, seq := 0 }

/-! ### Shootdowns (R197 to R199) -/

/-- A shootdown takes its point: the translations of the range leave the named cores and their dies, and the accesses translated
before it are those it waits for, but for a load behind an entry of its thread whose check the shootdown itself holds (R197; assumption
25); a load that an earlier one left behind is still to be translated afresh. `code` says that it takes execution away or adds writing (R199). -/
def State.shootdown (s : State) (x : Ctx) (va len : Nat) (code : Bool) : State :=
  let named (c : Nat) : Bool := x.coreset.getLsbD c
  let hit (a : LaneAcc) : Bool := a.ok && overlaps va len a.va.toNat a.size
  let sq := s.cores.flatMap fun c =>
    if named c.num then
      ((c.sq ++ c.gone).filter fun e => e.who.ctx == x.num && e.accs.any hit).map fun e => (c.num, e.id)
    else []
  let behind (r : OrnReq) : Bool := (s.coreAt r.core).sq.any fun e =>
    r.after.contains e.id && !e.checked && e.accs.any fun a => overlaps va len a.va.toNat a.size
  let mine (r : OrnReq) : Bool := named r.core && r.who.ctx == x.num && r.accs.any hit
  let orn := ((s.ornWait ++ s.orn).filter fun r => mine r && !behind r && !r.late).map (·.id)
  let out (t : Tlb) : Bool := t.asid == x.num && overlaps va len t.va t.size
  let strip (c : Core) : Core := if named c.num then { c with tlb := c.tlb.filter fun t => !out t } else c
  let s1 := { s with
    ornWait := modWhere (fun r => mine r && behind r) (fun r => { r with late := true }) s.ornWait
    cores := s.cores.map strip
    dieTlb := s.dieTlb.filter fun p => !(out p.2 && (List.range 64).any fun k => named (64 * p.1 + k)) }
  { s1 with
    shoots := s1.shoots ++ [{ asid := x.num, ctx := x.field, va := va, len := len, cores := x.coreset, start := s.clock,
                              xRemoved := code, waitSq := sq, waitOrn := orn, stalled := 0 }] }

/-- Everything a shootdown waits for is over (R197). -/
def State.shootDone (s : State) (h : Shoot) : Bool :=
  h.waitSq.all (fun p => !((s.coreAt p.1).sq ++ (s.coreAt p.1).gone).any fun e => e.id == p.2) &&
    h.waitOrn.all fun id => !(s.ornWait ++ s.orn).any fun r => r.id == id

/-- How many cores a set names. -/
def coreCount (m : BitVec 256) : Nat := ((List.range 256).filter fun c => m.getLsbD c).length

/-- Instruction-buffer lines of a range leave the named cores (R199). -/
def State.dropCode (s : State) (h : Shoot) : State :=
  let strip (c : Core) : Core :=
    if h.cores.getLsbD c.num then { c with ibuf := c.ibuf.filter fun l => !(l.asid == h.asid && overlaps h.va h.len l.va 32) } else c
  { s with cores := s.cores.map strip }

/-- SHOOTDOWN_COMPLETE: the oldest shootdown completes, in the order of the points, and its record is written (R197 to R199,
R204). -/
def execShootdownComplete (s : State) : Outcome State Fault Refusal :=
  match s.shoots with
  | [] => .next s
  | h :: rest =>
    if !s.shootDone h then .next s
    else
      let s1 := { s with shoots := rest }
      let s2 := if h.xRemoved then s1.dropCode h else s1
      .next (s2.logXl { kind := 2, ctx := h.ctx, cores := coreCount h.cores, va := h.va, len := h.len, stalled := h.stalled,
                        start := h.start, fin := s.clock, value := 0, seq := 0 })

/-! ### Page-table entries (R194, R204) -/

/-- Where the entry of a level for an address lies, from a table of `n` down; none where a table above it is missing. -/
def entryAt (m : SMap 8) (va level : Nat) : Nat → Nat → Option Nat
  | 0, base => if level = 0 then some (base + 8 * vaIndex va 0) else none
  | n + 1, base =>
    if level = n + 1 then some (base + 8 * vaIndex va (n + 1))
    else
      let p := smDWord m (base + 8 * vaIndex va (n + 1))
      if !ptePresent p || pteLeaf p then none else entryAt m va level n (ptePfn p * 4096)

/-- An entry of a level maps a page (R194). -/
def isLeafAt (level : Nat) (p : DWord) : Bool := level == 0 || (decide (level ≤ 2) && pteLeaf p)

/-- Changing an entry takes execution away or adds writing, so that lines of its range must go (R199); a table replaced counts
as both. -/
def codeChange (level : Nat) (old new : DWord) : Bool :=
  if isLeafAt level old && isLeafAt level new then
    (ptePresent old && pteExec old && !(ptePresent new && pteExec new)) ||
      (!(ptePresent old && pteWrite old) && ptePresent new && pteWrite new)
  else ptePresent old

/-- One entry written at the home and logged; none where its table is missing (R194, R204). -/
def State.setEntry (s : State) (x : Ctx) (va level : Nat) (val : DWord) : Option State :=
  (entryAt s.mem va level 4 (x.root * 4096)).map fun pa =>
    (s.homeStore pa (leBytes val.toNat 8)).logEntry x (va / levelSize level * levelSize level) (levelSize level) val

/-- The entry of a level for an address; 0 where its table is missing. -/
def State.entryOf (s : State) (x : Ctx) (va level : Nat) : DWord :=
  match entryAt s.mem va level 4 (x.root * 4096) with
  | some pa => smDWord s.mem pa
  | none => 0

/-- The level of the entries that map pages of a size (R194). -/
def pageLevel (size : Nat) : Nat := if size = 4096 * 512 * 512 then 2 else if size = 4096 * 512 then 1 else 0

/-- Every entry of a page written: the sixteen members of a 64 KiB page alike (R194). -/
def State.setPage (s : State) (x : Ctx) (p : Page) (val : DWord) : State :=
  (List.range (if p.size = 65536 then 16 else 1)).foldl (fun s k => (s.setEntry x (p.va + 4096 * k) (pageLevel p.size) val).getD s) s

/-- The same for a context. -/
def State.pageAt (s : State) (x : Ctx) (va : Nat) : Option (Page × DWord) := pageOf s.mem va 4 (x.root * 4096)

/-! ### Pages between devices (R149 to R153) -/

/-- A page of another device's memory, numbered here, from its number there (R193). -/
def remotePage (dev page : Nat) : Nat := (512 + dev) * 2 ^ 26 + page

/-- The directory entry of a page homed here: owned by this device where none is kept; while it owns the page, RELREC says whether it
holds release records for it (R149). -/
def State.pageDirAt (s : State) (page : Nat) : PageDir :=
  let d := (s.pageDirs.find? fun d => d.page == page).getD { page := page, st := 0, owner := s.devNum, relrec := false, xfer := 0 }
  if d.owner = s.devNum then { d with relrec := s.rel.any fun r => r.word / 16384 == page } else d

/-- Words that a drain has just written home go on to the home devices of their pages, each of which is to say that it has received them (R151,
R153): the numbers of these writes come with the state. -/
def State.sendHome (s : State) (ws : List Nat) : State × List Nat :=
  (ws.filter fun w => isRemote (4 * w) && devOf (4 * w) != s.devNum).foldl (fun acc w =>
    let (id, s1) := acc.1.fresh
    (s1.send (devOf (4 * w)) (.homeWrite id (4 * w % 2 ^ 42) (smBytes s1.mem (4 * w) 4)), acc.2 ++ [id])) (s, [])

/-- Change a page's directory entry. -/
def State.modPageDir (s : State) (page : Nat) (f : PageDir → PageDir) : State :=
  { s with pageDirs := f (s.pageDirAt page) :: s.pageDirs.filter fun d => d.page != page }

/-- Every word of some that a core owns dirty or clean is written home and its ownership ends: those registered, and then those whose registration
is still to come, which the write makes (R104, R105, R151). -/
def State.bringHome (s : State) (some' : Nat → Bool) : State :=
  let s1 := s.dirs.foldl (fun s d => d.owners.foldl (fun s o => (sectorWords d.sector).foldl (fun s w =>
    if o.mask.getLsbD (w % 8) && some' w then s.writeBack o.core w .valid else s) s) s) s
  s1.cores.foldl (fun s c => ((c.wordsIn .dirty).filter some').foldl (fun s w => s.writeBack c.num w .valid) s) s1

/-- An engine has still to write words of a page: the page stays until it has, as an access to such a word does (R146; DEDUCED, log entry 130). -/
def State.engineKeeps (s : State) (page : Nat) : Bool := s.dirs.any fun d => d.sector / 2048 == page && d.eng.isSome

/-- Every update-only sector of a page merges, the cores of its release records drain, its dirty words go home, all ownership of it
ends and all copies of it leave the device (R150, R151); with the numbers of the writes to other devices that the drain has made. -/
def State.clearPage (s : State) (page : Nat) : State × List Nat :=
  let inSec (sec : Nat) : Bool := sec / 2048 == page
  let inWord (w : Nat) : Bool := w / 16384 == page
  let s1 := ((s.dirs.filter fun d => inSec d.sector && d.uTag != 0).map (·.sector)).foldl (fun s c => s.mergeNow c) s
  let named (c : Nat) : Bool := s1.rel.any fun r => inWord r.word && r.cores.getLsbD c
  let (s2, ids) := ((List.range 256).filter named).foldl (fun (acc : State × List Nat) c =>
    let (t, ids) := (acc.1.drainCore c).sendHome (((acc.1.coreAt c).wordsIn .dirty).filter fun w => !inWord w)
    (t, acc.2 ++ ids)) ({ s1 with rel := s1.rel.filter fun r => !inWord r.word }, [])
  let s3 := s2.bringHome inWord
  let strip (c : Core) : Core :=
    let c1 := c.mapView fun w v => if inWord w then none else some v
    { c1 with cpath := c1.cpath.filter fun p => !inWord p.1, tpath := c1.tpath.filter fun p => !inWord p.1 }
  let free (d : Dir) : Dir := if inSec d.sector then { d with eng := none } else d
  ({ s3 with cores := s3.cores.map strip, dirs := (s3.dirs.map free).filter (·.inUse), l2 := s3.l2.filter fun b => b.frame / 128 != page }, ids)

/-- The bytes of a page that are not 0, by their place in it. -/
def State.pageBytes (s : State) (page : Nat) : List (Nat × Byte) :=
  (s.mem.filter fun p => p.1 / 65536 == page).map fun p => (p.1 % 65536, p.2)

/-- A page's memory takes the bytes received for it. -/
def State.putPage (s : State) (page : Nat) (bs : List (Nat × Byte)) : State :=
  { s with mem := bs.foldl (fun m p => smSet m (page * 65536 + p.1 % 65536) p.2) (s.mem.filter fun p => p.1 / 65536 != page) }

/-- The device that waits first for a page is to gain it. This device clears what it still holds of the page and owns it; another device is sent the
page, and STATE and OWNER name it once it has taken it (R150, R153). -/
def State.grantPage (s : State) (page : Nat) : State :=
  match s.pageWaits.find? fun w => w.1 == page with
  | none => s
  | some (_, dev) =>
    let s1 := { s with pageWaits := s.pageWaits.eraseP fun w => w.1 == page }
    if dev = s.devNum then
      (s1.clearPage page).1.modPageDir page fun d => { d with st := 0, owner := dev, relrec := false, xfer := (d.xfer + 1) % 2 ^ 20, granted := none }
    else (s1.modPageDir page fun d => { d with granted := some dev }).send dev (.pageGrant page (s1.pageBytes page))

/-- A device has gained a page that it was sent: STATE and OWNER name it (R150). -/
def State.pageGained (s : State) (dev page : Nat) : State :=
  s.modPageDir page fun d =>
    if d.granted = some dev then { d with st := 1, owner := dev, relrec := false, xfer := (d.xfer + 1) % 2 ^ 20, granted := none } else d

/-- PAGE_OWNERSHIP_REQUEST: the directory takes the request that waits first for a page: STATE becomes 2, and an owner that is
another device is asked to give the page up (R150). -/
def execPageOwnershipRequest (page dev : Nat) (s : State) : Outcome State Fault Refusal :=
  let d := s.pageDirAt page
  match s.pageWaits.find? fun w => w.1 == page with
  | none => .next s
  | some (_, first) =>
    if first ≠ dev ∨ d.st = 2 then .next s
    else if d.owner = dev then .next { s with pageWaits := s.pageWaits.eraseP fun w => w.1 == page }
    else
      let s1 := s.modPageDir page fun d => { d with st := 2 }
      .next (if d.owner = s.devNum then s1 else s1.send d.owner (.pageRecall page))

/-- This device is to give up a page: one of another device that is asked back, or one homed here that it owns and another device waits for
(R150, R151). -/
def State.mustGive (s : State) (page : Nat) : Bool :=
  if isRemote (page * 65536) then s.pageRecalls.contains page && s.ownedRemote.contains page
  else
    let d := s.pageDirAt page
    d.st == 2 && d.owner == s.devNum && d.granted.isNone

/-- A page given up, once every write of its drain has been received, goes back to its home device, or on to the device that waits for it
(R151, R153). -/
def State.pageGone (s : State) (page : Nat) : State :=
  let s0 := { s with giving := s.giving.filter fun g => g.1 != page }
  if isRemote (page * 65536) then
    let s1 := s0.send (devOf (page * 65536)) (.pageReturn (page % 2 ^ 26) (s0.pageBytes page))
    { s1 with
      ownedRemote := s1.ownedRemote.filter (· != page)
      pageRecalls := s1.pageRecalls.filter (· != page)
      relTold := s1.relTold.filter (· != page)
      mem := s1.mem.filter fun p => p.1 / 65536 != page }
  else s0.grantPage page

/-- PAGE_GIVE_UP: this device merges, drains and writes back a page it owns, once no engine has words of it still to write; when the devices its
drain has written to have received that, it no longer owns the page (R146, R151, R153). -/
def execPageGiveUp (page : Nat) (s : State) : Outcome State Fault Refusal :=
  if !s.mustGive page || s.engineKeeps page then .next s
  else
    match s.giving.find? fun g => g.1 == page with
    | some (_, []) => .next (s.pageGone page)
    | some _ => .next s
    | none =>
      let (s1, ids) := s.clearPage page
      let s2 := { s1 with giving := s1.giving ++ [(page, ids)] }
      .next (if ids.isEmpty then s2.pageGone page else s2)

/-- A home device has received a write that a drain made (R151). -/
def State.homeWritten (s : State) (id : Nat) : State := { s with giving := s.giving.map fun g => (g.1, g.2.filter (· != id)) }

/-- This device holds release records for words of a page (R149). -/
def State.holdsRecords (s : State) (page : Nat) : Bool := s.rel.any fun r => r.word / 16384 == page

/-- The home device of a page this device owns learns whether there are release records for its words (R149: RELREC). -/
def State.tellRelRec (s : State) : State :=
  let s1 := (s.ownedRemote.filter fun p => !s.relTold.contains p && s.holdsRecords p).foldl
    (fun s p => { s with relTold := s.relTold ++ [p] }.send (devOf (p * 65536)) (.relRec (p % 2 ^ 26) true)) s
  (s1.relTold.filter fun p => !s1.holdsRecords p).foldl
    (fun s p => { s with relTold := s.relTold.filter (· != p) }.send (devOf (p * 65536)) (.relRec (p % 2 ^ 26) false)) s1

/-! ### Tether (R208, R447, R448) -/

/-- Change a link. -/
def State.modLink (s : State) (k : Nat) (f : Link → Link) : State := { s with links := modAt s.links k f }

/-- A link is up (R447). -/
def State.linkUp (s : State) (k : Nat) : Bool :=
  match s.links[k]? with
  | some l => l.state == 2 || l.state == 3
  | none => false

/-- Flits a link's replay buffer holds (R447). -/
def replayRoom : Nat := 256

/-- Some flits of a transaction leave on a link: each spends a buffer of its channel and joins the replay buffer (R447). -/
def Link.spend (l : Link) (b : FlitBody) (n : Nat) : Link :=
  let kept := l.kept ++ List.replicate n b
  { l with
    reqFree := if isDataFlit b then l.reqFree else l.reqFree - n
    dataFree := if isDataFlit b then l.dataFree - n else l.dataFree
    kept := kept.drop (kept.length - replayRoom) }

/-- Some flits of a transaction leave, as far as its link has buffers; with what is left of it (R447, R448). A device beyond the link's far end is
named in the transaction, which has passed one link there. -/
def State.sendSome (s : State) (o : Outgoing) : State × Option Outgoing :=
  match (o.link.filter s.linkUp).or (s.routeTo o.dev) with
  | none => (s, some o)
  | some k =>
    let l := atD s.links k Link.empty
    let left := if o.link = some k then o.left else flitsOf o.body
    let n := Nat.min left (if isDataFlit o.body then l.dataFree else l.reqFree)
    let b : FlitBody := match o.body with
      | .through .. => o.body
      | b => if l.peer = o.dev then b else .through s.devNum o.dev 1 b
    let s1 := s.modLink k fun l => l.spend b n
    if n = left then ({ s1 with sent := s1.sent ++ [⟨k, o.dev, b⟩] }, none) else (s1, some { o with left := left - n, link := some k })

/-- What is ready leaves, in order for each device; what finds no link up or no buffer waits, and what follows it to the same device with it
(R447, R448). -/
def State.sendOut (s : State) : State :=
  let step (acc : State × List Outgoing) (o : Outgoing) : State × List Outgoing :=
    if acc.2.any fun x => x.dev == o.dev then (acc.1, acc.2 ++ [o])
    else
      match acc.1.sendSome o with
      | (t, none) => (t, acc.2)
      | (t, some o') => (t, acc.2 ++ [o'])
  let (t, rest) := s.outbox.foldl step ({ s with outbox := [] }, [])
  { t with outbox := rest }

/-- A link's receiver has freed buffers of a channel (R447). -/
def State.credit (s : State) (link : Nat) (data : Bool) (n : Nat) : State :=
  s.modLink link fun l => if data then { l with dataFree := Nat.min 128 (l.dataFree + n) } else { l with reqFree := Nat.min 64 (l.reqFree + n) }

/-- The old value of a forwarded atomic has come: it goes to its register, and the entry may be complete (R48, R111, R152). -/
def State.atomicAnswer (s : State) (dev id : Nat) (old : DWord) : State :=
  match s.fwd.find? fun f => f.id == id && f.dev == dev with
  | none => s
  | some f =>
    let acq : Bool := match f.entry with
      | some e => (s.coreAt f.core).gone.any fun x => x.id == e && (x.order == .acq || x.order == .ar)
      | none => false
    let s1 := { s with fwd := s.fwd.filter fun x => x.id != id }
    let s2 := if acq then s1.invalidateCore f.core else s1
    let s3 := s2.sendBack f.core f.who (loadWrites f.who f.dst f.ty [(f.acc, leBytes old.toNat f.acc.size)])
    let s4 := match f.entry with
      | some e => s3.entryDone f.core e
      | none => s3
    s4.endAccess f.who

/-- What a transaction for this device does (R150 to R152). -/
def State.takeFlit (s : State) (dev : Nat) (b : FlitBody) : State :=
  match b with
  | .pageRequest page => { s with pageWaits := s.pageWaits ++ [(page, dev)] }
  | .pageGrant page bs =>
    let p := remotePage dev page
    let s1 := (s.clearPage p).1.putPage p bs
    { s1 with ownedRemote := s1.ownedRemote ++ [p], pageAsked := s1.pageAsked.filter (· != p) }.send dev (.pageGained page)
  | .pageRecall page =>
    let p := remotePage dev page
    if s.ownedRemote.contains p || s.pageAsked.contains p then { s with pageRecalls := s.pageRecalls ++ [p] } else s
  | .pageReturn page bs =>
    let d := s.pageDirAt page
    if d.owner = dev ∧ d.st = 2 ∧ d.granted = none then (s.putPage page bs).grantPage page else s
  | .relRec page held => s.modPageDir page fun d => if d.owner = dev then { d with relrec := held } else d
  | .homeWrite id pa bs =>
    (if (s.pageDirAt (pa / 65536)).owner = dev then (s.putHome pa bs).l2Take (pa / 32) else s).send dev (.homeWritten id)
  | .homeWritten id => s.homeWritten id
  | .pageGained page => s.pageGained dev page
  | .forwarded id pa pin op x y order =>
    { s with remoteOps := s.remoteOps ++ [{ id := id, dev := dev, pa := pa % 2 ^ 42, op := op, x := x, y := y, order := order, pin := pin }] }
  | .atomicReply id old => s.atomicAnswer dev id old
  | .through .. | .nothing => s

/-- The links a route passes at most (R448). -/
def linkLimit : Nat := 4

/-- A transaction in transit is forwarded on the route to its device, or fails where none is up or it has passed four links; one that has come to
its device is its sender's (R448). -/
def State.receive (s : State) (dev : Nat) (b : FlitBody) : State :=
  match b with
  | .through src dst links b =>
    if dst = s.devNum then s.takeFlit src b
    else if links < linkLimit ∧ (s.routeTo dst).isSome then s.send dst (.through src dst (links + 1) b)
    else s
  | b => s.takeFlit dev b

/-- A device number is a member's (R208). -/
def State.isMember (s : State) (dev : Nat) : Bool := decide (dev < 320) && s.members.getLsbD dev

/-- Whether a transaction's sender belongs to this device's domain: the neighbour whose flit it is, and the device it began at (R208). -/
def State.fromMember (s : State) (f : Flit) : Bool :=
  f.domain == s.domain && s.isMember f.dev && (match f.body with | .through src .. => s.isMember src | _ => true)

/-- FLIT_RECEIVE: a flit whose CRC fails has no effect and is replayed; a transaction from outside the domain is counted and
discarded; any other is delivered or passed on (R208, R447, R448). -/
def execFlitReceive (f : Flit) (s : State) : Outcome State Fault Refusal :=
  if !s.linkUp f.link || !f.crcOk then .next s
  else if !s.fromMember f then .next (s.modLink f.link fun l => { l with tdrop := if l.tdrop = 0xFFFF#16 then l.tdrop else l.tdrop + 1 })
  else .next (s.receive f.dev f.body)

/-- FLIT_REPLAY: the sender's replay buffer sends a flit that it holds again, and the link counts it (R447). -/
def execFlitReplay (link : Nat) (s : State) : Outcome State Fault Refusal :=
  if s.linkUp link && !(atD s.links link Link.empty).kept.isEmpty then
    .next (s.modLink link fun l => { l with replay := if l.replay = 0xFFFFFFFF#32 then l.replay else l.replay + 1 })
  else .next s

/-- LINK_LANE_FAILURE: `lanes` lanes are left; from eight the link drops to four, and below four it goes down (R447). -/
def execLinkLaneFailure (link lanes : Nat) (s : State) : Outcome State Fault Refusal :=
  if !s.linkUp link then .next s
  else
    .next (s.modLink link fun l =>
      if lanes < 4 then { l with lanes := 0, state := 0 }
      else if lanes < l.lanes then { l with lanes := 4, state := 3 } else l)

/-- LINK_TRAINING: a link that is down or in training comes up with eight lanes, in full service alone (R439, R440, R447). -/
def execLinkTraining (link peer : Nat) (s : State) : Outcome State Fault Refusal :=
  if s.service = .full ∧ !s.linkUp link ∧ peer < 320 then
    .next (s.modLink link fun l => { l with peer := peer, lanes := 8, state := 2, reqFree := 64, dataFree := 128, kept := [] })
  else .next s

/-- A transaction to a device is in flight: one that has not left whole, one whose flits the receiver of the old route's link has not freed, an
operation forwarded there, a page asked of it, or one it is giving up (R448). -/
def State.inFlightTo (s : State) (dev : Nat) : Bool :=
  let old : BitVec 18 := atD s.routes dev 0
  s.outbox.any (fun o => o.dev == dev) ||
    s.links.zipIdx.any (fun p => old.getLsbD p.2 && (decide (p.1.reqFree < 64) || decide (p.1.dataFree < 128))) || s.fwd.any (fun f => f.dev == dev) || s.pageAsked.any (fun p => devOf (p * 65536) == dev) ||
    s.pageDirs.any fun d => d.st == 2 && d.owner == dev

/-- ROUTE_REWRITE: a route changes once nothing is in flight on the old one (R448). -/
def execRouteRewrite (dev : Nat) (mask : BitVec 18) (s : State) : Outcome State Fault Refusal :=
  if s.inFlightTo dev then .next s else .next { s with routes := modAt s.routes dev fun _ => mask }

end Sys2Proof.Machine
end

