-- ==== Sys2Proof/Machine/Recovery.lean ====
section
/-! DEFINITION. Recovery (R185 to R191, R213 to R231, R424 to R430): termination, Grotto's answers to records, page repair, lazy
binding, pre-emption and resumption, time slices, the hang walk, the runtime limit. -/

namespace Sys2Proof.Machine

open Host (Outcome)

/-! ### Events (R444) -/

/-- A record goes to a context's event queue with the next sequence number (R444). -/
def State.postEvent (s : State) (kind : Nat) (r : FRec) (g : GKey) (strand : Nat) (t : TKey) : State :=
  s.modCtx t.ctx fun x =>
    { x with
      waiting := x.waiting ++ [{ kind := kind, seq := x.eventSeq, clock := 0, fr := r, g := g, strand := strand, team := t }]
      eventSeq := x.eventSeq + 1 }

/-! ### Termination (R148, R224, R225) -/

/-- A gang whose threads have all ended at once: its registers, tables, queues and engine state are gone (R224). -/
def Gang.ended (g : Gang) : Gang :=
  { Gang.empty with
    key := g.key, team := g.team, ctxField := g.ctxField, gangId := g.gangId, nregs := g.nregs, launched := g.launched,
    resident := g.resident, ageStamp := g.ageStamp, active := g.active }

/-- The team's open barriers await a terminated gang's threads no more; an instance whose arrivals then suffice completes (R225). -/
def State.barsAfterEnd (s : State) (t : TKey) (g : Gang) : State :=
  (List.range 16).foldl (fun s n =>
    let b := s.barAt t n
    if b.kind == .idle then s
    else
      let late := (lanesOf g.live).filter fun l => !b.arrived.getLsbD (g.gangId.toNat * 32 + l)
      (s.modBar t n fun b => { b with expect := b.expect - late.length }).checkBar t n none) s

/-- A view word as it was before a store of the bytes of a mask, which held `o`; where a later store, not complete either, wrote the word too, its
bytes stay. -/
def undoWord (o : Option VWord) (mask : BitVec 4) (later : Bool) (v : VWord) : Option VWord :=
  if !later then o
  else
    let b := o.getD { st := .valid, x := 0, written := 0, known := 0 }
    some { v with
      x := mixWord mask b.x v.x
      written := (v.written &&& ~~~ mask) ||| (b.written &&& mask), known := (v.known &&& ~~~ mask) ||| (b.known &&& mask) }

/-- A retired store that is discarded leaves the view: each of its words that is not registered holds again what it held before, in the view and in
what later stores have kept of it (R104, R224). -/
def State.unstore (s : State) (core : Nat) (e : SQEntry) : State :=
  let own (w : Nat) : Bool := (s.ornWait ++ s.orn).any fun r => r.entry == some e.id && r.open core w
  (e.old.filter fun p => own p.1).foldl (fun s (w, o) =>
    let step (acc : List SQEntry × BitVec 4 × Bool) (y : SQEntry) : List SQEntry × BitVec 4 × Bool :=
      if y.id ≤ e.id || !y.old.any (fun p => p.1 == w) then (acc.1 ++ [y], acc.2)
      else
        let f (v : Option VWord) : Option VWord := if acc.2.2 then v.bind (undoWord o acc.2.1 true) else o
        (acc.1 ++ [{ y with old := modWhere (fun p => p.1 == w) (fun p => (w, f p.2)) y.old }], acc.2.1 &&& ~~~ (wordWrite y.accs w).1, true)
    let (gone, mask, later) := (s.coreAt core).gone.foldl step ([], (wordWrite e.accs w).1, false)
    s.modCore core fun k => { k.modView w (undoWord o mask later) with gone := gone.filter fun x => x.id != e.id }) s

/-- What accesses and commands of a gang are still under way leave the queues, the ORN, the banks and the engines (R224). -/
def State.dropAccesses (s : State) (k : GKey) (t : TKey) : State :=
  let keep (w : Who) : Bool := !(w.g == k && w.team == t)
  let here := (s.gangAt k).team == t
  let strip (c : Core) : Core :=
    { c with
      sq := c.sq.filter fun e => keep e.who
      gone := c.gone.filter fun e => keep e.who
      spq := c.spq.filter fun r => keep r.who
      inflight := c.inflight.filter fun f => !(here && f.g == k)
      resv := c.resv.filter fun r => !(here && r.g == k)
      mxTurn := c.mxTurn.filter fun x => !(here && x.g == k), engIn := c.engIn.filter fun x => !(here && x.g == k)
      ces := c.ces.map fun e => { e with queue := e.queue.filter fun x => keep x.who } }
  let s0 := (((s.coreAt k.core).gone.filter fun e => !keep e.who).reverse).foldl (fun s e => s.unstore k.core e) s
  { s0 with
    ornWait := s.ornWait.filter fun r => keep r.who
    orn := s.orn.filter fun r => keep r.who
    watches := s.watches.filter fun w => keep w.who
    fwd := s.fwd.filter fun f => keep f.who
    todo := s.todo.filter fun d => !(d.taken && d.g == k && d.team == t)
    cores := s0.cores.map strip }

/-- The claimed words of a gang's accepted commands at an engine of its core. -/
def State.gangClaims (s : State) (g : Gang) (eng : Nat) : List Nat :=
  if eng = 0 then g.mq.flatMap (·.words)
  else (((s.coreAt g.key.core).ces[eng - 1]?).map fun e =>
    (e.queue.filter fun c => c.who.g == g.key && c.who.team == g.team).flatMap (·.words)).getD []

/-- The TOB ranges a gang of a pre-empted team saved are released: its save area is discarded (R224, R231). -/
def State.dropSaved (s : State) (k : GKey) (t : TKey) : State :=
  s.modTeam t fun x => { x with saved := modWhere (fun v => v.gang.key == k) (fun v => { v with resv := [] }) x.saved }

/-- GANG_TERMINATION (R148, R224, R225): the gang leaves its team's barriers and ends; what its accesses have not completed is
discarded, and the engines clear its unwritten words. A pre-empted team with no gang left counts as exited (R190). -/
def State.terminate (s : State) (k : GKey) (t : TKey) : State :=
  match s.gangOf k t with
  | none => s
  | some g =>
    if g.live = 0 then s
    else
      let s1 := (((s.barsAfterEnd t g).onGang k t Gang.ended).dropSaved k t).dropAccesses k t
      let s2 := (List.range 3).foldl (fun s' eng => s'.clearClaims k.core eng (s.gangClaims g eng)) s1
      let s3 := s2.modCtx t.ctx fun x => { x with haltOrder := x.haltOrder.filter (· != (k, t)) }
      match s3.teamAt t with
      | some x => if x.preempted && x.saved.all fun v => v.gang.live == 0 then s3.countExit t else s3
      | none => s3

/-- Grotto terminates a gang, with its final record to the event queue; one that has ended already has had its own (R224). -/
def State.kill (s : State) (r : FRec) (g : GKey) (strand : Nat) (t : TKey) : State :=
  match s.gangOf g t with
  | none => s
  | some k => if k.live = 0 then s else (s.postEvent 4 r g strand t).terminate g t

/-! ### Going on after a fault (R218, R220, R221, R222) -/

/-- With no record left that stops it, a gang is trap parked no more (R231). -/
def State.goOn (s : State) (g : GKey) (t : TKey) : State :=
  let stops (store : Bool) (r : FRec) : Bool := store || causeStopsGang (r.w0.extractLsb' 0 8).toNat
  let more := s.todo.any (fun d => d.g == g && d.team == t && !d.done && stops d.store d.fr) ||
    s.pendRecs.any fun p => p.g == g && p.team == t && !p.done && stops p.store p.fr
  if more then s else s.onGang g t fun k => { k with trapParked := false }

/-- A record has had its answer: it waits for none any more, and one that Grotto has not read yet stays in its queue until it is (R216). -/
def State.settleRec (s : State) (seq : Word) : State :=
  { s with
    todo := modWhere (fun d => d.seq == seq) (fun d => { d with done := true, due := none }) (s.todo.filter fun d => !(d.seq == seq && d.taken)) }

/-- A record of a gang is answered, and the gang goes on unless another one stops it (R231). -/
def State.unpark (s : State) (seq : Word) (g : GKey) (t : TKey) : State := (s.settleRec seq).goOn g t

/-- The engine command a record names, stopped at the record's address, goes on from its progress (R221). -/
def State.restartEngine (s : State) (d : Todo) : State :=
  let hit (w : Who) (va : Nat) : Bool :=
    w.g == d.g && w.team == d.team && w.strand == d.strand && w.pc.setWidth 64 == d.fr.w45 && va == d.fr.w23.toNat
  let s1 := s.onGang d.g d.team fun k =>
    { k with
      mq := k.mq.map fun c => if hit c.who c.stopVa then { c with faulted := false } else c
      slice := if hit k.slice.who k.slice.stopVa then { k.slice with stopped := false } else k.slice }
  s1.modCore d.g.core fun c =>
    { c with ces := c.ces.map fun e => { e with queue := e.queue.map fun x => if hit x.who x.stopVa then { x with faulted := false } else x } }

/-- The held entries of a store fault are to be checked again, and the gang goes on (R218, R429). -/
def State.retryStore (s : State) (d : Todo) : State :=
  let s1 := s.modCore d.g.core fun c =>
    { c with sq := c.sq.map fun e => if e.who.g == d.g && e.who.team == d.team then { e with held := false } else e }
  (s1.onGang d.g d.team fun k => { k with storeFault := false }).unpark d.seq d.g d.team

/-- The resume command reaches what a record stopped: a store is retried, an engine command restarted, a strand issues its
instruction again (R218, R220, R221). -/
def State.resumeOne (s : State) (d : Todo) : State :=
  if d.store then s.retryStore d
  else
    let s1 := s.settleRec d.seq
    if (d.fr.w0.extractLsb' 0 8).toNat = causeEngineRow then s1.restartEngine d
    else s1.onGang d.g d.team fun k =>
      if (k.strandAt d.strand).state == .faultParked && (k.strandAt d.strand).faultVa == d.fr.w23 then k.resumeStrand d.strand else k

/-- A record of a translation fault, which waits for its page (R430). -/
def Todo.ofPage (d : Todo) : Bool :=
  let cause := (d.fr.w0.extractLsb' 0 8).toNat
  d.store || decide (1 ≤ cause ∧ cause ≤ 4) || cause == causeEngineRow

/-- RESUME_COMMAND: what is stopped on a page goes on, one record per cycle from `c` on, in ascending fault sequence number
(R220, R430). -/
def State.resumePage (s : State) (ctx : Nat) (p : Page) (c : DWord) : State :=
  let step (acc : List Todo × Nat) (d : Todo) : List Todo × Nat :=
    if d.ofPage && !d.done && d.team.ctx == ctx && d.due.isNone && p.has d.fr.w23.toNat then
      (acc.1 ++ [{ d with due := some (c + BitVec.ofNat 64 acc.2) }], acc.2 + 1)
    else (acc.1 ++ [d], acc.2)
  { s with todo := (s.todo.foldl step ([], 0)).1 }

/-- Resumptions whose cycle has come, in order (R220). -/
def State.resumeDue (s : State) : State :=
  (s.todo.filter fun d => match d.due with | some c => decide (c ≤ s.clock) | none => false).foldl (fun s d => s.resumeOne d) s

/-! ### Grotto's answers (R213, R222, R430) -/

/-- What an access of a record wants of its page. -/
def Todo.want (d : Todo) : Want :=
  if (d.fr.w0.extractLsb' 8 8).toNat = 3 then .fetch else if d.write || d.store then .write else .read

/-- A page joins the repair queue unless it is there (R427). -/
def State.queueRepair (s : State) (ctx : Nat) (p : Page) (cow : Bool) : State :=
  if s.repairs.any fun r => r.ctx == ctx && r.page == p then s
  else { s with repairs := s.repairs ++ [{ ctx := ctx, page := p, cow := cow }] }

/-- The failed access was to a scratchpad window or the command page (R430): of a store by its held entry, of an access slice by its stream, of
another but a fetch by the instruction at the record's PC. -/
def State.ofWindow (s : State) (d : Todo) : Bool :=
  if d.store then
    (s.coreAt d.g.core).sq.any fun e => e.who.g == d.g && e.who.team == d.team && e.held &&
      (match e.kind with | .remoteSts _ | .command => true | _ => false)
  else if (d.fr.w0.extractLsb' 0 8).toNat = causeEngineRow then
    (match s.gangOf d.g d.team with
     | some g => g.slice.stopped && g.slice.stopVa == d.fr.w23.toNat && ((g.slice.streams[g.slice.q]?).map (·.sp)).getD false
     | none => false)
  else if (d.fr.w0.extractLsb' 8 8).toNat = 3 then false
  else
    match (s.codePa d.team.ctx d.fr.w45.toNat).map fun pa => decodeBytes (smBytes s.mem pa 16) with
    | some (.ok (i, _)) => (match i with | .lds _ | .sts _ | .ldsRemote .. | .stsRemote .. | .atoms _ | .atomsRemote .. => true | _ => false)
    | _ => false

/-- The answer to a translation fault, once the owner has its copy of the record, by the state of its page, first row that applies; an
address outside the space, or of a device that cannot be reached, has no page that permits the access (R244, R430, R448). -/
def State.byPage (s : State) (x : Ctx) (d : Todo) : State :=
  let va := d.fr.w23.toNat
  let stop := s.kill d.fr d.g d.strand d.team
  if x.held.any (·.has va) then s
  else
    match x.deferred.find? (·.has va) with
    | some p => s.queueRepair x.num p false
    | none =>
      match (if va < 2 ^ 57 then s.pageAt x va else none) with
      | none => stop
      | some (p, pte) =>
        if ptePresent pte && pteCow pte && d.want == .write then s.queueRepair x.num p true
        else
          match s.reach (checkPte (some x) { asid := x.num, va := p.va, size := p.size, pte := pte } d.want va) with
          | .ok _ _ => s.resumePage x.num p s.clock
          | _ => stop

/-- The copy of a record that the owner of a held or deferred page gets: of one whose page was such when the access failed, or is now (R424,
R426). -/
def State.copyRecord (s : State) (d : Todo) : State :=
  if d.copy || s.keptPage d.team.ctx d.fr.w23.toNat then s.postEvent (if d.store then 2 else 1) d.fr d.g d.strand d.team else s

/-- The answer to a translation fault (R424, R426, R430). -/
def State.answerPage (s : State) (d : Todo) : State :=
  match s.ctxAt d.team.ctx with
  | none => s
  | some x => if s.ofWindow d then s.kill d.fr d.g d.strand d.team else (s.copyRecord d).byPage x d

/-- The answer to a TRAP or a breakpoint (R213, R222): a lazy-binding code waits for its symbol, a breakpoint halts the gang for the
session that holds the right, anything else goes to the owner. -/
def State.answerTrap (s : State) (d : Todo) : State :=
  let bkpt := (d.fr.w0.extractLsb' 0 8).toNat == causeBreakpoint
  if bkpt && s.inDebug d.team.ctx then (s.haltOf d.g d.team).unpark d.seq d.g d.team
  else if !bkpt && d.fr.w23.getLsbD 31 then s
  else s.postEvent 5 d.fr d.g d.strand d.team

/-- GROTTO_FAULT_ANSWER: Grotto takes the oldest record it has not read and answers it (R213, R222, R430). A record of a gang that is
gone is read and answered by nothing, and so is one that a resume command has answered before, but for the owner's copy. -/
def execGrottoFaultAnswer (s : State) : Outcome State Fault Refusal :=
  match (if s.grottoUp then s.todo.find? (fun d => !d.taken) else none) with
  | none => .next s
  | some d =>
    let s0 := { s with
      faultQ := s.faultQ.tail
      storeQ := if d.store then s.storeQ.tail else s.storeQ
      storeRead := if d.store then s.storeRead + 1 else s.storeRead
      todo := modWhere (fun x => x.seq == d.seq) (fun x => { x with taken := true }) s.todo }
    let drop (s : State) : State := { s with todo := s.todo.filter fun x => x.seq != d.seq }
    let cause := (d.fr.w0.extractLsb' 0 8).toNat
    match s0.gangOf d.g d.team with
    | none => .next (drop s0)
    | some g =>
      if g.live = 0 ∨ (cause = causePromiseMiss ∧ ¬ d.store) then .next (drop s0)
      else if d.done then .next (drop (if d.ofPage && d.copy then s0.copyRecord d else s0))
      else if d.ofPage then .next (s0.answerPage d)
      else if cause = causeTrap ∨ cause = causeBreakpoint then .next (s0.answerTrap d)
      else .next ((drop s0).kill d.fr d.g d.strand d.team)

/-! ### Page repair (R424, R426, R427) -/

/-- A page in place of another: the entry's PFN (R194). -/
def ptePfnTo (p : DWord) (pa : Nat) : DWord :=
  (p &&& ~~~ (BitVec.ofNat 64 ((2 ^ 40 - 1) * 4096))) ||| BitVec.ofNat 64 (pa / 4096 % 2 ^ 40 * 4096)

/-- The bits of an entry that name its frame and its size: the size bits and the PFN (R194). -/
def frameMask : DWord := BitVec.ofNat 64 ((2 ^ 40 - 1) * 4096 + 6)

/-- A held or deferred page is present again: P set, the frame it had in PFN, its other fields as they stand (R424, R426; what request 3 has made
of them meanwhile is left: DEDUCED, log 124). -/
def State.mapKept (s : State) (x : Ctx) (p : Page) : State :=
  let now := s.entryOf x p.va (pageLevel p.size)
  let val := match x.backing.find? fun b => b.1 == p with
    | some b => (now &&& ~~~ frameMask) ||| (b.2 &&& frameMask) ||| 1#64
    | none => now ||| 1#64
  (s.setPage x p val).modCtx x.num fun y => { y with backing := y.backing.filter fun b => b.1 != p }

/-- What agents hold of a physical range is merged and written home, and no copy of it stays. -/
def State.gather (s : State) (pa n : Nat) : State :=
  let inSec (sec : Nat) : Bool := decide (pa ≤ sec * 32 ∧ sec * 32 < pa + n)
  let inWord (w : Nat) : Bool := decide (pa ≤ w * 4 ∧ w * 4 < pa + n)
  let s1 := ((s.dirs.filter fun d => inSec d.sector && d.uTag != 0).map (·.sector)).foldl (fun s c => s.mergeNow c) s
  let s2 := s1.bringHome inWord
  let strip (c : Core) : Core :=
    let c1 := c.mapView fun w v => if inWord w && v.st != .dirty then none else some v
    { c1 with cpath := c1.cpath.filter fun p => !inWord p.1, tpath := c1.tpath.filter fun p => !inWord p.1 }
  { s2 with cores := s2.cores.map strip }

/-- The contents of a physical range copied to another. -/
def smCopy (m : SMap 8) (src dst n : Nat) : SMap 8 :=
  let from' := m.filter fun p => decide (src ≤ p.1 ∧ p.1 < src + n)
  let rest := m.filter fun p => !decide (dst ≤ p.1 ∧ p.1 < dst + n)
  from'.foldl (fun m p => smSet m (p.1 - src + dst) p.2) rest

/-- A copy-on-write page is copied to a frame Grotto chooses, and the copy is mapped writable; the old translations are shot down
(R197, R427; assumption 22). Data that is an uncorrectable error stays one (R234). -/
def State.copyPage (s : State) (x : Ctx) (p : Page) (pte : DWord) : State :=
  let (n, s1) := s.tick
  let dst := Config.freeChoice n % (hbmEnd / p.size) * p.size
  let src := physOf pte p.size p.va
  let s2 := (s1.gather src p.size).gather dst p.size
  let inside (base sec : Nat) : Bool := decide (base / 32 ≤ sec ∧ sec < (base + p.size) / 32)
  let bad := (s2.poison.filter (inside src)).map fun sec => sec - src / 32 + dst / 32
  let s3 := { s2 with mem := smCopy s2.mem src dst p.size, poison := (s2.poison.filter fun sec => !inside dst sec) ++ bad }
  let val := (ptePfnTo pte dst &&& ~~~ 0x20#64) ||| 0x8#64
  (s3.setPage x p val).shootdown x p.va p.size true

/-- PAGE_REPAIR: the page that has waited longest is mapped, or copied and mapped writable; its resume command comes in the next
cycle (R426, R427). One that is held by now waits for its owner, one that is deferred by now is mapped, and one that the owner has changed
meanwhile is left as it is. -/
def execPageRepair (s : State) : Outcome State Fault Refusal :=
  match (if s.grottoUp then s.repairs else []) with
  | [] => .next s
  | r :: rest =>
    let s0 := { s with repairs := rest }
    match s0.ctxAt r.ctx with
    | none => .next s0
    | some x =>
      let resume (s : State) : State := s.resumePage r.ctx r.page (s.clock + 1)
      if x.held.contains r.page then .next s0
      else if x.deferred.contains r.page then
        .next (resume ((s0.mapKept x r.page).modCtx r.ctx fun x => { x with deferred := x.deferred.filter (· != r.page) }))
      else
        let pte := s0.entryOf x r.page.va (pageLevel r.page.size)
        .next (resume (if r.cow && ptePresent pte && pteCow pte then s0.copyPage x r.page pte else s0))

/-! ### Lazy binding (R222) -/

/-- The symbol a lazy-binding record names. -/
def Todo.symbol (d : Todo) : Nat := (d.fr.w23.extractLsb' 0 31).toNat

/-- A record of a lazy-binding TRAP that Grotto has read. -/
def Todo.lazy (d : Todo) : Bool := d.taken && (d.fr.w0.extractLsb' 0 8).toNat == causeTrap && d.fr.w23.getLsbD 31

/-- The bytes of a branch from a stub to a target, in reach of BRA (R222, R289). -/
def stubBytes (stub target : Nat) : List Byte :=
  (encode (.bra ⟨⟨false, 47⟩, ⟨false, 47⟩, false, false, false⟩ (BitVec.ofInt 24 (((target : Int) - stub) / 4)))).flatMap
    fun w => leBytes w.toNat 4

/-- A stub becomes a branch to the bound address, and its lines leave every instruction buffer (R222). -/
def State.bind (s : State) (ctx : Nat) (b : Binding) : State :=
  let s1 := match s.codePa ctx b.stub with
    | some pa => s.homeStore pa (stubBytes b.stub b.target)
    | none => s
  (s1.dropLines ctx b.stub 16).modCtx ctx fun x =>
    { x with bindings := modWhere (fun y => y.sym == b.sym && y.stub == b.stub) (fun y => { y with bound := true }) x.bindings }

/-- LAZY_BINDING: the symbol trapped on first, of those sorik-ld has an address for, is bound, and every gang trapped on it goes on at
the TRAP's address in ascending fault sequence number (R222). -/
def execLazyBinding (s : State) : Outcome State Fault Refusal :=
  let binding (d : Todo) : Option Binding :=
    (s.ctxAt d.team.ctx).bind fun x => x.bindings.find? fun b => b.sym == d.symbol && b.stub == d.fr.w45.toNat
  match (if s.grottoUp then s.todo.find? fun d => d.lazy && (binding d).isSome else none) with
  | none => .next s
  | some d =>
    match binding d with
    | none => .next s
    | some b =>
      let s1 := if b.bound then s else s.bind d.team.ctx b
      let mine := s1.todo.filter fun e => e.lazy && e.team.ctx == d.team.ctx && e.symbol == d.symbol && e.fr.w45 == d.fr.w45
      .next (mine.foldl (fun s e => s.unpark e.seq e.g e.team) s1)

/-! ### Pre-emption and resumption (R120, R140, R226 to R230) -/

/-- WAITW of a team that is pre-empted: its watches, its pending bits and its hold on later accesses are dropped, and it is to issue again
from its start (R349). -/
def State.dropWatches (s : State) (t : TKey) : State :=
  let mine := s.watches.filter fun w => w.who.team == t
  let s1 := mine.foldl (fun s w => s.modGang w.who.g fun k =>
    ({ k with holds := k.holds.filter fun h => !(h.kind == HoldKind.acquire && h.who.seq == w.who.seq) }.unmark
      (pendMark w.who.seq w.who.strand)).modStrand w.who.strand fun st =>
        { st with pc := w.who.pc, state := .ready, wait := WaitFor.empty, waitOn := .none }) s
  let watch (r : OrnReq) : Bool := (match r.kind with | .watch => true | _ => false) && r.who.team == t
  { s1 with
    watches := s1.watches.filter fun w => w.who.team != t
    ornWait := s1.ornWait.filter fun r => !watch r
    orn := s1.orn.filter fun r => !watch r }

/-- Every result of a team has returned, every entry of it is complete and every record of it written; the tile step and Bridle's pushes in
progress are over, and every dirty word of the core can go home (R120, R226). -/
def State.teamReturned (s : State) (t : TKey) (core : Nat) : Bool :=
  let c := s.coreAt core
  let gs := s.teamGangs t
  !(c.sq ++ c.gone).any (fun e => e.who.team == t) && !s.fwd.any (fun f => f.who.team == t) &&
  !(s.ornWait ++ s.orn).any (fun r => r.isLoad && r.who.team == t) && !s.pendRecs.any (fun p => p.team == t) &&
  !c.mxTurn.any (fun x => gs.any fun g => g.key == x.g) && !s.anyStuck core &&
  !(s.ornWait ++ s.orn).any (fun r => r.ofEngine && r.agent != agentCe 0 && r.agent != agentCe 1 && r.who.team == t) &&
  !s.cores.any (fun c => c.spq.any fun r => r.who.team == t) &&
  !c.inflight.any (fun f => gs.any fun g => g.key == f.g) &&
  gs.all fun g => g.perfReads.isEmpty && g.launches.isEmpty && g.proms.isEmpty && g.fq.all fun f => f.inflight.isEmpty

/-- A gang's save: the gang as it stands, and its TOB reservations with their bytes (R226, R227). -/
def State.saveGang (s : State) (core base : Nat) (g : Gang) : Saved :=
  let c := s.coreAt core
  { base := base, gang := g, resv := (c.resv.filter fun r => r.g == g.key).map fun r => (r, smBytes c.tob r.start r.size) }

/-- What memory holds of a pre-empted team: its team record and its gangs' save areas, at the addresses Grotto gives them (R227, R397). -/
def Team.areas (t : Team) : List (Nat × List Byte) := (t.recBase, t.bytes) :: t.saved.map fun v => (v.base, v.bytes)

/-- The save areas and team records of pre-empted teams hold what those teams hold: Grotto's rewriting of a saved STATE, and whatever else
comes to a saved gang, is written there too (R227, R230, R231, R397). -/
def State.keepSaves (s : State) : State :=
  ((s.teams.filter (·.preempted)).flatMap Team.areas).foldl
    (fun s p => if smBytes s.mem p.1 p.2.length = p.2 then s else s.homeStore p.1 p.2) s

/-- The team leaves: the core drains, its update-only sectors merge, the gangs are saved, in memory too, their places are free,
and a team of the context that fitted nowhere is tried again (R120, R140, R155, R200, R226). -/
def State.leaveTeam (s : State) (t : Team) : State :=
  let s1 := s.drainCore t.core
  let s2 := ((s1.dirs.filter fun d => d.uhold.getLsbD t.core).map (·.sector)).foldl (fun s c => s.mergeNow c) s1
  let gs := s2.teamGangs t.key
  let keys := gs.map (·.key)
  let (s3, bases) := s2.newFrames (gs.length + 1)
  let saved := (gs.zip bases.tail).map fun p => s3.saveGang t.core p.2 p.1
  let gone (x : Team) : Team :=
    { x with preempted := true, stopping := false, saved := saved, recBase := bases.headD 0, unpinned := List.range x.pages }
  let s4 := (s3.removeGangs t.core fun k => keys.contains k).modTeam t.key gone
  (((gone t).areas.foldl (fun s p => s.homeStore p.1 p.2) s4).modCtx t.key.ctx fun x => { x with retry := true })

/-- PREEMPTION: a team stopped at its pre-emption point leaves once everything it has issued is over (R226). -/
def execPreemption (t : TKey) (s : State) : Outcome State Fault Refusal :=
  match s.teamAt t with
  | none => .next s
  | some x =>
    if !x.stopping || x.preempted then .next s
    else
      let s1 := s.dropWatches t
      .next (if s1.teamReturned t x.core then s1.leaveTeam x else s1)

/-- The pre-emption point of teams: none of their strands issues any more (R226). -/
def State.stopTeams (s : State) (c : Team → Bool) : State :=
  { s with teams := modWhere (fun t => c t && !t.preempted) (fun t => { t with stopping := true }) s.teams }

/-- A pre-empted team's places on its core are free: gang slots, registers, scratchpad pages, TOB ranges (R158, R230). -/
def State.placesFree (s : State) (t : Team) : Bool :=
  let keys := t.saved.map (·.gang.key)
  let c := s.coreAt t.core
  !s.allGangs.any (fun g => keys.contains g.key) &&
  decide (s.pinnedPages t.core + t.pages ≤ spPages) &&
  ((List.range 4).all fun q =>
    decide (((s.partGangs t.core q).map (·.nregs)).sum + (keys.filter fun k => k.part == q).length * t.nregs ≤ 2048)) &&
  !t.saved.any fun v => v.resv.any fun p => c.resv.any fun x => overlaps p.1.off p.1.len x.off x.len

/-- A save area in memory holds an uncorrectable error: every instruction of the gang that is restored from it meets it (R234). -/
def State.badSave (s : State) (v : Saved) : Bool := s.poison.any fun c => decide (v.base / 32 ≤ c ∧ c < (v.base + v.bytes.length + 31) / 32)

/-- A saved gang is restored: its TOB ranges first, then everything else; its strands return to their saved states, its urgency
count starts at 0 (R161, R168, R230). -/
def State.restoreGang (s : State) (core : Nat) (v : Saved) : State :=
  let s1 := v.resv.foldl (fun s p => s.modCore core fun c =>
    (c.grant p.1 v.gang.ctxField).putTob p.1.start p.2) s
  let active := decide (((s1.partGangs core v.gang.key.part).filter (·.active)).length < activeRoom)
  { s1 with gangs := s1.gangs ++ [{ v.gang with resident := true, active := active, pendingFor := 0, broughtIn := none, lateness := 0, bad := if s.badSave v then .tables :: v.gang.bad else v.gang.bad }] }

/-- RESUMPTION: a pre-empted team returns to its core, partitions and slots, once its context may run there and they are free
(R190, R191, R230). -/
def execResumption (t : TKey) (s : State) : Outcome State Fault Refusal :=
  match s.teamAt t, s.ctxAt t.ctx with
  | some x, some c =>
    if x.preempted && s.mayRun c x.core && s.placesFree x then
      let s1 := x.saved.foldl (fun s v => s.restoreGang x.core v) s
      let s2 := (s1.modTeam t fun y => { y with preempted := false, saved := [], unpinned := [] }).invalidateCore x.core
      .next ((List.range 16).foldl (fun s n => s.passDeadline t n) s2)
    else .next s
  | _, _ => .next s

/-! ### Time slices (R191) -/

/-- A context has something to run: a team, resident or pre-empted, or one to place (R191). -/
def State.hasWork (s : State) (x : Ctx) : Bool := s.teams.any (fun t => t.key.ctx == x.num) || (s.nextGrid x.num).isSome

/-- The next context of a group, ascending from one number on and wrapping (R191). -/
def State.nextTurn (s : State) (group start : Nat) : Option Ctx :=
  ((List.range 32).map fun k => (start + k) % 32).findSome? fun n =>
    s.ctxs.find? fun x => x.num == n && x.group == group && s.hasWork x

/-- The turn of a group is over: it has lasted its slice, or the group has had none (R191). -/
def State.turnOver (s : State) (group : Nat) : Bool :=
  match s.turns.find? fun t => t.1 == group with
  | none => true
  | some (_, n, since) =>
    match s.ctxAt n with
    | none => true
    | some x => decide (since.toNat + 2 ^ x.slice ≤ s.clock.toNat)

/-- TIME_SLICE_END: the turn passes to the next context with anything to run, and the teams of the others are at their pre-emption
point (R191). -/
def execTimeSliceEnd (group : Nat) (s : State) : Outcome State Fault Refusal :=
  let start := match s.turns.find? fun t => t.1 == group with
    | some (_, n, _) => n + 1
    | none => 0
  match (if group ≠ 0 ∧ s.turnOver group then s.nextTurn group start else none) with
  | none => .next s
  | some x =>
    let s1 := { s with turns := (group, x.num, s.clock) :: s.turns.filter fun t => t.1 != group }
    .next (s1.stopTeams fun t => t.key.ctx != x.num && s.ctxs.any fun y => y.num == t.key.ctx && y.group == group)

/-! ### The hang walk and the watchdog (R183 to R188) -/

/-- A hang record (R185). -/
def hangRecord (kind : Nat) (field : BitVec 16) (g : GKey) (strand : Nat) (st : Strand) (n walk : Nat) : FRec :=
  { w0 := BitVec.ofNat 32 (field.toNat * 2 ^ 16 + kind)
    w1 := BitVec.ofNat 32 (st.wait.kind.code * 2 ^ 18 + strand % 16 * 2 ^ 14 + g.slot % 16 * 2 ^ 10 + g.part % 4 * 2 ^ 8 + g.core % 256)
    w23 := st.pc.setWidth 64, w45 := st.wait.obj, w6 := BitVec.ofNat 32 n, w7 := BitVec.ofNat 32 walk }

/-- The cycles between walks (R185). -/
def walkPeriod : Nat := 2 ^ 20

/-- The gangs a walk looks at: those of teams with no gang halted (R188). -/
def State.walked (s : State) : List Gang := s.allGangs.filter fun g => !(s.teamGangs g.team).any (·.halted)

/-- The waiting strands a walk looks at, in ascending place (R183, R185). -/
def State.waiting (s : State) : List (Gang × Nat) :=
  (s.walked.flatMap fun g => ((List.range 16).filter fun k => (g.strandAt k).valid && (g.strandAt k).wait.kind != .none).map fun k => (g, k)).insertionSort
    fun a b => [a.1.key.core, a.1.key.part, a.1.key.slot, a.2] ≤ [b.1.key.core, b.1.key.part, b.1.key.slot, b.2]

/-- The cycles a strand has waited, by the low bits of CLOCK (R183). -/
def State.waited (s : State) (st : Strand) : Nat := s.clock.toNat - st.wait.began.toNat

/-- The strands that following signallers reaches from one, up to the first that comes again or does not wait (R185). -/
def chain (next : GKey × Nat → Option (GKey × Nat)) : Nat → GKey × Nat → List (GKey × Nat)
  | 0, _ => []
  | n + 1, p =>
    match next p with
    | some q => p :: chain next n q
    | none => [p]

/-- The signaller of a waiting strand among those that wait. -/
def nextWaiting (ws : List (Gang × Nat)) (p : GKey × Nat) : Option (GKey × Nat) :=
  match ws.find? fun w => (w.1.key, w.2) == p with
  | some (g, k) => ((g.strandAt k).wait.sig).bind fun q => if ws.any fun w => (w.1.key, w.2) == q then some q else none
  | none => none

/-- The cycle of waits a strand is a member of, from itself round (R185). -/
def cycleOf (ws : List (Gang × Nat)) (p : GKey × Nat) : Option (List (GKey × Nat)) :=
  let c := chain (nextWaiting ws) (ws.length + 1) p
  match (c.drop 1).findIdx? (· == p) with
  | some n => some (c.take (n + 1))
  | none => none

/-- A strand's place as a number, for the first of a cycle. -/
def placeKey (p : GKey × Nat) : List Nat := [p.1.core, p.1.part, p.1.slot, p.2]

/-- The kind-1 records: each cycle of waits whose members all waited at the previous walk, by its first member (R185). -/
def State.cycleRecords (s : State) (since walk : Nat) : List (FRec × Gang × Nat) :=
  let ws := s.waiting
  ws.filterMap fun (g, k) =>
    match cycleOf ws (g.key, k) with
    | none => none
    | some c =>
      let first := c.all fun q => !decide (placeKey q < placeKey (g.key, k))
      let old := ws.all fun w => !c.contains (w.1.key, w.2) || decide (since ≤ s.waited (w.1.strandAt w.2))
      if first && old then some (hangRecord 1 g.ctxField g.key k (g.strandAt k) c.length walk, g, k) else none

/-- The kind-2 records: strands that have waited longer than the context's threshold and whose signaller is unknown or does not
wait (R185). -/
def State.longRecords (s : State) (walk : Nat) : List (FRec × Gang × Nat) :=
  let ws := s.waiting
  ws.filterMap fun (g, k) =>
    let limit := match s.ctxAt g.team.ctx with | some x => x.hang.toNat * 2 ^ 10 | none => 0
    if decide (limit < s.waited (g.strandAt k)) && (nextWaiting ws (g.key, k)).isNone then
      some (hangRecord 2 g.ctxField g.key k (g.strandAt k) 0 walk, g, k)
    else none

/-- The kind-3 records: strands that have issued 2^16 instructions or more within 1 KiB and made no access (R186). -/
def State.spinRecords (s : State) (walk : Nat) : List (FRec × Gang × Nat) :=
  s.walked.flatMap fun g => (List.range 16).filterMap fun k =>
    let st := g.strandAt k
    if st.valid && decide (2 ^ 16 ≤ st.spinCount ∧ st.spinHi.toNat - st.spinLo.toNat ≤ 1024) && !st.spinAccess then
      some (hangRecord 3 g.ctxField g.key k st 0 walk, g, k)
    else none

/-- The spin records begin again (R186). -/
def State.resetSpin (s : State) : State :=
  s.modGangs (fun _ => true) fun g => { g with strands := g.strands.map fun st => { st with spinCount := 0, spinAccess := false } }

/-- HANG_WALK: every 2^20 cycles SC3 walks the wait-for tables; a walk that falls due while Grotto restarts is skipped
(R185, R186, R188, R457). -/
def execHangWalk (s : State) : Outcome State Fault Refusal :=
  let walk := s.clock.toNat / walkPeriod
  if walk ≤ s.tickWalk then .next s
  else if !s.grottoUp then .next { s with tickWalk := walk }
  else
    let since := s.clock.toNat - s.tickWalk * walkPeriod
    let rs := s.cycleRecords since walk ++ s.longRecords walk ++ s.spinRecords walk
    let s1 := rs.foldl (fun s (r, g, k) => s.postEvent 3 r g.key k g.team) s
    .next { s1.resetSpin with tickWalk := walk }

/-- RUNTIME_LIMIT: a team that has reached its context's limit is terminated, with a kind-4 record; while Grotto restarts it
waits (R187, R224, R457). -/
def execRuntimeLimit (t : TKey) (s : State) : Outcome State Fault Refusal :=
  match s.teamAt t, s.ctxAt t.ctx with
  | some x, some c =>
    if !s.grottoUp || c.limit = 0 || x.preempted || x.runtime < c.limit.toNat then .next s
    else
      let rec4 (g : Gang) : FRec := hangRecord 4 g.ctxField g.key 0 (g.strandAt 0) 0 s.tickWalk
      let gs := s.teamGangs t
      let s1 := match gs with
        | g :: _ => s.postEvent 3 (rec4 g) g.key 0 t
        | [] => s
      .next (gs.foldl (fun s g => s.kill (rec4 g) g.key 0 t) s1)
  | _, _ => .next s

end Sys2Proof.Machine
end

