-- ==== Sys2Proof/Machine/Grotto.lean ====
section
/-! DEFINITION. The requests Grotto takes (R442, R443, R445): one meaning for each kind 1 to 19, and a new Grotto that adopts what
the one before it has left (R455, R456). -/

namespace Sys2Proof.Machine

open Host (Outcome)

/-! ### Requests and replies (R442, R443, R445) -/

/-- Word `n` of a request. -/
def Req.w (r : Req) (n : Nat) : Word := atD r.words n 0

/-- Words `n` and `n + 1` of a request. -/
def Req.dw (r : Req) (n : Nat) : DWord := r.w (n + 1) ++ r.w n

/-- The kind of a request. -/
def Req.kind (r : Req) : Nat := ((r.w 0).extractLsb' 0 16).toNat

/-- The context field of a request. -/
def Req.field (r : Req) : BitVec 16 := (r.w 0).extractLsb' 16 16

/-- Kinds a context's owner may issue, for its own context (R443). -/
def ownerKind (k : Nat) : Bool := decide (3 ≤ k ∧ k ≤ 9) || k == 11 || k == 13 || k == 14

/-- The context a request names (R442, R445). -/
def Req.names (r : Req) : Option Nat :=
  if r.kind = 1 ∨ r.kind = 2 then some (r.w 2).toNat
  else if r.kind = 10 then some ((r.w 10).toNat % 32)
  else if ownerKind r.kind ∨ r.kind = 0 ∨ 19 < r.kind then some (r.field.toNat % 32)
  else none

/-- The request words a kind uses (R445). -/
def Req.used (r : Req) : List Nat :=
  match r.kind with
  | 1 => [2, 3, 4]
  | 2 | 8 | 19 => [2]
  | 3 | 12 => [2, 3, 4, 5, 6]
  | 4 | 5 | 6 => [2, 3]
  | 7 => [2, 3, 4, 5]
  | 10 => [2, 3, 4, 5, 6, 7, 8, 9, 10]
  | 11 | 14 | 15 => [2, 3, 4]
  | 13 => if r.w 2 = 0xFFFFFFFF#32 then [2, 3, 4, 5, 6] else [2, 3]
  | 17 => [2, 3, 4, 5, 6, 7, 8]
  | _ => []

/-- Every word the table does not use is 0 (R445). -/
def Req.clean (r : Req) : Bool := (List.range 14).all fun k => r.w (k + 2) == 0#32 || r.used.contains (k + 2)

/-- The live context that a request's context field names (R189). -/
def State.reqCtx (s : State) (r : Req) : Option Ctx :=
  (s.ctxAt (r.field.toNat % 32)).bind fun x => if x.field = r.field then some x else none

/-- A context's owner names its own context, by its whole field: a context that has gone is no one's own (R189, R443). -/
def State.ownField (s : State) (r : Req) : Bool := decide (r.field.toNat % 32 = r.holder) && (s.reqCtx r).isSome

/-- The status a request gets before its effect is looked at: 2 for a kind that is not in the table, 1 for one its sender may not
issue, 2 for a word that is not 0 (R443, R445). -/
def Req.refusal (r : Req) (s : State) : Option Nat :=
  let k := r.kind
  if k = 0 ∨ 19 < k then some 2
  else if r.holder ≠ 0 ∧ k ≠ 10 ∧ ¬ (ownerKind k ∧ s.ownField r) then some 1
  else if !r.clean then some 2
  else none

/-- A device stuck at a boot stage (R438). -/
def Service.isStuck : Service → Bool
  | .stuck _ => true
  | _ => false

/-- Whether a request is answered now: Grotto takes requests; a device stuck at a boot stage answers function 0's request 17 and its
query by request 14 (R438, R457). -/
def State.takes (s : State) (r : Req) : Bool :=
  s.grottoUp || (s.service.isStuck && (r.kind == 14 || r.kind == 17) && r.path == .pcie 0)

/-- A request waits for another: one before it that names the same context or restarts Grotto; a restart comes after everything taken before it
(R442, R455). -/
def State.behindReq (s : State) (r : Req) (n : Nat) : Bool :=
  let before := s.reqs.take n
  before.any (fun q => q.kind == 18 || q.names == r.names) || (r.kind == 18 && !before.isEmpty)

/-- The first request of those a condition picks that may be answered (R442, R455). -/
def State.headOf (s : State) (pick : Req → Bool) : Option Req :=
  (s.reqs.zipIdx.find? fun p => pick p.1 && s.takes p.1 && (!s.behindReq p.1 p.2 || !s.grottoUp)).map (·.1)

/-- What a request answers: status, words 2 and 3 of its reply, and a bulk result (R442, R444). -/
structure Done where
  status : Nat
  result : DWord
  bulk : List Byte
deriving DecidableEq, Repr

/-- Done, with a result. -/
def Done.ok (x : DWord) : Done := ⟨0, x, []⟩

/-- Turned away with a status. -/
def Done.no (status : Nat) : Done := ⟨status, 0, []⟩

/-- Where a bulk result is written, and its length, as words 2 and 3 of the reply (R444). -/
def Done.data (r : Req) (bs : List Byte) : Done :=
  ⟨0, BitVec.ofNat 32 bs.length ++ BitVec.ofNat 32 ((r.w 1).toNat % 16 * 4096), bs⟩

/-- A request is complete: its reply waits to be written (R442, R444). -/
def State.answer (s : State) (r : Req) (d : Done) : State :=
  { s with
    reqs := s.reqs.erase r
    replies := s.replies ++ [{ path := r.path, ctx := r.field, status := d.status, id := r.w 1, result := d.result, bulk := d.bulk }] }

/-- The next request of those a condition picks is taken: turned away, or given its effect, which may have to wait. -/
def State.takeSome (pick : Req → Bool) (go : Req → State → State × Option Done) (s : State) : Outcome State Fault Refusal :=
  match s.headOf pick with
  | none => .next s
  | some r =>
    match r.refusal s with
    | some st => .next (s.answer r (.no st))
    | none =>
      match go r s with
      | (s1, none) => .next s1
      | (s1, some d) => .next (s1.answer r d)

/-- The next request of a kind is taken. -/
def State.takeKind (kind : Nat) (go : Req → State → State × Option Done) (s : State) : Outcome State Fault Refusal :=
  State.takeSome (fun r => r.kind == kind) go s

/-- Requests of kinds that are not in the table (R443). -/
def State.refuseUnknown (s : State) : State :=
  match s.headOf (fun r => r.kind == 0 || decide (19 < r.kind)) with
  | none => s
  | some r => s.answer r (.no 2)

/-- A request for a live context; status 2 where its field names none. -/
def forCtx (go : Req → Ctx → State → State × Option Done) (r : Req) (s : State) : State × Option Done :=
  match s.reqCtx r with
  | none => (s, some (.no 2))
  | some x => go r x s

/-- Bytes of memory as agents at the homes see them: update-only sectors merge and dirty copies are written home first (R138,
R109). -/
def State.homeRead (s : State) (pa n : Nat) : List Byte × State :=
  let secs := (List.range ((pa + n + 31) / 32 - pa / 32)).map (pa / 32 + ·)
  let s1 := secs.foldl (fun s c => s.mergeNow c) s
  let s2 := (rangeWords pa n).foldl State.recallDirty s1
  (smBytes s2.mem pa n, s2)

/-! ### Contexts: kinds 1 and 2 (R189, R190, R224) -/

/-- A field of a descriptor image (R445). -/
def imgF (bs : List Byte) (off n : Nat) : Nat := leNat ((bs.drop off).take n)

/-- What a descriptor image may not say: a slice length, quota or group out of range, bytes that are not 0, a table outside the device's
HBM, a REMOTE mask outside the members, of which one that is leaving counts for none any more (R189, R190, R196, R208, R209, R445). -/
def State.badImage (s : State) (bs : List Byte) : Bool :=
  let f := imgF bs
  let members : BitVec 320 := match s.departing with
    | some (d, _) => if d = s.devNum then 0 else s.members &&& ~~~ (1#320 <<< d)
    | none => s.members
  !decide (16 ≤ f 93 1 ∧ f 93 1 ≤ 30) || !decide (1 ≤ f 94 1 ∧ f 94 1 ≤ 64) || decide (7 < f 92 1) ||
  f 95 33 != 0 || decide (hbmEnd ≤ f 0 8 * 4096) || (BitVec.ofNat 320 (f 40 40) &&& ~~~ members) != 0

/-- Two contexts may not both have a core: they are not of one time-slice group and share one (R190). -/
def clashes (group : Nat) (cores : BitVec 256) (x : Ctx) : Bool :=
  (group == 0 || x.group != group) && (x.coreset &&& cores) != 0

/-- The context a descriptor image describes, over what is kept of it (R189, R445). -/
def Ctx.describe (x : Ctx) (bs : List Byte) : Ctx :=
  let f := imgF bs
  { x with
    root := f 0 8, coreset := BitVec.ofNat 256 (f 8 32), remote := BitVec.ofNat 320 (f 40 40), limit := BitVec.ofNat 64 (f 80 8),
    hang := BitVec.ofNat 32 (f 88 4), group := f 92 1, slice := f 93 1, quota := f 94 1 }

/-- A context as it begins (R189, R211): nothing mapped, no right granted, a load digest of zeros, event and serial numbers at 0. -/
def Ctx.fresh (n gen : Nat) : Ctx :=
  { num := n, gen := gen, root := 0, coreset := 0, group := 0, slice := 16, quota := 1, remote := 0, limit := 0, hang := 0, debug := 0,
    sbuf := none, digest := 0, serial := 0, held := [], deferred := [], events := [], waiting := [], eventSeq := 0, breaks := [],
    haltOrder := [], bindings := [], waitGrid := none, retry := false }

/-- The generation a context number begins with next (R189). -/
def State.nextGen (s : State) (n : Nat) : Nat := ((s.gens.find? fun p => p.1 == n).map (·.2)).getD 0

/-- Every address of an address space. -/
def wholeSpace : Nat := 2 ^ 57

/-- A live context gets a new descriptor: cores leave its set once its teams there have been pre-empted; another page table means
that every translation goes (R190, R197). -/
def State.redescribe (s : State) (x : Ctx) (bs : List Byte) : State × Option Done :=
  let y := x.describe bs
  let gone (t : Team) : Bool := t.key.ctx == x.num && x.coreset.getLsbD t.core && !y.coreset.getLsbD t.core
  if s.teams.any fun t => gone t && !t.preempted then (s.stopTeams gone, none)
  else
    let s1 := if y.root = x.root then s else s.shootdown x 0 wholeSpace true
    (s1.modCtx x.num fun z => z.describe bs, some (.ok (x.field.setWidth 64)))

/-- CREATE_CONTEXT: request 1 writes a descriptor (R189, R190, R445). -/
def execCreateContext (s : State) : Outcome State Fault Refusal :=
  State.takeKind 1 (fun r s =>
    let n := (r.w 2).toNat
    let pa := (r.dw 3).toNat
    if 31 < n ∨ pa % 64 ≠ 0 ∨ hbmEnd < pa + 128 then (s, some (.no 2))
    else
      let (bs, s1) := s.homeRead pa 128
      let cores := BitVec.ofNat 256 (imgF bs 8 32)
      if s1.badImage bs || s1.ctxs.any (fun x => x.num != n && clashes (imgF bs 92 1) cores x) then (s1, some (.no 2))
      else
        match s1.ctxAt n with
        | some x => s1.redescribe x bs
        | none =>
          let x := (Ctx.fresh n (s1.nextGen n)).describe bs
          ({ s1 with ctxs := s1.ctxs ++ [x] }, some (.ok (x.field.setWidth 64)))) s

/-- Every gang of a context is terminated, the saved ones among them, and its teams and grids are gone (R224). -/
def State.endTeams (s : State) (n : Nat) : State :=
  let mine := s.teams.filter fun t => t.key.ctx == n
  let s1 := mine.foldl (fun s t =>
    (s.teamGangs t.key ++ t.saved.map (·.gang)).foldl (fun s g => s.terminate g.key t.key) s) s
  let s2 := (mine.filter fun t => !t.preempted).foldl (fun s t =>
    let keys := (s.teamGangs t.key).map (·.key)
    (s.drainCore t.core).removeGangs t.core fun k => keys.contains k) s1
  { s2 with teams := s2.teams.filter fun t => t.key.ctx != n, grids := s2.grids.filter fun g => g.ctx != n }

/-- Nothing on the device names a context any more: records, repairs, translations, lines, samples, images (R189, R201, R202). -/
def State.forget (s : State) (x : Ctx) : State :=
  let seqs := (s.todo.filter fun d => d.team.ctx == x.num && !d.taken).map (·.seq)
  let strip (c : Core) : Core :=
    { c with
      tlb := c.tlb.filter fun t => t.asid != x.num
      ibuf := c.ibuf.filter fun l => l.asid != x.num
      parts := c.parts.map fun p => { p with samp := p.samp.filter (fun y => y.ctx != x.num), stopped := p.stopped.filter (· != x.num) } }
  { s with
    todo := s.todo.filter fun d => d.team.ctx != x.num
    faultQ := s.faultQ.filter fun f => !seqs.contains f.w7
    storeQ := s.storeQ.filter fun f => !((f.w1.extractLsb' 16 16) == x.field)
    pendRecs := s.pendRecs.filter fun p => p.team.ctx != x.num
    repairs := s.repairs.filter fun r => r.ctx != x.num
    dieTlb := s.dieTlb.filter fun p => p.2.asid != x.num
    cores := s.cores.map strip
    codeHeap := s.codeHeap.filter fun c => c.ctx != x.field
    ctxs := s.ctxs.filter fun y => y.num != x.num
    gens := (x.num, x.gen + 1) :: s.gens.filter fun p => p.1 != x.num }

/-- DESTROY_CONTEXT: request 2 terminates every gang and frees the number (R224, R443). -/
def execDestroyContext (s : State) : Outcome State Fault Refusal :=
  State.takeKind 2 (fun r s =>
    match s.ctxAt (r.w 2).toNat with
    | none => (s, some (.no 2))
    | some x => ((s.endTeams x.num).forget x, some (.ok 0))) s

/-! ### Page tables: kinds 3, 5, 6, 7 (R194, R197, R204, R424, R426) -/

/-- An address is one of the 57-bit space (R193). -/
def inSpace (va : DWord) : Bool := decide (va.toNat < wholeSpace)

/-- An entry that would place a table outside the device's HBM: present, no leaf, its frame not below 0x80_0000_0000 (R196). -/
def badTable (level : Nat) (p : DWord) : Bool :=
  level != 0 && ptePresent p && !pteLeaf p && decide (hbmEnd ≤ ptePfn p * 4096)

/-- WRITE_PAGE_TABLE_ENTRY: request 3 writes an entry, the sixteen members of a 64 KiB page alike, with its record and shootdown
(R194, R197, R204). -/
def execWritePageTableEntry (s : State) : Outcome State Fault Refusal :=
  State.takeKind 3 (forCtx fun r x s =>
    let va := r.dw 2
    let level := (r.w 4).toNat % 8
    let val := r.dw 5
    if level > 4 ∨ !inSpace va ∨ badTable level val then (s, some (.no 2))
    else
      let wide := level = 0 ∧ pteSize64 val
      let size := if wide then 65536 else levelSize level
      let first := va.toNat / size * size
      let old := (List.range (if wide then 16 else 1)).map fun k => s.entryOf x (first + 4096 * k) level
      let go (s : State) (k : Nat) : State := (s.setEntry x (first + 4096 * k) level val).getD s
      match s.setEntry x first level val with
      | none => (s, some (.no 2))
      | some s1 =>
        let s2 := (List.range (if wide then 15 else 0)).foldl (fun s k => go s (k + 1)) s1
        (s2.shootdown x first size (old.any fun o => codeChange level o val), some (.ok (s.tlogSeq.setWidth 64)))) s

/-- Clearing P takes every permission of a page away: the page is shot down (R197, R199). -/
def State.unmap (s : State) (x : Ctx) (p : Page) (pte : DWord) : State :=
  (s.setPage x p (pte &&& ~~~ 1#64)).shootdown x p.va p.size (pteExec pte)

/-- HOLD_PAGE: request 5 (R424). -/
def execHoldPage (s : State) : Outcome State Fault Refusal :=
  State.takeKind 5 (forCtx fun r x s =>
    let va := r.dw 2
    match (if inSpace va then s.pageAt x va.toNat else none) with
    | none => (s, some (.no 2))
    | some (p, pte) =>
      let hold (s : State) : State :=
        s.modCtx x.num fun y => { y with held := y.held ++ [p], deferred := y.deferred.filter (· != p) }
      let keep (s : State) : State := s.modCtx x.num fun y => { y with backing := y.backing ++ [(p, pte)] }
      if x.held.contains p then (s, some (.ok 0))
      else if x.deferred.contains p then (hold s, some (.ok 0))
      else if !ptePresent pte then (s, some (.no 2))
      else (hold (keep (s.unmap x p pte)), some (.ok 0))) s

/-- A held page is present again, and what stopped on it goes on (R220, R424). -/
def State.release (s : State) (x : Ctx) (p : Page) : State :=
  ((s.mapKept x p).modCtx x.num fun y => { y with held := y.held.filter (· != p) }).resumePage x.num p s.clock

/-- RELEASE_PAGE: request 6; a page that is not held stays as it is (R424). -/
def execReleasePage (s : State) : Outcome State Fault Refusal :=
  State.takeKind 6 (forCtx fun r x s =>
    match x.held.find? fun p => p.has (r.dw 2).toNat with
    | none => (s, some (.ok 0))
    | some p => (s.release x p, some (.ok 0))) s

/-- The pages of a range, whole, that are present, with their entries; those already held or deferred are passed over; none where a
page is neither, or the range covers part of one (R426). -/
def State.rangeOf (s : State) (x : Ctx) (fin : Nat) : Nat → Nat → Option (List (Page × DWord))
  | 0, _ => some []
  | n + 1, va =>
    if fin ≤ va then some []
    else
      match s.pageAt x va with
      | none => none
      | some (p, pte) =>
        let kept := x.held.contains p || x.deferred.contains p
        if p.va ≠ va ∨ fin < p.va + p.size ∨ (!kept && !ptePresent pte) then none
        else (State.rangeOf s x fin n (p.va + p.size)).map fun l => if kept then l else (p, pte) :: l

/-- DEFER_PAGES: request 7 (R426). -/
def execDeferPages (s : State) : Outcome State Fault Refusal :=
  State.takeKind 7 (forCtx fun r x s =>
    let va := (r.dw 2).toNat
    let len := (r.dw 4).toNat
    if va % 4096 ≠ 0 ∨ len % 4096 ≠ 0 ∨ wholeSpace < va + len then (s, some (.no 2))
    else
      match s.rangeOf x (va + len) (len / 4096) va with
      | none => (s, some (.no 2))
      | some l =>
        let s1 := l.foldl (fun s (p, pte) =>
          (s.unmap x p pte).modCtx x.num fun y => { y with deferred := y.deferred ++ [p], backing := y.backing ++ [(p, pte)] }) s
        (s1, some (.ok (BitVec.ofNat 64 (l.length % 2 ^ 32))))) s

/-! ### Host grids: kind 4 (R154, R404) -/

/-- The physical address of a context's address for a read, by its page table (R194, R195). -/
def State.readPa (s : State) (x : Ctx) (va : Nat) : Option Nat :=
  match walk s.mem va 4 (x.root * 4096) with
  | none => none
  | some (p, size) =>
    match s.reach (checkPte (some x) { asid := x.num, va := va / size * size, size := size, pte := p } .read va) with
    | .ok pa _ => if pa / 4096 = cmdPagePa / 4096 then none else some pa
    | _ => none

/-- A context's launches wait: in Lantern service and after a thermal trip, but context 0's (R439, R450). -/
def State.launchWaits (s : State) (x : Ctx) : Bool := s.service != .full && x.num != 0

/-- A launch of a context whose launches wait: it is passed over, so that those of context 0 go on (R439, R442, R450). -/
def State.launchHeld (s : State) (r : Req) : Bool := match s.reqCtx r with | some x => s.launchWaits x | none => false

/-- LAUNCH_HOST_GRID: request 4 reads a launch descriptor through the context's translation; the grid joins the work distributor once
that has room (R154, R404, R445). -/
def execLaunchHostGrid (s : State) : Outcome State Fault Refusal :=
  State.takeSome (fun r => r.kind == 4 && !s.launchHeld r) (forCtx fun r x s =>
    let va := r.dw 2
    if va.toNat % 64 ≠ 0 ∨ !inSpace va then (s, some (.no 2))
    else
      match s.readPa x va.toNat with
      | none => (s, some (.no 2))
      | some pa =>
        if !s.ownsPage pa then (s.wantPage pa, none)
        else
          let (bs, s1) := s.homeRead pa 64
          if badDescriptor bs then (s1, some (.no 2))
          else
            match s1.addGrid x.num 0 bs none none with
            | none => (s1, none)
            | some (s2, gid) => (s2, some (.ok (gid.setWidth 64)))) s

/-! ### Debug rights: kinds 8 and 9 (R205, R207) -/

/-- GRANT_DEBUG_RIGHT: request 8; at most one session holds the right (R205). -/
def execGrantDebugRight (s : State) : Outcome State Fault Refusal :=
  State.takeKind 8 (forCtx fun r x s =>
    if r.w 2 = 0 then (s, some (.no 2))
    else if x.debug ≠ 0 ∧ x.debug ≠ r.w 2 then (s, some (.no 3))
    else (s.modCtx x.num fun y => { y with debug := r.w 2 }, some (.ok 0))) s

/-- A gang parked on one of the session's breakpoints goes on at its address, and its record, read or not, or not yet written, has had its answer
(R207). -/
def State.freeBreaks (s : State) (x : Ctx) : State :=
  let mine (store : Bool) (fr : FRec) (t : TKey) : Bool := t.ctx == x.num && !store && (fr.w0.extractLsb' 0 8).toNat == causeBreakpoint &&
    x.breaks.any fun b => BitVec.ofNat 64 b.va == fr.w45
  let s1 := (s.todo.filter fun d => mine d.store d.fr d.team).foldl (fun s d => s.unpark d.seq d.g d.team) s
  let late := s1.pendRecs.filter fun p => mine p.store p.fr p.team
  late.foldl (fun s p => s.goOn p.g p.team)
    { s1 with pendRecs := s1.pendRecs.map fun p => if mine p.store p.fr p.team then { p with done := true } else p }

/-- The end of a context's debug session (R207): breakpoints are put back, halted gangs go on in their order, those that a pre-emption saved
among them, and those parked on a breakpoint after them. -/
def State.closeSession (s : State) (x : Ctx) : State :=
  if x.debug = 0 then s
  else
    let s1 := x.breaks.foldl (fun s b => s.unbreak x.num b) s
    let s2 := (x.haltOrder.foldl (fun s p => s.resumeOf p.1 p.2) s1).freeBreaks x
    let go (p : Part) : Part := if p.stopped = some x.num then { p with stopped := none } else p
    let free (c : Core) : Core := { c with parts := c.parts.map go }
    let s3 := { s2 with
      cores := s2.cores.map free
      stepping := match s2.stepping with
        | some (g, k) => if (s2.gangAt g).team.ctx = x.num then none else some (g, k)
        | none => none }
    s3.modCtx x.num fun y => { y with debug := 0, breaks := [], haltOrder := [] }

/-- REVOKE_DEBUG_RIGHT: request 9, once this device owns the pages the breakpoints stand on (R150, R207). -/
def execRevokeDebugRight (s : State) : Outcome State Fault Refusal :=
  State.takeKind 9 (forCtx fun _ x s =>
    match s.brkAway x with
    | some pa => (s.wantPage pa, none)
    | none => (s.closeSession x, some (.ok 0))) s

/-! ### Reports, samples, Strata, logs: kinds 10, 11, 12, 14 (R204, R211, R235, R411, R413) -/

/-- The bytes of the image of a kind that runs (R211). -/
def State.runningImage (s : State) (kind : Nat) : List Byte :=
  match (s.banks[kind - 1]?).bind (·.running) with
  | some i => i.bytes
  | none => []

/-- Bytes 0 to 319 of an attestation report (R211). -/
def State.report (s : State) (nonce : List Byte) (x : Ctx) : List Byte :=
  let dig (d : BitVec 512) : List Byte := leBytes d.toNat 64
  leBytes 1 4 ++ leBytes ((if s.service.lanternMode then 1 else 0) + (if x.debug = 0 then 0 else 2)) 4 ++
  leBytes Config.serialNumber.toNat 8 ++ nonce ++ dig (Config.sha512 (s.runningImage 1)) ++ dig (Config.sha512 (s.runningImage 2)) ++
  dig (Config.sha512 (s.runningImage 3)) ++ dig x.digest ++ leBytes s.clock.toNat 8 ++ leBytes s.domain.toNat 4 ++ leBytes s.devNum 4

/-- The load digest after another image has been loaded (R211). -/
def loadDigest (d : BitVec 512) (image : List Byte) : BitVec 512 :=
  Config.sha512 (leBytes d.toNat 64 ++ leBytes (Config.sha512 image).toNat 64)

/-- sorik-ld has loaded a code image into a context, with its binding table: the load digest takes it, lazy binding knows its symbols, and it
joins the code heap (R9, R211, R222, R456). Where the image's bytes go the loader writes like any other agent. -/
def State.loaded (s : State) (ctx : Nat) (secs : Sections) (image : List Byte) (table : List Binding) : State :=
  match s.ctxAt ctx with
  | none => s
  | some x =>
    let d := loadDigest x.digest image
    let img : CodeImg := { ctx := x.field, secs := secs, digest := d }
    let s1 := { s with codeHeap := s.codeHeap ++ [img] }
    s1.modCtx ctx fun x => { x with digest := d, bindings := x.bindings ++ table }

/-- ATTESTATION_REPORT: request 10, without rights (R211). -/
def execAttestationReport (s : State) : Outcome State Fault Refusal :=
  State.takeKind 10 (fun r s =>
    match s.ctxAt ((r.w 10).toNat % 32) with
    | none => (s, some (.no 2))
    | some x =>
      let nonce := (List.range 8).flatMap fun k => leBytes (r.w (k + 2)).toNat 4
      let bs := s.report nonce x
      (s, some (.data r (bs ++ leBytes (Config.attestSign bs).toNat 64)))) s

/-- REGISTER_SAMPLE_BUFFER: request 11 (R411). -/
def execRegisterSampleBuffer (s : State) : Outcome State Fault Refusal :=
  State.takeKind 11 (forCtx fun r x s =>
    let base := (r.dw 2).toNat
    let limit := (r.w 4).toNat
    if base % 16 ≠ 0 ∨ limit % 16 ≠ 0 then (s, some (.no 2))
    else (s.modCtx x.num fun y => { y with sbuf := some (base, limit) }, some (.ok 0))) s

/-- STRATA_CONTROL: request 12 (R413). -/
def execStrataControl (s : State) : Outcome State Fault Refusal :=
  State.takeKind 12 (fun r s =>
    let k := ((r.w 2).extractLsb' 4 5).toNat
    if k < 10 ∨ 24 < k then (s, some (.no 2))
    else
      let f (t : Strata) : Strata := { t with on := (r.w 2).getLsbD 0, k := k, dst := (r.dw 3).toNat, len := (r.dw 5).toNat }
      ({ s with strata := f s.strata }, some (.ok 0))) s

/-- A translation-log record's bytes (R204). -/
def TLog.bytes (t : TLog) : List Byte :=
  leBytes (t.kind + 256 * (Config.serviceCore t.seq.toNat).toNat) 4 ++ leBytes (t.ctx.toNat + 65536 * t.cores) 4 ++ leBytes t.va 8 ++ leBytes t.len 8 ++
  leBytes t.stalled.toNat 8 ++ leBytes t.start.toNat 8 ++ leBytes t.fin.toNat 8 ++ leBytes t.value.toNat 8 ++ leBytes 0 4 ++
  leBytes t.seq.toNat 4

/-- An error-log record's bytes (R235). -/
def ELog.bytes (e : ELog) : List Byte :=
  leBytes (e.ctx.toNat * 65536 + e.kind * 256 + e.unit) 4 ++ leBytes e.w1.toNat 4 ++ leBytes e.addr.toNat 8

/-- A context's descriptor image (R445). -/
def Ctx.image (x : Ctx) : List Byte :=
  leBytes x.root 8 ++ leBytes x.coreset.toNat 32 ++ leBytes x.remote.toNat 40 ++ leBytes x.limit.toNat 8 ++ leBytes x.hang.toNat 4 ++
  leBytes x.group 1 ++ leBytes x.slice 1 ++ leBytes x.quota 1 ++ leBytes 0 33

/-- A context's resident, pre-empted and placeable teams (R445). -/
def State.teamCounts (s : State) (n : Nat) : List Nat :=
  let mine := s.teams.filter fun t => t.key.ctx == n
  [(mine.filter fun t => !t.preempted).length, (mine.filter fun t => t.preempted).length,
    ((s.grids.filter fun g => g.ctx == n).map fun g => g.total - g.placed).sum]

/-- Bytes of a result area that one request may fill (R444). -/
def resultRoom : Nat := 4096

/-- Records from a number on, at most so many, as far as a result has room. -/
def someRecords (size : Nat) (l : List (Nat × List Byte)) (first most : Nat) : List Byte :=
  ((l.filter fun p => decide (first ≤ p.1)).take (Nat.min most (resultRoom / size))).flatMap (·.2)

/-- READ_LOGS: request 14; an owner reads the records of its own context, which its field must name (R189, R204, R235, R443, R445). -/
def execReadLogs (s : State) : Outcome State Fault Refusal :=
  State.takeKind 14 (fun r s =>
    let mine (c : BitVec 16) : Bool := r.holder == 0 || c == r.field
    let first := (r.w 3).toNat
    let most := (r.w 4).toNat
    if r.w 2 = 0 then
      (s, some (.data r (someRecords 64 ((s.tlog.filter fun t => mine t.ctx).map fun t => (t.seq.toNat, t.bytes)) first most)))
    else if r.w 2 = 1 then
      let l := s.elog.zipIdx.map fun (e, k) => (e, s.errLost + k)
      (s, some (.data r (someRecords 16 ((l.filter fun p => mine p.1.ctx).map fun p => (p.2, p.1.bytes)) first most)))
    else if r.w 2 = 2 then
      match s.reqCtx r with
      | none => (s, some (.no 2))
      | some x => (s, some (.data r (x.image ++ (s.teamCounts x.num).flatMap fun n => leBytes n 4)))
    else (s, some (.no 2))) s

/-! ### Answers to events: kind 13 (R190, R222, R424) -/

/-- The instruction after a TRAP, or after a breakpoint handled as one (R222, R407, R408). -/
def Todo.past (d : Todo) : Nat := if (d.fr.w0.extractLsb' 0 8).toNat = causeBreakpoint then 8 else 16

/-- The owner's answer to a TRAP: its gang goes on at the next instruction, or is terminated (R222). -/
def State.ownerTrap (s : State) (d : Todo) (stop : Bool) : State :=
  if stop then s.kill d.fr d.g d.strand d.team
  else
    (s.onGang d.g d.team fun k => k.modStrand d.strand fun st => { st with pc := st.pc + BitVec.ofNat 57 d.past }).unpark d.seq d.g d.team

/-- The owner's answer to a fault on a held page: the page is released, or every gang parked on it is terminated (R424); on any other
page only a termination has an effect, on the gang of the record. -/
def State.ownerPage (s : State) (x : Ctx) (e : Event) (stop : Bool) : State :=
  match x.held.find? fun p => p.has e.fr.w23.toNat, stop with
  | some p, false => s.release x p
  | none, false => s
  | some p, true =>
    (s.todo.filter fun d => d.ofPage && !d.done && d.team.ctx == x.num && p.has d.fr.w23.toNat).foldl (fun s d => s.kill d.fr d.g d.strand d.team) s
  | none, true => s.kill e.fr e.g e.strand e.team

/-- RESUME_OR_TERMINATE: request 13 (R190, R222, R424, R445). -/
def execResumeOrTerminate (s : State) : Outcome State Fault Refusal :=
  State.takeKind 13 (forCtx fun r x s =>
    let stop := r.w 3 = 1
    if 1 < (r.w 3).toNat then (s, some (.no 2))
    else if r.w 2 = 0xFFFFFFFF#32 then
      match s.teamAt ⟨x.num, r.w 4, r.dw 5⟩ with
      | some t =>
        if stop ∧ t.preempted then (t.saved.foldl (fun s v => s.terminate v.gang.key t.key) s, some (.ok 0)) else (s, some (.no 2))
      | none => (s, some (.no 2))
    else
      match x.events.find? fun e => e.seq == r.w 2 with
      | none => (s, some (.no 2))
      | some e =>
        let s1 := s.modCtx x.num fun y => { y with events := y.events.filter fun e => e.seq != r.w 2 }
        if e.kind = 5 then
          match s.todo.find? fun d => d.taken && d.seq == e.fr.w7 && d.team == e.team with
          | some d => (s1.ownerTrap d stop, some (.ok 0))
          | none => (s1, some (.no 2))
        else (s1.ownerPage x e stop, some (.ok 0))) s

/-! ### The Tether domain: kind 15 (R204, R208, R209) -/

/-- The membership record. Its membership word, which R204 does not define, is the 64-bit word of the member mask that holds the device's bit
(DESIGN CHOICE, log entry 119). -/
def State.logMember (s : State) (dev : Nat) : State :=
  s.logXl { kind := 3, ctx := 0, cores := 0, va := 0, len := 0, stalled := 0, start := s.clock, fin := s.clock,
            value := s.members.extractLsb' (dev / 64 * 64) 64, seq := 0 }

/-- A device joins: its bit is set; the first to join names this device and its domain (R208). -/
def State.join (s : State) (domain : BitVec 32) (dev : Nat) : State :=
  let s1 := if s.members = 0 then { s with domain := domain, devNum := dev } else s
  { s1 with members := s1.members ||| (1#320 <<< dev) }.logMember dev

/-- The pages a table maps, from a table at `base` of `level` down: first address, size and entry (R194). -/
def mapped (m : SMap 8) : Nat → Nat → Nat → List (Page × DWord)
  | 0, base, va =>
    (List.range 512).filterMap fun k =>
      let p := smDWord m (base + 8 * k)
      if !ptePresent p then none
      else if pteSize64 p then
        (if k % 16 = 0 then some (⟨va + 4096 * k, 65536⟩, p) else none)
      else some (⟨va + 4096 * k, 4096⟩, p)
  | level + 1, base, va =>
    (List.range 512).flatMap fun k =>
      let p := smDWord m (base + 8 * k)
      let at' := va + 4096 * 512 ^ (level + 1) * k
      if !ptePresent p then []
      else if pteLeaf p then [(⟨at', 4096 * 512 ^ (level + 1)⟩, p)]
      else mapped m level (ptePfn p * 4096) at'

/-- Every mapping that names a leaving device, where it is this one every mapping that names any other, is shot down, whether or not a
translation cache holds it, and no context may address it any more (R209). -/
def State.unmapDevice (s : State) (dev : Nat) : State :=
  let gone (d : Nat) : Bool := d == dev || dev == s.devNum
  let cut (x : Ctx) : Ctx := { x with remote := if dev = s.devNum then 0 else x.remote &&& ~~~ (1#320 <<< dev) }
  let far (pte : DWord) : Bool := isRemote (ptePfn pte * 4096) && gone (devOf (ptePfn pte * 4096))
  let cached := (((s.dieTlb.map (·.2)) ++ s.cores.flatMap (·.tlb)).filter fun t => far t.pte).map fun t => (t.asid, (⟨t.va, t.size⟩ : Page))
  let tables := s.ctxs.flatMap fun x => ((mapped s.mem 4 (x.root * 4096) 0).filter fun p => far p.2).map fun p => (x.num, p.1)
  let s1 := ((cached ++ tables).dedup).foldl (fun s t => match s.ctxAt t.1 with | some x => s.shootdown x t.2.va t.2.size true | none => s) s
  { s1 with ctxs := s1.ctxs.map cut, departing := some (dev, 1) }

/-- Pages homed here that some other devices own are asked back (R150, R209). -/
def State.askBack (s : State) (who : Nat → Bool) : State :=
  let out := (s.pageDirs.filter fun d => d.owner != s.devNum && who d.owner).map (·.page)
  { s with pageWaits := s.pageWaits ++ (out.filter fun p => !s.pageWaits.contains (p, s.devNum)).map fun p => (p, s.devNum) }

/-- Pages of some other devices that this one owns are to go back to them (R151, R209). -/
def State.returnTo (s : State) (home : Nat → Bool) : State :=
  { s with pageRecalls := s.pageRecalls ++ s.ownedRemote.filter fun p => home (devOf (p * 65536)) && !s.pageRecalls.contains p }

/-- Step 2 of a departure: the leaving device gives up every page it owns: this device those of other devices, where it is the one, or else asks
for those homed here that the leaving one owns (R209). -/
def State.handAllBack (s : State) (dev : Nat) : State :=
  if dev = s.devNum then s.returnTo fun _ => true
  else { s with pageWaits := s.pageWaits.filter fun w => w.2 != dev }.askBack (· == dev)

/-- Step 2 is complete: the leaving device owns no page here, or this one none of another device. -/
def State.allGiven (s : State) (dev : Nat) : Bool :=
  if dev = s.devNum then s.ownedRemote.isEmpty && s.pageAsked.isEmpty
  else !s.pageDirs.any fun d => d.owner == dev || d.granted == some dev

/-- Step 3: every page homed on the leaving device returns to its ownership (R209). -/
def State.returnAll (s : State) (dev : Nat) : State := if dev = s.devNum then s.askBack fun _ => true else s.returnTo (· == dev)

/-- Step 3 is complete, and nothing passes between this device and the leaving one any more (R209). -/
def State.parted (s : State) (dev : Nat) : Bool :=
  let far (d : Nat) : Bool := d == dev || dev == s.devNum
  (if dev = s.devNum then !s.pageDirs.any (fun d => d.owner != s.devNum || d.granted.isSome)
   else !(s.ownedRemote ++ s.pageAsked).any fun p => devOf (p * 65536) == dev) &&
  !s.fwd.any (fun f => far f.dev) && !s.remoteOps.any fun r => far r.dev

/-- DOMAIN_MEMBERSHIP_CHANGE: request 15; a device leaves in the order of R209, each step complete before the next. -/
def execDomainMembershipChange (s : State) : Outcome State Fault Refusal :=
  State.takeKind 15 (fun r s =>
    let dev := (r.w 3).toNat % 512
    let member := s.members.getLsbD dev
    if 319 < dev ∨ 1 < (r.w 4).toNat ∨ (s.members ≠ 0 ∧ r.w 2 ≠ s.domain) then (s, some (.no 2))
    else if r.w 4 = 0 then (if member then s else s.join (r.w 2) dev, some (.ok 0))
    else if !member then (s, some (.ok 0))
    else
      match s.departing with
      | none => (s.unmapDevice dev, none)
      | some (_, 1) => if s.shoots.isEmpty then ({ s.handAllBack dev with departing := some (dev, 2) }, none) else (s, none)
      | some (_, 2) =>
        if s.allGiven dev then ({ s.returnAll dev with departing := some (dev, 3) }, none) else (s.handAllBack dev, none)
      | some _ =>
        if s.parted dev then
          ({ s with departing := none, members := s.members &&& ~~~ (1#320 <<< dev) }.logMember dev, some (.ok 0))
        else (s.returnAll dev, none)) s

/-! ### Services and images: kinds 16 to 19 (R438 to R440, R452, R455, R456) -/

/-- LEAVE_LANTERN_SERVICE: request 16; it is complete once the device runs in full service (R440). -/
def execLeaveLanternService (s : State) : Outcome State Fault Refusal :=
  State.takeKind 16 (fun _ s =>
    match s.service with
    | .full => (s, some (.ok 0))
    | .lantern => ({ s with service := .leaving }.stopTeams fun t => t.key.ctx == 0, none)
    | _ => (s, none)) s

/-- The rest of leaving Lantern service, once every team of context 0 has been pre-empted: the other dies are released, aclk rises to
P-state 0, the core map is loaded and the links train (R440). -/
def State.finishLeaving (s : State) : State :=
  if s.service = .leaving ∧ s.teams.all fun t => t.key.ctx != 0 || t.preempted then
    { s with
      service := .full, tripped := false, pstate := 0, issueStopped := false
      strata := if s.pstate = 0 then s.strata else { s.strata with pstchg := s.strata.pstchg + 1 }
      links := s.links.map fun l => { l with state := 1 } }
  else s

/-- An image by its bytes, where its header is one and its signature verifies (R210, R438). -/
def readImage (kind : Nat) (bs : List Byte) : Option Image :=
  let f := imgF bs
  if f 0 4 = 0x4B335347 ∧ f 4 2 = kind ∧ f 6 2 ≤ 127 ∧ f 8 8 + 128 = bs.length ∧ f 16 48 = 0 ∧ Config.ed25519Ok kind bs then
    some { kind := kind, version := f 6 2, bytes := bs }
  else none

/-- Fuses of a preference bank (R438). -/
def bankFuses : Nat := 32

/-- WRITE_IMAGE_SLOT: request 17; the image is verified before it is written (R438). -/
def execWriteImageSlot (s : State) : Outcome State Fault Refusal :=
  State.takeKind 17 (fun r s =>
    let kind := (r.w 2).toNat
    let pa := (r.dw 4).toNat
    let len := (r.dw 6).toNat
    let blow := (r.w 8).getLsbD 1
    let bank := atD s.banks (kind - 1) ImgBank.empty
    if kind < 1 ∨ 3 < kind ∨ 1 < (r.w 3).toNat ∨ hbmEnd < pa + len then (s, some (.no 2))
    else if blow ∧ bankFuses ≤ bank.blown then (s, some (.no 3))
    else
      let (bs, s1) := s.homeRead pa len
      match readImage kind bs with
      | none => (s1, some (.no 2))
      | some i =>
        let f (b : ImgBank) : ImgBank :=
          { b with
            a := if r.w 3 = 0 then some i else b.a
            b := if r.w 3 = 0 then b.b else some i
            minVersion := if (r.w 8).getLsbD 0 then Nat.max b.minVersion i.version else b.minVersion
            blown := if blow then b.blown + 1 else b.blown }
        ({ s1 with banks := modAt s1.banks (kind - 1) f }, some (.ok 0))) s

/-- A slot's image is accepted: its signature verifies and its version is at least the fused minimum (R438). -/
def ImgBank.accepted (b : ImgBank) (kind : Nat) (slotB : Bool) : Option Image :=
  (if slotB then b.b else b.a).bind fun i => (readImage kind i.bytes).bind fun i => if b.minVersion ≤ i.version then some i else none

/-- The slot of the two that is tried first and accepted, else the other (R438). -/
def ImgBank.choose (b : ImgBank) (kind : Nat) (slotB : Bool) : Option (Bool × Image) :=
  match b.accepted kind slotB, b.accepted kind (!slotB) with
  | some i, _ => some (slotB, i)
  | none, some i => some (!slotB, i)
  | none, none => none

/-- What Grotto leaves behind (R456). -/
def State.handoverTable (s : State) : Handover :=
  { clock := s.clock, digest := Config.sha512 (s.runningImage 3), contexts := s.ctxs.length, images := s.codeHeap.length,
    faultPos := s.faultSeq.toNat - s.faultQ.length, storePos := s.storeRead, logSeq := s.tlogSeq }

/-- SERVICE_IMAGE_RESTART: request 18; everything taken before it and every shootdown begun is complete; every debug session is
closed, the handover table is written and Grotto stops (R455). -/
def execServiceImageRestart (s : State) : Outcome State Fault Refusal :=
  State.takeKind 18 (fun _ s =>
    if !s.shoots.isEmpty then (s, none)
    else match s.ctxs.findSome? s.brkAway with
    | some pa => (s.wantPage pa, none)
    | none =>
      let s1 := s.ctxs.foldl (fun s x => s.closeSession x) s
      ({ s1 with handover := some s1.handoverTable, grottoUp := false }, some (.ok 0))) s

/-- GROTTO_HANDOVER_ADOPT: the other slot's image is verified and started, or the one that ran before; it adopts the table and takes
requests again (R455, R456). -/
def execGrottoHandoverAdopt (s : State) : Outcome State Fault Refusal :=
  match s.handover with
  | none => .next s
  | some _ =>
    let f (b : ImgBank) : ImgBank :=
      match b.accepted 3 (!b.runningB) with
      | some i => { b with runningB := !b.runningB, running := some i }
      | none => b
    .next { s with banks := modAt s.banks 2 f, handover := none, grottoUp := true }

/-- SET_POWER_CAP: request 19 (R452). -/
def execSetPowerCap (s : State) : Outcome State Fault Refusal :=
  State.takeKind 19 (fun r s =>
    let cap := (r.w 2).toNat
    if cap < 600 ∨ 2200 < cap then (s, some (.no 2)) else ({ s with cap := cap }, some (.ok 0))) s

end Sys2Proof.Machine
end

