-- ==== Sys2Proof/Machine/Rings.lean ====
section
/-! DEFINITION. What the host does to the device and the device to the host (R441, R444, R446): rings, result areas, messages over
Ultra Ethernet, the window onto HBM. -/

namespace Sys2Proof.Machine

open Host (Outcome)

/-! ### Functions (R441, R444) -/

/-- A PCIe function. -/
def State.fnAt (s : State) (n : Nat) : Fn := (s.fns.find? fun f => f.num == n).getD (Fn.empty n)

/-- Change a function. -/
def State.modFn (s : State) (n : Nat) (f : Fn → Fn) : State := { s with fns := modWhere (fun x => x.num == n) f s.fns }

/-- The host reaches a function: the endpoint has trained, and it presents the function; stuck at a boot stage it presents function 0
alone (R438, R441). -/
def State.presents (s : State) (n : Nat) : Bool := s.pcieUp && decide (n < 32) && (n == 0 || !s.service.isStuck)

/-- Slots of a ring by its field of SIZES (R444). -/
def ringSize (sizes : Word) (k : Nat) : Nat := 2 ^ (6 + Nat.min (sizes.extractLsb' (4 * k) 4).toNat 10)

/-- The function's rings are in use. -/
def Fn.on (f : Fn) : Bool := f.enable.getLsbD 0

/-- An address register holds 4 KiB aligned addresses (R444). -/
def pageBase (x : DWord) : DWord := x &&& ~~~ 0xFFF#64

/-- RING_REGISTER_WRITE: base and size registers are written while ENABLE is 0 (R444). -/
def execRingRegisterWrite (fn : Nat) (r : RingReg) (x : DWord) (s : State) : Outcome State Fault Refusal :=
  let lo : Word := x.setWidth 32
  let set (f : Fn) : Fn :=
    match r with
    | .enable => { f with enable := lo &&& 1 }
    | .vectors => { f with vectors := lo &&& 0x07FF07FF#32 }
    | .reqBase => if f.on then f else { f with reqBase := pageBase x }
    | .rplBase => if f.on then f else { f with rplBase := pageBase x }
    | .evtBase => if f.on then f else { f with evtBase := pageBase x }
    | .resBase => if f.on then f else { f with resBase := pageBase x }
    | .sizes => if f.on then f else { f with sizes := lo &&& 0xFFF#32 }
  .next (if s.presents fn then s.modFn fn set else s)

/-! ### Requests arrive (R442, R444, R446) -/

/-- Requests of one cycle are taken PCIe first, then Ultra Ethernet port 0, then port 1 (R442). -/
def pathRank : ReqPath → Nat
  | .pcie _ => 0
  | .uet port _ => port + 1

/-- A request joins the request order (R442). -/
def State.enterReq (s : State) (path : ReqPath) (holder : Nat) (words : List Word) : State :=
  let r : Req := { path := path, holder := holder, arrived := s.clock, words := (List.range 16).map fun k => atD words k 0 }
  let later (q : Req) : Bool := q.arrived == s.clock && decide (pathRank path < pathRank q.path)
  { s with reqs := (s.reqs.filter fun q => !later q) ++ [r] ++ s.reqs.filter later }

/-- The words of some bytes (R10). -/
def wordsOf (bs : List Byte) : List Word :=
  (List.range ((bs.length + 3) / 4)).map fun k => BitVec.ofNat 32 (leNat ((bs.drop (4 * k)).take 4))

/-- The bytes of some words (R10). -/
def bytesOf (ws : List Word) : List Byte := ws.flatMap fun w => leBytes w.toNat 4

/-- Bytes of a ring's slot, and where in host memory the slot of an index stands: at the index modulo the ring's size (R444). -/
def reqSlot : Nat := 64
def rplSlot : Nat := 16
def evtSlot : Nat := 48
def slotAt (base : DWord) (size slot : Nat) (i : Word) : Nat := base.toNat + slot * (i.toNat % size)

/-- The request in the slot of an index (R444). -/
def State.reqAt (s : State) (f : Fn) (i : Word) : List Word := wordsOf (smBytes s.hostMem (slotAt f.reqBase (ringSize f.sizes 0) reqSlot i) reqSlot)

/-- Bytes reach host memory. -/
def State.hostPut (s : State) (a : Nat) (bs : List Byte) : State := { s with hostMem := smPut s.hostMem a bs }

/-- REQTAIL: a doorbell; the device reads the slots from REQHEAD up to REQTAIL − 1 into the request order (R444). -/
def execReqtail (fn : Nat) (x : Word) (s : State) : Outcome State Fault Refusal :=
  if !s.presents fn then .next s
  else
    let f := s.fnAt fn
    if !f.on then .next (s.modFn fn fun f => { f with reqTail := x })
    else
      let n := Nat.min (x - f.reqHead).toNat (ringSize f.sizes 0)
      let s1 := s.modFn fn fun f => { f with reqTail := x, reqHead := f.reqHead + BitVec.ofNat 32 n }
      .next ((List.range n).foldl (fun t k => t.enterReq (.pcie fn) fn (s.reqAt f (f.reqHead + BitVec.ofNat 32 k))) s1)

/-- RPLHEAD: the host has consumed reply slots (R444). -/
def execRplhead (fn : Nat) (x : Word) (s : State) : Outcome State Fault Refusal :=
  .next (if s.presents fn then s.modFn fn fun f => { f with rplHead := x } else s)

/-- EVTHEAD: the host has consumed event slots (R444). -/
def execEvthead (fn : Nat) (x : Word) (s : State) : Outcome State Fault Refusal :=
  .next (if s.presents fn then s.modFn fn fun f => { f with evtHead := x } else s)

/-- UET_MESSAGE_RECEIVE: a request under a bound job identifier is taken; any other message is discarded and counted (R446). -/
def execUetMessageReceive (port job : Nat) (words : List Word) (s : State) : Outcome State Fault Refusal :=
  match s.jobs.find? fun j => j.1 == job with
  | some (_, holder) => .next (if port < 2 then s.enterReq (.uet port job) holder words else s)
  | none => .next { s with uetDrops := s.uetDrops + 1 }

/-! ### Replies and events leave (R442, R444) -/

/-- The four words of a reply (R442). -/
def Reply.words (r : Reply) : List Word :=
  [BitVec.ofNat 32 (r.ctx.toNat * 65536 + r.status * 256), r.id, r.result.setWidth 32, r.result.extractLsb' 32 32]

/-- Room for a reply on the path its request came by (R444). -/
def State.replyRoom (s : State) (r : Reply) : Bool :=
  match r.path with
  | .pcie fn =>
    let f := s.fnAt fn
    f.on && decide ((f.rplTail - f.rplHead).toNat < ringSize f.sizes 1)
  | .uet _ _ => true

/-- REPLY_WRITE: the first reply that has room is written to its slot, its bulk result to the result area before it, and the reply vector is
signalled; over Ultra Ethernet the messages leave by the port the request came by (R442, R444, R446). -/
def execReplyWrite (s : State) : Outcome State Fault Refusal :=
  match s.replies.find? s.replyRoom with
  | none => .next s
  | some r =>
    let s1 := { s with replies := s.replies.erase r }
    match r.path with
    | .pcie fn =>
      let f := s.fnAt fn
      let s2 := s1.hostPut (f.resBase.toNat + (r.result.setWidth 32).toNat % 65536) r.bulk
      .next ((s2.hostPut (slotAt f.rplBase (ringSize f.sizes 1) rplSlot f.rplTail) (bytesOf r.words)).modFn fn fun f =>
        { f with rplTail := f.rplTail + 1, signals := f.signals ++ [(f.vectors.extractLsb' 0 11).toNat] })
    | .uet port job =>
      let bulk := if r.bulk.isEmpty then [] else [(port, job, wordsOf r.bulk)]
      .next { s1 with uetSent := s1.uetSent ++ bulk ++ [(port, job, r.words)] }

/-- The twelve words of an event slot (R444). -/
def Event.words (e : Event) (field : BitVec 16) (clock : DWord) : List Word :=
  let two (x : DWord) : List Word := [x.setWidth 32, x.extractLsb' 32 32]
  [BitVec.ofNat 32 (field.toNat * 65536 + e.kind), e.seq] ++ two clock ++ [e.fr.w0, e.fr.w1] ++ two e.fr.w23 ++ two e.fr.w45 ++
    [e.fr.w6, e.fr.w7]

/-- EVENT_WRITE: the context's next event is written to its slot of the event ring of its function once that has room, or sent under the owner's
job identifier where the function's rings are not in use, by which port the spec does not say (assumption 128); one the owner may answer is
kept (R222, R424, R444). -/
def execEventWrite (ctx : Nat) (s : State) : Outcome State Fault Refusal :=
  match s.ctxAt ctx with
  | none => .next s
  | some x =>
    match x.waiting with
    | [] => .next s
    | e :: rest =>
      let f := s.fnAt ctx
      let ws := e.words x.field s.clock
      let keeps := e.kind == 1 || e.kind == 2 || e.kind == 5
      let s1 := s.modCtx ctx fun y =>
        { y with waiting := rest, events := if keeps then y.events ++ [{ e with clock := s.clock }] else y.events }
      if f.on then
        if (f.evtTail - f.evtHead).toNat < ringSize f.sizes 2 then
          .next ((s1.hostPut (slotAt f.evtBase (ringSize f.sizes 2) evtSlot f.evtTail) (bytesOf ws)).modFn ctx fun f =>
            { f with evtTail := f.evtTail + 1, signals := f.signals ++ [(f.vectors.extractLsb' 16 11).toNat] })
        else .next s
      else
        match s.jobs.find? fun j => j.2 == ctx with
        | some (job, _) => .next { s1 with uetSent := s1.uetSent ++ [((Config.eventPort job).toNat, job, ws)] }
        | none => .next s

/-! ### The window onto HBM (R441) -/

/-- The bytes of function 0's window onto HBM (R441). -/
def hbmWindow : Nat := 2 ^ 36

/-- HBM has been trained: stage 2 is over (R437). -/
def Service.hbmUp : Service → Bool
  | .boot n | .stuck n => decide (2 < n)
  | _ => true

/-- An access of `n` bytes through function 0's window: at the window's offset plus the offset register; a page that another device owns is asked
for first (R150, R441). -/
def State.throughWindow (s : State) (off n : Nat) (f : Nat → State) : State :=
  let pa := s.hbmOff.toNat + off
  if !s.presents 0 || !s.service.hbmUp || decide (hbmWindow < off + n) || decide (hbmEnd < pa + n) then s
  else if !s.ownsPage pa then s.wantPage pa
  else if !s.ownsPage (pa + n - 1) then s.wantPage (pa + n - 1)
  else f pa

/-- HBM_WINDOW_WRITE: the host writes HBM (R441). -/
def execHbmWindowWrite (off : Nat) (bytes : List (BitVec 8)) (s : State) : Outcome State Fault Refusal :=
  .next (s.throughWindow off bytes.length fun pa => s.homeStore pa bytes)

/-- The host reads HBM through function 0's window, as an agent at the homes sees it (R137, R138, R441). -/
def State.windowRead (s : State) (off n : Nat) : State :=
  s.throughWindow off n fun pa =>
    let (bs, s1) := s.homeRead pa n
    { s1 with hostReads := s1.hostReads ++ [bs] }

/-- A register of a function's request window, by its offset: the registers of R444, and 0 elsewhere. -/
def Fn.regAt (f : Fn) (off : Nat) : Nat :=
  match off with
  | 0x000 => f.reqBase.toNat
  | 0x008 => f.rplBase.toNat
  | 0x010 => f.evtBase.toNat
  | 0x018 => f.resBase.toNat
  | 0x020 => f.sizes.toNat
  | 0x024 => f.enable.toNat
  | 0x028 => f.reqTail.toNat
  | 0x02C => f.reqHead.toNat
  | 0x030 => f.rplTail.toNat
  | 0x034 => f.rplHead.toNat
  | 0x038 => f.evtTail.toNat
  | 0x03C => f.evtHead.toNat
  | 0x040 => f.vectors.toNat
  | _ => 0

/-- What a register reads (R149, R204, R235, R444, R446 to R449, R453). -/
def State.mgmtValue (s : State) (r : MgmtReg) : Nat :=
  match r with
  | .monitor die => s.monitor die
  | .link k => (atD s.links k Link.empty).layout
  | .page p => ((s.pageDirs.find? fun d => d.page == p).getD { page := p, st := 0, owner := s.devNum, relrec := false, xfer := 0 }).layout
  | .route dev => (atD s.routes dev 0).toNat
  | .coreMap core => s.siteOf core
  | .offset => s.hbmOff.toNat
  | .logLost => s.logLost
  | .errLost => s.errLost
  | .uetDrops => s.uetDrops
  | .ring fn off => (s.fnAt fn).regAt off

/-- The function a register is reached through (R441). -/
def MgmtReg.fn : MgmtReg → Nat
  | .ring fn _ => fn
  | _ => 0

/-- The host reads a register: eight bytes, of which a narrower register takes the lowest (R10, R441, R444; DESIGN CHOICE, log entry 129). -/
def State.mgmtRead (s : State) (r : MgmtReg) : State :=
  if s.presents r.fn then { s with hostReads := s.hostReads ++ [leBytes (s.mgmtValue r) 8] } else s

/-- ENDPOINT_LINK_TRAINING: the endpoint trains to x16 at 128 GT/s, or to less (R441). -/
def execEndpointLinkTraining (width rate : Nat) (s : State) : Outcome State Fault Refusal :=
  if 1 ≤ width ∧ width ≤ 16 ∧ 1 ≤ rate ∧ rate ≤ 128 then .next { s with pcie := (width, rate), pcieUp := true } else .next s

end Sys2Proof.Machine
end

