-- ==== Sys2Proof/Machine/Board.lean ====
section
/-! DEFINITION. Memory stacks (R178 to R180, R232), Strata (R413), power and temperature (R450 to R452), reset and the boot chain
(R436 to R440). -/

namespace Sys2Proof.Machine

open Host (Outcome)

/-! ### Pseudo-channels (R178 to R180) -/

/-- Change a pseudo-channel. -/
def State.modPChan (s : State) (n : Nat) (f : PChan → PChan) : State :=
  { s with pchans := upsert (fun p => p.num == n) (PChan.empty n) f s.pchans }

/-- A pseudo-channel by number. -/
def State.pchanAt (s : State) (n : Nat) : PChan := (s.pchans.find? fun p => p.num == n).getD (PChan.empty n)

/-- The bank and the row of an address (R178). -/
def bankOf (pa : Nat) : Nat := let u := pa / 256; (u / 2 ^ 11 % 16) ^^^ (u / 2 ^ 25 % 16)
def rowOf (pa : Nat) : Nat := pa / 256 / 2 ^ 15 % 2 ^ 16

/-- The rows still open in a cycle: those accessed less than `n` cycles before (R179). -/
def PChan.aged (p : PChan) (clock : DWord) (n : Nat) : PChan := { p with rows := p.rows.filter fun r => decide (clock.toNat < r.2.2.toNat + n) }

/-- Requests that waited for room enter the controller. -/
def PChan.refill (p : PChan) : PChan := p.late.foldl PChan.take { p with late := [] }

/-- A request is to a row that is open. -/
def PChan.isOpen (p : PChan) (q : HReq) : Bool := p.rows.any fun r => r.1 == bankOf q.addr && r.2.1 == rowOf q.addr

/-- Write-drain mode begins when 48 writes are held and ends when 16 remain (R179). -/
def PChan.drains (p : PChan) : Bool :=
  let n := (p.reqs.filter (·.write)).length
  if p.drain then decide (16 < n) else decide (48 ≤ n)

/-- The bank an owed refresh is issued to: the lowest with no open-row request waiting (R180). -/
def PChan.refreshBank (p : PChan) : Option Nat :=
  if p.owed = 0 then none else (List.range 16).find? fun b => !p.reqs.any fun q => bankOf q.addr == b && p.isOpen q

/-- The first request of those a condition picks: oldest first, reads before writes, and in write-drain mode writes before reads (R179;
that drain mode turns the preference round is a DESIGN CHOICE, since the rule only lifts it there; assumption 103). -/
def PChan.firstOf (p : PChan) (drain : Bool) (c : HReq → Bool) : Option HReq :=
  match p.reqs.find? fun q => c q && q.write == drain with
  | some q => some q
  | none => p.reqs.find? c

/-- The request that comes next, once no refresh does; a read that has waited for `age` cycles comes first (R179). -/
def PChan.nextReq (p : PChan) (age : Nat) (clock : DWord) (drain : Bool) : Option HReq :=
  match p.reqs.find? fun q => !q.write && decide (q.since.toNat + age ≤ clock.toNat) with
  | some q => some q
  | none =>
    match p.firstOf drain p.isOpen with
    | some q => some q
    | none => p.firstOf drain fun _ => true

/-- HBM_REQUEST_ISSUE: an owed refresh, which closes its bank's row, or the next request, which leaves its row open (R179, R180). -/
def execHbmRequestIssue (pc : Nat) (s : State) : Outcome State Fault Refusal :=
  let p := (s.pchanAt pc).aged s.clock (s.scaled 200)
  if s.clock < p.busy then .next s
  else
    let drain := p.drains
    match p.refreshBank, p.nextReq (s.scaled 1024) s.clock drain with
    | some b, _ => .next (s.modPChan pc fun _ => { p with owed := p.owed - 1, drain := drain, rows := p.rows.filter fun r => r.1 != b })
    | none, some q =>
      .next (s.modPChan pc fun _ =>
        { p with
          drain := drain, reqs := p.reqs.erase q
          rows := (bankOf q.addr, rowOf q.addr, s.clock) :: p.rows.filter fun r => r.1 != bankOf q.addr }.refill)
    | none, none => .next s

/-- HBM_ROW_CLOSE: a row last accessed 200 cycles ago is closed (R179, R451). -/
def execHbmRowClose (pc bank : Nat) (s : State) : Outcome State Fault Refusal :=
  let idle (r : Nat × Nat × DWord) : Bool := r.1 == bank && decide (r.2.2.toNat + s.scaled 200 ≤ s.clock.toNat)
  .next (s.modPChan pc fun p => { p with rows := p.rows.filter fun r => !idle r })

/-- HBM_REFRESH_DUE: every 610 cycles a refresh falls due; at the ninth owed every bank is closed and refreshed at once, which holds the
pseudo-channel for 875 cycles, and the requests it holds wait for that (R180, R451). In which cycles of the 610 one falls due the spec
does not say: at CLOCK's multiples, for every pseudo-channel (DESIGN CHOICE; assumption 102). -/
def execHbmRefreshDue (pc : Nat) (s : State) : Outcome State Fault Refusal :=
  let p := s.pchanAt pc
  if pc ≥ 512 ∨ s.clock.toNat % s.scaled 610 ≠ 0 ∨ p.dueAt = some s.clock then .next s
  else if p.owed < 8 then .next (s.modPChan pc fun p => { p with owed := p.owed + 1, dueAt := some s.clock })
  else
    let n := s.scaled 875
    .next (s.modPChan pc fun p =>
      { p with owed := 0, rows := [], rfstall := p.rfstall + n, waited := p.waited + n * (p.reqs.length + p.late.length), busy := s.clock + BitVec.ofNat 64 n, dueAt := some s.clock })

/-- PATROL_SCRUB: the scrub reads a word of HBM: a single-bit error is corrected and logged; an uncorrectable one makes the sector one
that no later read gets data from (R232, R234, R235; while accesses to the sector are under way it strikes after them, assumption 108). -/
def execPatrolScrub (pa : Nat) (err : Option Bool) (s : State) : Outcome State Fault Refusal :=
  let log (kind : Nat) : State := s.logErr 0 kind unitHbm (homeHash (frameOf pa)) (stackOf pa) (BitVec.ofNat 64 (pa / 8 * 8))
  if hbmEnd ≤ pa then .next s
  else
    match err with
    | none => .next s
    | some false => .next (log 1)
    | some true => .next (if s.sectorBusy (pa / 32) then s else (log 4).poisonSector (pa / 32))

/-! ### Soft errors (R232 to R235) -/

/-- A word of a copy that can be fetched again is discarded: the next access fetches it from the home (R233). -/
def State.refetchWord (s : State) (core w : Nat) : State :=
  (s.modCore core fun c => c.modView w fun _ => none).modDir (w / 8) (Dir.dropOwner core w)

/-- An uncorrectable error in a word of an L1: a dirty word or a partial is the only copy, and stays one until it is written over; any other is
discarded, to be fetched again (R232 to R234). -/
def State.strikeL1 (s : State) (core w : Nat) : State :=
  if s.sectorBusy (w / 8) then s
  else
    match (s.coreAt core).view w with
    | some v =>
      if v.st == .dirty then s.modCore core fun c => c.modView w fun v => some { v with bad := true }
      else (s.refetchWord core w).logErr 0 3 unitL1 core 0 (BitVec.ofNat 64 (w / 2 * 8))
    | none =>
      s.modCore core fun c =>
        { c with ub := modWhere (fun u => u.sector == w / 8) (fun u =>
            { u with parts := modAt u.parts (w % 8 * u.parts.length / 8) fun p => { p with bad := true } }) c.ub }

/-- An uncorrectable error strikes: a copy that can be fetched again goes at once; data that exists nowhere else holds the error until it is
read, moved or written over (R232 to R234). Where accesses to a home sector or a scratchpad are under way, it strikes after them (DESIGN CHOICE;
assumption 108). -/
def State.strike (s : State) (e : SoftErr) : State :=
  let again (s : State) (unit core : Nat) (addr : Nat) : State := s.logErr 0 3 unit core 0 (BitVec.ofNat 64 addr)
  match e with
  | .reg g r => s.modGang g fun k => if k.live = 0 then k else { k with bad := r :: k.bad.erase r }
  | .scratch core addr =>
    if !(s.coreAt core).spq.isEmpty then s
    else
      match s.teams.find? fun t => t.core == core && t.uses false (addr / spPage) with
      | none => s
      | some t =>
        match t.held.find? fun h => h.2 == addr / spPage with
        | none => s
        | some h =>
          let k := (h.1 * spPage + addr % spPage) / 8
          s.modTeam t.key fun x => { x with spBad := k :: x.spBad.erase k }
  | .l1 core w => s.strikeL1 core w
  | .path core tile w =>
    if ((s.coreAt core).pathWord tile w).isNone then s
    else
      again (s.modCore core fun c =>
        if tile then { c with tpath := c.tpath.filter fun p => p.1 != w } else { c with cpath := c.cpath.filter fun p => p.1 != w })
        (if tile then unitTile else unitConst) core (w / 2 * 8)
  | .tob core addr => s.modCore core fun c => { c with tobBad := addr / 8 :: c.tobBad.erase (addr / 8) }
  | .ibuf core asid va =>
    if ((s.coreAt core).line asid va).isNone then s
    else again (s.modCore core fun c => { c with ibuf := c.ibuf.filter fun l => !(l.asid == asid && overlaps l.va 32 va 1) }) unitIbuf core va
  | .tlb core asid va die =>
    if die then again { s with dieTlb := s.dieTlb.filter fun p => !(p.1 == core / 64 && p.2.covers asid va) } unitService core va
    else again (s.modCore core fun c => { c with tlb := c.tlb.filter fun t => !t.covers asid va }) unitL1 core va
  | .home pa => if hbmEnd ≤ pa ∨ s.sectorBusy (pa / 32) then s else s.poisonSector (pa / 32)
  | .dir sec =>
    if s.sectorBusy sec then s
    else (s.logErr 0 4 unitDir (homeHash (sec / 16)) 0 (BitVec.ofNat 64 (sec * 32))).poisonSector sec
  | .service addr => s.logErr 0 4 unitService 0 0 (BitVec.ofNat 64 addr)

/-- The unit, the core or home, and the address or index that the log gives a soft error (R235). The manual gives no unit for a translation cache:
a core's is logged as L1, a die's as service-die memory (DESIGN CHOICE; assumption 107). -/
def SoftErr.place : SoftErr → Nat × Nat × Nat
  | .reg g r => (r.place.1, g.core, r.place.2)
  | .scratch core addr => (unitScratch, core, addr / 8 * 8)
  | .l1 core w => (unitL1, core, w / 2 * 8)
  | .path core tile w => (if tile then unitTile else unitConst, core, w / 2 * 8)
  | .tob core addr => (unitTob, core, addr / 8)
  | .ibuf core _ va => (unitIbuf, core, va)
  | .tlb core _ va die => (if die then unitService else unitL1, core, va)
  | .home pa => (unitHbm, homeHash (frameOf pa), pa / 8 * 8)
  | .dir sec => (unitDir, homeHash (sec / 16), sec * 32)
  | .service addr => (unitService, 0, addr)

/-- A soft error: one bit is corrected in what is delivered and in storage, and logged; more strike (R232, R235). -/
def State.softError (s : State) (hard : Bool) (e : SoftErr) : State :=
  if hard then s.strike e
  else
    let stack := match e with | .home pa => stackOf pa | _ => 0
    s.logErr 0 1 e.place.1 e.place.2.1 stack (BitVec.ofNat 64 e.place.2.2)

/-! ### Strata (R413) -/

/-- STRATA_LATCH: every counter latches when CLOCK is a multiple of 2^k: PWRHOLD, PSTCHG, and RFSTALL of each pseudo-channel
(R180, R413, R452). -/
def execStrataLatch (s : State) : Outcome State Fault Refusal :=
  let t := s.strata
  if t.on && s.clock.toNat % 2 ^ t.k == 0 then
    .next { s with strata := { t with latched := [t.pwrhold, t.pstchg] ++ (List.range 512).flatMap fun n => [(s.pchanAt n).rfstall, (s.pchanAt n).waited] } }
  else .next s

/-! ### Power (R451, R452) -/

/-- POWER_ESTIMATE: every 256 cycles; the estimate over 1,024 cycles withholds issue above the cap, and lets it go below the cap less
50 W (R452). -/
def execPowerEstimate (watts : Nat) (s : State) : Outcome State Fault Refusal :=
  let again : Bool := match s.estimates with | (c, _) :: _ => c == s.clock | [] => false
  if s.clock.toNat % 256 ≠ 0 ∨ again then .next s
  else
    let es := (s.clock, watts) :: (s.estimates.filter fun e => decide (s.clock.toNat < e.1.toNat + 1024)).take 3
    let sum := (es.map (·.2)).sum
    let hold := if s.cap * es.length < sum then true else if sum + 50 * es.length < s.cap * es.length then false else s.withhold
    .next { s with estimates := es, withhold := hold }

/-- A change of P-state adds to PSTCHG (R452). -/
def State.toPstate (s : State) (p : Nat) : State :=
  if p = s.pstate then s else { s with pstate := p, strata := { s.strata with pstchg := s.strata.pstchg + 1 } }

/-- PSTATE_CHECK: every 2^16 cycles, in full service; over a limit the device drops one P-state, well below every limit it rises one
(R439, R452). -/
def execPstateCheck (watts : Nat) (s : State) : Outcome State Fault Refusal :=
  if s.clock.toNat % 2 ^ 16 ≠ 0 ∨ s.pstateAt = some s.clock ∨ s.service ≠ .full then .next s
  else
    let hot := s.tmax.any fun t => decide (1600 ≤ t)
    let cool := s.tmax.all fun t => decide (t < 1440)
    let s1 := { s with pstateAt := some s.clock }
    if s.cap < watts ∨ hot then .next (s1.toPstate (Nat.min 3 (s.pstate + 1)))
    else if watts + 100 < s.cap ∧ cool then .next (s1.toPstate (s.pstate - 1))
    else .next s1

/-! ### Temperature and supplies (R436, R449, R450) -/

/-- The device is past the boot chain and its dies run. -/
def Service.runs : Service → Bool
  | .lantern | .leaving | .full => true
  | _ => false

/-- What the compute dies hold is written home, every update-only sector is merged, and the dies are empty, as in reset. -/
def State.emptyDies (s : State) : State :=
  let s1 := (List.range 256).foldl (fun s c => s.drainCore c) s
  let s2 := ((s1.dirs.filter fun d => d.uTag != 0).map (·.sector)).foldl (fun s c => s.mergeNow c) s1
  { s2 with cores := [], dieTlb := [], dirs := [], rel := [], parked := [], l2 := [] }

/-- Every gang of the device is terminated, the saved ones among them (R224). -/
def State.terminateAll (s : State) : State :=
  s.teams.foldl (fun s t => (s.teamGangs t.key ++ t.saved.map (·.gang)).foldl (fun s g => s.terminate g.key t.key) s) s

/-- THERMAL_TRIP: a die's hottest sensor is read, in 1/16 °C. From 115 °C on the device stops issue, terminates every gang, logs a record
and holds the compute dies in reset (R449, R450). -/
def execThermalTrip (die tmax : Nat) (s : State) : Outcome State Fault Refusal :=
  let s1 := { s with tmax := modAt s.tmax die fun _ => tmax % 2 ^ 16 }
  if die < 4 ∧ 1840 ≤ tmax % 2 ^ 16 ∧ s.service.runs then
    let s2 := { s1 with issueStopped := true, service := .thermal, tripped := true }
    .next s2.terminateAll.emptyDies.logService
  else .next s1

/-- THERMAL_RECOVERY: with every die below 95 °C, CD0 leaves reset in Lantern service, without a device reset (R450). -/
def execThermalRecovery (s : State) : Outcome State Fault Refusal :=
  if s.service = .thermal ∧ s.tmax.all fun t => decide (t < 1520) then
    .next { s.toPstate 3 with
      service := .lantern, issueStopped := false
      links := s.links.map fun l => { l with lanes := 0, state := 0 } }
  else .next s

/-- The compute dies are in reset: no gang is resident, and no access of one is under way (R436; assumption 80). -/
def State.resetDies (s : State) : State :=
  { s.emptyDies with
    cur := Gang.empty, gangs := [], teams := s.teams.filter (·.preempted), ornWait := [], orn := [], watches := [], fwd := [] }

/-- INPUT_OUT_OF_LIMITS: issue stops on every core, an uncorrectable error is logged, and the dies are held in reset until device reset
(R436). -/
def execInputOutOfLimits (s : State) : Outcome State Fault Refusal :=
  if s.service = .stopped then .next s else .next { s.resetDies.logService with service := .stopped, issueStopped := true }

/-! ### Reset and the boot chain (R437 to R440) -/

/-- DEVICE_RESET: the machine right after reset; flash and fuses, what stands in the host's memory and the model's own schedule and counters
stay (R437). -/
def execDeviceReset (s : State) : Outcome State Fault Refusal :=
  let bank (b : ImgBank) : ImgBank := { b with running := none, runningB := false }
  let fn (f : Fn) : Fn :=
    { Fn.empty f.num with signals := f.signals }
  .next { State.reset with
    banks := s.banks.map bank, enable := s.enable, fns := s.fns.map fn, sched := s.sched, nextId := s.nextId, freeCtr := s.freeCtr,
    jobs := s.jobs, uetSent := s.uetSent, sent := s.sent, hostMem := s.hostMem, hostReads := s.hostReads, dbgAnswers := s.dbgAnswers }

/-- An image of a kind is verified and runs: the preferred slot's, or the other's (R438). -/
def State.boot (s : State) (kind stage : Nat) : State :=
  let b := atD s.banks (kind - 1) ImgBank.empty
  match b.choose kind (b.blown % 2 == 1) with
  | some (slotB, i) =>
    { s with banks := modAt s.banks (kind - 1) fun b => { b with runningB := slotB, running := some i }, service := .boot (stage + 1) }
  | none => { s with service := .stuck stage }

/-- Stage 2 sets VCORE, which the manual leaves between 650 and 850 mV (R436, R437; assumption 22). -/
def State.setVcore (s : State) : State :=
  let (n, s1) := s.tick
  { s1 with volt := s1.volt.map fun _ => 650 + Config.freeChoice n % 201, service := .boot 3 }

/-- Context 0 as it is at first boot: the only one, on the cores of CD0, with nothing mapped (R437, R439). -/
def firstContext : Ctx := { Ctx.fresh 0 0 with coreset := BitVec.ofNat 256 (2 ^ 64 - 1) }

/-- BOOT_STAGE: the next stage of the boot chain runs; a stage whose image neither slot gives holds the device there (R437 to R439). -/
def execBootStage (s : State) : Outcome State Fault Refusal :=
  match s.service with
  | .boot 1 => .next (s.boot 1 1)
  | .boot 2 => .next s.setVcore
  | .boot 3 => .next (s.boot 2 3)
  | .boot 4 => .next (s.boot 3 4)
  | .boot 5 =>
    .next { s.toPstate 3 with service := .lantern, grottoUp := true, issueStopped := false, ctxs := [firstContext] }
  | _ => .next s

/-- BRINGUP_TESTS_DONE: without a failure Grotto leaves Lantern service, but not after a thermal trip; a failure is logged and keeps it
(R440, R450). -/
def execBringupTestsDone (ok : Bool) (s : State) : Outcome State Fault Refusal :=
  if s.service ≠ .lantern then .next s
  else if !ok then .next s.logService
  else if s.tripped then .next s
  else .next ({ s with service := .leaving }.stopTeams fun t => t.key.ctx == 0)

end Sys2Proof.Machine
end

