-- ==== Sys2Proof/Machine/Dispatch.lean ====
section
/-! DEFINITION. The dispatcher: one arm per constructor of Instr, each a direct call of that row's meaning. -/

namespace Sys2Proof.Machine

open Host (Outcome)

/-- What an instruction, or another step of the device, does to a state. -/
def exec (i : Instr) (s : State) : Host.Outcome State Fault Refusal :=
  match i with
  | .iadd sat o => Sys2Proof.Machine.execIadd sat o s
  | .isub sat o => Sys2Proof.Machine.execIsub sat o s
  | .imul o => Sys2Proof.Machine.execImul o s
  | .imulh o => Sys2Proof.Machine.execImulh o s
  | .imad sat o => Sys2Proof.Machine.execImad sat o s
  | .imadw o => Sys2Proof.Machine.execImadw o s
  | .iaddc h sub ty d a b pc => Sys2Proof.Machine.execIaddc h sub ty d a b pc s
  | .imin o => Sys2Proof.Machine.execImin o s
  | .imax o => Sys2Proof.Machine.execImax o s
  | .iabs o => Sys2Proof.Machine.execIabs o s
  | .ineg o => Sys2Proof.Machine.execIneg o s
  | .and o => Sys2Proof.Machine.execAnd o s
  | .or o => Sys2Proof.Machine.execOr o s
  | .xor o => Sys2Proof.Machine.execXor o s
  | .not o => Sys2Proof.Machine.execNot o s
  | .bool3 h fn ty d a b c => Sys2Proof.Machine.execBool3 h fn ty d a b c s
  | .shl o => Sys2Proof.Machine.execShl o s
  | .shr o => Sys2Proof.Machine.execShr o s
  | .shra o => Sys2Proof.Machine.execShra o s
  | .shd o => Sys2Proof.Machine.execShd o s
  | .rot o => Sys2Proof.Machine.execRot o s
  | .bfe o => Sys2Proof.Machine.execBfe o s
  | .bfi h ty d a b sel => Sys2Proof.Machine.execBfi h ty d a b sel s
  | .popc o => Sys2Proof.Machine.execPopc o s
  | .clz o => Sys2Proof.Machine.execClz o s
  | .brev o => Sys2Proof.Machine.execBrev o s
  | .bsel h d a b c => Sys2Proof.Machine.execBsel h d a b c s
  | .icmp h cc ty pd a b => Sys2Proof.Machine.execIcmp h cc ty pd a b s
  | .isel h ty d a b pc => Sys2Proof.Machine.execIsel h ty d a b pc s
  | .mov h ty d a => Sys2Proof.Machine.execMov h ty d a s
  | .movi h hi d imm => Sys2Proof.Machine.execMovi h hi d imm s
  | .movsr h sel d => Sys2Proof.Machine.execMovsr h sel d s
  | .lea h sx sh d m => Sys2Proof.Machine.execLea h sx sh d m s
  | .fadd o => Sys2Proof.Machine.execFadd o s
  | .fsub o => Sys2Proof.Machine.execFsub o s
  | .fmul o => Sys2Proof.Machine.execFmul o s
  | .ffma o negc c => Sys2Proof.Machine.execFfma o negc c s
  | .fmin o => Sys2Proof.Machine.execFmin o s
  | .fmax o => Sys2Proof.Machine.execFmax o s
  | .fcmp h ty ftz cc pd a b => Sys2Proof.Machine.execFcmp h ty ftz cc pd a b s
  | .fsel h ty d a b pc => Sys2Proof.Machine.execFsel h ty d a b pc s
  | .fclass h ty d a => Sys2Proof.Machine.execFclass h ty d a s
  | .frnd o => Sys2Proof.Machine.execFrnd o s
  | .fscale o n => Sys2Proof.Machine.execFscale o n s
  | .rcp o => Sys2Proof.Machine.execRcp o s
  | .rsq o => Sys2Proof.Machine.execRsq o s
  | .sqrt o => Sys2Proof.Machine.execSqrt o s
  | .exp2 o => Sys2Proof.Machine.execExp2 o s
  | .log2 o => Sys2Proof.Machine.execLog2 o s
  | .sin o => Sys2Proof.Machine.execSin o s
  | .cos o => Sys2Proof.Machine.execCos o s
  | .tanh o => Sys2Proof.Machine.execTanh o s
  | .sigm o => Sys2Proof.Machine.execSigm o s
  | .cvt rm o => Sys2Proof.Machine.execCvt rm o s
  | .cvtSr rnd o => Sys2Proof.Machine.execCvtSr rnd o s
  | .cvtx rm o => Sys2Proof.Machine.execCvtx rm o s
  | .pack h w d a b j => Sys2Proof.Machine.execPack h w d a b j s
  | .unpk h mode w d a j => Sys2Proof.Machine.execUnpk h mode w d a j s
  | .dp4 k o => Sys2Proof.Machine.execDp4 k o s
  | .dp8 k o => Sys2Proof.Machine.execDp8 k o s
  | .dp2 k o => Sys2Proof.Machine.execDp2 k o s
  | .pfma rm bf bl o => Sys2Proof.Machine.execPfma rm bf bl o s
  | .clrmx h mx fl => Sys2Proof.Machine.execClrmx h mx fl s
  | .rdmx h clr fl d => Sys2Proof.Machine.execRdmx h clr fl d s
  | .fusedGroup g => Sys2Proof.Machine.execFusedGroup g s
  | .bra h disp => Sys2Proof.Machine.execBra h disp s
  | .braAny h disp => Sys2Proof.Machine.execBraAny h disp s
  | .braAll h disp => Sys2Proof.Machine.execBraAll h disp s
  | .call h link t => Sys2Proof.Machine.execCall h link t s
  | .ret h t => Sys2Proof.Machine.execRet h t s
  | .jmpi h t => Sys2Proof.Machine.execJmpi h t s
  | .fork h f p lfalse ltail => Sys2Proof.Machine.execFork h f p lfalse ltail s
  | .endarm h f => Sys2Proof.Machine.execEndarm h f s
  | .pub h f w => Sys2Proof.Machine.execPub h f w s
  | .join h f d a b => Sys2Proof.Machine.execJoin h f d a b s
  | .joinp h f pd pa pb => Sys2Proof.Machine.execJoinp h f pd pa pb s
  | .memdone h f => Sys2Proof.Machine.execMemdone h f s
  | .exit h => Sys2Proof.Machine.execExit h s
  | .nop h => Sys2Proof.Machine.execNop h s
  | .nopW h => Sys2Proof.Machine.execNopW h s
  | .pset h op pd pa pb => Sys2Proof.Machine.execPset h op pd pa pb s
  | .pmov h form => Sys2Proof.Machine.execPmov h form s
  | .ldg o acq hint => Sys2Proof.Machine.execLdg o acq hint s
  | .stg o rel hint => Sys2Proof.Machine.execStg o rel hint s
  | .lds o => Sys2Proof.Machine.execLds o s
  | .sts o => Sys2Proof.Machine.execSts o s
  | .ldsRemote o c => Sys2Proof.Machine.execLdsRemote o c s
  | .stsRemote o c => Sys2Proof.Machine.execStsRemote o c s
  | .ldc o pri => Sys2Proof.Machine.execLdc o pri s
  | .ldt o pri => Sys2Proof.Machine.execLdt o pri s
  | .pref h level m hint => Sys2Proof.Machine.execPref h level m hint s
  | .atom a op ty d m b => Sys2Proof.Machine.execAtom a op ty d m b s
  | .cas a ty d m cmp new => Sys2Proof.Machine.execCas a ty d m cmp new s
  | .atomf a op ty d m b => Sys2Proof.Machine.execAtomf a op ty d m b s
  | .hop a op ty d m b c => Sys2Proof.Machine.execHop a op ty d m b c s
  | .red h ahead op m b => Sys2Proof.Machine.execRed h ahead op m b s
  | .redu h ahead op m b => Sys2Proof.Machine.execRedu h ahead op m b s
  | .atoms o => Sys2Proof.Machine.execAtoms o s
  | .atomsRemote o prow pcol => Sys2Proof.Machine.execAtomsRemote o prow pcol s
  | .fence h => Sys2Proof.Machine.execFence h s
  | .pfence h c t => Sys2Proof.Machine.execPfence h c t s
  | .flush r => Sys2Proof.Machine.execFlush r s
  | .inval r => Sys2Proof.Machine.execInval r s
  | .sdrain h => Sys2Proof.Machine.execSdrain h s
  | .waitw o => Sys2Proof.Machine.execWaitw o s
  | .sppin h a n => Sys2Proof.Machine.execSppin h a n s
  | .spunpin h a n => Sys2Proof.Machine.execSpunpin h a n s
  | .resv h shr fmt n d a b c => Sys2Proof.Machine.execResv h shr fmt n d a b c s
  | .relv h n => Sys2Proof.Machine.execRelv h n s
  | .obld o => Sys2Proof.Machine.execObld o s
  | .obst o => Sys2Proof.Machine.execObst o s
  | .mma h a => Sys2Proof.Machine.execMma h a s
  | .mmawait h d n => Sys2Proof.Machine.execMmawait h d n s
  | .mqstat h d => Sys2Proof.Machine.execMqstat h d s
  | .rowp h k d => Sys2Proof.Machine.execRowp h k d s
  | .asLoop h k c => Sys2Proof.Machine.execAsLoop h k c s
  | .asAddr h f => Sys2Proof.Machine.execAsAddr h f s
  | .asPush h q ty m => Sys2Proof.Machine.execAsPush h q ty m s
  | .asEnd h => Sys2Proof.Machine.execAsEnd h s
  | .asEndAbort h => Sys2Proof.Machine.execAsEndAbort h s
  | .pop h d q => Sys2Proof.Machine.execPop h d q s
  | .fqstat h d q => Sys2Proof.Machine.execFqstat h d q s
  | .prom h d => Sys2Proof.Machine.execProm h d s
  | .sleep h tillCycle a => Sys2Proof.Machine.execSleep h tillCycle a s
  | .mjoin h k => Sys2Proof.Machine.execMjoin h k s
  | .mleave h k => Sys2Proof.Machine.execMleave h k s
  | .mwait h set k b => Sys2Proof.Machine.execMwait h set k b s
  | .mset h k b => Sys2Proof.Machine.execMset h k b s
  | .mget h d k => Sys2Proof.Machine.execMget h d k s
  | .bar h n count => Sys2Proof.Machine.execBar h n count s
  | .bara h d n count => Sys2Proof.Machine.execBara h d n count s
  | .barw h n a => Sys2Proof.Machine.execBarw h n a s
  | .sbar h d n a b => Sys2Proof.Machine.execSbar h d n a b s
  | .vote h dst pa => Sys2Proof.Machine.execVote h dst pa s
  | .shfl h mode ty d a b fill => Sys2Proof.Machine.execShfl h mode ty d a b fill s
  | .matchI h all ty d a => Sys2Proof.Machine.execMatch h all ty d a s
  | .redux h op d a => Sys2Proof.Machine.execRedux h op d a s
  | .elect h dst => Sys2Proof.Machine.execElect h dst s
  | .launch h d a place => Sys2Proof.Machine.execLaunch h d a place s
  | .launchCwait h a => Sys2Proof.Machine.execLaunchCwait h a s
  | .trap h code => Sys2Proof.Machine.execTrap h code s
  | .bkpt h code => Sys2Proof.Machine.execBkpt h code s
  | .halt h => Sys2Proof.Machine.execHalt h s
  | .perf h clr sel d => Sys2Proof.Machine.execPerf h clr sel d s
  | .sampctlStart h a => Sys2Proof.Machine.execSampctlStart h a s
  | .sampctlStop h => Sys2Proof.Machine.execSampctlStop h s
  | .sampctlDrop h d => Sys2Proof.Machine.execSampctlDrop h d s
  | .storeQueueRetire core id => Sys2Proof.Machine.execStoreQueueRetire core id s
  | .storeRegistration id => Sys2Proof.Machine.execStoreRegistration id s
  | .releaseWriteThrough id => Sys2Proof.Machine.execReleaseWriteThrough id s
  | .acquireAtHome id => Sys2Proof.Machine.execAcquireAtHome id s
  | .atomicAtHome id => Sys2Proof.Machine.execAtomicAtHome id s
  | .loadFetch id => Sys2Proof.Machine.execLoadFetch id s
  | .dataReturn core id => Sys2Proof.Machine.execDataReturn core id s
  | .backgroundWriteback core wa m => Sys2Proof.Machine.execBackgroundWriteback core wa m s
  | .updateOnlyEnter id => Sys2Proof.Machine.execUpdateOnlyEnter id s
  | .reduAccept core id => Sys2Proof.Machine.execReduAccept core id s
  | .recallReturn sector core => Sys2Proof.Machine.execRecallReturn sector core s
  | .pathFill id => Sys2Proof.Machine.execPathFill id s
  | .engineRegistration id => Sys2Proof.Machine.execEngineRegistration id s
  | .engineWrite core eng => Sys2Proof.Machine.execEngineWrite core eng s
  | .strandWaitCountExpiry core part => Sys2Proof.Machine.execStrandWaitCountExpiry core part s
  | .gangSwap core part => Sys2Proof.Machine.execGangSwap core part s
  | .forcedGangSwap core part => Sys2Proof.Machine.execForcedGangSwap core part s
  | .teamPlacement ctx => Sys2Proof.Machine.execTeamPlacement ctx s
  | .teamStrandsReady t => Sys2Proof.Machine.execTeamStrandsReady t s
  | .gridDescriptorWrite core id => Sys2Proof.Machine.execGridDescriptorWrite core id s
  | .teamExit t => Sys2Proof.Machine.execTeamExit t s
  | .softBarrierDeadline t bar => Sys2Proof.Machine.execSoftBarrierDeadline t bar s
  | .sleepWake g strand => Sys2Proof.Machine.execSleepWake g strand s
  | .promiseMiss core eng => Sys2Proof.Machine.execPromiseMiss core eng s
  | .storeCheck g => Sys2Proof.Machine.execStoreCheck g s
  | .matrixCommandAccept g => Sys2Proof.Machine.execMatrixCommandAccept g s
  | .tileStep core => Sys2Proof.Machine.execTileStep core s
  | .matrixCommandComplete g => Sys2Proof.Machine.execMatrixCommandComplete g s
  | .bridlePush core => Sys2Proof.Machine.execBridlePush core s
  | .pushEnterQueue g q => Sys2Proof.Machine.execPushEnterQueue g q s
  | .scratchpadStart core => Sys2Proof.Machine.execScratchpadStart core s
  | .cqWrite core id => Sys2Proof.Machine.execCqWrite core id s
  | .ceCopy core id => Sys2Proof.Machine.execCeCopy core id s
  | .ceGather core id => Sys2Proof.Machine.execCeGather core id s
  | .ceScatter core id => Sys2Proof.Machine.execCeScatter core id s
  | .ceReduceCopy core id => Sys2Proof.Machine.execCeReduceCopy core id s
  | .ceAccept core eng => Sys2Proof.Machine.execCeAccept core eng s
  | .ceCommandComplete core eng => Sys2Proof.Machine.execCeCommandComplete core eng s
  | .pageOwnershipRequest page dev => Sys2Proof.Machine.execPageOwnershipRequest page dev s
  | .pageGiveUp page => Sys2Proof.Machine.execPageGiveUp page s
  | .waitwRefetch core id => Sys2Proof.Machine.execWaitwRefetch core id s
  | .preemption t => Sys2Proof.Machine.execPreemption t s
  | .resumption t => Sys2Proof.Machine.execResumption t s
  | .timeSliceEnd group => Sys2Proof.Machine.execTimeSliceEnd group s
  | .runtimeLimit t => Sys2Proof.Machine.execRuntimeLimit t s
  | .debugPartitionStop core part => Sys2Proof.Machine.execDebugPartitionStop core part s
  | .debugPartitionResume core part => Sys2Proof.Machine.execDebugPartitionResume core part s
  | .debugHalt g => Sys2Proof.Machine.execDebugHalt g s
  | .debugResume g => Sys2Proof.Machine.execDebugResume g s
  | .debugWriteState g w => Sys2Proof.Machine.execDebugWriteState g w s
  | .debugSetBreakpoint ctx va set => Sys2Proof.Machine.execDebugSetBreakpoint ctx va set s
  | .reqtail fn x => Sys2Proof.Machine.execReqtail fn x s
  | .rplhead fn x => Sys2Proof.Machine.execRplhead fn x s
  | .evthead fn x => Sys2Proof.Machine.execEvthead fn x s
  | .ringRegisterWrite fn r x => Sys2Proof.Machine.execRingRegisterWrite fn r x s
  | .uetMessageReceive port job words => Sys2Proof.Machine.execUetMessageReceive port job words s
  | .eventWrite ctx => Sys2Proof.Machine.execEventWrite ctx s
  | .flitReceive f => Sys2Proof.Machine.execFlitReceive f s
  | .flitReplay link => Sys2Proof.Machine.execFlitReplay link s
  | .linkLaneFailure link lanes => Sys2Proof.Machine.execLinkLaneFailure link lanes s
  | .linkTraining link peer => Sys2Proof.Machine.execLinkTraining link peer s
  | .routeRewrite dev mask => Sys2Proof.Machine.execRouteRewrite dev mask s
  | .hbmRequestIssue pc => Sys2Proof.Machine.execHbmRequestIssue pc s
  | .hbmRowClose pc bank => Sys2Proof.Machine.execHbmRowClose pc bank s
  | .hbmRefreshDue pc => Sys2Proof.Machine.execHbmRefreshDue pc s
  | .patrolScrub pa err => Sys2Proof.Machine.execPatrolScrub pa err s
  | .sample core part => Sys2Proof.Machine.execSample core part s
  | .powerEstimate watts => Sys2Proof.Machine.execPowerEstimate watts s
  | .pstateCheck watts => Sys2Proof.Machine.execPstateCheck watts s
  | .thermalTrip die tmax => Sys2Proof.Machine.execThermalTrip die tmax s
  | .bringupTestsDone ok => Sys2Proof.Machine.execBringupTestsDone ok s
  | .instructionFetch core asid va => Sys2Proof.Machine.execInstructionFetch core asid va s
  | .engineRead core eng => Sys2Proof.Machine.execEngineRead core eng s
  | .debugStep g strand => Sys2Proof.Machine.execDebugStep g strand s
  | .hbmWindowWrite off bytes => Sys2Proof.Machine.execHbmWindowWrite off bytes s
  | .endpointLinkTraining width rate => Sys2Proof.Machine.execEndpointLinkTraining width rate s
  | .ornSequencerRelease => Sys2Proof.Machine.execOrnSequencerRelease s
  | .faultRecordWrite => Sys2Proof.Machine.execFaultRecordWrite s
  | .shootdownComplete => Sys2Proof.Machine.execShootdownComplete s
  | .forwardedAtomic => Sys2Proof.Machine.execForwardedAtomic s
  | .hangWalk => Sys2Proof.Machine.execHangWalk s
  | .grottoFaultAnswer => Sys2Proof.Machine.execGrottoFaultAnswer s
  | .pageRepair => Sys2Proof.Machine.execPageRepair s
  | .lazyBinding => Sys2Proof.Machine.execLazyBinding s
  | .createContext => Sys2Proof.Machine.execCreateContext s
  | .destroyContext => Sys2Proof.Machine.execDestroyContext s
  | .writePageTableEntry => Sys2Proof.Machine.execWritePageTableEntry s
  | .launchHostGrid => Sys2Proof.Machine.execLaunchHostGrid s
  | .holdPage => Sys2Proof.Machine.execHoldPage s
  | .releasePage => Sys2Proof.Machine.execReleasePage s
  | .deferPages => Sys2Proof.Machine.execDeferPages s
  | .grantDebugRight => Sys2Proof.Machine.execGrantDebugRight s
  | .revokeDebugRight => Sys2Proof.Machine.execRevokeDebugRight s
  | .attestationReport => Sys2Proof.Machine.execAttestationReport s
  | .registerSampleBuffer => Sys2Proof.Machine.execRegisterSampleBuffer s
  | .strataControl => Sys2Proof.Machine.execStrataControl s
  | .resumeOrTerminate => Sys2Proof.Machine.execResumeOrTerminate s
  | .readLogs => Sys2Proof.Machine.execReadLogs s
  | .domainMembershipChange => Sys2Proof.Machine.execDomainMembershipChange s
  | .leaveLanternService => Sys2Proof.Machine.execLeaveLanternService s
  | .writeImageSlot => Sys2Proof.Machine.execWriteImageSlot s
  | .serviceImageRestart => Sys2Proof.Machine.execServiceImageRestart s
  | .setPowerCap => Sys2Proof.Machine.execSetPowerCap s
  | .grottoHandoverAdopt => Sys2Proof.Machine.execGrottoHandoverAdopt s
  | .replyWrite => Sys2Proof.Machine.execReplyWrite s
  | .strataLatch => Sys2Proof.Machine.execStrataLatch s
  | .thermalRecovery => Sys2Proof.Machine.execThermalRecovery s
  | .inputOutOfLimits => Sys2Proof.Machine.execInputOutOfLimits s
  | .deviceReset => Sys2Proof.Machine.execDeviceReset s
  | .bootStage => Sys2Proof.Machine.execBootStage s

end Sys2Proof.Machine
end

