-- ==== Sys2Proof/Machine/Policy.lean ====
section
/-! DEFINITION. Which step the device makes next, where the manual leaves that to timing: the schedule decides, and where it has no
entry a default that gives every part of the device its turn (DESIGN CHOICE; assumption 30); and what follows at once from any step. -/

namespace Sys2Proof

/-- The rows that are no instruction of a strand: the device's other steps. -/
def Instr.isStep : Instr → Bool
  | .storeQueueRetire .. | .storeRegistration .. | .releaseWriteThrough .. | .acquireAtHome .. | .atomicAtHome ..
  | .loadFetch .. | .dataReturn .. | .backgroundWriteback .. | .updateOnlyEnter .. | .reduAccept .. | .recallReturn ..
  | .pathFill .. | .engineRegistration .. | .engineWrite .. | .strandWaitCountExpiry .. | .gangSwap ..
  | .forcedGangSwap .. | .teamPlacement .. | .teamStrandsReady .. | .gridDescriptorWrite .. | .teamExit ..
  | .softBarrierDeadline .. | .sleepWake .. | .promiseMiss .. | .storeCheck .. | .matrixCommandAccept .. | .tileStep ..
  | .matrixCommandComplete .. | .bridlePush .. | .pushEnterQueue .. | .scratchpadStart .. | .cqWrite .. | .ceCopy ..
  | .ceGather .. | .ceScatter .. | .ceReduceCopy .. | .ceAccept .. | .ceCommandComplete .. | .pageOwnershipRequest ..
  | .pageGiveUp .. | .waitwRefetch .. | .preemption .. | .resumption .. | .timeSliceEnd .. | .runtimeLimit ..
  | .debugPartitionStop .. | .debugPartitionResume .. | .debugHalt .. | .debugResume .. | .debugWriteState ..
  | .debugSetBreakpoint .. | .reqtail .. | .rplhead .. | .evthead .. | .ringRegisterWrite .. | .uetMessageReceive ..
  | .eventWrite .. | .flitReceive .. | .flitReplay .. | .linkLaneFailure .. | .linkTraining .. | .routeRewrite ..
  | .hbmRequestIssue .. | .hbmRowClose .. | .hbmRefreshDue .. | .patrolScrub .. | .sample .. | .powerEstimate ..
  | .pstateCheck .. | .thermalTrip .. | .bringupTestsDone .. | .instructionFetch .. | .engineRead .. | .debugStep ..
  | .hbmWindowWrite .. | .endpointLinkTraining .. | .ornSequencerRelease .. | .faultRecordWrite .. | .shootdownComplete ..
  | .forwardedAtomic .. | .hangWalk .. | .grottoFaultAnswer .. | .pageRepair .. | .lazyBinding .. | .createContext ..
  | .destroyContext .. | .writePageTableEntry .. | .launchHostGrid .. | .holdPage .. | .releasePage .. | .deferPages ..
  | .grantDebugRight .. | .revokeDebugRight .. | .attestationReport .. | .registerSampleBuffer .. | .strataControl ..
  | .resumeOrTerminate .. | .readLogs .. | .domainMembershipChange .. | .leaveLanternService .. | .writeImageSlot ..
  | .serviceImageRestart .. | .setPowerCap .. | .grottoHandoverAdopt .. | .replyWrite .. | .strataLatch ..
  | .thermalRecovery .. | .inputOutOfLimits .. | .deviceReset .. | .bootStage .. => true
  | _ => false

end Sys2Proof

namespace Sys2Proof.Machine

open Host (Outcome)

/-! ### What follows at once -/

/-- What the manual has happen together with whatever made it possible: waits that are over end, launches whose descriptor has
arrived go on, due resumptions come, sets of an L1 that a split block has filled beyond their tags give blocks up, requests of no kind
are turned away, Lantern service is left, save areas follow their gangs (R113, R117, R122, R220, R227, R348, R405, R440, R443). -/
def State.settled (s : State) : State :=
  let s1 := (s.settle.settleEngines.finishLaunches.endCwaits).resumeDue
  let s2 := ((s1.tellRelRec.refuseUnknown).finishLeaving).sendOut
  ((s2.cores.map (·.num)).foldl (fun s n => s.trimCore n) s2).keepSaves

/-! ### The default: what could happen next -/

/-- The steps of a request at its home, by its kind (R141). -/
def OrnReq.steps (r : OrnReq) : List Instr :=
  match r.kind with
  | .register => [.storeRegistration r.id]
  | .release => [.releaseWriteThrough r.id]
  | .acquireLoad => [.acquireAtHome r.id]
  | .atomic _ | .red _ => [.atomicAtHome r.id]
  | .fetch | .l2Fill | .watch => [.loadFetch r.id]
  | .remote .. => [.forwardedAtomic]
  | .uEnter _ => [.updateOnlyEnter r.id]
  | .pathFill _ => [.pathFill r.id]
  | .engReg _ => [.engineRegistration r.id]
  | .engRead e | .engWrite e => [if e = 0 then .tileStep r.core else .engineRead r.core (e - 1)]
  | .push .. => [.bridlePush r.core]
  | .askBack c => [.recallReturn r.sector c]

/-- The steps of a store-queue entry: it retires, or an engine or the work distributor takes it. -/
def entrySteps (n id : Nat) : List Instr :=
  [Instr.storeQueueRetire n id, Instr.reduAccept n id, Instr.gridDescriptorWrite n id, Instr.cqWrite n id, Instr.ceCopy n id, Instr.ceGather n id,
   Instr.ceScatter n id, Instr.ceReduceCopy n id]

/-- The steps of a copy engine. -/
def engineSteps (n e : Nat) : List Instr := [Instr.ceAccept n e, Instr.engineRead n e, Instr.engineWrite n e, Instr.ceCommandComplete n e]

/-- The steps of a core: its results, its queues, its copy engines, its scratchpad. -/
def Core.steps (c : Core) : List Instr :=
  let n := c.num
  List.flatten
    [c.inflight.map fun f => Instr.dataReturn n f.id, (c.sq ++ c.gone).flatMap fun e => entrySteps n e.id,
     if c.ces.all (·.queue.isEmpty) then [] else engineSteps n 0 ++ engineSteps n 1,
     if c.spq.isEmpty then [] else [Instr.scratchpadStart n]]

/-- The steps of a core that holds gangs: its matrix engine, its access slices, its partitions. -/
def coreGangSteps (n : Nat) : List Instr :=
  let part (p : Nat) : List Instr := [Instr.gangSwap n p, Instr.forcedGangSwap n p, Instr.strandWaitCountExpiry n p]
  List.flatten [[Instr.tileStep n, Instr.bridlePush n], (List.range 4).flatMap part]

/-- The steps of a gang: its store checks, its matrix queue, its feed queues. -/
def gangSteps (g : Gang) : List Instr :=
  [Instr.storeCheck g.key, Instr.matrixCommandAccept g.key, Instr.matrixCommandComplete g.key] ++
    ([0, 1, 2, 3] : List (Fin 4)).map fun q => Instr.pushEnterQueue g.key q

/-- The lines the ready strands of a gang are to issue from and the core does not hold. -/
def State.fetches (s : State) (g : Gang) : List Instr :=
  let c := s.coreAt g.key.core
  let lacks (st : Strand) : Bool := st.fetching && (c.line g.team.ctx st.pc.toNat).isNone
  (g.strands.filter lacks).map fun st => Instr.instructionFetch g.key.core g.team.ctx (st.pc.toNat / 32 * 32)

/-- The requests Grotto may take (R443). -/
def requestSteps : List Instr :=
  [Instr.createContext, Instr.destroyContext, Instr.writePageTableEntry, Instr.launchHostGrid, Instr.holdPage, Instr.releasePage,
   Instr.deferPages, Instr.grantDebugRight, Instr.revokeDebugRight, Instr.attestationReport, Instr.registerSampleBuffer,
   Instr.strataControl, Instr.resumeOrTerminate, Instr.readLogs, Instr.domainMembershipChange, Instr.leaveLanternService,
   Instr.writeImageSlot, Instr.serviceImageRestart, Instr.setPowerCap]

/-- The steps of a team. -/
def teamSteps (t : TKey) : List Instr :=
  [Instr.teamStrandsReady t, Instr.teamExit t, Instr.preemption t, Instr.resumption t, Instr.runtimeLimit t]

/-- The steps of a pseudo-channel. -/
def PChan.steps (p : PChan) : List Instr :=
  (if p.reqs.isEmpty && p.owed == 0 then [] else [Instr.hbmRequestIssue p.num]) ++ p.rows.map fun r => Instr.hbmRowClose p.num r.1

/-- The steps of Grotto and the service die, which take their turn every 256 cycles. -/
def State.serviceSteps (s : State) : List Instr :=
  if s.clock.toNat % 256 ≠ 0 then []
  else
    List.flatten
      [if s.reqs.isEmpty then [] else requestSteps, s.ctxs.map fun x => Instr.eventWrite x.num,
       [Instr.replyWrite, Instr.grottoFaultAnswer, Instr.pageRepair, Instr.lazyBinding, Instr.grottoHandoverAdopt, Instr.bootStage,
        Instr.thermalRecovery]]

/-- The steps of every unit of the device, each with no effect where it cannot be made. -/
def State.steps (s : State) : List Instr :=
  let pages : List Nat := s.pageRecalls ++ (s.pageDirs.filter fun d => d.st == 2).map (·.page)
  List.flatten
    [s.orn.flatMap OrnReq.steps, [Instr.ornSequencerRelease], s.cores.flatMap Core.steps,
     ((s.allGangs.map fun g => g.key.core).dedup).flatMap coreGangSteps, s.allGangs.flatMap gangSteps,
     (s.watches.filter (·.again)).map fun w => Instr.waitwRefetch w.who.g.core w.id,
     s.teams.flatMap fun t => teamSteps t.key, s.ctxs.map fun x => Instr.teamPlacement x.num, (List.range 8).map Instr.timeSliceEnd,
     [Instr.faultRecordWrite, Instr.shootdownComplete, Instr.hangWalk, Instr.forwardedAtomic],
     s.pageWaits.map fun w => Instr.pageOwnershipRequest w.1 w.2, pages.map Instr.pageGiveUp, s.pchans.flatMap PChan.steps,
     s.serviceSteps]

/-- Steps that are made before time goes on: those the manual gives a cycle (R180, R182, R395, R396, R413), and the fetches that
ready strands wait for. -/
def State.dueSteps (s : State) : List Instr :=
  let misses (c : Core) : List Instr := [Instr.promiseMiss c.num 0, Instr.promiseMiss c.num 1]
  let bars (t : Team) : List Instr := (List.range 16).map fun b => Instr.softBarrierDeadline t.key (Fin.ofNat 16 b)
  let wakes (g : Gang) : List Instr :=
    ((List.range 16).filter fun k => (g.strandAt k).state == .sleeping).map fun k => Instr.sleepWake g.key k
  List.flatten
    [if s.strata.on then [Instr.strataLatch] else [],
     if s.clock.toNat % s.scaled 610 = 0 then (List.range 512).flatMap fun n => [Instr.hbmRefreshDue n, Instr.hbmRequestIssue n]
     else [], s.cores.flatMap misses,
     s.teams.flatMap bars, s.allGangs.flatMap wakes, s.allGangs.flatMap s.fetches]

/-- The samples of a cycle, which see what has issued in it (R412). -/
def State.sampleSteps (s : State) : List Instr :=
  s.cores.flatMap fun c => ((List.range 4).filter fun p => !(atD c.parts p Part.empty).samp.isEmpty).map fun p => Instr.sample c.num p

/-- Some steps of the device, one after the other. -/
def State.makeAll (ex : Instr → State → Outcome State Fault Refusal) (s : State) (steps : List Instr) : State :=
  steps.foldl (fun s i => match ex i s with | .next t => t | _ => s) s

/-- Every core that holds a gang has its issue cycle, in ascending number. -/
def State.issueAll (ex : Instr → State → Outcome State Fault Refusal) (s : State) : State :=
  (((s.allGangs.map fun g => g.key.core).dedup).insertionSort (· ≤ ·)).foldl (fun s n => match s.issueCycle ex n [] with | .next t => t | _ => s) s

/-- The default, with the meanings `ex`: a cycle passes; a debug step that a withheld cycle has kept waiting is made; what falls due in it is made, every core issues, samples are taken, and every
other unit of the device takes its turn. -/
def State.byDefault (ex : Instr → State → Outcome State Fault Refusal) (s : State) : State :=
  let s1 := match (s.pass ex 1).runStepped ex with | .next t => t | _ => s.pass ex 1
  let s2 := s1.makeAll ex s1.dueSteps
  let s3 := s2.issueAll ex
  (s3.makeAll ex s3.sampleSteps).makeAll ex s2.steps

/-! ### One move -/

/-- A move of the schedule, with the meanings `ex`: the issue cycle of a core; or another step of the device, after which a strand that a
debug session steps issues (R326); the load of a code image (R211); the administrator binds a job identifier to a holder (R446) or writes
the offset register of the window onto HBM (R441); a soft error (R232); the host writes its own memory or reads, a debug session reads, a link's
receiver frees buffers (R205, R422, R441, R444, R447). An instruction stands in no other place than a
strand. -/
def State.move (ex : Instr → State → Outcome State Fault Refusal) (m : Move) (s : State) : Outcome State Fault Refusal :=
  match m with
  | .issue core busy => s.issueCycle ex core busy
  | .event i =>
    if i.isStep then
      match ex i s with
      | .next s1 => s1.runStepped ex
      | o => o
    else .next s
  | .load ctx secs image table => .next (s.loaded ctx secs image table)
  | .bindJob job holder => .next { s with jobs := (job, holder) :: s.jobs.filter fun j => j.1 != job }
  | .offset x => .next { s with hbmOff := x }
  | .soft hard e => .next (s.softError hard e)
  | .hostWrite addr bytes => .next (s.hostPut addr bytes)
  | .windowRead off n => .next (s.windowRead off n)
  | .mgmtRead r => .next (s.mgmtRead r)
  | .dbgRead r => s.dbgRead r
  | .credit link data n => .next (s.credit link data n)

/-- What a step answers, with what follows at once. -/
def settledOutcome : Outcome State Fault Refusal → Outcome State Fault Refusal
  | .next s => .next s.settled
  | o => o

/-- One step, with the meanings `ex`: the schedule's next entry, its cycles first, or the default. -/
def State.stepWith (ex : Instr → State → Outcome State Fault Refusal) (s : State) : Outcome State Fault Refusal :=
  match s.sched with
  | [] => settledOutcome (.next (s.byDefault ex))
  | m :: rest => settledOutcome (({ s with sched := rest }.pass ex m.cycles).move ex m.move)

/-! ### An instruction placed where the next step fetches -/

/-- The place of the placed gang. -/
def fetchKey : GKey := ⟨0, 0, 0⟩

/-- The gang that is to issue: every lane live, one root strand at address 0, 192 registers a thread. -/
def fetchGang : Gang :=
  let root : Strand := { Strand.empty with valid := true, mask := BitVec.allOnes 32 }
  { Gang.empty with
    nregs := 192, launched := BitVec.allOnes 32, live := BitVec.allOnes 32, resident := true, active := true
    strands := Gang.empty.strands.set 0 root }

/-- Its team, of 32 threads with a window of every scratchpad page. -/
def fetchTeam : Team :=
  { key := ⟨0, 0, 0⟩, core := 0, threads := 32, nregs := 192, pages := 512, sp := [], frames := [],
    held := (List.range 512).map fun k => (k, k), unpinned := [], bars := List.replicate 16 Bar.empty,
    placedAt := 0, started := true, stopping := false, preempted := false, runtime := 0, saved := [] }

/-- An instruction's sixteen bytes stand at address 0 of the instruction buffer of core 0, a gang of context 0 is about to issue
there, and its turn comes next. -/
def State.placed (s : State) (bits : BitVec 128) : State :=
  let line : ILine := { asid := 0, va := 0, bits := bits.setWidth 256 }
  let s1 := { s with
    cur := fetchGang, curStrand := 0, gangs := s.gangs.filter fun g => g.key != fetchKey
    teams := fetchTeam :: s.teams.filter fun t => t.key != fetchTeam.key
    ctxs := if s.ctxs.any (fun x => x.num == 0) then s.ctxs else { Ctx.fresh 0 0 with coreset := 1 } :: s.ctxs
    service := .full, issueStopped := false, withhold := false, stepping := none, sched := ⟨0, .issue 0 []⟩ :: s.sched }
  s1.modCore 0 fun c => { c with ibuf := line :: c.ibuf.filter fun l => !(l.asid == 0 && l.va == 0), parts := List.replicate 4 Part.empty, issued := none, busy := [] }

end Sys2Proof.Machine
end

