-- ==== Sys2Proof/Machine/Step.lean ====
section
/-! DEFINITION. One step of the device. -/

namespace Sys2Proof.Machine

/-- One step: the schedule's next move, or the default where it has none, then what follows at once. -/
def step (s : State) : Host.Outcome State Fault Refusal := s.stepWith exec

/-- The state with an instruction's bits where the next step fetches and issues it; how a program comes to run otherwise is
assumption 31. -/
def State.withFetchWord (s : State) (nbits w : Nat) : State := s.placed (BitVec.ofNat 128 (w % 2 ^ nbits))

end Sys2Proof.Machine
end

