-- ==== Sys2Proof/Safety.lean ====
section
/-! DEFINITION. What a safe run is, and the words claims are made of: what lets an instruction issue, what it leaves alone, what it
writes, what a trap records. -/

namespace Sys2Proof.Machine

/-! ### Runs and invariants -/

/-- A step answers a next state. -/
def State.goesOn (s : State) : Prop := ∃ t, step s = .next t

/-- A run of the machine. -/
inductive Reaches : State → State → Prop where
  | refl (s : State) : Reaches s s
  | next {s t u : State} : Reaches s t → step t = .next u → Reaches s u

/-- Memory is canonical: addresses strictly rising, no entry of the value an unlisted address reads as. -/
def State.memOk (s : State) : Prop := Memory.wf s.mem = true

/-- The P-state is one of four and the power cap within 600 to 2,200 W (R451, R452). -/
def State.powerOk (s : State) : Prop := s.pstate ≤ 3 ∧ 600 ≤ s.cap ∧ s.cap ≤ 2200

/-- The fault queue and the store-fault record queue hold no more than 4,096 and 1,024 records (R216). -/
def State.queuesOk (s : State) : Prop := s.faultQ.length ≤ 4096 ∧ s.storeQ.length ≤ 1024

/-- What a step keeps. -/
def State.Inv (s : State) : Prop := s.memOk ∧ s.powerOk ∧ s.queuesOk

/-! ### An instruction that issues -/

/-- The issuing strand can issue an instruction: it is live, every register the instruction names lies in the gang's allocation
(R43), and none of them is pending without a switch marker since (R48). -/
structure Ready (i : Instr) (s : State) : Prop where
  slot : s.curStrand < s.cur.strands.length
  live : s.strand.valid = true
  regs : allocated i s.cur = true
  free : hazard i s.cur s.strand = false

/-- What an instruction that computes on its gang and goes on at `pc` leaves alone: every byte of memory, every other
gang, every team, core and table of the device; of its own gang all but registers, predicates, FPFLAGS, MAXABS and what issuing counts;
every other strand of the gang; of its own strand the mask, rank, lineage, marks and records. -/
structure GoesTo (pc : VAddr) (s t : State) : Prop where
  next : t.strand.pc = pc
  bytes : ∀ a, smGet t.mem a = smGet s.mem a
  rest : t = { s with cur := t.cur }
  gang : t.cur =
    { s.cur with
      v := t.cur.v, p := t.cur.p, s := t.cur.s, sSeq := t.cur.sSeq, fpflags := t.cur.fpflags, maxabs := t.cur.maxabs
      strands := t.cur.strands, perf := t.cur.perf, issueSeq := t.cur.issueSeq, pcs := t.cur.pcs }
  strands : ∀ k, k ≠ s.curStrand → t.cur.strandAt k = s.cur.strandAt k
  strand : t.strand.mask = s.strand.mask ∧ t.strand.rank = s.strand.rank ∧ t.strand.kind = s.strand.kind ∧
    t.strand.fork = s.strand.fork ∧ t.strand.mdone = s.strand.mdone ∧ t.strand.coll = s.strand.coll ∧ t.strand.path = s.strand.path

/-- The same at the next instruction. -/
abbrev Went (i : Instr) (s t : State) : Prop := GoesTo (s.pcAfter i.len) s t

/-- `t` is `u` once the issue of an instruction has been counted: alike but for the gang's counts, and of the strand its record of issuing, its switch mark and, with that mark, its park (R49, R186, R188, R326, R412). -/
structure Counts (u t : State) : Prop where
  rest : t = { u with cur := t.cur }
  gang : t.cur =
    { u.cur with strands := t.cur.strands, perf := t.cur.perf, issueSeq := t.cur.issueSeq, pcs := t.cur.pcs }
  strands : ∀ k, k ≠ u.curStrand → t.cur.strandAt k = u.cur.strandAt k
  strand : ∃ st : Strand, t.strand =
    { u.strand with
      state := st.state, lastSw := st.lastSw, spinLo := st.spinLo, spinHi := st.spinHi, spinCount := st.spinCount,
      spinAccess := st.spinAccess, issued := st.issued, issuedPc := st.issuedPc }
  waiting : u.strand.state ≠ .ready → t.strand.state = u.strand.state

/-- The strand goes on at the next instruction. -/
abbrev State.past (u : State) (i : Instr) (s : State) : State := u.setPc (s.pcAfter i.len)

/-- The strands of the issuing gang after an instruction that goes on at the next address: the issuing one keeps its mask, rank,
lineage, marks and records, and the others are as before. -/
structure Moved (i : Instr) (s t : State) : Prop where
  next : t.strand.pc = s.pcAfter i.len
  strands : ∀ k, k ≠ s.curStrand → t.cur.strandAt k = s.cur.strandAt k
  strand : t.strand.mask = s.strand.mask ∧ t.strand.rank = s.strand.rank ∧ t.strand.kind = s.strand.kind ∧
    t.strand.fork = s.strand.fork ∧ t.strand.mdone = s.strand.mdone ∧ t.strand.coll = s.strand.coll ∧ t.strand.path = s.strand.path

/-- Every vector register in every lane and every scalar register reads as before. -/
def SameRegs (s t : State) : Prop :=
  (∀ n l, l < 32 → t.cur.vr n l = s.cur.vr n l) ∧ ∀ n, smGet t.cur.s n = smGet s.cur.s n

/-- Every predicate reads as before on every lane. -/
def SamePreds (s t : State) : Prop := ∀ n, t.cur.pmask n = s.cur.pmask n

/-- FPFLAGS and MAXABS are as before. -/
def SameFlags (s t : State) : Prop := t.cur.fpflags = s.cur.fpflags ∧ t.cur.maxabs = s.cur.maxabs

/-- Registers, predicates and flags are as before. -/
def SameData (s t : State) : Prop := SameRegs s t ∧ SamePreds s t ∧ SameFlags s t

/-- A register destination is written in the lanes of `part` and every other register reads as before: a vector register, or an
even pair at 64 bits, takes each lane's value; a scalar register takes the value of the lowest lane, bits 63:32 clear at 32 bits;
zr discards it; with `part` empty nothing is written (R42, R44, R45, R264). -/
def Wrote (s t : State) (wide : Bool) (d : Reg) (part : LaneMask) (x : Nat → DWord) : Prop :=
  (∀ n l, l < 32 → t.cur.vr n l =
    match d with
    | .v m =>
      if part.getLsbD l = true ∧ n = m.val then (x l).setWidth 32
      else if part.getLsbD l = true ∧ wide = true ∧ n = m.val + 1 then (x l).extractLsb' 32 32
      else s.cur.vr n l
    | _ => s.cur.vr n l) ∧
  ∀ n, smGet t.cur.s n =
    match d, lowLane part with
    | .s m, some l => if n = m.val then (if wide then x l else ((x l).setWidth 32).setWidth 64) else smGet s.cur.s n
    | _, _ => smGet s.cur.s n

/-- A predicate destination is written in the lanes of `part`, every other lane and predicate reads as before, and p47 discards
the write (R42, R264). -/
def WroteP (s t : State) (pd : Fin 48) (part : LaneMask) (x : Nat → Bool) : Prop :=
  ∀ n l, l < 32 → (t.cur.pmask n).getLsbD l =
    if n = pd.val ∧ pd.val ≠ 47 ∧ part.getLsbD l = true then x l else (s.cur.pmask n).getLsbD l

/-- Each lane's flags are ORed into FPFLAGS, and MAXABS is as before (R64). -/
def OredFlags (s t : State) (part : LaneMask) (x : Nat → Word) : Prop :=
  t.cur.maxabs = s.cur.maxabs ∧
    ∀ b, t.cur.fpflags.getLsbD b = (s.cur.fpflags.getLsbD b || (List.range 32).any fun l => part.getLsbD l && (x l).getLsbD b)

/-- The pending marks of a destination of `n` registers are set for the issuing instruction in the lanes of its strand, and every other
mark is as before: of a vector register, those of the lanes of `part`, to which data returns, are kept apart from those of the other
lanes of the strand; with `part` empty there are none (R48). -/
def Marked (s t : State) (d : Reg) (n : Nat) (part : LaneMask) : Prop :=
  let mark := pendMark s.cur.issueSeq s.curStrand
  (∀ k l, l < 32 → smGet t.cur.pendV (k * 32 + l) =
    match d with
    | .v m => if part.getLsbD l = true ∧ m.val ≤ k ∧ k < m.val + n then mark else smGet s.cur.pendV (k * 32 + l)
    | _ => smGet s.cur.pendV (k * 32 + l)) ∧
  (∀ k l, l < 32 → smGet t.cur.pendX (k * 32 + l) =
    match d with
    | .v m =>
      if part ≠ 0 ∧ s.strand.mask.getLsbD l = true ∧ part.getLsbD l = false ∧ m.val ≤ k ∧ k < m.val + n then mark
      else smGet s.cur.pendX (k * 32 + l)
    | _ => smGet s.cur.pendX (k * 32 + l)) ∧
  (∀ k l, l < 32 → smGet t.cur.pendS (k * 32 + l) =
    match d with
    | .s m =>
      if part ≠ 0 ∧ (s.strand.mask.getLsbD l = true ∨ part.getLsbD l = true) ∧ k = m.val then mark else smGet s.cur.pendS (k * 32 + l)
    | _ => smGet s.cur.pendS (k * 32 + l)) ∧
  t.cur.pendP = s.cur.pendP

/-- The instruction goes on with one register written, a value for each lane, and nothing else. -/
def Gives (i : Instr) (wide : Bool) (d : Reg) (x : State → Nat → DWord) : Prop :=
  ∀ s, Ready i s →
    ∃ t, exec i s = .next t ∧ Went i s t ∧ Wrote s t wide d (s.part i) (x s) ∧ SamePreds s t ∧ SameFlags s t

/-- The same with the value given bit by bit: bit `b` of a result of `width` bits. -/
def GivesBits (i : Instr) (wide : Bool) (d : Reg) (bit : State → Nat → Nat → Bool) : Prop :=
  ∃ x : State → Nat → DWord, Gives i wide d x ∧ ∀ s l b, b < width wide → (x s l).getLsbD b = bit s l b

/-- The instruction goes on with one predicate written, a value for each lane, and nothing else. -/
def GivesP (i : Instr) (pd : Fin 48) (x : State → Nat → Bool) : Prop :=
  ∀ s, Ready i s →
    ∃ t, exec i s = .next t ∧ Went i s t ∧ WroteP s t pd (s.part i) (x s) ∧ SameRegs s t ∧ SameFlags s t

/-- The instruction goes on with one register written and flags ORed, and nothing else (R64). -/
def GivesF (i : Instr) (wide : Bool) (d : Reg) (x : State → Nat → DWord × Word) : Prop :=
  ∀ s, Ready i s →
    ∃ t, exec i s = .next t ∧ Went i s t ∧ Wrote s t wide d (s.part i) (fun l => (x s l).1) ∧ SamePreds s t ∧
      OredFlags s t (s.part i) fun l => (x s l).2

/-! ### One rounding of an exact value (R60, R63, R69, R75, R76) -/

/-- The number an exact value is; 0 stands for a NaN and the infinities. -/
def XVal.rat : XVal → ℚ
  | .num neg p q e => (if neg then -1 else 1) * ((p : ℚ) / q) * (2 : ℚ) ^ e
  | _ => 0

/-- An exact value that is a number. -/
def XVal.isNum : XVal → Bool
  | .num .. => true
  | _ => false

/-- A number lies within the finite range of a format (R69). -/
def FFmt.fits (f : FFmt) (v : ℚ) : Prop := |v| ≤ (f.value (f.enc false f.maxRaw)).rat

/-- `r` is the number `v` rounded once into a format: its value is the one the mode names among the finite values of the format, a tie under
.rn going to the even encoding in a format of 16 bits or more and away from zero in a narrower one; it keeps the sign of `v`, and NX says that it
is not `v` (R60, R63, R76). -/
structure RoundsTo (f : FFmt) (rm : RM) (v : ℚ) (r : Nat × Word) : Prop where
  num : (f.value r.1).isNum = true
  sign : v ≠ 0 → (f.value r.1).sign = decide (v < 0)
  zero : rm = .rz → |(f.value r.1).rat| ≤ |v| ∧ ∀ x, (f.value x).isNum = true → |(f.value x).rat| ≤ |v| → |(f.value x).rat| ≤ |(f.value r.1).rat|
  up : rm = .ru → v ≤ (f.value r.1).rat ∧ ∀ x, (f.value x).isNum = true → v ≤ (f.value x).rat → (f.value r.1).rat ≤ (f.value x).rat
  down : rm = .rd → (f.value r.1).rat ≤ v ∧ ∀ x, (f.value x).isNum = true → (f.value x).rat ≤ v → (f.value x).rat ≤ (f.value r.1).rat
  near : rm = .rn → ∀ x, (f.value x).isNum = true → |(f.value r.1).rat - v| ≤ |(f.value x).rat - v| ∧
    (|(f.value x).rat - v| = |(f.value r.1).rat - v| → (f.value x).rat ≠ (f.value r.1).rat →
      if f.width < 16 then |(f.value x).rat| ≤ |(f.value r.1).rat| else r.1 / 2 ^ (f.width - f.bits) % 2 = 0)
  inexact : (r.2 &&& flNX ≠ 0 ↔ (f.value r.1).rat ≠ v) ∧ r.2 &&& (flOF ||| flDZ ||| flNV) = 0

/-- `m` is the number `v` rounded to an integer, a tie under .rn to the even one or, with `away`, away from zero (R60). -/
structure RoundsToInt (rm : RM) (away : Bool) (v : ℚ) (m : ℤ) : Prop where
  close : |(m : ℚ) - v| < 1
  zero : rm = .rz → |(m : ℚ)| ≤ |v|
  up : rm = .ru → v ≤ m
  down : rm = .rd → (m : ℚ) ≤ v
  near : rm = .rn → |(m : ℚ) - v| ≤ 1 / 2 ∧ (|(m : ℚ) - v| = 1 / 2 → if away then |v| ≤ |(m : ℚ)| else m % 2 = 0)

/-! ### Traps (R212 to R216) -/

/-- The state after a precise trap `x` of the issuing strand: its record stands in the fault queue, in its place among those of its cycle
and before none of an earlier one, or waits where the queue has no room; a cause of the strand parks the strand, any other the gang;
the strand's PC, every register, every byte of memory and everything else of the device are as before. -/
structure Trapped (s t : State) (x : Trap) : Prop where
  rest : t = { s with
    cur := t.cur, faultQ := t.faultQ, faultSeq := t.faultSeq, recAt := t.recAt, todo := t.todo, pendRecs := t.pendRecs }
  gang : t.cur = { s.cur with strands := t.cur.strands, trapParked := t.cur.trapParked }
  strands : ∀ k, k ≠ s.curStrand → t.cur.strandAt k = s.cur.strandAt k
  strand : ∃ st : Strand, t.strand =
    { s.strand with
      state := st.state, wait := st.wait, waitCount := st.waitCount, heldVas := st.heldVas, own := st.own, waitOn := st.waitOn, faultVa := st.faultVa }
  stop : if x.cause ∈ [0x01, 0x02, 0x03, 0x04, 0x06, 0x07]
    then t.strand.state = .faultParked ∧ t.strand.faultVa = x.addr ∧ t.cur.trapParked = s.cur.trapParked
    else t.cur.trapParked = true
  record :
    let r (seq : Word) : FRec := { trapRecord s.cur s.curStrand x with w7 := seq }
    if s.faultQ.length < 4096 ∧ s.pendRecs = []
    then t.faultSeq = s.faultSeq + 1 ∧ t.pendRecs = s.pendRecs ∧
      (∃ m, m ≤ ofCycle s.clock s.recAt s.faultQ ∧
        t.faultQ = putBefore s.faultQ m (r (s.faultSeq - BitVec.ofNat 32 m)) (fun x => { x with w7 := x.w7 + 1 }) ∧
        ∃ d ∈ t.todo, d.fr = r (s.faultSeq - BitVec.ofNat 32 m) ∧ d.g = s.cur.key ∧ d.strand = s.curStrand ∧ d.taken = false ∧ d.due = none) ∧
      (ofCycle s.clock s.recAt s.faultQ = 0 → t.faultQ = s.faultQ ++ [r s.faultSeq] ∧ ∃ d, t.todo = s.todo ++ [d] ∧ d.fr = r s.faultSeq)
    else t.faultQ = s.faultQ ∧ t.faultSeq = s.faultSeq ∧ t.todo = s.todo ∧
      (∃ d ∈ t.pendRecs, d.fr = r 0 ∧ d.g = s.cur.key ∧ d.strand = s.curStrand ∧ d.store = false) ∧
      ∀ d ∈ s.pendRecs, d ∈ t.pendRecs

/-- The instruction traps with `x`. -/
def TrapsWith (i : Instr) (s : State) (x : Trap) : Prop := ∃ t, exec i s = .next t ∧ Trapped s t x

end Sys2Proof.Machine
end

