-- ==== Sys2Proof/Certificates/Slice0/Obligations.lean ====
section
/-! DEFINITION. The statements for the provers. -/

open Sys2Proof Sys2Proof.Machine

/-! ### Integer, logic, shift, field, compare and move instructions (R265 to R287) -/

/-- R270: IADD, ISUB, IMUL, IMULH, IMIN and IMAX in each lane of Part, at each width and signedness, wrapping and saturating; the
frame of each is `Gives`. -/
def Sys2Proof.Machine.Claims.IntegerTwoSourceResults : Prop :=
  (∀ o, Gives (.iadd false o) o.ty.wide o.d fun s l => s.cur.rd o.ty.wide o.a l + s.cur.rdSrc o.ty.wide o.b l) ∧
  (∀ o, Gives (.isub false o) o.ty.wide o.d fun s l => s.cur.rd o.ty.wide o.a l - s.cur.rdSrc o.ty.wide o.b l) ∧
  (∀ o, Gives (.iadd true o) o.ty.wide o.d fun s l => BitVec.ofInt 64 (max (typeMin o.ty.wide o.ty.signed)
    (min (typeMax o.ty.wide o.ty.signed) (intVal o.ty.wide o.ty.signed (s.cur.rd o.ty.wide o.a l) +
      intVal o.ty.wide o.ty.signed (s.cur.rdSrc o.ty.wide o.b l))))) ∧
  (∀ o, Gives (.isub true o) o.ty.wide o.d fun s l => BitVec.ofInt 64 (max (typeMin o.ty.wide o.ty.signed)
    (min (typeMax o.ty.wide o.ty.signed) (intVal o.ty.wide o.ty.signed (s.cur.rd o.ty.wide o.a l) -
      intVal o.ty.wide o.ty.signed (s.cur.rdSrc o.ty.wide o.b l))))) ∧
  (∀ o, Gives (.imul o) o.ty.wide o.d fun s l => s.cur.rd o.ty.wide o.a l * s.cur.rdSrc o.ty.wide o.b l) ∧
  (∀ o, Gives (.imulh o) o.ty.wide o.d fun s l => BitVec.ofInt 64 ((intVal o.ty.wide o.ty.signed (s.cur.rd o.ty.wide o.a l) *
    intVal o.ty.wide o.ty.signed (s.cur.rdSrc o.ty.wide o.b l)).fdiv (2 ^ width o.ty.wide))) ∧
  (∀ o, Gives (.imin o) o.ty.wide o.d fun s l =>
    if intVal o.ty.wide o.ty.signed (s.cur.rd o.ty.wide o.a l) < intVal o.ty.wide o.ty.signed (s.cur.rdSrc o.ty.wide o.b l)
    then s.cur.rd o.ty.wide o.a l else s.cur.rdSrc o.ty.wide o.b l) ∧
  (∀ o, Gives (.imax o) o.ty.wide o.d fun s l =>
    if intVal o.ty.wide o.ty.signed (s.cur.rd o.ty.wide o.a l) < intVal o.ty.wide o.ty.signed (s.cur.rdSrc o.ty.wide o.b l)
    then s.cur.rdSrc o.ty.wide o.b l else s.cur.rd o.ty.wide o.a l)

/-- R270, R272: IMAD wrapping and saturating, IMADW's full 64-bit result, IABS and INEG, whose most negative value gives
itself. -/
def Sys2Proof.Machine.Claims.MultiplyAddAndSignResults : Prop :=
  (∀ o, Gives (.imad false o) o.ty.wide o.d fun s l =>
    s.cur.rd o.ty.wide o.a l * s.cur.rd o.ty.wide o.b l + s.cur.rdSrc o.ty.wide o.c l) ∧
  (∀ o, Gives (.imad true o) o.ty.wide o.d fun s l => BitVec.ofInt 64 (max (typeMin o.ty.wide o.ty.signed)
    (min (typeMax o.ty.wide o.ty.signed) (intVal o.ty.wide o.ty.signed (s.cur.rd o.ty.wide o.a l) *
      intVal o.ty.wide o.ty.signed (s.cur.rd o.ty.wide o.b l) + intVal o.ty.wide o.ty.signed (s.cur.rdSrc o.ty.wide o.c l))))) ∧
  (∀ o, Gives (.imadw o) true o.d fun s l =>
    let x (y : Word) : DWord := if o.sgn then y.signExtend 64 else y.setWidth 64
    x (s.cur.rd32 o.a l) * x (s.cur.rd32 o.b l) + x (s.cur.rdSrc32 o.c l)) ∧
  (∀ o, Gives (.iabs o) o.wide o.d fun s l =>
    if (s.cur.rd o.wide o.a l).getLsbD (width o.wide - 1) then 0 - s.cur.rd o.wide o.a l else s.cur.rd o.wide o.a l) ∧
  (∀ o, Gives (.ineg o) o.wide o.d fun s l => 0 - s.cur.rd o.wide o.a l)

/-- R271: IADDC adds a, b (its complement under .sub) and the carry predicate, writes the low n bits, and puts the carry out into
the same predicate, inverted where the operand is; p47 discards it. -/
def Sys2Proof.Machine.Claims.AddWithCarry : Prop :=
  ∀ h sub (ty : ITy) (d a b : Reg) (pc : PSrc) s, Ready (.iaddc h sub ty d a b pc) s →
    let y (l : Nat) : DWord := if sub then ~~~ s.cur.rd ty.wide b l else s.cur.rd ty.wide b l
    let sum (l : Nat) : Nat :=
      (s.cur.rd ty.wide a l).toNat % 2 ^ width ty.wide + (y l).toNat % 2 ^ width ty.wide +
        (if (s.cur.psrc pc).getLsbD l then 1 else 0)
    ∃ t, exec (.iaddc h sub ty d a b pc) s = .next t ∧ Went (.iaddc h sub ty d a b pc) s t ∧
      Wrote s t ty.wide d (s.part (.iaddc h sub ty d a b pc))
        (fun l => s.cur.rd ty.wide a l + y l + (if (s.cur.psrc pc).getLsbD l then 1 else 0)) ∧
      WroteP s t pc.idx (s.part (.iaddc h sub ty d a b pc)) (fun l => decide (2 ^ width ty.wide ≤ sum l) != pc.neg) ∧ SameFlags s t

/-- The truth table of a function of BOOL3, bit 4a + 2b + c (R274). -/
def Sys2Proof.Machine.bool3Table : List (BitVec 8) :=
  [0x80, 0xFE, 0x96, 0xE8, 0xE4, 0xEA, 0xA8, 0x28, 0x6A, 0x56, 0x40, 0xFD, 0x69, 0x7F, 0x01, 0x16]

/-- R274: AND, OR, XOR and NOT bit by bit, and BOOL3 by the truth table of each of its sixteen functions. -/
def Sys2Proof.Machine.Claims.LogicResults : Prop :=
  (∀ o, GivesBits (.and o) o.ty.wide o.d fun s l k => (s.cur.rd o.ty.wide o.a l).getLsbD k && (s.cur.rdSrc o.ty.wide o.b l).getLsbD k) ∧
  (∀ o, GivesBits (.or o) o.ty.wide o.d fun s l k => (s.cur.rd o.ty.wide o.a l).getLsbD k || (s.cur.rdSrc o.ty.wide o.b l).getLsbD k) ∧
  (∀ o, GivesBits (.xor o) o.ty.wide o.d fun s l k => (s.cur.rd o.ty.wide o.a l).getLsbD k != (s.cur.rdSrc o.ty.wide o.b l).getLsbD k) ∧
  (∀ o, GivesBits (.not o) o.ty.wide o.d fun s l k => !(s.cur.rd o.ty.wide o.a l).getLsbD k) ∧
  (∀ h fn (ty : ITy) d a b c, GivesBits (.bool3 h fn ty d a b c) ty.wide d fun s l k =>
    (bool3Table.getD fn.val 0).getLsbD
      (4 * ((s.cur.rd ty.wide a l).getLsbD k).toNat + 2 * ((s.cur.rd ty.wide b l).getLsbD k).toNat +
        ((s.cur.rdSrc ty.wide c l).getLsbD k).toNat))

/-- R275, R276: SHL, SHR, SHRA and ROT by bits 7:0 of the count, and SHD by a signed count. -/
def Sys2Proof.Machine.Claims.ShiftResults : Prop :=
  (∀ o, GivesBits (.shl o) o.ty.wide o.d fun s l k => let j := (s.cur.rdSrc32 o.b l).toNat % 256
    decide (j ≤ k) && (s.cur.rd o.ty.wide o.a l).getLsbD (k - j)) ∧
  (∀ o, GivesBits (.shr o) o.ty.wide o.d fun s l k => let j := (s.cur.rdSrc32 o.b l).toNat % 256
    decide (k + j < width o.ty.wide) && (s.cur.rd o.ty.wide o.a l).getLsbD (k + j)) ∧
  (∀ o, GivesBits (.shra o) o.ty.wide o.d fun s l k => let j := (s.cur.rdSrc32 o.b l).toNat % 256
    (s.cur.rd o.ty.wide o.a l).getLsbD (if k + j < width o.ty.wide then k + j else width o.ty.wide - 1)) ∧
  (∀ o, GivesBits (.rot o) o.ty.wide o.d fun s l k => let n := width o.ty.wide
    let j := (s.cur.rdSrc32 o.b l).toNat % 256 % n
    (s.cur.rd o.ty.wide o.a l).getLsbD ((k + n - j) % n)) ∧
  (∀ o, GivesBits (.shd o) false o.d fun s l k =>
    let c := ((s.cur.rdSrc32 o.c l).setWidth 8 : BitVec 8).toInt
    let w : DWord := s.cur.rd32 o.a l ++ s.cur.rd32 o.b l
    if 0 ≤ c then w.getLsbD (k + 32 - min c.toNat 32) else w.getLsbD (k + min (-c).toNat 32))

/-- R277, R278, R279: BFE, BFI, POPC, CLZ, BREV and BSEL. -/
def Sys2Proof.Machine.Claims.FieldResults : Prop :=
  (∀ o, GivesBits (.bfe o) o.ty.wide o.d fun s l k => let n := width o.ty.wide
    let pos := (s.cur.rd32 o.b l).toNat % 256
    let top := min (pos + (s.cur.rdSrc32 o.c l).toNat % 256) n
    if top ≤ pos then false
    else if pos + k < top then (s.cur.rd o.ty.wide o.a l).getLsbD (pos + k)
    else o.ty.signed && (s.cur.rd o.ty.wide o.a l).getLsbD (top - 1)) ∧
  (∀ h (ty : ITy) d a b sel, GivesBits (.bfi h ty d a b sel) ty.wide d fun s l k =>
    let f : Nat × Nat := match sel with
      | .imm pos len => (pos.toNat, len.toNat)
      | .reg c => ((s.cur.rd32 c l).toNat % 256, (s.cur.rd32 c l).toNat / 256 % 256)
    if f.1 ≤ k ∧ k < f.1 + f.2 then (s.cur.rd ty.wide a l).getLsbD (k - f.1) else (s.cur.rd ty.wide b l).getLsbD k) ∧
  (∀ o, Gives (.popc o) false o.d fun s l =>
    BitVec.ofNat 64 ((List.range (width o.ty.wide)).countP fun k => (s.cur.rd o.ty.wide o.a l).getLsbD k)) ∧
  (∀ o, ∃ x : State → Nat → Nat, Gives (.clz o) false o.d (fun s l => BitVec.ofNat 64 (x s l)) ∧ ∀ s l,
    x s l ≤ width o.ty.wide ∧ (∀ k, k < x s l → (s.cur.rd o.ty.wide o.a l).getLsbD (width o.ty.wide - 1 - k) = false) ∧
      (x s l < width o.ty.wide → (s.cur.rd o.ty.wide o.a l).getLsbD (width o.ty.wide - 1 - x s l) = true)) ∧
  (∀ o, GivesBits (.brev o) o.ty.wide o.d fun s l k => (s.cur.rd o.ty.wide o.a l).getLsbD (width o.ty.wide - 1 - k)) ∧
  (∀ h d a b c, GivesBits (.bsel h d a b c) false d fun s l k =>
    let m := (s.cur.rd32 c l).toNat
    let n := m / 2 ^ (3 * (k / 8)) % 8
    !(s.cur.rd32 c l).getLsbD (12 + k / 8) &&
      (if n < 4 then (s.cur.rd32 a l).getLsbD (8 * n + k % 8) else (s.cur.rd32 b l).getLsbD (8 * (n - 4) + k % 8)))

/-- R280: ICMP writes its predicate with the condition on the operands, signed for .i and unsigned for .n; R307: FCMP with its
fourteen conditions on ordered and unordered operands, NV where R307 sets it. -/
def Sys2Proof.Machine.Claims.CompareResults : Prop :=
  (∀ h cc (ty : ITy) pd a b, GivesP (.icmp h cc ty pd a b) pd fun s l =>
    let x := intVal ty.wide ty.signed (s.cur.rd ty.wide a l)
    let y := intVal ty.wide ty.signed (s.cur.rdSrc ty.wide b l)
    match cc with
    | .eq => decide (x = y)
    | .ne => decide (x ≠ y)
    | .lt => decide (x < y)
    | .le => decide (x ≤ y)
    | .gt => decide (x > y)
    | .ge => decide (x ≥ y)) ∧
  (∀ h (ty : FTy) ftz (cc : Fin 14) (pd : Fin 48) (a b : FOp) s, Ready (.fcmp h ty ftz cc pd a b) s →
    let f := ftyFmt ty.wide
    let x (l : Nat) : XVal := f.value (fopBits ty.wide ftz a s.cur l)
    let y (l : Nat) : XVal := f.value (fopBits ty.wide ftz b s.cur l)
    ∃ t, exec (.fcmp h ty ftz cc pd a b) s = .next t ∧ Went (.fcmp h ty ftz cc pd a b) s t ∧ SameRegs s t ∧
      WroteP s t pd (s.part (.fcmp h ty ftz cc pd a b)) (fun l =>
        match (x l).cmp (y l) with
        | none => [6, 7, 8, 9, 10, 11, 13].contains cc.val
        | some .eq => [0, 3, 5, 6, 9, 11, 12].contains cc.val
        | some .lt => [1, 2, 3, 7, 8, 9, 12].contains cc.val
        | some .gt => [1, 4, 5, 7, 10, 11, 12].contains cc.val) ∧
      OredFlags s t (s.part (.fcmp h ty ftz cc pd a b)) fun l =>
        if (x l).isSig ∨ (y l).isSig ∨ ((2 ≤ cc.val ∧ cc.val ≤ 5) ∧ ((x l).isNan ∨ (y l).isNan)) then flNV else 0)

/-- R46, R281 to R287, R308: ISEL, FSEL, MOV, MOVI with and without .hi, MOVSR with what each special register of R46 reads, LEA, PSET, PMOV to
a register and from one. -/
def Sys2Proof.Machine.Claims.MoveAndSelectResults : Prop :=
  (∀ h (ty : ITy) d a b pc, Gives (.isel h ty d a b pc) ty.wide d fun s l =>
    if (s.cur.psrc pc).getLsbD l then s.cur.rd ty.wide a l else s.cur.rd ty.wide b l) ∧
  (∀ h (ty : FTy) d a b pc, Gives (.fsel h ty d a b pc) ty.wide d fun s l =>
    if (s.cur.psrc pc).getLsbD l then s.cur.rd ty.wide a l else s.cur.rd ty.wide b l) ∧
  (∀ h (ty : MovTy) d a, Gives (.mov h ty d a) ty.wide d fun s l => s.cur.rd ty.wide a l) ∧
  (∀ h d imm, Gives (.movi h false d imm) false d fun _ _ => imm.setWidth 64) ∧
  (∀ h (n : Fin 63) imm, Gives (.movi h true (.s n) imm) true (.s n) fun s _ => imm ++ (s.cur.rd32 (.s n) 0)) ∧
  (∀ h d, Gives (.movsr h .laneid d) false d fun _ l => BitVec.ofNat 64 l) ∧
  (∀ h d, Gives (.movsr h .gangid d) false d fun s _ => s.cur.gangId.setWidth 64) ∧
  (∀ h d, Gives (.movsr h .teamid d) true d fun s _ => s.cur.team.team) ∧
  (∀ h d, Gives (.movsr h .gridid d) false d fun s _ => s.cur.team.grid.setWidth 64) ∧
  (∀ h d, Gives (.movsr h .core d) false d fun s _ => BitVec.ofNat 64 (s.cur.key.core % 256)) ∧
  (∀ h d, Gives (.movsr h .part d) false d fun s _ => BitVec.ofNat 64 s.cur.key.part) ∧
  (∀ h d, Gives (.movsr h .clock d) true d fun s _ => s.clock) ∧
  (∀ h d, Gives (.movsr h .promise d) true d fun s _ => s.cur.promise) ∧
  (∀ h d, Gives (.movsr h .maxabs d) false d fun s _ => s.cur.maxabs.setWidth 64) ∧
  (∀ h d, Gives (.movsr h .strand d) false d fun s _ => BitVec.ofNat 64 s.curStrand) ∧
  (∀ h d, Gives (.movsr h .forkdepth d) false d fun s _ => BitVec.ofNat 64 ((s.cur.forks.filter fun f => f.busy).length)) ∧
  (∀ h sx sh d m, Gives (.lea h sx sh d m) true d fun s l =>
    s.cur.rd64 m.base l + ((if sx then (s.cur.rd32 m.index l).signExtend 64 else (s.cur.rd32 m.index l).setWidth 64) <<< sh.toNat) +
      m.off.signExtend 64) ∧
  (∀ h op pd pa pb, GivesP (.pset h op pd pa pb) pd fun s l =>
    let x := (s.cur.psrc pa).getLsbD l
    let y := (s.cur.psrc pb).getLsbD l
    match op with
    | .and => x && y
    | .or => x || y
    | .xor => x != y) ∧
  (∀ h high (n : Fin 192), GivesBits (.pmov h (.toReg high (.v n))) false (.v n) fun s l k =>
    if high then decide (k < 16) && (s.cur.pmask (32 + k)).getLsbD l else (s.cur.pmask k).getLsbD l) ∧
  (∀ h high (n : Fin 192) s, Ready (.pmov h (.fromReg high (.v n))) s →
    ∃ t, exec (.pmov h (.fromReg high (.v n))) s = .next t ∧ Went (.pmov h (.fromReg high (.v n))) s t ∧ SameRegs s t ∧ SameFlags s t ∧
      ∀ k l, l < 32 → (t.cur.pmask k).getLsbD l =
        if (s.part (.pmov h (.fromReg high (.v n)))).getLsbD l = true ∧ (if high then 32 ≤ k ∧ k < 47 else k < 32)
        then (s.cur.vr n.val l).getLsbD (if high then k - 32 else k) else (s.cur.pmask k).getLsbD l)

/-- R270 to R272: the integer additions, subtractions, products, extremes, multiply-adds, sign instructions and add with carry. -/
def Obligations.IntegerArithmeticResults : Prop :=
  Claims.IntegerTwoSourceResults ∧ Claims.MultiplyAddAndSignResults ∧ Claims.AddWithCarry

/-- R274 to R279: the logic, shift and field instructions. -/
def Obligations.LogicShiftAndFieldResults : Prop :=
  Claims.LogicResults ∧ Claims.ShiftResults ∧ Claims.FieldResults

/-- R280 to R287, R307, R308: the comparisons, moves and selections. -/
def Obligations.CompareMoveAndSelectResults : Prop :=
  Claims.CompareResults ∧ Claims.MoveAndSelectResults

/-! ### Floating point, conversion, packed products (R302 to R326) -/

/-- R305, R306, R309, R310: FADD, FSUB, FMUL, FFMA, FMIN, FMAX, FRND and FSCALE write each lane's rounded result and OR its flags into
FPFLAGS; R308: FCLASS writes its class mask and sets no flag. -/
def Sys2Proof.Machine.Claims.FloatArithmeticResults : Prop :=
  (∀ o, GivesF (.fadd o) o.ty.wide o.d fun s l => let r := farithRes addBits o s.cur l; (BitVec.ofNat 64 r.1, r.2)) ∧
  (∀ o, GivesF (.fsub o) o.ty.wide o.d fun s l => let r := farithRes subBits o s.cur l; (BitVec.ofNat 64 r.1, r.2)) ∧
  (∀ o, GivesF (.fmul o) o.ty.wide o.d fun s l => let r := farithRes mulBits o s.cur l; (BitVec.ofNat 64 r.1, r.2)) ∧
  (∀ o negc c, GivesF (.ffma o negc c) o.ty.wide o.d fun s l => let r := ffmaRes o negc c s.cur l; (BitVec.ofNat 64 r.1, r.2)) ∧
  (∀ o, GivesF (.fmin o) o.ty.wide o.d fun s l => let r := fminmaxRes false o s.cur l; (BitVec.ofNat 64 r.1, r.2)) ∧
  (∀ o, GivesF (.fmax o) o.ty.wide o.d fun s l => let r := fminmaxRes true o s.cur l; (BitVec.ofNat 64 r.1, r.2)) ∧
  (∀ o, GivesF (.frnd o) o.ty.wide o.d fun s l =>
    let r := frndBits (ftyFmt o.ty.wide) o.rm (fopBits o.ty.wide o.ftz o.a s.cur l); (BitVec.ofNat 64 r.1, r.2)) ∧
  (∀ o n, GivesF (.fscale o n) o.ty.wide o.d fun s l =>
    let r := flushOut (ftyFmt o.ty.wide) o.ftz
      (fscaleBits (ftyFmt o.ty.wide) o.rm (fopBits o.ty.wide o.ftz o.a s.cur l) (s.cur.rd32 n l).toInt)
    (BitVec.ofNat 64 r.1, r.2)) ∧
  (∀ h (ty : FTy) d a, Gives (.fclass h ty d a) false d fun s l =>
    BitVec.ofNat 64 (2 ^ classBit (ftyFmt ty.wide) (s.cur.rd ty.wide a l).toNat))

/-- R62, R305: every FP32 or FP64 sum, product and fused product with a NaN operand is the canonical NaN, with NV exactly where an
operand is signalling or, for FFMA, the product is 0 × ∞; R306, R65: FMIN and FMAX give the other operand beside one NaN, the
canonical NaN beside two or under .nan. -/
def Sys2Proof.Machine.Claims.FloatNaNResults : Prop :=
  ∀ f : FFmt, (f = f32 ∨ f = f64) → ∀ (rm : RM) (a b c : Nat),
    let x := f.value a
    let y := f.value b
    let z := f.value c
    ((x.isNan ∨ y.isNan) →
      addBits f rm a b = (f.canon, if x.isSig ∨ y.isSig then flNV else 0) ∧
      subBits f rm a b = (f.canon, if x.isSig ∨ y.isSig then flNV else 0) ∧
      mulBits f rm a b = (f.canon, if x.isSig ∨ y.isSig then flNV else 0)) ∧
    ((x.isNan ∨ y.isNan ∨ z.isNan) →
      fmaBits f rm a b c =
        (f.canon, if x.isSig ∨ y.isSig ∨ z.isSig ∨ (x.isZero ∧ y.isInf) ∨ (x.isInf ∧ y.isZero) then flNV else 0)) ∧
    (∀ isMax nan : Bool, (x.isNan ∨ y.isNan) →
      minMaxBits f isMax nan a b =
        (if nan ∨ (x.isNan ∧ y.isNan) then f.canon else if x.isNan then b else a, if x.isSig ∨ y.isSig then flNV else 0))

/-- R60, R63, R305, R322: where the operands are numbers and the exact sum, difference, product or fused product lies within the format's range,
the result is that number rounded once, as its mode says; an exact zero sum of one sign keeps it and of two is +0, or −0 under .rd; beyond the
range the result is an infinity or the largest finite value, with OF where it rounds beyond that value. -/
def Sys2Proof.Machine.Claims.FloatRoundingResults : Prop :=
  (∀ f : FFmt, (f = f32 ∨ f = f64) → ∀ (rm : RM) (a b : Nat), (f.value a).isNum = true → (f.value b).isNum = true →
    let x := (f.value a).rat
    let y := (f.value b).rat
    let zero (neg : Bool) : Nat × Word := (f.enc neg 0, 0)
    (x + y ≠ 0 → f.fits (x + y) → RoundsTo f rm (x + y) (addBits f rm a b)) ∧
    (x - y ≠ 0 → f.fits (x - y) → RoundsTo f rm (x - y) (subBits f rm a b)) ∧
    (x * y ≠ 0 → f.fits (x * y) → RoundsTo f rm (x * y) (mulBits f rm a b)) ∧
    (x + y = 0 → addBits f rm a b = zero (if (f.value a).sign = (f.value b).sign then (f.value a).sign else rm == .rd)) ∧
    (x - y = 0 → subBits f rm a b = zero (if (f.value a).sign = (f.value b).sign then rm == .rd else (f.value a).sign)) ∧
    (x * y = 0 → mulBits f rm a b = zero ((f.value a).sign != (f.value b).sign)) ∧
    (¬ f.fits (x + y) →
      let neg := decide (x + y < 0)
      let r := addBits f rm a b
      (rm = .rz ∨ (rm = .ru ∧ neg = true) ∨ (rm = .rd ∧ neg = false) → r.1 = f.enc neg f.maxRaw ∧ r.2 &&& flNX ≠ 0) ∧
      ((rm = .ru ∧ neg = false) ∨ (rm = .rd ∧ neg = true) → r = (f.infEnc neg, flOF ||| flNX)) ∧
      (rm = .rn →
        if (2 ^ (f.mb + 2) - 1 : ℚ) * (2 : ℚ) ^ ((f.bias : ℤ) - f.mb - 1) ≤ |x + y| then r = (f.infEnc neg, flOF ||| flNX)
        else r = (f.enc neg f.maxRaw, flNX)))) ∧
  (∀ f : FFmt, (f = f32 ∨ f = f64 ∨ f = f16 ∨ f = bf16) → ∀ (rm : RM) (a b c : Nat), (f.value a).isNum = true → (f.value b).isNum = true →
    (f.value c).isNum = true →
    let v := (f.value a).rat * (f.value b).rat + (f.value c).rat
    v ≠ 0 → f.fits v → RoundsTo f rm v (fmaBits f rm a b c))

/-- The value of a special function at an operand after its modifiers and .ftz (R66, R312). -/
def Sys2Proof.Machine.sfuValue (f : RM → Nat → Nat × Word) (o : Sfu) (s : State) (l : Nat) : Nat × Word :=
  flushOut f32 o.ftz (f o.rm (fopBits false o.ftz o.a s.cur l))

/-- A special function with some lane in Part: its destination is marked pending, its result and flags are on their way back, and
no register, predicate or flag has changed yet. -/
def Sys2Proof.Machine.Sends (i : Instr) (o : Sfu) (f : RM → Nat → Nat × Word) : Prop :=
  ∀ s, Ready i s → s.part i ≠ 0 →
    ∃ t x, exec i s = .next t ∧ Moved i s t ∧ SameRegs s t ∧ SamePreds s t ∧ SameFlags s t ∧ Marked s t o.d 1 (s.part i) ∧
      t = { s with cur := t.cur, cores := t.cores, nextId := t.nextId } ∧
      t.cur = { s.cur with
        strands := t.cur.strands, perf := t.cur.perf, issueSeq := t.cur.issueSeq, pcs := t.cur.pcs, pendV := t.cur.pendV,
        pendS := t.cur.pendS, pendX := t.cur.pendX } ∧
      (∀ n, n ≠ s.cur.key.core → t.coreAt n = s.coreAt n) ∧
      t.coreAt s.cur.key.core = { s.coreAt s.cur.key.core with
        inflight := (s.coreAt s.cur.key.core).inflight ++ [x] } ∧
      x.g = s.cur.key ∧ x.strand = s.curStrand ∧ x.seq = s.cur.issueSeq ∧ x.sfu = true ∧
      (∀ b, x.flags.getLsbD b = (List.range 32).any fun l => (s.part i).getLsbD l && (sfuValue f o s l).2.getLsbD b) ∧
      (∀ w, w ∈ x.writes ↔
        match o.d with
        | .v n => ∃ l, l < 32 ∧ (s.part i).getLsbD l = true ∧ w = .v n.val l (BitVec.ofNat 32 (sfuValue f o s l).1)
        | .s n => ∃ l, lowLane (s.part i) = some l ∧ w = .s n.val ((BitVec.ofNat 32 (sfuValue f o s l).1 : Word).setWidth 64)
        | .zr => False)

/-- R66, R312: each special function sends its result on its way: RCP and SQRT as their correctly rounded values, the others by
the function's value, whose bits within the bound of R66 the model leaves free (log entry 20). -/
def Sys2Proof.Machine.Claims.SpecialFunctionResults : Prop :=
  (∀ o, Sends (.rcp o) o rcpBits) ∧ (∀ o, Sends (.sqrt o) o sqrtBits) ∧
  (∀ o, Sends (.rsq o) o fun _ => sfuBits .rsq) ∧ (∀ o, Sends (.exp2 o) o fun _ => sfuBits .exp2) ∧
  (∀ o, Sends (.log2 o) o fun _ => sfuBits .log2) ∧ (∀ o, Sends (.sin o) o fun _ => sfuBits .sin) ∧
  (∀ o, Sends (.cos o) o fun _ => sfuBits .cos) ∧ (∀ o, Sends (.tanh o) o fun _ => sfuBits .tanh) ∧
  (∀ o, Sends (.sigm o) o fun _ => sfuBits .sigm)

/-- R66: the special values and flags the table of R66 gives, whatever the free bits: NaN, infinities, zeros, negative operands. -/
def Sys2Proof.Machine.Claims.SpecialFunctionSpecialValues : Prop :=
  (∀ (fn : SfuFn) (a : Nat) (sig : Bool), f32.value a = .nan sig → sfuBits fn a = (f32.canon, if sig then flNV else 0)) ∧
  (∀ (rm : RM) (a : Nat) (sig : Bool), f32.value a = .nan sig →
    rcpBits rm a = (f32.canon, if sig then flNV else 0) ∧ sqrtBits rm a = (f32.canon, if sig then flNV else 0)) ∧
  (∀ rm : RM, rcpBits rm 0 = (0x7F800000, flDZ) ∧ rcpBits rm 0x80000000 = (0xFF800000, flDZ) ∧ rcpBits rm 0x7F800000 = (0, 0) ∧
    rcpBits rm 0xFF800000 = (0x80000000, 0) ∧ sqrtBits rm 0x80000000 = (0x80000000, 0) ∧ sqrtBits rm 0x7F800000 = (0x7F800000, 0)) ∧
  sfuBits .rsq 0 = (0x7F800000, flDZ) ∧ sfuBits .rsq 0x80000000 = (0xFF800000, flDZ) ∧ sfuBits .rsq 0x7F800000 = (0, 0) ∧
  sfuBits .exp2 0xFF800000 = (0, 0) ∧ sfuBits .exp2 0x7F800000 = (0x7F800000, 0) ∧
  sfuBits .log2 0 = (0xFF800000, flDZ) ∧ sfuBits .log2 0x80000000 = (0xFF800000, flDZ) ∧ sfuBits .log2 0x7F800000 = (0x7F800000, 0) ∧
  sfuBits .log2 0x3F800000 = (0, 0) ∧
  sfuBits .sin 0 = (0, 0) ∧ sfuBits .sin 0x80000000 = (0x80000000, 0) ∧ sfuBits .cos 0 = (0x3F800000, 0) ∧
  sfuBits .sin 0x7F800000 = (f32.canon, flNV) ∧ sfuBits .cos 0xFF800000 = (f32.canon, flNV) ∧
  sfuBits .tanh 0 = (0, 0) ∧ sfuBits .tanh 0x7F800000 = (0x3F800000, 0) ∧ sfuBits .tanh 0xFF800000 = (0xBF800000, 0) ∧
  sfuBits .sigm 0 = (0x3F000000, 0) ∧ sfuBits .sigm 0x7F800000 = (0x3F800000, 0) ∧ sfuBits .sigm 0xFF800000 = (0, 0) ∧
  (∀ a, f32.value a = .inf true ∨ (∃ p q e, f32.value a = .num true p q e ∧ p ≠ 0) →
    sfuBits .rsq a = (f32.canon, flNV) ∧ sfuBits .log2 a = (f32.canon, flNV))

/-- The destination of a conversion is two registers (R317). -/
def Sys2Proof.Machine.cvtPair (o : Cvt) : Bool := fmtBits o.dst.toNat == 64 || (o.x2 && fmtBits o.dst.toNat == 32)

/-- R316, R317, R318, R319: CVT, CVT.sr and CVTX on the forms R316 accepts write the converted elements, keep the other slots of
the destination, OR the flags, and CVTX alone changes MAXABS; a form R316 does not accept traps ILLEGAL_FORM, as
`Obligations.FormTraps` says. -/
def Sys2Proof.Machine.Claims.ConversionResults : Prop :=
  (∀ rm o, cvtOk o (cvtRmOk rm o) = true → GivesF (.cvt rm o) (cvtPair o) o.d fun s l =>
    (cvtResult rm none o s.cur l, (cvtElems o).foldl (fun a e => a ||| (cvtElem rm none o s.cur l e).2) 0)) ∧
  (∀ r o, cvtOk o (r != .zr) = true → GivesF (.cvtSr r o) (cvtPair o) o.d fun s l =>
    (cvtResult .rn (some r) o s.cur l, (cvtElems o).foldl (fun a e => a ||| (cvtElem .rn (some r) o s.cur l e).2) 0)) ∧
  (∀ rm o, cvtOk o (cvtRmOk rm o) = true → ∀ s, Ready (.cvtx rm o) s →
    ∃ t, exec (.cvtx rm o) s = .next t ∧ Went (.cvtx rm o) s t ∧ SamePreds s t ∧
      Wrote s t (cvtPair o) o.d (s.part (.cvtx rm o)) (cvtResult rm none o s.cur) ∧
      t.cur.maxabs = cvtMaxAbs o (s.part (.cvtx rm o)) s.cur ∧
      ∀ b, t.cur.fpflags.getLsbD b = (s.cur.fpflags.getLsbD b || (List.range 32).any fun l =>
        (s.part (.cvtx rm o)).getLsbD l && ((cvtElems o).foldl (fun a e => a ||| (cvtElem rm none o s.cur l e).2) 0).getLsbD b))

/-- R320, R321, R322: PACK and UNPK on the forms R320 accepts, the packed products of each kind, and PFMA's two halves. -/
def Sys2Proof.Machine.Claims.PackedResults : Prop :=
  (∀ h w d a b (j : BitVec 4), scalarReg d = false → j.toNat + 1 < slotCount (EWidth.bitsOf w) →
    GivesBits (.pack h w d a b j) false d fun s l k =>
      let n := EWidth.bitsOf w
      if j.toNat * n ≤ k ∧ k < (j.toNat + 1) * n then (s.cur.rd32 a l).getLsbD (k - j.toNat * n)
      else if (j.toNat + 1) * n ≤ k ∧ k < (j.toNat + 2) * n then (s.cur.rd32 b l).getLsbD (k - (j.toNat + 1) * n)
      else (s.cur.rd32 d l).getLsbD k) ∧
  (∀ h mode w d a (j : BitVec 4), scalarReg d = false → j.toNat < slotCount (EWidth.bitsOf w) → (mode = .t2 → w = .e2) →
    Gives (.unpk h mode w d a j) false d fun s l =>
      let n := EWidth.bitsOf w
      let x := (s.cur.rd32 a l).toNat / 2 ^ (j.toNat * n) % 2 ^ n
      match mode with
      | .zero => BitVec.ofNat 64 x
      | .sign => BitVec.ofInt 64 (if 2 ^ (n - 1) ≤ x then (x : Int) - 2 ^ n else x)
      | .t2 => if x = 1 then 1 else if x = 3 then BitVec.allOnes 64 else 0) ∧
  (∀ ua ub o, Gives (.dp4 (.int ua ub) o) false o.d fun s l =>
    (dotInt (.int 8 !ua) (.int 8 !ub) (s.cur.rd32 o.a l) (s.cur.rd32 o.b l) (s.cur.rd32 o.c l)).setWidth 64) ∧
  (∀ ua ub o, Gives (.dp8 (.int ua ub) o) false o.d fun s l =>
    (dotInt (.int 4 !ua) (.int 4 !ub) (s.cur.rd32 o.a l) (s.cur.rd32 o.b l) (s.cur.rd32 o.c l)).setWidth 64) ∧
  (∀ ua ub o, Gives (.dp2 (.int ua ub) o) false o.d fun s l =>
    (dotInt (.int 16 !ua) (.int 16 !ub) (s.cur.rd32 o.a l) (s.cur.rd32 o.b l) (s.cur.rd32 o.c l)).setWidth 64) ∧
  (∀ rm a5 b5 o, GivesF (.dp4 (.flt rm a5 b5) o) false o.d fun s l =>
    let r := dotFloat (.flt (if a5 then f8e5 else f8e4)) (.flt (if b5 then f8e5 else f8e4)) rm (s.cur.rd32 o.a l) (s.cur.rd32 o.b l)
      (s.cur.rd32 o.c l)
    (BitVec.ofNat 64 r.1, r.2)) ∧
  (∀ rm o, GivesF (.dp8 (.flt rm) o) false o.d fun s l =>
    let r := dotFloat (.flt f4e2) (.flt f4e2) rm (s.cur.rd32 o.a l) (s.cur.rd32 o.b l) (s.cur.rd32 o.c l)
    (BitVec.ofNat 64 r.1, r.2)) ∧
  (∀ rm bf o, GivesF (.dp2 (.flt rm bf) o) false o.d fun s l =>
    let r := dotFloat (.flt (if bf then bf16 else f16)) (.flt (if bf then bf16 else f16)) rm (s.cur.rd32 o.a l) (s.cur.rd32 o.b l)
      (s.cur.rd32 o.c l)
    (BitVec.ofNat 64 r.1, r.2)) ∧
  (∀ rm bf bl o, GivesF (.pfma rm bf bl o) false o.d fun s l =>
    let f := if bf then bf16 else f16
    let half (k : Nat) : Nat × Word := fmaBits f rm ((s.cur.rd32 o.a l).toNat / 2 ^ (16 * k) % 2 ^ 16)
      ((s.cur.rd32 o.b l).toNat / 2 ^ (if bl then 0 else 16 * k) % 2 ^ 16) ((s.cur.rd32 o.c l).toNat / 2 ^ (16 * k) % 2 ^ 16)
    (BitVec.ofNat 64 ((half 0).1 + 2 ^ 16 * (half 1).1), (half 0).2 ||| (half 1).2))

/-- R60, R71, R72, R75 to R77, R85, R317, R322: what a conversion and a packed product compute. A block format's element counts with its scale; a
number within the range of a floating destination is rounded once; into an integer format it is rounded to an integer, and clamped with NV
beyond the range; the sum of a packed product and its addend, where every element is a number, is rounded once. -/
def Sys2Proof.Machine.Claims.ExactConversionResults : Prop :=
  (∀ src x sc, ((nfmt src).value x).isNum = true →
    match blockOf src with
    | none => sourceValue src x sc = (nfmt src).value x
    | some (_, e4) => (scaleValue e4 sc).isNum = true →
      (sourceValue src x sc).isNum = true ∧ (sourceValue src x sc).rat = ((nfmt src).value x).rat * (scaleValue e4 sc).rat) ∧
  (∀ dst src rm sat satf sc (v : XVal) f, nfmt dst = .flt f → v.isNum = true → v.rat ≠ 0 →
    match blockOf dst with
    | none => f.fits v.rat → RoundsTo f rm v.rat (convertElem dst src rm sat satf none sc v)
    | some (_, e4) => (scaleValue e4 sc).isNum = true → (scaleValue e4 sc).rat ≠ 0 → f.fits (v.rat / (scaleValue e4 sc).rat) →
      RoundsTo f rm (v.rat / (scaleValue e4 sc).rat) (convertElem dst src rm sat satf none sc v)) ∧
  (∀ dst src rm sat satf sc (v : XVal) w sgn, nfmt dst = .int w sgn → blockOf dst = none → isIntCode src = false → v.isNum = true → v.rat ≠ 0 →
    ∃ m : ℤ, RoundsToInt rm (decide (w < 16)) v.rat m ∧
      let lo : ℤ := if sgn then -(2 ^ (w - 1)) else 0
      let hi : ℤ := if sgn then 2 ^ (w - 1) - 1 else 2 ^ w - 1
      convertElem dst src rm sat satf none sc v =
        if m < lo then ((lo % 2 ^ w).toNat, flNV) else if hi < m then ((hi % 2 ^ w).toNat, flNV)
        else ((m % 2 ^ w).toNat, if (m : ℚ) = v.rat then 0 else flNX)) ∧
  (∀ ta tb : FFmt, ta ∈ [f8e4, f8e5, f4e2, f16, bf16] → tb ∈ [f8e4, f8e5, f4e2, f16, bf16] → ta.width = tb.width → ∀ rm a b (c : Word),
    (∀ x ∈ elemsOf (.flt ta) a, x.isNum = true) → (∀ x ∈ elemsOf (.flt tb) b, x.isNum = true) → (f32.value c.toNat).isNum = true →
    let v := ((elemsOf (.flt ta) a).zipWith (fun x y => x.rat * y.rat) (elemsOf (.flt tb) b)).sum + (f32.value c.toNat).rat
    v ≠ 0 → f32.fits v → RoundsTo f32 rm v (dotFloat (.flt ta) (.flt tb) rm a b c))

/-- R323, R324: CLRMX and RDMX, once no special function of the gang is outstanding; R68, R326: a fused group leaves the registers
and FPFLAGS as its members leave them one by one. -/
def Obligations.FlagRegistersAndFusedGroups : Prop :=
  (∀ h mx fl s, Ready (.clrmx h mx fl) s → s.myCore.inflight.any (fun f => f.g == s.cur.key && f.sfu) = false →
    ∃ t, exec (.clrmx h mx fl) s = .next t ∧ Went (.clrmx h mx fl) s t ∧ SameRegs s t ∧ SamePreds s t ∧
      t.cur.maxabs = (if mx = true ∧ s.part (.clrmx h mx fl) ≠ 0 then 0 else s.cur.maxabs) ∧
      t.cur.fpflags = (if fl = true ∧ s.part (.clrmx h mx fl) ≠ 0 then 0 else s.cur.fpflags)) ∧
  (∀ h clr fl d s, Ready (.rdmx h clr fl d) s → s.myCore.inflight.any (fun f => f.g == s.cur.key && f.sfu) = false →
    ∃ t, exec (.rdmx h clr fl d) s = .next t ∧ Went (.rdmx h clr fl d) s t ∧ SamePreds s t ∧
      Wrote s t false d (s.part (.rdmx h clr fl d)) (fun _ => (if fl then s.cur.fpflags else s.cur.maxabs).setWidth 64) ∧
      t.cur.maxabs = (if clr = true ∧ fl = false ∧ s.part (.rdmx h clr fl d) ≠ 0 then 0 else s.cur.maxabs) ∧
      t.cur.fpflags = (if clr = true ∧ fl = true ∧ s.part (.rdmx h clr fl d) ≠ 0 then 0 else s.cur.fpflags)) ∧
  (∀ m a s, (Fused.mulAdd m a).ok = true → Ready (.fusedGroup (.mulAdd m a)) s → ∃ t, exec (.fusedGroup (.mulAdd m a)) s = .next t ∧
    Went (.fusedGroup (.mulAdd m a)) s t ∧ SamePreds s t ∧
    let g := faddG a (s.part (.fadd a)) (fmulG m (s.part (.fmul m)) s.cur)
    t.cur.v = g.v ∧ t.cur.s = g.s ∧ t.cur.fpflags = g.fpflags ∧ t.cur.maxabs = s.cur.maxabs) ∧
  (∀ a x s, (Fused.addMax a x).ok = true → Ready (.fusedGroup (.addMax a x)) s → ∃ t, exec (.fusedGroup (.addMax a x)) s = .next t ∧
    Went (.fusedGroup (.addMax a x)) s t ∧ SamePreds s t ∧
    let g := fminmaxG true x (s.part (.fmax x)) (faddG a (s.part (.fadd a)) s.cur)
    t.cur.v = g.v ∧ t.cur.s = g.s ∧ t.cur.fpflags = g.fpflags ∧ t.cur.maxabs = s.cur.maxabs) ∧
  (∀ m negc c x s, (Fused.fmaMax m negc c x).ok = true → Ready (.fusedGroup (.fmaMax m negc c x)) s →
    ∃ t, exec (.fusedGroup (.fmaMax m negc c x)) s = .next t ∧ Went (.fusedGroup (.fmaMax m negc c x)) s t ∧ SamePreds s t ∧
    let g := fminmaxG true x (s.part (.fmax x)) (ffmaG m negc c (s.part (.ffma m negc c)) s.cur)
    t.cur.v = g.v ∧ t.cur.s = g.s ∧ t.cur.fpflags = g.fpflags ∧ t.cur.maxabs = s.cur.maxabs) ∧
  (∀ m a x s, (Fused.mulAddMax m a x).ok = true → Ready (.fusedGroup (.mulAddMax m a x)) s →
    ∃ t, exec (.fusedGroup (.mulAddMax m a x)) s = .next t ∧ Went (.fusedGroup (.mulAddMax m a x)) s t ∧ SamePreds s t ∧
    let g := fminmaxG true x (s.part (.fmax x)) (faddG a (s.part (.fadd a)) (fmulG m (s.part (.fmul m)) s.cur))
    t.cur.v = g.v ∧ t.cur.s = g.s ∧ t.cur.fpflags = g.fpflags ∧ t.cur.maxabs = s.cur.maxabs)

/-- R60 to R65, R302 to R311: the floating-point arithmetic, what NaN operands give, and the one rounding of every exact value. -/
def Obligations.FloatArithmeticAndNaNResults : Prop :=
  Claims.FloatArithmeticResults ∧ Claims.FloatNaNResults ∧ Claims.FloatRoundingResults

/-- R309 to R311: the special-function instructions and the special values they state. -/
def Obligations.SpecialFunctionUnitResults : Prop :=
  Claims.SpecialFunctionResults ∧ Claims.SpecialFunctionSpecialValues

/-- The conversions and the packed instructions, and the exact values they round. -/
def Obligations.ConversionAndPackedResults : Prop :=
  Claims.ConversionResults ∧ Claims.PackedResults ∧ Claims.ExactConversionResults


/-! ### Branches, strands, forks, joins, exit (R20 to R39, R288 to R301) -/

/-- The governing fork of identifier `f` is `x` in every active lane of the issuing strand (R25). -/
def Sys2Proof.Machine.Governs (s : State) (f : Fin 8) (x : Option Gov) : Prop :=
  ∀ l, l < 32 → s.strand.mask.getLsbD l = true → s.cur.gov s.strand f l = x

/-- The issuing strand lies in no arm of fork `f` and in no phase of it collapsed: the governing fork of each lane is none or one in whose
tail the strand lies (R299). -/
def Sys2Proof.Machine.InNoArm (s : State) (f : Fin 8) : Prop :=
  Governs s f none ∨ ∃ e : PathEl, isArm e.side = false ∧ Governs s f (some (.line e))

/-- A branch whose guard is false in every active lane goes on at the next instruction and changes nothing. -/
def Sys2Proof.Machine.FallsThrough (i : Instr) (s : State) : Prop := ∃ t, exec i s = .next t ∧ Went i s t ∧ SameData s t

/-- A branch goes on at `pc`, issuing from the third cycle on, and changes nothing (R171, R434). -/
def Sys2Proof.Machine.Jumps (i : Instr) (s : State) (pc : VAddr) : Prop :=
  ∃ t, exec i s = .next t ∧ GoesTo pc s t ∧ SameData s t ∧ t.strand.notBefore = s.clock + 3

/-- R38, R39, R288, R289, R295, R434: BRA goes to its own address plus four times its displacement where its guard passes in every active
lane, on where it passes in none, and otherwise traps DIVERGENT_BRANCH; BRA.ANY where it passes in some lane; BRA.ALL in every. -/
def Sys2Proof.Machine.Claims.BranchResults : Prop :=
  (∀ h disp s, Ready (.bra h disp) s → s.strand.mask ≠ 0 →
    (s.part (.bra h disp) = 0 → FallsThrough (.bra h disp) s) ∧
    (s.part (.bra h disp) = s.strand.mask → Jumps (.bra h disp) s (s.strand.pc + disp.signExtend 57 * 4)) ∧
    (s.part (.bra h disp) ≠ 0 → s.part (.bra h disp) ≠ s.strand.mask →
      TrapsWith (.bra h disp) s ⟨0x14, 0xFF, 0, s.part (.bra h disp), false⟩)) ∧
  (∀ h disp s, Ready (.braAny h disp) s →
    (s.part (.braAny h disp) = 0 → FallsThrough (.braAny h disp) s) ∧
    (s.part (.braAny h disp) ≠ 0 → Jumps (.braAny h disp) s (s.strand.pc + disp.signExtend 57 * 4))) ∧
  (∀ h disp s, Ready (.braAll h disp) s →
    (s.part (.braAll h disp) ≠ s.strand.mask → FallsThrough (.braAll h disp) s) ∧
    (s.part (.braAll h disp) = s.strand.mask → Jumps (.braAll h disp) s (s.strand.pc + disp.signExtend 57 * 4)))

/-- R290, R291: a jump through a register pair: the checks of its target in their order, each with its trap. -/
def Sys2Proof.Machine.RegisterJump (i : Instr) (r : Reg) (s : State) (went : State → VAddr → Prop) : Prop :=
  ∀ l, lowLane s.strand.mask = some l → s.part i = s.strand.mask →
    let x := s.cur.rd64 r l
    let same := ∀ k, k < 32 → s.strand.mask.getLsbD k = true → s.cur.rd64 r k = x
    (¬ same → TrapsWith i s ⟨0x14, 0xFF, 0, s.part i, false⟩) ∧
    (same → x.toNat % 4 ≠ 0 → TrapsWith i s ⟨0x12, 0xFF, 0, s.part i, false⟩) ∧
    (same → x.toNat % 4 = 0 → 2 ^ 57 ≤ x.toNat → TrapsWith i s ⟨0x01, 3, x, s.part i, false⟩) ∧
    (same → x.toNat % 4 = 0 → x.toNat < 2 ^ 57 → went s (x.setWidth 57))

/-- R288 to R291, R295, R434: CALL by displacement and by register, RET and JMPI: the guard, the checks of a register target, the target,
and CALL's link, the address 12 bytes on, written after the target is read. -/
def Sys2Proof.Machine.Claims.CallAndReturnResults : Prop :=
  (∀ h link disp s, Ready (.call h link (.disp disp)) s → s.strand.mask ≠ 0 →
    let i : Instr := .call h link (.disp disp)
    (s.part i = 0 → FallsThrough i s) ∧
    (s.part i = s.strand.mask → ∃ t, exec i s = .next t ∧ GoesTo (s.strand.pc + disp.signExtend 57 * 4) s t ∧ t.strand.notBefore = s.clock + 3 ∧
      Wrote s t true link (s.part i) (fun _ => (s.strand.pc + 12).setWidth 64) ∧ SamePreds s t ∧ SameFlags s t) ∧
    (s.part i ≠ 0 → s.part i ≠ s.strand.mask → TrapsWith i s ⟨0x14, 0xFF, 0, s.part i, false⟩)) ∧
  (∀ h link r s, Ready (.call h link (.reg r)) s →
    let i : Instr := .call h link (.reg r)
    (s.part i = 0 → FallsThrough i s) ∧
    (s.part i ≠ 0 → s.part i ≠ s.strand.mask → TrapsWith i s ⟨0x14, 0xFF, 0, s.part i, false⟩) ∧
    RegisterJump i r s fun s pc => ∃ t, exec i s = .next t ∧ GoesTo pc s t ∧ t.strand.notBefore = s.clock + 3 ∧
      Wrote s t true link (s.part i) (fun _ => (s.strand.pc + 12).setWidth 64) ∧ SamePreds s t ∧ SameFlags s t) ∧
  (∀ h r s, Ready (.ret h r) s →
    (s.part (.ret h r) = 0 → FallsThrough (.ret h r) s) ∧
    (s.part (.ret h r) ≠ 0 → s.part (.ret h r) ≠ s.strand.mask → TrapsWith (.ret h r) s ⟨0x14, 0xFF, 0, s.part (.ret h r), false⟩) ∧
    RegisterJump (.ret h r) r s fun s pc => Jumps (.ret h r) s pc) ∧
  (∀ h r s, Ready (.jmpi h r) s →
    (s.part (.jmpi h r) = 0 → FallsThrough (.jmpi h r) s) ∧
    (s.part (.jmpi h r) ≠ 0 → s.part (.jmpi h r) ≠ s.strand.mask → TrapsWith (.jmpi h r) s ⟨0x14, 0xFF, 0, s.part (.jmpi h r), false⟩) ∧
    RegisterJump (.jmpi h r) r s fun s pc => Jumps (.jmpi h r) s pc)

/-- What a FORK leaves alone: all but the gang's strand slots, its fork table and what issuing counts. -/
def Sys2Proof.Machine.ForkFrame (s t : State) : Prop :=
  t = { s with cur := t.cur } ∧
  t.cur = { s.cur with
    strands := t.cur.strands, forks := t.cur.forks, forkInst := s.cur.forkInst + 1, past := t.cur.past, perf := t.cur.perf
    issueSeq := t.cur.issueSeq, pcs := t.cur.pcs }

/-- A strand a FORK made, or the executing one after it: where it is, its lanes, rank, kind, and its fork as the innermost step of its
lineage; MEMDONE marks and collapse records but for that fork are those of the strand that forked (R20, R22, R29). -/
structure Sys2Proof.Machine.Forked (s : State) (f : Fin 8) (st : Strand) (pc : VAddr) (mask : LaneMask) (rank : BitVec 4)
    (kind : StrandKind) : Prop where
  place : st.valid = true ∧ st.pc = pc ∧ st.mask = mask ∧ st.rank = rank ∧ st.kind = kind ∧ st.fork = f
  line : st.path.head?.map (fun e => (e.inst, e.fork, e.side)) = some (s.cur.forkInst, f, kind) ∧ st.path.tail = s.strand.path
  marks : ∀ k, st.mdone.getLsbD k = (decide (k ≠ f.val) && s.strand.mdone.getLsbD k)
  records : ∀ k, smGet st.coll k = if k = f.val then 0 else smGet s.strand.coll k

/-- R22, R23, R29, R228, R229, R296, R298, R423: FORK with lanes on both sides and room takes the two lowest slots free since the cycle began
for the false arm and the tail and its own for the true arm; with lanes on one side it takes one slot, its own being that arm; without
room or a usable entry it collapses: the record, and the lanes of the phase that runs first. -/
def Obligations.ForkResults : Prop :=
  ∀ h f p lfalse ltail s, Ready (.fork h f p lfalse ltail) s → s.strand.mask ≠ 0 → s.cur.forks.length = 8 →
    let i : Instr := .fork h f p lfalse ltail
    let tm := s.strand.mask &&& s.cur.psrc p
    let fm := s.strand.mask &&& ~~~ s.cur.psrc p
    let next := s.strand.pc + 16
    let lf := s.strand.pc + lfalse.signExtend 57 * 4
    let lt := s.strand.pc + ltail.signExtend 57 * 4
    let e := s.cur.forkAt f.val
    let usable := (e.busy = false ∧ s.cur.openForks.getLsbD f.val = true) ∨
      (e.busy = true ∧ e.tend = true ∧ e.fend = true ∧ s.strand.inLine e.inst .tail = true)
    let free := (List.range s.cur.strands.length).filter fun k => !(s.cur.strandAt k).valid && s.cur.openSlots.getLsbD k
    (s.part i = 0 → FallsThrough i s) ∧
    (s.part i ≠ 0 → s.part i ≠ s.strand.mask → TrapsWith i s ⟨0x14, 0xFF, 0, s.part i, false⟩) ∧
    (∀ a b rest, s.part i = s.strand.mask → tm ≠ 0 → fm ≠ 0 → usable → free = a :: b :: rest →
      ∃ t, exec i s = .next t ∧ ForkFrame s t ∧
        Forked s f t.strand next tm s.strand.rank .trueArm ∧
        Forked s f (t.cur.strandAt a) lf fm (s.strand.rank + 1) .falseArm ∧
        Forked s f (t.cur.strandAt b) lt s.strand.mask (s.strand.rank + 2) .tail ∧
        (∀ k, k ≠ s.curStrand → k ≠ a → k ≠ b → t.cur.strandAt k =
          if (s.cur.strandAt k).valid = true ∧ s.strand.rank < (s.cur.strandAt k).rank
          then { s.cur.strandAt k with rank := (s.cur.strandAt k).rank + 2 } else s.cur.strandAt k) ∧
        (∀ k, k ≠ f.val → t.cur.forkAt k = s.cur.forkAt k) ∧
        t.cur.forkAt f.val =
          { busy := true, tmask := tm, fmask := fm, tslot := BitVec.ofNat 4 s.curStrand, fslot := BitVec.ofNat 4 a, lslot := BitVec.ofNat 4 b,
            tdone := false, tend := false, fdone := false, fend := false, tpub := 0, fpub := 0, pside := s.strand.kind,
            pfork := if s.strand.kind = .root then 0 else s.strand.fork, inst := s.cur.forkInst }) ∧
    (∀ b rest, s.part i = s.strand.mask → (tm = 0 ∨ fm = 0) → usable → free = b :: rest →
      ∃ t, exec i s = .next t ∧ ForkFrame s t ∧
        (if tm = 0 then Forked s f t.strand lf fm s.strand.rank .falseArm else Forked s f t.strand next tm s.strand.rank .trueArm) ∧
        Forked s f (t.cur.strandAt b) lt s.strand.mask (s.strand.rank + 1) .tail ∧
        (∀ k, k ≠ s.curStrand → k ≠ b → t.cur.strandAt k =
          if (s.cur.strandAt k).valid = true ∧ s.strand.rank < (s.cur.strandAt k).rank
          then { s.cur.strandAt k with rank := (s.cur.strandAt k).rank + 1 } else s.cur.strandAt k) ∧
        (∀ k, k ≠ f.val → t.cur.forkAt k = s.cur.forkAt k) ∧
        (t.cur.forkAt f.val).busy = true ∧ (t.cur.forkAt f.val).tmask = tm ∧ (t.cur.forkAt f.val).fmask = fm ∧
        (t.cur.forkAt f.val).tend = decide (tm = 0) ∧ (t.cur.forkAt f.val).fend = decide (fm = 0) ∧
        (t.cur.forkAt f.val).lslot = BitVec.ofNat 4 b) ∧
    (s.part i = s.strand.mask → (¬ usable ∨ free.length < (if tm ≠ 0 ∧ fm ≠ 0 then 2 else 1)) →
      ∃ t, exec i s = .next t ∧ ForkFrame s t ∧ t.cur.forks = s.cur.forks ∧ SameData s t ∧
        (∀ k, k ≠ s.curStrand → t.cur.strandAt k = s.cur.strandAt k) ∧
        t.strand.rank = s.strand.rank ∧ t.strand.kind = s.strand.kind ∧ t.strand.fork = s.strand.fork ∧ t.strand.path = s.strand.path ∧
        t.strand.pc = (if tm = 0 then lf else next) ∧ t.strand.mask = (if tm = 0 then fm else tm) ∧
        (∀ k, t.strand.mdone.getLsbD k = (decide (k ≠ f.val) && s.strand.mdone.getLsbD k)) ∧
        (∀ k, k ≠ f.val → smGet t.strand.coll k = smGet s.strand.coll k) ∧
        smGet t.strand.coll f.val = (if tm = 0 then 1#2 else 0#2) ++ fm ++ tm)

/-- R27, R29, R294, R299, R300: ENDARM in an arm whose other strands have all ended frees the slot, closes up the ranks behind it and
ends the arm, whose bits then all count as published; in a phase of a collapsed fork that no other strand shares it goes to the next phase
that has lanes; while other strands of the arm or the phase live it waits in join wait; in no arm it traps ILLEGAL_FORM. That a collapsed
fork's ENDARM waits for the strands that share its phase is read from R30 (log entry 97). -/
def Sys2Proof.Machine.Claims.EndArmResults : Prop :=
  ∀ h f s, Ready (.endarm h f) s → s.strand.mask ≠ 0 → s.cur.forks.length = 8 → s.part (.endarm h f) = s.strand.mask →
    let i : Instr := .endarm h f
    let arm (e : PathEl) : Prop := isArm e.side = true ∧
      (Governs s f (some (.line e)) ∨ ∃ r, 2 ≤ r.phase ∧ Governs s f (some (.coll r)) ∧ s.strand.lineOf f = some e)
    (∀ e, arm e → (∀ k, k ≠ s.curStrand → (s.cur.strandAt k).inLine e.inst e.side = false) →
      ∃ t, exec i s = .next t ∧ t = { s with cur := t.cur } ∧ SameData s t ∧
        t.strand.valid = false ∧
        (∀ k, k ≠ s.curStrand → k < s.cur.strands.length → t.cur.strandAt k =
          { s.cur.strandAt k with
            rank := if (s.cur.strandAt k).valid = true ∧ s.strand.rank < (s.cur.strandAt k).rank then (s.cur.strandAt k).rank - 1
              else (s.cur.strandAt k).rank }) ∧
        (∀ k, s.cur.entryOf e = some k → (t.cur.forkAt f.val).busy = true →
          if e.side = .trueArm then (t.cur.forkAt f.val).tend = true ∧ (t.cur.forkAt f.val).tdone = true ∧
            (k.tend = false → (t.cur.forkAt f.val).tpub = BitVec.allOnes 239)
          else (t.cur.forkAt f.val).fend = true ∧ (t.cur.forkAt f.val).fdone = true ∧
            (k.fend = false → (t.cur.forkAt f.val).fpub = BitVec.allOnes 239))) ∧
    (∀ e k, arm e → k ≠ s.curStrand → k < s.cur.strands.length → (s.cur.strandAt k).inLine e.inst e.side = true →
      ∃ t, exec i s = .next t ∧ SameData s t ∧ t.strand.pc = s.strand.pc ∧ t.strand.state = .joinWait ∧ t.strand.wait.kind = .join ∧
        t.strand.wait.obj = BitVec.ofNat 64 (f.val + if e.side = .trueArm then 0 else 8)) ∧
    (∀ c r, s.strand.cstack.find? (fun c => c.fork == f) = some c → s.strand.collOf f.val = some r → r.phase < 2 →
      Governs s f (some (.coll r)) →
      let shares (k : Nat) : Prop := (s.cur.strandAt k).valid = true ∧ ∃ x ∈ (s.cur.strandAt k).cstack, x.inst = c.inst
      ((∀ k, k ≠ s.curStrand → k < s.cur.strands.length → ¬ shares k) →
        ∃ t, exec i s = .next t ∧ t = { s with cur := t.cur } ∧ SameData s t ∧
          t.strand.mdone.getLsbD f.val = false ∧
          (if r.phase = 0 ∧ r.f ≠ 0 then t.strand.mask = r.f ∧ t.strand.pc = c.lfalse ∧ t.strand.collOf f.val = some { r with phase := 1 }
           else t.strand.mask = r.t ||| r.f ∧ t.strand.pc = c.ltail ∧ t.strand.collOf f.val = some { r with phase := 2 })) ∧
      ∀ k, k ≠ s.curStrand → k < s.cur.strands.length → shares k →
        ∃ t, exec i s = .next t ∧ SameData s t ∧ t.strand.pc = s.strand.pc ∧ t.strand.mask = s.strand.mask ∧ t.strand.state = .joinWait ∧
          t.strand.wait.obj = BitVec.ofNat 64 (f.val + if r.phase = 0 then 0 else 8)) ∧
    (InNoArm s f → TrapsWith i s ⟨0x11, 0xFF, 0, s.part i, false⟩)

/-- R26, R32, R299, R300: PUB sets one bit of its arm's published set and MEMDONE the strand's mark of its fork, each only in an arm of
that fork or a phase of it collapsed; elsewhere they trap ILLEGAL_FORM. -/
def Sys2Proof.Machine.Claims.PublishAndMemdoneResults : Prop :=
  (∀ h f w s, Ready (.pub h f w) s → s.strand.mask ≠ 0 → s.part (.pub h f w) = s.strand.mask →
    let i : Instr := .pub h f w
    let bit : Nat := match w with | .v n => n.val | .p n => 192 + n.val
    (∀ e k, isArm e.side = true → Governs s f (some (.line e)) → s.cur.entryOf e = some k →
      ∃ t, exec i s = .next t ∧ t = { s with cur := t.cur } ∧ SameData s t ∧ t.strand.pc = s.pcAfter i.len ∧
        t.strand.mask = s.strand.mask ∧
        (∀ j, j ≠ s.curStrand → t.cur.strandAt j = s.cur.strandAt j) ∧
        (∀ j, j ≠ f.val → t.cur.forkAt j = s.cur.forkAt j) ∧
        t.cur.forkAt f.val = if e.side = .trueArm then { k with tpub := k.tpub ||| 1#239 <<< bit }
          else { k with fpub := k.fpub ||| 1#239 <<< bit }) ∧
    (∀ r, r.phase < 2 → Governs s f (some (.coll r)) → FallsThrough i s) ∧
    (InNoArm s f → TrapsWith i s ⟨0x11, 0xFF, 0, s.part i, false⟩)) ∧
  (∀ h f s, Ready (.memdone h f) s → s.strand.mask ≠ 0 → s.part (.memdone h f) = s.strand.mask →
    let i : Instr := .memdone h f
    (((∃ e, isArm e.side = true ∧ Governs s f (some (.line e))) ∨ ∃ r, r.phase < 2 ∧ Governs s f (some (.coll r))) →
      ∃ t, exec i s = .next t ∧ t = { s with cur := t.cur } ∧ SameData s t ∧ t.strand.pc = s.pcAfter i.len ∧
        t.strand.mask = s.strand.mask ∧ t.strand.mdone = s.strand.mdone ||| 1#8 <<< f.val ∧
        ∀ j, j ≠ s.curStrand → t.cur.strandAt j = s.cur.strandAt j) ∧
    (InNoArm s f → TrapsWith i s ⟨0x11, 0xFF, 0, s.part i, false⟩))

/-- Which source a lane of a join takes under its governing fork: the first where it took the true arm, the second where it took the false
one, none where it took part in neither (R28, R301). -/
def Sys2Proof.Machine.Gov.sourceOf (x : Gov) (l : Nat) : Option Bool :=
  let (t, f) : LaneMask × LaneMask := match x with | .coll c => (c.t, c.f) | .line e => (e.tmask, e.fmask)
  if t.getLsbD l then some true else if f.getLsbD l then some false else none

/-- A join may stand under a governing fork: a collapsed one in its tail phase, or one in whose tail the strand lies (R301). -/
def Sys2Proof.Machine.Gov.joinable (x : Gov) : Prop :=
  match x with
  | .coll c => 2 ≤ c.phase
  | .line e => isArm e.side = false

/-- A bit of the arm a lane took counts as published (R26, R27, R30). -/
def Sys2Proof.Machine.Gov.published (x : Gov) (g : Gang) (arm : Bool) (bit : Nat) : Prop :=
  match x with
  | .coll _ => True
  | .line e => g.armPub e (if arm then .trueArm else .falseArm) bit = true

/-- R25, R28, R301: JOIN and JOINP complete once every lane's source is published and no register they name is pending there: `x l` is
the fork that governs lane l; lanes that took its true arm take the first source, lanes that took its false arm the second, others keep
their value, and the strand goes on at the next instruction. A lane that no FORK f governs, or that lies in an arm of it, makes them
trap ILLEGAL_FORM. -/
def Sys2Proof.Machine.Claims.JoinResults : Prop :=
  (∀ h f (d a b : Fin 192) s (x : Nat → Gov), Ready (.join h f d a b) s →
    let i : Instr := .join h f d a b
    let from' (l : Nat) : Nat := if (x l).sourceOf l = some true then a.val else b.val
    (∀ l, l < 32 → (s.part i).getLsbD l = true → s.cur.gov s.strand f l = some (x l) ∧ (x l).joinable ∧
      ∀ arm, (x l).sourceOf l = some arm → (x l).published s.cur arm (from' l) ∧
        ∀ n, (n = d.val ∨ n = from' l) → smGet s.cur.pendV (n * 32 + l) = 0 ∧ smGet s.cur.pendX (n * 32 + l) = 0) →
    ∃ t, exec i s = .next t ∧ Went i s t ∧ SamePreds s t ∧ SameFlags s t ∧
      Wrote s t false (.v d) (maskOf fun l => (s.part i).getLsbD l && ((x l).sourceOf l).isSome) fun l => (s.cur.vr (from' l) l).setWidth 64) ∧
  (∀ h f (pd : Fin 48) pa pb s (x : Nat → Gov), Ready (.joinp h f pd pa pb) s →
    let i : Instr := .joinp h f pd pa pb
    let from' (l : Nat) : PSrc := if (x l).sourceOf l = some true then pa else pb
    (∀ l, l < 32 → (s.part i).getLsbD l = true → s.cur.gov s.strand f l = some (x l) ∧ (x l).joinable ∧
      ∀ arm, (x l).sourceOf l = some arm → (from' l).idx.val ≠ 47 → (x l).published s.cur arm (192 + (from' l).idx.val)) →
    s.cur.pendP = [] →
    ∃ t, exec i s = .next t ∧ Went i s t ∧ SameRegs s t ∧ SameFlags s t ∧
      WroteP s t pd (maskOf fun l => (s.part i).getLsbD l && ((x l).sourceOf l).isSome) fun l => (s.cur.psrc (from' l)).getLsbD l) ∧
  (∀ h f (d a b : Fin 192) s l, Ready (.join h f d a b) s → l < 32 → (s.part (.join h f d a b)).getLsbD l = true →
    (s.cur.gov s.strand f l = none ∨ ∃ x, s.cur.gov s.strand f l = some x ∧ ¬ x.joinable) →
    TrapsWith (.join h f d a b) s ⟨0x11, 0xFF, 0, s.part (.join h f d a b), false⟩) ∧
  (∀ h f pd pa pb s l, Ready (.joinp h f pd pa pb) s → l < 32 → (s.part (.joinp h f pd pa pb)).getLsbD l = true →
    (s.cur.gov s.strand f l = none ∨ ∃ x, s.cur.gov s.strand f l = some x ∧ ¬ x.joinable) →
    TrapsWith (.joinp h f pd pa pb) s ⟨0x11, 0xFF, 0, s.part (.joinp h f pd pa pb), false⟩)

/-- R36, R293, R294, R389: EXIT completes once no arm it waits for is left: its threads leave the live set, every strand and every mask
register; a strand that keeps lanes goes on, one left with none and no collapsed fork to go on in ends; where no barrier instance of the
team waits for its threads nothing but gang and core has changed. With its guard false in every lane it changes nothing. R255: NOP and
NOP.W complete and change nothing. -/
def Sys2Proof.Machine.Claims.ExitAndNopResults : Prop :=
  (∀ h s, Ready (.exit h) s → s.part (.exit h) = 0 →
    ∃ t, exec (.exit h) s = .next t ∧ Went (.exit h) s t ∧ SameData s t) ∧
  (∀ h s, Ready (.exit h) s → s.part (.exit h) ≠ 0 → s.cur.awaited s.strand true = none →
    let i : Instr := .exit h
    ∃ t, exec i s = .next t ∧ t = { s with cur := t.cur, gangs := t.gangs, teams := t.teams } ∧
      SamePreds s t ∧ SameFlags s t ∧ t.cur.live = s.cur.live &&& ~~~ s.part i ∧
      (∀ k, k < 12 → smGet t.cur.m k = smGet s.cur.m k &&& ~~~ s.part i) ∧
      (∀ k, (t.cur.strandAt k).valid = true → (t.cur.strandAt k).mask &&& s.part i = 0) ∧
      (s.part i ≠ s.strand.mask →
        t.strand.valid = true ∧ t.strand.pc = s.pcAfter i.len ∧ t.strand.mask = s.strand.mask &&& ~~~ s.part i) ∧
      (s.part i = s.strand.mask → s.strand.cstack = [] → t.strand.valid = false) ∧
      ((∀ n, n < 16 → (s.barAt s.cur.team n).kind ≠ .hardAll) → t = { s with cur := t.cur } ∧ SameData s t)) ∧
  (∀ h s, Ready (.nop h) s → ∃ t, exec (.nop h) s = .next t ∧ Went (.nop h) s t ∧ SameData s t) ∧
  (∀ h s, Ready (.nopW h) s → ∃ t, exec (.nopW h) s = .next t ∧ Went (.nopW h) s t ∧ SameData s t)

/-- The branches, calls and returns. -/
def Obligations.BranchCallAndReturnResults : Prop :=
  Claims.BranchResults ∧ Claims.CallAndReturnResults

/-- What an arm ends with: END_ARM, PUBLISH and MEMDONE. -/
def Obligations.ArmResults : Prop :=
  Claims.EndArmResults ∧ Claims.PublishAndMemdoneResults

/-- JOIN, EXIT and NOP. -/
def Obligations.JoinAndExitResults : Prop :=
  Claims.JoinResults ∧ Claims.ExitAndNopResults


/-! ### Mask registers, barriers, lane operations (R52, R53, R389 to R403) -/

/-- Another strand waiting on mask register `k` after the register has become `m`: it goes on where its condition holds now, and is
parked where results it marked a switch after are outstanding, and issues from cycle `c` on (R49, R391, R392). -/
def Sys2Proof.Machine.Strand.maskWoken (g : Gang) (c : DWord) (j k : Nat) (m : Word) (st : Strand) : Strand :=
  match st.waitOn with
  | .mask set k' sel =>
    if k' = k ∧ (if set then m &&& sel = sel else m &&& sel = 0)
    then { st with state := g.wakeState j, wait := WaitFor.empty, waitOn := .none, notBefore := c } else st
  | _ => st

/-- A mask register takes a value, its waiters test their conditions, and the instruction goes on with nothing else changed. -/
def Sys2Proof.Machine.SetsMask (i : Instr) (s : State) (k : Fin 12) (m : Word) : Prop :=
  ∃ t, exec i s = .next t ∧ t = { s with cur := t.cur } ∧
    t.cur = { s.cur with m := t.cur.m, strands := t.cur.strands, perf := t.cur.perf, issueSeq := t.cur.issueSeq, pcs := t.cur.pcs } ∧
    t.strand.pc = s.pcAfter i.len ∧ t.strand.mask = s.strand.mask ∧
    (∀ n, smGet t.cur.m n = if n = k.val then m else smGet s.cur.m n) ∧
    ∀ j, j ≠ s.curStrand → j < 16 → t.cur.strandAt j = (s.cur.strandAt j).maskWoken s.cur (s.clock + 2) j k.val m

/-- R389, R391, R392: MJOIN sets and MLEAVE clears the bits of Part, MSET takes a value, each without the bits of lanes that are not
live; MGET reads; MWAIT goes on where its condition holds and otherwise waits past itself; with Part empty none changes anything. -/
def Obligations.MaskRegisterResults : Prop :=
  (∀ h k s, Ready (.mjoin h k) s → s.part (.mjoin h k) ≠ 0 → s.cur.awaited s.strand false = none →
    s.settledFor (s.part (.mjoin h k)) = true →
    SetsMask (.mjoin h k) s k ((smGet s.cur.m k.val ||| s.part (.mjoin h k)) &&& s.cur.live)) ∧
  (∀ h k s, Ready (.mleave h k) s → s.part (.mleave h k) ≠ 0 → s.cur.awaited s.strand false = none →
    s.settledFor (s.part (.mleave h k)) = true →
    SetsMask (.mleave h k) s k (smGet s.cur.m k.val &&& ~~~ s.part (.mleave h k) &&& s.cur.live)) ∧
  (∀ h k b s l, Ready (.mset h k b) s → lowLane (s.part (.mset h k b)) = some l → s.cur.awaited s.strand false = none →
    SetsMask (.mset h k b) s k (s.cur.rdSrc32 b l &&& s.cur.live)) ∧
  (∀ h d k, Gives (.mget h d k) false d fun s _ => (smGet s.cur.m k.val).setWidth 64) ∧
  (∀ h set k b s l, Ready (.mwait h set k b) s → lowLane (s.part (.mwait h set k b)) = some l →
    let m := smGet s.cur.m k.val
    let sel := s.cur.rdSrc32 b l
    if (if set then m &&& sel = sel else m &&& sel = 0) then FallsThrough (.mwait h set k b) s
    else ∃ t, exec (.mwait h set k b) s = .next t ∧ Went (.mwait h set k b) s t ∧ SameData s t ∧
      t.strand.state = .barWait ∧ t.strand.waitOn = .mask set k.val sel ∧ t.strand.wait.kind = .mask ∧
      t.strand.wait.obj = BitVec.ofNat 64 k.val) ∧
  (∀ h k s, Ready (.mjoin h k) s → s.part (.mjoin h k) = 0 → FallsThrough (.mjoin h k) s) ∧
  (∀ h k s, Ready (.mleave h k) s → s.part (.mleave h k) = 0 → FallsThrough (.mleave h k) s) ∧
  (∀ h k b s, Ready (.mset h k b) s → s.part (.mset h k b) = 0 → FallsThrough (.mset h k b) s) ∧
  (∀ h set k b s, Ready (.mwait h set k b) s → s.part (.mwait h set k b) = 0 → FallsThrough (.mwait h set k b) s)

/-- The threads of Part as bits of a barrier's ARRIVED: bit 32 × GANGID + lane (R393). -/
def Sys2Proof.Machine.State.arrivals (s : State) (part : LaneMask) : BitVec 1024 := part.setWidth 1024 <<< (s.cur.gangId.toNat * 32)

/-- The live threads of the issuing team (R395). -/
def Sys2Proof.Machine.State.aliveThreads (s : State) : Nat :=
  ((s.allGangs.filter fun g => g.team == s.cur.team).map fun g => laneCount g.live).sum

/-- What an arrival at a barrier that completes no instance leaves alone: everything but the team's barrier, the core's note of the
issue, and of the gang its strands and counts; every other barrier is as before. -/
def Sys2Proof.Machine.Arrived (i : Instr) (s t : State) (tm : Team) (n : Nat) (b : Bar) : Prop :=
  t = { s with cur := t.cur, teams := t.teams } ∧
  (∃ tm', t.teamAt s.cur.team = some tm' ∧ tm' = { tm with bars := tm'.bars } ∧ atD tm'.bars n Bar.empty = b ∧
    ∀ k, k ≠ n → atD tm'.bars k Bar.empty = atD tm.bars k Bar.empty) ∧
  (∀ k, k ≠ s.cur.team → t.teamAt k = s.teamAt k) ∧
  t.strand.pc = s.pcAfter i.len ∧ t.strand.mask = s.strand.mask ∧
  (∀ k, k ≠ s.curStrand → t.cur.strandAt k = s.cur.strandAt k) ∧ SamePreds s t ∧ SameFlags s t

/-- An instance whose arrivals suffice has completed: instance number up by one, nothing arrived, no strand of the team's gangs waits for it
any more, the issuing strand among them; memory and predicates as before (R395). -/
def Sys2Proof.Machine.Completed (i : Instr) (s t : State) (n : Nat) (b : Bar) : Prop :=
  (∃ tm, t.teamAt s.cur.team = some tm ∧
    atD tm.bars n Bar.empty = { b with inst := b.inst + 1, arrived := 0, count := 0, kind := .idle,
                                       expect := (atD tm.bars n Bar.empty).expect, deadline := (atD tm.bars n Bar.empty).deadline }) ∧
  (∀ g ∈ t.allGangs, g.team = s.cur.team → ∀ j, j < 16 →
    (g.strandAt j).waitOn ≠ .bar n b.inst ∧ ∀ d lanes seq, (g.strandAt j).waitOn ≠ .sbar n b.inst d lanes seq) ∧
  t.strand.pc = s.pcAfter i.len ∧ SamePreds s t ∧ ∀ a, smGet t.mem a = smGet s.mem a

/-- R393, R395, R397: BAR, BARA and BARW at a barrier of the issuing team: an arrival opens an instance or joins the one open, of
`n` threads or, with 0, of every live thread; it waits (BAR) or hands back the instance number (BARA) while arrivals do not suffice,
completes the instance where they do, and traps ILLEGAL_FORM where the count, the kind or a second arrival is wrong; BARW waits for the
instance its token names. -/
def Sys2Proof.Machine.Claims.HardBarrierResults : Prop :=
  (∀ h (k : Fin 16) c s tm l, Ready (.bar h k c) s → s.teamAt s.cur.team = some tm → tm.bars.length = 16 → s.cur.resident = true →
    let i : Instr := .bar h k c
    lowLane (s.part i) = some l → s.cur.awaited s.strand false = none → s.settledFor (s.part i) = true →
    let n := (s.cur.rd32 c l).toNat
    let b := atD tm.bars k.val Bar.empty
    let bad := tm.threads < n ∨ b.arrived &&& s.arrivals (s.part i) ≠ 0 ∨ b.kind = .soft ∨ (b.kind = .hardCount ∧ n ≠ b.expect) ∨
      (b.kind = .hardCount ∧ n = 0) ∨ (b.kind = .hardAll ∧ n ≠ 0)
    let need := if b.kind = .idle then (if n = 0 then s.aliveThreads else n) else b.expect
    let open' : Bar := { b with
      arrived := b.arrived ||| s.arrivals (s.part i), count := b.count + laneCount (s.part i), expect := need
      kind := if b.kind = .idle then (if n = 0 then .hardAll else .hardCount) else b.kind }
    (bad → TrapsWith i s ⟨0x11, 0xFF, 0, s.part i, false⟩) ∧
    (¬ bad → open'.count < need → ∃ t, exec i s = .next t ∧ Arrived i s t tm k.val open' ∧ SameRegs s t ∧
      t.strand.state = .barWait ∧ t.strand.waitOn = .bar k.val b.inst ∧ t.strand.wait.kind = .barrier ∧
      t.strand.wait.obj = BitVec.ofNat 64 k.val) ∧
    (¬ bad → need ≤ open'.count → ∃ t, exec i s = .next t ∧ Completed i s t k.val b)) ∧
  (∀ h d (k : Fin 16) c s tm l, Ready (.bara h d k c) s → s.teamAt s.cur.team = some tm → tm.bars.length = 16 → s.cur.resident = true →
    let i : Instr := .bara h d k c
    lowLane (s.part i) = some l → s.cur.awaited s.strand false = none → s.settledFor (s.part i) = true →
    let n := (s.cur.rd32 c l).toNat
    let b := atD tm.bars k.val Bar.empty
    let bad := tm.threads < n ∨ b.arrived &&& s.arrivals (s.part i) ≠ 0 ∨ b.kind = .soft ∨ (b.kind = .hardCount ∧ n ≠ b.expect) ∨
      (b.kind = .hardCount ∧ n = 0) ∨ (b.kind = .hardAll ∧ n ≠ 0)
    let need := if b.kind = .idle then (if n = 0 then s.aliveThreads else n) else b.expect
    let open' : Bar := { b with
      arrived := b.arrived ||| s.arrivals (s.part i), count := b.count + laneCount (s.part i), expect := need
      kind := if b.kind = .idle then (if n = 0 then .hardAll else .hardCount) else b.kind }
    (bad → TrapsWith i s ⟨0x11, 0xFF, 0, s.part i, false⟩) ∧
    (¬ bad → open'.count < need → ∃ t, exec i s = .next t ∧ Arrived i s t tm k.val open' ∧
      Wrote s t false d (s.part i) fun _ => b.inst.setWidth 64) ∧
    (¬ bad → need ≤ open'.count → ∃ t, exec i s = .next t ∧ Completed i s t k.val b ∧
      (∀ m j, d = .v m → (s.part i).getLsbD j = true → t.cur.vr m.val j = b.inst) ∧
      ∀ m, d = .s m → smGet t.cur.s m.val = b.inst.setWidth 64)) ∧
  (∀ h (k : Fin 16) a s tm l, Ready (.barw h k a) s → s.teamAt s.cur.team = some tm → lowLane (s.part (.barw h k a)) = some l →
    let i : Instr := .barw h k a
    let tok := s.cur.rd32 a l
    if (atD tm.bars k.val Bar.empty).inst = tok then
      ∃ t, exec i s = .next t ∧ Went i s t ∧ SameData s t ∧ t.strand.state = .barWait ∧ t.strand.waitOn = .bar k.val tok
    else FallsThrough i s)

/-- R394, R396: SBAR at a soft instance: it opens one of `a` threads with a deadline of `b` cycles from now, or none at 0, or joins the
one open; it waits while arrivals do not suffice; where they do, the instance completes and the number of arrivals stands in the
destination's lanes; wrong counts, kinds and second arrivals trap ILLEGAL_FORM. -/
def Sys2Proof.Machine.Claims.SoftBarrierResults : Prop :=
  ∀ h d (k : Fin 16) a b s tm l, Ready (.sbar h d k a b) s → s.teamAt s.cur.team = some tm → tm.bars.length = 16 → s.cur.resident = true →
    let i : Instr := .sbar h d k a b
    lowLane (s.part i) = some l → s.cur.awaited s.strand false = none → s.settledFor (s.part i) = true →
    let n := (s.cur.rd32 a l).toNat
    let x := s.cur.rd32 b l
    let bar := atD tm.bars k.val Bar.empty
    let bad := n = 0 ∨ 1024 < n ∨ bar.kind = .hardCount ∨ bar.kind = .hardAll ∨ (bar.kind = .soft ∧ n ≠ bar.expect) ∨
      bar.arrived &&& s.arrivals (s.part i) ≠ 0
    let open' : Bar := { bar with
      arrived := bar.arrived ||| s.arrivals (s.part i), count := bar.count + laneCount (s.part i), kind := .soft, expect := n
      deadline := if bar.kind = .idle then (if x = 0 then 0 else s.clock + x.setWidth 64) else bar.deadline }
    (bad → TrapsWith i s ⟨0x11, 0xFF, 0, s.part i, false⟩) ∧
    (¬ bad → open'.count < n → ∃ t, exec i s = .next t ∧ Arrived i s t tm k.val open' ∧ SameRegs s t ∧
      t.strand.state = .barWait ∧ t.strand.waitOn = .sbar k.val bar.inst d (s.part i) s.cur.issueSeq) ∧
    (¬ bad → n ≤ open'.count → ∃ t, exec i s = .next t ∧ Completed i s t k.val bar ∧
      (∀ m j, d = .v m → (s.part i).getLsbD j = true → t.cur.vr m.val j = BitVec.ofNat 32 open'.count) ∧
      ∀ m, d = .s m → (smGet s.cur.sSeq m.val).toNat ≤ s.cur.issueSeq + 1 → smGet t.cur.s m.val = (BitVec.ofNat 32 open'.count).setWidth 64)

/-- The operation of REDUX on two values (R402). -/
def Sys2Proof.Machine.reduxOf (op : RxOp) (a b : Word) : Word :=
  match op with
  | .int k sgn =>
    let less : Bool := if sgn then decide (a.toInt < b.toInt) else decide (a.toNat < b.toNat)
    if k.val = 0 then a + b else if k.val = 1 then (if less then a else b) else if k.val = 2 then (if less then b else a)
    else if k.val = 3 then a &&& b else if k.val = 4 then a ||| b else a ^^^ b
  | .fmin => BitVec.ofNat 32 (minMaxBits f32 false false a.toNat b.toNat).1
  | .fmax => BitVec.ofNat 32 (minMaxBits f32 true false a.toNat b.toNat).1

/-- R52, R53, R398 to R403: VOTE's ballot, count, any and all over Part; SHFL's four modes from the strand's active lanes, the fill
elsewhere; MATCH any and all; REDUX over Part in ascending lanes, a NaN as the canonical one, from a lone participant too (the model's reading,
log entry 16); ELECT's lowest lane of Part. -/
def Obligations.LaneOperationResults : Prop :=
  (∀ h d pa, Gives (.vote h (.ballot d) pa) false d fun s _ => (s.part (.vote h (.ballot d) pa) &&& s.cur.psrc pa).setWidth 64) ∧
  (∀ h d pa, Gives (.vote h (.count d) pa) false d fun s _ => BitVec.ofNat 64 ((List.range 32).countP fun k =>
    (s.part (.vote h (.count d) pa)).getLsbD k && (s.cur.psrc pa).getLsbD k)) ∧
  (∀ h pd pa, GivesP (.vote h (.any pd) pa) pd fun s _ => decide (s.part (.vote h (.any pd) pa) &&& s.cur.psrc pa ≠ 0)) ∧
  (∀ h pd pa, GivesP (.vote h (.all pd) pa) pd fun s _ =>
    decide (s.part (.vote h (.all pd) pa) &&& s.cur.psrc pa = s.part (.vote h (.all pd) pa))) ∧
  (∀ h mode ty d a b fill, Gives (.shfl h mode ty d a b fill) false d fun s l =>
    let k := s.cur.rdSrc32 b l
    let src : Int := match mode with
      | .lane => k.toNat
      | .near => l + ((k.setWidth 8 : BitVec 8).toInt)
      | .rot => (l + k.toNat % 32) % 32
      | .xor => (BitVec.ofNat 32 l ^^^ k).toNat
    if 0 ≤ src ∧ src < 32 ∧ s.strand.mask.getLsbD src.toNat = true then (s.cur.rd32 a src.toNat).setWidth 64
    else (s.cur.rd32 fill l).setWidth 64) ∧
  (∀ h (ty : MatTy) d a, GivesBits (.matchI h false ty d a) false d fun s l k =>
    (s.part (.matchI h false ty d a)).getLsbD k && s.cur.rd ty.wide a k == s.cur.rd ty.wide a l) ∧
  (∀ h (ty : MatTy) d a, Gives (.matchI h true ty d a) false d fun s l =>
    let p := s.part (.matchI h true ty d a)
    if (List.range 32).all (fun k => !p.getLsbD k || s.cur.rd ty.wide a k == s.cur.rd ty.wide a l) then p.setWidth 64 else 0) ∧
  (∀ h op d a, Gives (.redux h op d a) false d fun s _ =>
    match (List.range 32).filter (fun k => (s.part (.redux h op d a)).getLsbD k) with
    | [] => 0
    | l :: rest =>
      let r := rest.foldl (fun x k => reduxOf op x (s.cur.rd32 a k)) (s.cur.rd32 a l)
      let nan := (match op with | .int _ _ => false | _ => (f32.value r.toNat).isNan)
      if nan then BitVec.ofNat 64 f32.canon else r.setWidth 64) ∧
  (∀ h d, Gives (.elect h (.id d)) false d fun s _ => BitVec.ofNat 64 ((lowLane (s.part (.elect h (.id d)))).getD 0)) ∧
  (∀ h pd, GivesP (.elect h (.pred pd)) pd fun s l => decide (lowLane (s.part (.elect h (.pred pd))) = some l))

/-- The hard and the soft barriers. -/
def Obligations.BarrierResults : Prop :=
  Claims.HardBarrierResults ∧ Claims.SoftBarrierResults


/-! ### Memory instructions (R95 to R120, R327 to R351) -/

/-- A request at its point of the order with no other in its way: the first for its sector, on a page this device owns, in a sector in no
update-only state and with no bad data (R101, R133, R137, R150, R234). -/
structure Sys2Proof.Machine.Due (s : State) (id : Nat) (r : OrnReq) : Prop where
  found : s.orn.find? (fun x => x.id == id) = some r
  first : s.firstFor r = true
  owned : s.ownsPage (r.sector * 32) = true
  words : ∀ w ∈ r.words, w / 8 = r.sector
  updates : (s.dirAt r.sector).uTag = 0
  good : s.poison.contains r.sector = false

/-- The same in a sector that no engine claims: it has nothing to wait for (R146). -/
structure Sys2Proof.Machine.AtHome (s : State) (id : Nat) (r : OrnReq) : Prop extends Sys2Proof.Machine.Due s id r where
  engines : (s.dirAt r.sector).eng = none

/-- A result of an access is on its way to its strand: one flight more at its core, with these writes. -/
def Sys2Proof.Machine.SendsBack (s t : State) (core : Nat) (who : Who) (ws : List RegWrite) : Prop :=
  ∃ x, (t.coreAt core).inflight = (s.coreAt core).inflight ++ [x] ∧ x.g = who.g ∧ x.strand = who.strand ∧ x.seq = who.seq ∧
    x.writes = ws ∧ x.flags = 0

/-- The accesses of the lanes of Part may be made: some lane takes part, the strand has not passed MEMDONE in its arm, a tail's arms are
memory done unless the access is .ahead, and no fence or acquire before it stops it (R32, R33, R109, R113, R331, R332, R346). -/
def Sys2Proof.Machine.AccessOpen (s : State) (part : LaneMask) (ahead : Bool) : Prop :=
  part ≠ 0 ∧ pastMemdone s.strand = false ∧ (ahead = false → s.cur.awaited s.strand false = none) ∧
    ∀ h ∈ s.cur.holds, h.stops s (s.who part ahead) = false

/-- No 8-byte word of a team's window that an access touches holds an uncorrectable error (R234). -/
def Sys2Proof.Machine.CleanWindow (s : State) (k : TKey) (accs : List LaneAcc) : Prop :=
  ∀ x, s.teamAt k = some x → ∀ a ∈ accs, ∀ w ∈ x.spBad, overlaps a.va.toNat a.size (8 * w) 8 = false

/-- No pending mark of a vector or scalar register changes. -/
def Sys2Proof.Machine.SamePend (s t : State) : Prop := t.cur.pendV = s.cur.pendV ∧ t.cur.pendX = s.cur.pendX ∧ t.cur.pendS = s.cur.pendS

/-- Every lane's address is a multiple of the access width (R331). -/
def Sys2Proof.Machine.Aligned (part : LaneMask) (width : Nat) (va : Nat → DWord) : Prop :=
  ∀ l, l < 32 → part.getLsbD l = true → (va l).toNat % width = 0

/-- Every slice with a lane of Part has fewer than 24 entries in its store queue (R102). -/
def Sys2Proof.Machine.QueueRoom (s : State) (part : LaneMask) : Prop :=
  ∀ k, k < 8 → part.extractLsb' (4 * k) 4 ≠ 0#4 →
    ((s.coreAt s.cur.key.core).sq.filter fun e => e.who.g.part == s.cur.key.part && e.slice == k).length < 24

/-- The accesses translate to pages of memory, each with its physical address and attributes; `u` is the state with what translation
cached (R193 to R196). -/
def Sys2Proof.Machine.Translates (s : State) (want : Want) (accs accs' : List LaneAcc) (u : State) : Prop :=
  ∃ ts, s.begin.translateAll s.cur.key.core s.cur.team.ctx want accs = (ts, u) ∧ ts.map (·.1) = accs' ∧
    ∀ p ∈ ts, ∃ pa at', p.2 = .ok pa at' ∧ (isRemote pa = true ∨ pa % 2 ^ 42 < 0x8000000000)

/-- A register of `n` registers per lane may take what an access of this form moves (R328, R329). -/
def Sys2Proof.Machine.RegisterFits (load : Bool) (d : Reg) (vec : Vec) (ty : MTy) : Prop :=
  vec.n * ty.bytes ≤ 16 ∧ (∀ n, d = .v n → n.val % (vec.n * ty.regs) = 0) ∧
    (load = true → ∀ n, d = .s n → vec = .x1 ∧ 4 ≤ ty.bytes)

/-- A load on one of its paths that meets no uncorrectable error: memory, registers, predicates and flags are as before, its destination
is pending, and the words of each frame are read or asked for as `Sys2Proof.Machine.Claims.LoadParts` says. -/
def Sys2Proof.Machine.Loads (i : Instr) (path : LoadPath) (o : Ld) (hint : CHint) : Prop :=
  ∀ s accs u, Ready i s → AccessOpen s (s.part i) o.ahead → RegisterFits true o.d o.vec o.ty →
    (path = .global true → o.ahead = false ∧ o.vec = .x1) → Aligned (s.part i) o.ty.bytes (fun l => GMem.addr o.m s.cur l) →
    Translates s .read (laneAccs (s.part i) o.vec.n o.ty.bytes fun l => GMem.addr o.m s.cur l) accs u →
    (∀ a ∈ accs, u.meets (s.who (s.part i) o.ahead) path.via a = false) →
    ∃ t, exec i s = .next t ∧
      Counts ((({ u with cur := { u.cur with pendV := t.cur.pendV, pendS := t.cur.pendS, pendX := t.cur.pendX } } : State).startLoad path
        (s.who (s.part i) o.ahead) o.d o.ty hint accs).past i s) t ∧
      SameData s t ∧ Marked s t o.d (o.vec.n * o.ty.regs) (s.part i) ∧ ∀ a, smGet t.mem a = smGet s.mem a

/-- R48, R106, R109, R117, R335: LDG, its acquire form, LDC and LDT. -/
def Sys2Proof.Machine.Claims.LoadResults : Prop :=
  (∀ o acq hint, Loads (.ldg o acq hint) (.global acq) o hint) ∧ (∀ o pri, Loads (.ldc o pri) .const o ⟨pri, 0⟩) ∧
  (∀ o pri, Loads (.ldt o pri) .tile o ⟨pri, 0⟩)

/-- Results of an access of a core are on their way back to its strand: those of `vals`, each element to its register, and nothing else
(R48). -/
def Sys2Proof.Machine.Returns (s t : State) (who : Who) (d : Reg) (ty : MTy) (vals : List (LaneAcc × List Byte)) : Prop :=
  ∃ xs, (t.coreAt who.g.core).inflight = (s.coreAt who.g.core).inflight ++ xs ∧
    (∀ x ∈ xs, x.g = who.g ∧ x.strand = who.strand ∧ x.seq = who.seq ∧ x.flags = 0 ∧ x.sfu = false) ∧
    ∀ w, (∃ x ∈ xs, w ∈ x.writes) ↔ ∃ p ∈ vals, w ∈ elemWrites d ty (lowLane who.mask) p.1.lane p.1.elem (leNat p.2)

/-- One request of a core is placed: a part for each sector of an access of `accs` that `c` picks, with that sector's accesses, all of one
group and so of one point (R133). -/
def Sys2Proof.Machine.Asks (s t : State) (who : Who) (d : Reg) (ty : MTy) (kind : OrnKind) (accs : List LaneAcc) (c : LaneAcc → Prop)
    (after : Nat → Prop) : Prop :=
  ∃ rs, t.ornWait = s.ornWait ++ rs ∧ (∀ sec, (∃ r ∈ rs, r.sector = sec) ↔ ∃ a ∈ accs, a.pa / 32 = sec ∧ c a) ∧
    (rs.map (·.sector)).Pairwise (· < ·) ∧ (∀ r ∈ rs, ∀ r' ∈ rs, r.grp = r'.grp) ∧
    ∀ r ∈ rs, r.kind = kind ∧ r.accs = (accs.filter fun a => a.pa / 32 == r.sector) ∧ r.who = who ∧ r.dst = some d ∧ r.ty = some ty ∧
      r.clock = s.clock ∧ r.entered = none ∧ r.entry = none ∧ r.core = who.g.core ∧ ∀ id, id ∈ r.after ↔ after id

/-- R106, R109, R117, R126, R133, R328, R329, R333, R347: what a load does with the words of one frame, and that it takes frames in
ascending order. Where the thread's own queue and the core's view supply every byte of a sector, its elements are on their way to their
registers, 8- and 16-bit ones extended as their type says; one fetch is asked for of the other sectors, after the queued entries it must
wait for. A path load takes its path's copies or asks for one fill, after its threads' earlier FLUSHes and INVALs of the words; an acquire
is made at the home, after its threads' entries to the words. -/
def Sys2Proof.Machine.Claims.LoadParts : Prop :=
  (∀ (s : State) (who : Who) d ty hint (accs : List LaneAcc) (bs : List (List Byte)),
    accs.map ((s.coreAt who.g.core).sources who) = bs.map (List.map Sup.byte) →
    let t := s.loadFrame who (some d) (some ty) hint accs
    t.ornWait = s.ornWait ∧ Returns s t who d ty (accs.zip bs)) ∧
  (∀ (s : State) (who : Who) d ty hint (accs : List LaneAcc),
    let c := s.coreAt who.g.core
    let lacks (a : LaneAcc) : Prop := ∃ x ∈ c.sources who a, ∀ b, x ≠ .byte b
    Asks s (s.loadFrame who (some d) (some ty) hint accs) who d ty .fetch accs (fun a => ∃ b ∈ accs, b.pa / 32 = a.pa / 32 ∧ lacks b)
      fun id => ∃ a ∈ accs, .after id ∈ c.sources who a) ∧
  (∀ (s : State) tile (who : Who) d ty (accs : List LaneAcc) (bs : List (List Byte)),
    accs.map ((s.coreAt who.g.core).pathBytes tile) = bs.map some → (s.coreAt who.g.core).rangeAfter who accs = [] →
    let t := s.pathFrame tile who (some d) (some ty) accs
    t.ornWait = s.ornWait ∧ Returns s t who d ty (accs.zip bs)) ∧
  (∀ (s : State) tile (who : Who) d ty (accs : List LaneAcc),
    let c := s.coreAt who.g.core
    let range (id : Nat) : Prop := ∃ e ∈ c.sq ++ c.gone, e.id = id ∧ (e.kind = .flush ∨ e.kind = .inval) ∧ precedes e.who who = true ∧
      ∃ a ∈ accs, e.touches a.lane a.va a.pa = true
    Asks s (s.pathFrame tile who (some d) (some ty) accs) who d ty (.pathFill tile) accs
      (fun a => (∃ id, range id) ∨ ∃ b ∈ accs, b.pa / 32 = a.pa / 32 ∧ c.pathBytes tile b = none) range) ∧
  (∀ (s : State) (who : Who) d ty (accs : List LaneAcc),
    let c := s.coreAt who.g.core
    let t := s.acquireFrame who (some d) (some ty) accs
    Asks s t who d ty .acquireLoad accs (fun _ => True)
      (fun id => ∃ e, e.id = id ∧ (e ∈ c.sq ∧ e.who.g = who.g ∨ e ∈ c.gone ∧ precedes e.who who = true) ∧ e.kind.space = none ∧
        ∃ a ∈ accs, e.who.mask.getLsbD a.lane = true ∧ e.touches a.lane a.va a.pa = true) ∧
    ∀ r ∈ t.ornWait, r ∈ s.ornWait ∨ r.order = .acq) ∧
  (∀ (s : State) who d ty hint (l m : List LaneAcc) fr, l ≠ [] → (∀ a ∈ l, a.pa / 512 = fr) → (∀ a ∈ m, fr < a.pa / 512) →
    s.startLoad (.global false) who d ty hint (l ++ m) =
      (s.loadFrame who (some d) (some ty) hint l).startLoad (.global false) who d ty hint m) ∧
  (∀ (n : Fin 192) low lane elem x,
    elemWrites (.v n) .i8 low lane elem x = [.v (n.val + elem) lane ((BitVec.ofNat 8 x).signExtend 32)] ∧
    elemWrites (.v n) .n8 low lane elem (x % 256) = [.v (n.val + elem) lane (BitVec.ofNat 32 (x % 256))] ∧
    elemWrites (.v n) .i16 low lane elem x = [.v (n.val + elem) lane ((BitVec.ofNat 16 x).signExtend 32)] ∧
    elemWrites (.v n) .n32 low lane elem x = [.v (n.val + elem) lane (BitVec.ofNat 32 x)] ∧
    elemWrites (.v n) .n64 low lane elem x =
      [.v (n.val + 2 * elem) lane (BitVec.ofNat 32 x), .v (n.val + 2 * elem + 1) lane (BitVec.ofNat 32 (x / 2 ^ 32))]) ∧
  (∀ (n : Fin 63) lane x, elemWrites (.s n) .n32 (some lane) lane 0 x = [.s n.val (BitVec.ofNat 64 x)] ∧
    ∀ k, k ≠ lane → elemWrites (.s n) .n32 (some lane) k 0 x = [])

/-- The entries `es` have entered the issuing core's store queues, numbered from the next free number on, and the gang's store count is up
by one; of `u` nothing else has changed but the counts of issuing and the wait records and place of the strand (R102, R217). -/
structure Sys2Proof.Machine.Enqueued (i : Instr) (s u t : State) (es : List SQEntry) : Prop where
  rest : t = { u with cur := t.cur, cores := t.cores, nextId := t.nextId }
  queue : ∀ n, t.coreAt n =
    { u.coreAt n with sq := (u.coreAt n).sq ++ if n = s.cur.key.core then es else [] }
  gang : t.cur = { u.cur with
    ssn := s.cur.ssn + 1, strands := t.cur.strands, perf := t.cur.perf, issueSeq := t.cur.issueSeq, pcs := t.cur.pcs,
    pendV := t.cur.pendV, pendS := t.cur.pendS, pendX := t.cur.pendX, holds := t.cur.holds }
  next : t.strand.pc = s.pcAfter i.len ∧ t.strand.mask = s.strand.mask
  others : ∀ k, k ≠ s.curStrand → t.cur.strandAt k = s.cur.strandAt k
  data : SameData s t
  bytes : ∀ a, smGet t.mem a = smGet s.mem a

/-- One entry for each slice with lanes of Part, in ascending slices (R100, R102). -/
def Sys2Proof.Machine.perSlice (s : State) (part : LaneMask) (ahead : Bool) (f : Nat → LaneMask → SQEntry → SQEntry) : List SQEntry :=
  ((List.range 8).filter fun k => part.extractLsb' (4 * k) 4 != 0#4).zipIdx.map fun p =>
    let lanes := part &&& (15#32 : LaneMask) <<< (4 * p.1)
    f p.1 lanes
      { id := s.nextId + p.2, who := s.who lanes ahead, slice := p.1, kind := .store, order := .none, ssn := s.cur.ssn, pri := 0, accs := [],
        ty := none, dst := none, checked := false, held := false }

/-- The bytes of element `k` of a store's data register in a lane (R328, R329; a scalar's in every lane, log entry 23). -/
def Sys2Proof.Machine.storeBytes (g : Gang) (d : Reg) (ty : MTy) (k l : Nat) : List Byte :=
  leBytes (match d with
    | .v n => if ty.wide then (g.vr (n.val + 2 * k) l).toNat + 2 ^ 32 * (g.vr (n.val + 2 * k + 1) l).toNat else (g.vr (n.val + k) l).toNat
    | .s n => (smGet g.s n.val).toNat
    | .zr => 0) ty.bytes

/-- R102, R336, R380: STG, plain and releasing, puts one entry per slice into the store queues with every lane's bytes; to the command page
one command entry of the highest lane, which alone is aligned and alone needs room; memory itself is unchanged until the entry's home moves.
That the highest lane's address also decides for lanes that name other memory is the model's choice (log entry 112), as is what a scalar data
register stores (log entry 23). -/
def Obligations.StoreResults : Prop :=
  ∀ o rel hint s, Ready (.stg o rel hint) s →
    let i : Instr := .stg o rel hint
    let va := fun l => GMem.addr o.m s.cur l
    AccessOpen s (s.part i) o.ahead → RegisterFits false o.data o.vec o.ty → (rel = true → o.ahead = false ∧ o.vec = .x1) →
    let accs (lanes : LaneMask) := (laneAccs lanes o.vec.n o.ty.bytes va).map fun a =>
      { a with bytes := storeBytes s.cur o.data o.ty a.elem a.lane }
    ∀ top, highLane (s.part i) = some top →
    ((va top).toNat / 4096 ≠ 0x1FFFFFFFFFFF → Aligned (s.part i) o.ty.bytes va → QueueRoom s (s.part i) → ∃ t, exec i s = .next t ∧ SamePend s t ∧ t.cur.holds = s.cur.holds ∧
      t.nextId = s.nextId + (perSlice s (s.part i) o.ahead fun _ _ e => e).length ∧ Enqueued i s s t (perSlice s (s.part i) o.ahead fun _ lanes e => { e with
        kind := if rel then .release else .store, order := if rel then .rel else .none, pri := hint.pri, ty := some o.ty, accs := accs lanes })) ∧
    ((va top).toNat / 4096 = 0x1FFFFFFFFFFF → (va top).toNat % o.ty.bytes = 0 → QueueRoom s (1#32 <<< top) → ∃ t, exec i s = .next t ∧ SamePend s t ∧ t.cur.holds = s.cur.holds ∧
      Enqueued i s s t [{
        id := s.nextId, who := s.who (1#32 <<< top) o.ahead, slice := top / 4, kind := .command, order := .none, ssn := s.cur.ssn, pri := 0,
        accs := accs (1#32 <<< top), ty := some o.ty, dst := none, checked := false, held := false }])

/-- A scratchpad instruction `r` waits at core `core`'s banks; of `s` nothing else has changed but the counts of issuing, the marks of its
destination, the strand's wait records and place, and holds. -/
structure Sys2Proof.Machine.AtBanks (i : Instr) (s t : State) (core : Nat) (r : SpReq) : Prop where
  rest : t = { s with cur := t.cur, cores := t.cores, nextId := t.nextId }
  queue : ∀ n, t.coreAt n = { s.coreAt n with spq := (s.coreAt n).spq ++ if n = core then [r] else [] }
  gang : t.cur = { s.cur with
    strands := t.cur.strands, perf := t.cur.perf, issueSeq := t.cur.issueSeq, pcs := t.cur.pcs, pendV := t.cur.pendV,
    pendS := t.cur.pendS, pendX := t.cur.pendX, holds := t.cur.holds }
  next : t.strand.pc = s.pcAfter i.len ∧ t.strand.mask = s.strand.mask
  others : ∀ k, k ≠ s.curStrand → t.cur.strandAt k = s.cur.strandAt k
  data : SameData s t
  bytes : ∀ a, smGet t.mem a = smGet s.mem a

/-- Every access lies in a team's window (R51, R337). -/
def Sys2Proof.Machine.InWindow (t : Team) (part : LaneMask) (size : Nat) (va : Nat → DWord) : Prop :=
  ∀ l, l < 32 → part.getLsbD l = true → (va l).toNat + size ≤ t.pages * 4096

/-- The window address of a scratchpad operand: base, index and offset modulo 2^32 (R244, R327). -/
def Sys2Proof.Machine.windowAddr (m : SMem) (s : State) (l : Nat) : DWord :=
  (s.cur.rd32 m.base l + s.cur.rd32 m.index l + m.off.signExtend 32).setWidth 64

/-- Accesses that a team's window does not hold fault NOT_PRESENT at the lowest failing lane, before any effect (R51, R337, R338). -/
def Sys2Proof.Machine.WindowTrap (i : Instr) (s : State) (place : Option Team) (kind : Nat) (ahead : Bool) (accs : List LaneAcc) : Prop :=
  ∀ a rest, (accs.filter fun a => !(place.any fun t => decide (a.va.toNat + a.size ≤ t.pages * 4096))) = a :: rest →
    TrapsWith i s ⟨0x01, kind, a.va, maskOf fun l => (a :: rest).any fun x => x.lane == l, ahead⟩

/-- No remote store of the threads of Part waits in the store queues (R116). -/
def Sys2Proof.Machine.NoRemoteStore (s : State) (part : LaneMask) : Prop :=
  ∀ e ∈ (s.coreAt s.cur.key.core).sq, s.mine part e.who = true → ∀ k, e.kind ≠ .remoteSts k

/-- R51, R116, R337, R338: LDS and STS within the team's window and their remote forms within the target team's wait at the banks of the
core that holds it, a remote STS in the store queues first; a window the access leaves, or a target that is not there, is a precise
NOT_PRESENT fault of its lanes (a remote STS's failure comes later, at its check). -/
def Sys2Proof.Machine.Claims.ScratchpadResults : Prop :=
  (∀ o s tm, Ready (.lds o) s → AccessOpen s (s.part (.lds o)) o.ahead → RegisterFits true o.d o.vec o.ty →
    Aligned (s.part (.lds o)) o.ty.bytes (windowAddr o.m s) → s.teamAt s.cur.team = some tm →
    InWindow tm (s.part (.lds o)) (o.vec.n * o.ty.bytes) (windowAddr o.m s) →
    CleanWindow s s.cur.team (laneAccs (s.part (.lds o)) o.vec.n o.ty.bytes (windowAddr o.m s)) →
    ∃ t, exec (.lds o) s = .next t ∧ Marked s t o.d (o.vec.n * o.ty.regs) (s.part (.lds o)) ∧
      AtBanks (.lds o) s t s.cur.key.core {
        src := s.cur.key.part, id := s.nextId, who := s.who (s.part (.lds o)) o.ahead, team := s.cur.team, op := .load, order := .none,
        accs := laneAccs (s.part (.lds o)) o.vec.n o.ty.bytes (windowAddr o.m s), ty := some o.ty, dst := some o.d, entry := none }) ∧
  (∀ o s tm, Ready (.sts o) s → AccessOpen s (s.part (.sts o)) o.ahead → RegisterFits false o.data o.vec o.ty →
    Aligned (s.part (.sts o)) o.ty.bytes (windowAddr o.m s) → s.teamAt s.cur.team = some tm →
    InWindow tm (s.part (.sts o)) (o.vec.n * o.ty.bytes) (windowAddr o.m s) →
    ∃ t, exec (.sts o) s = .next t ∧ SamePend s t ∧
      AtBanks (.sts o) s t s.cur.key.core {
        src := s.cur.key.part, id := s.nextId, who := s.who (s.part (.sts o)) o.ahead, team := s.cur.team, op := .store, order := .none,
        accs := (laneAccs (s.part (.sts o)) o.vec.n o.ty.bytes (windowAddr o.m s)).map fun a =>
          { a with bytes := storeBytes s.cur o.data o.ty a.elem a.lane }
        ty := some o.ty, dst := none, entry := none }) ∧
  (∀ o c s tm, Ready (.ldsRemote o c) s → AccessOpen s (s.part (.ldsRemote o c)) o.ahead → RegisterFits true o.d o.vec o.ty →
    Aligned (s.part (.ldsRemote o c)) o.ty.bytes (windowAddr o.m s) → s.remoteTeam c = some tm →
    NoRemoteStore s (s.part (.ldsRemote o c)) →
    InWindow tm (s.part (.ldsRemote o c)) (o.vec.n * o.ty.bytes) (windowAddr o.m s) →
    CleanWindow s tm.key (laneAccs (s.part (.ldsRemote o c)) o.vec.n o.ty.bytes (windowAddr o.m s)) →
    ∃ t, exec (.ldsRemote o c) s = .next t ∧ Marked s t o.d (o.vec.n * o.ty.regs) (s.part (.ldsRemote o c)) ∧
      AtBanks (.ldsRemote o c) s t tm.core {
        src := 4, id := s.nextId, who := s.who (s.part (.ldsRemote o c)) o.ahead, team := tm.key, op := .load, order := .none,
        accs := laneAccs (s.part (.ldsRemote o c)) o.vec.n o.ty.bytes (windowAddr o.m s), ty := some o.ty, dst := some o.d, entry := none }) ∧
  (∀ o c s, Ready (.stsRemote o c) s → AccessOpen s (s.part (.stsRemote o c)) o.ahead → RegisterFits false o.data o.vec o.ty →
    Aligned (s.part (.stsRemote o c)) o.ty.bytes (windowAddr o.m s) → QueueRoom s (s.part (.stsRemote o c)) →
    ∃ t, exec (.stsRemote o c) s = .next t ∧ SamePend s t ∧ t.cur.holds = s.cur.holds ∧
      Enqueued (.stsRemote o c) s s t (perSlice s (s.part (.stsRemote o c)) o.ahead fun _ lanes e => { e with
        kind := .remoteSts (s.remoteCore c), ty := some o.ty
        accs := (laneAccs lanes o.vec.n o.ty.bytes (windowAddr o.m s)).map fun a =>
          { a with bytes := storeBytes s.cur o.data o.ty a.elem a.lane } })) ∧
  (∀ o s, Ready (.lds o) s → AccessOpen s (s.part (.lds o)) o.ahead → RegisterFits true o.d o.vec o.ty →
    Aligned (s.part (.lds o)) o.ty.bytes (windowAddr o.m s) →
    WindowTrap (.lds o) s (s.teamAt s.cur.team) 0 o.ahead (laneAccs (s.part (.lds o)) o.vec.n o.ty.bytes (windowAddr o.m s))) ∧
  (∀ o s, Ready (.sts o) s → AccessOpen s (s.part (.sts o)) o.ahead → RegisterFits false o.data o.vec o.ty →
    Aligned (s.part (.sts o)) o.ty.bytes (windowAddr o.m s) →
    WindowTrap (.sts o) s (s.teamAt s.cur.team) 1 o.ahead (laneAccs (s.part (.sts o)) o.vec.n o.ty.bytes (windowAddr o.m s))) ∧
  (∀ o c s, Ready (.ldsRemote o c) s → AccessOpen s (s.part (.ldsRemote o c)) o.ahead → RegisterFits true o.d o.vec o.ty →
    Aligned (s.part (.ldsRemote o c)) o.ty.bytes (windowAddr o.m s) → NoRemoteStore s (s.part (.ldsRemote o c)) →
    WindowTrap (.ldsRemote o c) s (s.remoteTeam c) 0 o.ahead
      (laneAccs (s.part (.ldsRemote o c)) o.vec.n o.ty.bytes (windowAddr o.m s)))

/-- An atomic at the home: one entry per slice with each lane's operands, its destination pending; an acquire lays a hold on the threads'
later accesses (R109, R111, R112, R341, R342). -/
def Sys2Proof.Machine.Atomics (i : Instr) (a : AHdr) (op : HomeOp) (wide : Bool) (d : Reg) (va : State → Nat → DWord)
    (x y : State → Nat → DWord) : Prop :=
  ∀ s accs u, Ready i s → AccessOpen s (s.part i) a.ahead → (a.ahead = true → a.order = .none) →
    Aligned (s.part i) (if wide then 8 else 4) (va s) → QueueRoom s (s.part i) →
    Translates s .write ((laneAccs (s.part i) 1 (if wide then 8 else 4) (va s)).map fun e => { e with x := x s e.lane, y := y s e.lane })
      accs u →
    (∀ a ∈ accs, ∀ w ∈ a.words, u.badWord w = false) →
    ∃ t, exec i s = .next t ∧ Marked s t d (if wide then 2 else 1) (s.part i) ∧
      Enqueued i s u t (perSlice s (s.part i) a.ahead fun _ lanes e => { e with
        kind := .atomic op, order := a.order, checked := true, ty := some (if wide then .n64 else .n32)
        dst := some (match d with | .s n => if lowLane lanes = lowLane (s.part i) then .s n else .zr | d => d)
        accs := accs.filter fun e => lanes.getLsbD e.lane }) ∧
      if a.order = .acq ∨ a.order = .ar then ∃ h, t.cur.holds = s.cur.holds ++ [h] ∧ h.kind = .acquire ∧ h.who = s.who (s.part i) a.ahead
      else t.cur.holds = s.cur.holds

/-- R109, R111, R112, R341, R342: ATOM, CAS, ATOMF and HOP. -/
def Sys2Proof.Machine.Claims.AtomicResults : Prop :=
  (∀ a op (ty : ITy) d m b, Atomics (.atom a op ty d m b) a (.int op ty) ty.wide d (fun s l => GMem.addr m s.cur l)
    (fun s l => s.cur.rd ty.wide b l) fun _ _ => 0) ∧
  (∀ a (ty : CasTy) d m cmp new, Atomics (.cas a ty d m cmp new) a (.cas ty) ty.wide d (fun s l => SMem.addr m s.cur l)
    (fun s l => s.cur.rd ty.wide cmp l) fun s l => s.cur.rd ty.wide new l) ∧
  (∀ a op (ty : AFTy) d m b, Atomics (.atomf a op ty d m b) a (.flt op ty) ty.wide d (fun s l => GMem.addr m s.cur l)
    (fun s l => s.cur.rd ty.wide b l) fun _ _ => 0) ∧
  (∀ a op (ty : ITy) d m b c, Atomics (.hop a op ty d m b c) a (.hop op ty) ty.wide d (fun s l => SMem.addr m s.cur l)
    (fun s l => s.cur.rd ty.wide b l) fun s l => s.cur.rd ty.wide c l)

/-- R341, R342: the new value of a word under each operation of the home slice ALU, at 32 and 64 bits and for ATOMF.ADD.bf16 in each half of
the word, and that an atomic returns the word as it stood before. -/
def Obligations.HomeOperationValues : Prop :=
  (∀ (ty : ITy) (old x y : DWord),
    let n := if ty.wide then 64 else 32
    let u (v : DWord) : Nat := v.toNat % 2 ^ n
    let v (z : DWord) : Int := if ty.signed then (if 2 ^ (n - 1) ≤ u z then (u z : Int) - 2 ^ n else u z) else u z
    (aluNew (.int .add ty) old x y).toNat = (u old + u x) % 2 ^ n ∧
    (aluNew (.int .min ty) old x y).toNat = (if v x < v old then u x else u old) ∧
    (aluNew (.int .max ty) old x y).toNat = (if v old < v x then u x else u old) ∧
    (aluNew (.int .and ty) old x y).toNat = Nat.land (u old) (u x) ∧
    (aluNew (.int .or ty) old x y).toNat = Nat.lor (u old) (u x) ∧
    (aluNew (.int .xor ty) old x y).toNat = Nat.xor (u old) (u x) ∧
    (aluNew (.int .exch ty) old x y).toNat = u x ∧
    (aluNew (.int .inc ty) old x y).toNat = (if u x ≤ u old then 0 else u old + 1) ∧
    (aluNew (.int .dec ty) old x y).toNat = (if u old = 0 ∨ u x < u old then u x else u old - 1) ∧
    (aluNew (.hop .badd ty) old x y).toNat = (if u old + u x ≤ u y then u old + u x else u old) ∧
    (aluNew (.hop .bsub ty) old x y).toNat = (if u x ≤ u old then u old - u x else u old) ∧
    ∀ k, k < n → (aluNew (.hop .merge ty) old x y).getLsbD k = if y.getLsbD k then x.getLsbD k else old.getLsbD k) ∧
  (∀ (ty : CasTy) (old x y : DWord),
    let n := if ty.wide then 64 else 32
    (aluNew (.cas ty) old x y).toNat = (if old.toNat % 2 ^ n = x.toNat % 2 ^ n then y.toNat else old.toNat) % 2 ^ n) ∧
  (∀ old x y : DWord,
    (aluNew (.flt .add .f32) old x y).toNat = (addBits f32 .rn (old.toNat % 2 ^ 32) (x.toNat % 2 ^ 32)).1 % 2 ^ 32 ∧
    (aluNew (.flt .add .f64) old x y).toNat = (addBits f64 .rn old.toNat x.toNat).1 % 2 ^ 64 ∧
    (aluNew (.flt .add .bf16) old x y).toNat =
      (addBits bf16 .rn (old.toNat % 2 ^ 16) (x.toNat % 2 ^ 16)).1 % 2 ^ 16 +
        2 ^ 16 * ((addBits bf16 .rn (old.toNat / 2 ^ 16 % 2 ^ 16) (x.toNat / 2 ^ 16 % 2 ^ 16)).1 % 2 ^ 16) ∧
    (∀ (ty : AFTy), ty ≠ .bf16 → let f := if ty = .f64 then f64 else f32
      let n := if ty = .f64 then 64 else 32
      ∀ max, (aluNew (.flt (if max then .max else .min) ty) old x y).toNat =
        (minMaxBits f max false (old.toNat % 2 ^ n) (x.toNat % 2 ^ n)).1 % 2 ^ n)) ∧
  (∀ s id r a op n, AtHome s id r → r.kind = .atomic op → r.order = .none → r.accs = [a] → (∀ w ∈ r.words, s.ownerOf w = none) →
    r.dst = some (.v n) → (r.ty = some .n32 ∧ a.size = 4 ∧ a.pa % 4 = 0 ∨ r.ty = some .n64 ∧ a.size = 8 ∧ a.pa % 8 = 0) → a.elem = 0 →
    ∃ t, exec (.atomicAtHome id) s = .next t ∧ SendsBack s t r.core r.who
      (if a.size = 4 then [.v n.val a.lane (smWord s.mem a.pa)]
        else [.v n.val a.lane (smWord s.mem a.pa), .v (n.val + 1) a.lane (smWord s.mem (a.pa + 4))]))

/-- R135, R214, R344, R345: RED and REDU enter the store queues as stores do, with their operands; no register is written. -/
def Sys2Proof.Machine.Claims.ReductionResults : Prop :=
  (∀ h ahead op m b s, Ready (.red h ahead op m b) s →
    let i : Instr := .red h ahead op m b
    let w : Bool := match op with | .int _ ty => ty.wide | .flt _ ty => ty.wide
    let k : HomeOp := match op with | .int o ty => .int o ty | .flt o ty => .flt o ty
    let va := fun l => GMem.addr m s.cur l
    AccessOpen s (s.part i) ahead → Aligned (s.part i) (if w then 8 else 4) va → QueueRoom s (s.part i) →
    (∀ a ∈ s.begin.peek (laneAccs (s.part i) 1 (if w then 8 else 4) va), ∀ x ∈ a.words, s.badWord x = false) →
    ∃ t, exec i s = .next t ∧ SamePend s t ∧ t.cur.holds = s.cur.holds ∧
      Enqueued i s s t (perSlice s (s.part i) ahead fun _ lanes e => { e with
        kind := .red k, accs := (laneAccs lanes 1 (if w then 8 else 4) va).map fun e => { e with x := s.cur.rd w b e.lane } })) ∧
  (∀ h ahead op m b s, Ready (.redu h ahead op m b) s →
    let i : Instr := .redu h ahead op m b
    let w : Bool := op.tag.val == 2
    let va := fun l => GMem.addr m s.cur l
    AccessOpen s (s.part i) ahead → Aligned (s.part i) (if w then 8 else 4) va → QueueRoom s (s.part i) →
    ∃ t, exec i s = .next t ∧ SamePend s t ∧ t.cur.holds = s.cur.holds ∧
      Enqueued i s s t (perSlice s (s.part i) ahead fun _ lanes e => { e with
        kind := .redu op.tag, accs := (laneAccs lanes 1 (if w then 8 else 4) va).map fun e => { e with x := s.cur.rd w b e.lane } }))

/-- R116, R338, R343: ATOMS and its remote form wait at the banks of their window's core with each lane's operands, their destination
pending; an acquire lays its hold; a release issues once its threads' earlier accesses are done, and its core drains; a window that the
access leaves, or a target that is not there, is a precise NOT_PRESENT fault of access kind 2. -/
def Sys2Proof.Machine.Claims.ScratchpadAtomicResults : Prop :=
  ∀ (remote : Option (BitVec 4 × BitVec 4)) (o : Atoms) (s : State) (tm : Team),
    let i : Instr := match remote with | none => .atoms o | some c => .atomsRemote o c.1 c.2
    let w : Bool := match o.op with | .int _ ty _ => ty.wide | .flt _ _ => false | .cas ty _ => ty.wide
    let op : HomeOp := match o.op with | .int k ty _ => .int k ty | .flt k _ => .flt k .f32 | .cas ty _ => .cas ty
    let index (l : Nat) : Word := match o.op with | .cas _ _ => 0 | _ => s.cur.rd32 o.index l
    let va := fun l => ((s.cur.rd32 o.base l + index l + o.off.signExtend 32).setWidth 64 : DWord)
    let x (l : Nat) : DWord := match o.op with
      | .int _ ty b => s.cur.rdSrc ty.wide b l
      | .flt _ b => s.cur.rd false b l
      | .cas ty cmp => s.cur.rd ty.wide cmp l
    let y (l : Nat) : DWord := match o.op with | .cas ty _ => s.cur.rd ty.wide o.index l | _ => 0
    let place := match remote with
      | none => s.teamAt s.cur.team
      | some c => s.remoteTeam ⟨BitVec.ofNat 2 (s.cur.key.core / 64), c.1, c.2⟩
    let is (r : SpReq) : Prop :=
      r.src = (if remote = none then s.cur.key.part else 4) ∧ r.who = s.who (s.part i) o.a.ahead ∧ r.team = tm.key ∧ r.op = .atomic op ∧
      r.order = o.a.order ∧ r.dst = some o.d ∧ r.entry = none ∧
      r.accs = (laneAccs (s.part i) 1 (if w then 8 else 4) va).map fun e => { e with x := x e.lane, y := y e.lane }
    Ready i s → AccessOpen s (s.part i) o.a.ahead → (o.a.ahead = true → o.a.order = .none) → Aligned (s.part i) (if w then 8 else 4) va →
    (remote ≠ none → NoRemoteStore s (s.part i)) →
    ((o.a.order = .rel ∨ o.a.order = .ar) → s.clearBefore (s.who (s.part i) false) = true ∧ s.anyStuck s.cur.key.core = false) →
    WindowTrap i s place 2 o.a.ahead (laneAccs (s.part i) 1 (if w then 8 else 4) va) ∧
    (place = some tm → InWindow tm (s.part i) (if w then 8 else 4) va → CleanWindow s tm.key (laneAccs (s.part i) 1 (if w then 8 else 4) va) →
    ((o.a.order = .none ∨ o.a.order = .acq) →
      ∃ t r, exec i s = .next t ∧ Marked s t o.d (if w then 2 else 1) (s.part i) ∧ AtBanks i s t tm.core r ∧ is r ∧
        if o.a.order = .acq then ∃ h, t.cur.holds = s.cur.holds ++ [h] ∧ h.kind = .acquire ∧ h.who = s.who (s.part i) false
        else t.cur.holds = s.cur.holds) ∧
    ((o.a.order = .rel ∨ o.a.order = .ar) →
      ∃ t r, exec i s = .next t ∧ Marked s t o.d (if w then 2 else 1) (s.part i) ∧ SameData s t ∧ t.strand.pc = s.pcAfter i.len ∧
        (t.coreAt tm.core).spq = (s.coreAt tm.core).spq ++ [r] ∧ is r ∧ t.mem = (s.drainCore s.cur.key.core).mem ∧
        if o.a.order = .ar then ∃ h, t.cur.holds = s.cur.holds ++ [h] ∧ h.kind = .acquire else t.cur.holds = s.cur.holds))

/-- An instruction that lays a hold on its threads' later accesses and changes nothing else (R113, R117). -/
def Sys2Proof.Machine.Holds (i : Instr) (s : State) (kind : HoldKind) : Prop :=
  ∃ t, exec i s = .next t ∧ SameData s t ∧ t.strand.pc = s.pcAfter i.len ∧
    t.cur.holds = s.cur.holds ++ [⟨s.nextId, s.who (s.part i) false, kind⟩] ∧
    t = { s with cur := t.cur, nextId := s.nextId + 1 }

/-- R113, R117, R130, R346 to R348: FENCE and PFENCE hold their threads' later accesses; FLUSH and INVAL enter the queue with every lane's
range, in the slice of the lowest lane of Part (the model's reading, log entry 24: R347 names no slice); SDRAIN parks its strand while a
store of the gang before it is unchecked, with none open its strand issues next two cycles later, and with a guard other than pt it traps. -/
def Obligations.FenceAndRangeResults : Prop :=
  (∀ h s, Ready (.fence h) s → AccessOpen s (s.part (.fence h)) false → Holds (.fence h) s .fence) ∧
  (∀ h c t s, Ready (.pfence h c t) s → AccessOpen s (s.part (.pfence h c t)) false → (c = true ∨ t = true) →
    Holds (.pfence h c t) s (.pfence c t)) ∧
  (∀ h s, Ready (.pfence h false false) s → s.cur.awaited s.strand false = none →
    (∀ x ∈ s.cur.holds, x.stops s (s.who (s.part (.pfence h false false)) false) = false) →
    TrapsWith (.pfence h false false) s ⟨0x11, 0xFF, 0, s.part (.pfence h false false), false⟩) ∧
  (∀ (inv : Bool) r s l, let i : Instr := if inv then .inval r else .flush r
    Ready i s → AccessOpen s (s.part i) false → lowLane (s.part i) = some l → QueueRoom s (1#32 <<< l) →
    ∃ t, exec i s = .next t ∧ SamePend s t ∧ t.cur.holds = s.cur.holds ∧
      Enqueued i s s t [{
        id := s.nextId, who := s.who (s.part i) false, slice := l / 4, kind := if inv then .inval else .flush, order := .none,
        ssn := s.cur.ssn, pri := 0, ty := none, dst := none, checked := true, held := false
        accs := (lanesOf (s.part i)).map fun k =>
          mkAcc k 0 (s.cur.rdSrc32 r.len k).toNat (s.cur.rd64 r.base k + r.off.signExtend 64) }]) ∧
  (∀ h s, Ready (.sdrain h) s → h.g1.neg = false → h.g1.idx.val = 47 →
    let open' := ∃ e ∈ (s.coreAt s.cur.key.core).sq, e.who.g = s.cur.key ∧ e.kind.isStore = true ∧ e.checked = false ∧ e.id < s.nextId
    (open' → ∃ t, exec (.sdrain h) s = .next t ∧ Went (.sdrain h) s t ∧ SameData s t ∧ t.strand.state = .parked ∧
      t.strand.waitOn = .checks s.nextId) ∧
    (¬ open' → ∃ t, exec (.sdrain h) s = .next t ∧ Went (.sdrain h) s t ∧ SameData s t ∧ t.strand.notBefore = s.clock + 2)) ∧
  (∀ h s, Ready (.sdrain h) s → (h.g1.neg = true ∨ h.g1.idx.val ≠ 47) →
    TrapsWith (.sdrain h) s ⟨0x11, 0xFF, 0, s.part (.sdrain h), false⟩)

/-- R137, R200, R340, R349, R350: PREF asks for a fill of each lane's sector that it can translate and whose copy its level's path lacks, on
that path, and writes no register (a sector in L2 is asked for again, whose fill then finds it there: the model's reading, log entry 10); WAITW
watches each lane's word and places one read of each sector for all its lanes, its strand in barrier wait past it; SPUNPIN gives up the pages it names and SPPIN holds them again,
each that stands nowhere taking a free physical page filled from its frame. -/
def Obligations.PrefetchWaitAndPinResults : Prop :=
  (∀ h level m hint s, Ready (.pref h level m hint) s → ∃ t, exec (.pref h level m hint) s = .next t ∧ SameData s t ∧ SamePend s t ∧
    t.strand.pc = s.pcAfter (Instr.pref h level m hint).len ∧ t.cur.holds = s.cur.holds ∧
    (∀ a, smGet t.mem a = smGet s.mem a) ∧
    (∃ more, t.ornWait = s.ornWait ++ more ∧ (∀ r ∈ more, r.dst = none ∧ r.ty = none ∧ r.entry = none ∧ r.clock = s.clock ∧
      r.kind = (match level with | .c => .pathFill false | .t => .pathFill true | .l2 => .l2Fill | .l1 => .fetch) ∧
      ∀ a ∈ r.accs, a.pa / 32 = r.sector ∧ (level = .l1 → a.attr.cache = 0) ∧ (level = .l2 → a.attr.cache ≠ 2) ∧
        ∃ l, l < 32 ∧ (s.part (.pref h level m hint)).getLsbD l = true ∧ a.va = GMem.addr m s.cur l) ∧
      ∀ p ∈ (s.begin.translateAll s.cur.key.core s.cur.team.ctx .read
          (laneAccs (s.part (.pref h level m hint)) 1 1 fun l => GMem.addr m s.cur l)).1,
        ∀ pa at', p.2 = .ok pa at' → (isRemote pa = true ∨ pa % 2 ^ 42 < 0x8000000000) →
        (match level with
          | .l1 => p.1.attr.cache = 0 ∧ (s.coreAt s.cur.key.core).view (p.1.pa / 4) = none
          | .l2 => p.1.attr.cache ≠ 2
          | .c => (s.coreAt s.cur.key.core).pathBytes false p.1 = none
          | .t => (s.coreAt s.cur.key.core).pathBytes true p.1 = none) →
        ∃ r ∈ more, r.sector = p.1.pa / 32 ∧ p.1 ∈ r.accs)) ∧
  (∀ o s accs u, Ready (.waitw o) s →
    let i : Instr := .waitw o
    let va := fun l => GMem.addr o.m s.cur l
    let size := if o.ty.wide then 8 else 4
    AccessOpen s (s.part i) false → Aligned (s.part i) size va → Translates s .read (laneAccs (s.part i) 1 size va) accs u →
    (∀ a ∈ accs, u.meets (s.who (s.part i) false) (if o.acq then .home else .fetch) a = false) →
    ∃ t ws rs, exec i s = .next t ∧ SameData s t ∧ t.strand.pc = s.pcAfter i.len ∧ t.strand.state = .barWait ∧ t.strand.waitOn = .word ∧
      t.strand.wait.kind = .word ∧ t.strand.wait.obj = (match lowLane (s.part i) with | some l => va l | none => 0) ∧
      Marked s t o.d (if o.ty.wide then 2 else 1) (s.part i) ∧ (∀ a, smGet t.mem a = smGet s.mem a) ∧
      t.watches = s.watches ++ ws ∧ t.ornWait = s.ornWait ++ rs ∧
      ws.map (fun w => (w.lane, w.va, w.pa, w.cmp)) = accs.map (fun a => (a.lane, a.va, a.pa, s.cur.rd o.ty.wide o.b a.lane)) ∧
      (∀ w ∈ ws, w.cc = o.cc ∧ w.ty = o.ty ∧ w.dst = o.d ∧ w.value = none) ∧
      (rs.map (·.sector)).Nodup ∧ (∀ sec, (∃ r ∈ rs, r.sector = sec) ↔ ∃ a ∈ accs, a.pa / 32 = sec) ∧
      (∀ r ∈ rs, ∀ r' ∈ rs, r.sector / 16 = r'.sector / 16 → r.grp = r'.grp) ∧
      ∀ r ∈ rs, r.kind = .watch ∧ r.who = s.who (s.part i) false ∧ r.accs = (accs.filter fun a => a.pa / 32 == r.sector) ∧
        r.order = (if o.acq then .acq else .none) ∧ r.clock = s.clock) ∧
  (∀ h a n s l tm, Ready (.spunpin h a n) s → lowLane (s.part (.spunpin h a n)) = some l → s.teamAt s.cur.team = some tm →
    ∃ t tm', exec (.spunpin h a n) s = .next t ∧ t = { s with cur := t.cur, teams := t.teams } ∧ SameData s t ∧
      t.strand.pc = s.pcAfter (Instr.spunpin h a n).len ∧ t.teamAt s.cur.team = some tm' ∧ tm' = { tm with unpinned := tm'.unpinned } ∧
      ∀ p, p ∈ tm'.unpinned ↔ p ∈ tm.unpinned ∨ (p < tm.pages ∧ (s.cur.rd32 a l).toNat ≤ p ∧
        p < (s.cur.rd32 a l).toNat + (s.cur.rdSrc32 n l).toNat)) ∧
  (∀ h a n s l tm, Ready (.sppin h a n) s → AccessOpen s (s.part (.sppin h a n)) false → lowLane (s.part (.sppin h a n)) = some l →
    s.teamAt s.cur.team = some tm →
    let named := (List.range tm.pages).filter fun p =>
      decide ((s.cur.rd32 a l).toNat ≤ p ∧ p < (s.cur.rd32 a l).toNat + (s.cur.rdSrc32 n l).toNat)
    s.pinnedPages s.cur.key.core + (named.filter tm.unpinned.contains).length ≤ 512 →
    ∃ t tm', exec (.sppin h a n) s = .next t ∧ Counts ((s.begin.pinPages s.cur.team named).past (.sppin h a n) s) t ∧ SameData s t ∧
      SamePend s t ∧ t.strand.pc = s.pcAfter (Instr.sppin h a n).len ∧ t.teamAt s.cur.team = some tm' ∧
      tm' = { tm with unpinned := tm'.unpinned, held := tm'.held, sp := tm'.sp, spBad := tm'.spBad } ∧
      ∀ p, p ∈ tm'.unpinned ↔ p ∈ tm.unpinned ∧ p ∉ named) ∧
  (∀ (s : State) key tm p k, s.teamAt key = some tm → tm.holds p = false → s.freePage tm.core = some k →
    (∀ x ∈ s.teams, x.core = tm.core → ∀ y ∈ x.held, y.2 ≠ k) →
    ∃ t tm', s.takePage key false p = some t ∧ t.teamAt key = some tm' ∧ tm'.held = tm.held ++ [(p, k)] ∧
      (∀ a, smGet tm'.sp a = if p * 4096 ≤ a ∧ a < p * 4096 + 4096 then smGet s.mem (atD tm.frames p 0 + (a - p * 4096)) else smGet tm.sp a) ∧
      ∀ a, smGet t.mem a = smGet s.mem a)

/-- R212 to R215, R234, R235, R328, R331: the checks of an access in their order: too wide, past MEMDONE, a register that does not fit, an
address no multiple of the width (of a store to the command page that of its one lane), shown on LDG and STG, and for LDG an uncorrectable error among what it reads, which the error log has too;
each trap carries its cause, kind, address and lanes. -/
def Obligations.AccessTraps : Prop :=
  ∀ (store : Bool) (o : Ld) hint s,
    let i : Instr := if store then .stg ⟨o.h, o.ahead, o.vec, o.ty, o.d, o.m⟩ false hint else .ldg o false hint
    Ready i s → s.part i ≠ 0 → (o.ahead = false → s.cur.awaited s.strand false = none) →
    (∀ h ∈ s.cur.holds, h.stops s (s.who (s.part i) o.ahead) = false) → QueueRoom s (s.part i) →
    let alone := store && (highLane (s.part i)).any fun l => decide ((GMem.addr o.m s.cur l).toNat / 4096 = 0x1FFFFFFFFFFF)
    let bad := maskOf fun l => (s.part i).getLsbD l && decide ((GMem.addr o.m s.cur l).toNat % o.ty.bytes ≠ 0) &&
      (!alone || decide (highLane (s.part i) = some l))
    (16 < o.vec.n * o.ty.bytes → TrapsWith i s ⟨0x11, 0xFF, 0, s.part i, false⟩) ∧
    (pastMemdone s.strand = true → TrapsWith i s ⟨0x11, 0xFF, 0, s.part i, false⟩) ∧
    ((∃ n, o.d = .v n ∧ n.val % (o.vec.n * o.ty.regs) ≠ 0) → TrapsWith i s ⟨0x11, 0xFF, 0, s.part i, false⟩) ∧
    (∀ l, RegisterFits true o.d o.vec o.ty → pastMemdone s.strand = false → lowLane bad = some l →
      TrapsWith i s ⟨0x05, if store then 1 else 0, GMem.addr o.m s.cur l, bad, o.ahead⟩) ∧
    (∀ accs u, store = false → AccessOpen s (s.part i) o.ahead → RegisterFits true o.d o.vec o.ty →
      Aligned (s.part i) o.ty.bytes (fun l => GMem.addr o.m s.cur l) →
      Translates s .read (laneAccs (s.part i) o.vec.n o.ty.bytes fun l => GMem.addr o.m s.cur l) accs u →
      let met := accs.filter (u.meets (s.who (s.part i) o.ahead) .view)
      ∀ a rest, met = a :: rest →
        let v := ((met.flatMap LaneAcc.words).filter u.badWord).foldl State.condemn u
        let addr : DWord := BitVec.ofNat 64 (a.pa / 8 * 8)
        let unit := (u.unitOf a.pa a.attr).1
        ∃ t, Trapped v t ⟨0x09, 0, a.va, maskOf (fun l => met.any fun x => x.lane == l), o.ahead⟩ ∧
          exec i s = .next (t.logErr s.cur.ctxField 2 unit (u.unitOf a.pa a.attr).2 (errStack unit addr) addr) ∧
          ∀ w, w ∈ met.flatMap LaneAcc.words → u.badWord w = true → w / 8 ∈ t.poison)

/-- The loads and their parts. -/
def Obligations.LoadAndPartResults : Prop :=
  Claims.LoadResults ∧ Claims.LoadParts

/-- The scratchpad loads, stores and atomics. -/
def Obligations.ScratchpadAccessResults : Prop :=
  Claims.ScratchpadResults ∧ Claims.ScratchpadAtomicResults

/-- The atomics and reductions on memory. -/
def Obligations.AtomicAndReductionResults : Prop :=
  Claims.AtomicResults ∧ Claims.ReductionResults


/-! ### Engine instructions (R352 to R388) -/

/-- The instruction makes the effect `f` on the state in which its strand has left the wait it was in, and goes on at the next one. -/
def Sys2Proof.Machine.Does (i : Instr) (s : State) (f : State → State) : Prop :=
  ∃ t, exec i s = .next t ∧ Counts ((f s.begin).past i s) t ∧ SameData s t

/-- A 32-bit result in every lane of Part is on its way: the destination pending, one flight more on the core; everything else of the
device is as before but what issuing counts, the strand's wait records, the gang's feed queues and the core's operand buffer, of which
the statement speaks (R48, R352). -/
structure Sys2Proof.Machine.OnWay (i : Instr) (s t : State) (d : Reg) (x : Nat → Word) : Prop where
  rest : t = { s with cur := t.cur, cores := t.cores, nextId := s.nextId + 1 }
  gang : t.cur = { s.cur with
    strands := t.cur.strands, perf := t.cur.perf, issueSeq := t.cur.issueSeq, pcs := t.cur.pcs, pendV := t.cur.pendV,
    pendS := t.cur.pendS, pendX := t.cur.pendX, fq := t.cur.fq }
  others : ∀ k, k ≠ s.curStrand → t.cur.strandAt k = s.cur.strandAt k
  next : t.strand.pc = s.pcAfter i.len ∧ t.strand.mask = s.strand.mask
  cores : ∀ n, n ≠ s.cur.key.core → t.coreAt n = s.coreAt n
  core : ∃ y, t.coreAt s.cur.key.core = { s.coreAt s.cur.key.core with
      inflight := (s.coreAt s.cur.key.core).inflight ++ [y],
      resv := (t.coreAt s.cur.key.core).resv, tob := (t.coreAt s.cur.key.core).tob, tobCtx := (t.coreAt s.cur.key.core).tobCtx,
      tobBad := (t.coreAt s.cur.key.core).tobBad } ∧
    y.g = s.cur.key ∧ y.strand = s.curStrand ∧ y.seq = s.cur.issueSeq ∧ y.flags = 0 ∧ y.sfu = false ∧
    ∀ w, w ∈ y.writes ↔
      match d with
      | .v n => ∃ l, l < 32 ∧ (s.part i).getLsbD l = true ∧ w = .v n.val l (x l)
      | .s n => ∃ l, lowLane (s.part i) = some l ∧ w = .s n.val ((x l).setWidth 64)
      | .zr => False
  marked : Marked s t d 1 (s.part i)
  data : SameData s t

/-- The operand buffer of the issuing core is as before. -/
def Sys2Proof.Machine.SameTob (s t : State) : Prop :=
  (t.coreAt s.cur.key.core).resv = (s.coreAt s.cur.key.core).resv ∧ (t.coreAt s.cur.key.core).tob = (s.coreAt s.cur.key.core).tob ∧
  (t.coreAt s.cur.key.core).tobCtx = (s.coreAt s.cur.key.core).tobCtx ∧ (t.coreAt s.cur.key.core).tobBad = (s.coreAt s.cur.key.core).tobBad

/-- R201, R352, R354 to R357: RESV's checks, its status in their order, and a grant: the record, the range cleared where another context
held any of it, the units marked; RELV gives a reservation up unless a queued command names it. -/
def Sys2Proof.Machine.Claims.ReservationResults : Prop :=
  (∀ h shr fmt n d a b c s l, Ready (.resv h shr fmt n d a b c) s → lowLane (s.part (.resv h shr fmt n d a b c)) = some l →
    let i : Instr := .resv h shr fmt n d a b c
    let off := (s.cur.rd32 a l).toNat % 2 ^ 11
    let len := (s.cur.rd32 a l).toNat / 2 ^ 16 % 2 ^ 12
    let pitch := (s.cur.rd32 b l).toNat % 2 ^ 16
    let soff := (s.cur.rd32 c l).toNat % 2 ^ 20
    let all := (s.coreAt s.cur.key.core).resv
    let meets (x : Resv) : Prop := off < x.off + x.len ∧ x.off < off + len
    let bad := len = 0 ∨ 2048 < off + len ∨ pitch = 0 ∨ pitch % 16 ≠ 0 ∨ ((blockOf fmt.toNat).isSome = true ∧ len * 256 ≤ soff) ∨
      ((blockOf fmt.toNat).isSome = false ∧ soff ≠ 0)
    let used := ∃ x ∈ all, x.g = s.cur.key ∧ x.id = n
    let own := ∃ x ∈ all, x.g = s.cur.key ∧ meets x
    let other := ∃ x ∈ all, x.g ≠ s.cur.key ∧ meets x ∧ ¬ (x.shr = true ∧ shr = true ∧ (s.gangAt x.g).team = s.cur.team)
    let mark : Word := BitVec.ofNat 32 (s.cur.ctxField.toNat + 1)
    let foreign := ∃ u, off ≤ u ∧ u < off + len ∧ smGet (s.coreAt s.cur.key.core).tobCtx u ≠ 0 ∧
      smGet (s.coreAt s.cur.key.core).tobCtx u ≠ mark
    (bad → TrapsWith i s ⟨0x11, 0xFF, 0, s.part i, false⟩) ∧
    (¬ bad → used → ∃ t, exec i s = .next t ∧ OnWay i s t d (fun _ => 2) ∧ SameTob s t) ∧
    (¬ bad → ¬ used → own → ∃ t, exec i s = .next t ∧ OnWay i s t d (fun _ => 3) ∧ SameTob s t) ∧
    (¬ bad → ¬ used → ¬ own → other → ∃ t, exec i s = .next t ∧ OnWay i s t d (fun _ => 1) ∧ SameTob s t) ∧
    (¬ bad → ¬ used → ¬ own → ¬ other → ∃ t, exec i s = .next t ∧ OnWay i s t d (fun _ => 0) ∧
      (t.coreAt s.cur.key.core).resv = all ++ [⟨s.cur.key, n, off, len, fmt, pitch, soff, shr⟩] ∧
      (foreign → ∀ x, smGet (t.coreAt s.cur.key.core).tob x =
        if off * 256 ≤ x ∧ x < (off + len) * 256 then 0 else smGet (s.coreAt s.cur.key.core).tob x) ∧
      (foreign → ∀ x, x ∈ (t.coreAt s.cur.key.core).tobBad ↔
        x ∈ (s.coreAt s.cur.key.core).tobBad ∧ ¬ (off * 256 ≤ x * 8 ∧ x * 8 < (off + len) * 256)) ∧
      (¬ foreign → (t.coreAt s.cur.key.core).tob = (s.coreAt s.cur.key.core).tob ∧
        (t.coreAt s.cur.key.core).tobBad = (s.coreAt s.cur.key.core).tobBad) ∧
      (∀ u, smGet (t.coreAt s.cur.key.core).tobCtx u =
        if off ≤ u ∧ u < off + len then mark else smGet (s.coreAt s.cur.key.core).tobCtx u))) ∧
  (∀ h (n : Fin 8) s, Ready (.relv h n) s → s.part (.relv h n) ≠ 0 →
    let held := ∃ x ∈ (s.coreAt s.cur.key.core).resv, x.g = s.cur.key ∧ x.id = n
    (¬ held → FallsThrough (.relv h n) s) ∧
    (held → (∃ c ∈ s.cur.mq, c.names n.val = true) → TrapsWith (.relv h n) s ⟨0x11, 0xFF, 0, s.part (.relv h n), false⟩) ∧
    (held → (∀ c ∈ s.cur.mq, c.names n.val = false) →
      Does (.relv h n) s fun s => s.modCore s.cur.key.core fun c =>
        { c with resv := c.resv.filter fun x => !(x.g == s.cur.key && x.id == n) }))

/-- R358, R359: OBLD and OBST: the checks of R358 in their order (that the alignment trap has access kind 4 is the model's reading, log entry
46), then one store-queue entry in the lowest lane's slice and one command more in the matrix queue, counted as issued. -/
def Sys2Proof.Machine.Claims.TransferResults : Prop :=
  ∀ (store : Bool) (o : Ob) (s : State) (l : Nat),
    let i : Instr := if store then .obst o else .obld o
    let base := if o.sp then (s.cur.rd32 o.base l).toNat else (s.cur.rd64 o.base l).toNat
    let vs := (s.cur.rd32 o.vs l).toNat
    let vsh := s.cur.rd32 o.vsh l
    let rowB := vsh.toNat % 2 ^ 16
    let rows := vsh.toNat / 2 ^ 16 % 2 ^ 12
    let window := match s.teamAt s.cur.team with | some t => t.pages * 4096 | none => 0
    Ready i s → AccessOpen s (s.part i) false → lowLane (s.part i) = some l → s.cur.mq.length < 4 → QueueRoom s (1#32 <<< l) →
    ((∀ x ∈ (s.coreAt s.cur.key.core).resv, x.g = s.cur.key → x.id.val ≠ o.n.val) → TrapsWith i s ⟨0x11, 0xFF, 0, s.part i, false⟩) ∧
    ∀ r, (s.coreAt s.cur.key.core).resv.find? (fun x => x.g == s.cur.key && x.id.val == o.n.val) = some r →
    let bad := 2 ^ 28 ≤ vsh.toNat ∨ rows = 0 ∨ rowB < 16 ∨ r.pitch < rowB ∨ r.len * 256 < o.toff.toNat * 16 + (rows - 1) * r.pitch + rowB
    let askew := base % 16 ≠ 0 ∨ vs % 16 ≠ 0 ∨ rowB % 16 ≠ 0
    let c : MCmd := { MCmd.fresh (if store then .obst else .obld) (s.who (s.part i) false) with
      base := base, vs := vs, vsh := vsh, toff := o.toff.toNat * 16, res := o.n, sp := o.sp, entry := some s.nextId }
    (bad → TrapsWith i s ⟨0x11, 0xFF, 0, s.part i, false⟩) ∧
    (¬ bad → askew → TrapsWith i s ⟨0x05, 4, BitVec.ofNat 64 base, s.part i, false⟩) ∧
    (∀ x, ¬ bad → ¬ askew → o.sp = true →
      IsLeast {y | ∃ k, k < rows ∧ base + k * vs ≤ y ∧ y < base + k * vs + rowB ∧ window ≤ y} x →
      TrapsWith i s ⟨0x01, 4, BitVec.ofNat 64 x, s.part i, false⟩) ∧
    (¬ bad → ¬ askew → (o.sp = true → ∀ k, k < rows → base + k * vs + rowB ≤ window) →
      ∃ t, exec i s = .next t ∧
        Enqueued i s { s with cur := { s.cur with mq := s.cur.mq ++ [{ c with pieces := cutFrames c.dest }], mIssued := s.cur.mIssued + 1 } } t [{
          id := s.nextId, who := s.who (s.part i) false, slice := l / 4, kind := .matrix, order := .none, ssn := s.cur.ssn, pri := 0,
          accs := c.dest.map fun p => mkAcc l 0 p.2 (BitVec.ofNat 64 p.1)
          ty := none, dst := none, checked := true, held := false }])

/-- The issuing strand's wait is over and its gang's queues have changed; everything else is as before (R364, R405). -/
def Sys2Proof.Machine.Woken (s u : State) : Prop :=
  u = { s with cur := u.cur } ∧
  u.cur = { s.cur with strands := u.cur.strands, mq := u.cur.mq, mIssued := u.cur.mIssued, launches := u.cur.launches } ∧
  (∀ k, k ≠ s.curStrand → u.cur.strandAt k = s.cur.strandAt k) ∧
  u.strand = { s.strand with state := u.strand.state, wait := WaitFor.empty, waitOn := .none, notBefore := s.clock }

/-- R363, R364, R405: MMA and LAUNCH hold their strand while a parameter block or a descriptor is loaded; an MMA whose block has arrived and
passes its checks has its entry placed and its strand goes on 8 bytes further, one that fails traps and frees its place: its fields and
classes first, then its reservations, then alignment, whose record has access kind 0 and the block's address (the model's reading, log entry
26). -/
def Sys2Proof.Machine.Claims.MmaResults : Prop :=
  (∀ h a s l accs u, Ready (.mma h a) s → AccessOpen s (s.part (.mma h a)) false → lowLane (s.part (.mma h a)) = some l →
    s.cur.mq.length < 4 → QueueRoom s (1#32 <<< l) → (s.cur.rd64 a l).toNat % 128 = 0 →
    Translates s .read (laneAccs (1#32 <<< l) 32 4 fun _ => s.cur.rd64 a l) accs u →
    (∀ x ∈ accs, u.meets (s.who (1#32 <<< l) false) .view x = false) →
    ∃ t, exec (.mma h a) s = .next t ∧ SameData s t ∧ t.strand.pc = s.strand.pc ∧ t.strand.state = .parked ∧ t.strand.waitOn = .descr ∧
      t.cur.mq.length = s.cur.mq.length + 1 ∧ t.cur.mIssued = s.cur.mIssued + 1 ∧ t.cur.ssn = s.cur.ssn ∧
      (∃ c, t.cur.mq.getLast? = some c ∧ c.kind = .mma ∧ c.who = s.who (s.part (.mma h a)) false ∧ c.base = (s.cur.rd64 a l).toNat ∧
        c.entry = none) ∧
      ∀ x, smGet t.mem x = smGet s.mem x) ∧
  (∀ h a s l, Ready (.mma h a) s → AccessOpen s (s.part (.mma h a)) false → lowLane (s.part (.mma h a)) = some l →
    s.cur.mq.length < 4 → QueueRoom s (1#32 <<< l) → (s.cur.rd64 a l).toNat % 128 ≠ 0 →
    TrapsWith (.mma h a) s ⟨0x05, 0, s.cur.rd64 a l, 1#32 <<< l, false⟩) ∧
  (∀ (s : State) (c : MCmd), c.who.g = s.cur.key → s.cur.resident = true → c ∈ s.cur.mq → c.who.strand < s.cur.strands.length →
    (∀ x ∈ s.cur.mq, x.who.seq = c.who.seq → x = c) → c.check s = none →
    ((s.coreAt s.cur.key.core).sq.filter fun e => e.who.g.part == s.cur.key.part && e.slice == (lowLane c.who.mask).getD 0 / 4).length < 24 →
    let t := s.finishMma c
    (∃ e, (t.coreAt s.cur.key.core).sq = (s.coreAt s.cur.key.core).sq ++ [e] ∧ e.kind = .matrix ∧ e.id = s.nextId ∧ e.who = c.who ∧
      e.ssn = s.cur.ssn) ∧
    t.cur.ssn = s.cur.ssn + 1 ∧ (t.cur.strandAt c.who.strand).pc = (s.cur.strandAt c.who.strand).pc + 8 ∧
    (t.cur.strandAt c.who.strand).waitOn = .none ∧
    ∃ x ∈ t.cur.mq, x = { c with entry := some s.nextId, pieces := cutFrames c.dest }) ∧
  (∀ (s : State) (c : MCmd) (x : Trap), c.who.g = s.cur.key → s.cur.resident = true → c.who.strand = s.curStrand →
    s.curStrand < s.cur.strands.length → c.check s = some x →
    ∃ u, Woken s u ∧ Trapped u (s.finishMma c) x ∧ u.cur.launches = s.cur.launches ∧ u.cur.mIssued = s.cur.mIssued - 1 ∧
      u.cur.mq = s.cur.mq.filter fun y => y.who.seq != c.who.seq) ∧
  (∀ (s : State) (c : MCmd), c.who.g = s.cur.key → s.cur.resident = true →
    let f (off n : Nat) : Nat := leNat ((c.blk.drop off).take n)
    let form : Option Trap := some ⟨0x11, 0xFF, 0, c.who.mask, false⟩
    (f 48 4 = 0 ∨ 0xFFFFFF < f 48 4 ∨ f 52 4 = 0 ∨ 0xFFFFFF < f 52 4 ∨ f 56 4 = 0 ∨ 0xFFFFFF < f 56 4 ∨ f 85 43 ≠ 0 ∨
      fmtClass c.afmt ≠ fmtClass c.bfmt → c.check s = form) ∧
    ((∀ y ∈ (s.coreAt s.cur.key.core).resv, y.g = s.cur.key → y.id.val ≠ c.acc) → c.check s = form) ∧
    (c.badFields = false → c.badTob (s.coreAt s.cur.key.core) s.cur.key = false → c.asrc = false →
      (f 0 8 % 16 ≠ 0 ∨ f 16 4 % 16 ≠ 0) → c.check s = some ⟨0x05, 0, BitVec.ofNat 64 c.base, c.who.mask, false⟩))

/-- R367 to R369: MMAWAIT marks its destination and waits for the issued count less n, and its result is the completed count once that has
reached it; MQSTAT and ROWP give the queue's length, head state and reservations, and the head's progress. -/
def Sys2Proof.Machine.Claims.MatrixStatusResults : Prop :=
  (∀ h d (n : Fin 4) s, Ready (.mmawait h d n) s → s.part (.mmawait h d n) ≠ 0 → s.strand.mmaWait = none →
    ∃ t, exec (.mmawait h d n) s = .next t ∧ SameData s t ∧ t.strand.pc = s.pcAfter (Instr.mmawait h d n).len ∧
      Marked s t d 1 (s.part (.mmawait h d n)) ∧ (∀ a, smGet t.mem a = smGet s.mem a) ∧
      t.strand.mmaWait = some ⟨d, s.part (.mmawait h d n), s.cur.issueSeq, s.cur.mIssued - BitVec.ofNat 32 n.val⟩) ∧
  (∀ (g : Gang) (k : Nat) (w : MmaWait) (n : Fin 192), k < 16 → g.strands.length = 16 → (g.strandAt k).mmaWait = some w → w.d = .v n →
    (∀ j, j ≠ k → (g.strandAt j).mmaWait = none) → (g.mCompleted - w.target).toNat < 2 ^ 31 →
    ((g.endMmawaits).strandAt k).mmaWait = none ∧
      ∀ l, l < 32 → w.lanes.getLsbD l = true → (g.endMmawaits).vr n.val l = g.mCompleted) ∧
  (∀ h d s, Ready (.mqstat h d) s → s.part (.mqstat h d) ≠ 0 →
    ∃ t, exec (.mqstat h d) s = .next t ∧ t.cur.fq = s.cur.fq ∧ SameTob s t ∧
      OnWay (.mqstat h d) s t d fun _ => BitVec.ofNat 32 (s.cur.mq.length +
        8 * (match s.cur.mq with | c :: _ => c.started.toNat | [] => 0) + 16 * (match s.cur.mq with | c :: _ => c.faulted.toNat | [] => 0) +
        256 * (((List.range 8).map fun n => if ((s.coreAt s.cur.key.core).resvOf s.cur.key n).isSome then 2 ^ n else 0).sum))) ∧
  (∀ h k d s, Ready (.rowp h k d) s → s.part (.rowp h k d) ≠ 0 →
    ∃ t, exec (.rowp h k d) s = .next t ∧ t.cur.fq = s.cur.fq ∧ SameTob s t ∧ OnWay (.rowp h k d) s t d fun _ =>
      match s.cur.mq with
      | [] => 0
      | c :: _ =>
        if c.kind = .mma then (if k then BitVec.ofNat 32 (c.kstep % 2 ^ 24 + c.rows * 2 ^ 24) else BitVec.ofNat 32 c.tile)
        else if k then BitVec.ofNat 32 (c.rows % 2 ^ 24) else 0) ∧
  (∀ h n s, Ready (.relv h n) s → s.part (.relv h n) = 0 → FallsThrough (.relv h n) s) ∧
  (∀ h d s, Ready (.mqstat h d) s → s.part (.mqstat h d) = 0 → FallsThrough (.mqstat h d) s) ∧
  (∀ h k d s, Ready (.rowp h k d) s → s.part (.rowp h k d) = 0 → FallsThrough (.rowp h k d) s)

/-- R370 to R374: the definition of an access slice: AS.LOOP's trip count (0 traps), AS.ADDR's base and strides, AS.PUSH's type and lanes;
any of them while the slice runs traps; AS.END puts its entry into the store queue, AS.END.abort stops the slice and empties the feed
queues. -/
def Sys2Proof.Machine.Claims.AccessSliceResults : Prop :=
  (∀ h (k : Fin 4) c s l, Ready (.asLoop h k c) s → lowLane (s.part (.asLoop h k c)) = some l → s.cur.slice.running = false →
    let n : Word := match c with | .imm n => n | .reg r => s.cur.rd32 r l
    (n = 0 → TrapsWith (.asLoop h k c) s ⟨0x11, 0xFF, 0, s.part (.asLoop h k c), false⟩) ∧
    (n ≠ 0 → Does (.asLoop h k c) s fun s => s.modCur fun g => { g with slice := { g.slice with trips := g.slice.trips.set k.val n } })) ∧
  (∀ h (q : Fin 4) a s l x, Ready (.asAddr h (.base q a)) s → lowLane (s.part (.asAddr h (.base q a))) = some l →
    s.cur.slice.running = false → s.cur.slice.streams[q.val]? = some x →
    Does (.asAddr h (.base q a)) s fun t => t.modCur fun g =>
      { g with slice := { g.slice with streams := g.slice.streams.set q.val { x with base := s.cur.rd64 a l, sp := false } } }) ∧
  (∀ h (q : Fin 4) a s l x, Ready (.asAddr h (.baseSp q a)) s → lowLane (s.part (.asAddr h (.baseSp q a))) = some l →
    s.cur.slice.running = false → s.cur.slice.streams[q.val]? = some x →
    Does (.asAddr h (.baseSp q a)) s fun t => t.modCur fun g =>
      { g with slice := { g.slice with
          streams := g.slice.streams.set q.val { x with base := (s.cur.rd32 a l).setWidth 64, sp := true } } }) ∧
  (∀ h (q : Fin 4) k d s x, Ready (.asAddr h (.str q k d)) s → s.part (.asAddr h (.str q k d)) ≠ 0 →
    s.cur.slice.running = false → s.cur.slice.streams[q.val]? = some x →
    Does (.asAddr h (.str q k d)) s fun t => t.modCur fun g =>
      { g with slice := { g.slice with streams := g.slice.streams.set q.val { x with strides := x.strides.set k.val d } } }) ∧
  (∀ h (q : Fin 4) ty m s l x, Ready (.asPush h q ty m) s → lowLane (s.part (.asPush h q ty m)) = some l →
    s.cur.slice.running = false → s.cur.slice.streams[q.val]? = some x →
    Does (.asPush h q ty m) s fun t => t.modCur fun g =>
      { g with slice := { g.slice with streams := g.slice.streams.set q.val { x with ty := some ty, vmask := s.cur.rd32 m l } } }) ∧
  (∀ h s l, Ready (.asEnd h) s → AccessOpen s (s.part (.asEnd h)) false → lowLane (s.part (.asEnd h)) = some l → QueueRoom s (1#32 <<< l) →
    let defined := ∃ x ∈ s.cur.slice.streams, x.ty.isSome = true
    (s.cur.slice.running = true → TrapsWith (.asEnd h) s ⟨0x11, 0xFF, 0, s.part (.asEnd h), false⟩) ∧
    (¬ defined → TrapsWith (.asEnd h) s ⟨0x11, 0xFF, 0, s.part (.asEnd h), false⟩) ∧
    (s.cur.slice.running = false → s.cur.slice.streams.length = 4 → defined →
      (∀ x ∈ s.cur.slice.streams, ∀ ty, x.ty = some ty → x.base.toNat % pushSize ty = 0 ∧ ∀ d ∈ x.strides, d.toNat % pushSize ty = 0) →
      ∃ t, exec (.asEnd h) s = .next t ∧ SamePend s t ∧ t.cur.holds = s.cur.holds ∧
        Enqueued (.asEnd h) s s t [{
          id := s.nextId, who := s.who (s.part (.asEnd h)) false, slice := l / 4, kind := .slice, order := .none, ssn := s.cur.ssn, pri := 0,
          accs := [], ty := none, dst := none, checked := true, held := false }])) ∧
  (∀ h s, Ready (.asEndAbort h) s → s.part (.asEndAbort h) ≠ 0 →
    Does (.asEndAbort h) s fun t => t.modCur fun g => { g with slice := Slice.empty, fq := List.replicate 4 ⟨[], []⟩ }) ∧
  (∀ h k c s, Ready (.asLoop h k c) s → s.part (.asLoop h k c) ≠ 0 → s.cur.slice.running = true →
    TrapsWith (.asLoop h k c) s ⟨0x11, 0xFF, 0, s.part (.asLoop h k c), false⟩) ∧
  (∀ h f s, Ready (.asAddr h f) s → s.part (.asAddr h f) ≠ 0 → s.cur.slice.running = true →
    TrapsWith (.asAddr h f) s ⟨0x11, 0xFF, 0, s.part (.asAddr h f), false⟩) ∧
  (∀ h q ty m s, Ready (.asPush h q ty m) s → s.part (.asPush h q ty m) ≠ 0 → s.cur.slice.running = true →
    TrapsWith (.asPush h q ty m) s ⟨0x11, 0xFF, 0, s.part (.asPush h q ty m), false⟩)

/-- R377, R378, R386, R387: POP takes the head entry of its feed queue, each lane its own value; FQSTAT gives a queue's length and the
slice's state; PROM is pending until the gang's CGO stores before it are accepted or refused, and then receives PROMISE in each lane; SLEEP puts its strand to sleep until a
cycle. -/
def Sys2Proof.Machine.Claims.FeedAndPromiseResults : Prop :=
  (∀ h d (q : Fin 4) s f e rest, Ready (.pop h d q) s → s.part (.pop h d q) ≠ 0 → s.cur.fq[q.val]? = some f → f.entries = e :: rest →
    (∀ m ∈ s.cur.pendOf d 1 (s.part (.pop h d q)), m = 0) →
    ∃ t, exec (.pop h d q) s = .next t ∧ OnWay (.pop h d q) s t d (fun l => smGet e l) ∧ SameTob s t ∧
      t.cur.fq = s.cur.fq.set q.val { f with entries := rest }) ∧
  (∀ h d q s, Ready (.pop h d q) s → s.part (.pop h d q) = 0 → FallsThrough (.pop h d q) s) ∧
  (∀ h d (q : Fin 4) s f, Ready (.fqstat h d q) s → s.part (.fqstat h d q) ≠ 0 → s.cur.fq[q.val]? = some f →
    ∃ t, exec (.fqstat h d q) s = .next t ∧ t.cur.fq = s.cur.fq ∧ SameTob s t ∧ OnWay (.fqstat h d q) s t d fun _ =>
      BitVec.ofNat 32 (f.entries.length + 256 * s.cur.slice.running.toNat + 512 * s.cur.slice.stopped.toNat)) ∧
  (∀ h d s, Ready (.prom h d) s → s.part (.prom h d) ≠ 0 →
    ∃ t, exec (.prom h d) s = .next t ∧ SameData s t ∧ t.strand.pc = s.pcAfter (Instr.prom h d).len ∧ Marked s t d 2 (s.part (.prom h d)) ∧
      t.cur.proms = s.cur.proms ++ [⟨d, s.part (.prom h d), s.curStrand, s.cur.issueSeq⟩] ∧
      t = { s with cur := t.cur }) ∧
  (∀ (s : State) (w : PromWait) (n : Fin 192), s.cur.resident = true → (∀ g ∈ s.gangs, g.key ≠ s.cur.key) → s.cur.proms = [w] → w.d = .v n →
    let waits := (∃ e ∈ (s.coreAt s.cur.key.core).sq, e.who.g = s.cur.key ∧ e.kind = .command ∧ (∃ a ∈ e.accs, a.va.toNat % 4096 = 0x20) ∧
        e.held = false ∧ e.who.seq < w.seq) ∨
      ∃ q ∈ (s.coreAt s.cur.key.core).ces, ∃ x ∈ q.queue, x.who.g = s.cur.key ∧ x.accepted = false ∧ x.who.seq < w.seq
    (waits → s.endProms.cur.proms = [w] ∧ SameData s s.endProms ∧ s.endProms.cur.pendV = s.cur.pendV) ∧
    (¬ waits → s.endProms.cur.proms = [] ∧ ∀ l, l < 32 → w.lanes.getLsbD l = true →
      s.endProms.cur.vr n.val l = s.cur.promise.setWidth 32 ∧ s.endProms.cur.vr (n.val + 1) l = s.cur.promise.extractLsb' 32 32 ∧
      (smGet s.cur.pendV (n.val * 32 + l) = pendMark w.seq w.strand → smGet s.endProms.cur.pendV (n.val * 32 + l) = 0))) ∧
  (∀ h till a s l, Ready (.sleep h till a) s → lowLane s.strand.mask = some l →
    let i : Instr := .sleep h till a
    let w : DWord := if till then s.cur.rd64 a l else s.clock + (s.cur.rd32 a l).setWidth 64
    (s.part i = 0 → FallsThrough i s) ∧
    (s.part i ≠ 0 → s.part i ≠ s.strand.mask → TrapsWith i s ⟨0x14, 0xFF, 0, s.part i, false⟩) ∧
    (s.part i = s.strand.mask → ∃ t, exec i s = .next t ∧ Went i s t ∧ SameData s t ∧ t.strand.state = .sleeping ∧ t.strand.waitOn = .wake w))

/-! ### Launch, traps, halt, counters, sampling (R404 to R412) -/

/-- R404 to R406: LAUNCH by the leader of gang 0 takes a place for its descriptor and holds its strand; the checks that come before; a
descriptor that breaks R404 or a placement that breaks R249 traps ILLEGAL_FORM once the descriptor has arrived; LAUNCH.cwait waits while its grid lives. -/
def Obligations.LaunchResults : Prop :=
  (∀ h d a place s accs u, Ready (.launch h d a place) s → AccessOpen s (s.part (.launch h d a place)) false →
    QueueRoom s 1#32 → s.cur.gangId = 0 → (s.part (.launch h d a place)).getLsbD 0 = true →
    (s.cur.team.grid.toNat / 2 ^ 28 ≠ 9) → (s.cur.rd64 a 0).toNat % 64 = 0 →
    Translates s .read (laneAccs 1#32 16 4 fun _ => s.cur.rd64 a 0) accs u →
    (∀ x ∈ accs, u.meets (s.who 1#32 false) .view x = false) →
    ∃ t c, exec (.launch h d a place) s = .next t ∧ SameData s t ∧ t.strand.pc = s.strand.pc ∧ t.strand.state = .parked ∧
      t.strand.waitOn = .descr ∧ t.cur.launches.length = s.cur.launches.length + 1 ∧ t.cur.launches.getLast? = some c ∧ c.d = d ∧
      c.va = s.cur.rd64 a 0 ∧ c.entry = none ∧ c.who = s.who (s.part (.launch h d a place)) false ∧
      c.place = place.bind s.launchCore ∧ c.badPlace = (place.isSome && (place.bind s.launchCore).isNone) ∧
      ∀ x, smGet t.mem x = smGet s.mem x) ∧
  (∀ h d a place s, Ready (.launch h d a place) s → AccessOpen s (s.part (.launch h d a place)) false → QueueRoom s 1#32 →
    let i : Instr := .launch h d a place
    ((s.part i).getLsbD 0 = false ∨ s.cur.gangId ≠ 0 → TrapsWith i s ⟨0x11, 0xFF, 0, s.part i, false⟩) ∧
    ((s.part i).getLsbD 0 = true → s.cur.gangId = 0 → s.cur.team.grid.toNat / 2 ^ 28 = 9 → TrapsWith i s ⟨0x15, 0xFF, 0, s.part i, false⟩) ∧
    ((s.part i).getLsbD 0 = true → s.cur.gangId = 0 → s.cur.team.grid.toNat / 2 ^ 28 ≠ 9 → (s.cur.rd64 a 0).toNat % 64 ≠ 0 →
      TrapsWith i s ⟨0x05, 0xFF, s.cur.rd64 a 0, s.part i, false⟩)) ∧
  (∀ (s : State) (c : LCmd), c.who.g = s.cur.key → s.cur.resident = true → c ∈ s.cur.launches → c.who.strand < s.cur.strands.length →
    badDescriptor c.blk = false → c.badPlace = false → (∀ x ∈ s.cur.launches, x.who.seq = c.who.seq → x = c) →
    ((s.coreAt s.cur.key.core).sq.filter fun e => e.who.g.part == s.cur.key.part && e.slice == 0).length < 24 →
    let t := s.finishLaunch c
    (∃ e, (t.coreAt s.cur.key.core).sq = (s.coreAt s.cur.key.core).sq ++ [e] ∧ e.kind = .launch ∧ e.id = s.nextId) ∧
    (t.cur.strandAt c.who.strand).pc = (s.cur.strandAt c.who.strand).pc + 8 ∧ (t.cur.strandAt c.who.strand).waitOn = .none ∧
    t.cur.ssn = s.cur.ssn + 1) ∧
  (∀ (s : State) (c : LCmd), c.who.g = s.cur.key → s.cur.resident = true → c.who.strand = s.curStrand → s.curStrand < s.cur.strands.length →
    (badDescriptor c.blk = true ∨ c.badPlace = true) →
    ∃ u, Woken s u ∧ Trapped u (s.finishLaunch c) ⟨0x11, 0xFF, 0, c.who.mask, false⟩ ∧ u.cur.mq = s.cur.mq ∧
      u.cur.mIssued = s.cur.mIssued ∧ u.cur.launches = s.cur.launches.filter fun x => x.who.seq != c.who.seq) ∧
  (∀ blk : List Byte,
    let f (off n : Nat) : Nat := leNat ((blk.drop off).take n)
    badDescriptor blk = true ↔ f 0 8 % 4 ≠ 0 ∨ 2 ^ 57 ≤ f 0 8 ∨ (∃ off ∈ [8, 12, 16], f off 4 = 0 ∨ 2 ^ 21 < f off 4) ∨
      2 ^ 40 < f 8 4 * f 12 4 * f 16 4 ∨ f 20 2 = 0 ∨ 1024 < f 20 2 ∨ f 22 1 = 0 ∨ 24 < f 22 1 ∨ 4 < f 23 1 ∨ 512 < f 24 2 ∨ f 26 6 ≠ 0 ∨
      f 40 24 ≠ 0) ∧
  (∀ h a s l, Ready (.launchCwait h a) s → lowLane (s.part (.launchCwait h a)) = some l →
    let n := (s.cur.rd32 a l).toNat % 2 ^ 28
    let lives := ∃ g ∈ s.grids, g.ctx = s.cur.team.ctx ∧ g.id.toNat % 2 ^ 28 = n
    (¬ lives → FallsThrough (.launchCwait h a) s) ∧
    (lives → ∃ t, exec (.launchCwait h a) s = .next t ∧ Went (.launchCwait h a) s t ∧ SameData s t ∧ t.strand.state = .parked ∧
      t.strand.waitOn = .grid n ∧ t.strand.wait.kind = .childGrid ∧ t.strand.wait.obj = BitVec.ofNat 64 n))

/-- R407 to R409: TRAP and BKPT with some lane in Part stop the gang with a record of their code; HALT halts the gang for a debug
session, and has no effect without one. -/
def Sys2Proof.Machine.Claims.TrapHaltResults : Prop :=
  (∀ h code s, Ready (.trap h code) s →
    (s.part (.trap h code) = 0 → FallsThrough (.trap h code) s) ∧
    (s.part (.trap h code) ≠ 0 → TrapsWith (.trap h code) s ⟨0x16, 0xFF, code.setWidth 64, s.part (.trap h code), false⟩)) ∧
  (∀ h code s, Ready (.bkpt h code) s →
    (s.part (.bkpt h code) = 0 → FallsThrough (.bkpt h code) s) ∧
    (s.part (.bkpt h code) ≠ 0 → TrapsWith (.bkpt h code) s ⟨0x17, 0xFF, code.setWidth 64, s.part (.bkpt h code), false⟩)) ∧
  (∀ h s, Ready (.halt h) s → s.cur.resident = true → (∀ g ∈ s.gangs, g.key ≠ s.cur.key) →
    (∀ x ∈ s.teams, x.key = s.cur.team → x.saved = []) →
    let session := ∃ x, s.ctxAt s.cur.team.ctx = some x ∧ x.debug ≠ 0
    ((s.part (.halt h) = 0 ∨ ¬ session) → FallsThrough (.halt h) s) ∧
    (s.part (.halt h) ≠ 0 → session → s.cur.halted = false →
      ∃ t, exec (.halt h) s = .next t ∧ SameData s t ∧ t.cur.halted = true ∧ t.strand.pc = s.pcAfter (Instr.halt h).len ∧
        t = { s with cur := t.cur, ctxs := t.ctxs } ∧
        ∃ x y, s.ctxAt s.cur.team.ctx = some x ∧ t.ctxAt s.cur.team.ctx = some y ∧ y = { x with haltOrder := x.haltOrder ++ [(s.cur.key, s.cur.team)] }))

/-- R410, R411: PERF gives a gang's counter with the cycle it issues in: at its issue with what is certain of that cycle, and, once the cycle
has been counted, with all of it, when .clr makes the counter 0; SAMPCTL starts, stops and reads the
sampling of its context on its partition, its period from the lowest lane of Part (the model's reading, log entry 123). -/
def Sys2Proof.Machine.Claims.CounterAndSamplingResults : Prop :=
  (∀ h clr (sel : Fin 4) d s, Ready (.perf h clr sel d) s → s.part (.perf h clr sel d) ≠ 0 →
    ∃ t, exec (.perf h clr sel d) s = .next t ∧ t.strand.pc = s.pcAfter (Instr.perf h clr sel d).len ∧ SamePreds s t ∧ SameFlags s t ∧
      t = { s with cur := t.cur } ∧ (∀ k, k ≠ s.curStrand → t.cur.strandAt k = s.cur.strandAt k) ∧
      Wrote s t true d (s.part (.perf h clr sel d)) (fun _ => smGet s.cur.perf sel.val + (if sel.val = 3 then 0 else 1)) ∧
      (∀ k, smGet t.cur.perf k = smGet s.cur.perf k + (if k = 0 then 1 else 0)) ∧
      t.cur.perfReads = s.cur.perfReads ++
        [{ seq := s.cur.issueSeq + 1, sel := sel.val, clr := clr, d := d, part := s.part (.perf h clr sel d) }]) ∧
  (∀ h clr sel d s, Ready (.perf h clr sel d) s → s.part (.perf h clr sel d) = 0 → FallsThrough (.perf h clr sel d) s) ∧
  (∀ (g : Gang) (r : PerfRead) (n : Fin 192), g.perfReads = [r] → r.d = .v n →
    g.perfReadAll.perfReads = [] ∧
    (∀ l, l < 32 → r.part.getLsbD l = true →
      g.perfReadAll.vr n.val l = (smGet g.perf r.sel).setWidth 32 ∧ g.perfReadAll.vr (n.val + 1) l = (smGet g.perf r.sel).extractLsb' 32 32) ∧
    ∀ k, smGet g.perfReadAll.perf k = if k = r.sel ∧ r.clr = true then 0 else smGet g.perf k) ∧
  (∀ h a s l base len, Ready (.sampctlStart h a) s → lowLane (s.part (.sampctlStart h a)) = some l →
    (s.coreAt s.cur.key.core).parts.length = 4 → s.cur.key.part < 4 →
    (s.ctxAt s.cur.team.ctx).bind (·.sbuf) = some (base, len) →
    let x := (s.cur.rd32 a l).toNat
    ((x = 0 ∨ 65536 ≤ x) → TrapsWith (.sampctlStart h a) s ⟨0x11, 0xFF, 0, s.part (.sampctlStart h a), false⟩) ∧
    (x ≠ 0 → x < 65536 → ∃ t, exec (.sampctlStart h a) s = .next t ∧ SameData s t ∧ t.strand.pc = s.pcAfter (Instr.sampctlStart h a).len ∧
      t = { s with cur := t.cur, cores := t.cores } ∧
      ∃ p y, (t.coreAt s.cur.key.core).parts[s.cur.key.part]? = some p ∧ y ∈ p.samp ∧ y.ctx = s.cur.team.ctx ∧ y.running = true ∧ y.period = x ∧
        y.start = s.clock ∧ y.ptr = base ∧ y.drop = 0 ∧ ∀ z ∈ p.samp, z.ctx = s.cur.team.ctx → z = y)) ∧
  (∀ h a s, Ready (.sampctlStart h a) s → s.part (.sampctlStart h a) ≠ 0 → (s.ctxAt s.cur.team.ctx).bind (·.sbuf) = none →
    TrapsWith (.sampctlStart h a) s ⟨0x11, 0xFF, 0, s.part (.sampctlStart h a), false⟩) ∧
  (∀ h s x, Ready (.sampctlStop h) s → s.part (.sampctlStop h) ≠ 0 → (s.coreAt s.cur.key.core).parts.length = 4 → s.cur.key.part < 4 →
    s.mySamp = some x →
    ∃ t p, exec (.sampctlStop h) s = .next t ∧ SameData s t ∧ t.strand.pc = s.pcAfter (Instr.sampctlStop h).len ∧
      t = { s with cur := t.cur, cores := t.cores } ∧
      (t.coreAt s.cur.key.core).parts[s.cur.key.part]? = some p ∧ { x with running := false, stopAt := if x.running = true then some s.clock else x.stopAt } ∈ p.samp ∧
      ∀ z ∈ p.samp, z.ctx = x.ctx → z = { x with running := false, stopAt := if x.running = true then some s.clock else x.stopAt }) ∧
  (∀ h d s, Ready (.sampctlDrop h d) s → ∃ t, exec (.sampctlDrop h d) s = .next t ∧ Went (.sampctlDrop h d) s t ∧ SamePreds s t ∧
    SameFlags s t ∧ Wrote s t false d (s.part (.sampctlDrop h d)) fun _ => match s.mySamp with | some x => x.drop.setWidth 64 | none => 0)

/-- The reservations and the transfers. -/
def Obligations.CopyReservationResults : Prop :=
  Claims.ReservationResults ∧ Claims.TransferResults

/-- The matrix instructions. -/
def Obligations.MatrixInstructionResults : Prop :=
  Claims.MmaResults ∧ Claims.MatrixStatusResults

/-- The access-slice, feed and promise instructions. -/
def Obligations.AccessInstructionResults : Prop :=
  Claims.AccessSliceResults ∧ Claims.FeedAndPromiseResults

/-- TRAP, HALT and the counter and sampling instructions. -/
def Obligations.TrapAndCounterResults : Prop :=
  Claims.TrapHaltResults ∧ Claims.CounterAndSamplingResults


/-! ### What homes do for requests (R100 to R148) -/

/-- The home value of a word once the bytes of `m` are taken from `x`. -/
def Sys2Proof.Machine.TakesWord (s t : State) (w : Nat) (m : BitVec 4) (x : Word) : Prop :=
  ∀ a, smGet t.mem a = if a / 4 = w ∧ m.getLsbD (a % 4) = true then byteOf x (a % 4) else smGet s.mem a

/-- R104, R107, R108, R127, R334: at its registration a store's core owns the word, dirty, the store's bytes over those the view has not from
this store or a later one, and an owner before it has written home the bytes it wrote and the store does not, and holds the word no more; on
a write-through page what the core wrote goes home and it owns the word clean. A release is written through, its core the word's owner no
more and in its release record. A background move writes home, ends ownership, or drops; a word that its core has stored to and not
registered is registered by going home (the model's reading, log entry 33). These are for words that the core's view holds with no
uncorrectable error, one word to a request. -/
def Obligations.RegistrationResults : Prop :=
  (∀ s id r a w v, AtHome s id r → r.kind = .register → r.accs = [a] → a.words = [w] → a.attr.cache = 0 →
    w ∉ r.done → (s.dirAt r.sector).owners.length ≤ 1 → (s.coreAt r.core).view w = some v → v.bad = false →
    (∀ d u, s.ownerOf w = some d → d ≠ r.core → (s.coreAt d).view w = some u → u.bad = false) →
    let own := (wordWrite [a] w).1
    let m := own &&& ~~~ (if v.st = .dirty then v.written else 0)
    let x := mixWord m (wordWrite [a] w).2 v.x
    ∃ t, exec (.storeRegistration id) s = .next t ∧ (∀ y ∈ t.orn, y.id ≠ id) ∧ t.ownerOf w = some r.core ∧
      (t.coreAt r.core).view w = some (if a.attr.wt then ⟨.clean, x, 0, v.known ||| m, false⟩ else ⟨.dirty, x, v.written ||| m, v.known ||| m, false⟩) ∧
      (∀ d, s.ownerOf w = some d → d ≠ r.core → (t.coreAt d).view w = none) ∧
      (a.attr.wt = false →
        (∀ d u, s.ownerOf w = some d → d ≠ r.core → (s.coreAt d).view w = some u → TakesWord s t w (u.written &&& ~~~ own) u.x) ∧
        ((∀ d, s.ownerOf w = some d → d = r.core) → ∀ b, smGet t.mem b = smGet s.mem b)) ∧
      (a.attr.wt = true → (∀ d, s.ownerOf w = some d → d = r.core) → TakesWord s t w (v.written ||| m) x)) ∧
  (∀ s id r a w v, AtHome s id r → r.kind = .release → r.accs = [a] → a.words = [w] → a.attr.cache = 0 → r.core < 256 →
    (s.dirAt r.sector).owners = [] → (s.coreAt r.core).view w = some v → v.st = .valid →
    (s.rel.any (fun y => y.word == w) = true ∨ (s.rel.filter fun y => y.home == homeOf a.attr (4 * w)).length < 1024) →
    ∃ t, exec (.releaseWriteThrough id) s = .next t ∧ (∀ y ∈ t.orn, y.id ≠ id) ∧
      TakesWord s t w (wordWrite [a] w).1 (wordWrite [a] w).2 ∧ t.ownerOf w = none ∧
      (t.coreAt r.core).view w = some { st := .valid, x := t.hword w, written := 0, known := 15 } ∧
      ∃ y ∈ t.rel, y.word = w ∧ y.cores.getLsbD r.core = true) ∧
  (∀ s core w v, (s.coreAt core).view w = some v → v.st = .dirty → v.bad = false → s.unregistered core w = false →
    ∃ t, exec (.backgroundWriteback core w .writeHome) s = .next t ∧ TakesWord s t w v.written v.x ∧
      (t.coreAt core).view w = some { v with st := .clean, written := 0 } ∧ t.dirs = s.dirs) ∧
  (∀ s core w v, (s.coreAt core).view w = some v → v.st = .dirty → v.bad = false → s.unregistered core w = true → s.engineOwns w = false →
    (s.dirAt (w / 8)).uTag = 0 → (s.dirAt (w / 8)).owners = [] →
    ∃ t, exec (.backgroundWriteback core w .writeHome) s = .next t ∧ TakesWord s t w v.written v.x ∧
      (t.coreAt core).view w = some { v with st := .clean, written := 0 } ∧ t.ownerOf w = some core ∧ t.unregistered core w = false) ∧
  (∀ s core w v, (s.coreAt core).view w = some v → v.st = .clean → v.bad = false → s.unregistered core w = false →
    ∃ t, exec (.backgroundWriteback core w .endOwnership) s = .next t ∧ (t.coreAt core).view w = some { v with st := .valid, written := 0 } ∧
      t.ownerOf w ≠ some core) ∧
  (∀ s core w v, (s.coreAt core).view w = some v → v.st = .valid →
    ∃ t, exec (.backgroundWriteback core w .drop) s = .next t ∧ (t.coreAt core).view w = none ∧ t.mem = s.mem ∧ t.dirs = s.dirs)

/-- R109, R113, R334: a core that drains holds no owned dirty word, but one of which a store waits unregistered for an engine's write; where
every store of it is registered and no word is an uncorrectable error, each word it held dirty has gone home with the bytes it wrote, and
no other byte of memory changes (a word it owns clean has no byte unwritten); a core that self-invalidates holds no word it does not own, and what it owns it keeps. -/
def Obligations.DrainAndInvalidateResults : Prop :=
  (∀ (s : State) core, (∀ w, s.stuck core w = false) → ∀ w v, ((s.drainCore core).coreAt core).view w = some v → v.st ≠ .dirty) ∧
  (∀ (s : State) core a, (∀ v, (s.coreAt core).view (a / 4) = some v → v.st = .clean → v.written = 0) →
    (∀ w, s.unregistered core w = false) → (∀ w v, (s.coreAt core).view w = some v → v.bad = false) →
    smGet (s.drainCore core).mem a =
      match (s.coreAt core).view (a / 4) with
      | some v => if v.st = .dirty ∧ v.written.getLsbD (a % 4) = true then byteOf v.x (a % 4) else smGet s.mem a
      | none => smGet s.mem a) ∧
  (∀ (s : State) core w v, (s.coreAt core).view w = some v → v.st ≠ .valid → ((s.invalidateCore core).coreAt core).view w = some v) ∧
  (∀ (s : State) core w v, ((s.invalidateCore core).coreAt core).view w = some v → v.st ≠ .valid)

/-- R106, R109, R111, R117, R144, R342, R344: reads and operations at the home. A fetch and a path fill send back the home's bytes; an
acquire, no entry of its thread to the words left in the queue, sends back the home's bytes and its core's view holds no word it does not own; an atomic writes the new value, the words absent
from its core's view, and sends back the old; a RED writes and sends nothing. A result that returns, none before it in the order bringing a
word of its own, is written, its mark cleared and its flags ORed in (R48, R64); a lane of WAITW that found no watch free reads again. -/
def Obligations.HomeReadResults : Prop :=
  (∀ s id r d ty, AtHome s id r → r.kind = .fetch → r.dst = some d → r.ty = some ty → (s.coreAt r.core).sq = [] →
    (s.coreAt r.core).gone = [] → (∀ w ∈ r.words, (s.coreAt r.core).view w = none) →
    let ws := loadWrites r.who r.dst r.ty (r.accs.map fun a => (a, smBytes s.mem a.pa a.size))
    ∃ t, exec (.loadFetch id) s = .next t ∧ (∀ y ∈ t.orn, y.id ≠ id) ∧ (ws ≠ [] → SendsBack s t r.core r.who ws) ∧
      (r.attr.cache ≠ 0 → t.mem = s.mem ∧ ∀ w, (t.coreAt r.core).view w = (s.coreAt r.core).view w)) ∧
  (∀ s id r tile, AtHome s id r → r.kind = .pathFill tile → (∃ a ∈ r.accs, (s.coreAt r.core).pathBytes tile a = none) →
    let ws := loadWrites r.who r.dst r.ty (r.accs.map fun a => (a, smBytes s.mem a.pa a.size))
    ∃ t, exec (.pathFill id) s = .next t ∧ (∀ y ∈ t.orn, y.id ≠ id) ∧ (ws ≠ [] → SendsBack s t r.core r.who ws) ∧ t.mem = s.mem ∧
      (r.attr.cache ≠ 2 → ∀ k, k < 8 → (r.sector * 8 + k, s.hword (r.sector * 8 + k)) ∈ (t.coreAt r.core).pathWords tile)) ∧
  (∀ s id r, AtHome s id r → r.kind = .acquireLoad → (∀ e ∈ (s.coreAt r.core).sq, e.who.g = r.who.g → e.hits r.accs = false) →
    (∀ w ∈ r.words, s.ownerOf w = none ∧ ∀ y ∈ s.rel, y.word ≠ w) →
    let ws := loadWrites r.who r.dst r.ty (r.accs.map fun a => (a, smBytes s.mem a.pa a.size))
    ∃ t, exec (.acquireAtHome id) s = .next t ∧ (∀ y ∈ t.orn, y.id ≠ id) ∧ (ws ≠ [] → SendsBack s t r.core r.who ws) ∧ t.mem = s.mem ∧
      ∀ w v, (t.coreAt r.core).view w = some v → v.st ≠ .valid) ∧
  (∀ s id r a op, AtHome s id r → r.kind = .atomic op → r.order = .none → r.accs = [a] → (∀ w ∈ r.words, s.ownerOf w = none) →
    let old := smBytes s.mem a.pa a.size
    let ws := loadWrites r.who r.dst r.ty [(a, leBytes (BitVec.ofNat 64 (leNat old)).toNat a.size)]
    ∃ t, exec (.atomicAtHome id) s = .next t ∧ (∀ y ∈ t.orn, y.id ≠ id) ∧ (ws ≠ [] → SendsBack s t r.core r.who ws) ∧
      (∀ w ∈ r.words, (t.coreAt r.core).view w = none) ∧
      ∀ b, smGet t.mem b = if a.pa ≤ b ∧ b < a.pa + a.size
        then (leBytes (aluNew op (BitVec.ofNat 64 (leNat old)) a.x a.y).toNat a.size).getD (b - a.pa) 0 else smGet s.mem b) ∧
  (∀ s id r a op, AtHome s id r → r.kind = .red op → r.accs = [a] → (∀ w ∈ r.words, s.ownerOf w = none) →
    ∃ t, exec (.atomicAtHome id) s = .next t ∧ (∀ y ∈ t.orn, y.id ≠ id) ∧ (t.coreAt r.core).inflight = (s.coreAt r.core).inflight ∧
      ∀ b, smGet t.mem b = if a.pa ≤ b ∧ b < a.pa + a.size
        then (leBytes (aluNew op (BitVec.ofNat 64 (leNat (smBytes s.mem a.pa a.size))) a.x a.y).toNat a.size).getD (b - a.pa) 0
        else smGet s.mem b) ∧
  (∀ s core id f n l x, (s.coreAt core).inflight.find? (fun y => y.id == id) = some f → s.cur.resident = true → f.g = s.cur.key → l < 32 →
    f.writes = [.v n l x] → (∀ y ∈ (s.coreAt core).inflight.takeWhile (fun y => y.id != id), ∀ w ∈ y.words, w ∉ f.words) →
    ∃ t, exec (.dataReturn core id) s = .next t ∧ (∀ y ∈ (t.coreAt core).inflight, y.id ≠ id) ∧ t.mem = s.mem ∧
      (∀ k j, j < 32 → t.cur.vr k j = if k = n ∧ j = l then x else s.cur.vr k j) ∧
      (smGet s.cur.pendV (n * 32 + l) = pendMark f.seq f.strand → smGet t.cur.pendV (n * 32 + l) = 0) ∧
      t.cur.fpflags = s.cur.fpflags ||| f.flags ∧ SamePreds s t) ∧
  (∀ s core id w, s.watches.find? (fun y => y.id == id && y.again && y.who.g.core == core) = some w →
    ∃ t y, exec (.waitwRefetch core id) s = .next t ∧ t.ornWait = s.ornWait ++ [y] ∧ y.kind = .watch ∧ y.sector = w.pa / 32 ∧ y.who = w.who ∧ y.accs.map (fun a => (a.lane, a.pa)) = [(w.lane, w.pa)] ∧
      y.core = core ∧ t.mem = s.mem)

/-- R87, R135, R136, R138: update-only state. A sector enters it under a contribution's tag, held by its core, whose L1, in a set with room
for it and no word of the sector dirty, takes the contribution over the operator's identity; a contribution to a sector the core holds is
combined with its partial; the last partial recalled ends the merge: each element that some core contributed to becomes its combination with the Flowstone tree's root over the
cores. -/
def Obligations.UpdateOnlyResults : Prop :=
  (∀ s id r a (tag : Fin 16), AtHome s id r → r.kind = .uEnter tag → r.accs = [a] → sectorOf a.pa = r.sector → tag.val ≠ 0 → r.core < 256 →
    (s.dirAt r.sector).owners = [] → (∀ u ∈ (s.coreAt r.core).ub, u.sector ≠ r.sector) →
    (∀ p ∈ s.parked, p.sector = r.sector → p.core ≠ r.core) →
    (∀ b ∈ (s.coreAt r.core).blocks, ∀ k v, b.words[k]? = some v → (b.frame * 128 + b.start + k) / 8 = r.sector → v.st ≠ .dirty) →
    (Core.putUb (ubFor 0 a [] 0) (s.coreAt r.core)).setFits (l1Set (r.sector / 16)) = true →
    ∃ t u, exec (.updateOnlyEnter id) s = .next t ∧ (∀ y ∈ t.orn, y.id ≠ id) ∧ (t.dirAt r.sector).uTag = tag.val ∧
      (∀ c, c < 256 → ((t.dirAt r.sector).uhold.getLsbD c = true ↔ c = r.core)) ∧ t.mem = s.mem ∧
      u ∈ (t.coreAt r.core).ub ∧ u.sector = r.sector ∧ u.tag = tag.val ∧ u.parts = contribute tag.val a (freshParts tag.val)) ∧
  (∀ s core id e a (tag : Fin 16) u, (s.coreAt core).gone.find? (fun y => y.id == id) = some e → e.kind = .redu tag → e.accs = [a] →
    (s.coreAt core).earlierRedu e a = false → (s.dirAt (sectorOf a.pa)).uTag = tag.val → (s.dirAt (sectorOf a.pa)).merging = false →
    (∀ y ∈ s.ornWait ++ s.orn, y.entry ≠ some id) → (∀ f ∈ s.fwd, f.entry ≠ some id) → s.claimsOpen core id = false →
    (∀ c ∈ s.cores, ∀ y ∈ c.spq, y.entry ≠ some id) → (∀ y ∈ (s.coreAt core).gone, y.id = id → y = e) →
    (s.coreAt core).ub = [u] → u.sector = sectorOf a.pa →
    ∃ t age, exec (.reduAccept core id) s = .next t ∧ (t.coreAt core).ub = [{ u with parts := contribute tag.val a u.parts, age := age }] ∧
      (∀ y ∈ (t.coreAt core).gone, y.id ≠ id) ∧ t.mem = s.mem) ∧
  (∀ s sector core, (s.dirAt sector).merging = true → s.toRecall sector = [core] → (s.dirAt sector).uTag ≠ 0 → (s.dirAt sector).uTag ≠ 2 →
    (∃ r ∈ s.orn, r.kind = .askBack core ∧ r.sector = sector) →
    let part := ((s.coreAt core).ub.find? fun u => u.sector == sector).map (·.parts)
    let back := (s.dirAt sector).recalled ++ [(core, part.getD (freshParts (s.dirAt sector).uTag))] ++
      (s.parked.filter fun p => p.sector == sector).map fun p => (p.core, p.parts)
    ∃ t, exec (.recallReturn sector core) s = .next t ∧ (t.dirAt sector).uTag = 0 ∧ (t.dirAt sector).merging = false ∧
      (∀ u ∈ (t.coreAt core).ub, u.sector ≠ sector) ∧ (∀ p ∈ t.parked, p.sector ≠ sector) ∧
      (∀ k, k < 8 → smWord t.mem (sector * 32 + 4 * k) =
        match flowstone (s.dirAt sector).uTag (leafOf back k) 8 0 with
        | none => smWord s.mem (sector * 32 + 4 * k)
        | some root => (tagHome (s.dirAt sector).uTag ((smWord s.mem (sector * 32 + 4 * k)).setWidth 64) root).setWidth 32) ∧
      ∀ a, a / 32 ≠ sector → smGet t.mem a = smGet s.mem a)


/-- An entry leaves its store queue, kept as `e'` until it is complete, and asks its home for its one sector. -/
def Sys2Proof.Machine.LeavesWith (s t : State) (core : Nat) (e e' : SQEntry) (sec : Nat) (k : OrnKind) : Prop :=
  (∀ x ∈ (t.coreAt core).sq, x.id ≠ e.id) ∧ (t.coreAt core).gone = (s.coreAt core).gone ++ [e'] ∧
    ∃ y, t.ornWait = s.ornWait ++ [y] ∧ y.kind = k ∧ y.sector = sec ∧ y.accs = inSector e.accs sec ∧ y.core = core ∧ y.entry = some e.id ∧
      y.who = e.who ∧ y.clock = s.clock ∧ y.entered = none ∧ t.mem = s.mem ∧ t.orn = s.orn

/-- R101 to R104, R108, R111, R127, R133, R142, R333, R359, R370: an entry that may retire leaves its store queue with a request for its
sector, or hands its engine its command; one that may not stays: behind an entry of its thread before it, or behind a load of its thread before
it on a word of both that is still to be performed (the model's reading of R98 and R99, log entry 111). A store's words that the view holds become
owned dirty as it leaves; where the view has no room for its words, or this device does not own its page, it stays; and its core's own
update-only sectors of its words leave its L1 (the model's reading, log entry 113). The request of the least key of those presented takes the next point of the order with
all its sectors. -/
def Sys2Proof.Machine.Claims.StoreQueueResults : Prop :=
  (∀ s core id e sec k, (s.coreAt core).sq.find? (fun y => y.id == id) = some e → s.mayRetire e = true → sectorsOf e.accs = [sec] →
    ((e.kind = .release ∧ k = .release) ∨
      ((∀ a ∈ e.accs, s.forwards a.pa = false) ∧ ∃ op, (e.kind = .atomic op ∧ k = .atomic op) ∨ (e.kind = .red op ∧ k = .red op))) →
    ∃ t, exec (.storeQueueRetire core id) s = .next t ∧ LeavesWith s t core e e sec k) ∧
  (∀ s core id e sec, (s.coreAt core).sq.find? (fun y => y.id == id) = some e → s.mayRetire e = true → sectorsOf e.accs = [sec] →
    e.kind = .store → (∀ a ∈ e.accs, s.ownsPage a.pa = true) → (∀ u ∈ (s.coreAt core).ub, u.sector ≠ sec) →
    (∀ w ∈ viewWords e.accs, ((s.coreAt core).view w).isSome = true) →
    ∃ t, exec (.storeQueueRetire core id) s = .next t ∧
      LeavesWith s t core e { e with old := (viewWords e.accs).map fun w => (w, (s.coreAt core).view w) } sec .register ∧
      ∀ w ∈ viewWords e.accs, ∀ v, (s.coreAt core).view w = some v →
        let m := (wordWrite e.accs w).1
        (t.coreAt core).view w =
          some ⟨.dirty, mixWord m (wordWrite e.accs w).2 v.x, v.written ||| m, v.known ||| m, v.bad && m != 15#4⟩) ∧
  (∀ s core id e, (s.coreAt core).sq.find? (fun y => y.id == id) = some e → s.mayRetire e = true → e.kind = .store →
    (∀ a ∈ e.accs, s.ownsPage a.pa = true) →
    ((s.storeView core e).storeHeld core e = false → exec (.storeQueueRetire core id) s = .next s) ∧
    ((s.storeView core e).storeHeld core e = true → ∃ t, exec (.storeQueueRetire core id) s = .next t ∧
      (∀ x ∈ (t.coreAt core).sq, x.id ≠ id) ∧ ∀ u ∈ (t.coreAt core).ub, ∀ w ∈ viewWords e.accs, u.sector ≠ w / 8)) ∧
  (∀ s core id e, (s.coreAt core).sq.find? (fun y => y.id == id) = some e → e.kind = .store →
    (∃ a ∈ e.accs, s.ownsPage a.pa = false) → ∃ t, exec (.storeQueueRetire core id) s = .next t ∧ t.cores = s.cores ∧ t.mem = s.mem) ∧
  (∀ s core id e r, (s.coreAt core).sq.find? (fun y => y.id == id) = some e → e.kind ≠ .command → e.kind.space = none →
    r ∈ s.ornWait ++ s.orn → r.entry = none → r.ty.isSome = true → precedes r.who e.who = true → (∃ a ∈ r.accs, ∃ b ∈ e.accs, a.meets b = true) →
    exec (.storeQueueRetire core id) s = .next s) ∧
  (∀ s core id e, (s.coreAt core).sq.find? (fun y => y.id == id) = some e → e.kind = .matrix → s.mayRetire e = true →
    s.cur.resident = true → e.who.g = s.cur.key →
    ∃ t, exec (.storeQueueRetire core id) s = .next t ∧ (∀ x ∈ (t.coreAt core).sq, x.id ≠ id) ∧ t.mem = s.mem ∧
      t.cur.mq = s.cur.mq.map fun c => if c.entry = some id
        then { c with retired := true, readyAt := (s.clock.toNat * 4 + s.cur.key.part) * 2 ^ 64 + id } else c) ∧
  (∀ s core id e q, (s.coreAt core).sq.find? (fun y => y.id == id) = some e → e.kind = .slice → s.mayRetire e = true →
    s.cur.resident = true → e.who.g = s.cur.key → s.cur.slice.running = false → s.cur.slice.pushFrom 0 = some q →
    ∃ t, exec (.storeQueueRetire core id) s = .next t ∧ (∀ x ∈ (t.coreAt core).sq, x.id ≠ id) ∧ t.mem = s.mem ∧
      t.cur.slice.running = true ∧ t.cur.slice.idx = [0, 0, 0, 0] ∧ t.cur.slice.q = q) ∧
  (∀ s core id e x, (s.coreAt core).sq.find? (fun y => y.id == id) = some e → e.kind ≠ .command → x ∈ (s.coreAt e.who.g.core).sq →
    x.id ≠ e.id → precedes x.who e.who = true → exec (.storeQueueRetire core id) s = .next s) ∧
  (∀ s, (∃ r ∈ s.ornWait, s.presented r = true) → (∀ r ∈ s.ornWait, r.late = false) →
    ∃ r, exec .ornSequencerRelease s =
        .next { s with
          orn := s.orn ++ s.ornWait.filter (fun x => x.grp == r.grp), ornWait := s.ornWait.filter fun x => x.grp != r.grp } ∧
      r ∈ s.ornWait ∧ s.presented r = true ∧ ∀ y ∈ s.ornWait, s.presented y = true → y.keyBefore r = false)

/-- R195, R216 to R218, R428: a store's check, in its turn among the gangs of its core (the model's reading of R428, log entry 85). Where its page may be written the entry holds its physical address; where not, the gang
is trap parked with its queue held, and the store-fault record stands in both queues. A record that waited is written once there is
room. -/
def Sys2Proof.Machine.Claims.StoreCheckResults : Prop :=
  (∀ s g e more, s.nextCheck g = e :: more → s.checkAhead g e = true → exec (.storeCheck g) s = .next s) ∧
  (∀ s g e a x u pa at', s.nextCheck g = [e] → s.checkAhead g e = false → e.kind = .store → e.accs = [a] →
    s.translate e.who.g.core (s.gangAt e.who.g).team.ctx a.va .write = (x, u) → noDevice x = .ok pa at' →
    ∃ t, exec (.storeCheck g) s = .next t ∧ t.mem = s.mem ∧
      (t.coreAt g.core).sq = (s.coreAt g.core).sq.map fun y =>
        if y.id = e.id then { y with checked := true, accs := [{ a with ok := true, pa := pa, attr := at' }] } else y) ∧
  (∀ s g e a x u c, s.nextCheck g = [e] → s.checkAhead g e = false → e.kind = .store → e.accs = [a] → s.cur.resident = true → g = s.cur.key →
    s.translate e.who.g.core (s.gangAt e.who.g).team.ctx a.va .write = (x, u) → noDevice x = .fault c →
    s.faultQ.length < 4096 → s.storeQ.length < 1024 → s.pendRecs = [] →
    ∃ t r m n, exec (.storeCheck g) s = .next t ∧ t.mem = s.mem ∧ t.cur.trapParked = true ∧ t.cur.storeFault = true ∧
      (t.coreAt g.core).sq = (s.coreAt g.core).sq.map (fun y =>
        if y.who.g = g ∧ y.who.seq = e.who.seq then { y with held := true } else y) ∧
      m ≤ ofCycle s.clock s.recAt s.faultQ ∧ n ≤ ofCycle s.clock s.storeAt s.storeQ ∧ t.storeQ = putBefore s.storeQ n r id ∧
      t.faultQ = putBefore s.faultQ m { r with w7 := s.faultSeq - BitVec.ofNat 32 m } (fun x => { x with w7 := x.w7 + 1 }) ∧
      t.faultSeq = s.faultSeq + 1 ∧ r.w0 = recWord0 g 1 0x08 ∧ r.w1 = BitVec.ofNat 32 (s.cur.ctxField.toNat * 2 ^ 16 + e.ssn.toNat) ∧ r.w23 = a.va ∧
      r.w45 = e.who.pc.setWidth 64 ∧ r.w6 = (maskOf fun l => a.lane == l) ∧
      r.w7 = BitVec.ofNat 32 (c * 2 ^ 24 + Nat.min (s.cur.issueSeq - e.who.seq - 1) 0xFFFFFF)) ∧
  (∀ s p rest, s.pendRecs = p :: rest → p.store = false → s.faultQ.length < 4096 →
    ∃ t m, exec .faultRecordWrite s = .next t ∧ m ≤ ofCycle s.clock s.recAt s.faultQ ∧
      t.faultQ = putBefore s.faultQ m { p.fr with w7 := s.faultSeq - BitVec.ofNat 32 m } (fun x => { x with w7 := x.w7 + 1 }) ∧
      t.faultSeq = s.faultSeq + 1 ∧ t = { s with
        faultQ := t.faultQ, faultSeq := t.faultSeq, pendRecs := rest, todo := t.todo, recAt := (s.clock, 0), storeAt := (s.clock, 0) }) ∧
  (∀ s p rest, s.pendRecs = p :: rest → p.store = true → s.faultQ.length < 4096 → s.storeQ.length < 1024 →
    ∃ t m n, exec .faultRecordWrite s = .next t ∧ m ≤ ofCycle s.clock s.recAt s.faultQ ∧ n ≤ ofCycle s.clock s.storeAt s.storeQ ∧
      t.faultQ = putBefore s.faultQ m { p.fr with w7 := s.faultSeq - BitVec.ofNat 32 m } (fun x => { x with w7 := x.w7 + 1 }) ∧
      t.faultSeq = s.faultSeq + 1 ∧ t.pendRecs = rest ∧ t.storeQ = putBefore s.storeQ n p.fr id) ∧
  (∀ s p rest, s.pendRecs = p :: rest → 4096 ≤ s.faultQ.length → exec .faultRecordWrite s = .next s)

/-- Every page of a team's window that accesses touch stands in a physical page (R200). -/
def Sys2Proof.Machine.Standing (s : State) (r : SpReq) : Prop :=
  ∀ a ∈ r.accs, 0 < a.size ∧ ∀ x, s.teamAt r.team = some x →
    ∀ p, a.va.toNat / 4096 ≤ p → p ≤ (a.va.toNat + a.size - 1) / 4096 → x.holds p = true

/-- R116, R174, R200, R232, R337, R343: the banks serve the next source's oldest instruction for whose pages there is room: on pages that
stand in the scratchpad a load's values go to its register, a store's bytes to the team's window, an atomic writes the new value and sends
back the old; an 8-byte word written whole holds no error any more. -/
def Obligations.ScratchpadBankResults : Prop :=
  (∀ s core r, (s.coreAt core).spq = [r] → r.src < 8 → r.op = .load → Standing s r →
    let m := match s.teamAt r.team with | some x => x.sp | none => []
    let ws := loadWrites r.who r.dst r.ty (r.accs.map fun a => (a, smBytes m a.va.toNat a.size))
    ∃ t, exec (.scratchpadStart core) s = .next t ∧ (t.coreAt core).spq = [] ∧ (t.coreAt core).spLast = r.src ∧ t.teams = s.teams ∧
      t.mem = s.mem ∧ (ws ≠ [] → SendsBack s t r.who.g.core r.who ws)) ∧
  (∀ s core r x, (s.coreAt core).spq = [r] → r.src < 8 → r.op = .store → s.teamAt r.team = some x → Standing s r →
    (∀ a ∈ r.accs, a.bytes.length = a.size) →
    ∃ t y, exec (.scratchpadStart core) s = .next t ∧ (t.coreAt core).spq = [] ∧ (t.coreAt core).spLast = r.src ∧ t.mem = s.mem ∧
      t.teamAt r.team = some y ∧ y = { x with sp := r.accs.foldl (fun m a => smPut m a.va.toNat a.bytes) x.sp, spBad := y.spBad } ∧
      (∀ k, k ∈ y.spBad ↔ k ∈ x.spBad ∧ ∀ a ∈ r.accs, ¬ (a.va.toNat ≤ 8 * k ∧ 8 * k + 8 ≤ a.va.toNat + a.size)) ∧
      ∀ k, k ≠ r.team → t.teamAt k = s.teamAt k) ∧
  (∀ s core r x op a, (s.coreAt core).spq = [r] → r.src < 8 → r.op = .atomic op → r.order = .none → r.accs = [a] → s.teamAt r.team = some x →
    Standing s r →
    let old := smBytes x.sp a.va.toNat a.size
    let ws := loadWrites r.who r.dst r.ty [(a, old)]
    ∃ t y, exec (.scratchpadStart core) s = .next t ∧ (t.coreAt core).spq = [] ∧ t.mem = s.mem ∧ t.teamAt r.team = some y ∧
      y = { x with
        sp := smPut x.sp a.va.toNat (leBytes (aluNew op (BitVec.ofNat 64 (leNat old)) a.x a.y).toNat a.size), spBad := y.spBad } ∧
      (ws ≠ [] → SendsBack s t r.who.g.core r.who ws)) ∧
  (∀ s core c src, (s.coreAt core).spq = c →
    src = (spTurn (s.coreAt core).spLast).findSome? (fun k => (c.find? fun r => r.src == k).filter s.spReady) →
    (src = none → exec (.scratchpadStart core) s = .next s) ∧
    ∀ r, src = some r → ∃ t, exec (.scratchpadStart core) s = .next t ∧ (t.coreAt core).spLast = r.src ∧
      (t.coreAt core).spq = c.filter fun x => x.id != r.id)

/-- The store queue and its checks. -/
def Obligations.StoreBufferResults : Prop :=
  Claims.StoreQueueResults ∧ Claims.StoreCheckResults


/-! ### Engines (R81 to R84, R134, R145, R177, R181, R182, R359 to R387) -/

/-- An engine of a core has no read or write of memory on its way (R141). -/
def Sys2Proof.Machine.NoRequests (s : State) (core eng : Nat) : Prop := ∀ r ∈ s.ornWait ++ s.orn, r.isEng core eng = false

/-- The one request of an engine, or of Bridle, that stands in the order (R133, R141). -/
def Sys2Proof.Machine.Alone (s : State) (r : OrnReq) (mine : OrnReq → Bool) : Prop := s.orn.filter mine = [r]

/-- No core owns the words of a request dirty, or has a store of them still to register, and none holds an error of them (R147, R234). -/
def Sys2Proof.Machine.Settled (s : State) (r : OrnReq) : Prop :=
  ∀ w ∈ r.words, s.ownerOf w = none ∧ s.badWord w = false ∧ ∀ core, s.unregistered core w = false

/-- A command stands at the head of the issuing gang's matrix queue, no turn of its core's engine is going on, and its slot is the next in
turn there (R177, R359). -/
structure Sys2Proof.Machine.InTurn (s : State) (core : Nat) (c : MCmd) (rest : List MCmd) : Prop where
  gang : s.cur.resident = true
  queue : s.cur.mq = c :: rest
  others : ∀ x ∈ rest, x.who.seq ≠ c.who.seq
  key : c.who.g = s.cur.key
  place : s.cur.key.core = core
  idle : s.mxCmd core = none
  quiet : NoRequests s core 0
  turn : ∃ n, (slotTurn (s.coreAt core).mxLast).findSome? (fun k => ((s.slotGang core k).bind s.runnable).map fun x => (k, x)) = some (n, c)

/-- R134, R141, R145, R147, R177, R358, R359, R362, R365, R367: the matrix engine. An acceptance numbers the next retired command; at its
registration an engine owns its words and no core does (that its own core's copies become absent is the model's reading, log entry 34); at its
point a read of an engine has the home's bytes, and a write leaves its own there, words that no command has still to write being the engine's no
more; a transfer from the scratchpad moves a row to the reservation; a tile step of one row and column whose operands stand in the TOB leaves, in
its first cycle where its 64 rows take no more than 64 cycles, the accumulator that R82 gives; rows at or beyond M take their time and do
nothing, and once the time of the 64 rows is over the next step comes; a finished head with no write on its way and its turn over leaves its
queue and is counted.
That one step moves what log entry 41 says, its turn held until its last row, is the model's reading too. -/
def Obligations.MatrixEngineResults : Prop :=
  (∀ s c, s.cur.resident = true → s.toAccept s.cur = some c → c.who.g = s.cur.key → c.pieces = [] →
    ∃ t, exec (.matrixCommandAccept s.cur.key) s = .next t ∧ t = { s with cur := t.cur, nextId := s.nextId + 1 } ∧
      t.cur = { s.cur with
        mq := s.cur.mq.map fun x => if x.who.seq = c.who.seq
          then { x with accepted := if x.accepted = 0 then s.nextId else x.accepted, pieces := [], words := c.words, faulted := false, stopVa := 0 }
          else x }) ∧
  (∀ s id r eng, AtHome s id r → r.kind = .engReg eng → (s.dirAt r.sector).owners = [] → (∀ w ∈ r.words, s.unregistered r.core w = false) →
    ∃ t e, exec (.engineRegistration id) s = .next t ∧ (∀ y ∈ t.orn, y.id ≠ id) ∧ t.mem = s.mem ∧ (t.dirAt r.sector).eng = some e ∧
      e.core = r.core ∧ e.eng = eng ∧ (∀ w, w / 8 = r.sector → (t.engineOwns w = true ↔ w ∈ r.words)) ∧
      ∀ w ∈ r.words, (t.coreAt r.core).view w = none) ∧
  (∀ s id r eng f, AtHome s id r → r.kind = .engRead eng → r.words ≠ [] → Alone s r (fun x => x.isEng r.core eng) → Settled s r →
    let t := s.engServe r.core eng f
    (∀ y ∈ t.orn, y.id ≠ id) ∧ t.mem = s.mem ∧ (t.coreAt r.core).engIn = (s.coreAt r.core).engIn ++ r.accs.map fun a =>
      { eng := eng, g := r.who.g, seq := r.who.seq, pa := a.pa, n := a.size, bytes := some (smBytes s.mem a.pa a.size) }) ∧
  (∀ s id r a e, Due s id r → r.kind = .engWrite 0 → r.accs = [a] → Alone s r (fun x => x.isEng r.core 0) → (s.dirAt r.sector).eng = some e →
    e.core = r.core → e.eng = 0 → (∀ w ∈ r.words, e.mask.getLsbD (w % 8) = true) →
    let t := s.engServe r.core 0 fun r s => s.mxWrite r
    (∀ y ∈ t.orn, y.id ≠ id) ∧
    (∀ b, smGet t.mem b = if a.pa ≤ b ∧ b < a.pa + a.bytes.length then a.bytes.getD (b - a.pa) 0 else smGet s.mem b) ∧
    ∀ w ∈ r.words, w ∉ t.engClaims r.core 0 → t.engineOwns w = false) ∧
  (∀ s core c rest r x, InTurn s core c rest → c.kind = .obld → c.sp = true → c.rows + 1 = c.rowCount → s.teamAt s.cur.team = some x →
    (s.coreAt core).resvOf c.who.g c.res.val = some r → c.part = 0 → 0 < c.rowBytes → c.rowBytes ≤ 4096 →
    (∀ p, (c.base + c.rows * c.vs) / 4096 ≤ p → p ≤ (c.base + c.rows * c.vs + c.rowBytes - 1) / 4096 → x.holds p = true) →
    (∀ k ∈ x.spBad, overlaps (c.base + c.rows * c.vs) c.rowBytes (8 * k) 8 = false) →
    ∃ t, exec (.tileStep core) s = .next t ∧ t.mem = s.mem ∧ t.teams = s.teams ∧
      (t.coreAt core).tob = smPut (s.coreAt core).tob (r.start + c.toff + c.rows * r.pitch) (smBytes x.sp (c.base + c.rows * c.vs) c.rowBytes) ∧
      t.cur.mq = { c with started := true, rows := c.rowCount } :: rest) ∧
  (∀ s core c rest r ra rb, InTurn s core c rest → c.kind = .mma → (s.coreAt core).resvOf c.who.g c.acc = some r →
    c.asrc = true → (s.coreAt core).resvOf c.who.g (c.aaddr / 2 ^ 32 % 8) = some ra → blockOf c.afmt = none →
    c.bsrc = true → (s.coreAt core).resvOf c.who.g (c.baddr / 2 ^ 32 % 8) = some rb → blockOf c.bfmt = none →
    c.m = 1 → c.n = 1 → c.tile = 0 → c.rows = 0 → c.kstep < c.steps → c.turnTime ≤ 64 → (s.coreAt core).tobBad = [] →
    let k0 := c.kstep * c.depth
    let k1 := Nat.min c.k (k0 + c.depth)
    let row (q : Resv) (addr fmt : Nat) : OpRow :=
      ⟨leNat (smBytes (s.coreAt core).tob (q.start + addr % 2 ^ 19 + k0 * (nfmt fmt).width / 8) (packedBytes fmt (k1 - k0))), XVal.ofInt 1⟩
    let place := r.start + c.accoff
    let old := if c.kstep = 0 ∧ c.zero = true then 0 else leNat (smBytes (s.coreAt core).tob place c.accK.width)
    ∃ t, exec (.tileStep core) s = .next t ∧ t.mem = s.mem ∧
      (t.coreAt core).tob = smPut (s.coreAt core).tob place
        (leBytes (c.element (row ra c.aaddr c.afmt) (row rb c.baddr c.bfmt) k0 old) c.accK.width) ∧
      t.cur.mq = { c with started := true, rows := 64 / c.turnTime } :: rest ∧
      ∃ y, (t.coreAt core).mxTurn = some y ∧ y.g = s.cur.key ∧ y.row0 = 0 ∧ y.since = s.clock) ∧
  (∀ s core y c rest r, s.cur.resident = true → s.cur.mq = c :: rest → (∀ x ∈ rest, x.who.seq ≠ c.who.seq) → s.mxCmd core = some (y, c) →
    c.who.g = s.cur.key → s.cur.key.core = core → NoRequests s core 0 → c.kind = .mma → (s.coreAt core).resvOf c.who.g c.acc = some r →
    c.kstep < c.steps → c.tileRows ≤ c.rows → c.rows < y.due c s.clock → y.due c s.clock < 64 → y.bs.isSome = true →
    ∃ t, exec (.tileStep core) s = .next t ∧ t.mem = s.mem ∧ (t.coreAt core).tob = (s.coreAt core).tob ∧ (t.coreAt core).mxTurn = some y ∧
      t.cur.mq = { c with rows := y.due c s.clock } :: rest) ∧
  (∀ s core y c rest r, s.cur.resident = true → s.cur.mq = c :: rest → (∀ x ∈ rest, x.who.seq ≠ c.who.seq) → s.mxCmd core = some (y, c) →
    c.who.g = s.cur.key → s.cur.key.core = core → NoRequests s core 0 → c.kind = .mma → (s.coreAt core).resvOf c.who.g c.acc = some r →
    c.kstep + 1 < c.steps → c.rows = 64 → y.bs.isSome = true →
    ∃ t, exec (.tileStep core) s = .next t ∧ t.mem = s.mem ∧ (t.coreAt core).tob = (s.coreAt core).tob ∧ (t.coreAt core).mxTurn = none ∧
      t.cur.mq = { c with kstep := c.kstep + 1, rows := 0 } :: rest) ∧
  (∀ s c rest, s.cur.resident = true → s.cur.mq = c :: rest → c.accepted ≠ 0 → c.finished = true →
    s.engWriting s.cur.key.core 0 c.who = false → (∀ y, (s.coreAt s.cur.key.core).mxTurn = some y → y.g ≠ s.cur.key) →
    exec (.matrixCommandComplete s.cur.key) s =
      .next { s with cur := { s.cur with mq := rest, mCompleted := s.cur.mCompleted + 1 } }) ∧
  (∀ s c rest, s.cur.resident = true → s.cur.mq = c :: rest → c.finished = false →
    exec (.matrixCommandComplete s.cur.key) s = .next s)

/-- The next slot whose slice Bridle can serve is the issuing gang's, whose push is the stream `x`'s, and none of the core's pushes stands in the
order (R375). -/
structure Sys2Proof.Machine.PushTurn (s : State) (core n : Nat) (x : Stream) (ty : PushTy) (f : FeedQ) : Prop where
  gang : s.cur.resident = true
  place : s.cur.key.core = core
  quiet : ∀ r ∈ s.orn, r.core = core → ∀ q id ty, r.kind ≠ .push q id ty
  turn : (slotTurn (s.coreAt core).brLast).findSome? (fun k =>
    ((s.slotGang core k).filter fun g => g.pushReady && !s.leaving g.team).map fun g => (k, g)) = some (n, s.cur)
  stream : s.cur.slice.streams[s.cur.slice.q]? = some x
  type : x.ty = some ty
  feed : s.cur.fq[s.cur.slice.q]? = some f

/-- R141, R147, R370, R375, R376: Bridle starts one push of the next slot whose slice can go on: the element of a lane is asked of its home, or of
the scratchpad banks, and the slice goes to its next push; an offset outside the window stops the slice, with a record of cause 0x06 and access
kind 4 (the model's reading of R51 beside R353, log entry 114). At its point the lane has its element, and with the last of them the push is
ready. The oldest push in flight enters its queue once its elements have returned.
The places of the engines' requests in the one order, and what passes what there, are the model's reading (log entry 93). -/
def Obligations.AccessEngineResults : Prop :=
  (∀ s core n f x ty, PushTurn s core n x ty f → x.sp = true → x.vmask ≠ 0 →
    (∀ l, l < 32 → x.vmask.getLsbD l = true → (s.cur.slice.addr x l).toNat + pushSize ty ≤ s.windowOf s.cur) →
    CleanWindow s s.cur.team ((lanesOf x.vmask).map fun l => mkAcc l 0 (pushSize ty) (s.cur.slice.addr x l)) →
    ∃ t r, exec (.bridlePush core) s = .next t ∧ t.mem = s.mem ∧ t.cur.slice = s.cur.slice.advance ∧
      t.cur.fq[s.cur.slice.q]? = some { f with inflight := f.inflight ++ [{ id := s.nextId, vals := [], ready := false, need := [] }] } ∧
      (t.coreAt core).spq = (s.coreAt core).spq ++ [r] ∧ r.src = 7 ∧ r.op = .push s.cur.slice.q s.nextId ty ∧
      r.accs = (lanesOf x.vmask).map (fun l => mkAcc l 0 (pushSize ty) (s.cur.slice.addr x l)) ∧ (t.coreAt core).brLast = n) ∧
  (∀ s core n f x ty l rest, PushTurn s core n x ty f → x.sp = true →
    ((lanesOf x.vmask).filter fun l => decide (s.windowOf s.cur < (s.cur.slice.addr x l).toNat + pushSize ty)) = l :: rest →
    s.faultQ.length < 4096 → s.pendRecs = [] →
    ∃ t r, exec (.bridlePush core) s = .next t ∧ t.mem = s.mem ∧ (t.coreAt core).brLast = n ∧
      t.cur.slice = { s.cur.slice with stopped := true, stopVa := (s.cur.slice.addr x l).toNat } ∧ t.cur.fq = s.cur.fq ∧
      r ∈ t.faultQ ∧ r.w0 = recWord0 s.cur.slice.who.g 4 0x06 ∧ r.w23 = s.cur.slice.addr x l) ∧
  (∀ s core n f x ty l y u pa at', PushTurn s core n x ty f → x.sp = false → lanesOf x.vmask = [l] →
    ({ s with nextId := s.nextId + 1 } : State).translate core s.cur.slice.who.ctx (s.cur.slice.addr x l) .read = (y, u) →
    noDevice y = .ok pa at' → s.cur.slice.who.g = s.cur.key →
    ∃ t r, exec (.bridlePush core) s = .next t ∧ t.mem = s.mem ∧ t.cur.slice = s.cur.slice.advance ∧ (t.coreAt core).brLast = n ∧
      t.cur.fq[s.cur.slice.q]? = some { f with inflight := f.inflight ++ [{ id := s.nextId, vals := [], ready := false, need := [l] }] } ∧
      r ∈ t.ornWait ∧ r.kind = .push s.cur.slice.q s.nextId ty ∧ r.sector = pa / 32 ∧ r.core = core ∧ r.agent = 6 ∧ r.entered = none ∧
      r.accs.map (fun a => (a.lane, a.pa, a.size)) = [(l, pa, pushSize ty)]) ∧
  (∀ s id r a q pid ty f p, AtHome s id r → r.kind = .push q pid ty → r.accs = [a] → r.who.g = s.cur.key → s.cur.resident = true →
    Alone s r (fun x => x.core == r.core && match x.kind with | .push .. => true | _ => false) → Settled s r → s.cur.fq[q]? = some f →
    f.inflight = [p] → p.id = pid → p.need = [a.lane] →
    let t := s.bridleServe r.core
    (∀ y ∈ t.orn, y.id ≠ id) ∧ t.mem = s.mem ∧ t.cur.fq[q]? = some { f with inflight :=
      [{ p with vals := smSet p.vals a.lane (pushVal ty (leNat (smBytes s.mem a.pa a.size))), need := [], ready := true }] }) ∧
  (∀ s (q : Fin 4) f p rest, s.cur.resident = true → s.cur.fq[q.val]? = some f → f.inflight = p :: rest → p.ready = true →
    s.cur.slice.finished = false →
    exec (.pushEnterQueue s.cur.key q) s =
      .next { s with cur := { s.cur with fq := s.cur.fq.set q.val { entries := f.entries ++ [p.vals], inflight := rest } } }) ∧
  (∀ s (q : Fin 4) f p, s.cur.resident = true → s.cur.fq[q.val]? = some f → f.inflight = [p] → p.ready = true →
    s.cur.slice.finished = true → (∀ k x, k ≠ q.val → s.cur.fq[k]? = some x → x.inflight = []) →
    ∃ t, exec (.pushEnterQueue s.cur.key q) s = .next t ∧ t.cur.fq[q.val]? = some { entries := f.entries ++ [p.vals], inflight := [] } ∧
      t.cur.slice.running = false ∧ t.mem = s.mem)

/-- R181, R182, R380 to R385: a CQ store writes its register; a CGO store that R383 does not refuse gives its engine the command of the
operation its registers name; acceptance writes the promise of R181 to the gang; the engine asks the home for the next byte of a copy, takes it
once it has returned, asks the home to take it, and the home takes it at its point; a command with its last word written leaves the queue; one
late posts the record of cause 0x07, once.
The parties of an allowance (log entry 39) and the places of a copy engine's requests in the one order (93) are the model's reading. -/
def Obligations.CopyEngineResults : Prop :=
  (∀ s core id e, s.cmdEntry core id = some e → e.isCommand = false → e.who.g = s.cur.key → s.cur.resident = true → e.cmdOffset / 8 < 4 →
    ∃ t, exec (.cqWrite core id) s = .next t ∧ t.mem = s.mem ∧ smGet t.cur.cq (e.cmdOffset / 8) = BitVec.ofNat 64 e.cmdValue ∧
      (∀ k, k ≠ e.cmdOffset / 8 → smGet t.cur.cq k = smGet s.cur.cq k) ∧
      (∀ k, k < 4 → t.cur.cqWritten.getLsbD k = (s.cur.cqWritten.getLsbD k || k == e.cmdOffset / 8)) ∧
      ∀ x ∈ (t.coreAt core).sq, x.id ≠ id) ∧
  (∀ s core id e q i op, s.cgoEntry core id = some e → cgoRefused s.cur e.cmdValue = false → e.who.g = s.cur.key → s.cur.resident = true →
    (cqCommand e.who id s.cur.cq).op = op →
    (i, op) ∈ [(Instr.ceCopy core id, 0), (.ceGather core id, 1), (.ceScatter core id, 2), (.ceReduceCopy core id, 3)] →
    (s.coreAt core).ces[cgoEngine (s.coreAt core) e.cmdValue]? = some q → q.queue.length < 16 →
    ∃ t, exec i s = .next t ∧ t.mem = s.mem ∧ t.cur = { s.cur with cqWritten := 0 } ∧ (∀ x ∈ (t.coreAt core).sq, x.id ≠ id) ∧
      (t.coreAt core).gone = (s.coreAt core).gone ++ [e] ∧
      (t.coreAt core).ces[cgoEngine (s.coreAt core) e.cmdValue]? = some { q with queue := q.queue ++ [cqCommand e.who id s.cur.cq] }) ∧
  (∀ s core eng q c, (s.coreAt core).ces[eng]? = some q → q.toAccept = some c → c.accepted = false → s.cur.resident = true →
    c.who.g = s.cur.key → c.who.team = s.cur.team →
    let bytes := if c.op = 1 ∨ c.op = 2 then c.count * Nat.max c.esz 32 else c.count
    let far := (c.parties.map fun r => s.farthest core c.who.ctx r.1 r.2).foldl Nat.max 0
    let p := BitVec.ofNat 64 (Nat.max s.clock.toNat q.promise.toNat + (bytes + 63) / 64 +
      s.scaled (if far = 0 then 600 else if far = 1 then 800 else 2400))
    ∃ t q', exec (.ceAccept core eng) s = .next t ∧ t.mem = s.mem ∧ t.cur.promise = p ∧ (t.coreAt core).ces[eng]? = some q' ∧
      q'.promise = p ∧ (c.elems = 0 → q'.queue = q.queue.filter fun x => x.entry != c.entry)) ∧
  (∀ s core eng q c rest x u pa at', (s.coreAt core).ces[eng]? = some q → q.queue = c :: rest → c.accepted = true → c.faulted = false →
    c.who.g.core = core → c.op = 0 → c.esize = 0 → c.mayRead = true → s.registered c.pieces (some c.entry) = true →
    (∀ y ∈ rest, y.entry ≠ c.entry) → NoRequests s core (eng + 1) →
    s.translate core c.who.ctx (BitVec.ofNat 64 ((c.src + c.read) % 2 ^ 64)) .read = (x, u) → noDevice x = .ok pa at' →
    let mine (e : EngIn) : Bool := e.eng == eng + 1 && e.g == c.who.g && e.seq == c.who.seq
    (∀ e b, (s.coreAt core).engIn.filter mine = [e] → e.pa = pa → e.n = 1 → e.bytes = some [b] →
      ∃ t q', exec (.engineRead core eng) s = .next t ∧ t.mem = s.mem ∧ (t.coreAt core).ces[eng]? = some q' ∧
        (t.coreAt core).engIn.filter mine = [] ∧
        q'.queue = { c with read := c.read + 1, buf := [(c.dst + c.read, [b])] } :: rest) ∧
    ((s.coreAt core).engIn.filter mine = [] →
      ∃ t y, exec (.engineRead core eng) s = .next t ∧ t.mem = s.mem ∧ (t.coreAt core).ces[eng]? = some q ∧ t.ornWait = s.ornWait ++ [y] ∧
        y.kind = .engRead (eng + 1) ∧ y.core = core ∧ y.agent = 4 + eng ∧ y.who = c.who ∧ y.sector = pa / 32 ∧ y.clock = s.clock ∧ y.entered = none ∧
        y.accs.map (fun a => (a.pa, a.size)) = [(pa, 1)])) ∧
  (∀ s core eng q c rest more x u pa at' a bs, (s.coreAt core).ces[eng]? = some q → q.queue = c :: rest → c.accepted = true →
    c.faulted = false → c.who.g.core = core → c.op ≠ 3 → s.ceMayWrite c = true → c.writing = false → c.buf = (a, bs) :: more →
    NoRequests s core (eng + 1) → (∀ y ∈ rest, y.entry ≠ c.entry) →
    s.translate core c.who.ctx (BitVec.ofNat 64 (a % 2 ^ 64)) .write = (x, u) → noDevice x = .ok pa at' →
    ∃ t q' y, exec (.engineWrite core eng) s = .next t ∧ t.mem = s.mem ∧ (t.coreAt core).ces[eng]? = some q' ∧
      q'.queue = { c with writing := true } :: rest ∧ t.ornWait = s.ornWait ++ [y] ∧ y.kind = .engWrite (eng + 1) ∧ y.core = core ∧
      y.agent = 4 + eng ∧ y.who = c.who ∧ y.sector = pa / 32 ∧ y.accs.map (fun a => (a.pa, a.bytes)) = [(pa, bs)]) ∧
  (∀ s id r a e eng q c rest more, Due s id r → r.kind = .engWrite (eng + 1) → r.accs = [a] → Alone s r (fun x => x.isEng r.core (eng + 1)) →
    (s.dirAt r.sector).eng = some e → e.core = r.core → e.eng = eng + 1 → (∀ w ∈ r.words, e.mask.getLsbD (w % 8) = true) →
    (s.coreAt r.core).ces[eng]? = some q → q.queue = c :: rest → (∀ y ∈ rest, y.entry ≠ c.entry) → c.who.g = r.who.g → c.who.seq = r.who.seq →
    c.op ≠ 3 → c.buf = (a.va.toNat, a.bytes) :: more →
    let t := s.engServe r.core (eng + 1) fun r s => s.ceWrite eng r
    (∀ y ∈ t.orn, y.id ≠ id) ∧
    (∀ b, smGet t.mem b = if a.pa ≤ b ∧ b < a.pa + a.bytes.length then a.bytes.getD (b - a.pa) 0 else smGet s.mem b) ∧
    ∃ q' y, (t.coreAt r.core).ces[eng]? = some q' ∧ q'.queue = y :: rest ∧ y = { c with buf := more, writing := false, words := y.words }) ∧
  (∀ s core eng q c rest, (s.coreAt core).ces[eng]? = some q → q.queue = c :: rest → c.faulted = false → s.ceDone c = true →
    ∃ t, exec (.ceCommandComplete core eng) s = .next t ∧ t.mem = s.mem ∧ (t.coreAt core).ces[eng]? = some { q with queue := rest } ∧
      t.cur = s.cur) ∧
  (∀ s core eng q c rest, (s.coreAt core).ces[eng]? = some q → q.queue = c :: rest → c.accepted = true → c.missed = false →
    c.promise ≤ s.clock → s.ceDone c = false → s.faultQ.length < 4096 → s.pendRecs = [] →
    ∃ (t : State) (r : FRec) (m : Nat), exec (.promiseMiss core eng) s = .next t ∧ t.mem = s.mem ∧ m ≤ ofCycle s.clock s.recAt s.faultQ ∧
      t.faultQ = putBefore s.faultQ m { r with w7 := s.faultSeq - BitVec.ofNat 32 m } (fun x => { x with w7 := x.w7 + 1 }) ∧
      r.w0 = recWord0 c.who.g 4 0x07 ∧ r.w23 = c.promise ∧ r.w45 = c.who.pc.setWidth 64 ∧
      ∃ q', (t.coreAt core).ces[eng]? = some q' ∧ ∃ y ∈ q'.queue, y.entry = c.entry ∧ y.missed = true)


/-! ### Placement and scheduling (R12 to R16, R119, R154 to R168, R199, R387, R396, R404, R405) -/

/-- Physical pages of a core in which no page of a window stands (R200). -/
def Sys2Proof.Machine.State.unusedPages (s : State) (core : Nat) : List Nat :=
  (List.range 512).filter fun k => !s.teams.any fun x => x.core == core && x.held.any fun h => h.2 == k

/-- A gang that joins the active set, where it issues from the second cycle on (R166). -/
def Sys2Proof.Machine.Gang.joined (clock : DWord) (g : Gang) : Gang :=
  { g with
    active := true, pendingFor := 0, strands := g.strands.map fun st => if st.valid then { st with notBefore := clock + 2 } else st }

/-- R154, R155, R158 to R161, R192, R200, R404, R405: a LAUNCH's entry becomes a grid with the context's next serial number and its GRIDID
goes to the leader's lane of the destination; the next team of the context whose turn it is goes to the lowest core it fits on, its gangs
on the places R159 names, registers and predicates 0 but s0, which holds PARAM, one root strand at the entry, each page of its window in a
physical page; its strands are ready 64 cycles later, with the kernel's code fetched by then (R433). A team that fits nowhere stops its context's placement until a team of it leaves.
Which physical page a page of a window takes, and in which step a kernel's code is fetched, are the model's choice (log entries 105, 110). -/
def Obligations.PlacementResults : Prop :=
  (∀ (s : State) ctx x g core, s.ctxAt ctx = some x → s.nextPlace x = some (g, core) → s.served ctx = true → s.boundaryWaits g = false →
    g.pages ≤ (s.unusedPages core).length →
    let tk : TKey := ⟨x.num, g.id, teamId (g.point g.placed)⟩
    s.teamAt tk = none →
    ∃ t team, exec (.teamPlacement ctx) s = .next t ∧ (∀ c, c < core → s.fits x g c = false) ∧ s.fits x g core = true ∧
      t.teams = s.teams ++ [team] ∧
      team.key = tk ∧ team.core = core ∧ team.threads = g.threads ∧ team.nregs = g.regs ∧ team.pages = g.pages ∧ team.sp = [] ∧
      team.frames.length = g.pages ∧ team.held = (List.range g.pages).zip (s.unusedPages core) ∧ team.unpinned = [] ∧
      team.placedAt = s.clock ∧ team.started = false ∧ team.bars = List.replicate 16 Bar.empty ∧
      t.lastServed = ctx ∧ t.ctxAt ctx = some { x with waitGrid := none, retry := false } ∧
      t.grids = s.grids.map (fun y => if y.ctx = g.ctx ∧ y.id = g.id then { y with placed := y.placed + 1 } else y) ∧
      (∀ w v, (t.coreAt core).view w = some v → v.st ≠ .valid) ∧
      ∀ key k, (key, k) ∈ (s.teamPlaces core ((g.threads + 31) / 32)).zipIdx →
        ∃ y ∈ t.gangs, y.key = key ∧ y.team = tk ∧ y.gangId = BitVec.ofNat 32 k ∧ y.resident = true ∧ y.ageStamp = s.clock ∧
          (∀ l, l < 32 → (y.live.getLsbD l = true ↔ k * 32 + l < g.threads)) ∧ (∀ n l, y.vr n l = 0) ∧ (∀ n, smGet y.p n = 0) ∧
          (∀ n, smGet y.s n = if n = 0 then g.param else 0) ∧ (y.strandAt 0).valid = true ∧ (y.strandAt 0).pc = g.entry ∧
          (y.strandAt 0).mask = y.live ∧ (y.strandAt 0).state = .ready ∧ ∀ n, n ≠ 0 → (y.strandAt n).valid = false) ∧
  (∀ (s : State) ctx x g core, s.ctxAt ctx = some x → s.nextPlace x = some (g, core) → g.host = true → g.placed = 0 →
    (∃ c ∈ s.cores, ∃ w ∈ (s.coreAt c.num).wordsIn .dirty, s.engineOwns w = true ∧ s.unregistered c.num w = true) →
    exec (.teamPlacement ctx) s = .next s) ∧
  (∀ (s : State) ctx x p, s.ctxAt ctx = some x → s.nextPlace x = some p →
    (∃ y ∈ s.ctxs, (s.nextPlace y).isSome = true ∧ (y.num + 31 - s.lastServed % 32) % 32 < (ctx + 31 - s.lastServed % 32) % 32) →
    exec (.teamPlacement ctx) s = .next s) ∧
  (∀ (s : State) ctx x g, s.ctxAt ctx = some x → x.waitGrid = none ∨ x.retry = true → s.turnGrid x = some g →
    (∃ c, c < 256 ∧ s.inTurn x c = true ∧ (g.place = none ∨ g.place = some c)) →
    (∀ c, c < 256 → s.fits x g c = false ∧ (s.inTurn x c = true → s.mayRun x c = true)) →
    ∃ t, exec (.teamPlacement ctx) s = .next t ∧ t = { s with ctxs := t.ctxs } ∧
      t.ctxAt ctx = some { x with waitGrid := some g.id, retry := false }) ∧
  (∀ (s : State) ctx x n, s.ctxAt ctx = some x → x.waitGrid = some n → x.retry = false → exec (.teamPlacement ctx) s = .next s) ∧
  (∀ (s : State) tk x, s.teamAt tk = some x → (x.started = true ∨ s.clock.toNat < x.placedAt.toNat + 64) → exec (.teamStrandsReady tk) s = .next s) ∧
  (∀ (s : State) tk x, s.teamAt tk = some x → x.started = false → x.placedAt.toNat + 64 ≤ s.clock.toNat →
    (s.kernelWindows x = [] → ∃ t, exec (.teamStrandsReady tk) s = .next t ∧ t = { s with teams := t.teams } ∧
      t.teamAt tk = some { x with started := true }) ∧
    (∀ w l, s.kernelWindows x = [w] → (s.coreAt x.core).line tk.ctx w = some l →
      ∃ t, exec (.teamStrandsReady tk) s = .next t ∧ t = { s with teams := t.teams, cores := t.cores } ∧
        t.teamAt tk = some { x with started := true } ∧ (t.coreAt x.core).line tk.ctx w = some l ∧
        (l ∈ (s.coreAt x.core).ibuf → (t.coreAt x.core).ibuf = l :: (s.coreAt x.core).ibuf.erase l)) ∧
    (∀ w y u pa at', s.kernelWindows x = [w] → (s.coreAt x.core).line tk.ctx w = none → w % 32 = 0 →
      (s.modTeam tk fun y => { y with started := true }).translate x.core tk.ctx (BitVec.ofNat 64 w) .fetch = (y, u) → noDevice y = .ok pa at' → pa % 32 = 0 →
      s.ownsPage pa = true → (s.dirAt (pa / 32)).eng = none → (s.dirAt (pa / 32)).uTag = 0 → s.poison.contains (pa / 32) = false →
      ∃ t, exec (.teamStrandsReady tk) s = .next t ∧ t.mem = s.mem ∧ t.teamAt tk = some { x with started := true } ∧
        (t.coreAt x.core).line tk.ctx w = some { asid := tk.ctx, va := w, bits := BitVec.ofNat 256 (leNat (smBytes s.mem pa 32)) })) ∧
  (∀ (s : State) core id e c x, (s.coreAt core).gone.find? (fun y => y.id == id && y.kind == .launch) = some e →
    (s.gangAt e.who.g).launches.find? (fun y => y.entry == some id) = some c → s.ctxAt e.who.ctx = some x →
    s.serialLive e.who.ctx x.serial = false → s.grids.length < 1024 →
    let gid : Word := BitVec.ofNat 32 ((gridDepth e.who.team.grid + 1) * 2 ^ 28 + x.serial)
    ∃ t g, exec (.gridDescriptorWrite core id) s = .next t ∧ t.mem = s.mem ∧ t.grids = s.grids ++ [g] ∧ g.id = gid ∧ g.ctx = e.who.ctx ∧
      g.parent = some e.who.team.grid ∧ g.host = false ∧ g.accepted = s.clock ∧ g.placed = 0 ∧ g.exited = 0 ∧ g.place = c.place ∧
      g.entry = BitVec.ofNat 57 (leNat (c.blk.take 8)) ∧ g.param = BitVec.ofNat 64 (leNat ((c.blk.drop 32).take 8)) ∧
      g.threads = leNat ((c.blk.drop 20).take 2) ∧ t.ctxAt e.who.ctx = some { x with serial := (x.serial + 1) % 2 ^ 28 } ∧
      (resultWrites c.d (laneBit c.lead) (fun _ => gid) ≠ [] → SendsBack s t core e.who (resultWrites c.d (laneBit c.lead) fun _ => gid))) ∧
  (∀ (s : State) tk x, s.teamAt tk = some x → x.preempted = false → (∀ g ∈ s.teamGangs tk, g.live = 0) → s.teamQuiet tk x.core = true →
    s.anyStuck x.core = false →
    ∃ t, exec (.teamExit tk) s = .next t ∧ (∀ y ∈ t.teams, y.key ≠ tk) ∧ (∀ y ∈ t.allGangs, y.team ≠ tk) ∧
      (∀ w v, (t.coreAt x.core).view w = some v → v.st ≠ .dirty) ∧
      (∀ y, s.ctxAt tk.ctx = some y → t.ctxAt tk.ctx = some { y with retry := true }) ∧
      ∀ g ∈ s.grids, g.ctx = tk.ctx → g.id = tk.grid → g.exited + 1 < g.total → { g with exited := g.exited + 1 } ∈ t.grids) ∧
  (∀ (s : State) tk x, s.teamAt tk = some x → ((∃ g ∈ s.teamGangs tk, g.live ≠ 0) ∨ s.anyStuck x.core = true) → exec (.teamExit tk) s = .next s)

/-- R162 to R167, R195, R199, R234, R387, R396: the issue scheduler. Of the ready strands of a partition the first by the key is selected,
or the one that has waited longest for 64 cycles or more, and with it the first whose slice set is disjoint; the oldest ready pending gang
joins an active set with room, or takes the place of the swappable gang in the lowest slot; a sleeper wakes at its cycle, or parks on a
promise not kept; a soft instance completes at its deadline; a fetch window comes from its home. -/
def Obligations.SchedulingResults : Prop :=
  (∀ (s : State) core part busy,
    let free (p : Gang × Nat) : Prop := p ∈ s.readyIn core part ∧ (p.1.key, p.2) ∉ busy
    (s.picks core part busy).length ≤ 2 ∧ (∀ p ∈ s.picks core part busy, free p) ∧
    (∀ a l, s.picks core part busy = a :: l →
      (∀ b ∈ l, (∀ i j, i < 32 → j < 32 → (a.1.strandAt a.2).mask.getLsbD i = true → (b.1.strandAt b.2).mask.getLsbD j = true →
        i / 4 ≠ j / 4) ∧
        ∀ q, free q → (∀ i j, i < 32 → j < 32 → (a.1.strandAt a.2).mask.getLsbD i = true → (q.1.strandAt q.2).mask.getLsbD j = true →
          i / 4 ≠ j / 4) → ¬ s.selKey q.1 q.2 < s.selKey b.1 b.2) ∧
      ((∀ q, free q → (q.1.strandAt q.2).waitCount < 64) → ∀ q, free q → ¬ s.selKey q.1 q.2 < s.selKey a.1 a.2) ∧
      ((∃ q, free q ∧ 64 ≤ (q.1.strandAt q.2).waitCount) →
        ∀ q, free q → (q.1.strandAt q.2).waitCount ≤ (a.1.strandAt a.2).waitCount))) ∧
  (∀ (s : State) core part p, (s.coreAt core).parts[part]? = some p → (∃ q ∈ s.readyIn core part, 64 ≤ (q.1.strandAt q.2).waitCount) →
    ∃ t q, exec (.strandWaitCountExpiry core part) s = .next t ∧ q ∈ s.readyIn core part ∧ 64 ≤ (q.1.strandAt q.2).waitCount ∧
      (∀ r ∈ s.readyIn core part, (r.1.strandAt r.2).waitCount ≤ (q.1.strandAt q.2).waitCount) ∧
      (t.coreAt core).parts[part]? = some { p with forced := some (q.1.key, q.2) } ∧ t = { s with cores := t.cores }) ∧
  (∀ (s : State) core part, (atD (s.coreAt core).parts part Part.empty).swapAt = some s.clock → exec (.gangSwap core part) s = .next s) ∧
  (∀ (s : State) core part, (atD (s.coreAt core).parts part Part.empty).swapAt ≠ some s.clock →
    (∃ g ∈ s.partGangs core part, s.pendingReady g = true) → ((s.partGangs core part).filter (·.active)).length < 8 →
    ∃ g ∈ s.partGangs core part, s.pendingReady g = true ∧
      (∀ h ∈ s.partGangs core part, s.pendingReady h = true → ¬ [h.ageStamp.toNat, h.key.slot] < [g.ageStamp.toNat, g.key.slot]) ∧
      exec (.gangSwap core part) s = .next ((s.modGang g.key (Gang.joined s.clock)).modPart core part fun p => { p with swapAt := some s.clock })) ∧
  (∀ (s : State) core part, (atD (s.coreAt core).parts part Part.empty).swapAt ≠ some s.clock →
    (∃ g ∈ s.partGangs core part, s.pendingReady g = true) → 8 ≤ ((s.partGangs core part).filter (·.active)).length →
    (∃ a ∈ s.partGangs core part, a.active = true ∧ a.swappable = true) →
    ∃ g ∈ s.partGangs core part, s.pendingReady g = true ∧ ∃ a ∈ s.partGangs core part, a.active = true ∧ a.swappable = true ∧
      (∀ b ∈ s.partGangs core part, b.active = true → b.swappable = true → a.key.slot ≤ b.key.slot) ∧
      exec (.gangSwap core part) s =
        .next (((s.modGang a.key fun x => { x with active := false, pendingFor := 0 }).modGang g.key (Gang.joined s.clock)).modPart core part
          fun p => { p with swapAt := some s.clock })) ∧
  (∀ (s : State) core part a, (∃ g ∈ s.partGangs core part, s.pendingReady g = true ∧ 2048 ≤ g.pendingFor) →
    s.lastActive (s.partGangs core part) = some a →
    ∃ g ∈ s.partGangs core part, s.pendingReady g = true ∧ 2048 ≤ g.pendingFor ∧
      exec (.forcedGangSwap core part) s =
        .next (((s.modGang a.key fun x => { x with active := false, pendingFor := 0 }).modGang g.key (Gang.joined s.clock)).modGang
          g.key fun x => { x with broughtIn := some s.clock })) ∧
  (∀ (s : State) k w, s.cur.resident = true → k < s.cur.strands.length → (s.cur.strandAt k).state = .sleeping →
    (s.cur.strandAt k).waitOn = .wake w →
    (s.clock < w → exec (.sleepWake s.cur.key k) s = .next s) ∧
    (w ≤ s.clock → s.promiseOpen s.cur.key w = false → ∃ t, exec (.sleepWake s.cur.key k) s = .next t ∧
      t = { s with cur := { s.cur with strands := t.cur.strands } } ∧ (t.cur.strandAt k).state = s.cur.wakeState k ∧
      (t.cur.strandAt k).wait = WaitFor.empty ∧ (t.cur.strandAt k).waitOn = .none ∧ (t.cur.strandAt k).notBefore = s.clock + 2) ∧
    (w ≤ s.clock → s.promiseOpen s.cur.key w = true → ∃ t, exec (.sleepWake s.cur.key k) s = .next t ∧
      t = { s with cur := { s.cur with strands := t.cur.strands } } ∧ (t.cur.strandAt k).state = .faultParked ∧
      (t.cur.strandAt k).waitOn = .promise w)) ∧
  (∀ (s : State) tk (n : Fin 16) x b, s.teamAt tk = some x → x.preempted = false → x.bars[n.val]? = some b → b.kind = .soft → b.deadline ≠ 0 → b.deadline ≤ s.clock →
    ∃ t, exec (.softBarrierDeadline tk n) s = .next t ∧ t.mem = s.mem ∧
      t.barAt tk n.val = { b with inst := b.inst + 1, arrived := 0, count := 0, kind := .idle }) ∧
  (∀ (s : State) core asid va x u pa at', s.translate core asid (BitVec.ofNat 64 (va / 32 * 32)) .fetch = (x, u) → noDevice x = .ok pa at' →
    pa % 32 = 0 → s.ownsPage pa = true → (s.dirAt (pa / 32)).eng = none → (s.dirAt (pa / 32)).uTag = 0 → s.poison.contains (pa / 32) = false →
    ∃ t, exec (.instructionFetch core asid va) s = .next t ∧ t.mem = s.mem ∧
      (t.coreAt core).line asid va = some { asid := asid, va := va / 32 * 32, bits := BitVec.ofNat 256 (leNat (smBytes s.mem pa 32)) }) ∧
  (∀ (s : State) core asid va x u c k kind, s.translate core asid (BitVec.ofNat 64 (va / 32 * 32)) .fetch = (x, u) →
    (noDevice x = .fault c ∧ c ≤ 4 ∧ kind = 0) ∨ (c = 9 ∧ kind = 2 ∧ ∃ pa at', noDevice x = .ok pa at' ∧ s.ownsPage pa = true ∧
      (s.dirAt (pa / 32)).eng = none ∧ (s.dirAt (pa / 32)).uTag = 0 ∧ s.poison.contains (pa / 32) = true) →
    s.cur.resident = true → k < s.cur.strands.length → s.fetchers core asid va = [(s.cur.key, k)] → s.faultQ.length < 4096 →
    s.pendRecs = [] →
    ∃ (t : State) (r : FRec) (m : Nat), exec (.instructionFetch core asid va) s = .next t ∧ t.mem = s.mem ∧
      m ≤ ofCycle s.clock s.recAt s.faultQ ∧
      t.faultQ = putBefore s.faultQ m { r with w7 := s.faultSeq - BitVec.ofNat 32 m } (fun y => { y with w7 := y.w7 + 1 }) ∧
      r.w0 = recWord0 s.cur.key 3 c ∧ r.w23 = (s.cur.strandAt k).pc.setWidth 64 ∧ r.w6 = (s.cur.strandAt k).mask ∧
      (kind = 0 → t.elog = s.elog ∧ (t.cur.strandAt k).state = .faultParked ∧
        (t.cur.strandAt k).faultVa = (s.cur.strandAt k).pc.setWidth 64) ∧
      (kind = 2 → t.cur.trapParked = true ∧ ∃ e, t.elog.getLast? = some e ∧ e.kind = 2))

/-! ### Debug sessions and sampling (R188, R205 to R207, R326, R408, R412) -/

/-- R205 to R207, R228, R229, R326, R408: what a session that holds a context's right does: it halts and resumes gangs, stops a partition
and takes its dump, resumes it, writes registers, predicates, masks, PCs, slots of the strand and fork tables and memory, sets a breakpoint
(BKPT 0xFF over the instruction) and steps a strand. Without the right, on an
empty partition, and in a session that is closed the request is refused with status 1 (R457). A read gives what stands there and changes
nothing else (R422). The refusals, and a page another device owns being asked for first, are the model's choice (log entry 125).
That a breakpoint drops the lines that hold it is the model's reading (log entry 45). -/
def Sys2Proof.Machine.Claims.DebugResults : Prop :=
  (∀ (s : State) x, s.cur.resident = true → s.ctxAt s.cur.team.ctx = some x → x.debug ≠ 0 → (∀ g ∈ s.gangs, g.key ≠ s.cur.key) →
    (∀ y ∈ s.teams, y.saved = []) →
    (s.cur.halted = false → ∃ t, exec (.debugHalt ⟨s.cur.key, s.cur.team⟩) s = .next t ∧
      t = { s with cur := { s.cur with halted := true }, ctxs := t.ctxs } ∧
      t.ctxAt s.cur.team.ctx = some { x with haltOrder := x.haltOrder ++ [(s.cur.key, s.cur.team)] }) ∧
    (s.cur.halted = true → ∃ t, exec (.debugResume ⟨s.cur.key, s.cur.team⟩) s = .next t ∧ t.cur.halted = false ∧ t.mem = s.mem ∧
      (∀ g ∈ t.ctxs, g.num = s.cur.team.ctx → (s.cur.key, s.cur.team) ∉ g.haltOrder) ∧ SameData s t) ∧
    (s.cur.halted = true → ∀ k, exec (.debugStep s.cur.key k) s = .next { s with stepping := some (s.cur.key, k) }) ∧
    (∀ core part p, s.partGangs core part = [s.cur] → (s.coreAt core).parts[part]? = some p → s.cur.halted = false →
      ∃ t d, exec (.debugPartitionStop core part) s = .next t ∧ t.cur = { s.cur with halted := true } ∧ t.mem = s.mem ∧
        (t.coreAt core).parts[part]? = some { p with stopped := some s.cur.team.ctx } ∧ t.dumps = s.dumps ++ [d] ∧ d.core = core ∧
        d.part = part ∧ d.gangs = [s.cur] ∧ d.blocks = (s.coreAt core).blocks ∧ d.ub = (s.coreAt core).ub ∧
        d.entries = (s.coreAt core).sq.filter fun e => e.who.g.part == part) ∧
    (∀ core part p, s.partGangs core part = [s.cur] → (s.coreAt core).parts[part]? = some p → p.stopped = some s.cur.team.ctx →
      ∃ t, exec (.debugPartitionResume core part) s = .next t ∧ t.mem = s.mem ∧ SameData s t ∧
        ((s.cur.key, s.cur.team) ∈ x.haltOrder → t.cur.halted = false) ∧
        (t.coreAt core).parts[part]? = some { p with stopped := none }) ∧
    (∀ n l y, n < s.cur.nregs → l < 32 → ∃ t, exec (.debugWriteState ⟨s.cur.key, s.cur.team⟩ (.v n l y)) s = .next t ∧
      t = { s with cur := { s.cur with v := t.cur.v } } ∧
      ∀ k j, j < 32 → t.cur.vr k j = if k = n ∧ j = l then y else s.cur.vr k j) ∧
    (∀ n y, n < 63 → ∃ t, exec (.debugWriteState ⟨s.cur.key, s.cur.team⟩ (.s n y)) s = .next t ∧ t = { s with cur := { s.cur with s := t.cur.s } } ∧
      ∀ k, smGet t.cur.s k = if k = n then y else smGet s.cur.s k) ∧
    (∀ n l y, n < 47 → l < 32 → ∃ t, exec (.debugWriteState ⟨s.cur.key, s.cur.team⟩ (.p n l y)) s = .next t ∧
      t = { s with cur := { s.cur with p := t.cur.p } } ∧
      ∀ k j, j < 32 → (t.cur.pmask k).getLsbD j = if k = n ∧ j = l then y else (s.cur.pmask k).getLsbD j) ∧
    (∀ k y, k < s.cur.strands.length → (s.cur.strandAt k).valid = true → ∃ t, exec (.debugWriteState ⟨s.cur.key, s.cur.team⟩ (.pc k y)) s = .next t ∧
      t = { s with cur := { s.cur with strands := t.cur.strands } } ∧ t.cur.strandAt k = { s.cur.strandAt k with pc := y } ∧
      ∀ j, j ≠ k → t.cur.strandAt j = s.cur.strandAt j) ∧
    (∀ n y, n < 12 → ∃ t, exec (.debugWriteState ⟨s.cur.key, s.cur.team⟩ (.m n y)) s = .next t ∧ SameData s t ∧ t.mem = s.mem ∧
      ∀ k, smGet t.cur.m k = if k = n then y &&& s.cur.live else smGet s.cur.m k) ∧
    (∀ n (y : BitVec 640), n < s.cur.strands.length → ∃ t, exec (.debugWriteState ⟨s.cur.key, s.cur.team⟩ (.strand n y)) s = .next t ∧
      t = { s with cur := { s.cur with strands := t.cur.strands } } ∧ (∀ j, j ≠ n → t.cur.strandAt j = s.cur.strandAt j) ∧
      (t.cur.strandAt n).valid = y.getLsbD 0 ∧ (t.cur.strandAt n).pc = y.extractLsb' 1 57 ∧ (t.cur.strandAt n).mask = y.extractLsb' 58 32 ∧
      (t.cur.strandAt n).rank = y.extractLsb' 90 4 ∧ (t.cur.strandAt n).mdone = y.extractLsb' 631 8 ∧
      ∀ f, f < 8 → smGet (t.cur.strandAt n).coll f = y.extractLsb' (103 + 66 * f) 66) ∧
    (∀ n (y : BitVec 576), n < s.cur.forks.length → ∃ t, exec (.debugWriteState ⟨s.cur.key, s.cur.team⟩ (.fork n y)) s = .next t ∧
      t = { s with cur := { s.cur with forks := t.cur.forks } } ∧ (∀ j, j ≠ n → t.cur.forkAt j = s.cur.forkAt j) ∧
      (t.cur.forkAt n).busy = y.getLsbD 0 ∧ (t.cur.forkAt n).tmask = y.extractLsb' 1 32 ∧ (t.cur.forkAt n).fmask = y.extractLsb' 33 32 ∧
      (t.cur.forkAt n).tpub = y.extractLsb' 86 239 ∧ (t.cur.forkAt n).fpub = y.extractLsb' 325 239) ∧
    (∀ va y z u pa at', s.translate s.cur.key.core s.cur.team.ctx (BitVec.ofNat 64 va) .read = (z, u) → noDevice z = .ok pa at' →
      s.ownsPage pa = true → (s.dirAt (pa / 32)).uTag = 0 → (s.dirAt (pa / 32)).owners = [] →
      ∃ t, exec (.debugWriteState ⟨s.cur.key, s.cur.team⟩ (.mem va y)) s = .next t ∧
        ∀ a, smGet t.mem a = if a = pa then y else smGet s.mem a)) ∧
  (∀ (s : State) ctx x va pa, s.ctxAt ctx = some x → x.debug ≠ 0 → s.codePa ctx va = some pa → s.ownsPage pa = true → (∀ b ∈ x.breaks, b.va ≠ va) →
    (∀ c, (s.dirAt c).uTag = 0 ∧ (s.dirAt c).owners = []) →
    ∃ t, exec (.debugSetBreakpoint ctx va true) s = .next t ∧
      (∀ a, smGet t.mem a = if pa ≤ a ∧ a < pa + 8 then bkptBytes.getD (a - pa) 0 else smGet s.mem a) ∧
      t.ctxAt ctx = some { x with breaks := x.breaks ++ [{ va := va, old := smDWord s.mem pa }] } ∧
      ∀ c ∈ t.cores, ∀ l ∈ c.ibuf, l.asid = ctx → ¬ (l.va < va + 8 ∧ va < l.va + 32)) ∧
  (∀ (s : State) ctx x va pa, s.ctxAt ctx = some x → x.debug ≠ 0 → s.codePa ctx va = some pa →
    s.dbgRead (.home ctx va 1) = .next { s with hostReads := s.hostReads ++ [[smGet s.mem pa]] } ∧
    ((∀ b ∈ x.breaks, b.va ≠ va) → s.ownsPage pa = false → exec (.debugSetBreakpoint ctx va true) s = .next (s.wantPage pa))) ∧
  (∀ (s : State) x n l, s.cur.resident = true → s.ctxAt s.cur.team.ctx = some x → x.debug ≠ 0 →
    s.dbgRead (.v s.cur.key s.cur.team n l) = .next { s with hostReads := s.hostReads ++ [leBytes (s.cur.vr n l).toNat 4] }) ∧
  (∀ (s : State) x, s.cur.resident = true → s.ctxAt s.cur.team.ctx = some x → x.debug = 0 →
    let refused : State := { s with dbgAnswers := s.dbgAnswers ++ [1] }
    exec (.debugHalt ⟨s.cur.key, s.cur.team⟩) s = .next refused ∧ exec (.debugResume ⟨s.cur.key, s.cur.team⟩) s = .next refused ∧
    (∀ k, exec (.debugStep s.cur.key k) s = .next refused) ∧ (∀ w, exec (.debugWriteState ⟨s.cur.key, s.cur.team⟩ w) s = .next refused) ∧
    (∀ va on, exec (.debugSetBreakpoint s.cur.team.ctx va on) s = .next refused) ∧
    ∀ core part p, (s.coreAt core).parts[part]? = some p →
      (s.cur ∈ s.partGangs core part ∨ s.partGangs core part = [] → exec (.debugPartitionStop core part) s = .next refused) ∧
      (p.stopped = some s.cur.team.ctx → exec (.debugPartitionResume core part) s = .next refused))

/-- R412: a due sample of a partition goes to the next resident gang of its context in slot order after the last sampled; its record is
written at the pointer, which moves by 16 bytes, or is discarded and counted where the buffer is full. On a page another device owns the record
keeps its place and is written once this device owns the page; what has no translation is discarded (the model's choice, log entry 126). -/
def Sys2Proof.Machine.Claims.SampleResults : Prop :=
  (∀ (s : State) core part p x g base limit, (s.coreAt core).parts[part]? = some p → p.samp = [x] → x.late = [] → x.running = true ∨ x.stopAt = some s.clock →
    x.seen ≠ s.clock → (s.clock.toNat - x.start.toNat) % x.period = 0 → (s.ctxAt x.ctx).bind (·.sbuf) = some (base, limit) →
    ((List.range 16).map fun k => (x.last + 1 + k) % 16).findSome?
      (fun n => ((s.partGangs core part).filter fun g => g.team.ctx == x.ctx).find? fun g => g.key.slot == n) = some g →
    (base + limit < x.ptr + 16 → ∃ t, exec (.sample core part) s = .next t ∧ t.mem = s.mem ∧
      (t.coreAt core).parts[part]? = some { p with
        samp := [{ x with last := g.key.slot, seen := s.clock, drop := (if x.drop = 0xFFFFFFFF#32 then x.drop else x.drop + 1) }] }) ∧
    (x.ptr + 16 ≤ base + limit → ∀ y u pa at', s.translate core x.ctx (BitVec.ofNat 64 x.ptr) .write = (y, u) → noDevice y = .ok pa at' →
      (s.ownsPage pa = true → (∀ c, (s.dirAt c).uTag = 0 ∧ (s.dirAt c).owners = []) →
        ∃ t, exec (.sample core part) s = .next t ∧
          (t.coreAt core).parts[part]? = some { p with samp := [{ x with last := g.key.slot, seen := s.clock, ptr := x.ptr + 16 }] } ∧
          (∀ a, (a < pa ∨ pa + 16 ≤ a) → smGet t.mem a = smGet s.mem a) ∧
          leNat (smBytes t.mem pa 4) = s.clock.toNat % 2 ^ 32 ∧
          leNat (smBytes t.mem (pa + 8) 8) = (s.sampled g).2.2.toNat) ∧
      (s.ownsPage pa = false → ∃ t bs, exec (.sample core part) s = .next t ∧ t.mem = s.mem ∧ bs.length = 16 ∧
        leNat (bs.take 4) = s.clock.toNat % 2 ^ 32 ∧ leNat (bs.drop 8) = (s.sampled g).2.2.toNat ∧
        (t.coreAt core).parts[part]? =
          some { p with samp := [{ x with last := g.key.slot, seen := s.clock, ptr := x.ptr + 16, late := [(pa, bs)] }] }))) ∧
  (∀ (s : State) core part p x pa (bs : List Byte), (s.coreAt core).parts[part]? = some p → p.samp = [x] → x.running = false → x.stopAt = none →
    x.late = [(pa, bs)] → s.ownsPage pa = true → (∀ c, (s.dirAt c).uTag = 0 ∧ (s.dirAt c).owners = []) →
    ∃ t, exec (.sample core part) s = .next t ∧ (t.coreAt core).parts[part]? = some { p with samp := [{ x with late := [] }] } ∧
      ∀ a, smGet t.mem a = if pa ≤ a ∧ a < pa + bs.length then bs.getD (a - pa) 0 else smGet s.mem a)

/-- The debug unit and the stall sampler. -/
def Obligations.DebugAndSampleResults : Prop :=
  Claims.DebugResults ∧ Claims.SampleResults


/-! ### Pages between devices, links, shootdowns (R90, R149 to R153, R197 to R199, R204, R208, R447, R448) -/

/-- A transaction to a device is one more that is ready to leave (R447, R448). -/
def Sys2Proof.Machine.Departs (s t : State) (dev : Nat) (b : FlitBody) : Prop :=
  t.outbox = s.outbox ++ [{ dev := dev, body := b, left := flitsOf b, link := none }]

/-- No core of this device owns a word of a page, holds one dirty or has released one, and it is not being given up. -/
structure Sys2Proof.Machine.Still (s : State) (page : Nat) : Prop where
  owned : ∀ d ∈ s.dirs, d.sector / 2048 ≠ page
  clean : ∀ c ∈ s.cores, ∀ w ∈ c.wordsIn .dirty, w / 16384 ≠ page
  released : ∀ r ∈ s.rel, r.word / 16384 ≠ page
  given : s.giving.find? (fun g => g.1 == page) = none

/-- R90, R131, R149 to R153: page ownership. The request that waits first makes the page's STATE 2, and an owner that is another device is asked for
the page; this device gives up a page with no dirty word left, no copy of it staying in any core, once the writes of its drain have been received and
no engine has a word of it still to write (the model's choice, log entry 130), and
the page is sent with its bytes to the device that waits: STATE and OWNER name that once it has taken it, the transfer counted; one homed
elsewhere goes back with its bytes. A forwarded operation is placed on the ORN by its home slice, those on one page one after the other, is
performed at its point, and its old value goes back. -/
def Obligations.PageOwnershipResults : Prop :=
  (∀ (s : State) page dev, s.pageWaits.find? (fun w => w.1 == page) = some (page, dev) → (s.pageDirAt page).st ≠ 2 → (s.pageDirAt page).owner ≠ dev →
    ∃ t, exec (.pageOwnershipRequest page dev) s = .next t ∧ t = { s with pageDirs := t.pageDirs, outbox := t.outbox } ∧
      t.pageDirAt page = { s.pageDirAt page with st := 2 } ∧
      ((s.pageDirAt page).owner = s.devNum → t.outbox = s.outbox) ∧
      ((s.pageDirAt page).owner ≠ s.devNum → Departs s t (s.pageDirAt page).owner (.pageRecall page))) ∧
  (∀ (s : State) page dev, isRemote (page * 65536) = false → (s.pageDirAt page).st = 2 → (s.pageDirAt page).owner = s.devNum →
    (s.pageDirAt page).granted = none → dev ≠ s.devNum → s.pageWaits.find? (fun w => w.1 == page) = some (page, dev) → Still s page →
    ∃ t, exec (.pageGiveUp page) s = .next t ∧ t.mem = s.mem ∧ (∀ n w v, (t.coreAt n).view w = some v → w / 16384 ≠ page) ∧
      t.pageDirAt page = { s.pageDirAt page with granted := some dev } ∧ (∀ g ∈ t.giving, g.1 ≠ page) ∧
      Departs s t dev (.pageGrant page (s.pageBytes page))) ∧
  (∀ (s : State) page, isRemote (page * 65536) = true → page ∈ s.pageRecalls → page ∈ s.ownedRemote → Still s page →
    ∃ t, exec (.pageGiveUp page) s = .next t ∧ page ∉ t.ownedRemote ∧ page ∉ t.pageRecalls ∧
      (∀ n w v, (t.coreAt n).view w = some v → w / 16384 ≠ page) ∧
      (∀ a, smGet t.mem a = if a / 65536 = page then 0 else smGet s.mem a) ∧
      Departs s t (devOf (page * 65536)) (.pageReturn (page % 2 ^ 26) (s.pageBytes page))) ∧
  (∀ (s : State) page id ids, s.giving.find? (fun g => g.1 == page) = some (page, id :: ids) → exec (.pageGiveUp page) s = .next s) ∧
  (∀ (s : State) page, (∃ d ∈ s.dirs, d.sector / 2048 = page ∧ d.eng.isSome) → exec (.pageGiveUp page) s = .next s) ∧
  (∀ (s : State) page dev bs, (s.pageDirAt page).owner = dev → (s.pageDirAt page).st = 2 → (s.pageDirAt page).granted = none → ∀ next, next ≠ s.devNum →
    s.pageWaits.find? (fun w => w.1 == page) = some (page, next) →
    Departs s (s.takeFlit dev (.pageReturn page bs)) next (.pageGrant page ((s.putPage page bs).pageBytes page))) ∧
  (∀ (s : State) page dev, dev ≠ s.devNum → (s.pageDirAt page).granted = some dev →
    (s.takeFlit dev (.pageGained page)).pageDirAt page =
      { page := (s.pageDirAt page).page, st := 1, owner := dev, relrec := false, xfer := ((s.pageDirAt page).xfer + 1) % 2 ^ 20 }) ∧
  (∀ (s : State) page dev k (x : Byte), k < 65536 → let p := (512 + dev) * 2 ^ 26 + page
    Still s p → let t := s.takeFlit dev (.pageGrant page [(k, x)])
    p ∈ t.ownedRemote ∧ p ∉ t.pageAsked ∧ Departs s t dev (.pageGained page) ∧
      ∀ a, smGet t.mem a = if a = p * 65536 + k then x else if a / 65536 = p then 0 else smGet s.mem a) ∧
  (∀ (s : State) page dev, let p := (512 + dev) * 2 ^ 26 + page
    (p ∈ s.ownedRemote ∨ p ∈ s.pageAsked) → s.takeFlit dev (.pageRecall page) = { s with pageRecalls := s.pageRecalls ++ [p] }) ∧
  (∀ (s : State) o rest, (∀ r ∈ s.orn, ∀ id dev op, r.kind ≠ .remote id dev op) → s.remoteOps = o :: rest →
    (∀ r ∈ s.ornWait, r.sector * 32 / 65536 = o.pa / 65536 → ∀ id dev op, r.kind ≠ .remote id dev op) →
    let home := homeOf { Attr.none with pin := o.pin } o.pa
    ∃ t r, exec .forwardedAtomic s = .next t ∧
      t = { s with remoteOps := rest, ornWait := s.ornWait ++ [r], nextId := s.nextId + 1 } ∧ r.kind = .remote o.id o.dev o.op ∧
      r.sector = o.pa / 32 ∧ r.order = o.order ∧ r.clock = s.clock ∧ r.entered = none ∧ (r.die, r.pos) = (home / 64, home % 64) ∧
      r.accs.map (fun a => (a.pa, a.x, a.y)) = [(o.pa, o.x, o.y)]) ∧
  (∀ (s : State), (∀ r ∈ s.orn, ∀ id dev op, r.kind ≠ .remote id dev op) →
    (∀ o ∈ s.remoteOps, ∃ r ∈ s.ornWait, r.sector * 32 / 65536 = o.pa / 65536 ∧ ∃ id dev op, r.kind = .remote id dev op) →
    exec .forwardedAtomic s = .next s) ∧
  (∀ (s : State) r id dev op a, s.orn.find? (fun x => match x.kind with | .remote .. => true | _ => false) = some r → AtHome s r.id r →
    r.kind = .remote id dev op → r.accs = [a] →
    (∀ w ∈ a.words, s.ownerOf w = none ∧ (r.order = .acq ∨ r.order = .ar → ∀ y ∈ s.rel, y.word ≠ w)) →
    let old := BitVec.ofNat 64 (leNat (smBytes s.mem a.pa a.size))
    ∃ t, exec .forwardedAtomic s = .next t ∧ (∀ y ∈ t.orn, y.id ≠ r.id) ∧ Departs s t dev (.atomicReply id old) ∧
      ∀ b, smGet t.mem b =
        if a.pa ≤ b ∧ b < a.pa + a.size then (leBytes (aluNew op old a.x a.y).toNat a.size).getD (b - a.pa) 0 else smGet s.mem b)

/-- R197 to R199, R204, R208, R447, R448: a shootdown with nothing left to wait for completes and its kind-2 record joins the log, lines of
its range gone where execution was taken away; a flit of a domain member that passes its CRC is delivered, one from outside is counted and
discarded, one that fails its CRC has no effect; one in transit is passed on along at most four links; a write to a home is confirmed; what is
ready leaves on a link that has buffers for it (which channel a transaction travels in, and its flits, are the model's choice, log entry 127);
links train, lose lanes and count replays; a route changes once nothing is in flight. -/
def Obligations.ShootdownAndLinkResults : Prop :=
  (∀ (s : State) h rest, s.shoots = h :: rest → s.shootDone h = true → s.tlog.length < 65536 →
    ∃ (t : State) (r : TLog), exec .shootdownComplete s = .next t ∧ t.shoots = rest ∧ t.tlog = s.tlog ++ [r] ∧ t.tlogSeq = s.tlogSeq + 1 ∧
      r.kind = 2 ∧ r.ctx = h.ctx ∧ r.va = h.va ∧ r.len = h.len ∧ r.start = h.start ∧ r.fin = s.clock ∧ r.stalled = h.stalled ∧
      r.seq = s.tlogSeq ∧ r.cores = ((List.range 256).filter fun c => h.cores.getLsbD c).length ∧ t.mem = s.mem ∧
      (h.xRemoved = true → ∀ c ∈ t.cores, h.cores.getLsbD c.num = true → ∀ l ∈ c.ibuf, l.asid = h.asid →
        ¬ (h.va < l.va + 32 ∧ l.va < h.va + h.len))) ∧
  (∀ (s : State) h rest, s.shoots = h :: rest → s.shootDone h = false → exec .shootdownComplete s = .next s) ∧
  (∀ s (f : Flit), s.linkUp f.link = true → f.crcOk = true → f.domain = s.domain → f.dev < 320 → s.members.getLsbD f.dev = true →
    (∀ page, f.body = .pageRequest page → exec (.flitReceive f) s = .next { s with pageWaits := s.pageWaits ++ [(page, f.dev)] }) ∧
    (∀ id pa pin op x y o, f.body = .forwarded id pa pin op x y o → exec (.flitReceive f) s =
      .next { s with remoteOps := s.remoteOps ++ [{ id := id, dev := f.dev, pa := pa % 2 ^ 42, op := op, x := x, y := y, order := o, pin := pin }] }) ∧
    (∀ id pa bs, f.body = .homeWrite id pa bs → (s.pageDirAt (pa / 65536)).owner = f.dev → ∃ t, exec (.flitReceive f) s = .next t ∧
      t.cur = s.cur ∧ t.gangs = s.gangs ∧ Departs s t f.dev (.homeWritten id) ∧
      ∀ a, smGet t.mem a = if pa ≤ a ∧ a < pa + bs.length then bs.getD (a - pa) 0 else smGet s.mem a) ∧
    (∀ id, f.body = .homeWritten id → exec (.flitReceive f) s =
      .next { s with giving := s.giving.map fun g => (g.1, g.2.filter (· != id)) }) ∧
    (∀ b, (∀ src dst n c, b ≠ .through src dst n c) → f.body = b → exec (.flitReceive f) s = .next (s.takeFlit f.dev b)) ∧
    (∀ src dst n b, f.body = .through src dst n b → src < 320 → s.members.getLsbD src = true →
      (dst = s.devNum → exec (.flitReceive f) s = .next (s.takeFlit src b)) ∧
      (dst ≠ s.devNum → n < 4 → (s.routeTo dst).isSome = true →
        ∃ t, exec (.flitReceive f) s = .next t ∧ t = { s with outbox := t.outbox } ∧ Departs s t dst (.through src dst (n + 1) b)) ∧
      (dst ≠ s.devNum → 4 ≤ n ∨ s.routeTo dst = none → exec (.flitReceive f) s = .next s)) ∧
    (∀ id old w, f.body = .atomicReply id old → s.fwd.find? (fun x => x.id == id && x.dev == f.dev) = some w → w.entry = none →
      let ws := loadWrites w.who w.dst w.ty [(w.acc, leBytes old.toNat w.acc.size)]
      ∃ t, exec (.flitReceive f) s = .next t ∧ t.mem = s.mem ∧ (∀ x ∈ t.fwd, x.id ≠ id) ∧ (ws ≠ [] → SendsBack s t w.core w.who ws))) ∧
  (∀ s (f : Flit) l, s.links[f.link]? = some l → s.linkUp f.link = true → f.crcOk = true → (f.domain ≠ s.domain ∨ s.members.getLsbD f.dev = false ∨
      ∃ src dst n b, f.body = .through src dst n b ∧ s.members.getLsbD src = false) →
    ∃ t, exec (.flitReceive f) s = .next t ∧ t = { s with links := t.links } ∧
      t.links[f.link]? = some { l with tdrop := if l.tdrop = 0xFFFF#16 then l.tdrop else l.tdrop + 1 }) ∧
  (∀ s (f : Flit), f.crcOk = false → exec (.flitReceive f) s = .next s) ∧
  (∀ (s : State) k l, s.links[k]? = some l → s.linkUp k = true →
    (l.kept = [] → exec (.flitReplay k) s = .next s) ∧
    (l.kept ≠ [] → ∃ t, exec (.flitReplay k) s = .next t ∧ t = { s with links := t.links } ∧
      t.links[k]? = some { l with replay := if l.replay = 0xFFFFFFFF#32 then l.replay else l.replay + 1 }) ∧
    (∀ n, n < 4 → ∃ t, exec (.linkLaneFailure k n) s = .next t ∧ t = { s with links := t.links } ∧
      t.links[k]? = some { l with lanes := 0, state := 0 }) ∧
    (∀ n, 4 ≤ n → n < l.lanes → ∃ t, exec (.linkLaneFailure k n) s = .next t ∧ t = { s with links := t.links } ∧
      t.links[k]? = some { l with lanes := 4, state := 3 })) ∧
  (∀ (s : State) k l peer, s.links[k]? = some l → s.linkUp k = false → peer < 320 →
    (s.service = .full → ∃ t, exec (.linkTraining k peer) s = .next t ∧ t = { s with links := t.links } ∧
      t.links[k]? = some { l with peer := peer, lanes := 8, state := 2, reqFree := 64, dataFree := 128, kept := [] }) ∧
    (s.service ≠ .full → exec (.linkTraining k peer) s = .next s)) ∧
  (∀ (s : State) o k l, s.outbox = [o] → o.link = none → s.routeTo o.dev = some k → s.links[k]? = some l → l.peer = o.dev →
    (∀ src dst n b, o.body ≠ .through src dst n b) →
    let n := flitsOf o.body
    (isDataFlit o.body = true → n ≤ l.dataFree → ∃ m, s.sendOut = { s with outbox := [], links := m, sent := s.sent ++ [⟨k, o.dev, o.body⟩] } ∧
      (m[k]?).map (fun x => (x.dataFree, x.reqFree)) = some (l.dataFree - n, l.reqFree)) ∧
    (isDataFlit o.body = false → n ≤ l.reqFree → ∃ m, s.sendOut = { s with outbox := [], links := m, sent := s.sent ++ [⟨k, o.dev, o.body⟩] } ∧
      (m[k]?).map (fun x => (x.dataFree, x.reqFree)) = some (l.dataFree, l.reqFree - n)) ∧
    (isDataFlit o.body = false → l.reqFree = 0 → (s.sendOut).sent = s.sent ∧ (s.sendOut).outbox.map (·.body) = [o.body])) ∧
  (∀ (s : State) o, s.outbox = [o] → o.link = none → s.routeTo o.dev = none → s.sendOut = s) ∧
  (∀ (s : State) dev mask, dev < s.routes.length →
    (s.inFlightTo dev = false → ∃ t, exec (.routeRewrite dev mask) s = .next t ∧ t = { s with routes := t.routes } ∧
      t.routes[dev]? = some mask ∧ ∀ k, k ≠ dev → t.routes[k]? = s.routes[k]?) ∧
    (s.inFlightTo dev = true → exec (.routeRewrite dev mask) s = .next s))

/-! ### Recovery (R185 to R191, R213 to R231, R424 to R430) -/

/-- R213, R220, R222, R224, R430: Grotto takes the oldest record it has not read. Where its page now permits the access, the resume
command comes in the same cycle; a breakpoint of a session's context halts the gang and it is trap parked no more; a TRAP with no
lazy-binding code goes to the owner as an event of kind 5; a cause with no recovery ends the gang, with its final record; of a held page the owner gets a copy, and the strand stays (R424); a deferred one joins
the repair queue (R426). The cycle of the resume, and that the breakpoint's park ends as the gang is halted, are the model's reading (log entries 50, 52). -/
def Sys2Proof.Machine.Claims.FaultAnswerResults : Prop :=
  ∀ s d x, s.grottoUp = true → s.todo = [d] → d.taken = false → d.done = false → d.copy = false → d.store = false → d.due = none → s.pendRecs = [] → s.cur.resident = true →
    s.cur.live ≠ 0 → d.g = s.cur.key → d.team = s.cur.team → s.ctxAt d.team.ctx = some x →
    let cause := (d.fr.w0.extractLsb' 0 8).toNat
    (∀ p pte pa at', 1 ≤ cause → cause ≤ 4 → s.ofWindow d = false → s.keptPage d.team.ctx d.fr.w23.toNat = false →
      d.fr.w23.toNat < 2 ^ 57 → isRemote pa = false →
      s.pageAt x d.fr.w23.toNat = some (p, pte) → (pteCow pte = false ∨ d.want ≠ .write) →
      checkPte (some x) { asid := x.num, va := p.va, size := p.size, pte := pte } d.want d.fr.w23.toNat = .ok pa at' →
      ∃ t, exec .grottoFaultAnswer s = .next t ∧ t.todo = [{ d with taken := true, due := some s.clock }] ∧ t.faultQ = s.faultQ.tail ∧
        t = { s with todo := t.todo, faultQ := t.faultQ }) ∧
    (∀ q ∈ x.held ++ x.deferred, q.has d.fr.w23.toNat = true → 1 ≤ cause → cause ≤ 4 → s.ofWindow d = false →
      ∃ t y, exec .grottoFaultAnswer s = .next t ∧ t.todo = [{ d with taken := true }] ∧ t.faultQ = s.faultQ.tail ∧ t.cur = s.cur ∧ t.mem = s.mem ∧
        t.ctxAt d.team.ctx = some y ∧ y = { x with
          waiting := x.waiting ++ [{ kind := 1, seq := x.eventSeq, clock := 0, fr := d.fr, g := d.g, strand := d.strand, team := d.team }]
          eventSeq := x.eventSeq + 1 } ∧
        (x.held.any (·.has d.fr.w23.toNat) = true → t.repairs = s.repairs) ∧
        (x.held = [] → x.deferred = [q] → s.repairs = [] → t.repairs = [{ ctx := x.num, page := q, cow := false }])) ∧
    (cause = 0x17 → x.debug ≠ 0 → ∃ t, exec .grottoFaultAnswer s = .next t ∧ t.todo = [] ∧ t.cur.halted = true ∧
      t.cur.trapParked = false ∧ t.faultQ = s.faultQ.tail ∧ t.mem = s.mem ∧ SameData s t) ∧
    (cause = 0x16 → d.fr.w23.getLsbD 31 = false → ∃ t y, exec .grottoFaultAnswer s = .next t ∧ t.todo = [{ d with taken := true }] ∧
      t.faultQ = s.faultQ.tail ∧ t.cur = s.cur ∧ t.mem = s.mem ∧ t.ctxAt d.team.ctx = some y ∧
      y = { x with
        waiting := x.waiting ++ [{ kind := 5, seq := x.eventSeq, clock := 0, fr := d.fr, g := d.g, strand := d.strand, team := d.team }]
        eventSeq := x.eventSeq + 1 }) ∧
    (cause ∈ [0x05, 0x09, 0x10, 0x11, 0x12, 0x13, 0x14, 0x15] → (∀ b, (s.teamAt d.team) = some b → b.preempted = false) →
      ∃ t y, exec .grottoFaultAnswer s = .next t ∧ t.todo = [] ∧ t.cur.live = 0 ∧ t.cur.key = s.cur.key ∧ t.faultQ = s.faultQ.tail ∧
        (∀ k, (t.cur.strandAt k).valid = false) ∧ t.ctxAt d.team.ctx = some y ∧
        y.waiting = x.waiting ++ [{ kind := 4, seq := x.eventSeq, clock := 0, fr := d.fr, g := d.g, strand := d.strand, team := d.team }])

/-- A record waits for the page of a repair, and has had no answer (R430). -/
structure Sys2Proof.Machine.Waits (r : Repair) (d : Todo) : Prop where
  fault : d.ofPage = true
  unanswered : d.done = false
  due : d.due = none
  ctx : d.team.ctx = r.ctx
  page : r.page.has d.fr.w23.toNat = true

/-- R188, R220, R222, R424, R426, R427: a deferred page is mapped when its repair comes, with the frame it had where that is kept, and what waits
for it is resumed from the next cycle on, one record in a cycle (log entries 50, 52 and 124: the model's reading); a page held by then is left to its
owner; a lazy-binding stub becomes a branch to its address and its gang goes on. -/
def Sys2Proof.Machine.Claims.RepairResults : Prop :=
  (∀ (s : State) r rest x pa, s.grottoUp = true → s.repairs = r :: rest → s.ctxAt r.ctx = some x → r.page ∈ x.deferred → r.page ∉ x.held →
    r.page.size = 4096 → entryAt s.mem r.page.va 0 4 (x.root * 4096) = some pa → (∀ c, (s.dirAt c).uTag = 0 ∧ (s.dirAt c).owners = []) →
    s.tlog.length < 65536 →
    let frame : DWord := BitVec.ofNat 64 ((2 ^ 40 - 1) * 4096 + 6)
    let v : DWord := match x.backing.find? fun b => b.1 == r.page with
      | some b => (smDWord s.mem pa &&& ~~~ frame) ||| (b.2 &&& frame) ||| 1#64
      | none => smDWord s.mem pa ||| 1#64
    ∃ t y l, exec .pageRepair s = .next t ∧ t.repairs = rest ∧ smDWord t.mem pa = v ∧
      (∀ a, (a < pa ∨ pa + 8 ≤ a) → smGet t.mem a = smGet s.mem a) ∧ t.ctxAt r.ctx = some y ∧ y.deferred = x.deferred.filter (· != r.page) ∧
      (∀ b ∈ y.backing, b.1 ≠ r.page) ∧ t.tlog = s.tlog ++ [l] ∧ l.kind = 1 ∧ l.value = v ∧
      ∀ d e, Waits r d → Waits r e → (s.todo = [d] → t.todo = [{ d with due := some (s.clock + 1) }]) ∧
        (s.todo = [d, e] → t.todo = [{ d with due := some (s.clock + 1) }, { e with due := some (s.clock + 2) }])) ∧
  (∀ (s : State) r rest x, s.grottoUp = true → s.repairs = r :: rest → s.ctxAt r.ctx = some x → r.page ∈ x.held →
    exec .pageRepair s = .next { s with repairs := rest }) ∧
  (∀ (s : State) r rest x, s.grottoUp = true → s.repairs = r :: rest → r.cow = false → s.ctxAt r.ctx = some x → r.page ∉ x.deferred → r.page ∉ x.held →
    ∃ t, exec .pageRepair s = .next t ∧ t = { s with repairs := rest, todo := t.todo } ∧
      ∀ d, Waits r d → s.todo = [d] → t.todo = [{ d with due := some (s.clock + 1) }]) ∧
  (∀ (s : State) d x b pa, s.grottoUp = true → s.todo = [d] → d.lazy = true → d.store = false → s.pendRecs = [] → s.cur.resident = true →
    d.g = s.cur.key → d.team = s.cur.team → s.ctxAt d.team.ctx = some x →
    x.bindings.find? (fun y => y.sym == d.symbol && y.stub == d.fr.w45.toNat) = some b → b.bound = false →
    s.codePa d.team.ctx b.stub = some pa → (∀ c, (s.dirAt c).uTag = 0 ∧ (s.dirAt c).owners = []) →
    ∃ t, exec .lazyBinding s = .next t ∧ t.todo = [] ∧ t.cur.trapParked = false ∧ t.strand.pc = s.strand.pc ∧
      (∀ a, smGet t.mem a =
        if pa ≤ a ∧ a < pa + (stubBytes b.stub b.target).length then (stubBytes b.stub b.target).getD (a - pa) 0 else smGet s.mem a) ∧
      ∀ c ∈ t.cores, ∀ l ∈ c.ibuf, l.asid = d.team.ctx → ¬ (l.va < b.stub + 16 ∧ b.stub < l.va + 32))

/-- R185 to R187, R190, R191, R226, R230: a stopping team whose accesses are over leaves its core with its gangs saved; it returns to its
places as it was; a turn that is over passes to the group's next context with work; a walk posts a record for each hang it finds; a team
at its context's limit is terminated. -/
def Obligations.PreemptionAndWatchdogResults : Prop :=
  (∀ (s : State) tk x, s.teamAt tk = some x → x.stopping = true → x.preempted = false → (∀ w ∈ s.watches, w.who.team ≠ tk) →
    s.teamReturned tk x.core = true →
    ∃ t y, exec (.preemption tk) s = .next t ∧ t.teamAt tk = some y ∧ y.preempted = true ∧ y.stopping = false ∧
      (∀ g ∈ t.allGangs, g.team ≠ tk) ∧
      (∀ w v, (t.coreAt x.core).view w = some v → v.st ≠ .dirty) ∧
      y.saved.map (·.gang.key) = (s.teamGangs tk).map (·.key) ∧
      ∀ v, y.saved = [v] → smBytes t.mem v.base v.bytes.length = v.bytes) ∧
  (∀ (s : State) tk x c v, s.teamAt tk = some x → s.ctxAt tk.ctx = some c → x.preempted = true → s.mayRun c x.core = true → s.placesFree x = true →
    x.saved = [v] → v.resv = [] → s.badSave v = false → (∀ b ∈ x.bars, b.kind = .soft → b.deadline ≠ 0 → s.clock < b.deadline) →
    ∃ t y b, exec (.resumption tk) s = .next t ∧ t.teamAt tk = some y ∧ y.preempted = false ∧ y.saved = [] ∧ t.mem = s.mem ∧
      t.gangs = s.gangs ++ [{ v.gang with resident := true, active := b, pendingFor := 0, broughtIn := none, lateness := 0 }] ∧
      ∀ w u, (t.coreAt x.core).view w = some u → u.st ≠ .valid) ∧
  (∀ (s : State) group x, group ≠ 0 → s.turnOver group = true →
    s.nextTurn group (match s.turns.find? (fun t => t.1 == group) with | some (_, n, _) => n + 1 | none => 0) = some x →
    ∃ t, exec (.timeSliceEnd group) s = .next t ∧ t = { s with turns := t.turns, teams := t.teams } ∧ (group, x.num, s.clock) ∈ t.turns ∧
      (∀ y ∈ t.turns, y.1 = group → y = (group, x.num, s.clock)) ∧
      ∀ z ∈ t.teams, z.preempted = false → z.key.ctx ≠ x.num → (∃ y ∈ s.ctxs, y.num = z.key.ctx ∧ y.group = group) → z.stopping = true) ∧
  (∀ (s : State), s.grottoUp = true → s.tickWalk < s.clock.toNat / 2 ^ 20 →
    let since := s.clock.toNat - s.tickWalk * 2 ^ 20
    let walk := s.clock.toNat / 2 ^ 20
    (∀ r g k x, s.cycleRecords since walk ++ s.longRecords walk ++ s.spinRecords walk = [(r, g, k)] → s.ctxAt g.team.ctx = some x →
      ∃ t y, exec .hangWalk s = .next t ∧ t.tickWalk = walk ∧ t.mem = s.mem ∧ t.ctxAt g.team.ctx = some y ∧
        y.waiting = x.waiting ++ [{ kind := 3, seq := x.eventSeq, clock := 0, fr := r, g := g.key, strand := k, team := g.team }]) ∧
    (s.cycleRecords since walk ++ s.longRecords walk ++ s.spinRecords walk = [] →
      ∃ t, exec .hangWalk s = .next t ∧ t.tickWalk = walk ∧ t.ctxs = s.ctxs ∧ SameData s t ∧
        ∀ k, (t.cur.strandAt k).spinCount = if s.cur.resident then 0 else (s.cur.strandAt k).spinCount)) ∧
  (∀ (s : State) x c, s.grottoUp = true → s.cur.resident = true → s.cur.live ≠ 0 → s.teamGangs s.cur.team = [s.cur] → s.teamAt s.cur.team = some x →
    s.ctxAt s.cur.team.ctx = some c → c.limit ≠ 0 → x.preempted = false → c.limit.toNat ≤ x.runtime →
    ∃ t, exec (.runtimeLimit s.cur.team) s = .next t ∧ t.cur.live = 0 ∧ t.cur.key = s.cur.key ∧ ∀ k, (t.cur.strandAt k).valid = false) ∧
  (∀ (s : State) tk x c, s.teamAt tk = some x → s.ctxAt tk.ctx = some c → (c.limit = 0 ∨ x.runtime < c.limit.toNat) →
    exec (.runtimeLimit tk) s = .next s)

/-- Answers to faults, and repairs. -/
def Obligations.FaultServiceResults : Prop :=
  Claims.FaultAnswerResults ∧ Claims.RepairResults


/-! ### Requests to Grotto (R189, R190, R194, R197, R204 to R211, R411, R413, R424, R426, R438 to R445, R452, R455) -/

/-- The one request in Grotto's order is of a kind, from the administrator, every word its kind does not use 0 (R442, R443, R445). -/
structure Sys2Proof.Machine.Asked (s : State) (r : Req) (k : Nat) : Prop where
  up : s.grottoUp = true
  alone : s.reqs = [r]
  kind : r.kind = k
  holder : r.holder = 0
  clean : r.clean = true

/-- The request has left the order and its reply waits to be written (R442). -/
def Sys2Proof.Machine.Answered (s t : State) (r : Req) (status : Nat) (result : DWord) : Prop :=
  t.reqs = [] ∧ ∃ y, t.replies = s.replies ++ [y] ∧ y.path = r.path ∧ y.ctx = r.field ∧ y.status = status ∧ y.id = r.w 1 ∧
    y.result = result

/-- Home memory is where it is read: no core owns a word and no sector is in update-only state. -/
def Sys2Proof.Machine.HomesQuiet (s : State) : Prop := ∀ c, (s.dirAt c).uTag = 0 ∧ (s.dirAt c).owners = []

/-- A double word of memory is written and no other byte changes. -/
def Sys2Proof.Machine.PutsDWord (s t : State) (pa : Nat) (x : DWord) : Prop :=
  smDWord t.mem pa = x ∧ ∀ a, (a < pa ∨ pa + 8 ≤ a) → smGet t.mem a = smGet s.mem a

/-- R189, R190, R205, R207, R211, R411, R443, R445: requests about contexts. Request 1 makes a context of its descriptor image, request 2
ends one and the number's generation goes up, 8 and 9 grant and revoke the debug right, 10 reports with the nonce it was given, 11
registers a sample buffer, 13 lets a TRAP's gang go on past it; a request its sender may not issue gets status 1 and has no effect.
The unused bits of used words, the order of the statuses and the status of a second session's grant are the model's reading (log entries 63, 64, 67). -/
def Obligations.ContextRequestResults : Prop :=
  (∀ (s : State) r, Asked s r 1 → HomesQuiet s →
    let n := (r.w 2).toNat
    let pa := (r.dw 3).toNat
    let bs := smBytes s.mem pa 128
    (n ≤ 31 → pa % 64 = 0 → pa + 128 ≤ hbmEnd → s.badImage bs = false → (∀ y ∈ s.ctxs, y.num ≠ n) →
      (∀ y ∈ s.ctxs, clashes (imgF bs 92 1) (BitVec.ofNat 256 (imgF bs 8 32)) y = false) →
      ∃ t x, exec .createContext s = .next t ∧ t.ctxs = s.ctxs ++ [x] ∧ t.mem = s.mem ∧ Answered s t r 0 (x.field.setWidth 64) ∧
        x.num = n ∧ x.gen = s.nextGen n ∧ x.root = leNat (bs.take 8) ∧ x.coreset = BitVec.ofNat 256 (leNat ((bs.drop 8).take 32)) ∧
        x.remote = BitVec.ofNat 320 (leNat ((bs.drop 40).take 40)) ∧ x.limit = BitVec.ofNat 64 (leNat ((bs.drop 80).take 8)) ∧
        x.hang = BitVec.ofNat 32 (leNat ((bs.drop 88).take 4)) ∧ x.group = leNat ((bs.drop 92).take 1) ∧
        x.slice = leNat ((bs.drop 93).take 1) ∧ x.quota = leNat ((bs.drop 94).take 1) ∧ x.debug = 0 ∧ x.serial = 0 ∧ x.eventSeq = 0) ∧
    (31 < n → ∃ t, exec .createContext s = .next t ∧ Answered s t r 2 0 ∧ t.ctxs = s.ctxs ∧ t.mem = s.mem)) ∧
  (∀ (s : State) r x, Asked s r 2 → s.ctxAt (r.w 2).toNat = some x →
    ∃ t, exec .destroyContext s = .next t ∧ Answered s t r 0 0 ∧ (∀ y ∈ t.ctxs, y.num ≠ x.num) ∧ (∀ y ∈ t.teams, y.key.ctx ≠ x.num) ∧
      (∀ g ∈ t.grids, g.ctx ≠ x.num) ∧ t.nextGen x.num = x.gen + 1) ∧
  (∀ (s : State) r x, Asked s r 8 → s.reqCtx r = some x → r.w 2 ≠ 0 →
    ((x.debug = 0 ∨ x.debug = r.w 2) → ∃ t, exec .grantDebugRight s = .next t ∧ Answered s t r 0 0 ∧
      t.ctxAt x.num = some { x with debug := r.w 2 } ∧ t.cur = s.cur ∧ t.mem = s.mem) ∧
    (x.debug ≠ 0 → x.debug ≠ r.w 2 → ∃ t, exec .grantDebugRight s = .next t ∧ Answered s t r 3 0 ∧ t.ctxs = s.ctxs)) ∧
  (∀ (s : State) r x pa, Asked s r 9 → s.reqCtx r = some x → s.brkAway x = some pa → exec .revokeDebugRight s = .next (s.wantPage pa)) ∧
  (∀ (s : State) r x, Asked s r 9 → s.reqCtx r = some x → s.brkAway x = none →
    ∃ t y, exec .revokeDebugRight s = .next t ∧ Answered s t r 0 0 ∧ t.ctxAt x.num = some y ∧ y.debug = 0 ∧
      (x.debug ≠ 0 → y.breaks = [] ∧ y.haltOrder = [])) ∧
  (∀ (s : State) r x, Asked s r 10 → s.ctxAt ((r.w 10).toNat % 32) = some x →
    ∃ t y, exec .attestationReport s = .next t ∧ t = { s with reqs := [], replies := s.replies ++ [y] } ∧ y.status = 0 ∧ y.id = r.w 1 ∧
      y.bulk.length = 384 ∧ (y.bulk.drop 16).take 32 = (List.range 8).flatMap (fun k => leBytes (r.w (k + 2)).toNat 4) ∧
      (y.bulk.drop 240).take 64 = leBytes x.digest.toNat 64 ∧ (y.bulk.drop 304).take 8 = leBytes s.clock.toNat 8) ∧
  (∀ (s : State) r x, Asked s r 11 → s.reqCtx r = some x → (r.dw 2).toNat % 16 = 0 → (r.w 4).toNat % 16 = 0 →
    ∃ t, exec .registerSampleBuffer s = .next t ∧ Answered s t r 0 0 ∧
      t.ctxAt x.num = some { x with sbuf := some ((r.dw 2).toNat, (r.w 4).toNat) } ∧ t.cur = s.cur ∧ t.mem = s.mem) ∧
  (∀ (s : State) r x e d, Asked s r 13 → s.reqCtx r = some x → r.w 3 = 0 → r.w 2 ≠ 0xFFFFFFFF#32 → x.events.find? (fun y => y.seq == r.w 2) = some e →
    e.kind = 5 → s.todo = [d] → d.taken = true → d.seq = e.fr.w7 → d.team = e.team → s.pendRecs = [] → s.cur.resident = true →
    d.g = s.cur.key → d.team = s.cur.team → (d.fr.w0.extractLsb' 0 8).toNat = 0x16 → d.strand < s.cur.strands.length →
    ∃ t y, exec .resumeOrTerminate s = .next t ∧ Answered s t r 0 0 ∧ t.ctxAt x.num = some y ∧ (∀ z ∈ y.events, z.seq ≠ r.w 2) ∧
      t.todo = [] ∧ t.cur.trapParked = false ∧ (t.cur.strandAt d.strand).pc = (s.cur.strandAt d.strand).pc + 16 ∧ t.mem = s.mem ∧
      SameData s t) ∧
  (∀ (s : State) r i k, s.grottoUp = true → s.reqs = [r] → r.kind = k → r.holder ≠ 0 →
    (i, k) ∈ [(Instr.createContext, 1), (.destroyContext, 2), (.strataControl, 12), (.domainMembershipChange, 15),
      (.leaveLanternService, 16), (.writeImageSlot, 17), (.serviceImageRestart, 18), (.setPowerCap, 19)] →
    ∃ t, exec i s = .next t ∧ Answered s t r 1 0 ∧ t = { s with reqs := [], replies := t.replies }) ∧
  (∀ (s : State) r i k, s.grottoUp = true → s.reqs = [r] → r.kind = k → r.holder ≠ 0 → s.reqCtx r = none ∨ r.field.toNat % 32 ≠ r.holder →
    (i, k) ∈ [(Instr.writePageTableEntry, 3), (.holdPage, 5), (.releasePage, 6), (.deferPages, 7), (.grantDebugRight, 8), (.revokeDebugRight, 9),
      (.registerSampleBuffer, 11), (.resumeOrTerminate, 13), (.readLogs, 14)] →
    ∃ t, exec i s = .next t ∧ Answered s t r 1 0 ∧ t = { s with reqs := [], replies := t.replies })

/-- R154, R194, R197, R204, R404, R424, R426, R445: requests about pages and grids. Request 3 writes the entry, logs it and begins the shootdown;
5 and 7 clear P of the page they hold or defer and shoot it down; 6 sets P again, with the
frame the page had where it is kept (log entry 124: the model's reading), and what waits for the page goes on; 4 places the descriptor's grid with the next serial
number.
That the reply does not wait for the shootdown is the model's reading (log entry 70). -/
def Obligations.PageRequestResults : Prop :=
  (∀ (s : State) r x pa, Asked s r 3 → HomesQuiet s → s.reqCtx r = some x → (r.dw 2).toNat < 2 ^ 57 → (r.w 4).toNat % 8 ≤ 4 →
    let level := (r.w 4).toNat % 8
    let size := 4096 * 512 ^ level
    let first := (r.dw 2).toNat / size * size
    ((r.w 4).toNat % 8 ≠ 0 ∨ pteSize64 (r.dw 5) = false) →
    ¬ (level ≠ 0 ∧ ptePresent (r.dw 5) = true ∧ pteLeaf (r.dw 5) = false ∧ hbmEnd ≤ ptePfn (r.dw 5) * 4096) →
    entryAt s.mem first level 4 (x.root * 4096) = some pa → s.tlog.length < 65536 →
    ∃ t l h, exec .writePageTableEntry s = .next t ∧ Answered s t r 0 (s.tlogSeq.setWidth 64) ∧ PutsDWord s t pa (r.dw 5) ∧
      t.tlog = s.tlog ++ [l] ∧ l.kind = 1 ∧ l.va = first ∧ l.len = size ∧ l.value = r.dw 5 ∧ l.seq = s.tlogSeq ∧
      t.shoots = s.shoots ++ [h] ∧ h.asid = x.num ∧ h.va = first ∧ h.len = size ∧ h.cores = x.coreset ∧ h.start = s.clock) ∧
  (∀ (s : State) r x, Asked s r 3 → s.reqCtx r = some x → 1 ≤ (r.w 4).toNat % 8 → ptePresent (r.dw 5) = true → pteLeaf (r.dw 5) = false →
    hbmEnd ≤ ptePfn (r.dw 5) * 4096 → ∃ t, exec .writePageTableEntry s = .next t ∧ Answered s t r 2 0 ∧ t.mem = s.mem ∧ t.shoots = s.shoots) ∧
  (∀ (s : State) r x p pte pa, Asked s r 5 → HomesQuiet s → s.reqCtx r = some x → (r.dw 2).toNat < 2 ^ 57 →
    s.pageAt x (r.dw 2).toNat = some (p, pte) → p ∉ x.held → p ∉ x.deferred → ptePresent pte = true → p.size = 4096 →
    entryAt s.mem p.va 0 4 (x.root * 4096) = some pa →
    ∃ t y h, exec .holdPage s = .next t ∧ Answered s t r 0 0 ∧ PutsDWord s t pa (pte &&& ~~~ 1#64) ∧ t.ctxAt x.num = some y ∧
      y.held = x.held ++ [p] ∧ y.backing = x.backing ++ [(p, pte)] ∧ t.shoots = s.shoots ++ [h] ∧ h.asid = x.num ∧ h.va = p.va ∧ h.len = 4096) ∧
  (∀ (s : State) r x p pa, Asked s r 6 → HomesQuiet s → s.reqCtx r = some x → x.held.find? (fun q => q.has (r.dw 2).toNat) = some p → p.size = 4096 →
    entryAt s.mem p.va 0 4 (x.root * 4096) = some pa →
    let frame : DWord := BitVec.ofNat 64 ((2 ^ 40 - 1) * 4096 + 6)
    ∃ t y, exec .releasePage s = .next t ∧ Answered s t r 0 0 ∧ t.ctxAt x.num = some y ∧ p ∉ y.held ∧ (∀ b ∈ y.backing, b.1 ≠ p) ∧
      PutsDWord s t pa (match x.backing.find? fun b => b.1 == p with
        | some b => (smDWord s.mem pa &&& ~~~ frame) ||| (b.2 &&& frame) ||| 1#64
        | none => smDWord s.mem pa ||| 1#64) ∧
      ∀ d, d.ofPage = true → d.done = false → d.due = none → d.team.ctx = x.num → p.has d.fr.w23.toNat = true → s.todo = [d] →
        t.todo = [{ d with due := some s.clock }]) ∧
  (∀ (s : State) r x p pte pa, Asked s r 7 → HomesQuiet s → s.reqCtx r = some x → (r.dw 2).toNat % 4096 = 0 → (r.dw 4).toNat % 4096 = 0 →
    (r.dw 2).toNat + (r.dw 4).toNat ≤ 2 ^ 57 →
    s.rangeOf x ((r.dw 2).toNat + (r.dw 4).toNat) ((r.dw 4).toNat / 4096) (r.dw 2).toNat = some [(p, pte)] → p.size = 4096 →
    entryAt s.mem p.va 0 4 (x.root * 4096) = some pa →
    ∃ t y h, exec .deferPages s = .next t ∧ Answered s t r 0 1 ∧ PutsDWord s t pa (pte &&& ~~~ 1#64) ∧ t.ctxAt x.num = some y ∧
      y.deferred = x.deferred ++ [p] ∧ y.backing = x.backing ++ [(p, pte)] ∧ t.shoots = s.shoots ++ [h] ∧ h.asid = x.num ∧ h.va = p.va ∧ h.len = 4096) ∧
  (∀ (s : State) r x, Asked s r 7 → s.reqCtx r = some x → ((r.dw 2).toNat % 4096 ≠ 0 ∨ (r.dw 4).toNat % 4096 ≠ 0) →
    ∃ t, exec .deferPages s = .next t ∧ Answered s t r 2 0 ∧ t.ctxs = s.ctxs ∧ t.mem = s.mem) ∧
  (∀ (s : State) r x pa, Asked s r 4 → HomesQuiet s → s.reqCtx r = some x → (r.dw 2).toNat % 64 = 0 → (r.dw 2).toNat < 2 ^ 57 → s.launchWaits x = false →
    s.readPa x (r.dw 2).toNat = some pa → s.ownsPage pa = true → badDescriptor (smBytes s.mem pa 64) = false →
    s.serialLive x.num x.serial = false → s.grids.length < 1024 →
    ∃ t g, exec .launchHostGrid s = .next t ∧ Answered s t r 0 (g.id.setWidth 64) ∧ t.mem = s.mem ∧ t.grids = s.grids ++ [g] ∧
      g.id = BitVec.ofNat 32 x.serial ∧ g.ctx = x.num ∧ g.host = true ∧ g.parent = none ∧ g.placed = 0 ∧ g.accepted = s.clock ∧
      g.entry = BitVec.ofNat 57 (leNat (smBytes s.mem pa 8)) ∧ g.threads = leNat (smBytes s.mem (pa + 20) 2) ∧
      g.param = smDWord s.mem (pa + 32) ∧ t.ctxAt x.num = some { x with serial := (x.serial + 1) % 2 ^ 28 }) ∧
  (∀ (s : State) r x pa, Asked s r 4 → HomesQuiet s → s.reqCtx r = some x → (r.dw 2).toNat % 64 = 0 → (r.dw 2).toNat < 2 ^ 57 → s.launchWaits x = false →
    s.readPa x (r.dw 2).toNat = some pa → s.ownsPage pa = true → badDescriptor (smBytes s.mem pa 64) = true →
    ∃ t, exec .launchHostGrid s = .next t ∧ Answered s t r 2 0 ∧ t.grids = s.grids ∧ t.mem = s.mem)

/-- R204, R208, R209, R235, R413, R438, R440, R445, R452, R455, R456: requests about the device. 12 sets Strata, 14 answers with a context's
image and counts, 15 joins a device, 16 leaves Lantern service, 17 writes a verified image to its slot, 18 stops Grotto behind a handover
table, which a new Grotto adopts, 19 sets the power cap within 600 to 2,200 W.
Which join names this device, what request 17 verifies and when request 18 is answered are the model's reading (log entries 72, 74, 75). -/
def Obligations.DeviceRequestResults : Prop :=
  (∀ (s : State) r, Asked s r 12 → 10 ≤ ((r.w 2).extractLsb' 4 5).toNat → ((r.w 2).extractLsb' 4 5).toNat ≤ 24 →
    ∃ t, exec .strataControl s = .next t ∧ Answered s t r 0 0 ∧ t.strata.on = (r.w 2).getLsbD 0 ∧
      t.strata.k = ((r.w 2).extractLsb' 4 5).toNat ∧ t.strata.dst = (r.dw 3).toNat ∧ t.strata.len = (r.dw 5).toNat ∧
      t.strata.latched = s.strata.latched ∧ t = { s with reqs := [], replies := t.replies, strata := t.strata }) ∧
  (∀ (s : State) r x, Asked s r 14 → r.w 2 = 2 → s.reqCtx r = some x →
    ∃ t y, exec .readLogs s = .next t ∧ t = { s with reqs := [], replies := s.replies ++ [y] } ∧ y.status = 0 ∧ y.bulk.length = 140 ∧
      y.bulk.take 128 = x.image ∧
      (y.bulk.drop 128).take 4 = leBytes (s.teams.filter fun z => z.key.ctx == x.num && !z.preempted).length 4) ∧
  (∀ (s : State) r, Asked s r 15 → (r.w 3).toNat % 512 < 320 → r.w 4 = 0 → s.members = 0 → s.tlog.length < 65536 →
    ∃ (t : State) (l : TLog), exec .domainMembershipChange s = .next t ∧ Answered s t r 0 0 ∧ t.domain = r.w 2 ∧
      t.devNum = (r.w 3).toNat % 512 ∧ (∀ k, k < 320 → (t.members.getLsbD k = true ↔ k = (r.w 3).toNat % 512)) ∧ t.tlog = s.tlog ++ [l] ∧
      l.kind = 3 ∧ t.mem = s.mem) ∧
  (∀ (s : State) r, Asked s r 15 → (r.w 3).toNat % 512 < 320 → r.w 4 = 1 → s.members.getLsbD ((r.w 3).toNat % 512) = true → r.w 2 = s.domain →
    s.departing = some ((r.w 3).toNat % 512, 3) → s.parted ((r.w 3).toNat % 512) = true →
    ∃ t, exec .domainMembershipChange s = .next t ∧ Answered s t r 0 0 ∧ t.members.getLsbD ((r.w 3).toNat % 512) = false ∧
      t.departing = none ∧ t.mem = s.mem) ∧
  (∀ (s : State) r dev, Asked s r 15 → dev = (r.w 3).toNat % 512 → dev < 320 → r.w 4 = 1 → s.members.getLsbD dev = true → r.w 2 = s.domain →
    (s.departing = some (dev, 1) → s.shoots ≠ [] → exec .domainMembershipChange s = .next s) ∧
    (s.departing = some (dev, 1) → s.shoots = [] →
      exec .domainMembershipChange s = .next { s.handAllBack dev with departing := some (dev, 2) }) ∧
    (s.departing = some (dev, 2) → s.allGiven dev = true →
      exec .domainMembershipChange s = .next { s.returnAll dev with departing := some (dev, 3) }) ∧
    (s.departing = some (dev, 2) → s.allGiven dev = false → exec .domainMembershipChange s = .next (s.handAllBack dev))) ∧
  (∀ (s : State) r, Asked s r 16 →
    (s.service = .full → ∃ t, exec .leaveLanternService s = .next t ∧ Answered s t r 0 0 ∧ t = { s with reqs := [], replies := t.replies }) ∧
    (s.service = .lantern → ∃ t, exec .leaveLanternService s = .next t ∧ t = { s with service := .leaving, teams := t.teams } ∧
      ∀ x ∈ t.teams, x.key.ctx = 0 → x.preempted = false → x.stopping = true)) ∧
  (∀ (s : State) r i, Asked s r 17 → HomesQuiet s → 1 ≤ (r.w 2).toNat → (r.w 2).toNat ≤ 3 → (r.w 3).toNat ≤ 1 →
    (r.dw 4).toNat + (r.dw 6).toNat ≤ hbmEnd → (r.w 8).getLsbD 1 = false → s.banks.length = 3 →
    readImage (r.w 2).toNat (smBytes s.mem (r.dw 4).toNat (r.dw 6).toNat) = some i →
    ∃ t b c, exec .writeImageSlot s = .next t ∧ Answered s t r 0 0 ∧ s.banks[(r.w 2).toNat - 1]? = some b ∧
      t.banks[(r.w 2).toNat - 1]? = some c ∧ (r.w 3 = 0 → c.a = some i ∧ c.b = b.b) ∧ (r.w 3 = 1 → c.b = some i ∧ c.a = b.a) ∧
      c.minVersion = (if (r.w 8).getLsbD 0 then Nat.max b.minVersion i.version else b.minVersion) ∧ c.blown = b.blown ∧
      ∀ k, k ≠ (r.w 2).toNat - 1 → t.banks[k]? = s.banks[k]?) ∧
  (∀ (s : State) r, Asked s r 18 → s.shoots = [] → (∀ x ∈ s.ctxs, s.brkAway x = none) →
    ∃ t h, exec .serviceImageRestart s = .next t ∧ Answered s t r 0 0 ∧ t.grottoUp = false ∧ t.handover = some h ∧ h.clock = s.clock ∧
      h.logSeq = s.tlogSeq ∧ ∀ x ∈ t.ctxs, x.debug = 0) ∧
  (∀ (s : State) h, s.handover = some h → ∃ t, exec .grottoHandoverAdopt s = .next t ∧ t.grottoUp = true ∧ t.handover = none ∧
    t = { s with banks := t.banks, handover := none, grottoUp := true }) ∧
  (∀ (s : State) r, Asked s r 19 →
    (600 ≤ (r.w 2).toNat → (r.w 2).toNat ≤ 2200 → ∃ t, exec .setPowerCap s = .next t ∧ Answered s t r 0 0 ∧
      t = { s with reqs := [], replies := t.replies, cap := (r.w 2).toNat }) ∧
    (((r.w 2).toNat < 600 ∨ 2200 < (r.w 2).toNat) → ∃ t, exec .setPowerCap s = .next t ∧ Answered s t r 2 0 ∧
      t = { s with reqs := [], replies := t.replies }))


/-! ### The host and the board (R178 to R180, R232 to R235, R413, R436 to R452) -/

/-- The twelve words of the slot of an event that is written now (R444). -/
def Sys2Proof.Machine.eventWords (s : State) (x : Ctx) (e : Event) : List Word :=
  [BitVec.ofNat 32 (x.field.toNat * 65536 + e.kind), e.seq, s.clock.setWidth 32, s.clock.extractLsb' 32 32, e.fr.w0, e.fr.w1, e.fr.w23.setWidth 32,
    e.fr.w23.extractLsb' 32 32, e.fr.w45.setWidth 32, e.fr.w45.extractLsb' 32 32, e.fr.w6, e.fr.w7]

/-- R222, R441, R442, R444, R446: rings and messages. REQTAIL is a doorbell that takes the slots up to it into the request order; a reply
goes to its ring with room, its vector signalled, or to the job it came under; an event likewise; base and size registers are written
while ENABLE is 0; a request under an unbound job is discarded and counted; the HBM window writes and reads at the homes, and the host reads a function's registers; the endpoint trains. By which Ultra
Ethernet port an event leaves is the model's choice (log entry 128).
When REQHEAD advances, and a register write while ENABLE is 1, are the model's reading (log entries 61, 76). -/
def Obligations.HostInterfaceResults : Prop :=
  (∀ (s : State) n f, n < 32 → s.presents n = true → s.fns.find? (fun g => g.num == n) = some f →
    (∀ x, ∃ t, exec (.rplhead n x) s = .next t ∧ t.fnAt n = { f with rplHead := x } ∧ t = { s with fns := t.fns }) ∧
    (∀ x, ∃ t, exec (.evthead n x) s = .next t ∧ t.fnAt n = { f with evtHead := x } ∧ t = { s with fns := t.fns }) ∧
    (∀ x, f.enable.getLsbD 0 = false → ∃ t, exec (.reqtail n x) s = .next t ∧ t.fnAt n = { f with reqTail := x } ∧ t.reqs = s.reqs) ∧
    (∀ x, f.enable.getLsbD 0 = true → x - f.reqHead = 1#32 → (∀ q ∈ s.reqs, q.arrived ≠ s.clock) →
      let slot := f.reqBase.toNat + 64 * (f.reqHead.toNat % 2 ^ (6 + Nat.min (f.sizes.extractLsb' 0 4).toNat 10))
      ∃ t, exec (.reqtail n x) s = .next t ∧ t.fnAt n = { f with reqTail := x, reqHead := f.reqHead + 1 } ∧
        t = { s with fns := t.fns, reqs := t.reqs } ∧
        t.reqs = s.reqs ++ [{ path := .pcie n, holder := n, arrived := s.clock,
                              words := (List.range 16).map fun k => BitVec.ofNat 32 (leNat (smBytes s.hostMem (slot + 4 * k) 4)) }]) ∧
    (∀ x, ∃ t, exec (.ringRegisterWrite n .enable x) s = .next t ∧ t.fnAt n = { f with enable := (x.setWidth 32) &&& 1 } ∧
      t = { s with fns := t.fns }) ∧
    (∀ x, ∃ t, exec (.ringRegisterWrite n .vectors x) s = .next t ∧ t.fnAt n = { f with vectors := (x.setWidth 32) &&& 0x07FF07FF#32 } ∧
      t = { s with fns := t.fns }) ∧
    (∀ x, f.enable.getLsbD 0 = false →
      (∃ t, exec (.ringRegisterWrite n .reqBase x) s = .next t ∧ t.fnAt n = { f with reqBase := x &&& ~~~ 0xFFF#64 }) ∧
      (∃ t, exec (.ringRegisterWrite n .rplBase x) s = .next t ∧ t.fnAt n = { f with rplBase := x &&& ~~~ 0xFFF#64 }) ∧
      (∃ t, exec (.ringRegisterWrite n .evtBase x) s = .next t ∧ t.fnAt n = { f with evtBase := x &&& ~~~ 0xFFF#64 }) ∧
      (∃ t, exec (.ringRegisterWrite n .resBase x) s = .next t ∧ t.fnAt n = { f with resBase := x &&& ~~~ 0xFFF#64 }) ∧
      ∃ t, exec (.ringRegisterWrite n .sizes x) s = .next t ∧ t.fnAt n = { f with sizes := (x.setWidth 32) &&& 0xFFF#32 }) ∧
    (∀ r rest, s.replies = r :: rest → r.path = .pcie n → f.enable.getLsbD 0 = true →
      (f.rplTail - f.rplHead).toNat < 2 ^ (6 + Nat.min (f.sizes.extractLsb' 4 4).toNat 10) →
      let slot := f.rplBase.toNat + 16 * (f.rplTail.toNat % 2 ^ (6 + Nat.min (f.sizes.extractLsb' 4 4).toNat 10))
      let area := f.resBase.toNat + (r.result.setWidth 32).toNat % 65536
      ∃ t g, exec .replyWrite s = .next t ∧ t.replies = rest ∧ t.fnAt n = g ∧
        g = { f with rplTail := f.rplTail + 1, signals := f.signals ++ [(f.vectors.extractLsb' 0 11).toNat] } ∧ t.mem = s.mem ∧
        ∀ a, smGet t.hostMem a =
          if slot ≤ a ∧ a < slot + 16 then
            (([BitVec.ofNat 32 (r.ctx.toNat * 65536 + r.status * 256), r.id, r.result.setWidth 32, r.result.extractLsb' 32 32] : List Word).flatMap
              fun w => leBytes w.toNat 4).getD (a - slot) 0
          else if area ≤ a ∧ a < area + r.bulk.length then r.bulk.getD (a - area) 0 else smGet s.hostMem a) ∧
    (∀ x e rest, s.ctxAt n = some x → x.waiting = e :: rest → f.enable.getLsbD 0 = true →
      (f.evtTail - f.evtHead).toNat < 2 ^ (6 + Nat.min (f.sizes.extractLsb' 8 4).toNat 10) →
      let slot := f.evtBase.toNat + 48 * (f.evtTail.toNat % 2 ^ (6 + Nat.min (f.sizes.extractLsb' 8 4).toNat 10))
      ∃ t y g, exec (.eventWrite n) s = .next t ∧ t.ctxAt n = some y ∧ y.waiting = rest ∧ t.fnAt n = g ∧
        g = { f with evtTail := f.evtTail + 1, signals := f.signals ++ [(f.vectors.extractLsb' 16 11).toNat] } ∧
        (e.kind ∈ [1, 2, 5] → y.events = x.events ++ [{ e with clock := s.clock }]) ∧ t.mem = s.mem ∧
        ∀ a, smGet t.hostMem a = if slot ≤ a ∧ a < slot + 48 then ((eventWords s x e).flatMap fun w => leBytes w.toNat 4).getD (a - slot) 0
          else smGet s.hostMem a) ∧
    (∀ x e rest job, s.ctxAt n = some x → x.waiting = e :: rest → f.enable.getLsbD 0 = false → s.jobs.find? (fun j => j.2 == n) = some (job, n) →
      ∃ t y, exec (.eventWrite n) s = .next t ∧ t.ctxAt n = some y ∧ y.waiting = rest ∧ t.hostMem = s.hostMem ∧
        t.uetSent = s.uetSent ++ [((Config.eventPort job).toNat, job, eventWords s x e)])) ∧
  (∀ (s : State) r rest p job, s.replies = r :: rest → r.path = .uet p job → r.bulk = [] →
    ∃ t, exec .replyWrite s = .next t ∧ t.replies = rest ∧
      t.uetSent = s.uetSent ++ [(p, job, [BitVec.ofNat 32 (r.ctx.toNat * 65536 + r.status * 256), r.id, r.result.setWidth 32, r.result.extractLsb' 32 32])]) ∧
  (∀ (s : State) r rest p job, s.replies = r :: rest → r.path = .uet p job → r.bulk ≠ [] → r.bulk.length % 4 = 0 →
    ∃ t ws, exec .replyWrite s = .next t ∧ t.replies = rest ∧ (t.uetSent.take (s.uetSent.length + 1)) = s.uetSent ++ [(p, job, ws)] ∧
      ws.flatMap (fun w => leBytes w.toNat 4) = r.bulk) ∧
  (∀ (s : State) p job holder w, p < 2 → s.jobs.find? (fun j => j.1 == job) = some (job, holder) → w.length = 16 → (∀ q ∈ s.reqs, q.arrived ≠ s.clock) →
    exec (.uetMessageReceive p job w) s =
      .next { s with reqs := s.reqs ++ [{ path := .uet p job, holder := holder, arrived := s.clock, words := w }] }) ∧
  (∀ (s : State) p job w, (∀ j ∈ s.jobs, j.1 ≠ job) → exec (.uetMessageReceive p job w) s = .next { s with uetDrops := s.uetDrops + 1 }) ∧
  (∀ (s : State) off bytes, s.presents 0 = true → s.service.hbmUp = true → HomesQuiet s → bytes ≠ [] → off + bytes.length ≤ 2 ^ 36 →
    s.hbmOff.toNat + off + bytes.length ≤ hbmEnd → s.ownsPage (s.hbmOff.toNat + off) = true →
    s.ownsPage (s.hbmOff.toNat + off + bytes.length - 1) = true →
    ∃ t, exec (.hbmWindowWrite off bytes) s = .next t ∧ ∀ a, smGet t.mem a =
      if s.hbmOff.toNat + off ≤ a ∧ a < s.hbmOff.toNat + off + bytes.length then bytes.getD (a - (s.hbmOff.toNat + off)) 0 else smGet s.mem a) ∧
  (∀ (s : State) off n, s.presents 0 = true → s.service.hbmUp = true → HomesQuiet s → n ≠ 0 → off + n ≤ 2 ^ 36 → s.hbmOff.toNat + off + n ≤ hbmEnd →
    s.ownsPage (s.hbmOff.toNat + off) = true → s.ownsPage (s.hbmOff.toNat + off + n - 1) = true →
    (s.windowRead off n).hostReads = s.hostReads ++ [smBytes s.mem (s.hbmOff.toNat + off) n] ∧ (s.windowRead off n).mem = s.mem) ∧
  (∀ (s : State) n f, n < 32 → s.presents n = true → s.fns.find? (fun g => g.num == n) = some f → s.presents 0 = true →
    (∀ off x, (off, x) ∈ [(0x028, f.reqTail.toNat), (0x02C, f.reqHead.toNat), (0x030, f.rplTail.toNat), (0x034, f.rplHead.toNat),
        (0x038, f.evtTail.toNat), (0x03C, f.evtHead.toNat), (0x020, f.sizes.toNat), (0x024, f.enable.toNat), (0x040, f.vectors.toNat)] →
      s.mgmtRead (.ring n off) = { s with hostReads := s.hostReads ++ [leBytes x 8] }) ∧
    s.mgmtRead .offset = { s with hostReads := s.hostReads ++ [leBytes s.hbmOff.toNat 8] } ∧
    ∀ dev, dev < s.routes.length → s.mgmtRead (.route dev) = { s with hostReads := s.hostReads ++ [leBytes (atD s.routes dev 0).toNat 8] }) ∧
  (∀ (s : State) w r, 1 ≤ w → w ≤ 16 → 1 ≤ r → r ≤ 128 → exec (.endpointLinkTraining w r) s = .next { s with pcie := (w, r), pcieUp := true })

/-- R122, R178 to R180, R203, R232, R234, R235, R413: memory stacks. An owed refresh goes before any request and closes its bank's row; a request is
issued and leaves its row open; rows idle 200 cycles are closed; a refresh falls due every 610 cycles, and the ninth owed refreshes all banks
at once; a scrub logs what it finds, and an uncorrectable sector gives no later read data; a soft error of one bit is logged and corrected, one of more in a word of an L1 stays with
a dirty word and discards any other; Strata latches at its multiples of CLOCK; an access to a sector that its home's L2
holds asks the stacks for nothing, a read of one on an uncached page asks for it and places nothing, and a context at its quota with no
block of its own in the set places nothing.
What a latch takes, what a controller and an all-bank refresh do beyond R179 and R180, whose a block is, what a refresh adds to the latency
counters and the cycle it falls due in are the model's choice (log entries 78, 79, 92, 101, 102). -/
def Obligations.MemoryStackResults : Prop :=
  (∀ (s : State) pc p b, s.pchans.find? (fun q => q.num == pc) = some p → p.busy ≤ s.clock →
    let open' : PChan := { p with rows := p.rows.filter fun r => decide (s.clock.toNat < r.2.2.toNat + s.scaled 200) }
    open'.refreshBank = some b →
    ∃ t q, exec (.hbmRequestIssue pc) s = .next t ∧ t = { s with pchans := t.pchans } ∧ t.pchanAt pc = q ∧ q.owed = p.owed - 1 ∧ q.reqs = p.reqs ∧
      q.rows = open'.rows.filter fun r => r.1 != b) ∧
  (∀ (s : State) pc p x, s.pchans.find? (fun q => q.num == pc) = some p → p.busy ≤ s.clock → p.owed = 0 → p.reqs = [x] → p.late = [] →
    ∃ t q, exec (.hbmRequestIssue pc) s = .next t ∧ t = { s with pchans := t.pchans } ∧ t.pchanAt pc = q ∧ q.reqs = [] ∧ q.owed = 0 ∧
      (bankOf x.addr, rowOf x.addr, s.clock) ∈ q.rows ∧ ∀ r ∈ q.rows, r.1 = bankOf x.addr → r = (bankOf x.addr, rowOf x.addr, s.clock)) ∧
  (∀ (s : State) pc p x, s.pchans.find? (fun q => q.num == pc) = some p → p.busy ≤ s.clock → p.owed = 0 → p.late = [] →
    p.reqs.find? (fun q => !q.write && decide (q.since.toNat + s.scaled 1024 ≤ s.clock.toNat)) = some x →
    ∃ t, exec (.hbmRequestIssue pc) s = .next t ∧ (t.pchanAt pc).reqs = p.reqs.erase x) ∧
  (∀ (s : State) pc p bank, s.pchans.find? (fun q => q.num == pc) = some p →
    ∃ t, exec (.hbmRowClose pc bank) s = .next t ∧ t = { s with pchans := t.pchans } ∧
      t.pchanAt pc = { p with rows := p.rows.filter fun r => !(r.1 == bank && decide (r.2.2.toNat + s.scaled 200 ≤ s.clock.toNat)) }) ∧
  (∀ (s : State) pc p, s.pchans.find? (fun q => q.num == pc) = some p → pc < 512 → s.clock.toNat % s.scaled 610 = 0 → p.dueAt ≠ some s.clock →
    (p.owed < 8 → ∃ t, exec (.hbmRefreshDue pc) s = .next t ∧ t = { s with pchans := t.pchans } ∧
      t.pchanAt pc = { p with owed := p.owed + 1, dueAt := some s.clock }) ∧
    (8 ≤ p.owed → ∃ t, exec (.hbmRefreshDue pc) s = .next t ∧ t = { s with pchans := t.pchans } ∧
      t.pchanAt pc = { p with
        owed := 0, rows := [], rfstall := p.rfstall + s.scaled 875, waited := p.waited + s.scaled 875 * (p.reqs.length + p.late.length)
        busy := s.clock + BitVec.ofNat 64 (s.scaled 875), dueAt := some s.clock })) ∧
  (∀ (s : State) pa, pa < hbmEnd → s.elog.length < 4096 →
    (∃ (t : State) (l : ELog), exec (.patrolScrub pa (some false)) s = .next t ∧ t = { s with elog := s.elog ++ [l] } ∧ l.kind = 1 ∧
      l.unit = 10 ∧ l.addr = BitVec.ofNat 64 (pa / 8 * 8)) ∧
    (s.sectorBusy (pa / 32) = false →
      ∃ (t : State) (l : ELog), exec (.patrolScrub pa (some true)) s = .next t ∧ t.elog = s.elog ++ [l] ∧ l.kind = 4 ∧ l.unit = 10 ∧
      pa / 32 ∈ t.poison ∧ t.mem = s.mem) ∧
    exec (.patrolScrub pa none) s = .next s) ∧
  (∀ (s : State) e, s.elog.length < 4096 →
    (∃ l, s.softError false e = { s with elog := s.elog ++ [l] } ∧ l.kind = 1) ∧
    ∀ core w v, e = .l1 core w → (s.coreAt core).view w = some v → s.sectorBusy (w / 8) = false →
      (v.st = .dirty → (s.softError true e).elog = s.elog ∧
        ((s.softError true e).coreAt core).view w = some { v with bad := true }) ∧
      (v.st ≠ .dirty → ((s.softError true e).coreAt core).view w = none ∧ (s.softError true e).mem = s.mem ∧
        ∃ l, (s.softError true e).elog = s.elog ++ [l] ∧ l.kind = 3 ∧ l.unit = 3)) ∧
  (∀ (s : State), s.strata.on = true →
    (s.clock.toNat % 2 ^ s.strata.k = 0 → ∃ t, exec .strataLatch s = .next t ∧ t = { s with strata := { s.strata with latched := t.strata.latched } } ∧
      t.strata.latched.length = 1026 ∧ t.strata.latched.take 2 = [s.strata.pwrhold, s.strata.pstchg]) ∧
    (s.clock.toNat % 2 ^ s.strata.k ≠ 0 → exec .strataLatch s = .next s)) ∧
  (∀ (s : State) home sector ctx pri alloc reads writes b, s.l2.find? (·.holds sector) = some b →
    let t := s.l2Access home sector ctx pri alloc reads writes
    t.pchans = s.pchans ∧ t.mem = s.mem ∧ ∃ x, t.l2 = x :: s.l2.erase b ∧ x = { b with dirty := x.dirty } ∧
      ∀ k, x.dirty.getLsbD k = (b.dirty.getLsbD k || (writes && k == sector % 16))) ∧
  (∀ (s : State) home sector ctx pri, (∀ b ∈ s.l2, b.holds sector = false) →
    (s.l2Access home sector ctx pri false true false).l2 = s.l2 ∧
    (s.l2Access home sector ctx pri false true false).pchans = hbmPut s.clock s.pchans (sector, false)) ∧
  (∀ (s : State) home sector ctx pri reads writes, (∀ b ∈ s.l2, b.holds sector = false) →
    s.quotaOf ctx * 2048 ≤ ((s.l2.filter fun x => x.home == home).map fun x => (x.ctxs.filter (· == ctx)).length).sum →
    (∀ x ∈ s.l2, x.set = (home, sector / 16 / 256 % 512) → ∃ c ∈ x.ctxs, c ≠ ctx) →
    (s.l2Access home sector ctx pri true reads writes).l2 = s.l2)

/-- R436 to R440, R449 to R452: power, temperature, reset and boot. Over the cap an estimate withholds every second cycle, 50 W below it
lets go; a check drops a P-state over a limit and raises one well below; at 115 °C every gang is terminated and the dies are held in reset
with an uncorrectable error logged, and below 95 °C CD0 runs in Lantern service; a device reset leaves the values of reset; each boot
stage runs its image or holds the device there; bring-up tests that pass leave Lantern service.
The P-state of Lantern service, when the dies are emptied and what a reset keeps are the model's reading (log entries 58, 80, 81). -/
def Obligations.PowerAndBootResults : Prop :=
  (∀ (s : State) w, s.clock.toNat % 256 = 0 → s.estimates = [] →
    ∃ t, exec (.powerEstimate w) s = .next t ∧ t = { s with estimates := [(s.clock, w)], withhold := t.withhold } ∧
      (s.cap < w → t.withhold = true) ∧ (w + 50 < s.cap → t.withhold = false) ∧
      (w ≤ s.cap → s.cap ≤ w + 50 → t.withhold = s.withhold)) ∧
  (∀ (s : State) w, s.clock.toNat % 2 ^ 16 = 0 → s.pstateAt ≠ some s.clock → s.service = .full →
    ∃ t, exec (.pstateCheck w) s = .next t ∧ t = { s with pstate := t.pstate, pstateAt := some s.clock, strata := t.strata } ∧
      ((s.cap < w ∨ ∃ x ∈ s.tmax, 1600 ≤ x) → t.pstate = Nat.min 3 (s.pstate + 1)) ∧
      (w + 100 < s.cap → (∀ x ∈ s.tmax, x < 1440) → t.pstate = s.pstate - 1) ∧
      (w ≤ s.cap → s.cap ≤ w + 100 → (∀ x ∈ s.tmax, x < 1600) → t.pstate = s.pstate) ∧
      t.strata.pstchg = if t.pstate = s.pstate then s.strata.pstchg else s.strata.pstchg + 1) ∧
  (∀ (s : State) die x, die < 4 → 1840 ≤ x → x < 65536 → s.service.runs = true →
    ∃ (t : State) (l : ELog), exec (.thermalTrip die x) s = .next t ∧ t.service = .thermal ∧ t.tripped = true ∧ t.issueStopped = true ∧
      t.cores = [] ∧ t.dirs = [] ∧ t.elog.getLast? = some l ∧ l.kind = 4 ∧ l.unit = 11 ∧
      (s.cur.resident = true → (∃ x ∈ s.teams, x.key = s.cur.team) → t.cur.live = 0)) ∧
  (∀ (s : State) die x, die < s.tmax.length → x < 1840 → ∃ t, exec (.thermalTrip die x) s = .next t ∧ t = { s with tmax := t.tmax } ∧
    t.tmax[die]? = some x) ∧
  (∀ (s : State), s.service = .thermal → (∀ x ∈ s.tmax, x < 1520) →
    ∃ t, exec .thermalRecovery s = .next t ∧ t.service = .lantern ∧ t.issueStopped = false ∧ t.pstate = 3 ∧ t.mem = s.mem ∧
      ∀ l ∈ t.links, l.state = 0 ∧ l.lanes = 0) ∧
  (∀ (s : State), s.service ≠ .stopped →
    ∃ (t : State) (l : ELog), exec .inputOutOfLimits s = .next t ∧ t.service = .stopped ∧ t.issueStopped = true ∧
      t.elog.getLast? = some l ∧ l.kind = 4 ∧ l.unit = 11 ∧ t.allGangs = [] ∧ t.cores = [] ∧ t.dirs = [] ∧ t.orn = []) ∧
  (∀ (s : State), ∃ t, exec .deviceReset s = .next t ∧ t.clock = 0 ∧ t.service = .boot 1 ∧ t.issueStopped = true ∧ t.faultSeq = 0 ∧ t.allGangs = [] ∧
    t.teams = [] ∧ t.ctxs = [] ∧ t.banks.map (·.a) = s.banks.map (·.a) ∧ t.banks.map (·.b) = s.banks.map (·.b) ∧
    t.banks.map (·.minVersion) = s.banks.map (·.minVersion) ∧ t.banks.map (·.blown) = s.banks.map (·.blown) ∧ t.hostMem = s.hostMem) ∧
  (∀ (s : State) k n b, (n, k) ∈ [(1, 1), (3, 2), (4, 3)] → s.service = .boot n → s.banks[k - 1]? = some b →
    (∀ slotB i, b.choose k (b.blown % 2 == 1) = some (slotB, i) → ∃ t, exec .bootStage s = .next t ∧
      t = { s with service := .boot (n + 1), banks := t.banks } ∧ t.banks[k - 1]? = some { b with runningB := slotB, running := some i }) ∧
    (b.choose k (b.blown % 2 == 1) = none → exec .bootStage s = .next { s with service := .stuck n })) ∧
  (∀ (s : State), s.service = .boot 2 → ∃ t, exec .bootStage s = .next t ∧ t.service = .boot 3 ∧ ∀ v ∈ t.volt, 650 ≤ v ∧ v ≤ 850) ∧
  (∀ (s : State), s.service = .boot 5 → ∃ t, exec .bootStage s = .next t ∧ t.service = .lantern ∧ t.grottoUp = true ∧ t.issueStopped = false ∧
    t.pstate = 3 ∧ t.strata.pstchg = (if s.pstate = 3 then s.strata.pstchg else s.strata.pstchg + 1) ∧ t.ctxs.map (·.num) = [0]) ∧
  (∀ (s : State), s.service = .lantern →
    (s.tripped = false → ∃ t, exec (.bringupTestsDone true) s = .next t ∧ t = { s with service := .leaving, teams := t.teams }) ∧
    (s.tripped = true → exec (.bringupTestsDone true) s = .next s) ∧
    (s.elog.length < 4096 → ∃ (t : State) (l : ELog), exec (.bringupTestsDone false) s = .next t ∧ t = { s with elog := s.elog ++ [l] } ∧
      l.kind = 4 ∧ l.unit = 11)) ∧
  (∀ (s : State), s.service ≠ .lantern → ∀ ok, exec (.bringupTestsDone ok) s = .next s)

/-! ### Encodings, traps, translation, memory and the run (R10, R193 to R216, R236 to R252) -/

/-- Instructions that have no wait of their own before check 8 of R252: those that compute on their gang alone, and the branches. -/
def Sys2Proof.Machine.Claims.ungated : Instr → Bool
  | .iadd .. | .isub .. | .imul .. | .imulh .. | .imad .. | .imadw .. | .iaddc .. | .imin .. | .imax .. | .iabs .. | .ineg .. | .and ..
  | .or .. | .xor .. | .not .. | .bool3 .. | .shl .. | .shr .. | .shra .. | .shd .. | .rot .. | .bfe .. | .bfi .. | .popc .. | .clz ..
  | .brev .. | .bsel .. | .icmp .. | .isel .. | .mov .. | .movi .. | .lea .. | .fadd .. | .fsub .. | .fmul .. | .ffma .. | .fmin ..
  | .fmax .. | .fcmp .. | .fsel .. | .fclass .. | .frnd .. | .fscale .. | .cvt .. | .cvtSr .. | .cvtx .. | .pack .. | .unpk .. | .dp4 ..
  | .dp8 .. | .dp2 .. | .pfma .. | .call .. | .ret .. | .jmpi .. | .pmov .. | .vote .. | .shfl .. | .matchI .. | .redux .. | .elect ..
  | .perf .. | .sleep .. | .barw .. | .relv .. | .resv .. => true
  | _ => false

/-- R43, R48, R241, R252, R283, R287, R316, R320: an instruction that names a register outside its gang's allocation traps ILLEGAL_FORM,
whatever its guard; one that waits for nothing before it issues traps UNMARKED_HAZARD where a register it names is pending in an active
lane with no switch marker since; MOVI.hi to a vector register, PMOV with a scalar one, and the forms of CVT, CVT.sr, CVTX, PACK and
UNPK that their entries refuse trap ILLEGAL_FORM, an entry's own trap even where no lane's guard passes (log entry 121: the model's reading). The
record names the active lanes whose guard passes.
That CVT traps on zr as on a scalar is the model's reading (log entry 14). -/
def Sys2Proof.Machine.Claims.FormTraps : Prop :=
  (∀ i s, i.isStep = false → allocated i s.cur = false → TrapsWith i s ⟨0x11, 0xFF, 0, s.part i, false⟩) ∧
  (∀ i s, Claims.ungated i = true → allocated i s.cur = true → hazard i s.cur s.strand = true → TrapsWith i s ⟨0x13, 0xFF, 0, s.part i, false⟩) ∧
  (∀ h (d : Reg) imm s, (∀ n, d ≠ .s n) → Ready (.movi h true d imm) s →
    TrapsWith (.movi h true d imm) s ⟨0x11, 0xFF, 0, s.part (.movi h true d imm), false⟩) ∧
  (∀ h high (d : Reg) s, (∀ n, d ≠ .v n) → Ready (.pmov h (.toReg high d)) s →
    TrapsWith (.pmov h (.toReg high d)) s ⟨0x11, 0xFF, 0, s.part (.pmov h (.toReg high d)), false⟩) ∧
  (∀ h high (a : Reg) s, (∀ n, a ≠ .v n) → Ready (.pmov h (.fromReg high a)) s →
    TrapsWith (.pmov h (.fromReg high a)) s ⟨0x11, 0xFF, 0, s.part (.pmov h (.fromReg high a)), false⟩) ∧
  (∀ rm o s, cvtOk o (cvtRmOk rm o) = false → Ready (.cvt rm o) s → TrapsWith (.cvt rm o) s ⟨0x11, 0xFF, 0, s.part (.cvt rm o), false⟩) ∧
  (∀ rm o s, cvtOk o (cvtRmOk rm o) = false → Ready (.cvtx rm o) s →
    TrapsWith (.cvtx rm o) s ⟨0x11, 0xFF, 0, s.part (.cvtx rm o), false⟩) ∧
  (∀ r o s, cvtOk o (r != .zr) = false → Ready (.cvtSr r o) s →
    TrapsWith (.cvtSr r o) s ⟨0x11, 0xFF, 0, s.part (.cvtSr r o), false⟩) ∧
  (∀ h w d a b (j : BitVec 4) s, (scalarReg d = true ∨ slotCount (EWidth.bitsOf w) ≤ j.toNat + 1) → Ready (.pack h w d a b j) s →
    TrapsWith (.pack h w d a b j) s ⟨0x11, 0xFF, 0, s.part (.pack h w d a b j), false⟩) ∧
  (∀ h mode w d a (j : BitVec 4) s, (scalarReg d = true ∨ slotCount (EWidth.bitsOf w) ≤ j.toNat ∨ (mode = .t2 ∧ w ≠ .e2)) →
    Ready (.unpk h mode w d a j) s → TrapsWith (.unpk h mode w d a j) s ⟨0x11, 0xFF, 0, s.part (.unpk h mode w d a j), false⟩)

/-- R215: where each field of a fault record stands: cause, access kind, core, partition and gang slot in word 0; strand slot, fork,
ahead, strand kind and context in word 1; the address or code in words 2 and 3, the PC in words 4 and 5, the lane mask in word 6. -/
def Sys2Proof.Machine.Claims.FaultRecordLayout : Prop :=
  ∀ (g : Gang) (k : Nat) (x : Trap), g.key.core < 256 → g.key.part < 4 → g.key.slot < 16 → k < 16 → x.cause < 256 → x.kind < 256 →
    let r := trapRecord g k x
    (r.w0.extractLsb' 0 8).toNat = x.cause ∧ (r.w0.extractLsb' 8 8).toNat = x.kind ∧ (r.w0.extractLsb' 16 8).toNat = g.key.core ∧
      (r.w0.extractLsb' 24 2).toNat = g.key.part ∧ (r.w0.extractLsb' 26 6).toNat = g.key.slot ∧
      (r.w1.extractLsb' 0 4).toNat = k ∧ (r.w1.extractLsb' 4 3).toNat = (g.strandAt k).fork.val ∧ r.w1.getLsbD 7 = x.ahead ∧
      (r.w1.extractLsb' 8 2).toNat = (match (g.strandAt k).kind with | .root => 0 | .trueArm => 1 | .falseArm => 2 | .tail => 3) ∧
      r.w1.extractLsb' 10 6 = 0 ∧ r.w1.extractLsb' 16 16 = g.ctxField ∧ r.w23 = x.addr ∧ r.w45 = (g.strandAt k).pc.setWidth 64 ∧
      r.w6 = x.lanes

/-- R43, R48, R215, R241, R252, R283, R287, R316, R320: the traps of forms, allocation and pending operands, and where a record's
fields stand. -/
def Obligations.FormTraps : Prop := Claims.FormTraps ∧ Claims.FaultRecordLayout

/-- The fields of an instruction that hold predicate operands, by opcode (R42, R266). -/
def Sys2Proof.Machine.Claims.predFields (r : Raw) : List (BitVec 8) :=
  match r.opc.toNat with
  | 0x006 | 0x01C | 0x047 => [r.c]
  | 0x01B | 0x046 => [r.d]
  | 0x0C8 => [r.a]
  | 0x0CA => if r.sb 0 then [r.a] else []
  | 0x0CC | 0x0D8 => [r.d, r.a, r.b]
  | 0x1B0 => if r.sub.extractLsb' 1 1 = 1#1 then [r.d, r.a] else [r.a]
  | 0x1B4 => if r.sb 0 then [] else [r.d]
  | _ => []

/-- R42: zr reads 0 at both widths and discards writes; p47 reads true on every lane and discards writes; a guard field or a predicate
field with an index from 48 to 63 makes the encoding one that traps ILLEGAL_FORM, whatever else it holds, and the strand that would
issue it takes that trap. -/
def Obligations.ZeroRegisterAndTruePredicate : Prop :=
  (∀ (g : Gang) l, g.rd32 .zr l = 0 ∧ g.rd64 .zr l = 0) ∧ (∀ (g : Gang) wide part x, g.wr wide .zr part x = g) ∧
  (∀ g : Gang, g.pmask 47 = BitVec.allOnes 32) ∧ (∀ (g : Gang) part v, g.wrP 47 part v = g) ∧
  (∀ (r : Raw) avail n, lenBytes r.len = some n → n ≤ avail → opcLen r.opc = some n →
    (48 ≤ (r.g1.extractLsb' 0 6).toNat → ∃ b, decodeFields r avail = .error (.illegalForm b)) ∧
    (r.len ≠ 0 → 48 ≤ (r.g2.extractLsb' 0 6).toNat → ∃ b, decodeFields r avail = .error (.illegalForm b)) ∧
    (∀ f ∈ Claims.predFields r, 48 ≤ (f.extractLsb' 0 6).toNat → ∃ b, decodeFields r avail = .error (.illegalForm b))) ∧
  (∀ g k st group bs b, decodeBytes bs = .error (.illegalForm b) →
    ∃ lanes, nextIssue .full g k st group bs = .error ⟨0x11, 0xFF, 0, lanes, false⟩)

/-- An address that no cache of its core and die holds, no shootdown holds, and is neither too wide nor in the command page. -/
structure Sys2Proof.Machine.Uncached (s : State) (core asid : Nat) (va : DWord) : Prop where
  narrow : va.toNat < 2 ^ 57
  free : s.heldBy core asid va.toNat = false
  memory : va.toNat / 4096 ≠ 0x01FFFFFFFFFFF000 / 4096
  near : ∀ e ∈ (s.coreAt core).tlb, e.covers asid va.toNat = false
  die : ∀ e ∈ s.dieTlb, e.1 = core / 64 → e.2.covers asid va.toNat = false

/-- The entry of a table at `base` that a virtual address picks at a level (R194). -/
def Sys2Proof.Machine.pteAt (s : State) (base level : Nat) (va : DWord) : DWord :=
  smDWord s.mem (base + 8 * (va.toNat / 2 ^ (12 + 9 * level) % 512))

/-- The table a non-leaf entry names (R194, R196). -/
def Sys2Proof.Machine.tableOf (p : DWord) : Nat := (p.extractLsb' 12 40).toNat * 4096

/-- A non-leaf entry: P set, LEAF clear (R194). -/
def Sys2Proof.Machine.Leads (p : DWord) : Prop := p.getLsbD 0 = true ∧ p.getLsbD 2 = false

/-- R194, R195: what the checks make of a leaf entry of a page of `size` bytes of this device's own HBM, in the table's order. -/
def Sys2Proof.Machine.Checked (p : DWord) (size : Nat) (want : Want) (va : DWord) (t : Tr) : Prop :=
  let pa := (p.extractLsb' 12 40).toNat * 4096 / size * size + va.toNat % size
  pa < 0x8000000000 →
    if p.getLsbD 0 = false then t = .fault 0x01
    else match want with
      | .fetch => if p.getLsbD 4 = false then t = .fault 0x03 else ∃ attr, t = .ok pa attr
      | .write => if p.getLsbD 5 = true then t = .fault 0x04 else if p.getLsbD 3 = false then t = .fault 0x02 else ∃ attr, t = .ok pa attr
      | .read => ∃ attr, t = .ok pa attr ∧ attr.wt = p.getLsbD 7 ∧
          attr.cache.toNat = min (p.extractLsb' 8 2).toNat 2 ∧ attr.pri.toNat = min (p.extractLsb' 10 2).toNat 2 ∧
          attr.span = p.extractLsb' 53 2 ∧ attr.pin = (if p.getLsbD 63 = true then some (p.extractLsb' 55 8).toNat else none)

/-- R193 to R197, R244: translation. An address with a bit above 56 set faults 0x01; one that a shootdown holds is held; of the others,
one that a core's cache holds is translated by that entry, whatever the table now says; one that no cache holds is walked from ROOT
through the tables its entries name: an entry without P at any level, or a leaf at level 4 or 3, faults 0x01; a leaf at level 2 or 1, and every entry of level 0, maps its
page, a member of a 64 KiB page by the first of its sixteen. Translation changes nothing but the two caches and, by its walk, the L2 and what the stacks are
asked; what it adds to a cache carries its own address space. -/
def Obligations.TranslationResults : Prop :=
  (∀ (s : State) core asid va want, 2 ^ 57 ≤ va.toNat → s.translate core asid va want = (.fault 0x01, s)) ∧
  (∀ (s : State) core asid va want, va.toNat < 2 ^ 57 → s.heldBy core asid va.toNat = true → s.translate core asid va want = (.held, s)) ∧
  (∀ (s : State) core asid va want t, va.toNat < 2 ^ 57 → s.heldBy core asid va.toNat = false →
    va.toNat / 4096 ≠ 0x01FFFFFFFFFFF000 / 4096 → (s.coreAt core).tlb.find? (·.covers asid va.toNat) = some t → (s.ctxAt asid).isSome →
    Checked t.pte t.size want va (s.translate core asid va want).1 ∧ (s.translate core asid va want).2 = s) ∧
  (∀ (s : State) core asid va want x, Uncached s core asid va → s.ctxAt asid = some x →
    let p4 := pteAt s (x.root * 4096) 4 va
    let p3 := pteAt s (tableOf p4) 3 va
    let p2 := pteAt s (tableOf p3) 2 va
    let p1 := pteAt s (tableOf p2) 1 va
    let p0 := pteAt s (tableOf p1) 0 va
    let t := (s.translate core asid va want).1
    (¬Leads p4 → t = .fault 0x01) ∧ (Leads p4 → ¬Leads p3 → t = .fault 0x01) ∧
    (Leads p4 → Leads p3 → p2.getLsbD 0 = false → t = .fault 0x01) ∧
    (Leads p4 → Leads p3 → p2.getLsbD 0 = true → p2.getLsbD 2 = true → Checked p2 (2 ^ 30) want va t) ∧
    (Leads p4 → Leads p3 → Leads p2 → p1.getLsbD 0 = false → t = .fault 0x01) ∧
    (Leads p4 → Leads p3 → Leads p2 → p1.getLsbD 0 = true → p1.getLsbD 2 = true → Checked p1 (2 ^ 21) want va t) ∧
    (Leads p4 → Leads p3 → Leads p2 → Leads p1 → p0.getLsbD 0 = false → t = .fault 0x01) ∧
    (Leads p4 → Leads p3 → Leads p2 → Leads p1 → p0.getLsbD 0 = true → p0.getLsbD 1 = false → Checked p0 4096 want va t) ∧
    (Leads p4 → Leads p3 → Leads p2 → Leads p1 → p0.getLsbD 0 = true → p0.getLsbD 1 = true →
      Checked (smDWord s.mem (tableOf p1 + 8 * (va.toNat / 65536 % 32 * 16))) 65536 want va t)) ∧
  (∀ (s : State) core asid va want,
    let t := (s.translate core asid va want).2
    t = { s with cores := t.cores, dieTlb := t.dieTlb, l2 := t.l2, pchans := t.pchans } ∧ (∀ n, t.coreAt n = { s.coreAt n with tlb := (t.coreAt n).tlb }) ∧
      (∀ n, n ≠ core → t.coreAt n = s.coreAt n) ∧ (∀ e ∈ (t.coreAt core).tlb, e ∈ (s.coreAt core).tlb ∨ e.asid = asid) ∧
      (∀ e ∈ t.dieTlb, e ∈ s.dieTlb ∨ (e.1 = core / 64 ∧ e.2.asid = asid)) ∧
      ((s.coreAt core).tlb.length ≤ 64 → (t.coreAt core).tlb.length ≤ 64))

/-- R10: memory as bytes: after a write of some bytes from an address up, each of them reads back, every other byte reads as before, a
32-bit or 64-bit word written little-endian reads back whole, and the canonical form is kept. -/
def Obligations.MemoryReadAfterWrite : Prop :=
  (∀ (s : State) pa bs a, smGet (s.putHome pa bs).mem a = if pa ≤ a ∧ a < pa + bs.length then bs.getD (a - pa) 0 else smGet s.mem a) ∧
  (∀ (s : State) pa (x : Word), smWord (s.putHome pa (leBytes x.toNat 4)).mem pa = x) ∧
  (∀ (s : State) pa (x : DWord), smDWord (s.putHome pa (leBytes x.toNat 8)).mem pa = x) ∧
  (∀ (s : State) a, smWord s.mem a =
    smGet s.mem (a + 3) ++ (smGet s.mem (a + 2) ++ (smGet s.mem (a + 1) ++ smGet s.mem a : BitVec 16) : BitVec 24)) ∧
  (∀ (s : State) pa bs, s.memOk → (s.putHome pa bs).memOk) ∧
  (∀ (s : State) pa bs, s.putHome pa bs = { s with mem := (s.putHome pa bs).mem, watches := (s.putHome pa bs).watches })

/-- R46, R216, R413, R437, R444, R447, R452: what device reset leaves: CLOCK 0, the fault sequence number 0 and both record queues empty,
every ring register of every function 0, every link down, Strata off, the power cap 2,200 W, boot stage 1 next with no compute core
issuing, and no gang, team, grid or context. The remaining reset values are the model's own (log entries 5 to 8). -/
def Obligations.ResetValues : Prop :=
  let s := State.reset
  s.clock = 0 ∧ s.faultSeq = 0 ∧ s.faultQ = [] ∧ s.storeQ = [] ∧ s.cap = 2200 ∧ s.service = .boot 1 ∧ s.issueStopped = true ∧
    s.allGangs = [] ∧ s.teams = [] ∧ s.grids = [] ∧ s.ctxs = [] ∧
    (∀ f ∈ s.fns, f.reqBase = 0 ∧ f.rplBase = 0 ∧ f.evtBase = 0 ∧ f.resBase = 0 ∧ f.sizes = 0 ∧ f.enable = 0 ∧ f.reqTail = 0 ∧
      f.reqHead = 0 ∧ f.rplTail = 0 ∧ f.rplHead = 0 ∧ f.evtTail = 0 ∧ f.evtHead = 0 ∧ f.vectors = 0) ∧
    s.links.length = 18 ∧ (∀ l ∈ s.links, l.replay = 0 ∧ l.tdrop = 0 ∧ l.peer = 0 ∧ l.lanes = 0 ∧ l.state = 0) ∧ s.strata.on = false ∧
    s.memOk

/-- What stands at the PC of the issuing strand, in full service. -/
structure Sys2Proof.Machine.Window (u : State) (bs : List Byte) : Prop where
  bytes : (u.coreAt u.cur.key.core).windowBytes u.cur.team.ctx u.strand.pc.toNat = some bs
  full : u.service.lanternMode = false

/-- R162, R234, R236, R252, R325: the issue of a strand runs exactly what the bytes at its PC decode to: the instruction itself, or, where the
strand may issue one and the instruction begins one, the fused group; bytes that decode to nothing trap with the cause R252 gives, and a
PC that is no multiple of 4 traps ILLEGAL_ALIGN. -/
def Sys2Proof.Machine.Claims.IssueRunsDecoded : Prop :=
  ∀ (s : State) g k group bs, (s.gangAt g).key = g → (s.focus g k).cur.key = g →
    let u := s.focus g k
    Window u bs →
    (u.strand.pc.toNat % 4 ≠ 0 → ∃ x, s.issueWith exec group g k = .next (u.takeTrap x) ∧ x = ⟨0x12, 0xFF, 0, u.strand.mask, false⟩) ∧
    (u.strand.pc.toNat % 4 = 0 →
      (∀ i tail, decodeBytes bs = .ok (i, tail) → u.cur.bad = [] →
        s.issueWith exec group g k = exec (if group then (fuse (sound u.cur k u.strand [] (members 3 bs))).getD i else i) u) ∧
      (∀ e, decodeBytes bs = .error e → ∃ x, s.issueWith exec group g k = .next (u.begin.takeTrap x) ∧ x.kind = 0xFF ∧
        match e with
        | .illegalOpcode => x.cause = 0x10
        | .illegalForm _ => x.cause = 0x11
        | .illegalAlign => x.cause = 0x12
        | .combination i => x.cause = if allocated i u.cur = true ∧ hazard i u.cur u.strand = true then 0x13 else 0x11))

/-- The one strand of a core that can issue: its gang, alone on the core, is active, and when its instruction was last tried it waited for
nothing of its own; no uncorrectable error stands in the gang's storage. -/
structure Sys2Proof.Machine.OnlyStrand (s : State) (core part : Nat) (g : Gang) (k : Nat) : Prop where
  gang : s.partGangs core part = [g]
  others : ∀ q, q ≠ part → s.partGangs core q = []
  place : part < 4 ∧ k < 16 ∧ s.gangAt g.key = g
  active : g.active = true
  able : s.couldIssue g k = true
  single : ∀ j, j ≠ k → s.couldIssue g j = false
  tried : (g.strandAt k).own = 0
  lanes : (g.strandAt k).mask ≠ 0
  good : g.bad = []

/-- R19, R162, R163, R236, R252, R325, R452: a step that is the issue cycle of a core, in a cycle that is not withheld and in which the core has
had none, runs exactly what the bytes at the PC of the one strand that can issue decode to, with what follows at once; the partition keeps
what it selected and whether that issued, the line is the most recently used, and the strand keeps why its instruction waited, where it did. What the instruction does to the PC is its own statement. The lanes of the ILLEGAL_ALIGN that a PC takes are the model's choice
(log entry 98). -/
def Obligations.StepRunsDecodedInstruction : Prop :=
  Claims.IssueRunsDecoded ∧
  ∀ (s : State) n core part rest g k bs i tail, s.sched = ⟨n, .issue core []⟩ :: rest →
    let s1 := { s with sched := rest }.pass exec n
    OnlyStrand s1 core part g k → (s1.coreAt core).issued ≠ some s1.clock → s1.withheld = false →
    let mine : Pick := { g := g.key, strand := k, pc := (g.strandAt k).pc }
    let chosen := (List.range 4).foldl (fun (u : State) q => u.modPart core q fun p =>
      { p with selectedAt := some s1.clock, selected := if q = part then [mine] else [] }) s1
    let s2 := ((chosen.touchSelected core [(g.key, k)]).modCore core fun c => { c with issued := some s1.clock, busy := [] }).modPart core part
      fun p => { p with forced := none }
    let u := s2.focus g.key k
    Window u bs → u.strand.pc.toNat % 4 = 0 → decodeBytes bs = .ok (i, tail) →
    step s = match exec ((fuse (sound u.cur k u.strand [] (members 3 bs))).getD i) u with
      | .next t => .next ((t.noteWait g k).notePick (g.key, k) (t.cur.issueSeq != g.issueSeq)).settled
      | o => o

/-- The guard pt with no marker, in the header of a 64-bit instruction and of a longer one. -/
def Sys2Proof.Machine.Claims.plain : Hdr := ⟨⟨false, 47⟩, false, false⟩
def Sys2Proof.Machine.Claims.plain2 : Hdr2 := ⟨⟨false, 47⟩, ⟨false, 47⟩, false, false, false⟩

/-- Words that the spec writes out beside their fields, decoded: IMAD v7, v6, v0, 5; FORK f0, p1 and BRA.ANY under p1; FFMA and FMAX;
CVTX.mf8e4.f32; STG.rel.i32, CAS.i32, REDU.ADD.f32, WAITW.EQ.acq.n32.sw and ATOM.ADD.rel.n32.sw; POP; MMA under p3; MSET; SBAR;
REDUX.ADD.i32; SAMPCTL.start under p3; and a word with length field 11, one with no opcode,
one with an unused field set and one whose length would pass its window's end, refused each for its own reason (R252). -/
def Obligations.DecodeWords : Prop :=
  (∀ p ∈ ([
      ([0x1075E040, 0x80050006], .imad false ⟨Claims.plain, .i32, .v 7, .v 6, .v 0, .imm 5⟩),
      ([0x0FF5EC82, 0x0000FF01, 0x002F000C, 0x00000010], .fork Claims.plain2 0 ⟨false, 1⟩ 0xC 0x10),
      ([0x0FF02C11, 0x00FFFFFF, 0xFF2FFFFA], .braAny { Claims.plain2 with g1 := ⟨false, 1⟩ } 0xFFFFFA),
      ([0x9045E430, 0x00030201], .ffma ⟨Claims.plain, .f32, .rn, false, .v 4, ⟨.v 1, false, false⟩, ⟨.v 2, false, false⟩⟩ false (.v 3)),
      ([0x9045E450, 0x00FFFF04], .fmax ⟨Claims.plain, .f32, false, false, .v 4, ⟨.v 4, false, false⟩, ⟨.zr, false, false⟩⟩),
      ([0x0085E921, 0x0009FF01, 0x022F0011],
        .cvtx .rn ⟨Claims.plain2, .v 8, .v 1, .v 9, false, false, false, 0x11, 0, 2, 0⟩),
      ([0x1FF5F011, 0x1001FFC3, 0x002F0010],
        .stg { h := Claims.plain2, ahead := false, vec := .x1, ty := .i32, data := .v 1, m := ⟨.s 3, .zr, 0x10⟩ } true ⟨0, 0⟩),
      ([0x1025F111, 0x0005FFC2, 0x042F0000], .cas ⟨Claims.plain2, .none, false⟩ .i32 (.v 2) ⟨.s 2, .zr, 0⟩ (.v 5) (.v 4)),
      ([0x9FF5F151, 0x0A030AC2, 0x002F0000], .redu Claims.plain2 false ⟨10, false⟩ ⟨.s 2, .v 10, 0⟩ (.v 3)),
      ([0x2035F105, 0x8006FFC3, 0x002F0000],
        .atom ⟨{ Claims.plain2 with sw := true }, .rel, false⟩ .add .n32 (.v 3) ⟨.s 3, .zr, 0⟩ (.v 6)),
      ([0x2045F255, 0x8007FFC3, 0x002F0000],
        .waitw { h := { Claims.plain2 with sw := true }, cc := .eq, acq := true, ty := .n32, d := .v 4, m := ⟨.s 3, .zr, 0⟩, b := .v 7 }),
      ([0x0065F740, 0x0001FFFF], .pop Claims.plain (.v 6) 1),
      ([0x0FF07640, 0x00FFFFC7], .mma { Claims.plain with g1 := ⟨false, 3⟩ } (.s 7)),
      ([0x0FF5FA30, 0x800FFFFF], .mset Claims.plain 0 (.imm 0xF)),
      ([0x0075FAB0, 0x00FFFF06], .sbar Claims.plain (.v 7) 0 (.v 6) .zr),
      ([0x1095FB30, 0x00FFFF08], .redux Claims.plain (.int 0 true) (.v 9) (.v 8)),
      ([0x0FF07D50, 0x00FFFF09], .sampctlStart { Claims.plain with g1 := ⟨false, 3⟩ } (.v 9))] : List (List Word × Instr)),
    decodeBytes (wordBytes p.1) = .ok (p.2, [])) ∧
  decodeBytes (wordBytes [0x0FF5ECF3, 0x00FFFFFF]) = .error (.illegalForm false) ∧
  decodeBytes (wordBytes [0x0FF5FFF0, 0x00FFFFFF]) = .error .illegalOpcode ∧
  decodeBytes (wordBytes [0x0FF5ECF0, 0x00FFFFFE]) = .error (.illegalForm false) ∧
  decodeBytes (wordBytes [0x0FF7ECF0, 0x00FFFFFF]) = .error (.illegalForm true) ∧
  decodeBytes (wordBytes [0x0FF5ED01, 0x00FFFFFF]) = .error .illegalAlign

/-- R236 to R249: for every well-formed instruction of a strand, decoding its encoding gives it back, with every operand at every value,
and consumes exactly its length; a fused group has no encoding of its own (R325). -/
def Obligations.EncodeDecodeRoundTrip : Prop :=
  ∀ i : Instr, i.isStep = false → (∀ g, i ≠ .fusedGroup g) → i.wellFormed = true →
    (encode i).length * 4 = i.len ∧ ∀ tail, decodeBytes (wordBytes (encode i) ++ tail) = .ok (i, tail)

/-- R216, R451, R452: memory's canonical form, the P-state and the cap within their ranges, and the record queues within their sizes are
kept by every step. -/
def Obligations.StepKeepsInvariant : Prop := ∀ s t : State, s.Inv → step s = .next t → t.Inv

/-- R216, R451, R452: the machine after device reset has that form. -/
def Obligations.ResetHasInvariant : Prop := State.reset.Inv

/-- R212, R213: no state and no instruction ends a run: every instruction, on every state, and every step answers a next state, a trap
among them. -/
def Obligations.EveryStepGoesOn : Prop := (∀ i s, ∃ t, exec i s = .next t) ∧ ∀ s : State, s.goesOn
end

