-- ==== Sys2Proof/Laws/Maps.lean ====
section
/-! SUPPORT. Laws of the sparse contents and of the lane sets: what a read gives after a write, and that every write keeps the
canonical form. -/

namespace Sys2Proof.Machine

/-! ### Reads after writes -/

theorem smGet_smErase {w : Nat} (m : SMap w) (a b : Nat) : smGet (smErase m a) b = if b = a then 0 else smGet m b := by
  induction m with
  | nil => simp [smErase, smGet]
  | cons e rest ih =>
    obtain ⟨k, v⟩ := e
    by_cases h : k = a
    · subst h
      by_cases hb : b = k
      · subst hb; simp [smErase, ih]
      · simp [smErase, smGet, ih, hb, Ne.symm hb]
    · by_cases hb : b = a
      · subst hb; simp [smErase, smGet, h, ih]
      · by_cases hk : k = b
        · subst hk; simp [smErase, smGet, h]
        · simp [smErase, smGet, h, hk, ih, hb]

theorem smGet_smInsert {w : Nat} (m : SMap w) (a b : Nat) (x : BitVec w) (hm : ∀ v, (a, v) ∉ m) : smGet (smInsert m a x) b = if b = a then x else smGet m b := by
  induction m with
  | nil =>
    by_cases hb : b = a
    · subst hb; simp [smInsert, smGet]
    · simp [smInsert, smGet, hb, Ne.symm hb]
  | cons e rest ih =>
    obtain ⟨k, v⟩ := e
    have hk : k ≠ a := fun hk => hm v (by simp [hk])
    have hr : ∀ v, (a, v) ∉ rest := fun u hu => hm u (List.mem_cons_of_mem _ hu)
    by_cases hlt : a < k
    · by_cases hb : b = a
      · subst hb; simp [smInsert, hlt, smGet]
      · simp [smInsert, hlt, smGet, hb, Ne.symm hb]
    · by_cases hkb : k = b
      · subst hkb; simp [smInsert, hlt, smGet, hk]
      · simp [smInsert, hlt, smGet, hkb, ih hr]

theorem not_mem_smErase {w : Nat} (m : SMap w) (a : Nat) (v : BitVec w) : (a, v) ∉ smErase m a := by
  induction m with
  | nil => simp [smErase]
  | cons e rest ih =>
    obtain ⟨k, u⟩ := e
    by_cases h : k = a
    · simp [smErase, h, ih]
    · simp [smErase, h, ih, Ne.symm h]

/-- A read after a write: the value written at its key, and every other key as before. -/
theorem smGet_smSet {w : Nat} (m : SMap w) (a b : Nat) (x : BitVec w) :
    smGet (smSet m a x) b = if b = a then x else smGet m b := by
  unfold smSet
  split
  · next h => subst h; simp [smGet_smErase]
  · rw [smGet_smInsert _ _ _ _ (not_mem_smErase m a)]
    by_cases hb : b = a <;> simp [smGet_smErase, hb]

@[simp] theorem smGet_smSet_self {w : Nat} (m : SMap w) (a : Nat) (x : BitVec w) : smGet (smSet m a x) a = x := by
  simp [smGet_smSet]

/-- A read of one byte after a run of bytes is written: the byte of the run there, or the byte that stood there. -/
theorem smGet_smPut (m : SMap 8) (a : Nat) (bs : List Byte) (b : Nat) :
    smGet (smPut m a bs) b = if a ≤ b ∧ b < a + bs.length then bs.getD (b - a) 0 else smGet m b := by
  induction bs generalizing m a with
  | nil => simp [smPut]
  | cons x rest ih =>
    rw [smPut, ih, smGet_smSet]
    by_cases hb : b = a
    · subst hb; simp
    · by_cases h : a ≤ b ∧ b < a + (x :: rest).length
      · have h1 : a + 1 ≤ b ∧ b < a + 1 + rest.length := by simp at h; omega
        have h2 : b - a = (b - (a + 1)) + 1 := by omega
        simp only [h, h1, h2, and_self, if_true]
        simp
      · have h1 : ¬ (a + 1 ≤ b ∧ b < a + 1 + rest.length) := by simp at h; omega
        simp only [h, h1, if_false, hb]

/-! ### The canonical form -/

/-- Every key of a list is above a bound. -/
theorem smWf_cons {w : Nat} (k : Nat) (v : BitVec w) (m : SMap w) :
    smWf ((k, v) :: m) = true ↔ v ≠ 0 ∧ (∀ e ∈ m, k < e.1) ∧ smWf m = true := by
  induction m generalizing k v with
  | nil => simp [smWf]
  | cons e rest ih =>
    obtain ⟨j, u⟩ := e
    have := ih j u
    constructor
    · intro h
      have hw : smWf ((j, u) :: rest) = true := by
        rw [smWf] at h; simp only [Bool.and_eq_true] at h; exact h.2
      have hk : k < j := by
        rw [smWf] at h; simp only [Bool.and_eq_true, decide_eq_true_eq] at h; exact h.1.2
      have hv : v ≠ 0 := by
        rw [smWf] at h; simp only [Bool.and_eq_true, bne_iff_ne] at h; exact h.1.1
      refine ⟨hv, ?_, hw⟩
      intro e he
      rcases List.mem_cons.1 he with rfl | he
      · exact hk
      · exact Nat.lt_trans hk ((this.1 hw).2.1 e he)
    · intro ⟨hv, hk, hw⟩
      rw [smWf]
      simp only [Bool.and_eq_true, bne_iff_ne, decide_eq_true_eq]
      exact ⟨⟨hv, hk (j, u) (by simp)⟩, hw⟩

theorem smErase_mem {w : Nat} (m : SMap w) (a : Nat) : ∀ e ∈ smErase m a, e ∈ m ∧ e.1 ≠ a := by
  induction m with
  | nil => simp [smErase]
  | cons e rest ih =>
    obtain ⟨k, v⟩ := e
    by_cases h : k = a
    · intro x hx; simp [smErase, h] at hx; exact ⟨List.mem_cons_of_mem _ (ih x hx).1, (ih x hx).2⟩
    · intro x hx
      simp [smErase, h] at hx
      rcases hx with rfl | hx
      · exact ⟨by simp, h⟩
      · exact ⟨List.mem_cons_of_mem _ (ih x hx).1, (ih x hx).2⟩

theorem smWf_smErase {w : Nat} (m : SMap w) (a : Nat) (h : smWf m = true) : smWf (smErase m a) = true := by
  induction m with
  | nil => simp [smErase, smWf]
  | cons e rest ih =>
    obtain ⟨k, v⟩ := e
    rw [smWf_cons] at h
    by_cases hk : k = a
    · simp [smErase, hk, ih h.2.2]
    · simp only [smErase, hk, if_false]
      rw [smWf_cons]
      exact ⟨h.1, fun e he => h.2.1 e (smErase_mem rest a e he).1, ih h.2.2⟩

theorem smInsert_mem {w : Nat} (m : SMap w) (a : Nat) (x : BitVec w) :
    ∀ e ∈ smInsert m a x, e = (a, x) ∨ e ∈ m := by
  induction m with
  | nil => simp [smInsert]
  | cons e rest ih =>
    obtain ⟨k, v⟩ := e
    intro y hy
    by_cases hlt : a < k
    · simp [smInsert, hlt] at hy; simp; tauto
    · simp [smInsert, hlt] at hy
      rcases hy with rfl | hy
      · right; simp
      · rcases ih y hy with h | h
        · exact .inl h
        · exact .inr (List.mem_cons_of_mem _ h)

theorem smWf_smInsert {w : Nat} (m : SMap w) (a : Nat) (x : BitVec w) (hx : x ≠ 0) (h : smWf m = true)
    (hm : ∀ e ∈ m, e.1 ≠ a) : smWf (smInsert m a x) = true := by
  induction m with
  | nil => simpa [smInsert, smWf] using hx
  | cons e rest ih =>
    obtain ⟨k, v⟩ := e
    have h' := (smWf_cons k v rest).1 h
    have hka : k ≠ a := hm (k, v) (by simp)
    by_cases hlt : a < k
    · simp only [smInsert, hlt, if_true]
      rw [smWf_cons]
      refine ⟨hx, ?_, h⟩
      intro e he
      rcases List.mem_cons.1 he with rfl | he
      · exact hlt
      · exact Nat.lt_trans hlt (h'.2.1 e he)
    · simp only [smInsert, hlt, if_false]
      rw [smWf_cons]
      refine ⟨h'.1, ?_, ih h'.2.2 fun e he => hm e (List.mem_cons_of_mem _ he)⟩
      intro e he
      rcases smInsert_mem rest a x e he with rfl | he
      · show k < a; omega
      · exact h'.2.1 e he

/-- A write keeps the canonical form. -/
theorem smWf_smSet {w : Nat} (m : SMap w) (a : Nat) (x : BitVec w) (h : smWf m = true) : smWf (smSet m a x) = true := by
  unfold smSet
  split
  · exact smWf_smErase m a h
  · next hx => exact smWf_smInsert _ a x hx (smWf_smErase m a h) fun e he => (smErase_mem m a e he).2

/-- So does a run of bytes. -/
theorem smWf_smPut (m : SMap 8) (a : Nat) (bs : List Byte) (h : smWf m = true) : smWf (smPut m a bs) = true := by
  induction bs generalizing m a with
  | nil => exact h
  | cons b rest ih => exact ih _ _ (smWf_smSet m a b h)

/-- So does leaving entries out. -/
theorem smWf_filter {w : Nat} (m : SMap w) (f : Nat × BitVec w → Bool) (h : smWf m = true) : smWf (m.filter f) = true := by
  induction m with
  | nil => simp [smWf]
  | cons e rest ih =>
    obtain ⟨k, v⟩ := e
    rw [smWf_cons] at h
    rw [List.filter_cons]
    split
    · rw [smWf_cons]
      exact ⟨h.1, fun e he => h.2.1 e (List.mem_of_mem_filter he), ih h.2.2⟩
    · exact ih h.2.2

/-- In canonical form equal reads are equal data: an entry is listed exactly where the read is not 0. -/
theorem smGet_of_mem {w : Nat} (m : SMap w) (h : smWf m = true) (k : Nat) (v : BitVec w) (hm : (k, v) ∈ m) :
    smGet m k = v := by
  induction m with
  | nil => simp at hm
  | cons e rest ih =>
    obtain ⟨j, u⟩ := e
    have h' := (smWf_cons j u rest).1 h
    rcases List.mem_cons.1 hm with heq | hr
    · cases heq; simp [smGet]
    · have : j < k := h'.2.1 (k, v) hr
      simp [smGet, Nat.ne_of_lt this, ih h'.2.2 hr]

/-! ### Lane sets -/

theorem mem_lanesOf (m : LaneMask) (l : Nat) : l ∈ lanesOf m ↔ l < 32 ∧ m.getLsbD l = true := by
  simp [lanesOf]

theorem lanesOf_nodup (m : LaneMask) : (lanesOf m).Nodup := List.Nodup.filter _ List.nodup_range

@[simp] theorem lanesOf_zero : lanesOf 0 = [] := by decide

theorem lowLane_some {m : LaneMask} {l : Nat} (h : lowLane m = some l) : l < 32 ∧ m.getLsbD l = true := by
  have : l ∈ lanesOf m := List.mem_of_head? h
  exact (mem_lanesOf m l).1 this

theorem lowLane_none {m : LaneMask} : lowLane m = none ↔ m = 0 := by
  constructor
  · intro h
    have h0 : lanesOf m = [] := by simpa [lowLane, List.head?_eq_none_iff] using h
    apply BitVec.eq_of_getLsbD_eq
    intro i hi
    by_contra hne
    have : m.getLsbD i = true := by simpa using hne
    have : i ∈ lanesOf m := (mem_lanesOf m i).2 ⟨hi, this⟩
    simp [h0] at this
  · rintro rfl; decide

theorem getLsbD_laneBit (l k : Nat) (hk : k < 32) : (laneBit l).getLsbD k = decide (k = l) := by
  unfold laneBit
  by_cases h : k = l
  · subst h; simp [hk]
  · simp [h]; omega

/-- A bit of the mask of a condition. -/
theorem getLsbD_maskOf (c : Nat → Bool) (k : Nat) (hk : k < 32) : (maskOf c).getLsbD k = c k := by
  have key : ∀ (ls : List Nat) (m : LaneMask),
      (ls.foldl (fun m l => if c l then m ||| laneBit l else m) m).getLsbD k =
        (m.getLsbD k || (c k && ls.contains k)) := by
    intro ls
    induction ls with
    | nil => intro m; simp
    | cons l rest ih =>
      intro m
      rw [List.foldl_cons, ih]
      by_cases hc : c l
      · by_cases hl : k = l
        · subst hl; simp [hc, getLsbD_laneBit _ _ hk]
        · simp [hc, getLsbD_laneBit _ _ hk, hl]
      · by_cases hl : k = l
        · subst hl; simp [hc]
        · simp [hc, hl]
  have := key (List.range 32) 0#32
  rw [maskOf, this]
  simp [hk]

/-! ### Lists by key -/

theorem modAt_length {α : Type} (l : List α) (n : Nat) (f : α → α) : (modAt l n f).length = l.length := by
  unfold modAt; split <;> simp

theorem atD_modAt {α : Type} (l : List α) (n k : Nat) (f : α → α) (d : α) :
    atD (modAt l n f) k d = if k = n ∧ n < l.length then f (atD l k d) else atD l k d := by
  unfold atD modAt
  by_cases hn : n < l.length
  · simp only [List.getElem?_eq_getElem hn]
    by_cases hk : k = n
    · subst hk; simp [hn]
    · simp [hk, List.getElem?_set_ne (Ne.symm hk)]
  · have : l[n]? = none := by simp [Nat.not_lt.1 hn]
    simp [hn]

end Sys2Proof.Machine
end

