-- ==== Sys2Proof/Laws/Registers.lean ====
section
/-! SUPPORT. Laws of the registers (R41 to R45): what a read gives after a write, one lemma for each write and each kind of
read. -/

namespace Sys2Proof.Machine

/-! ### Vector registers -/

theorem smGet_setV (m : SMap 32) (n l k : Nat) (x : Word) :
    smGet (setV m n l x) k = if k = n * 32 + l then x else smGet m k := smGet_smSet m _ k x

/-- One lane of one register after a destination is written in one lane. -/
theorem smGet_setVW (wide : Bool) (n : Nat) (x : Nat → DWord) (m : SMap 32) (l r j : Nat) (hl : l < 32) (hj : j < 32) :
    smGet (setVW wide n x m l) (r * 32 + j) =
      if j = l ∧ r = n then (x l).setWidth 32
      else if wide = true ∧ j = l ∧ r = n + 1 then (x l).extractLsb' 32 32
      else smGet m (r * 32 + j) := by
  have key : ∀ a b : Nat, (a * 32 + j = b * 32 + l) ↔ (j = l ∧ a = b) := by intro a b; omega
  unfold setVW
  cases wide
  · simp [smGet_setV, key]
  · simp only [if_true, smGet_setV, key, true_and]
    by_cases h1 : j = l <;> by_cases h2 : r = n <;> by_cases h3 : r = n + 1 <;> simp [h1, h2, h3]

/-- One lane of one register after a destination is written in some lanes. -/
theorem smGet_foldl_setVW (wide : Bool) (n : Nat) (x : Nat → DWord) (ls : List Nat) (m : SMap 32) (r j : Nat)
    (hls : ∀ l ∈ ls, l < 32) (hj : j < 32) :
    smGet (ls.foldl (setVW wide n x) m) (r * 32 + j) =
      if j ∈ ls ∧ r = n then (x j).setWidth 32
      else if j ∈ ls ∧ wide = true ∧ r = n + 1 then (x j).extractLsb' 32 32
      else smGet m (r * 32 + j) := by
  induction ls generalizing m with
  | nil => simp
  | cons l rest ih =>
    rw [List.foldl_cons, ih _ fun k hk => hls k (List.mem_cons_of_mem _ hk), smGet_setVW _ _ _ _ _ _ _ (hls l (by simp)) hj]
    by_cases h1 : j = l
    · subst h1
      by_cases h2 : r = n <;> by_cases h3 : r = n + 1 <;> cases wide <;> simp [h2, h3]
    · by_cases h2 : r = n <;> by_cases h3 : r = n + 1 <;> cases wide <;> simp [h1, h2, h3]

/-- A lane of a vector register after a write of a register: the value in the lanes of `part` of the destination, and every
other one as before (R42, R44, R45). -/
theorem Gang.vr_wr (g : Gang) (wide : Bool) (d : Reg) (part : LaneMask) (x : Nat → DWord) (r j : Nat) (hj : j < 32) :
    (g.wr wide d part x).vr r j =
      match d with
      | .v n =>
        if part.getLsbD j = true ∧ r = n.val then (x j).setWidth 32
        else if part.getLsbD j = true ∧ wide = true ∧ r = n.val + 1 then (x j).extractLsb' 32 32
        else g.vr r j
      | _ => g.vr r j := by
  cases d with
  | v n =>
    have hm : j ∈ lanesOf part ↔ part.getLsbD j = true := by rw [mem_lanesOf]; simp [hj]
    simp only [Gang.wr, Gang.vr]
    rw [smGet_foldl_setVW _ _ _ _ _ _ _ (fun l hl => ((mem_lanesOf part l).1 hl).1) hj]
    simp only [hm]
  | s n => simp only [Gang.wr]; split <;> rfl
  | zr => rfl

/-! ### Scalar registers -/

/-- A scalar register after a write of a register: the value of the lowest lane of `part`, bits 63:32 clear at 32 bits
(R44, R45). -/
theorem Gang.s_wr (g : Gang) (wide : Bool) (d : Reg) (part : LaneMask) (x : Nat → DWord) (k : Nat) :
    smGet (g.wr wide d part x).s k =
      match d, lowLane part with
      | .s n, some l => if k = n.val then (if wide then x l else ((x l).setWidth 32).setWidth 64) else smGet g.s k
      | _, _ => smGet g.s k := by
  cases d with
  | v n => rfl
  | s n =>
    simp only [Gang.wr]
    cases h : lowLane part with
    | none => rfl
    | some l => simp [Gang.setScalar, smGet_smSet]
  | zr => rfl

/-! ### Predicates -/

/-- A predicate after a write of a predicate: the value in the lanes of `part`; p47 keeps its value (R42). -/
theorem Gang.pmask_wrP (g : Gang) (i : Nat) (part val : LaneMask) (k l : Nat) :
    ((g.wrP i part val).pmask k).getLsbD l =
      if k = i ∧ i ≠ 47 ∧ part.getLsbD l = true then val.getLsbD l else (g.pmask k).getLsbD l := by
  unfold Gang.wrP
  by_cases hi : i = 47
  · simp [hi]
  · simp only [hi, if_false]
    by_cases hk : k = i
    · subst hk
      simp only [Gang.pmask, hi, if_false, smGet_smSet_self]
      by_cases hp : part.getLsbD l = true
      · by_cases hl : l < 32
        · simp [hp, hi]
        · have := BitVec.lt_of_getLsbD hp; omega
      · simp [hp]
        intro hl
        have := BitVec.lt_of_getLsbD hl; omega
    · simp only [hk, false_and, if_false]
      by_cases h47 : k = 47
      · simp [Gang.pmask, h47]
      · simp [Gang.pmask, h47, smGet_smSet, hk]

@[simp] theorem Gang.pmask_47 (g : Gang) : g.pmask 47 = BitVec.allOnes 32 := rfl

/-! ### What a write leaves alone -/

/-- A register write changes no field of the gang but its vector and scalar registers, and the order in which the latter were written. -/
theorem Gang.wr_frame (g : Gang) (wide : Bool) (d : Reg) (part : LaneMask) (x : Nat → DWord) :
    g.wr wide d part x = { g with v := (g.wr wide d part x).v, s := (g.wr wide d part x).s, sSeq := (g.wr wide d part x).sSeq } := by
  cases d with
  | v n => rfl
  | s n => simp only [Gang.wr]; cases lowLane part <;> rfl
  | zr => rfl

/-- A predicate write changes no field of the gang but its predicates. -/
theorem Gang.wrP_frame (g : Gang) (i : Nat) (part val : LaneMask) :
    g.wrP i part val = { g with p := (g.wrP i part val).p } := by
  unfold Gang.wrP; split <;> rfl

end Sys2Proof.Machine
end

