-- ==== Sys2Proof/Laws/Issue.lean ====
section
/-! SUPPORT. Laws of issuing: what the shared operations `issue`, `computing` and `lanewise` do to everything, said once. -/

namespace Sys2Proof.Machine

/-! ### Cores and strands -/

theorem find_modWhere {α : Type} (p c : α → Bool) (f : α → α) (l : List α) (h : ∀ x, p (f x) = p x) :
    (modWhere c f l).find? p = (l.find? p).map fun x => if c x then f x else x := by
  induction l with
  | nil => rfl
  | cons a rest ih =>
    have ha : p (if c a then f a else a) = p a := by split <;> simp [h]
    simp only [modWhere, List.map_cons, List.find?_cons, ha]
    cases p a
    · exact ih
    · rfl

/-- A core after a core changes: the change applies to it alone. -/
theorem State.coreAt_modCore (s : State) (n k : Nat) (f : Core → Core) (hf : ∀ c, (f c).num = c.num) :
    (s.modCore n f).coreAt k = if k = n then f (s.coreAt n) else s.coreAt k := by
  have hp : ∀ (k : Nat) (c : Core), ((f c).num == k) = (c.num == k) := by intro k c; rw [hf]
  unfold State.modCore State.coreAt upsert
  by_cases hany : s.cores.any (fun c => c.num == n)
  · simp only [hany, if_true]
    rw [find_modWhere _ _ _ _ (hp k)]
    by_cases hk : k = n
    · subst hk
      simp only [if_true]
      obtain ⟨c, hc, hn⟩ := List.any_eq_true.1 hany
      obtain ⟨c', hc'⟩ : ∃ c', s.cores.find? (fun c => c.num == k) = some c' := by
        rw [← Option.isSome_iff_exists, List.find?_isSome]; exact ⟨c, hc, hn⟩
      have : (c'.num == k) = true := by simpa using List.find?_some hc'
      simp only [hc', Option.map_some, Option.getD_some, this, if_true]
    · simp only [hk, if_false]
      cases hc : s.cores.find? (fun c => c.num == k) with
      | none => rfl
      | some c =>
        have h1 : c.num = k := by simpa using List.find?_some hc
        have : (c.num == n) = false := by simp [h1, hk]
        simp only [Option.map_some, Option.getD_some, this, Bool.false_eq_true, if_false]
  · have hnone : s.cores.find? (fun c => c.num == n) = none := by
      rw [List.find?_eq_none]; intro c hc hn; exact hany (List.any_eq_true.2 ⟨c, hc, hn⟩)
    simp only [hany, if_false, List.find?_append, Bool.false_eq_true]
    by_cases hk : k = n
    · subst hk
      have : ((f (Core.empty k)).num == k) = true := by simp [hf, Core.empty]
      simp [hnone, this]
    · have : ((f (Core.empty n)).num == k) = false := by simp [hf, Core.empty, Ne.symm hk]
      cases hc : s.cores.find? (fun c => c.num == k) <;> simp [this, hk]

theorem Gang.strandAt_modStrand (g : Gang) (k j : Nat) (f : Strand → Strand) :
    (g.modStrand k f).strandAt j = if j = k ∧ k < g.strands.length then f (g.strandAt k) else g.strandAt j := by
  simp only [Gang.modStrand, Gang.strandAt, atD_modAt]
  by_cases h : j = k
  · subst h; rfl
  · simp [h]

@[simp] theorem Gang.modStrand_length (g : Gang) (k : Nat) (f : Strand → Strand) :
    (g.modStrand k f).strands.length = g.strands.length := modAt_length _ _ _

/-! ### Issue -/

/-- Two strands agree on everything but state, waits, place and the records of issuing. -/
structure SameLane (a b : Strand) : Prop where
  valid : b.valid = a.valid
  mask : b.mask = a.mask
  rank : b.rank = a.rank
  kind : b.kind = a.kind
  fork : b.fork = a.fork
  mdone : b.mdone = a.mdone
  coll : b.coll = a.coll
  path : b.path = a.path

theorem SameLane.refl (a : Strand) : SameLane a a := ⟨rfl, rfl, rfl, rfl, rfl, rfl, rfl, rfl⟩

theorem SameLane.trans {a b c : Strand} (h : SameLane a b) (h' : SameLane b c) : SameLane a c :=
  ⟨h'.valid.trans h.valid, h'.mask.trans h.mask, h'.rank.trans h.rank, h'.kind.trans h.kind, h'.fork.trans h.fork,
    h'.mdone.trans h.mdone, h'.coll.trans h.coll, h'.path.trans h.path⟩

theorem Strand.counted_lane (st : Strand) (pc : VAddr) (n : Nat) (spun acc : Bool) (clock : DWord) :
    SameLane st (st.counted pc n spun acc clock) ∧ (st.counted pc n spun acc clock).pc = st.pc := by
  unfold Strand.counted
  split
  · split
    · exact ⟨⟨rfl, rfl, rfl, rfl, rfl, rfl, rfl, rfl⟩, rfl⟩
    · exact ⟨⟨rfl, rfl, rfl, rfl, rfl, rfl, rfl, rfl⟩, rfl⟩
  · exact ⟨SameLane.refl st, rfl⟩

theorem Strand.marked_lane (st : Strand) (n : Nat) : SameLane st (st.marked n) ∧ (st.marked n).pc = st.pc := by
  unfold Strand.marked; split
  · exact ⟨⟨rfl, rfl, rfl, rfl, rfl, rfl, rfl, rfl⟩, rfl⟩
  · exact ⟨SameLane.refl st, rfl⟩

theorem Strand.settled_lane (st : Strand) (x : StrandState) : SameLane st (st.settled x) ∧ (st.settled x).pc = st.pc := by
  unfold Strand.settled; split
  · exact ⟨⟨rfl, rfl, rfl, rfl, rfl, rfl, rfl, rfl⟩, rfl⟩
  · exact ⟨SameLane.refl st, rfl⟩

/-- Changing a strand's record changes no strand's lanes or place. -/
theorem Gang.modStrand_lane (g : Gang) (k j : Nat) (f : Strand → Strand)
    (hf : ∀ st, SameLane st (f st) ∧ (f st).pc = st.pc) :
    SameLane (g.strandAt j) ((g.modStrand k f).strandAt j) ∧ ((g.modStrand k f).strandAt j).pc = (g.strandAt j).pc := by
  rw [Gang.strandAt_modStrand]
  split
  · next h => rw [h.1]; exact hf _
  · exact ⟨SameLane.refl _, rfl⟩

theorem Gang.modStrand_other (g : Gang) (k j : Nat) (f : Strand → Strand) (h : j ≠ k) :
    (g.modStrand k f).strandAt j = g.strandAt j := by
  rw [Gang.strandAt_modStrand]; simp [h]

/-- A gang after changes in no field but its strands and counts. -/
structure Counted (g h : Gang) : Prop where
  eq : h = { g with strands := h.strands, perf := h.perf, issueSeq := h.issueSeq, pcs := h.pcs }

theorem Counted.of (g : Gang) (a : List Strand) (b : SMap 64) (c : Nat) (d : List (Nat × VAddr)) :
    Counted g { g with strands := a, perf := b, issueSeq := c, pcs := d } := ⟨rfl⟩

theorem Counted.trans {g h k : Gang} (x : Counted g h) (y : Counted h k) : Counted g k := by
  have e := y.eq
  generalize k.strands = a at e
  generalize k.perf = b at e
  generalize k.issueSeq = c at e
  generalize k.pcs = d at e
  rw [x.eq] at e
  rw [e]
  exact Counted.of g a b c d

theorem Gang.modStrand_counted (g : Gang) (k : Nat) (f : Strand → Strand) : Counted g (g.modStrand k f) := Counted.of g _ _ _ _

theorem Gang.counted_counted (g : Gang) (pc : VAddr) (n : Nat) : Counted g (g.counted pc n) := Counted.of g _ _ _ _

/-- Counting an issue changes no field of the gang but its strands and counts. -/
theorem Gang.issued_counted (g : Gang) (i : Instr) (k : Nat) (pc : VAddr) (spun acc : Bool) (clock : DWord) :
    Counted g (g.issued i k pc spun acc clock) := by
  have h1 := (g.counted_counted pc i.count).trans
    (Gang.modStrand_counted _ k fun st => st.counted pc i.count spun acc clock)
  unfold Gang.issued
  split
  · exact (h1.trans (Gang.modStrand_counted _ _ _)).trans (Gang.modStrand_counted _ _ _)
  · exact h1

/-- Counting an issue moves no strand: the others are as before, and the issuing one keeps its place, lanes and lineage. -/
theorem Gang.issued_strand (g : Gang) (i : Instr) (k : Nat) (pc : VAddr) (spun acc : Bool) (clock : DWord) (j : Nat) :
    (j ≠ k → (g.issued i k pc spun acc clock).strandAt j = g.strandAt j) ∧
    SameLane (g.strandAt j) ((g.issued i k pc spun acc clock).strandAt j) ∧
    ((g.issued i k pc spun acc clock).strandAt j).pc = (g.strandAt j).pc := by
  have h0 : (g.counted pc i.count).strandAt j = g.strandAt j := rfl
  have h1 := Gang.modStrand_lane (g.counted pc i.count) k j (fun st => st.counted pc i.count spun acc clock)
    fun st => Strand.counted_lane ..
  rw [h0] at h1
  unfold Gang.issued
  split
  · unfold Gang.switchMark
    refine ⟨fun h => ?_, ?_⟩
    · rw [Gang.modStrand_other _ _ _ _ h, Gang.modStrand_other _ _ _ _ h, Gang.modStrand_other _ _ _ _ h, h0]
    · have h2 := fun (g : Gang) (n : Nat) => Gang.modStrand_lane g k j (fun st => st.marked n) fun st => Strand.marked_lane ..
      have h3 := fun (g : Gang) (x : StrandState) => Gang.modStrand_lane g k j (fun st => st.settled x)
        fun st => Strand.settled_lane ..
      exact ⟨(h1.1.trans (h2 _ _).1).trans (h3 _ _).1, ((h3 _ _).2.trans (h2 _ _).2).trans h1.2⟩
  · exact ⟨fun h => by rw [Gang.modStrand_other _ _ _ _ h, h0], h1⟩

/-- An instruction whose registers are allocated, with no wait and no pending operand, does what its own operation does
(R252). -/
theorem issue_ready {i : Instr} {gate : LaneMask → State → Option State} {body : LaneMask → State → Res} {s : State}
    (hr : Ready i s) (hg : gate (s.part i) s = none) :
    issue i gate body s =
      match body (s.part i) s.begin with
      | .done s' => .next ((s'.setPc (s.pcAfter i.len)).retire i s.strand.pc (s.part i))
      | .goto s' pc => .next ((s'.branchTo pc).retire i s.strand.pc (s.part i))
      | .stay s' => .next (s'.retire i s.strand.pc (s.part i))
      | .trap t => .next (s.begin.takeTrap t)
      | .wait s' => .next s'
      | .error t s' unit home addr => .next ((s'.takeTrap t).logErr s.cur.ctxField 2 unit home (errStack unit addr) addr) := by
  unfold issue
  simp only [hr.regs, hr.free, hg, Bool.not_true, if_false, Bool.false_eq_true]
  all_goals (cases body (s.part i) s.begin <;> rfl)

/-- A gang as an instruction that computes leaves it: changed in no field but those `Went` names. -/
structure Local (g h : Gang) : Prop where
  eq : h = { g with v := h.v, p := h.p, s := h.s, sSeq := h.sSeq, fpflags := h.fpflags, maxabs := h.maxabs }

theorem Local.of (g : Gang) (a : SMap 32) (b : SMap 32) (c c' : SMap 64) (d e : Word) :
    Local g { g with v := a, p := b, s := c, sSeq := c', fpflags := d, maxabs := e } := ⟨rfl⟩

theorem Local.trans {g h k : Gang} (x : Local g h) (y : Local h k) : Local g k := by
  have e := y.eq
  generalize k.v = a at e
  generalize k.p = b at e
  generalize k.s = c at e
  generalize k.sSeq = c' at e
  generalize k.fpflags = d at e
  generalize k.maxabs = f at e
  rw [x.eq] at e
  rw [e]
  exact Local.of g a b c c' d f

/-- The state after an instruction's own operation has changed the issuing gang alone and the instruction goes on. -/
def wentTo (i : Instr) (s : State) (g : Gang) : State :=
  ((s.begin.modCur fun _ => g).setPc (s.pcAfter i.len)).retire i s.strand.pc (s.part i)

/-- Going on with the gang changed locally leaves everything else alone, and the gang's registers as the operation left them. -/
theorem wentTo_went {i : Instr} {s : State} {g : Gang} (hr : Ready i s) (hf : Local s.begin.cur g) :
    Went i s (wentTo i s g) ∧ (wentTo i s g).cur.v = g.v ∧ (wentTo i s g).cur.p = g.p ∧ (wentTo i s g).cur.s = g.s ∧
      (wentTo i s g).cur.fpflags = g.fpflags ∧ (wentTo i s g).cur.maxabs = g.maxabs := by
  let k := s.curStrand
  let h := g.modStrand k fun st => { st with pc := s.pcAfter i.len }
  let p : State := { s with cur := h }
  let q := h.issued i k s.strand.pc (!(p.teamGangs h.team).any (·.halted)) (i.isAccess && s.part i != 0) s.clock
  have hq : q = { h with strands := q.strands, perf := q.perf, issueSeq := q.issueSeq, pcs := q.pcs } := (Gang.issued_counted ..).eq
  have hstr : g.strands = s.begin.cur.strands := by rw [hf.eq]
  have hlen : g.strands.length = s.cur.strands.length := by rw [hstr]; exact Gang.modStrand_length _ _ _
  have hg : ∀ j, g.strandAt j = s.begin.cur.strandAt j := by intro j; unfold Gang.strandAt; rw [hstr]
  have hb : ∀ j, s.begin.cur.strandAt j = if j = k ∧ k < s.cur.strands.length then
      { s.cur.strandAt k with state := .ready, wait := WaitFor.empty, waitOn := .none, waitCount := 0, heldVas := [], own := 0 }
      else s.cur.strandAt j := fun j => Gang.strandAt_modStrand _ _ _ _
  have hh : ∀ j, h.strandAt j = if j = k ∧ k < g.strands.length then { g.strandAt k with pc := s.pcAfter i.len } else g.strandAt j :=
    fun j => Gang.strandAt_modStrand _ _ _ _
  have hs := fun j => Gang.issued_strand h i k s.strand.pc (!(p.teamGangs h.team).any (·.halted))
    (i.isAccess && s.part i != 0) s.clock j
  have hk : q.strandAt k = (wentTo i s g).strand := rfl
  have hown : h.strandAt k = { s.cur.strandAt k with
      state := .ready, wait := WaitFor.empty, waitOn := .none, waitCount := 0, heldVas := [], own := 0, pc := s.pcAfter i.len } := by
    rw [hh, hg, hb]; simp [hlen, hr.slot, k]
  have hlane := (hs k).2.1
  rw [hown] at hlane
  refine ⟨⟨?_, fun a => rfl, rfl, ?_, ?_, ?_⟩, ?_, ?_, ?_, ?_, ?_⟩
  · show (q.strandAt k).pc = _
    rw [(hs k).2.2, hown]
  · show q = { s.cur with
      v := q.v, p := q.p, s := q.s, sSeq := q.sSeq, fpflags := q.fpflags, maxabs := q.maxabs, strands := q.strands, perf := q.perf
      issueSeq := q.issueSeq, pcs := q.pcs }
    have e1 : q.v = g.v := by rw [hq]; rfl
    have e2 : q.p = g.p := by rw [hq]; rfl
    have e3 : q.s = g.s := by rw [hq]; rfl
    have e6 : q.sSeq = g.sSeq := by rw [hq]; rfl
    have e4 : q.fpflags = g.fpflags := by rw [hq]; rfl
    have e5 : q.maxabs = g.maxabs := by rw [hq]; rfl
    refine hq.trans ?_
    rw [e1, e2, e3, e4, e5, e6]
    generalize q.strands = a
    generalize q.perf = b
    generalize q.issueSeq = c
    generalize q.pcs = d
    show ({ g with strands := a, perf := b, issueSeq := c, pcs := d } : Gang) = _
    conv_lhs => rw [hf.eq]
    rfl
  · intro j hj
    show q.strandAt j = _
    rw [(hs j).1 hj, hh j, hg j, hb j]
    have : j ≠ k := hj
    simp [this]
  · rw [← hk]
    exact ⟨hlane.mask, hlane.rank, hlane.kind, hlane.fork, hlane.mdone, hlane.coll, hlane.path⟩
  · show q.v = _; rw [hq]; rfl
  · show q.p = _; rw [hq]; rfl
  · show q.s = _; rw [hq]; rfl
  · show q.fpflags = _; rw [hq]; rfl
  · show q.maxabs = _; rw [hq]; rfl

/-- An instruction that computes on its gang goes on with the gang as its operation leaves it (R252, R264). -/
theorem computing_ready {i : Instr} {f : LaneMask → Gang → Gang} {s : State} (hr : Ready i s) :
    computing i f s = .next (wentTo i s (f (s.part i) s.begin.cur)) := by
  unfold computing
  rw [issue_ready hr rfl]
  rfl

theorem Gang.wr_local (g : Gang) (wide : Bool) (d : Reg) (part : LaneMask) (x : Nat → DWord) : Local g (g.wr wide d part x) :=
  by
    cases d with
    | v n => exact ⟨rfl⟩
    | s n => unfold Gang.wr; dsimp only; cases lowLane part <;> exact ⟨rfl⟩
    | zr => exact ⟨rfl⟩

theorem Gang.wrP_local (g : Gang) (i : Nat) (part val : LaneMask) : Local g (g.wrP i part val) :=
  by unfold Gang.wrP; split <;> exact ⟨rfl⟩

/-- An instruction whose result is a function of gang and lane writes that register and nothing else (R45, R264). -/
theorem lanewise_gives {i : Instr} {wide : Bool} {d : Reg} {f : Gang → Nat → DWord} {s : State} (hr : Ready i s) :
    ∃ t, lanewise i wide d f s = .next t ∧ Went i s t ∧ Wrote s t wide d (s.part i) (f s.begin.cur) ∧ SamePreds s t ∧
      SameFlags s t := by
  refine ⟨_, computing_ready hr, ?_⟩
  have hl := Gang.wr_local s.begin.cur wide d (s.part i) (f s.begin.cur)
  obtain ⟨hw, hv, hp, hs, hf, hm⟩ := wentTo_went hr hl
  refine ⟨hw, ⟨?_, ?_⟩, ?_, ?_⟩
  · intro n l hlt
    have := Gang.vr_wr s.begin.cur wide d (s.part i) (f s.begin.cur) n l hlt
    unfold Gang.vr at this ⊢
    rw [hv, this]
    rfl
  · intro n
    rw [hs, Gang.s_wr]
    rfl
  · intro n
    unfold Gang.pmask
    rw [hp, Gang.wr_frame]
    rfl
  · unfold SameFlags
    rw [hf, hm, Gang.wr_frame]
    exact ⟨rfl, rfl⟩

/-- An instruction whose result is a truth value of gang and lane writes that predicate and nothing else (R42, R264). -/
theorem computing_givesP {i : Instr} {pd : Fin 48} {f : LaneMask → Gang → Gang} {s : State} (x : Nat → Bool) (hr : Ready i s)
    (hf : f (s.part i) s.begin.cur = s.begin.cur.wrP pd.val (s.part i) (truthMask x)) :
    ∃ t, computing i f s = .next t ∧ Went i s t ∧ WroteP s t pd (s.part i) x ∧ SameRegs s t ∧ SameFlags s t := by
  refine ⟨_, computing_ready hr, ?_⟩
  rw [hf]
  obtain ⟨hw, hv, hp, hs, hf, hm⟩ := wentTo_went hr (Gang.wrP_local s.begin.cur pd.val (s.part i) (truthMask x))
  refine ⟨hw, ?_, ⟨?_, ?_⟩, ?_⟩
  · intro n l hl
    have := Gang.pmask_wrP s.begin.cur pd.val (s.part i) (truthMask x) n l
    rw [truthMask, getLsbD_maskOf _ _ hl] at this
    unfold Gang.pmask at this ⊢
    rw [hp]
    exact this
  · intro n l _
    unfold Gang.vr
    rw [hv, Gang.wrP_frame]
    rfl
  · intro n
    rw [hs, Gang.wrP_frame]
    rfl
  · unfold SameFlags
    rw [hf, hm, Gang.wrP_frame]
    exact ⟨rfl, rfl⟩

end Sys2Proof.Machine
end

