-- ==== Sys2Proof/Laws/State.lean ====
section
/-! SUPPORT. Each field of the state after each of the named updates, so that no proof unfolds a record update. -/

namespace Sys2Proof.Machine

/-! ### modCur -/

@[simp] theorem State.modCur_curStrand (s : State) (f : Gang → Gang) : (s.modCur f).curStrand = s.curStrand := rfl
@[simp] theorem State.modCur_gangs (s : State) (f : Gang → Gang) : (s.modCur f).gangs = s.gangs := rfl
@[simp] theorem State.modCur_teams (s : State) (f : Gang → Gang) : (s.modCur f).teams = s.teams := rfl
@[simp] theorem State.modCur_grids (s : State) (f : Gang → Gang) : (s.modCur f).grids = s.grids := rfl
@[simp] theorem State.modCur_cores (s : State) (f : Gang → Gang) : (s.modCur f).cores = s.cores := rfl
@[simp] theorem State.modCur_clock (s : State) (f : Gang → Gang) : (s.modCur f).clock = s.clock := rfl
@[simp] theorem State.modCur_sched (s : State) (f : Gang → Gang) : (s.modCur f).sched = s.sched := rfl
@[simp] theorem State.modCur_nextId (s : State) (f : Gang → Gang) : (s.modCur f).nextId = s.nextId := rfl
@[simp] theorem State.modCur_freeCtr (s : State) (f : Gang → Gang) : (s.modCur f).freeCtr = s.freeCtr := rfl
@[simp] theorem State.modCur_mem (s : State) (f : Gang → Gang) : (s.modCur f).mem = s.mem := rfl
@[simp] theorem State.modCur_dirs (s : State) (f : Gang → Gang) : (s.modCur f).dirs = s.dirs := rfl
@[simp] theorem State.modCur_rel (s : State) (f : Gang → Gang) : (s.modCur f).rel = s.rel := rfl
@[simp] theorem State.modCur_parked (s : State) (f : Gang → Gang) : (s.modCur f).parked = s.parked := rfl
@[simp] theorem State.modCur_watches (s : State) (f : Gang → Gang) : (s.modCur f).watches = s.watches := rfl
@[simp] theorem State.modCur_ornWait (s : State) (f : Gang → Gang) : (s.modCur f).ornWait = s.ornWait := rfl
@[simp] theorem State.modCur_orn (s : State) (f : Gang → Gang) : (s.modCur f).orn = s.orn := rfl
@[simp] theorem State.modCur_dieTlb (s : State) (f : Gang → Gang) : (s.modCur f).dieTlb = s.dieTlb := rfl
@[simp] theorem State.modCur_ctxs (s : State) (f : Gang → Gang) : (s.modCur f).ctxs = s.ctxs := rfl
@[simp] theorem State.modCur_faultQ (s : State) (f : Gang → Gang) : (s.modCur f).faultQ = s.faultQ := rfl
@[simp] theorem State.modCur_recAt (s : State) (f : Gang → Gang) : (s.modCur f).recAt = s.recAt := rfl
@[simp] theorem State.modCur_storeAt (s : State) (f : Gang → Gang) : (s.modCur f).storeAt = s.storeAt := rfl
@[simp] theorem State.modCur_poison (s : State) (f : Gang → Gang) : (s.modCur f).poison = s.poison := rfl
@[simp] theorem State.modCur_fwd (s : State) (f : Gang → Gang) : (s.modCur f).fwd = s.fwd := rfl
@[simp] theorem State.modCur_hostMem (s : State) (f : Gang → Gang) : (s.modCur f).hostMem = s.hostMem := rfl
@[simp] theorem State.modCur_hostReads (s : State) (f : Gang → Gang) : (s.modCur f).hostReads = s.hostReads := rfl
@[simp] theorem State.modCur_dbgAnswers (s : State) (f : Gang → Gang) : (s.modCur f).dbgAnswers = s.dbgAnswers := rfl
@[simp] theorem State.modCur_outbox (s : State) (f : Gang → Gang) : (s.modCur f).outbox = s.outbox := rfl
@[simp] theorem State.modCur_giving (s : State) (f : Gang → Gang) : (s.modCur f).giving = s.giving := rfl
@[simp] theorem State.modCur_l2 (s : State) (f : Gang → Gang) : (s.modCur f).l2 = s.l2 := rfl
@[simp] theorem State.modCur_lastServed (s : State) (f : Gang → Gang) : (s.modCur f).lastServed = s.lastServed := rfl
@[simp] theorem State.modCur_storeQ (s : State) (f : Gang → Gang) : (s.modCur f).storeQ = s.storeQ := rfl
@[simp] theorem State.modCur_faultSeq (s : State) (f : Gang → Gang) : (s.modCur f).faultSeq = s.faultSeq := rfl
@[simp] theorem State.modCur_pendRecs (s : State) (f : Gang → Gang) : (s.modCur f).pendRecs = s.pendRecs := rfl
@[simp] theorem State.modCur_todo (s : State) (f : Gang → Gang) : (s.modCur f).todo = s.todo := rfl
@[simp] theorem State.modCur_shoots (s : State) (f : Gang → Gang) : (s.modCur f).shoots = s.shoots := rfl
@[simp] theorem State.modCur_reqs (s : State) (f : Gang → Gang) : (s.modCur f).reqs = s.reqs := rfl
@[simp] theorem State.modCur_replies (s : State) (f : Gang → Gang) : (s.modCur f).replies = s.replies := rfl
@[simp] theorem State.modCur_fns (s : State) (f : Gang → Gang) : (s.modCur f).fns = s.fns := rfl
@[simp] theorem State.modCur_pchans (s : State) (f : Gang → Gang) : (s.modCur f).pchans = s.pchans := rfl
@[simp] theorem State.modCur_service (s : State) (f : Gang → Gang) : (s.modCur f).service = s.service := rfl
@[simp] theorem State.modCur_pstate (s : State) (f : Gang → Gang) : (s.modCur f).pstate = s.pstate := rfl
@[simp] theorem State.modCur_cap (s : State) (f : Gang → Gang) : (s.modCur f).cap = s.cap := rfl
@[simp] theorem State.modCur_banks (s : State) (f : Gang → Gang) : (s.modCur f).banks = s.banks := rfl

/-! ### modStrand -/

@[simp] theorem State.modStrand_curStrand (s : State) (f : Strand → Strand) : (s.modStrand f).curStrand = s.curStrand := rfl
@[simp] theorem State.modStrand_gangs (s : State) (f : Strand → Strand) : (s.modStrand f).gangs = s.gangs := rfl
@[simp] theorem State.modStrand_teams (s : State) (f : Strand → Strand) : (s.modStrand f).teams = s.teams := rfl
@[simp] theorem State.modStrand_grids (s : State) (f : Strand → Strand) : (s.modStrand f).grids = s.grids := rfl
@[simp] theorem State.modStrand_cores (s : State) (f : Strand → Strand) : (s.modStrand f).cores = s.cores := rfl
@[simp] theorem State.modStrand_clock (s : State) (f : Strand → Strand) : (s.modStrand f).clock = s.clock := rfl
@[simp] theorem State.modStrand_sched (s : State) (f : Strand → Strand) : (s.modStrand f).sched = s.sched := rfl
@[simp] theorem State.modStrand_nextId (s : State) (f : Strand → Strand) : (s.modStrand f).nextId = s.nextId := rfl
@[simp] theorem State.modStrand_freeCtr (s : State) (f : Strand → Strand) : (s.modStrand f).freeCtr = s.freeCtr := rfl
@[simp] theorem State.modStrand_mem (s : State) (f : Strand → Strand) : (s.modStrand f).mem = s.mem := rfl
@[simp] theorem State.modStrand_dirs (s : State) (f : Strand → Strand) : (s.modStrand f).dirs = s.dirs := rfl
@[simp] theorem State.modStrand_rel (s : State) (f : Strand → Strand) : (s.modStrand f).rel = s.rel := rfl
@[simp] theorem State.modStrand_parked (s : State) (f : Strand → Strand) : (s.modStrand f).parked = s.parked := rfl
@[simp] theorem State.modStrand_watches (s : State) (f : Strand → Strand) : (s.modStrand f).watches = s.watches := rfl
@[simp] theorem State.modStrand_ornWait (s : State) (f : Strand → Strand) : (s.modStrand f).ornWait = s.ornWait := rfl
@[simp] theorem State.modStrand_orn (s : State) (f : Strand → Strand) : (s.modStrand f).orn = s.orn := rfl
@[simp] theorem State.modStrand_dieTlb (s : State) (f : Strand → Strand) : (s.modStrand f).dieTlb = s.dieTlb := rfl
@[simp] theorem State.modStrand_ctxs (s : State) (f : Strand → Strand) : (s.modStrand f).ctxs = s.ctxs := rfl
@[simp] theorem State.modStrand_faultQ (s : State) (f : Strand → Strand) : (s.modStrand f).faultQ = s.faultQ := rfl
@[simp] theorem State.modStrand_recAt (s : State) (f : Strand → Strand) : (s.modStrand f).recAt = s.recAt := rfl
@[simp] theorem State.modStrand_storeAt (s : State) (f : Strand → Strand) : (s.modStrand f).storeAt = s.storeAt := rfl
@[simp] theorem State.modStrand_poison (s : State) (f : Strand → Strand) : (s.modStrand f).poison = s.poison := rfl
@[simp] theorem State.modStrand_fwd (s : State) (f : Strand → Strand) : (s.modStrand f).fwd = s.fwd := rfl
@[simp] theorem State.modStrand_hostMem (s : State) (f : Strand → Strand) : (s.modStrand f).hostMem = s.hostMem := rfl
@[simp] theorem State.modStrand_hostReads (s : State) (f : Strand → Strand) : (s.modStrand f).hostReads = s.hostReads := rfl
@[simp] theorem State.modStrand_dbgAnswers (s : State) (f : Strand → Strand) : (s.modStrand f).dbgAnswers = s.dbgAnswers := rfl
@[simp] theorem State.modStrand_outbox (s : State) (f : Strand → Strand) : (s.modStrand f).outbox = s.outbox := rfl
@[simp] theorem State.modStrand_giving (s : State) (f : Strand → Strand) : (s.modStrand f).giving = s.giving := rfl
@[simp] theorem State.modStrand_l2 (s : State) (f : Strand → Strand) : (s.modStrand f).l2 = s.l2 := rfl
@[simp] theorem State.modStrand_lastServed (s : State) (f : Strand → Strand) : (s.modStrand f).lastServed = s.lastServed := rfl
@[simp] theorem State.modStrand_storeQ (s : State) (f : Strand → Strand) : (s.modStrand f).storeQ = s.storeQ := rfl
@[simp] theorem State.modStrand_faultSeq (s : State) (f : Strand → Strand) : (s.modStrand f).faultSeq = s.faultSeq := rfl
@[simp] theorem State.modStrand_pendRecs (s : State) (f : Strand → Strand) : (s.modStrand f).pendRecs = s.pendRecs := rfl
@[simp] theorem State.modStrand_todo (s : State) (f : Strand → Strand) : (s.modStrand f).todo = s.todo := rfl
@[simp] theorem State.modStrand_shoots (s : State) (f : Strand → Strand) : (s.modStrand f).shoots = s.shoots := rfl
@[simp] theorem State.modStrand_reqs (s : State) (f : Strand → Strand) : (s.modStrand f).reqs = s.reqs := rfl
@[simp] theorem State.modStrand_replies (s : State) (f : Strand → Strand) : (s.modStrand f).replies = s.replies := rfl
@[simp] theorem State.modStrand_fns (s : State) (f : Strand → Strand) : (s.modStrand f).fns = s.fns := rfl
@[simp] theorem State.modStrand_pchans (s : State) (f : Strand → Strand) : (s.modStrand f).pchans = s.pchans := rfl
@[simp] theorem State.modStrand_service (s : State) (f : Strand → Strand) : (s.modStrand f).service = s.service := rfl
@[simp] theorem State.modStrand_pstate (s : State) (f : Strand → Strand) : (s.modStrand f).pstate = s.pstate := rfl
@[simp] theorem State.modStrand_cap (s : State) (f : Strand → Strand) : (s.modStrand f).cap = s.cap := rfl
@[simp] theorem State.modStrand_banks (s : State) (f : Strand → Strand) : (s.modStrand f).banks = s.banks := rfl

/-! ### modCore -/

@[simp] theorem State.modCore_cur (s : State) (n : Nat) (f : Core → Core) : (s.modCore n f).cur = s.cur := rfl
@[simp] theorem State.modCore_curStrand (s : State) (n : Nat) (f : Core → Core) : (s.modCore n f).curStrand = s.curStrand := rfl
@[simp] theorem State.modCore_gangs (s : State) (n : Nat) (f : Core → Core) : (s.modCore n f).gangs = s.gangs := rfl
@[simp] theorem State.modCore_teams (s : State) (n : Nat) (f : Core → Core) : (s.modCore n f).teams = s.teams := rfl
@[simp] theorem State.modCore_grids (s : State) (n : Nat) (f : Core → Core) : (s.modCore n f).grids = s.grids := rfl
@[simp] theorem State.modCore_clock (s : State) (n : Nat) (f : Core → Core) : (s.modCore n f).clock = s.clock := rfl
@[simp] theorem State.modCore_sched (s : State) (n : Nat) (f : Core → Core) : (s.modCore n f).sched = s.sched := rfl
@[simp] theorem State.modCore_nextId (s : State) (n : Nat) (f : Core → Core) : (s.modCore n f).nextId = s.nextId := rfl
@[simp] theorem State.modCore_freeCtr (s : State) (n : Nat) (f : Core → Core) : (s.modCore n f).freeCtr = s.freeCtr := rfl
@[simp] theorem State.modCore_mem (s : State) (n : Nat) (f : Core → Core) : (s.modCore n f).mem = s.mem := rfl
@[simp] theorem State.modCore_dirs (s : State) (n : Nat) (f : Core → Core) : (s.modCore n f).dirs = s.dirs := rfl
@[simp] theorem State.modCore_rel (s : State) (n : Nat) (f : Core → Core) : (s.modCore n f).rel = s.rel := rfl
@[simp] theorem State.modCore_parked (s : State) (n : Nat) (f : Core → Core) : (s.modCore n f).parked = s.parked := rfl
@[simp] theorem State.modCore_watches (s : State) (n : Nat) (f : Core → Core) : (s.modCore n f).watches = s.watches := rfl
@[simp] theorem State.modCore_ornWait (s : State) (n : Nat) (f : Core → Core) : (s.modCore n f).ornWait = s.ornWait := rfl
@[simp] theorem State.modCore_orn (s : State) (n : Nat) (f : Core → Core) : (s.modCore n f).orn = s.orn := rfl
@[simp] theorem State.modCore_dieTlb (s : State) (n : Nat) (f : Core → Core) : (s.modCore n f).dieTlb = s.dieTlb := rfl
@[simp] theorem State.modCore_ctxs (s : State) (n : Nat) (f : Core → Core) : (s.modCore n f).ctxs = s.ctxs := rfl
@[simp] theorem State.modCore_faultQ (s : State) (n : Nat) (f : Core → Core) : (s.modCore n f).faultQ = s.faultQ := rfl
@[simp] theorem State.modCore_recAt (s : State) (n : Nat) (f : Core → Core) : (s.modCore n f).recAt = s.recAt := rfl
@[simp] theorem State.modCore_storeAt (s : State) (n : Nat) (f : Core → Core) : (s.modCore n f).storeAt = s.storeAt := rfl
@[simp] theorem State.modCore_poison (s : State) (n : Nat) (f : Core → Core) : (s.modCore n f).poison = s.poison := rfl
@[simp] theorem State.modCore_fwd (s : State) (n : Nat) (f : Core → Core) : (s.modCore n f).fwd = s.fwd := rfl
@[simp] theorem State.modCore_hostMem (s : State) (n : Nat) (f : Core → Core) : (s.modCore n f).hostMem = s.hostMem := rfl
@[simp] theorem State.modCore_hostReads (s : State) (n : Nat) (f : Core → Core) : (s.modCore n f).hostReads = s.hostReads := rfl
@[simp] theorem State.modCore_dbgAnswers (s : State) (n : Nat) (f : Core → Core) : (s.modCore n f).dbgAnswers = s.dbgAnswers := rfl
@[simp] theorem State.modCore_outbox (s : State) (n : Nat) (f : Core → Core) : (s.modCore n f).outbox = s.outbox := rfl
@[simp] theorem State.modCore_giving (s : State) (n : Nat) (f : Core → Core) : (s.modCore n f).giving = s.giving := rfl
@[simp] theorem State.modCore_l2 (s : State) (n : Nat) (f : Core → Core) : (s.modCore n f).l2 = s.l2 := rfl
@[simp] theorem State.modCore_lastServed (s : State) (n : Nat) (f : Core → Core) : (s.modCore n f).lastServed = s.lastServed := rfl
@[simp] theorem State.modCore_storeQ (s : State) (n : Nat) (f : Core → Core) : (s.modCore n f).storeQ = s.storeQ := rfl
@[simp] theorem State.modCore_faultSeq (s : State) (n : Nat) (f : Core → Core) : (s.modCore n f).faultSeq = s.faultSeq := rfl
@[simp] theorem State.modCore_pendRecs (s : State) (n : Nat) (f : Core → Core) : (s.modCore n f).pendRecs = s.pendRecs := rfl
@[simp] theorem State.modCore_todo (s : State) (n : Nat) (f : Core → Core) : (s.modCore n f).todo = s.todo := rfl
@[simp] theorem State.modCore_shoots (s : State) (n : Nat) (f : Core → Core) : (s.modCore n f).shoots = s.shoots := rfl
@[simp] theorem State.modCore_reqs (s : State) (n : Nat) (f : Core → Core) : (s.modCore n f).reqs = s.reqs := rfl
@[simp] theorem State.modCore_replies (s : State) (n : Nat) (f : Core → Core) : (s.modCore n f).replies = s.replies := rfl
@[simp] theorem State.modCore_fns (s : State) (n : Nat) (f : Core → Core) : (s.modCore n f).fns = s.fns := rfl
@[simp] theorem State.modCore_pchans (s : State) (n : Nat) (f : Core → Core) : (s.modCore n f).pchans = s.pchans := rfl
@[simp] theorem State.modCore_service (s : State) (n : Nat) (f : Core → Core) : (s.modCore n f).service = s.service := rfl
@[simp] theorem State.modCore_pstate (s : State) (n : Nat) (f : Core → Core) : (s.modCore n f).pstate = s.pstate := rfl
@[simp] theorem State.modCore_cap (s : State) (n : Nat) (f : Core → Core) : (s.modCore n f).cap = s.cap := rfl
@[simp] theorem State.modCore_banks (s : State) (n : Nat) (f : Core → Core) : (s.modCore n f).banks = s.banks := rfl

/-! ### modMyCore -/

@[simp] theorem State.modMyCore_cur (s : State) (f : Core → Core) : (s.modMyCore f).cur = s.cur := rfl
@[simp] theorem State.modMyCore_curStrand (s : State) (f : Core → Core) : (s.modMyCore f).curStrand = s.curStrand := rfl
@[simp] theorem State.modMyCore_gangs (s : State) (f : Core → Core) : (s.modMyCore f).gangs = s.gangs := rfl
@[simp] theorem State.modMyCore_teams (s : State) (f : Core → Core) : (s.modMyCore f).teams = s.teams := rfl
@[simp] theorem State.modMyCore_grids (s : State) (f : Core → Core) : (s.modMyCore f).grids = s.grids := rfl
@[simp] theorem State.modMyCore_clock (s : State) (f : Core → Core) : (s.modMyCore f).clock = s.clock := rfl
@[simp] theorem State.modMyCore_sched (s : State) (f : Core → Core) : (s.modMyCore f).sched = s.sched := rfl
@[simp] theorem State.modMyCore_nextId (s : State) (f : Core → Core) : (s.modMyCore f).nextId = s.nextId := rfl
@[simp] theorem State.modMyCore_freeCtr (s : State) (f : Core → Core) : (s.modMyCore f).freeCtr = s.freeCtr := rfl
@[simp] theorem State.modMyCore_mem (s : State) (f : Core → Core) : (s.modMyCore f).mem = s.mem := rfl
@[simp] theorem State.modMyCore_dirs (s : State) (f : Core → Core) : (s.modMyCore f).dirs = s.dirs := rfl
@[simp] theorem State.modMyCore_rel (s : State) (f : Core → Core) : (s.modMyCore f).rel = s.rel := rfl
@[simp] theorem State.modMyCore_parked (s : State) (f : Core → Core) : (s.modMyCore f).parked = s.parked := rfl
@[simp] theorem State.modMyCore_watches (s : State) (f : Core → Core) : (s.modMyCore f).watches = s.watches := rfl
@[simp] theorem State.modMyCore_ornWait (s : State) (f : Core → Core) : (s.modMyCore f).ornWait = s.ornWait := rfl
@[simp] theorem State.modMyCore_orn (s : State) (f : Core → Core) : (s.modMyCore f).orn = s.orn := rfl
@[simp] theorem State.modMyCore_dieTlb (s : State) (f : Core → Core) : (s.modMyCore f).dieTlb = s.dieTlb := rfl
@[simp] theorem State.modMyCore_ctxs (s : State) (f : Core → Core) : (s.modMyCore f).ctxs = s.ctxs := rfl
@[simp] theorem State.modMyCore_faultQ (s : State) (f : Core → Core) : (s.modMyCore f).faultQ = s.faultQ := rfl
@[simp] theorem State.modMyCore_recAt (s : State) (f : Core → Core) : (s.modMyCore f).recAt = s.recAt := rfl
@[simp] theorem State.modMyCore_storeAt (s : State) (f : Core → Core) : (s.modMyCore f).storeAt = s.storeAt := rfl
@[simp] theorem State.modMyCore_poison (s : State) (f : Core → Core) : (s.modMyCore f).poison = s.poison := rfl
@[simp] theorem State.modMyCore_fwd (s : State) (f : Core → Core) : (s.modMyCore f).fwd = s.fwd := rfl
@[simp] theorem State.modMyCore_hostMem (s : State) (f : Core → Core) : (s.modMyCore f).hostMem = s.hostMem := rfl
@[simp] theorem State.modMyCore_hostReads (s : State) (f : Core → Core) : (s.modMyCore f).hostReads = s.hostReads := rfl
@[simp] theorem State.modMyCore_dbgAnswers (s : State) (f : Core → Core) : (s.modMyCore f).dbgAnswers = s.dbgAnswers := rfl
@[simp] theorem State.modMyCore_outbox (s : State) (f : Core → Core) : (s.modMyCore f).outbox = s.outbox := rfl
@[simp] theorem State.modMyCore_giving (s : State) (f : Core → Core) : (s.modMyCore f).giving = s.giving := rfl
@[simp] theorem State.modMyCore_l2 (s : State) (f : Core → Core) : (s.modMyCore f).l2 = s.l2 := rfl
@[simp] theorem State.modMyCore_lastServed (s : State) (f : Core → Core) : (s.modMyCore f).lastServed = s.lastServed := rfl
@[simp] theorem State.modMyCore_storeQ (s : State) (f : Core → Core) : (s.modMyCore f).storeQ = s.storeQ := rfl
@[simp] theorem State.modMyCore_faultSeq (s : State) (f : Core → Core) : (s.modMyCore f).faultSeq = s.faultSeq := rfl
@[simp] theorem State.modMyCore_pendRecs (s : State) (f : Core → Core) : (s.modMyCore f).pendRecs = s.pendRecs := rfl
@[simp] theorem State.modMyCore_todo (s : State) (f : Core → Core) : (s.modMyCore f).todo = s.todo := rfl
@[simp] theorem State.modMyCore_shoots (s : State) (f : Core → Core) : (s.modMyCore f).shoots = s.shoots := rfl
@[simp] theorem State.modMyCore_reqs (s : State) (f : Core → Core) : (s.modMyCore f).reqs = s.reqs := rfl
@[simp] theorem State.modMyCore_replies (s : State) (f : Core → Core) : (s.modMyCore f).replies = s.replies := rfl
@[simp] theorem State.modMyCore_fns (s : State) (f : Core → Core) : (s.modMyCore f).fns = s.fns := rfl
@[simp] theorem State.modMyCore_pchans (s : State) (f : Core → Core) : (s.modMyCore f).pchans = s.pchans := rfl
@[simp] theorem State.modMyCore_service (s : State) (f : Core → Core) : (s.modMyCore f).service = s.service := rfl
@[simp] theorem State.modMyCore_pstate (s : State) (f : Core → Core) : (s.modMyCore f).pstate = s.pstate := rfl
@[simp] theorem State.modMyCore_cap (s : State) (f : Core → Core) : (s.modMyCore f).cap = s.cap := rfl
@[simp] theorem State.modMyCore_banks (s : State) (f : Core → Core) : (s.modMyCore f).banks = s.banks := rfl

/-! ### modTeam -/

@[simp] theorem State.modTeam_cur (s : State) (k : TKey) (f : Team → Team) : (s.modTeam k f).cur = s.cur := rfl
@[simp] theorem State.modTeam_curStrand (s : State) (k : TKey) (f : Team → Team) : (s.modTeam k f).curStrand = s.curStrand := rfl
@[simp] theorem State.modTeam_gangs (s : State) (k : TKey) (f : Team → Team) : (s.modTeam k f).gangs = s.gangs := rfl
@[simp] theorem State.modTeam_grids (s : State) (k : TKey) (f : Team → Team) : (s.modTeam k f).grids = s.grids := rfl
@[simp] theorem State.modTeam_cores (s : State) (k : TKey) (f : Team → Team) : (s.modTeam k f).cores = s.cores := rfl
@[simp] theorem State.modTeam_clock (s : State) (k : TKey) (f : Team → Team) : (s.modTeam k f).clock = s.clock := rfl
@[simp] theorem State.modTeam_sched (s : State) (k : TKey) (f : Team → Team) : (s.modTeam k f).sched = s.sched := rfl
@[simp] theorem State.modTeam_nextId (s : State) (k : TKey) (f : Team → Team) : (s.modTeam k f).nextId = s.nextId := rfl
@[simp] theorem State.modTeam_freeCtr (s : State) (k : TKey) (f : Team → Team) : (s.modTeam k f).freeCtr = s.freeCtr := rfl
@[simp] theorem State.modTeam_mem (s : State) (k : TKey) (f : Team → Team) : (s.modTeam k f).mem = s.mem := rfl
@[simp] theorem State.modTeam_dirs (s : State) (k : TKey) (f : Team → Team) : (s.modTeam k f).dirs = s.dirs := rfl
@[simp] theorem State.modTeam_rel (s : State) (k : TKey) (f : Team → Team) : (s.modTeam k f).rel = s.rel := rfl
@[simp] theorem State.modTeam_parked (s : State) (k : TKey) (f : Team → Team) : (s.modTeam k f).parked = s.parked := rfl
@[simp] theorem State.modTeam_watches (s : State) (k : TKey) (f : Team → Team) : (s.modTeam k f).watches = s.watches := rfl
@[simp] theorem State.modTeam_ornWait (s : State) (k : TKey) (f : Team → Team) : (s.modTeam k f).ornWait = s.ornWait := rfl
@[simp] theorem State.modTeam_orn (s : State) (k : TKey) (f : Team → Team) : (s.modTeam k f).orn = s.orn := rfl
@[simp] theorem State.modTeam_dieTlb (s : State) (k : TKey) (f : Team → Team) : (s.modTeam k f).dieTlb = s.dieTlb := rfl
@[simp] theorem State.modTeam_ctxs (s : State) (k : TKey) (f : Team → Team) : (s.modTeam k f).ctxs = s.ctxs := rfl
@[simp] theorem State.modTeam_faultQ (s : State) (k : TKey) (f : Team → Team) : (s.modTeam k f).faultQ = s.faultQ := rfl
@[simp] theorem State.modTeam_recAt (s : State) (k : TKey) (f : Team → Team) : (s.modTeam k f).recAt = s.recAt := rfl
@[simp] theorem State.modTeam_storeAt (s : State) (k : TKey) (f : Team → Team) : (s.modTeam k f).storeAt = s.storeAt := rfl
@[simp] theorem State.modTeam_poison (s : State) (k : TKey) (f : Team → Team) : (s.modTeam k f).poison = s.poison := rfl
@[simp] theorem State.modTeam_fwd (s : State) (k : TKey) (f : Team → Team) : (s.modTeam k f).fwd = s.fwd := rfl
@[simp] theorem State.modTeam_hostMem (s : State) (k : TKey) (f : Team → Team) : (s.modTeam k f).hostMem = s.hostMem := rfl
@[simp] theorem State.modTeam_hostReads (s : State) (k : TKey) (f : Team → Team) : (s.modTeam k f).hostReads = s.hostReads := rfl
@[simp] theorem State.modTeam_dbgAnswers (s : State) (k : TKey) (f : Team → Team) : (s.modTeam k f).dbgAnswers = s.dbgAnswers := rfl
@[simp] theorem State.modTeam_outbox (s : State) (k : TKey) (f : Team → Team) : (s.modTeam k f).outbox = s.outbox := rfl
@[simp] theorem State.modTeam_giving (s : State) (k : TKey) (f : Team → Team) : (s.modTeam k f).giving = s.giving := rfl
@[simp] theorem State.modTeam_l2 (s : State) (k : TKey) (f : Team → Team) : (s.modTeam k f).l2 = s.l2 := rfl
@[simp] theorem State.modTeam_lastServed (s : State) (k : TKey) (f : Team → Team) : (s.modTeam k f).lastServed = s.lastServed := rfl
@[simp] theorem State.modTeam_storeQ (s : State) (k : TKey) (f : Team → Team) : (s.modTeam k f).storeQ = s.storeQ := rfl
@[simp] theorem State.modTeam_faultSeq (s : State) (k : TKey) (f : Team → Team) : (s.modTeam k f).faultSeq = s.faultSeq := rfl
@[simp] theorem State.modTeam_pendRecs (s : State) (k : TKey) (f : Team → Team) : (s.modTeam k f).pendRecs = s.pendRecs := rfl
@[simp] theorem State.modTeam_todo (s : State) (k : TKey) (f : Team → Team) : (s.modTeam k f).todo = s.todo := rfl
@[simp] theorem State.modTeam_shoots (s : State) (k : TKey) (f : Team → Team) : (s.modTeam k f).shoots = s.shoots := rfl
@[simp] theorem State.modTeam_reqs (s : State) (k : TKey) (f : Team → Team) : (s.modTeam k f).reqs = s.reqs := rfl
@[simp] theorem State.modTeam_replies (s : State) (k : TKey) (f : Team → Team) : (s.modTeam k f).replies = s.replies := rfl
@[simp] theorem State.modTeam_fns (s : State) (k : TKey) (f : Team → Team) : (s.modTeam k f).fns = s.fns := rfl
@[simp] theorem State.modTeam_pchans (s : State) (k : TKey) (f : Team → Team) : (s.modTeam k f).pchans = s.pchans := rfl
@[simp] theorem State.modTeam_service (s : State) (k : TKey) (f : Team → Team) : (s.modTeam k f).service = s.service := rfl
@[simp] theorem State.modTeam_pstate (s : State) (k : TKey) (f : Team → Team) : (s.modTeam k f).pstate = s.pstate := rfl
@[simp] theorem State.modTeam_cap (s : State) (k : TKey) (f : Team → Team) : (s.modTeam k f).cap = s.cap := rfl
@[simp] theorem State.modTeam_banks (s : State) (k : TKey) (f : Team → Team) : (s.modTeam k f).banks = s.banks := rfl

/-! ### modCtx -/

@[simp] theorem State.modCtx_cur (s : State) (n : Nat) (f : Ctx → Ctx) : (s.modCtx n f).cur = s.cur := rfl
@[simp] theorem State.modCtx_curStrand (s : State) (n : Nat) (f : Ctx → Ctx) : (s.modCtx n f).curStrand = s.curStrand := rfl
@[simp] theorem State.modCtx_gangs (s : State) (n : Nat) (f : Ctx → Ctx) : (s.modCtx n f).gangs = s.gangs := rfl
@[simp] theorem State.modCtx_teams (s : State) (n : Nat) (f : Ctx → Ctx) : (s.modCtx n f).teams = s.teams := rfl
@[simp] theorem State.modCtx_grids (s : State) (n : Nat) (f : Ctx → Ctx) : (s.modCtx n f).grids = s.grids := rfl
@[simp] theorem State.modCtx_cores (s : State) (n : Nat) (f : Ctx → Ctx) : (s.modCtx n f).cores = s.cores := rfl
@[simp] theorem State.modCtx_clock (s : State) (n : Nat) (f : Ctx → Ctx) : (s.modCtx n f).clock = s.clock := rfl
@[simp] theorem State.modCtx_sched (s : State) (n : Nat) (f : Ctx → Ctx) : (s.modCtx n f).sched = s.sched := rfl
@[simp] theorem State.modCtx_nextId (s : State) (n : Nat) (f : Ctx → Ctx) : (s.modCtx n f).nextId = s.nextId := rfl
@[simp] theorem State.modCtx_freeCtr (s : State) (n : Nat) (f : Ctx → Ctx) : (s.modCtx n f).freeCtr = s.freeCtr := rfl
@[simp] theorem State.modCtx_mem (s : State) (n : Nat) (f : Ctx → Ctx) : (s.modCtx n f).mem = s.mem := rfl
@[simp] theorem State.modCtx_dirs (s : State) (n : Nat) (f : Ctx → Ctx) : (s.modCtx n f).dirs = s.dirs := rfl
@[simp] theorem State.modCtx_rel (s : State) (n : Nat) (f : Ctx → Ctx) : (s.modCtx n f).rel = s.rel := rfl
@[simp] theorem State.modCtx_parked (s : State) (n : Nat) (f : Ctx → Ctx) : (s.modCtx n f).parked = s.parked := rfl
@[simp] theorem State.modCtx_watches (s : State) (n : Nat) (f : Ctx → Ctx) : (s.modCtx n f).watches = s.watches := rfl
@[simp] theorem State.modCtx_ornWait (s : State) (n : Nat) (f : Ctx → Ctx) : (s.modCtx n f).ornWait = s.ornWait := rfl
@[simp] theorem State.modCtx_orn (s : State) (n : Nat) (f : Ctx → Ctx) : (s.modCtx n f).orn = s.orn := rfl
@[simp] theorem State.modCtx_dieTlb (s : State) (n : Nat) (f : Ctx → Ctx) : (s.modCtx n f).dieTlb = s.dieTlb := rfl
@[simp] theorem State.modCtx_faultQ (s : State) (n : Nat) (f : Ctx → Ctx) : (s.modCtx n f).faultQ = s.faultQ := rfl
@[simp] theorem State.modCtx_recAt (s : State) (n : Nat) (f : Ctx → Ctx) : (s.modCtx n f).recAt = s.recAt := rfl
@[simp] theorem State.modCtx_storeAt (s : State) (n : Nat) (f : Ctx → Ctx) : (s.modCtx n f).storeAt = s.storeAt := rfl
@[simp] theorem State.modCtx_poison (s : State) (n : Nat) (f : Ctx → Ctx) : (s.modCtx n f).poison = s.poison := rfl
@[simp] theorem State.modCtx_fwd (s : State) (n : Nat) (f : Ctx → Ctx) : (s.modCtx n f).fwd = s.fwd := rfl
@[simp] theorem State.modCtx_hostMem (s : State) (n : Nat) (f : Ctx → Ctx) : (s.modCtx n f).hostMem = s.hostMem := rfl
@[simp] theorem State.modCtx_hostReads (s : State) (n : Nat) (f : Ctx → Ctx) : (s.modCtx n f).hostReads = s.hostReads := rfl
@[simp] theorem State.modCtx_dbgAnswers (s : State) (n : Nat) (f : Ctx → Ctx) : (s.modCtx n f).dbgAnswers = s.dbgAnswers := rfl
@[simp] theorem State.modCtx_outbox (s : State) (n : Nat) (f : Ctx → Ctx) : (s.modCtx n f).outbox = s.outbox := rfl
@[simp] theorem State.modCtx_giving (s : State) (n : Nat) (f : Ctx → Ctx) : (s.modCtx n f).giving = s.giving := rfl
@[simp] theorem State.modCtx_l2 (s : State) (n : Nat) (f : Ctx → Ctx) : (s.modCtx n f).l2 = s.l2 := rfl
@[simp] theorem State.modCtx_lastServed (s : State) (n : Nat) (f : Ctx → Ctx) : (s.modCtx n f).lastServed = s.lastServed := rfl
@[simp] theorem State.modCtx_storeQ (s : State) (n : Nat) (f : Ctx → Ctx) : (s.modCtx n f).storeQ = s.storeQ := rfl
@[simp] theorem State.modCtx_faultSeq (s : State) (n : Nat) (f : Ctx → Ctx) : (s.modCtx n f).faultSeq = s.faultSeq := rfl
@[simp] theorem State.modCtx_pendRecs (s : State) (n : Nat) (f : Ctx → Ctx) : (s.modCtx n f).pendRecs = s.pendRecs := rfl
@[simp] theorem State.modCtx_todo (s : State) (n : Nat) (f : Ctx → Ctx) : (s.modCtx n f).todo = s.todo := rfl
@[simp] theorem State.modCtx_shoots (s : State) (n : Nat) (f : Ctx → Ctx) : (s.modCtx n f).shoots = s.shoots := rfl
@[simp] theorem State.modCtx_reqs (s : State) (n : Nat) (f : Ctx → Ctx) : (s.modCtx n f).reqs = s.reqs := rfl
@[simp] theorem State.modCtx_replies (s : State) (n : Nat) (f : Ctx → Ctx) : (s.modCtx n f).replies = s.replies := rfl
@[simp] theorem State.modCtx_fns (s : State) (n : Nat) (f : Ctx → Ctx) : (s.modCtx n f).fns = s.fns := rfl
@[simp] theorem State.modCtx_pchans (s : State) (n : Nat) (f : Ctx → Ctx) : (s.modCtx n f).pchans = s.pchans := rfl
@[simp] theorem State.modCtx_service (s : State) (n : Nat) (f : Ctx → Ctx) : (s.modCtx n f).service = s.service := rfl
@[simp] theorem State.modCtx_pstate (s : State) (n : Nat) (f : Ctx → Ctx) : (s.modCtx n f).pstate = s.pstate := rfl
@[simp] theorem State.modCtx_cap (s : State) (n : Nat) (f : Ctx → Ctx) : (s.modCtx n f).cap = s.cap := rfl
@[simp] theorem State.modCtx_banks (s : State) (n : Nat) (f : Ctx → Ctx) : (s.modCtx n f).banks = s.banks := rfl

/-! ### modGangs -/

@[simp] theorem State.modGangs_curStrand (s : State) (c : Gang → Bool) (f : Gang → Gang) : (s.modGangs c f).curStrand = s.curStrand := rfl
@[simp] theorem State.modGangs_teams (s : State) (c : Gang → Bool) (f : Gang → Gang) : (s.modGangs c f).teams = s.teams := rfl
@[simp] theorem State.modGangs_grids (s : State) (c : Gang → Bool) (f : Gang → Gang) : (s.modGangs c f).grids = s.grids := rfl
@[simp] theorem State.modGangs_cores (s : State) (c : Gang → Bool) (f : Gang → Gang) : (s.modGangs c f).cores = s.cores := rfl
@[simp] theorem State.modGangs_clock (s : State) (c : Gang → Bool) (f : Gang → Gang) : (s.modGangs c f).clock = s.clock := rfl
@[simp] theorem State.modGangs_sched (s : State) (c : Gang → Bool) (f : Gang → Gang) : (s.modGangs c f).sched = s.sched := rfl
@[simp] theorem State.modGangs_nextId (s : State) (c : Gang → Bool) (f : Gang → Gang) : (s.modGangs c f).nextId = s.nextId := rfl
@[simp] theorem State.modGangs_freeCtr (s : State) (c : Gang → Bool) (f : Gang → Gang) : (s.modGangs c f).freeCtr = s.freeCtr := rfl
@[simp] theorem State.modGangs_mem (s : State) (c : Gang → Bool) (f : Gang → Gang) : (s.modGangs c f).mem = s.mem := rfl
@[simp] theorem State.modGangs_dirs (s : State) (c : Gang → Bool) (f : Gang → Gang) : (s.modGangs c f).dirs = s.dirs := rfl
@[simp] theorem State.modGangs_rel (s : State) (c : Gang → Bool) (f : Gang → Gang) : (s.modGangs c f).rel = s.rel := rfl
@[simp] theorem State.modGangs_parked (s : State) (c : Gang → Bool) (f : Gang → Gang) : (s.modGangs c f).parked = s.parked := rfl
@[simp] theorem State.modGangs_watches (s : State) (c : Gang → Bool) (f : Gang → Gang) : (s.modGangs c f).watches = s.watches := rfl
@[simp] theorem State.modGangs_ornWait (s : State) (c : Gang → Bool) (f : Gang → Gang) : (s.modGangs c f).ornWait = s.ornWait := rfl
@[simp] theorem State.modGangs_orn (s : State) (c : Gang → Bool) (f : Gang → Gang) : (s.modGangs c f).orn = s.orn := rfl
@[simp] theorem State.modGangs_dieTlb (s : State) (c : Gang → Bool) (f : Gang → Gang) : (s.modGangs c f).dieTlb = s.dieTlb := rfl
@[simp] theorem State.modGangs_ctxs (s : State) (c : Gang → Bool) (f : Gang → Gang) : (s.modGangs c f).ctxs = s.ctxs := rfl
@[simp] theorem State.modGangs_faultQ (s : State) (c : Gang → Bool) (f : Gang → Gang) : (s.modGangs c f).faultQ = s.faultQ := rfl
@[simp] theorem State.modGangs_recAt (s : State) (c : Gang → Bool) (f : Gang → Gang) : (s.modGangs c f).recAt = s.recAt := rfl
@[simp] theorem State.modGangs_storeAt (s : State) (c : Gang → Bool) (f : Gang → Gang) : (s.modGangs c f).storeAt = s.storeAt := rfl
@[simp] theorem State.modGangs_poison (s : State) (c : Gang → Bool) (f : Gang → Gang) : (s.modGangs c f).poison = s.poison := rfl
@[simp] theorem State.modGangs_fwd (s : State) (c : Gang → Bool) (f : Gang → Gang) : (s.modGangs c f).fwd = s.fwd := rfl
@[simp] theorem State.modGangs_hostMem (s : State) (c : Gang → Bool) (f : Gang → Gang) : (s.modGangs c f).hostMem = s.hostMem := rfl
@[simp] theorem State.modGangs_hostReads (s : State) (c : Gang → Bool) (f : Gang → Gang) : (s.modGangs c f).hostReads = s.hostReads := rfl
@[simp] theorem State.modGangs_dbgAnswers (s : State) (c : Gang → Bool) (f : Gang → Gang) : (s.modGangs c f).dbgAnswers = s.dbgAnswers := rfl
@[simp] theorem State.modGangs_outbox (s : State) (c : Gang → Bool) (f : Gang → Gang) : (s.modGangs c f).outbox = s.outbox := rfl
@[simp] theorem State.modGangs_giving (s : State) (c : Gang → Bool) (f : Gang → Gang) : (s.modGangs c f).giving = s.giving := rfl
@[simp] theorem State.modGangs_l2 (s : State) (c : Gang → Bool) (f : Gang → Gang) : (s.modGangs c f).l2 = s.l2 := rfl
@[simp] theorem State.modGangs_lastServed (s : State) (c : Gang → Bool) (f : Gang → Gang) : (s.modGangs c f).lastServed = s.lastServed := rfl
@[simp] theorem State.modGangs_storeQ (s : State) (c : Gang → Bool) (f : Gang → Gang) : (s.modGangs c f).storeQ = s.storeQ := rfl
@[simp] theorem State.modGangs_faultSeq (s : State) (c : Gang → Bool) (f : Gang → Gang) : (s.modGangs c f).faultSeq = s.faultSeq := rfl
@[simp] theorem State.modGangs_pendRecs (s : State) (c : Gang → Bool) (f : Gang → Gang) : (s.modGangs c f).pendRecs = s.pendRecs := rfl
@[simp] theorem State.modGangs_todo (s : State) (c : Gang → Bool) (f : Gang → Gang) : (s.modGangs c f).todo = s.todo := rfl
@[simp] theorem State.modGangs_shoots (s : State) (c : Gang → Bool) (f : Gang → Gang) : (s.modGangs c f).shoots = s.shoots := rfl
@[simp] theorem State.modGangs_reqs (s : State) (c : Gang → Bool) (f : Gang → Gang) : (s.modGangs c f).reqs = s.reqs := rfl
@[simp] theorem State.modGangs_replies (s : State) (c : Gang → Bool) (f : Gang → Gang) : (s.modGangs c f).replies = s.replies := rfl
@[simp] theorem State.modGangs_fns (s : State) (c : Gang → Bool) (f : Gang → Gang) : (s.modGangs c f).fns = s.fns := rfl
@[simp] theorem State.modGangs_pchans (s : State) (c : Gang → Bool) (f : Gang → Gang) : (s.modGangs c f).pchans = s.pchans := rfl
@[simp] theorem State.modGangs_service (s : State) (c : Gang → Bool) (f : Gang → Gang) : (s.modGangs c f).service = s.service := rfl
@[simp] theorem State.modGangs_pstate (s : State) (c : Gang → Bool) (f : Gang → Gang) : (s.modGangs c f).pstate = s.pstate := rfl
@[simp] theorem State.modGangs_cap (s : State) (c : Gang → Bool) (f : Gang → Gang) : (s.modGangs c f).cap = s.cap := rfl
@[simp] theorem State.modGangs_banks (s : State) (c : Gang → Bool) (f : Gang → Gang) : (s.modGangs c f).banks = s.banks := rfl

/-! ### begin -/

@[simp] theorem State.begin_curStrand (s : State) : s.begin.curStrand = s.curStrand := rfl
@[simp] theorem State.begin_gangs (s : State) : s.begin.gangs = s.gangs := rfl
@[simp] theorem State.begin_teams (s : State) : s.begin.teams = s.teams := rfl
@[simp] theorem State.begin_grids (s : State) : s.begin.grids = s.grids := rfl
@[simp] theorem State.begin_cores (s : State) : s.begin.cores = s.cores := rfl
@[simp] theorem State.begin_clock (s : State) : s.begin.clock = s.clock := rfl
@[simp] theorem State.begin_sched (s : State) : s.begin.sched = s.sched := rfl
@[simp] theorem State.begin_nextId (s : State) : s.begin.nextId = s.nextId := rfl
@[simp] theorem State.begin_freeCtr (s : State) : s.begin.freeCtr = s.freeCtr := rfl
@[simp] theorem State.begin_mem (s : State) : s.begin.mem = s.mem := rfl
@[simp] theorem State.begin_dirs (s : State) : s.begin.dirs = s.dirs := rfl
@[simp] theorem State.begin_rel (s : State) : s.begin.rel = s.rel := rfl
@[simp] theorem State.begin_parked (s : State) : s.begin.parked = s.parked := rfl
@[simp] theorem State.begin_watches (s : State) : s.begin.watches = s.watches := rfl
@[simp] theorem State.begin_ornWait (s : State) : s.begin.ornWait = s.ornWait := rfl
@[simp] theorem State.begin_orn (s : State) : s.begin.orn = s.orn := rfl
@[simp] theorem State.begin_dieTlb (s : State) : s.begin.dieTlb = s.dieTlb := rfl
@[simp] theorem State.begin_ctxs (s : State) : s.begin.ctxs = s.ctxs := rfl
@[simp] theorem State.begin_faultQ (s : State) : s.begin.faultQ = s.faultQ := rfl
@[simp] theorem State.begin_recAt (s : State) : s.begin.recAt = s.recAt := rfl
@[simp] theorem State.begin_storeAt (s : State) : s.begin.storeAt = s.storeAt := rfl
@[simp] theorem State.begin_poison (s : State) : s.begin.poison = s.poison := rfl
@[simp] theorem State.begin_fwd (s : State) : s.begin.fwd = s.fwd := rfl
@[simp] theorem State.begin_hostMem (s : State) : s.begin.hostMem = s.hostMem := rfl
@[simp] theorem State.begin_hostReads (s : State) : s.begin.hostReads = s.hostReads := rfl
@[simp] theorem State.begin_dbgAnswers (s : State) : s.begin.dbgAnswers = s.dbgAnswers := rfl
@[simp] theorem State.begin_outbox (s : State) : s.begin.outbox = s.outbox := rfl
@[simp] theorem State.begin_giving (s : State) : s.begin.giving = s.giving := rfl
@[simp] theorem State.begin_l2 (s : State) : s.begin.l2 = s.l2 := rfl
@[simp] theorem State.begin_lastServed (s : State) : s.begin.lastServed = s.lastServed := rfl
@[simp] theorem State.begin_storeQ (s : State) : s.begin.storeQ = s.storeQ := rfl
@[simp] theorem State.begin_faultSeq (s : State) : s.begin.faultSeq = s.faultSeq := rfl
@[simp] theorem State.begin_pendRecs (s : State) : s.begin.pendRecs = s.pendRecs := rfl
@[simp] theorem State.begin_todo (s : State) : s.begin.todo = s.todo := rfl
@[simp] theorem State.begin_shoots (s : State) : s.begin.shoots = s.shoots := rfl
@[simp] theorem State.begin_reqs (s : State) : s.begin.reqs = s.reqs := rfl
@[simp] theorem State.begin_replies (s : State) : s.begin.replies = s.replies := rfl
@[simp] theorem State.begin_fns (s : State) : s.begin.fns = s.fns := rfl
@[simp] theorem State.begin_pchans (s : State) : s.begin.pchans = s.pchans := rfl
@[simp] theorem State.begin_service (s : State) : s.begin.service = s.service := rfl
@[simp] theorem State.begin_pstate (s : State) : s.begin.pstate = s.pstate := rfl
@[simp] theorem State.begin_cap (s : State) : s.begin.cap = s.cap := rfl
@[simp] theorem State.begin_banks (s : State) : s.begin.banks = s.banks := rfl

/-! ### setPc -/

@[simp] theorem State.setPc_curStrand (s : State) (pc : VAddr) : (s.setPc pc).curStrand = s.curStrand := rfl
@[simp] theorem State.setPc_gangs (s : State) (pc : VAddr) : (s.setPc pc).gangs = s.gangs := rfl
@[simp] theorem State.setPc_teams (s : State) (pc : VAddr) : (s.setPc pc).teams = s.teams := rfl
@[simp] theorem State.setPc_grids (s : State) (pc : VAddr) : (s.setPc pc).grids = s.grids := rfl
@[simp] theorem State.setPc_cores (s : State) (pc : VAddr) : (s.setPc pc).cores = s.cores := rfl
@[simp] theorem State.setPc_clock (s : State) (pc : VAddr) : (s.setPc pc).clock = s.clock := rfl
@[simp] theorem State.setPc_sched (s : State) (pc : VAddr) : (s.setPc pc).sched = s.sched := rfl
@[simp] theorem State.setPc_nextId (s : State) (pc : VAddr) : (s.setPc pc).nextId = s.nextId := rfl
@[simp] theorem State.setPc_freeCtr (s : State) (pc : VAddr) : (s.setPc pc).freeCtr = s.freeCtr := rfl
@[simp] theorem State.setPc_mem (s : State) (pc : VAddr) : (s.setPc pc).mem = s.mem := rfl
@[simp] theorem State.setPc_dirs (s : State) (pc : VAddr) : (s.setPc pc).dirs = s.dirs := rfl
@[simp] theorem State.setPc_rel (s : State) (pc : VAddr) : (s.setPc pc).rel = s.rel := rfl
@[simp] theorem State.setPc_parked (s : State) (pc : VAddr) : (s.setPc pc).parked = s.parked := rfl
@[simp] theorem State.setPc_watches (s : State) (pc : VAddr) : (s.setPc pc).watches = s.watches := rfl
@[simp] theorem State.setPc_ornWait (s : State) (pc : VAddr) : (s.setPc pc).ornWait = s.ornWait := rfl
@[simp] theorem State.setPc_orn (s : State) (pc : VAddr) : (s.setPc pc).orn = s.orn := rfl
@[simp] theorem State.setPc_dieTlb (s : State) (pc : VAddr) : (s.setPc pc).dieTlb = s.dieTlb := rfl
@[simp] theorem State.setPc_ctxs (s : State) (pc : VAddr) : (s.setPc pc).ctxs = s.ctxs := rfl
@[simp] theorem State.setPc_faultQ (s : State) (pc : VAddr) : (s.setPc pc).faultQ = s.faultQ := rfl
@[simp] theorem State.setPc_recAt (s : State) (pc : VAddr) : (s.setPc pc).recAt = s.recAt := rfl
@[simp] theorem State.setPc_storeAt (s : State) (pc : VAddr) : (s.setPc pc).storeAt = s.storeAt := rfl
@[simp] theorem State.setPc_poison (s : State) (pc : VAddr) : (s.setPc pc).poison = s.poison := rfl
@[simp] theorem State.setPc_fwd (s : State) (pc : VAddr) : (s.setPc pc).fwd = s.fwd := rfl
@[simp] theorem State.setPc_hostMem (s : State) (pc : VAddr) : (s.setPc pc).hostMem = s.hostMem := rfl
@[simp] theorem State.setPc_hostReads (s : State) (pc : VAddr) : (s.setPc pc).hostReads = s.hostReads := rfl
@[simp] theorem State.setPc_dbgAnswers (s : State) (pc : VAddr) : (s.setPc pc).dbgAnswers = s.dbgAnswers := rfl
@[simp] theorem State.setPc_outbox (s : State) (pc : VAddr) : (s.setPc pc).outbox = s.outbox := rfl
@[simp] theorem State.setPc_giving (s : State) (pc : VAddr) : (s.setPc pc).giving = s.giving := rfl
@[simp] theorem State.setPc_l2 (s : State) (pc : VAddr) : (s.setPc pc).l2 = s.l2 := rfl
@[simp] theorem State.setPc_lastServed (s : State) (pc : VAddr) : (s.setPc pc).lastServed = s.lastServed := rfl
@[simp] theorem State.setPc_storeQ (s : State) (pc : VAddr) : (s.setPc pc).storeQ = s.storeQ := rfl
@[simp] theorem State.setPc_faultSeq (s : State) (pc : VAddr) : (s.setPc pc).faultSeq = s.faultSeq := rfl
@[simp] theorem State.setPc_pendRecs (s : State) (pc : VAddr) : (s.setPc pc).pendRecs = s.pendRecs := rfl
@[simp] theorem State.setPc_todo (s : State) (pc : VAddr) : (s.setPc pc).todo = s.todo := rfl
@[simp] theorem State.setPc_shoots (s : State) (pc : VAddr) : (s.setPc pc).shoots = s.shoots := rfl
@[simp] theorem State.setPc_reqs (s : State) (pc : VAddr) : (s.setPc pc).reqs = s.reqs := rfl
@[simp] theorem State.setPc_replies (s : State) (pc : VAddr) : (s.setPc pc).replies = s.replies := rfl
@[simp] theorem State.setPc_fns (s : State) (pc : VAddr) : (s.setPc pc).fns = s.fns := rfl
@[simp] theorem State.setPc_pchans (s : State) (pc : VAddr) : (s.setPc pc).pchans = s.pchans := rfl
@[simp] theorem State.setPc_service (s : State) (pc : VAddr) : (s.setPc pc).service = s.service := rfl
@[simp] theorem State.setPc_pstate (s : State) (pc : VAddr) : (s.setPc pc).pstate = s.pstate := rfl
@[simp] theorem State.setPc_cap (s : State) (pc : VAddr) : (s.setPc pc).cap = s.cap := rfl
@[simp] theorem State.setPc_banks (s : State) (pc : VAddr) : (s.setPc pc).banks = s.banks := rfl

/-! ### retire -/

@[simp] theorem State.retire_curStrand (s : State) (i : Instr) (pc : VAddr) (part : LaneMask) : (s.retire i pc part).curStrand = s.curStrand := rfl
@[simp] theorem State.retire_gangs (s : State) (i : Instr) (pc : VAddr) (part : LaneMask) : (s.retire i pc part).gangs = s.gangs := rfl
@[simp] theorem State.retire_teams (s : State) (i : Instr) (pc : VAddr) (part : LaneMask) : (s.retire i pc part).teams = s.teams := rfl
@[simp] theorem State.retire_grids (s : State) (i : Instr) (pc : VAddr) (part : LaneMask) : (s.retire i pc part).grids = s.grids := rfl
@[simp] theorem State.retire_clock (s : State) (i : Instr) (pc : VAddr) (part : LaneMask) : (s.retire i pc part).clock = s.clock := rfl
@[simp] theorem State.retire_sched (s : State) (i : Instr) (pc : VAddr) (part : LaneMask) : (s.retire i pc part).sched = s.sched := rfl
@[simp] theorem State.retire_nextId (s : State) (i : Instr) (pc : VAddr) (part : LaneMask) : (s.retire i pc part).nextId = s.nextId := rfl
@[simp] theorem State.retire_freeCtr (s : State) (i : Instr) (pc : VAddr) (part : LaneMask) : (s.retire i pc part).freeCtr = s.freeCtr := rfl
@[simp] theorem State.retire_mem (s : State) (i : Instr) (pc : VAddr) (part : LaneMask) : (s.retire i pc part).mem = s.mem := rfl
@[simp] theorem State.retire_dirs (s : State) (i : Instr) (pc : VAddr) (part : LaneMask) : (s.retire i pc part).dirs = s.dirs := rfl
@[simp] theorem State.retire_rel (s : State) (i : Instr) (pc : VAddr) (part : LaneMask) : (s.retire i pc part).rel = s.rel := rfl
@[simp] theorem State.retire_parked (s : State) (i : Instr) (pc : VAddr) (part : LaneMask) : (s.retire i pc part).parked = s.parked := rfl
@[simp] theorem State.retire_watches (s : State) (i : Instr) (pc : VAddr) (part : LaneMask) : (s.retire i pc part).watches = s.watches := rfl
@[simp] theorem State.retire_ornWait (s : State) (i : Instr) (pc : VAddr) (part : LaneMask) : (s.retire i pc part).ornWait = s.ornWait := rfl
@[simp] theorem State.retire_orn (s : State) (i : Instr) (pc : VAddr) (part : LaneMask) : (s.retire i pc part).orn = s.orn := rfl
@[simp] theorem State.retire_dieTlb (s : State) (i : Instr) (pc : VAddr) (part : LaneMask) : (s.retire i pc part).dieTlb = s.dieTlb := rfl
@[simp] theorem State.retire_ctxs (s : State) (i : Instr) (pc : VAddr) (part : LaneMask) : (s.retire i pc part).ctxs = s.ctxs := rfl
@[simp] theorem State.retire_faultQ (s : State) (i : Instr) (pc : VAddr) (part : LaneMask) : (s.retire i pc part).faultQ = s.faultQ := rfl
@[simp] theorem State.retire_recAt (s : State) (i : Instr) (pc : VAddr) (part : LaneMask) : (s.retire i pc part).recAt = s.recAt := rfl
@[simp] theorem State.retire_storeAt (s : State) (i : Instr) (pc : VAddr) (part : LaneMask) : (s.retire i pc part).storeAt = s.storeAt := rfl
@[simp] theorem State.retire_poison (s : State) (i : Instr) (pc : VAddr) (part : LaneMask) : (s.retire i pc part).poison = s.poison := rfl
@[simp] theorem State.retire_fwd (s : State) (i : Instr) (pc : VAddr) (part : LaneMask) : (s.retire i pc part).fwd = s.fwd := rfl
@[simp] theorem State.retire_hostMem (s : State) (i : Instr) (pc : VAddr) (part : LaneMask) : (s.retire i pc part).hostMem = s.hostMem := rfl
@[simp] theorem State.retire_hostReads (s : State) (i : Instr) (pc : VAddr) (part : LaneMask) : (s.retire i pc part).hostReads = s.hostReads := rfl
@[simp] theorem State.retire_dbgAnswers (s : State) (i : Instr) (pc : VAddr) (part : LaneMask) : (s.retire i pc part).dbgAnswers = s.dbgAnswers := rfl
@[simp] theorem State.retire_outbox (s : State) (i : Instr) (pc : VAddr) (part : LaneMask) : (s.retire i pc part).outbox = s.outbox := rfl
@[simp] theorem State.retire_giving (s : State) (i : Instr) (pc : VAddr) (part : LaneMask) : (s.retire i pc part).giving = s.giving := rfl
@[simp] theorem State.retire_l2 (s : State) (i : Instr) (pc : VAddr) (part : LaneMask) : (s.retire i pc part).l2 = s.l2 := rfl
@[simp] theorem State.retire_lastServed (s : State) (i : Instr) (pc : VAddr) (part : LaneMask) : (s.retire i pc part).lastServed = s.lastServed := rfl
@[simp] theorem State.retire_storeQ (s : State) (i : Instr) (pc : VAddr) (part : LaneMask) : (s.retire i pc part).storeQ = s.storeQ := rfl
@[simp] theorem State.retire_faultSeq (s : State) (i : Instr) (pc : VAddr) (part : LaneMask) : (s.retire i pc part).faultSeq = s.faultSeq := rfl
@[simp] theorem State.retire_pendRecs (s : State) (i : Instr) (pc : VAddr) (part : LaneMask) : (s.retire i pc part).pendRecs = s.pendRecs := rfl
@[simp] theorem State.retire_todo (s : State) (i : Instr) (pc : VAddr) (part : LaneMask) : (s.retire i pc part).todo = s.todo := rfl
@[simp] theorem State.retire_shoots (s : State) (i : Instr) (pc : VAddr) (part : LaneMask) : (s.retire i pc part).shoots = s.shoots := rfl
@[simp] theorem State.retire_reqs (s : State) (i : Instr) (pc : VAddr) (part : LaneMask) : (s.retire i pc part).reqs = s.reqs := rfl
@[simp] theorem State.retire_replies (s : State) (i : Instr) (pc : VAddr) (part : LaneMask) : (s.retire i pc part).replies = s.replies := rfl
@[simp] theorem State.retire_fns (s : State) (i : Instr) (pc : VAddr) (part : LaneMask) : (s.retire i pc part).fns = s.fns := rfl
@[simp] theorem State.retire_pchans (s : State) (i : Instr) (pc : VAddr) (part : LaneMask) : (s.retire i pc part).pchans = s.pchans := rfl
@[simp] theorem State.retire_service (s : State) (i : Instr) (pc : VAddr) (part : LaneMask) : (s.retire i pc part).service = s.service := rfl
@[simp] theorem State.retire_pstate (s : State) (i : Instr) (pc : VAddr) (part : LaneMask) : (s.retire i pc part).pstate = s.pstate := rfl
@[simp] theorem State.retire_cap (s : State) (i : Instr) (pc : VAddr) (part : LaneMask) : (s.retire i pc part).cap = s.cap := rfl
@[simp] theorem State.retire_banks (s : State) (i : Instr) (pc : VAddr) (part : LaneMask) : (s.retire i pc part).banks = s.banks := rfl

/-! ### fresh -/

@[simp] theorem State.fresh_cur (s : State) : s.fresh.2.cur = s.cur := rfl
@[simp] theorem State.fresh_curStrand (s : State) : s.fresh.2.curStrand = s.curStrand := rfl
@[simp] theorem State.fresh_gangs (s : State) : s.fresh.2.gangs = s.gangs := rfl
@[simp] theorem State.fresh_teams (s : State) : s.fresh.2.teams = s.teams := rfl
@[simp] theorem State.fresh_grids (s : State) : s.fresh.2.grids = s.grids := rfl
@[simp] theorem State.fresh_cores (s : State) : s.fresh.2.cores = s.cores := rfl
@[simp] theorem State.fresh_clock (s : State) : s.fresh.2.clock = s.clock := rfl
@[simp] theorem State.fresh_sched (s : State) : s.fresh.2.sched = s.sched := rfl
@[simp] theorem State.fresh_freeCtr (s : State) : s.fresh.2.freeCtr = s.freeCtr := rfl
@[simp] theorem State.fresh_mem (s : State) : s.fresh.2.mem = s.mem := rfl
@[simp] theorem State.fresh_dirs (s : State) : s.fresh.2.dirs = s.dirs := rfl
@[simp] theorem State.fresh_rel (s : State) : s.fresh.2.rel = s.rel := rfl
@[simp] theorem State.fresh_parked (s : State) : s.fresh.2.parked = s.parked := rfl
@[simp] theorem State.fresh_watches (s : State) : s.fresh.2.watches = s.watches := rfl
@[simp] theorem State.fresh_ornWait (s : State) : s.fresh.2.ornWait = s.ornWait := rfl
@[simp] theorem State.fresh_orn (s : State) : s.fresh.2.orn = s.orn := rfl
@[simp] theorem State.fresh_dieTlb (s : State) : s.fresh.2.dieTlb = s.dieTlb := rfl
@[simp] theorem State.fresh_ctxs (s : State) : s.fresh.2.ctxs = s.ctxs := rfl
@[simp] theorem State.fresh_faultQ (s : State) : s.fresh.2.faultQ = s.faultQ := rfl
@[simp] theorem State.fresh_recAt (s : State) : s.fresh.2.recAt = s.recAt := rfl
@[simp] theorem State.fresh_storeAt (s : State) : s.fresh.2.storeAt = s.storeAt := rfl
@[simp] theorem State.fresh_poison (s : State) : s.fresh.2.poison = s.poison := rfl
@[simp] theorem State.fresh_fwd (s : State) : s.fresh.2.fwd = s.fwd := rfl
@[simp] theorem State.fresh_hostMem (s : State) : s.fresh.2.hostMem = s.hostMem := rfl
@[simp] theorem State.fresh_hostReads (s : State) : s.fresh.2.hostReads = s.hostReads := rfl
@[simp] theorem State.fresh_dbgAnswers (s : State) : s.fresh.2.dbgAnswers = s.dbgAnswers := rfl
@[simp] theorem State.fresh_outbox (s : State) : s.fresh.2.outbox = s.outbox := rfl
@[simp] theorem State.fresh_giving (s : State) : s.fresh.2.giving = s.giving := rfl
@[simp] theorem State.fresh_l2 (s : State) : s.fresh.2.l2 = s.l2 := rfl
@[simp] theorem State.fresh_lastServed (s : State) : s.fresh.2.lastServed = s.lastServed := rfl
@[simp] theorem State.fresh_storeQ (s : State) : s.fresh.2.storeQ = s.storeQ := rfl
@[simp] theorem State.fresh_faultSeq (s : State) : s.fresh.2.faultSeq = s.faultSeq := rfl
@[simp] theorem State.fresh_pendRecs (s : State) : s.fresh.2.pendRecs = s.pendRecs := rfl
@[simp] theorem State.fresh_todo (s : State) : s.fresh.2.todo = s.todo := rfl
@[simp] theorem State.fresh_shoots (s : State) : s.fresh.2.shoots = s.shoots := rfl
@[simp] theorem State.fresh_reqs (s : State) : s.fresh.2.reqs = s.reqs := rfl
@[simp] theorem State.fresh_replies (s : State) : s.fresh.2.replies = s.replies := rfl
@[simp] theorem State.fresh_fns (s : State) : s.fresh.2.fns = s.fns := rfl
@[simp] theorem State.fresh_pchans (s : State) : s.fresh.2.pchans = s.pchans := rfl
@[simp] theorem State.fresh_service (s : State) : s.fresh.2.service = s.service := rfl
@[simp] theorem State.fresh_pstate (s : State) : s.fresh.2.pstate = s.pstate := rfl
@[simp] theorem State.fresh_cap (s : State) : s.fresh.2.cap = s.cap := rfl
@[simp] theorem State.fresh_banks (s : State) : s.fresh.2.banks = s.banks := rfl

/-! ### tick -/

@[simp] theorem State.tick_cur (s : State) : s.tick.2.cur = s.cur := rfl
@[simp] theorem State.tick_curStrand (s : State) : s.tick.2.curStrand = s.curStrand := rfl
@[simp] theorem State.tick_gangs (s : State) : s.tick.2.gangs = s.gangs := rfl
@[simp] theorem State.tick_teams (s : State) : s.tick.2.teams = s.teams := rfl
@[simp] theorem State.tick_grids (s : State) : s.tick.2.grids = s.grids := rfl
@[simp] theorem State.tick_cores (s : State) : s.tick.2.cores = s.cores := rfl
@[simp] theorem State.tick_clock (s : State) : s.tick.2.clock = s.clock := rfl
@[simp] theorem State.tick_sched (s : State) : s.tick.2.sched = s.sched := rfl
@[simp] theorem State.tick_nextId (s : State) : s.tick.2.nextId = s.nextId := rfl
@[simp] theorem State.tick_mem (s : State) : s.tick.2.mem = s.mem := rfl
@[simp] theorem State.tick_dirs (s : State) : s.tick.2.dirs = s.dirs := rfl
@[simp] theorem State.tick_rel (s : State) : s.tick.2.rel = s.rel := rfl
@[simp] theorem State.tick_parked (s : State) : s.tick.2.parked = s.parked := rfl
@[simp] theorem State.tick_watches (s : State) : s.tick.2.watches = s.watches := rfl
@[simp] theorem State.tick_ornWait (s : State) : s.tick.2.ornWait = s.ornWait := rfl
@[simp] theorem State.tick_orn (s : State) : s.tick.2.orn = s.orn := rfl
@[simp] theorem State.tick_dieTlb (s : State) : s.tick.2.dieTlb = s.dieTlb := rfl
@[simp] theorem State.tick_ctxs (s : State) : s.tick.2.ctxs = s.ctxs := rfl
@[simp] theorem State.tick_faultQ (s : State) : s.tick.2.faultQ = s.faultQ := rfl
@[simp] theorem State.tick_recAt (s : State) : s.tick.2.recAt = s.recAt := rfl
@[simp] theorem State.tick_storeAt (s : State) : s.tick.2.storeAt = s.storeAt := rfl
@[simp] theorem State.tick_poison (s : State) : s.tick.2.poison = s.poison := rfl
@[simp] theorem State.tick_fwd (s : State) : s.tick.2.fwd = s.fwd := rfl
@[simp] theorem State.tick_hostMem (s : State) : s.tick.2.hostMem = s.hostMem := rfl
@[simp] theorem State.tick_hostReads (s : State) : s.tick.2.hostReads = s.hostReads := rfl
@[simp] theorem State.tick_dbgAnswers (s : State) : s.tick.2.dbgAnswers = s.dbgAnswers := rfl
@[simp] theorem State.tick_outbox (s : State) : s.tick.2.outbox = s.outbox := rfl
@[simp] theorem State.tick_giving (s : State) : s.tick.2.giving = s.giving := rfl
@[simp] theorem State.tick_l2 (s : State) : s.tick.2.l2 = s.l2 := rfl
@[simp] theorem State.tick_lastServed (s : State) : s.tick.2.lastServed = s.lastServed := rfl
@[simp] theorem State.tick_storeQ (s : State) : s.tick.2.storeQ = s.storeQ := rfl
@[simp] theorem State.tick_faultSeq (s : State) : s.tick.2.faultSeq = s.faultSeq := rfl
@[simp] theorem State.tick_pendRecs (s : State) : s.tick.2.pendRecs = s.pendRecs := rfl
@[simp] theorem State.tick_todo (s : State) : s.tick.2.todo = s.todo := rfl
@[simp] theorem State.tick_shoots (s : State) : s.tick.2.shoots = s.shoots := rfl
@[simp] theorem State.tick_reqs (s : State) : s.tick.2.reqs = s.reqs := rfl
@[simp] theorem State.tick_replies (s : State) : s.tick.2.replies = s.replies := rfl
@[simp] theorem State.tick_fns (s : State) : s.tick.2.fns = s.fns := rfl
@[simp] theorem State.tick_pchans (s : State) : s.tick.2.pchans = s.pchans := rfl
@[simp] theorem State.tick_service (s : State) : s.tick.2.service = s.service := rfl
@[simp] theorem State.tick_pstate (s : State) : s.tick.2.pstate = s.pstate := rfl
@[simp] theorem State.tick_cap (s : State) : s.tick.2.cap = s.cap := rfl
@[simp] theorem State.tick_banks (s : State) : s.tick.2.banks = s.banks := rfl

/-! ### modDir -/

@[simp] theorem State.modDir_cur (s : State) (sector : Nat) (f : Dir → Dir) : (s.modDir sector f).cur = s.cur := rfl
@[simp] theorem State.modDir_curStrand (s : State) (sector : Nat) (f : Dir → Dir) : (s.modDir sector f).curStrand = s.curStrand := rfl
@[simp] theorem State.modDir_gangs (s : State) (sector : Nat) (f : Dir → Dir) : (s.modDir sector f).gangs = s.gangs := rfl
@[simp] theorem State.modDir_teams (s : State) (sector : Nat) (f : Dir → Dir) : (s.modDir sector f).teams = s.teams := rfl
@[simp] theorem State.modDir_grids (s : State) (sector : Nat) (f : Dir → Dir) : (s.modDir sector f).grids = s.grids := rfl
@[simp] theorem State.modDir_cores (s : State) (sector : Nat) (f : Dir → Dir) : (s.modDir sector f).cores = s.cores := rfl
@[simp] theorem State.modDir_clock (s : State) (sector : Nat) (f : Dir → Dir) : (s.modDir sector f).clock = s.clock := rfl
@[simp] theorem State.modDir_sched (s : State) (sector : Nat) (f : Dir → Dir) : (s.modDir sector f).sched = s.sched := rfl
@[simp] theorem State.modDir_nextId (s : State) (sector : Nat) (f : Dir → Dir) : (s.modDir sector f).nextId = s.nextId := rfl
@[simp] theorem State.modDir_freeCtr (s : State) (sector : Nat) (f : Dir → Dir) : (s.modDir sector f).freeCtr = s.freeCtr := rfl
@[simp] theorem State.modDir_mem (s : State) (sector : Nat) (f : Dir → Dir) : (s.modDir sector f).mem = s.mem := rfl
@[simp] theorem State.modDir_rel (s : State) (sector : Nat) (f : Dir → Dir) : (s.modDir sector f).rel = s.rel := rfl
@[simp] theorem State.modDir_parked (s : State) (sector : Nat) (f : Dir → Dir) : (s.modDir sector f).parked = s.parked := rfl
@[simp] theorem State.modDir_watches (s : State) (sector : Nat) (f : Dir → Dir) : (s.modDir sector f).watches = s.watches := rfl
@[simp] theorem State.modDir_ornWait (s : State) (sector : Nat) (f : Dir → Dir) : (s.modDir sector f).ornWait = s.ornWait := rfl
@[simp] theorem State.modDir_orn (s : State) (sector : Nat) (f : Dir → Dir) : (s.modDir sector f).orn = s.orn := rfl
@[simp] theorem State.modDir_dieTlb (s : State) (sector : Nat) (f : Dir → Dir) : (s.modDir sector f).dieTlb = s.dieTlb := rfl
@[simp] theorem State.modDir_ctxs (s : State) (sector : Nat) (f : Dir → Dir) : (s.modDir sector f).ctxs = s.ctxs := rfl
@[simp] theorem State.modDir_faultQ (s : State) (sector : Nat) (f : Dir → Dir) : (s.modDir sector f).faultQ = s.faultQ := rfl
@[simp] theorem State.modDir_recAt (s : State) (sector : Nat) (f : Dir → Dir) : (s.modDir sector f).recAt = s.recAt := rfl
@[simp] theorem State.modDir_storeAt (s : State) (sector : Nat) (f : Dir → Dir) : (s.modDir sector f).storeAt = s.storeAt := rfl
@[simp] theorem State.modDir_poison (s : State) (sector : Nat) (f : Dir → Dir) : (s.modDir sector f).poison = s.poison := rfl
@[simp] theorem State.modDir_fwd (s : State) (sector : Nat) (f : Dir → Dir) : (s.modDir sector f).fwd = s.fwd := rfl
@[simp] theorem State.modDir_hostMem (s : State) (sector : Nat) (f : Dir → Dir) : (s.modDir sector f).hostMem = s.hostMem := rfl
@[simp] theorem State.modDir_hostReads (s : State) (sector : Nat) (f : Dir → Dir) : (s.modDir sector f).hostReads = s.hostReads := rfl
@[simp] theorem State.modDir_dbgAnswers (s : State) (sector : Nat) (f : Dir → Dir) : (s.modDir sector f).dbgAnswers = s.dbgAnswers := rfl
@[simp] theorem State.modDir_outbox (s : State) (sector : Nat) (f : Dir → Dir) : (s.modDir sector f).outbox = s.outbox := rfl
@[simp] theorem State.modDir_giving (s : State) (sector : Nat) (f : Dir → Dir) : (s.modDir sector f).giving = s.giving := rfl
@[simp] theorem State.modDir_l2 (s : State) (sector : Nat) (f : Dir → Dir) : (s.modDir sector f).l2 = s.l2 := rfl
@[simp] theorem State.modDir_lastServed (s : State) (sector : Nat) (f : Dir → Dir) : (s.modDir sector f).lastServed = s.lastServed := rfl
@[simp] theorem State.modDir_storeQ (s : State) (sector : Nat) (f : Dir → Dir) : (s.modDir sector f).storeQ = s.storeQ := rfl
@[simp] theorem State.modDir_faultSeq (s : State) (sector : Nat) (f : Dir → Dir) : (s.modDir sector f).faultSeq = s.faultSeq := rfl
@[simp] theorem State.modDir_pendRecs (s : State) (sector : Nat) (f : Dir → Dir) : (s.modDir sector f).pendRecs = s.pendRecs := rfl
@[simp] theorem State.modDir_todo (s : State) (sector : Nat) (f : Dir → Dir) : (s.modDir sector f).todo = s.todo := rfl
@[simp] theorem State.modDir_shoots (s : State) (sector : Nat) (f : Dir → Dir) : (s.modDir sector f).shoots = s.shoots := rfl
@[simp] theorem State.modDir_reqs (s : State) (sector : Nat) (f : Dir → Dir) : (s.modDir sector f).reqs = s.reqs := rfl
@[simp] theorem State.modDir_replies (s : State) (sector : Nat) (f : Dir → Dir) : (s.modDir sector f).replies = s.replies := rfl
@[simp] theorem State.modDir_fns (s : State) (sector : Nat) (f : Dir → Dir) : (s.modDir sector f).fns = s.fns := rfl
@[simp] theorem State.modDir_pchans (s : State) (sector : Nat) (f : Dir → Dir) : (s.modDir sector f).pchans = s.pchans := rfl
@[simp] theorem State.modDir_service (s : State) (sector : Nat) (f : Dir → Dir) : (s.modDir sector f).service = s.service := rfl
@[simp] theorem State.modDir_pstate (s : State) (sector : Nat) (f : Dir → Dir) : (s.modDir sector f).pstate = s.pstate := rfl
@[simp] theorem State.modDir_cap (s : State) (sector : Nat) (f : Dir → Dir) : (s.modDir sector f).cap = s.cap := rfl
@[simp] theorem State.modDir_banks (s : State) (sector : Nat) (f : Dir → Dir) : (s.modDir sector f).banks = s.banks := rfl

/-! ### putHome -/

@[simp] theorem State.putHome_cur (s : State) (pa : Nat) (bs : List Byte) : (s.putHome pa bs).cur = s.cur := rfl
@[simp] theorem State.putHome_curStrand (s : State) (pa : Nat) (bs : List Byte) : (s.putHome pa bs).curStrand = s.curStrand := rfl
@[simp] theorem State.putHome_gangs (s : State) (pa : Nat) (bs : List Byte) : (s.putHome pa bs).gangs = s.gangs := rfl
@[simp] theorem State.putHome_teams (s : State) (pa : Nat) (bs : List Byte) : (s.putHome pa bs).teams = s.teams := rfl
@[simp] theorem State.putHome_grids (s : State) (pa : Nat) (bs : List Byte) : (s.putHome pa bs).grids = s.grids := rfl
@[simp] theorem State.putHome_cores (s : State) (pa : Nat) (bs : List Byte) : (s.putHome pa bs).cores = s.cores := rfl
@[simp] theorem State.putHome_clock (s : State) (pa : Nat) (bs : List Byte) : (s.putHome pa bs).clock = s.clock := rfl
@[simp] theorem State.putHome_sched (s : State) (pa : Nat) (bs : List Byte) : (s.putHome pa bs).sched = s.sched := rfl
@[simp] theorem State.putHome_nextId (s : State) (pa : Nat) (bs : List Byte) : (s.putHome pa bs).nextId = s.nextId := rfl
@[simp] theorem State.putHome_freeCtr (s : State) (pa : Nat) (bs : List Byte) : (s.putHome pa bs).freeCtr = s.freeCtr := rfl
@[simp] theorem State.putHome_dirs (s : State) (pa : Nat) (bs : List Byte) : (s.putHome pa bs).dirs = s.dirs := rfl
@[simp] theorem State.putHome_rel (s : State) (pa : Nat) (bs : List Byte) : (s.putHome pa bs).rel = s.rel := rfl
@[simp] theorem State.putHome_parked (s : State) (pa : Nat) (bs : List Byte) : (s.putHome pa bs).parked = s.parked := rfl
@[simp] theorem State.putHome_ornWait (s : State) (pa : Nat) (bs : List Byte) : (s.putHome pa bs).ornWait = s.ornWait := rfl
@[simp] theorem State.putHome_orn (s : State) (pa : Nat) (bs : List Byte) : (s.putHome pa bs).orn = s.orn := rfl
@[simp] theorem State.putHome_dieTlb (s : State) (pa : Nat) (bs : List Byte) : (s.putHome pa bs).dieTlb = s.dieTlb := rfl
@[simp] theorem State.putHome_ctxs (s : State) (pa : Nat) (bs : List Byte) : (s.putHome pa bs).ctxs = s.ctxs := rfl
@[simp] theorem State.putHome_faultQ (s : State) (pa : Nat) (bs : List Byte) : (s.putHome pa bs).faultQ = s.faultQ := rfl
@[simp] theorem State.putHome_recAt (s : State) (pa : Nat) (bs : List Byte) : (s.putHome pa bs).recAt = s.recAt := rfl
@[simp] theorem State.putHome_storeAt (s : State) (pa : Nat) (bs : List Byte) : (s.putHome pa bs).storeAt = s.storeAt := rfl
@[simp] theorem State.putHome_poison (s : State) (pa : Nat) (bs : List Byte) : (s.putHome pa bs).poison = s.poison := rfl
@[simp] theorem State.putHome_fwd (s : State) (pa : Nat) (bs : List Byte) : (s.putHome pa bs).fwd = s.fwd := rfl
@[simp] theorem State.putHome_hostMem (s : State) (pa : Nat) (bs : List Byte) : (s.putHome pa bs).hostMem = s.hostMem := rfl
@[simp] theorem State.putHome_hostReads (s : State) (pa : Nat) (bs : List Byte) : (s.putHome pa bs).hostReads = s.hostReads := rfl
@[simp] theorem State.putHome_dbgAnswers (s : State) (pa : Nat) (bs : List Byte) : (s.putHome pa bs).dbgAnswers = s.dbgAnswers := rfl
@[simp] theorem State.putHome_outbox (s : State) (pa : Nat) (bs : List Byte) : (s.putHome pa bs).outbox = s.outbox := rfl
@[simp] theorem State.putHome_giving (s : State) (pa : Nat) (bs : List Byte) : (s.putHome pa bs).giving = s.giving := rfl
@[simp] theorem State.putHome_l2 (s : State) (pa : Nat) (bs : List Byte) : (s.putHome pa bs).l2 = s.l2 := rfl
@[simp] theorem State.putHome_lastServed (s : State) (pa : Nat) (bs : List Byte) : (s.putHome pa bs).lastServed = s.lastServed := rfl
@[simp] theorem State.putHome_storeQ (s : State) (pa : Nat) (bs : List Byte) : (s.putHome pa bs).storeQ = s.storeQ := rfl
@[simp] theorem State.putHome_faultSeq (s : State) (pa : Nat) (bs : List Byte) : (s.putHome pa bs).faultSeq = s.faultSeq := rfl
@[simp] theorem State.putHome_pendRecs (s : State) (pa : Nat) (bs : List Byte) : (s.putHome pa bs).pendRecs = s.pendRecs := rfl
@[simp] theorem State.putHome_todo (s : State) (pa : Nat) (bs : List Byte) : (s.putHome pa bs).todo = s.todo := rfl
@[simp] theorem State.putHome_shoots (s : State) (pa : Nat) (bs : List Byte) : (s.putHome pa bs).shoots = s.shoots := rfl
@[simp] theorem State.putHome_reqs (s : State) (pa : Nat) (bs : List Byte) : (s.putHome pa bs).reqs = s.reqs := rfl
@[simp] theorem State.putHome_replies (s : State) (pa : Nat) (bs : List Byte) : (s.putHome pa bs).replies = s.replies := rfl
@[simp] theorem State.putHome_fns (s : State) (pa : Nat) (bs : List Byte) : (s.putHome pa bs).fns = s.fns := rfl
@[simp] theorem State.putHome_pchans (s : State) (pa : Nat) (bs : List Byte) : (s.putHome pa bs).pchans = s.pchans := rfl
@[simp] theorem State.putHome_service (s : State) (pa : Nat) (bs : List Byte) : (s.putHome pa bs).service = s.service := rfl
@[simp] theorem State.putHome_pstate (s : State) (pa : Nat) (bs : List Byte) : (s.putHome pa bs).pstate = s.pstate := rfl
@[simp] theorem State.putHome_cap (s : State) (pa : Nat) (bs : List Byte) : (s.putHome pa bs).cap = s.cap := rfl
@[simp] theorem State.putHome_banks (s : State) (pa : Nat) (bs : List Byte) : (s.putHome pa bs).banks = s.banks := rfl

/-! ### What they change -/

@[simp] theorem State.modCur_cur (s : State) (f : Gang → Gang) : (s.modCur f).cur = f s.cur := rfl
@[simp] theorem State.modStrand_cur (s : State) (f : Strand → Strand) : (s.modStrand f).cur = s.cur.modStrand s.curStrand f := rfl
@[simp] theorem State.modTeam_teams (s : State) (k : TKey) (f : Team → Team) :
    (s.modTeam k f).teams = modWhere (fun t => t.key == k) f s.teams := rfl
@[simp] theorem State.modCtx_ctxs (s : State) (n : Nat) (f : Ctx → Ctx) :
    (s.modCtx n f).ctxs = modWhere (fun c => c.num == n) f s.ctxs := rfl
@[simp] theorem State.fresh_fst (s : State) : s.fresh.1 = s.nextId := rfl
@[simp] theorem State.fresh_nextId (s : State) : s.fresh.2.nextId = s.nextId + 1 := rfl
@[simp] theorem State.tick_fst (s : State) : s.tick.1 = s.freeCtr := rfl
@[simp] theorem State.tick_freeCtr (s : State) : s.tick.2.freeCtr = s.freeCtr + 1 := rfl
@[simp] theorem State.putHome_mem (s : State) (pa : Nat) (bs : List Byte) : (s.putHome pa bs).mem = smPut s.mem pa bs := rfl

/-! ### Memory's canonical form -/

theorem State.putHome_wf (s : State) (pa : Nat) (bs : List Byte) (h : Memory.wf s.mem = true) : Memory.wf (s.putHome pa bs).mem = true :=
  smWf_smPut s.mem pa bs h

theorem State.reset_wf : Memory.wf State.reset.mem = true := rfl

theorem State.hostMem_smPut_wf (s : State) (a : Nat) (bs : List Byte) (h : Memory.wf s.hostMem = true) :
    Memory.wf (smPut s.hostMem a bs) = true := smWf_smPut s.hostMem a bs h

/-! ### Updates by place, and traps -/

theorem State.modGang_rest (s : State) (k : GKey) (f : Gang → Gang) :
    s.modGang k f = { s with cur := (s.modGang k f).cur, gangs := (s.modGang k f).gangs } := by
  unfold State.modGang State.modCur
  cases s.cur.resident && s.cur.key == k <;> rfl

theorem State.focus_rest (s : State) (k : GKey) (n : Nat) :
    s.focus k n = { s with cur := (s.focus k n).cur, curStrand := (s.focus k n).curStrand, gangs := (s.focus k n).gangs } := by
  unfold State.focus
  split
  · rfl
  · split <;> rfl

theorem State.enqueue_rest (s : State) (p : PendRec) :
    s.enqueue p =
      { s with faultQ := (s.enqueue p).faultQ, faultSeq := s.faultSeq + 1, recAt := (s.enqueue p).recAt, todo := (s.enqueue p).todo } := rfl

theorem State.postFault_rest (s : State) (r : FRec) (g : GKey) (k : Nat) (t : TKey) (w : Bool) :
    s.postFault r g k t w =
      { s with
        faultQ := (s.postFault r g k t w).faultQ, faultSeq := (s.postFault r g k t w).faultSeq, recAt := (s.postFault r g k t w).recAt,
        todo := (s.postFault r g k t w).todo, pendRecs := (s.postFault r g k t w).pendRecs } := by
  unfold State.postFault
  dsimp only
  split <;> rfl

/-- A record put into a queue makes it one longer. -/
theorem putBefore_length (q : List FRec) (m : Nat) (r : FRec) (f : FRec → FRec) : (putBefore q m r f).length = q.length + 1 := by
  simp only [putBefore, List.length_append, List.length_cons, List.length_map, List.length_take, List.length_drop]
  omega

/-- At most the records of the cycle come behind a new one. -/
theorem behindRec_le (q : List Nat) (n place : Nat) : behindRec q n place ≤ n := by
  have := List.length_dropWhile_le (fun x => decide (x ≤ place)) (q.drop (q.length - n))
  rw [List.length_drop] at this
  unfold behindRec
  omega

/-- A record put behind every other. -/
theorem putBefore_zero (q : List FRec) (r : FRec) (f : FRec → FRec) : putBefore q 0 r f = q ++ [r] := by
  simp [putBefore]

/-- A record that enters the fault queue makes it one longer (R216). -/
theorem State.enqueue_length (s : State) (p : PendRec) : (s.enqueue p).faultQ.length = s.faultQ.length + 1 := putBefore_length ..

/-- The fault queue never passes its room (R216). -/
theorem State.postFault_le (s : State) (r : FRec) (g : GKey) (k : Nat) (t : TKey) (w : Bool) (h : s.faultQ.length ≤ 4096) :
    (s.postFault r g k t w).faultQ.length ≤ 4096 := by
  unfold State.postFault
  dsimp only
  split
  · next hc =>
    have hl : s.faultQ.length < faultRoom := of_decide_eq_true (Bool.and_eq_true _ _ ▸ hc).1
    rw [State.enqueue_length]
    exact hl
  · exact h

/-! ### The L2 of a home slice (R122): an access changes what it holds and what the stacks are asked, and nothing else -/

theorem State.l2Access_rest (s : State) (home sector ctx pri : Nat) (a r w : Bool) :
    s.l2Access home sector ctx pri a r w =
      { s with l2 := (s.l2Access home sector ctx pri a r w).l2, pchans := (s.l2Access home sector ctx pri a r w).pchans } := rfl

@[simp] theorem State.l2Access_cur (s : State) (h k c p : Nat) (a r w : Bool) : (s.l2Access h k c p a r w).cur = s.cur := rfl
@[simp] theorem State.l2Access_curStrand (s : State) (h k c p : Nat) (a r w : Bool) : (s.l2Access h k c p a r w).curStrand = s.curStrand := rfl
@[simp] theorem State.l2Access_gangs (s : State) (h k c p : Nat) (a r w : Bool) : (s.l2Access h k c p a r w).gangs = s.gangs := rfl
@[simp] theorem State.l2Access_teams (s : State) (h k c p : Nat) (a r w : Bool) : (s.l2Access h k c p a r w).teams = s.teams := rfl
@[simp] theorem State.l2Access_grids (s : State) (h k c p : Nat) (a r w : Bool) : (s.l2Access h k c p a r w).grids = s.grids := rfl
@[simp] theorem State.l2Access_cores (s : State) (h k c p : Nat) (a r w : Bool) : (s.l2Access h k c p a r w).cores = s.cores := rfl
@[simp] theorem State.l2Access_clock (s : State) (h k c p : Nat) (a r w : Bool) : (s.l2Access h k c p a r w).clock = s.clock := rfl
@[simp] theorem State.l2Access_sched (s : State) (h k c p : Nat) (a r w : Bool) : (s.l2Access h k c p a r w).sched = s.sched := rfl
@[simp] theorem State.l2Access_nextId (s : State) (h k c p : Nat) (a r w : Bool) : (s.l2Access h k c p a r w).nextId = s.nextId := rfl
@[simp] theorem State.l2Access_freeCtr (s : State) (h k c p : Nat) (a r w : Bool) : (s.l2Access h k c p a r w).freeCtr = s.freeCtr := rfl
@[simp] theorem State.l2Access_mem (s : State) (h k c p : Nat) (a r w : Bool) : (s.l2Access h k c p a r w).mem = s.mem := rfl
@[simp] theorem State.l2Access_dirs (s : State) (h k c p : Nat) (a r w : Bool) : (s.l2Access h k c p a r w).dirs = s.dirs := rfl
@[simp] theorem State.l2Access_rel (s : State) (h k c p : Nat) (a r w : Bool) : (s.l2Access h k c p a r w).rel = s.rel := rfl
@[simp] theorem State.l2Access_parked (s : State) (h k c p : Nat) (a r w : Bool) : (s.l2Access h k c p a r w).parked = s.parked := rfl
@[simp] theorem State.l2Access_watches (s : State) (h k c p : Nat) (a r w : Bool) : (s.l2Access h k c p a r w).watches = s.watches := rfl
@[simp] theorem State.l2Access_ornWait (s : State) (h k c p : Nat) (a r w : Bool) : (s.l2Access h k c p a r w).ornWait = s.ornWait := rfl
@[simp] theorem State.l2Access_orn (s : State) (h k c p : Nat) (a r w : Bool) : (s.l2Access h k c p a r w).orn = s.orn := rfl
@[simp] theorem State.l2Access_fwd (s : State) (h k c p : Nat) (a r w : Bool) : (s.l2Access h k c p a r w).fwd = s.fwd := rfl
@[simp] theorem State.l2Access_hostMem (s : State) (h k c p : Nat) (a r w : Bool) : (s.l2Access h k c p a r w).hostMem = s.hostMem := rfl
@[simp] theorem State.l2Access_hostReads (s : State) (h k c p : Nat) (a r w : Bool) : (s.l2Access h k c p a r w).hostReads = s.hostReads := rfl
@[simp] theorem State.l2Access_dbgAnswers (s : State) (h k c p : Nat) (a r w : Bool) : (s.l2Access h k c p a r w).dbgAnswers = s.dbgAnswers := rfl
@[simp] theorem State.l2Access_outbox (s : State) (h k c p : Nat) (a r w : Bool) : (s.l2Access h k c p a r w).outbox = s.outbox := rfl
@[simp] theorem State.l2Access_giving (s : State) (h k c p : Nat) (a r w : Bool) : (s.l2Access h k c p a r w).giving = s.giving := rfl
@[simp] theorem State.l2Access_dieTlb (s : State) (h k c p : Nat) (a r w : Bool) : (s.l2Access h k c p a r w).dieTlb = s.dieTlb := rfl
@[simp] theorem State.l2Access_poison (s : State) (h k c p : Nat) (a r w : Bool) : (s.l2Access h k c p a r w).poison = s.poison := rfl
@[simp] theorem State.l2Access_ctxs (s : State) (h k c p : Nat) (a r w : Bool) : (s.l2Access h k c p a r w).ctxs = s.ctxs := rfl
@[simp] theorem State.l2Access_faultQ (s : State) (h k c p : Nat) (a r w : Bool) : (s.l2Access h k c p a r w).faultQ = s.faultQ := rfl
@[simp] theorem State.l2Access_recAt (s : State) (h k c p : Nat) (a r w : Bool) : (s.l2Access h k c p a r w).recAt = s.recAt := rfl
@[simp] theorem State.l2Access_storeAt (s : State) (h k c p : Nat) (a r w : Bool) : (s.l2Access h k c p a r w).storeAt = s.storeAt := rfl
@[simp] theorem State.l2Access_lastServed (s : State) (h k c p : Nat) (a r w : Bool) : (s.l2Access h k c p a r w).lastServed = s.lastServed := rfl
@[simp] theorem State.l2Access_storeQ (s : State) (h k c p : Nat) (a r w : Bool) : (s.l2Access h k c p a r w).storeQ = s.storeQ := rfl
@[simp] theorem State.l2Access_faultSeq (s : State) (h k c p : Nat) (a r w : Bool) : (s.l2Access h k c p a r w).faultSeq = s.faultSeq := rfl
@[simp] theorem State.l2Access_pendRecs (s : State) (h k c p : Nat) (a r w : Bool) : (s.l2Access h k c p a r w).pendRecs = s.pendRecs := rfl
@[simp] theorem State.l2Access_todo (s : State) (h k c p : Nat) (a r w : Bool) : (s.l2Access h k c p a r w).todo = s.todo := rfl
@[simp] theorem State.l2Access_pageDirs (s : State) (h k c p : Nat) (a r w : Bool) : (s.l2Access h k c p a r w).pageDirs = s.pageDirs := rfl
@[simp] theorem State.l2Access_service (s : State) (h k c p : Nat) (a r w : Bool) : (s.l2Access h k c p a r w).service = s.service := rfl
@[simp] theorem State.l2Access_pstate (s : State) (h k c p : Nat) (a r w : Bool) : (s.l2Access h k c p a r w).pstate = s.pstate := rfl
@[simp] theorem State.l2Access_cap (s : State) (h k c p : Nat) (a r w : Bool) : (s.l2Access h k c p a r w).cap = s.cap := rfl

@[simp] theorem State.l2Access_coreAt (s : State) (h k c p : Nat) (a r w : Bool) (n : Nat) : (s.l2Access h k c p a r w).coreAt n = s.coreAt n := rfl
@[simp] theorem State.l2Access_dirAt (s : State) (h k c p : Nat) (a r w : Bool) (n : Nat) : (s.l2Access h k c p a r w).dirAt n = s.dirAt n := rfl

theorem State.l2Take_rest (s : State) (sector : Nat) :
    s.l2Take sector = { s with l2 := (s.l2Take sector).l2, pchans := (s.l2Take sector).pchans } := rfl

theorem State.l2Read_rest (s : State) (ctx pa : Nat) (a : Attr) :
    s.l2Read ctx pa a = { s with l2 := (s.l2Read ctx pa a).l2, pchans := (s.l2Read ctx pa a).pchans } := rfl

end Sys2Proof.Machine
end

