-- ==== Sys2Proof/Laws/Counts.lean ====
section
/-! SUPPORT. What counting an issue and taking a trap leave, said once for every instruction. -/

namespace Sys2Proof.Machine

/-- Two strands are alike but for the records of issuing, the switch mark and the park. -/
structure Noted (a b : Strand) : Prop where
  eq : b =
    { a with
      state := b.state, lastSw := b.lastSw, spinLo := b.spinLo, spinHi := b.spinHi, spinCount := b.spinCount,
      spinAccess := b.spinAccess, issued := b.issued, issuedPc := b.issuedPc }
  waiting : a.state ≠ .ready → b.state = a.state

theorem Noted.refl (a : Strand) : Noted a a := ⟨rfl, fun _ => rfl⟩

theorem Noted.of (a : Strand) (x : StrandState) (n : Nat) (lo hi : VAddr) (c : Nat) (acc : Bool) (cl : DWord) (pc : VAddr)
    (h : a.state ≠ .ready → x = a.state) :
    Noted a { a with state := x, lastSw := n, spinLo := lo, spinHi := hi, spinCount := c, spinAccess := acc, issued := cl, issuedPc := pc } :=
  ⟨rfl, h⟩

theorem Noted.trans {a b c : Strand} (h : Noted a b) (h' : Noted b c) : Noted a c := by
  have e := h'.eq
  have w := h'.waiting
  have w0 := h.waiting
  refine ⟨?_, fun ha => ?_⟩
  · generalize c.state = x at e
    generalize c.lastSw = n at e
    generalize c.spinLo = lo at e
    generalize c.spinHi = hi at e
    generalize c.spinCount = k at e
    generalize c.spinAccess = acc at e
    generalize c.issued = cl at e
    generalize c.issuedPc = pc at e
    rw [h.eq] at e
    rw [e]
  · have hb := w0 ha
    rw [w (by rw [hb]; exact ha), hb]

theorem Strand.counted_noted (st : Strand) (pc : VAddr) (n : Nat) (spun acc : Bool) (clock : DWord) :
    Noted st (st.counted pc n spun acc clock) := by
  unfold Strand.counted
  split
  · split
    · exact ⟨rfl, fun _ => rfl⟩
    · exact ⟨rfl, fun _ => rfl⟩
  · exact Noted.refl st

theorem Strand.marked_noted (st : Strand) (n : Nat) : Noted st (st.marked n) := by
  unfold Strand.marked; split
  · exact ⟨rfl, fun _ => rfl⟩
  · exact Noted.refl st

theorem Strand.settled_noted (st : Strand) (x : StrandState) : Noted st (st.settled x) := by
  unfold Strand.settled; split
  · next h =>
    refine ⟨rfl, fun hn => absurd ?_ hn⟩
    simp only [Bool.and_eq_true, beq_iff_eq] at h
    exact h.2
  · exact Noted.refl st

theorem Gang.modStrand_noted (g : Gang) (k j : Nat) (f : Strand → Strand) (hf : ∀ st, Noted st (f st)) :
    Noted (g.strandAt j) ((g.modStrand k f).strandAt j) := by
  rw [Gang.strandAt_modStrand]
  split
  · next h => rw [h.1]; exact hf _
  · exact Noted.refl _

theorem Gang.issued_noted (g : Gang) (i : Instr) (k : Nat) (pc : VAddr) (spun acc : Bool) (clock : DWord) (j : Nat) :
    Noted (g.strandAt j) ((g.issued i k pc spun acc clock).strandAt j) := by
  have h0 : (g.counted pc i.count).strandAt j = g.strandAt j := rfl
  have h1 := Gang.modStrand_noted (g.counted pc i.count) k j (fun st => st.counted pc i.count spun acc clock)
    fun st => Strand.counted_noted ..
  rw [h0] at h1
  unfold Gang.issued
  split
  · exact (h1.trans (Gang.modStrand_noted _ k j _ fun st => Strand.marked_noted ..)).trans
      (Gang.modStrand_noted _ k j _ fun st => Strand.settled_noted ..)
  · exact h1

/-- Counting an issue changes what `Counts` names and nothing else. -/
theorem State.retire_counts (u : State) (i : Instr) (pc : VAddr) (part : LaneMask) : Counts u (u.retire i pc part) := by
  have hn := Gang.issued_noted u.cur i u.curStrand pc (!(u.teamGangs u.cur.team).any (·.halted)) (i.isAccess && part != 0) u.clock
    u.curStrand
  exact ⟨rfl, (Gang.issued_counted ..).eq, fun k hk => (Gang.issued_strand ..).1 hk, ⟨_, hn.eq⟩, hn.waiting⟩

/-- An instruction that goes on at the next one leaves its own effect, counted. -/
theorem issue_done {i : Instr} {gate : LaneMask → State → Option State} {body : LaneMask → State → Res} {s u : State}
    (hr : Ready i s) (hg : gate (s.part i) s = none) (hb : body (s.part i) s.begin = .done u) :
    ∃ t, issue i gate body s = .next t ∧ Counts (u.past i s) t := by
  simp only [issue_ready hr hg, hb]
  exact ⟨_, rfl, State.retire_counts ..⟩

/-- An instruction that goes on elsewhere leaves its own effect, counted. -/
theorem issue_goto {i : Instr} {gate : LaneMask → State → Option State} {body : LaneMask → State → Res} {s u : State} {pc : VAddr}
    (hr : Ready i s) (hg : gate (s.part i) s = none) (hb : body (s.part i) s.begin = .goto u pc) :
    ∃ t, issue i gate body s = .next t ∧ Counts (u.branchTo pc) t := by
  simp only [issue_ready hr hg, hb]
  exact ⟨_, rfl, State.retire_counts ..⟩

/-- An instruction that leaves the strand as its operation set it leaves its own effect, counted. -/
theorem issue_stay {i : Instr} {gate : LaneMask → State → Option State} {body : LaneMask → State → Res} {s u : State}
    (hr : Ready i s) (hg : gate (s.part i) s = none) (hb : body (s.part i) s.begin = .stay u) :
    ∃ t, issue i gate body s = .next t ∧ Counts u t := by
  simp only [issue_ready hr hg, hb]
  exact ⟨_, rfl, State.retire_counts ..⟩

theorem State.postFault_room (s : State) (r : FRec) (g : GKey) (k : Nat) (tm : TKey) (w : Bool)
    (h : (decide (s.faultQ.length < faultRoom) && s.pendRecs.isEmpty) = true) :
    s.postFault r g k tm w = s.enqueue (s.detect r false g k tm w) := by
  unfold State.postFault; dsimp only; rw [if_pos h]

theorem State.postFault_full (s : State) (r : FRec) (g : GKey) (k : Nat) (tm : TKey) (w : Bool)
    (h : ¬ (decide (s.faultQ.length < faultRoom) && s.pendRecs.isEmpty) = true) :
    s.postFault r g k tm w = s.hold (s.detect r false g k tm w) := by
  unfold State.postFault; dsimp only; rw [if_neg h]

/-- What a waiting record leaves of the others: each of them, beside it (R216). -/
theorem State.hold_mem (s : State) (p : PendRec) : p ∈ (s.hold p).pendRecs ∧ ∀ d ∈ s.pendRecs, d ∈ (s.hold p).pendRecs := by
  refine ⟨by simp [State.hold], fun d hd => ?_⟩
  simp only [State.hold, List.mem_append, List.mem_cons, List.mem_filter]
  cases h : (d.found == p.found && decide (p.fr.place p.strand < d.fr.place d.strand))
  · exact .inl ⟨hd, by simp⟩
  · exact .inr (.inr ⟨hd, rfl⟩)

/-- How many records of its cycle a new one comes before (R216). -/
abbrev State.behindNew (s : State) (p : PendRec) : Nat := behindRec s.unreadPlaces (ofCycle s.clock s.recAt s.faultQ) (p.fr.place p.strand)

/-- The record that enters the fault queue has the sequence number of its place, and Grotto has it to answer (R216). -/
theorem State.enqueue_todo (s : State) (p : PendRec) (h : p.store = false) :
    let seq := s.faultSeq - BitVec.ofNat 32 (s.behindNew p)
    ∃ d ∈ (s.enqueue p).todo, d.fr = { p.fr with w7 := seq } ∧ d.g = p.g ∧ d.strand = p.strand ∧ d.taken = false ∧ d.due = none :=
  ⟨_, List.mem_append_right _ (List.mem_cons_self ..), by simp [h], rfl, rfl, rfl, rfl⟩

/-- The first record of its cycle goes behind every other (R216). -/
theorem State.enqueue_first (s : State) (p : PendRec) (hs : p.store = false) (h : ofCycle s.clock s.recAt s.faultQ = 0) :
    (s.enqueue p).faultQ = s.faultQ ++ [{ p.fr with w7 := s.faultSeq }] ∧
      ∃ d, (s.enqueue p).todo = s.todo ++ [d] ∧ d.fr = { p.fr with w7 := s.faultSeq } := by
  have hm : behindRec s.unreadPlaces 0 (p.fr.place p.strand) = 0 := Nat.le_zero.1 (behindRec_le ..)
  simp only [State.enqueue, h, hm, hs, BitVec.sub_zero, putBefore_zero, Nat.not_lt_zero, decide_false, Bool.not_false, List.filter_true,
    List.filter_false, List.map_nil, Bool.false_eq_true, if_false]
  exact ⟨trivial, _, rfl, rfl⟩

/-- Taking a trap leaves what `Trapped` names (R212, R213, R215, R216). -/
theorem State.takeTrap_trapped (s : State) (x : Trap) (hs : s.curStrand < s.cur.strands.length) (hc : x.cause ≠ 0) :
    Trapped s (s.takeTrap x) x := by
  have hcause : causeStopsGang x.cause = false ↔ x.cause ∈ [0x01, 0x02, 0x03, 0x04, 0x06, 0x07] := by
    unfold causeStopsGang
    simp only [Bool.not_eq_eq_eq_not, Bool.not_false, Bool.or_eq_true, beq_iff_eq, List.mem_cons, List.not_mem_nil, or_false]
    constructor
    · rintro ((h | h) | h)
      · have := of_decide_eq_true h; omega
      · omega
      · omega
    · intro h
      by_cases h4 : x.cause ≤ 4
      · exact .inl (.inl (decide_eq_true h4))
      · omega
  have hroom : (decide (s.faultQ.length < faultRoom) && s.pendRecs.isEmpty) = true ↔ (s.faultQ.length < 4096 ∧ s.pendRecs = []) := by
    rw [Bool.and_eq_true, decide_eq_true_iff, List.isEmpty_iff]; rfl
  have hq := fun (r : FRec) (w : Bool) => s.postFault_rest r s.cur.key s.curStrand s.cur.team w
  have hrec : ∀ (w : Bool), let u := s.postFault (trapRecord s.cur s.curStrand x) s.cur.key s.curStrand s.cur.team w
      let r (seq : Word) : FRec := { trapRecord s.cur s.curStrand x with w7 := seq }
      if s.faultQ.length < 4096 ∧ s.pendRecs = []
      then u.faultSeq = s.faultSeq + 1 ∧ u.pendRecs = s.pendRecs ∧
        (∃ m, m ≤ ofCycle s.clock s.recAt s.faultQ ∧
          u.faultQ = putBefore s.faultQ m (r (s.faultSeq - BitVec.ofNat 32 m)) (fun x => { x with w7 := x.w7 + 1 }) ∧
          ∃ d ∈ u.todo, d.fr = r (s.faultSeq - BitVec.ofNat 32 m) ∧ d.g = s.cur.key ∧ d.strand = s.curStrand ∧ d.taken = false ∧ d.due = none) ∧
        (ofCycle s.clock s.recAt s.faultQ = 0 → u.faultQ = s.faultQ ++ [r s.faultSeq] ∧ ∃ d, u.todo = s.todo ++ [d] ∧ d.fr = r s.faultSeq)
      else u.faultQ = s.faultQ ∧ u.faultSeq = s.faultSeq ∧ u.todo = s.todo ∧
        (∃ d ∈ u.pendRecs, d.fr = r 0 ∧ d.g = s.cur.key ∧ d.strand = s.curStrand ∧ d.store = false) ∧
        ∀ d ∈ s.pendRecs, d ∈ u.pendRecs := by
    intro w
    by_cases h : s.faultQ.length < 4096 ∧ s.pendRecs = []
    · have e := s.postFault_room (trapRecord s.cur s.curStrand x) s.cur.key s.curStrand s.cur.team w (hroom.2 h)
      dsimp only
      rw [if_pos h, e]
      exact ⟨rfl, rfl, ⟨_, behindRec_le .., rfl, s.enqueue_todo _ rfl⟩, fun h0 => s.enqueue_first _ rfl h0⟩
    · have e := s.postFault_full (trapRecord s.cur s.curStrand x) s.cur.key s.curStrand s.cur.team w fun e => h (hroom.1 e)
      dsimp only
      rw [if_neg h, e]
      exact ⟨rfl, rfl, rfl, ⟨_, (s.hold_mem _).1, rfl, rfl, rfl, rfl⟩, (s.hold_mem _).2⟩
  by_cases hg : causeStopsGang x.cause = true
  · have hn : ¬ x.cause ∈ [0x01, 0x02, 0x03, 0x04, 0x06, 0x07] := fun e => by rw [hcause.2 e] at hg; cases hg
    have ht : s.takeTrap x = (s.postFault (trapRecord s.cur s.curStrand x) s.cur.key s.curStrand s.cur.team
        (kindWrites x.kind)).modCur fun g => { g with trapParked := true } := by unfold State.takeTrap; simp only [hg, if_true]
    have hr := hrec (kindWrites x.kind)
    rw [ht, hq]
    refine ⟨rfl, rfl, fun k _ => rfl, ⟨s.strand, rfl⟩, ?_, hr⟩
    rw [if_neg hn]; rfl
  · have hg' : causeStopsGang x.cause = false := by simpa using hg
    have ht : s.takeTrap x = (s.postFault (trapRecord s.cur s.curStrand x) s.cur.key s.curStrand s.cur.team
        (kindWrites x.kind)).modStrand fun st => { st with state := .faultParked, faultVa := x.addr } := by
      unfold State.takeTrap; simp only [hg', Bool.false_eq_true, if_false]
    have hr := hrec (kindWrites x.kind)
    have hst : ∀ k, (s.cur.modStrand s.curStrand fun st => { st with state := .faultParked, faultVa := x.addr }).strandAt k =
        if k = s.curStrand then { s.strand with state := .faultParked, faultVa := x.addr } else s.cur.strandAt k := by
      intro k; rw [Gang.strandAt_modStrand]; simp only [hs, and_true]; rfl
    rw [ht, hq]
    have := (hst s.curStrand).trans (if_pos rfl)
    refine ⟨rfl, rfl, fun k hk => (hst k).trans (if_neg hk), ⟨{ s.strand with state := .faultParked, faultVa := x.addr }, this⟩, ?_, hr⟩
    rw [if_pos (hcause.1 hg')]
    refine ⟨?_, ?_, rfl⟩
    · show ((s.cur.modStrand s.curStrand _).strandAt s.curStrand).state = _; rw [this]
    · show ((s.cur.modStrand s.curStrand _).strandAt s.curStrand).faultVa = _; rw [this]

end Sys2Proof.Machine
end

