-- ==== Sys2Proof/Laws/Float.lean ====
section
/-! SUPPORT. Laws of the floating operations: the flags of the lanes together (R64), and what an instruction with a result and
flags writes. -/

namespace Sys2Proof.Machine

/-- A bit of the flags of every lane of Part together (R64). -/
theorem getLsbD_flagsOver (part : LaneMask) (f : Nat → Word) (b : Nat) :
    (flagsOver part f).getLsbD b = (List.range 32).any fun l => part.getLsbD l && (f l).getLsbD b := by
  have key : ∀ (ls : List Nat) (a : Word),
      (ls.foldl (fun a l => a ||| f l) a).getLsbD b = (a.getLsbD b || ls.any fun l => (f l).getLsbD b) := by
    intro ls
    induction ls with
    | nil => intro a; simp
    | cons l rest ih => intro a; rw [List.foldl_cons, ih, List.any_cons, BitVec.getLsbD_or, Bool.or_assoc]
  unfold flagsOver
  rw [key]
  simp [lanesOf, List.any_filter]

theorem Gang.fwrite_local (g : Gang) (wide : Bool) (d : Reg) (part : LaneMask) (res : Nat → Nat × Word) :
    Local g (g.fwrite wide d part res) :=
  (g.wr_local wide d part fun l => BitVec.ofNat 64 (res l).1).trans ⟨rfl⟩

/-- An instruction whose result and flags are functions of gang and lane writes that register, ORs its flags into FPFLAGS and
changes nothing else (R64, R264). -/
theorem computing_givesF {i : Instr} {wide : Bool} {d : Reg} {f : LaneMask → Gang → Gang} {s : State} (x : Nat → Nat × Word)
    (hr : Ready i s) (hf : f (s.part i) s.begin.cur = s.begin.cur.fwrite wide d (s.part i) x) :
    ∃ t, computing i f s = .next t ∧ Went i s t ∧ Wrote s t wide d (s.part i) (fun l => BitVec.ofNat 64 (x l).1) ∧ SamePreds s t ∧
      OredFlags s t (s.part i) fun l => (x l).2 := by
  refine ⟨_, computing_ready hr, ?_⟩
  rw [hf]
  obtain ⟨hw, hv, hp, hs, hf, hm⟩ := wentTo_went hr (Gang.fwrite_local s.begin.cur wide d (s.part i) x)
  have hwr := fun n l hl => Gang.vr_wr s.begin.cur wide d (s.part i) (fun l => BitVec.ofNat 64 (x l).1) n l hl
  have hfr := Gang.wr_frame s.begin.cur wide d (s.part i) (fun l => BitVec.ofNat 64 (x l).1)
  refine ⟨hw, ⟨?_, ?_⟩, ?_, ?_, ?_⟩
  · intro n l hl
    have := hwr n l hl
    unfold Gang.vr at this ⊢
    rw [hv]
    exact this
  · intro n
    have := Gang.s_wr s.begin.cur wide d (s.part i) (fun l => BitVec.ofNat 64 (x l).1) n
    rw [hs]
    exact this
  · intro n
    unfold Gang.pmask
    rw [hp]
    show (if n = 47 then _ else smGet (s.begin.cur.wr wide d (s.part i) _).p n) = _
    rw [hfr]
    rfl
  · rw [hm]
    show (s.begin.cur.wr wide d (s.part i) _).maxabs = _
    rw [hfr]
    rfl
  · intro b
    rw [hf]
    show ((s.begin.cur.wr wide d (s.part i) _).fpflags ||| _).getLsbD b = _
    rw [BitVec.getLsbD_or, getLsbD_flagsOver, hfr]
    rfl

end Sys2Proof.Machine
end

