-- ==== Sys2Proof/Laws/PerInstr.lean ====
section
/-! SUPPORT. What holds of each instruction as syntax: its length, and the words of its encoding. -/

open Sys2Proof

/-- An instruction's length is a multiple of 4 and 0 exactly for the device's other steps, which have no encoding; what has one has it
in as many words (R236). -/
def Sys2Proof.Laws.InstrLength.Statement (i : Instr) : Prop :=
  i.len % 4 = 0 ∧ (i.isStep = true ↔ i.len = 0) ∧ ((∀ g, i ≠ .fusedGroup g) → (encode i).length * 4 = i.len)

/-- An instruction with an encoding. -/
theorem Sys2Proof.Laws.InstrLength.of_raw (i : Instr) (n : Nat) (hr : i.raw.isSome = true) (hl : i.len = n)
    (hn : n = 8 ∨ n = 12 ∨ n = 16) (hs : i.isStep = false) : Statement i := by
  obtain ⟨r, hr⟩ := Option.isSome_iff_exists.mp hr
  refine ⟨?_, ?_, fun _ => ?_⟩
  · omega
  · rw [hs, hl]; exact ⟨fun h => (nomatch h), fun h => by omega⟩
  · simp only [encode, hr, hl, List.length_take, List.length_cons, List.length_nil]; omega

/-- A step of the device. -/
theorem Sys2Proof.Laws.InstrLength.of_step (i : Instr) (hr : i.raw = none) (hl : i.len = 0) (hs : i.isStep = true) : Statement i :=
  ⟨by omega, by simp only [hs, hl], fun _ => by simp only [encode, hr, hl, List.length_nil, Nat.zero_mul]⟩

theorem Sys2Proof.Laws.InstrLength.iadd (sat : Bool) (o : Int2) : Statement (.iadd sat o) := by
  exact of_raw _ 8 rfl rfl (by decide) rfl
theorem Sys2Proof.Laws.InstrLength.isub (sat : Bool) (o : Int2) : Statement (.isub sat o) := by
  exact of_raw _ 8 rfl rfl (by decide) rfl
theorem Sys2Proof.Laws.InstrLength.imul (o : Int2) : Statement (.imul o) := by
  exact of_raw _ 8 rfl rfl (by decide) rfl
theorem Sys2Proof.Laws.InstrLength.imulh (o : Int2) : Statement (.imulh o) := by
  exact of_raw _ 8 rfl rfl (by decide) rfl
theorem Sys2Proof.Laws.InstrLength.imad (sat : Bool) (o : Int3) : Statement (.imad sat o) := by
  exact of_raw _ 8 rfl rfl (by decide) rfl
theorem Sys2Proof.Laws.InstrLength.imadw (o : Int3N) : Statement (.imadw o) := by
  exact of_raw _ 8 rfl rfl (by decide) rfl
theorem Sys2Proof.Laws.InstrLength.iaddc (h : Hdr) (sub : Bool) (ty : ITy) (d a b : Reg) (pc : PSrc) : Statement (.iaddc h sub ty d a b pc) := by
  exact of_raw _ 8 rfl rfl (by decide) rfl
theorem Sys2Proof.Laws.InstrLength.imin (o : Int2) : Statement (.imin o) := by
  exact of_raw _ 8 rfl rfl (by decide) rfl
theorem Sys2Proof.Laws.InstrLength.imax (o : Int2) : Statement (.imax o) := by
  exact of_raw _ 8 rfl rfl (by decide) rfl
theorem Sys2Proof.Laws.InstrLength.iabs (o : IntS1) : Statement (.iabs o) := by
  exact of_raw _ 8 rfl rfl (by decide) rfl
theorem Sys2Proof.Laws.InstrLength.ineg (o : IntS1) : Statement (.ineg o) := by
  exact of_raw _ 8 rfl rfl (by decide) rfl
theorem Sys2Proof.Laws.InstrLength.and (o : Int2) : Statement (.and o) := by
  exact of_raw _ 8 rfl rfl (by decide) rfl
theorem Sys2Proof.Laws.InstrLength.or (o : Int2) : Statement (.or o) := by
  exact of_raw _ 8 rfl rfl (by decide) rfl
theorem Sys2Proof.Laws.InstrLength.xor (o : Int2) : Statement (.xor o) := by
  exact of_raw _ 8 rfl rfl (by decide) rfl
theorem Sys2Proof.Laws.InstrLength.not (o : Int1) : Statement (.not o) := by
  exact of_raw _ 8 rfl rfl (by decide) rfl
theorem Sys2Proof.Laws.InstrLength.bool3 (h : Hdr2) (fn : Fin 16) (ty : ITy) (d a b : Reg) (c : Src) : Statement (.bool3 h fn ty d a b c) := by
  exact of_raw _ 12 rfl rfl (by decide) rfl
theorem Sys2Proof.Laws.InstrLength.shl (o : Int2) : Statement (.shl o) := by
  exact of_raw _ 8 rfl rfl (by decide) rfl
theorem Sys2Proof.Laws.InstrLength.shr (o : Int2) : Statement (.shr o) := by
  exact of_raw _ 8 rfl rfl (by decide) rfl
theorem Sys2Proof.Laws.InstrLength.shra (o : Int2) : Statement (.shra o) := by
  exact of_raw _ 8 rfl rfl (by decide) rfl
theorem Sys2Proof.Laws.InstrLength.shd (o : Int3N) : Statement (.shd o) := by
  exact of_raw _ 8 rfl rfl (by decide) rfl
theorem Sys2Proof.Laws.InstrLength.rot (o : Int2) : Statement (.rot o) := by
  exact of_raw _ 8 rfl rfl (by decide) rfl
theorem Sys2Proof.Laws.InstrLength.bfe (o : Int3) : Statement (.bfe o) := by
  exact of_raw _ 8 rfl rfl (by decide) rfl
theorem Sys2Proof.Laws.InstrLength.bfi (h : Hdr2) (ty : ITy) (d a b : Reg) (sel : BfiSel) : Statement (.bfi h ty d a b sel) := by
  cases sel <;> exact of_raw _ 12 rfl rfl (by decide) rfl
theorem Sys2Proof.Laws.InstrLength.popc (o : Int1) : Statement (.popc o) := by
  exact of_raw _ 8 rfl rfl (by decide) rfl
theorem Sys2Proof.Laws.InstrLength.clz (o : Int1) : Statement (.clz o) := by
  exact of_raw _ 8 rfl rfl (by decide) rfl
theorem Sys2Proof.Laws.InstrLength.brev (o : Int1) : Statement (.brev o) := by
  exact of_raw _ 8 rfl rfl (by decide) rfl
theorem Sys2Proof.Laws.InstrLength.bsel (h : Hdr) (d a b c : Reg) : Statement (.bsel h d a b c) := by
  exact of_raw _ 8 rfl rfl (by decide) rfl
theorem Sys2Proof.Laws.InstrLength.icmp (h : Hdr) (cc : CC) (ty : ITy) (pd : Fin 48) (a : Reg) (b : Src) : Statement (.icmp h cc ty pd a b) := by
  exact of_raw _ 8 rfl rfl (by decide) rfl
theorem Sys2Proof.Laws.InstrLength.isel (h : Hdr) (ty : ITy) (d a b : Reg) (pc : PSrc) : Statement (.isel h ty d a b pc) := by
  exact of_raw _ 8 rfl rfl (by decide) rfl
theorem Sys2Proof.Laws.InstrLength.mov (h : Hdr) (ty : MovTy) (d a : Reg) : Statement (.mov h ty d a) := by
  exact of_raw _ 8 rfl rfl (by decide) rfl
theorem Sys2Proof.Laws.InstrLength.movi (h : Hdr2) (hi : Bool) (d : Reg) (imm : Word) : Statement (.movi h hi d imm) := by
  exact of_raw _ 16 rfl rfl (by decide) rfl
theorem Sys2Proof.Laws.InstrLength.movsr (h : Hdr) (sel : SReg) (d : Reg) : Statement (.movsr h sel d) := by
  exact of_raw _ 8 rfl rfl (by decide) rfl
theorem Sys2Proof.Laws.InstrLength.lea (h : Hdr2) (sx : Bool) (sh : BitVec 2) (d : Reg) (m : GMem) : Statement (.lea h sx sh d m) := by
  exact of_raw _ 12 rfl rfl (by decide) rfl
theorem Sys2Proof.Laws.InstrLength.fadd (o : FArith) : Statement (.fadd o) := by
  exact of_raw _ 8 rfl rfl (by decide) rfl
theorem Sys2Proof.Laws.InstrLength.fsub (o : FArith) : Statement (.fsub o) := by
  exact of_raw _ 8 rfl rfl (by decide) rfl
theorem Sys2Proof.Laws.InstrLength.fmul (o : FArith) : Statement (.fmul o) := by
  exact of_raw _ 8 rfl rfl (by decide) rfl
theorem Sys2Proof.Laws.InstrLength.ffma (o : FArith) (negc : Bool) (c : Reg) : Statement (.ffma o negc c) := by
  exact of_raw _ 8 rfl rfl (by decide) rfl
theorem Sys2Proof.Laws.InstrLength.fmin (o : FMinMax) : Statement (.fmin o) := by
  exact of_raw _ 8 rfl rfl (by decide) rfl
theorem Sys2Proof.Laws.InstrLength.fmax (o : FMinMax) : Statement (.fmax o) := by
  exact of_raw _ 8 rfl rfl (by decide) rfl
theorem Sys2Proof.Laws.InstrLength.fcmp (h : Hdr) (ty : FTy) (ftz : Bool) (cc : Fin 14) (pd : Fin 48) (a b : FOp) : Statement (.fcmp h ty ftz cc pd a b) := by
  exact of_raw _ 8 rfl rfl (by decide) rfl
theorem Sys2Proof.Laws.InstrLength.fsel (h : Hdr) (ty : FTy) (d a b : Reg) (pc : PSrc) : Statement (.fsel h ty d a b pc) := by
  exact of_raw _ 8 rfl rfl (by decide) rfl
theorem Sys2Proof.Laws.InstrLength.fclass (h : Hdr) (ty : FTy) (d a : Reg) : Statement (.fclass h ty d a) := by
  exact of_raw _ 8 rfl rfl (by decide) rfl
theorem Sys2Proof.Laws.InstrLength.frnd (o : FUn) : Statement (.frnd o) := by
  exact of_raw _ 8 rfl rfl (by decide) rfl
theorem Sys2Proof.Laws.InstrLength.fscale (o : FUn) (n : Reg) : Statement (.fscale o n) := by
  exact of_raw _ 8 rfl rfl (by decide) rfl
theorem Sys2Proof.Laws.InstrLength.rcp (o : Sfu) : Statement (.rcp o) := by
  exact of_raw _ 8 rfl rfl (by decide) rfl
theorem Sys2Proof.Laws.InstrLength.rsq (o : Sfu) : Statement (.rsq o) := by
  exact of_raw _ 8 rfl rfl (by decide) rfl
theorem Sys2Proof.Laws.InstrLength.sqrt (o : Sfu) : Statement (.sqrt o) := by
  exact of_raw _ 8 rfl rfl (by decide) rfl
theorem Sys2Proof.Laws.InstrLength.exp2 (o : Sfu) : Statement (.exp2 o) := by
  exact of_raw _ 8 rfl rfl (by decide) rfl
theorem Sys2Proof.Laws.InstrLength.log2 (o : Sfu) : Statement (.log2 o) := by
  exact of_raw _ 8 rfl rfl (by decide) rfl
theorem Sys2Proof.Laws.InstrLength.sin (o : Sfu) : Statement (.sin o) := by
  exact of_raw _ 8 rfl rfl (by decide) rfl
theorem Sys2Proof.Laws.InstrLength.cos (o : Sfu) : Statement (.cos o) := by
  exact of_raw _ 8 rfl rfl (by decide) rfl
theorem Sys2Proof.Laws.InstrLength.tanh (o : Sfu) : Statement (.tanh o) := by
  exact of_raw _ 8 rfl rfl (by decide) rfl
theorem Sys2Proof.Laws.InstrLength.sigm (o : Sfu) : Statement (.sigm o) := by
  exact of_raw _ 8 rfl rfl (by decide) rfl
theorem Sys2Proof.Laws.InstrLength.cvt (rm : RM) (o : Cvt) : Statement (.cvt rm o) := by
  exact of_raw _ 12 rfl rfl (by decide) rfl
theorem Sys2Proof.Laws.InstrLength.cvtSr (rnd : Reg) (o : Cvt) : Statement (.cvtSr rnd o) := by
  exact of_raw _ 12 rfl rfl (by decide) rfl
theorem Sys2Proof.Laws.InstrLength.cvtx (rm : RM) (o : Cvt) : Statement (.cvtx rm o) := by
  exact of_raw _ 12 rfl rfl (by decide) rfl
theorem Sys2Proof.Laws.InstrLength.pack (h : Hdr) (w : EWidth) (d a b : Reg) (j : BitVec 4) : Statement (.pack h w d a b j) := by
  exact of_raw _ 8 rfl rfl (by decide) rfl
theorem Sys2Proof.Laws.InstrLength.unpk (h : Hdr) (mode : UnpkMode) (w : EWidth) (d a : Reg) (j : BitVec 4) : Statement (.unpk h mode w d a j) := by
  exact of_raw _ 8 rfl rfl (by decide) rfl
theorem Sys2Proof.Laws.InstrLength.dp4 (k : Dp4Kind) (o : Dot) : Statement (.dp4 k o) := by
  cases k <;> exact of_raw _ 8 rfl rfl (by decide) rfl
theorem Sys2Proof.Laws.InstrLength.dp8 (k : Dp8Kind) (o : Dot) : Statement (.dp8 k o) := by
  cases k <;> exact of_raw _ 8 rfl rfl (by decide) rfl
theorem Sys2Proof.Laws.InstrLength.dp2 (k : Dp2Kind) (o : Dot) : Statement (.dp2 k o) := by
  cases k <;> exact of_raw _ 8 rfl rfl (by decide) rfl
theorem Sys2Proof.Laws.InstrLength.pfma (rm : RM) (bf bl : Bool) (o : Dot) : Statement (.pfma rm bf bl o) := by
  exact of_raw _ 8 rfl rfl (by decide) rfl
theorem Sys2Proof.Laws.InstrLength.clrmx (h : Hdr) (mx fl : Bool) : Statement (.clrmx h mx fl) := by
  exact of_raw _ 8 rfl rfl (by decide) rfl
theorem Sys2Proof.Laws.InstrLength.rdmx (h : Hdr) (clr fl : Bool) (d : Reg) : Statement (.rdmx h clr fl d) := by
  exact of_raw _ 8 rfl rfl (by decide) rfl
theorem Sys2Proof.Laws.InstrLength.fusedGroup (g : Fused) : Statement (.fusedGroup g) := by
  rcases g with ⟨m, a⟩ | ⟨a, x⟩ | ⟨m, n, c, x⟩ | ⟨m, a, x⟩ <;>
    exact ⟨by simp only [Instr.len], by simp [Instr.len, Instr.isStep], fun h => (h _ rfl).elim⟩
theorem Sys2Proof.Laws.InstrLength.bra (h : Hdr2) (disp : BitVec 24) : Statement (.bra h disp) := by
  exact of_raw _ 12 rfl rfl (by decide) rfl
theorem Sys2Proof.Laws.InstrLength.braAny (h : Hdr2) (disp : BitVec 24) : Statement (.braAny h disp) := by
  exact of_raw _ 12 rfl rfl (by decide) rfl
theorem Sys2Proof.Laws.InstrLength.braAll (h : Hdr2) (disp : BitVec 24) : Statement (.braAll h disp) := by
  exact of_raw _ 12 rfl rfl (by decide) rfl
theorem Sys2Proof.Laws.InstrLength.call (h : Hdr2) (link : Reg) (t : CallTarget) : Statement (.call h link t) := by
  cases t <;> exact of_raw _ 12 rfl rfl (by decide) rfl
theorem Sys2Proof.Laws.InstrLength.ret (h : Hdr) (t : Reg) : Statement (.ret h t) := by
  exact of_raw _ 8 rfl rfl (by decide) rfl
theorem Sys2Proof.Laws.InstrLength.jmpi (h : Hdr) (t : Reg) : Statement (.jmpi h t) := by
  exact of_raw _ 8 rfl rfl (by decide) rfl
theorem Sys2Proof.Laws.InstrLength.fork (h : Hdr2) (f : Fin 8) (p : PSrc) (lfalse : BitVec 24) (ltail : Word) : Statement (.fork h f p lfalse ltail) := by
  exact of_raw _ 16 rfl rfl (by decide) rfl
theorem Sys2Proof.Laws.InstrLength.endarm (h : Hdr) (f : Fin 8) : Statement (.endarm h f) := by
  exact of_raw _ 8 rfl rfl (by decide) rfl
theorem Sys2Proof.Laws.InstrLength.pub (h : Hdr) (f : Fin 8) (w : PubWhat) : Statement (.pub h f w) := by
  cases w <;> exact of_raw _ 8 rfl rfl (by decide) rfl
theorem Sys2Proof.Laws.InstrLength.join (h : Hdr) (f : Fin 8) (d a b : Fin 192) : Statement (.join h f d a b) := by
  exact of_raw _ 8 rfl rfl (by decide) rfl
theorem Sys2Proof.Laws.InstrLength.joinp (h : Hdr) (f : Fin 8) (pd : Fin 48) (pa pb : PSrc) : Statement (.joinp h f pd pa pb) := by
  exact of_raw _ 8 rfl rfl (by decide) rfl
theorem Sys2Proof.Laws.InstrLength.memdone (h : Hdr) (f : Fin 8) : Statement (.memdone h f) := by
  exact of_raw _ 8 rfl rfl (by decide) rfl
theorem Sys2Proof.Laws.InstrLength.exit (h : Hdr) : Statement (.exit h) := by
  exact of_raw _ 8 rfl rfl (by decide) rfl
theorem Sys2Proof.Laws.InstrLength.nop (h : Hdr) : Statement (.nop h) := by
  exact of_raw _ 8 rfl rfl (by decide) rfl
theorem Sys2Proof.Laws.InstrLength.nopW (h : Hdr2) : Statement (.nopW h) := by
  exact of_raw _ 12 rfl rfl (by decide) rfl
theorem Sys2Proof.Laws.InstrLength.pset (h : Hdr) (op : POp) (pd : Fin 48) (pa pb : PSrc) : Statement (.pset h op pd pa pb) := by
  exact of_raw _ 8 rfl rfl (by decide) rfl
theorem Sys2Proof.Laws.InstrLength.pmov (h : Hdr) (form : PMovForm) : Statement (.pmov h form) := by
  cases form <;> exact of_raw _ 8 rfl rfl (by decide) rfl
theorem Sys2Proof.Laws.InstrLength.ldg (o : Ld) (acq : Bool) (hint : CHint) : Statement (.ldg o acq hint) := by
  exact of_raw _ 12 rfl rfl (by decide) rfl
theorem Sys2Proof.Laws.InstrLength.stg (o : St) (rel : Bool) (hint : CHint) : Statement (.stg o rel hint) := by
  exact of_raw _ 12 rfl rfl (by decide) rfl
theorem Sys2Proof.Laws.InstrLength.lds (o : LdS) : Statement (.lds o) := by
  exact of_raw _ 12 rfl rfl (by decide) rfl
theorem Sys2Proof.Laws.InstrLength.sts (o : StS) : Statement (.sts o) := by
  exact of_raw _ 12 rfl rfl (by decide) rfl
theorem Sys2Proof.Laws.InstrLength.ldsRemote (o : LdS) (c : PCoord) : Statement (.ldsRemote o c) := by
  exact of_raw _ 12 rfl rfl (by decide) rfl
theorem Sys2Proof.Laws.InstrLength.stsRemote (o : StS) (c : PCoord) : Statement (.stsRemote o c) := by
  exact of_raw _ 12 rfl rfl (by decide) rfl
theorem Sys2Proof.Laws.InstrLength.ldc (o : Ld) (pri : BitVec 2) : Statement (.ldc o pri) := by
  exact of_raw _ 12 rfl rfl (by decide) rfl
theorem Sys2Proof.Laws.InstrLength.ldt (o : Ld) (pri : BitVec 2) : Statement (.ldt o pri) := by
  exact of_raw _ 12 rfl rfl (by decide) rfl
theorem Sys2Proof.Laws.InstrLength.pref (h : Hdr2) (level : PrefLevel) (m : GMem) (hint : CHint) : Statement (.pref h level m hint) := by
  exact of_raw _ 12 rfl rfl (by decide) rfl
theorem Sys2Proof.Laws.InstrLength.atom (a : AHdr) (op : AOp) (ty : ITy) (d : Reg) (m : GMem) (b : Reg) : Statement (.atom a op ty d m b) := by
  exact of_raw _ 12 rfl rfl (by decide) rfl
theorem Sys2Proof.Laws.InstrLength.cas (a : AHdr) (ty : CasTy) (d : Reg) (m : SMem) (cmp new : Reg) : Statement (.cas a ty d m cmp new) := by
  exact of_raw _ 12 rfl rfl (by decide) rfl
theorem Sys2Proof.Laws.InstrLength.atomf (a : AHdr) (op : AFOp) (ty : AFTy) (d : Reg) (m : GMem) (b : Reg) : Statement (.atomf a op ty d m b) := by
  exact of_raw _ 12 rfl rfl (by decide) rfl
theorem Sys2Proof.Laws.InstrLength.hop (a : AHdr) (op : HOp) (ty : ITy) (d : Reg) (m : SMem) (b c : Reg) : Statement (.hop a op ty d m b c) := by
  exact of_raw _ 12 rfl rfl (by decide) rfl
theorem Sys2Proof.Laws.InstrLength.red (h : Hdr2) (ahead : Bool) (op : RedOp) (m : GMem) (b : Reg) : Statement (.red h ahead op m b) := by
  exact of_raw _ 12 rfl rfl (by decide) rfl
theorem Sys2Proof.Laws.InstrLength.redu (h : Hdr2) (ahead : Bool) (op : ReduOp) (m : GMem) (b : Reg) : Statement (.redu h ahead op m b) := by
  exact of_raw _ 12 rfl rfl (by decide) rfl
theorem Sys2Proof.Laws.InstrLength.atoms (o : Atoms) : Statement (.atoms o) := by
  exact of_raw _ 12 rfl rfl (by decide) rfl
theorem Sys2Proof.Laws.InstrLength.atomsRemote (o : Atoms) (prow pcol : BitVec 4) : Statement (.atomsRemote o prow pcol) := by
  exact of_raw _ 12 rfl rfl (by decide) rfl
theorem Sys2Proof.Laws.InstrLength.fence (h : Hdr) : Statement (.fence h) := by
  exact of_raw _ 8 rfl rfl (by decide) rfl
theorem Sys2Proof.Laws.InstrLength.pfence (h : Hdr) (c t : Bool) : Statement (.pfence h c t) := by
  exact of_raw _ 8 rfl rfl (by decide) rfl
theorem Sys2Proof.Laws.InstrLength.flush (r : Rng) : Statement (.flush r) := by
  exact of_raw _ 12 rfl rfl (by decide) rfl
theorem Sys2Proof.Laws.InstrLength.inval (r : Rng) : Statement (.inval r) := by
  exact of_raw _ 12 rfl rfl (by decide) rfl
theorem Sys2Proof.Laws.InstrLength.sdrain (h : Hdr) : Statement (.sdrain h) := by
  exact of_raw _ 8 rfl rfl (by decide) rfl
theorem Sys2Proof.Laws.InstrLength.waitw (o : WaitW) : Statement (.waitw o) := by
  exact of_raw _ 12 rfl rfl (by decide) rfl
theorem Sys2Proof.Laws.InstrLength.sppin (h : Hdr) (a : Reg) (n : Src) : Statement (.sppin h a n) := by
  exact of_raw _ 8 rfl rfl (by decide) rfl
theorem Sys2Proof.Laws.InstrLength.spunpin (h : Hdr) (a : Reg) (n : Src) : Statement (.spunpin h a n) := by
  exact of_raw _ 8 rfl rfl (by decide) rfl
theorem Sys2Proof.Laws.InstrLength.resv (h : Hdr2) (shr : Bool) (fmt : BitVec 5) (n : Fin 8) (d a b c : Reg) : Statement (.resv h shr fmt n d a b c) := by
  exact of_raw _ 12 rfl rfl (by decide) rfl
theorem Sys2Proof.Laws.InstrLength.relv (h : Hdr) (n : Fin 8) : Statement (.relv h n) := by
  exact of_raw _ 8 rfl rfl (by decide) rfl
theorem Sys2Proof.Laws.InstrLength.obld (o : Ob) : Statement (.obld o) := by
  exact of_raw _ 12 rfl rfl (by decide) rfl
theorem Sys2Proof.Laws.InstrLength.obst (o : Ob) : Statement (.obst o) := by
  exact of_raw _ 12 rfl rfl (by decide) rfl
theorem Sys2Proof.Laws.InstrLength.mma (h : Hdr) (a : Reg) : Statement (.mma h a) := by
  exact of_raw _ 8 rfl rfl (by decide) rfl
theorem Sys2Proof.Laws.InstrLength.mmawait (h : Hdr) (d : Reg) (n : Fin 4) : Statement (.mmawait h d n) := by
  exact of_raw _ 8 rfl rfl (by decide) rfl
theorem Sys2Proof.Laws.InstrLength.mqstat (h : Hdr) (d : Reg) : Statement (.mqstat h d) := by
  exact of_raw _ 8 rfl rfl (by decide) rfl
theorem Sys2Proof.Laws.InstrLength.rowp (h : Hdr) (k : Bool) (d : Reg) : Statement (.rowp h k d) := by
  exact of_raw _ 8 rfl rfl (by decide) rfl
theorem Sys2Proof.Laws.InstrLength.asLoop (h : Hdr2) (k : Fin 4) (c : AsCount) : Statement (.asLoop h k c) := by
  cases c <;> exact of_raw _ 16 rfl rfl (by decide) rfl
theorem Sys2Proof.Laws.InstrLength.asAddr (h : Hdr2) (f : AsAddr) : Statement (.asAddr h f) := by
  cases f <;> exact of_raw _ 16 rfl rfl (by decide) rfl
theorem Sys2Proof.Laws.InstrLength.asPush (h : Hdr) (q : Fin 4) (ty : PushTy) (m : Reg) : Statement (.asPush h q ty m) := by
  exact of_raw _ 8 rfl rfl (by decide) rfl
theorem Sys2Proof.Laws.InstrLength.asEnd (h : Hdr) : Statement (.asEnd h) := by
  exact of_raw _ 8 rfl rfl (by decide) rfl
theorem Sys2Proof.Laws.InstrLength.asEndAbort (h : Hdr) : Statement (.asEndAbort h) := by
  exact of_raw _ 8 rfl rfl (by decide) rfl
theorem Sys2Proof.Laws.InstrLength.pop (h : Hdr) (d : Reg) (q : Fin 4) : Statement (.pop h d q) := by
  exact of_raw _ 8 rfl rfl (by decide) rfl
theorem Sys2Proof.Laws.InstrLength.fqstat (h : Hdr) (d : Reg) (q : Fin 4) : Statement (.fqstat h d q) := by
  exact of_raw _ 8 rfl rfl (by decide) rfl
theorem Sys2Proof.Laws.InstrLength.prom (h : Hdr) (d : Reg) : Statement (.prom h d) := by
  exact of_raw _ 8 rfl rfl (by decide) rfl
theorem Sys2Proof.Laws.InstrLength.sleep (h : Hdr) (tillCycle : Bool) (a : Reg) : Statement (.sleep h tillCycle a) := by
  exact of_raw _ 8 rfl rfl (by decide) rfl
theorem Sys2Proof.Laws.InstrLength.mjoin (h : Hdr) (k : Fin 12) : Statement (.mjoin h k) := by
  exact of_raw _ 8 rfl rfl (by decide) rfl
theorem Sys2Proof.Laws.InstrLength.mleave (h : Hdr) (k : Fin 12) : Statement (.mleave h k) := by
  exact of_raw _ 8 rfl rfl (by decide) rfl
theorem Sys2Proof.Laws.InstrLength.mwait (h : Hdr) (set : Bool) (k : Fin 12) (b : Src) : Statement (.mwait h set k b) := by
  exact of_raw _ 8 rfl rfl (by decide) rfl
theorem Sys2Proof.Laws.InstrLength.mset (h : Hdr) (k : Fin 12) (b : Src) : Statement (.mset h k b) := by
  exact of_raw _ 8 rfl rfl (by decide) rfl
theorem Sys2Proof.Laws.InstrLength.mget (h : Hdr) (d : Reg) (k : Fin 12) : Statement (.mget h d k) := by
  exact of_raw _ 8 rfl rfl (by decide) rfl
theorem Sys2Proof.Laws.InstrLength.bar (h : Hdr) (n : Fin 16) (count : Reg) : Statement (.bar h n count) := by
  exact of_raw _ 8 rfl rfl (by decide) rfl
theorem Sys2Proof.Laws.InstrLength.bara (h : Hdr) (d : Reg) (n : Fin 16) (count : Reg) : Statement (.bara h d n count) := by
  exact of_raw _ 8 rfl rfl (by decide) rfl
theorem Sys2Proof.Laws.InstrLength.barw (h : Hdr) (n : Fin 16) (a : Reg) : Statement (.barw h n a) := by
  exact of_raw _ 8 rfl rfl (by decide) rfl
theorem Sys2Proof.Laws.InstrLength.sbar (h : Hdr) (d : Reg) (n : Fin 16) (a b : Reg) : Statement (.sbar h d n a b) := by
  exact of_raw _ 8 rfl rfl (by decide) rfl
theorem Sys2Proof.Laws.InstrLength.vote (h : Hdr) (dst : VoteDst) (pa : PSrc) : Statement (.vote h dst pa) := by
  cases dst <;> exact of_raw _ 8 rfl rfl (by decide) rfl
theorem Sys2Proof.Laws.InstrLength.shfl (h : Hdr) (mode : ShflMode) (ty : ShTy) (d a : Reg) (b : Src) (fill : Reg) : Statement (.shfl h mode ty d a b fill) := by
  exact of_raw _ 8 rfl rfl (by decide) rfl
theorem Sys2Proof.Laws.InstrLength.matchI (h : Hdr) (all : Bool) (ty : MatTy) (d a : Reg) : Statement (.matchI h all ty d a) := by
  exact of_raw _ 8 rfl rfl (by decide) rfl
theorem Sys2Proof.Laws.InstrLength.redux (h : Hdr) (op : RxOp) (d a : Reg) : Statement (.redux h op d a) := by
  cases op <;> exact of_raw _ 8 rfl rfl (by decide) rfl
theorem Sys2Proof.Laws.InstrLength.elect (h : Hdr) (dst : ElectDst) : Statement (.elect h dst) := by
  cases dst <;> exact of_raw _ 8 rfl rfl (by decide) rfl
theorem Sys2Proof.Laws.InstrLength.launch (h : Hdr) (d a : Reg) (place : Option PCoord) : Statement (.launch h d a place) := by
  cases place <;> exact of_raw _ 8 rfl rfl (by decide) rfl
theorem Sys2Proof.Laws.InstrLength.launchCwait (h : Hdr) (a : Reg) : Statement (.launchCwait h a) := by
  exact of_raw _ 8 rfl rfl (by decide) rfl
theorem Sys2Proof.Laws.InstrLength.trap (h : Hdr2) (code : Word) : Statement (.trap h code) := by
  exact of_raw _ 16 rfl rfl (by decide) rfl
theorem Sys2Proof.Laws.InstrLength.bkpt (h : Hdr) (code : BitVec 8) : Statement (.bkpt h code) := by
  exact of_raw _ 8 rfl rfl (by decide) rfl
theorem Sys2Proof.Laws.InstrLength.halt (h : Hdr) : Statement (.halt h) := by
  exact of_raw _ 8 rfl rfl (by decide) rfl
theorem Sys2Proof.Laws.InstrLength.perf (h : Hdr) (clr : Bool) (sel : Fin 4) (d : Reg) : Statement (.perf h clr sel d) := by
  exact of_raw _ 8 rfl rfl (by decide) rfl
theorem Sys2Proof.Laws.InstrLength.sampctlStart (h : Hdr) (a : Reg) : Statement (.sampctlStart h a) := by
  exact of_raw _ 8 rfl rfl (by decide) rfl
theorem Sys2Proof.Laws.InstrLength.sampctlStop (h : Hdr) : Statement (.sampctlStop h) := by
  exact of_raw _ 8 rfl rfl (by decide) rfl
theorem Sys2Proof.Laws.InstrLength.sampctlDrop (h : Hdr) (d : Reg) : Statement (.sampctlDrop h d) := by
  exact of_raw _ 8 rfl rfl (by decide) rfl
theorem Sys2Proof.Laws.InstrLength.storeQueueRetire (core id : Nat) : Statement (.storeQueueRetire core id) := by
  exact of_step _ rfl rfl rfl
theorem Sys2Proof.Laws.InstrLength.storeRegistration (id : Nat) : Statement (.storeRegistration id) := by
  exact of_step _ rfl rfl rfl
theorem Sys2Proof.Laws.InstrLength.releaseWriteThrough (id : Nat) : Statement (.releaseWriteThrough id) := by
  exact of_step _ rfl rfl rfl
theorem Sys2Proof.Laws.InstrLength.acquireAtHome (id : Nat) : Statement (.acquireAtHome id) := by
  exact of_step _ rfl rfl rfl
theorem Sys2Proof.Laws.InstrLength.atomicAtHome (id : Nat) : Statement (.atomicAtHome id) := by
  exact of_step _ rfl rfl rfl
theorem Sys2Proof.Laws.InstrLength.loadFetch (id : Nat) : Statement (.loadFetch id) := by
  exact of_step _ rfl rfl rfl
theorem Sys2Proof.Laws.InstrLength.dataReturn (core id : Nat) : Statement (.dataReturn core id) := by
  exact of_step _ rfl rfl rfl
theorem Sys2Proof.Laws.InstrLength.backgroundWriteback (core wa : Nat) (m : BgMove) : Statement (.backgroundWriteback core wa m) := by
  exact of_step _ rfl rfl rfl
theorem Sys2Proof.Laws.InstrLength.updateOnlyEnter (id : Nat) : Statement (.updateOnlyEnter id) := by
  exact of_step _ rfl rfl rfl
theorem Sys2Proof.Laws.InstrLength.reduAccept (core id : Nat) : Statement (.reduAccept core id) := by
  exact of_step _ rfl rfl rfl
theorem Sys2Proof.Laws.InstrLength.recallReturn (sector core : Nat) : Statement (.recallReturn sector core) := by
  exact of_step _ rfl rfl rfl
theorem Sys2Proof.Laws.InstrLength.pathFill (id : Nat) : Statement (.pathFill id) := by
  exact of_step _ rfl rfl rfl
theorem Sys2Proof.Laws.InstrLength.engineRegistration (id : Nat) : Statement (.engineRegistration id) := by
  exact of_step _ rfl rfl rfl
theorem Sys2Proof.Laws.InstrLength.engineWrite (core eng : Nat) : Statement (.engineWrite core eng) := by
  exact of_step _ rfl rfl rfl
theorem Sys2Proof.Laws.InstrLength.strandWaitCountExpiry (core part : Nat) : Statement (.strandWaitCountExpiry core part) := by
  exact of_step _ rfl rfl rfl
theorem Sys2Proof.Laws.InstrLength.gangSwap (core part : Nat) : Statement (.gangSwap core part) := by
  exact of_step _ rfl rfl rfl
theorem Sys2Proof.Laws.InstrLength.forcedGangSwap (core part : Nat) : Statement (.forcedGangSwap core part) := by
  exact of_step _ rfl rfl rfl
theorem Sys2Proof.Laws.InstrLength.teamPlacement (ctx : Nat) : Statement (.teamPlacement ctx) := by
  exact of_step _ rfl rfl rfl
theorem Sys2Proof.Laws.InstrLength.teamStrandsReady (t : TKey) : Statement (.teamStrandsReady t) := by
  exact of_step _ rfl rfl rfl
theorem Sys2Proof.Laws.InstrLength.gridDescriptorWrite (core id : Nat) : Statement (.gridDescriptorWrite core id) := by
  exact of_step _ rfl rfl rfl
theorem Sys2Proof.Laws.InstrLength.teamExit (t : TKey) : Statement (.teamExit t) := by
  exact of_step _ rfl rfl rfl
theorem Sys2Proof.Laws.InstrLength.softBarrierDeadline (t : TKey) (bar : Fin 16) : Statement (.softBarrierDeadline t bar) := by
  exact of_step _ rfl rfl rfl
theorem Sys2Proof.Laws.InstrLength.sleepWake (g : GKey) (strand : Nat) : Statement (.sleepWake g strand) := by
  exact of_step _ rfl rfl rfl
theorem Sys2Proof.Laws.InstrLength.promiseMiss (core eng : Nat) : Statement (.promiseMiss core eng) := by
  exact of_step _ rfl rfl rfl
theorem Sys2Proof.Laws.InstrLength.storeCheck (g : GKey) : Statement (.storeCheck g) := by
  exact of_step _ rfl rfl rfl
theorem Sys2Proof.Laws.InstrLength.matrixCommandAccept (g : GKey) : Statement (.matrixCommandAccept g) := by
  exact of_step _ rfl rfl rfl
theorem Sys2Proof.Laws.InstrLength.tileStep (core : Nat) : Statement (.tileStep core) := by
  exact of_step _ rfl rfl rfl
theorem Sys2Proof.Laws.InstrLength.matrixCommandComplete (g : GKey) : Statement (.matrixCommandComplete g) := by
  exact of_step _ rfl rfl rfl
theorem Sys2Proof.Laws.InstrLength.bridlePush (core : Nat) : Statement (.bridlePush core) := by
  exact of_step _ rfl rfl rfl
theorem Sys2Proof.Laws.InstrLength.pushEnterQueue (g : GKey) (q : Fin 4) : Statement (.pushEnterQueue g q) := by
  exact of_step _ rfl rfl rfl
theorem Sys2Proof.Laws.InstrLength.scratchpadStart (core : Nat) : Statement (.scratchpadStart core) := by
  exact of_step _ rfl rfl rfl
theorem Sys2Proof.Laws.InstrLength.cqWrite (core id : Nat) : Statement (.cqWrite core id) := by
  exact of_step _ rfl rfl rfl
theorem Sys2Proof.Laws.InstrLength.ceCopy (core id : Nat) : Statement (.ceCopy core id) := by
  exact of_step _ rfl rfl rfl
theorem Sys2Proof.Laws.InstrLength.ceGather (core id : Nat) : Statement (.ceGather core id) := by
  exact of_step _ rfl rfl rfl
theorem Sys2Proof.Laws.InstrLength.ceScatter (core id : Nat) : Statement (.ceScatter core id) := by
  exact of_step _ rfl rfl rfl
theorem Sys2Proof.Laws.InstrLength.ceReduceCopy (core id : Nat) : Statement (.ceReduceCopy core id) := by
  exact of_step _ rfl rfl rfl
theorem Sys2Proof.Laws.InstrLength.ceAccept (core eng : Nat) : Statement (.ceAccept core eng) := by
  exact of_step _ rfl rfl rfl
theorem Sys2Proof.Laws.InstrLength.ceCommandComplete (core eng : Nat) : Statement (.ceCommandComplete core eng) := by
  exact of_step _ rfl rfl rfl
theorem Sys2Proof.Laws.InstrLength.pageOwnershipRequest (page dev : Nat) : Statement (.pageOwnershipRequest page dev) := by
  exact of_step _ rfl rfl rfl
theorem Sys2Proof.Laws.InstrLength.pageGiveUp (page : Nat) : Statement (.pageGiveUp page) := by
  exact of_step _ rfl rfl rfl
theorem Sys2Proof.Laws.InstrLength.waitwRefetch (core id : Nat) : Statement (.waitwRefetch core id) := by
  exact of_step _ rfl rfl rfl
theorem Sys2Proof.Laws.InstrLength.preemption (t : TKey) : Statement (.preemption t) := by
  exact of_step _ rfl rfl rfl
theorem Sys2Proof.Laws.InstrLength.resumption (t : TKey) : Statement (.resumption t) := by
  exact of_step _ rfl rfl rfl
theorem Sys2Proof.Laws.InstrLength.timeSliceEnd (group : Nat) : Statement (.timeSliceEnd group) := by
  exact of_step _ rfl rfl rfl
theorem Sys2Proof.Laws.InstrLength.runtimeLimit (t : TKey) : Statement (.runtimeLimit t) := by
  exact of_step _ rfl rfl rfl
theorem Sys2Proof.Laws.InstrLength.debugPartitionStop (core part : Nat) : Statement (.debugPartitionStop core part) := by
  exact of_step _ rfl rfl rfl
theorem Sys2Proof.Laws.InstrLength.debugPartitionResume (core part : Nat) : Statement (.debugPartitionResume core part) := by
  exact of_step _ rfl rfl rfl
theorem Sys2Proof.Laws.InstrLength.debugHalt (g : GangRef) : Statement (.debugHalt g) := by
  exact of_step _ rfl rfl rfl
theorem Sys2Proof.Laws.InstrLength.debugResume (g : GangRef) : Statement (.debugResume g) := by
  exact of_step _ rfl rfl rfl
theorem Sys2Proof.Laws.InstrLength.debugWriteState (g : GangRef) (w : DbgWrite) : Statement (.debugWriteState g w) := by
  exact of_step _ rfl rfl rfl
theorem Sys2Proof.Laws.InstrLength.debugSetBreakpoint (ctx va : Nat) (set : Bool) : Statement (.debugSetBreakpoint ctx va set) := by
  exact of_step _ rfl rfl rfl
theorem Sys2Proof.Laws.InstrLength.reqtail (fn : Nat) (x : Word) : Statement (.reqtail fn x) := by
  exact of_step _ rfl rfl rfl
theorem Sys2Proof.Laws.InstrLength.rplhead (fn : Nat) (x : Word) : Statement (.rplhead fn x) := by
  exact of_step _ rfl rfl rfl
theorem Sys2Proof.Laws.InstrLength.evthead (fn : Nat) (x : Word) : Statement (.evthead fn x) := by
  exact of_step _ rfl rfl rfl
theorem Sys2Proof.Laws.InstrLength.ringRegisterWrite (fn : Nat) (r : RingReg) (x : DWord) : Statement (.ringRegisterWrite fn r x) := by
  exact of_step _ rfl rfl rfl
theorem Sys2Proof.Laws.InstrLength.uetMessageReceive (port job : Nat) (words : List Word) : Statement (.uetMessageReceive port job words) := by
  exact of_step _ rfl rfl rfl
theorem Sys2Proof.Laws.InstrLength.eventWrite (ctx : Nat) : Statement (.eventWrite ctx) := by
  exact of_step _ rfl rfl rfl
theorem Sys2Proof.Laws.InstrLength.flitReceive (f : Flit) : Statement (.flitReceive f) := by
  exact of_step _ rfl rfl rfl
theorem Sys2Proof.Laws.InstrLength.flitReplay (link : Nat) : Statement (.flitReplay link) := by
  exact of_step _ rfl rfl rfl
theorem Sys2Proof.Laws.InstrLength.linkLaneFailure (link lanes : Nat) : Statement (.linkLaneFailure link lanes) := by
  exact of_step _ rfl rfl rfl
theorem Sys2Proof.Laws.InstrLength.linkTraining (link peer : Nat) : Statement (.linkTraining link peer) := by
  exact of_step _ rfl rfl rfl
theorem Sys2Proof.Laws.InstrLength.routeRewrite (dev : Nat) (mask : BitVec 18) : Statement (.routeRewrite dev mask) := by
  exact of_step _ rfl rfl rfl
theorem Sys2Proof.Laws.InstrLength.hbmRequestIssue (pc : Nat) : Statement (.hbmRequestIssue pc) := by
  exact of_step _ rfl rfl rfl
theorem Sys2Proof.Laws.InstrLength.hbmRowClose (pc bank : Nat) : Statement (.hbmRowClose pc bank) := by
  exact of_step _ rfl rfl rfl
theorem Sys2Proof.Laws.InstrLength.hbmRefreshDue (pc : Nat) : Statement (.hbmRefreshDue pc) := by
  exact of_step _ rfl rfl rfl
theorem Sys2Proof.Laws.InstrLength.patrolScrub (pa : Nat) (err : Option Bool) : Statement (.patrolScrub pa err) := by
  exact of_step _ rfl rfl rfl
theorem Sys2Proof.Laws.InstrLength.sample (core part : Nat) : Statement (.sample core part) := by
  exact of_step _ rfl rfl rfl
theorem Sys2Proof.Laws.InstrLength.powerEstimate (watts : Nat) : Statement (.powerEstimate watts) := by
  exact of_step _ rfl rfl rfl
theorem Sys2Proof.Laws.InstrLength.pstateCheck (watts : Nat) : Statement (.pstateCheck watts) := by
  exact of_step _ rfl rfl rfl
theorem Sys2Proof.Laws.InstrLength.thermalTrip (die tmax : Nat) : Statement (.thermalTrip die tmax) := by
  exact of_step _ rfl rfl rfl
theorem Sys2Proof.Laws.InstrLength.bringupTestsDone (ok : Bool) : Statement (.bringupTestsDone ok) := by
  exact of_step _ rfl rfl rfl
theorem Sys2Proof.Laws.InstrLength.instructionFetch (core asid va : Nat) : Statement (.instructionFetch core asid va) := by
  exact of_step _ rfl rfl rfl
theorem Sys2Proof.Laws.InstrLength.engineRead (core eng : Nat) : Statement (.engineRead core eng) := by
  exact of_step _ rfl rfl rfl
theorem Sys2Proof.Laws.InstrLength.debugStep (g : GKey) (strand : Nat) : Statement (.debugStep g strand) := by
  exact of_step _ rfl rfl rfl
theorem Sys2Proof.Laws.InstrLength.hbmWindowWrite (off : Nat) (bytes : List (BitVec 8)) : Statement (.hbmWindowWrite off bytes) := by
  exact of_step _ rfl rfl rfl
theorem Sys2Proof.Laws.InstrLength.endpointLinkTraining (width rate : Nat) : Statement (.endpointLinkTraining width rate) := by
  exact of_step _ rfl rfl rfl
theorem Sys2Proof.Laws.InstrLength.ornSequencerRelease  : Statement (.ornSequencerRelease) := by
  exact of_step _ rfl rfl rfl
theorem Sys2Proof.Laws.InstrLength.faultRecordWrite  : Statement (.faultRecordWrite) := by
  exact of_step _ rfl rfl rfl
theorem Sys2Proof.Laws.InstrLength.shootdownComplete  : Statement (.shootdownComplete) := by
  exact of_step _ rfl rfl rfl
theorem Sys2Proof.Laws.InstrLength.forwardedAtomic  : Statement (.forwardedAtomic) := by
  exact of_step _ rfl rfl rfl
theorem Sys2Proof.Laws.InstrLength.hangWalk  : Statement (.hangWalk) := by
  exact of_step _ rfl rfl rfl
theorem Sys2Proof.Laws.InstrLength.grottoFaultAnswer  : Statement (.grottoFaultAnswer) := by
  exact of_step _ rfl rfl rfl
theorem Sys2Proof.Laws.InstrLength.pageRepair  : Statement (.pageRepair) := by
  exact of_step _ rfl rfl rfl
theorem Sys2Proof.Laws.InstrLength.lazyBinding  : Statement (.lazyBinding) := by
  exact of_step _ rfl rfl rfl
theorem Sys2Proof.Laws.InstrLength.createContext  : Statement (.createContext) := by
  exact of_step _ rfl rfl rfl
theorem Sys2Proof.Laws.InstrLength.destroyContext  : Statement (.destroyContext) := by
  exact of_step _ rfl rfl rfl
theorem Sys2Proof.Laws.InstrLength.writePageTableEntry  : Statement (.writePageTableEntry) := by
  exact of_step _ rfl rfl rfl
theorem Sys2Proof.Laws.InstrLength.launchHostGrid  : Statement (.launchHostGrid) := by
  exact of_step _ rfl rfl rfl
theorem Sys2Proof.Laws.InstrLength.holdPage  : Statement (.holdPage) := by
  exact of_step _ rfl rfl rfl
theorem Sys2Proof.Laws.InstrLength.releasePage  : Statement (.releasePage) := by
  exact of_step _ rfl rfl rfl
theorem Sys2Proof.Laws.InstrLength.deferPages  : Statement (.deferPages) := by
  exact of_step _ rfl rfl rfl
theorem Sys2Proof.Laws.InstrLength.grantDebugRight  : Statement (.grantDebugRight) := by
  exact of_step _ rfl rfl rfl
theorem Sys2Proof.Laws.InstrLength.revokeDebugRight  : Statement (.revokeDebugRight) := by
  exact of_step _ rfl rfl rfl
theorem Sys2Proof.Laws.InstrLength.attestationReport  : Statement (.attestationReport) := by
  exact of_step _ rfl rfl rfl
theorem Sys2Proof.Laws.InstrLength.registerSampleBuffer  : Statement (.registerSampleBuffer) := by
  exact of_step _ rfl rfl rfl
theorem Sys2Proof.Laws.InstrLength.strataControl  : Statement (.strataControl) := by
  exact of_step _ rfl rfl rfl
theorem Sys2Proof.Laws.InstrLength.resumeOrTerminate  : Statement (.resumeOrTerminate) := by
  exact of_step _ rfl rfl rfl
theorem Sys2Proof.Laws.InstrLength.readLogs  : Statement (.readLogs) := by
  exact of_step _ rfl rfl rfl
theorem Sys2Proof.Laws.InstrLength.domainMembershipChange  : Statement (.domainMembershipChange) := by
  exact of_step _ rfl rfl rfl
theorem Sys2Proof.Laws.InstrLength.leaveLanternService  : Statement (.leaveLanternService) := by
  exact of_step _ rfl rfl rfl
theorem Sys2Proof.Laws.InstrLength.writeImageSlot  : Statement (.writeImageSlot) := by
  exact of_step _ rfl rfl rfl
theorem Sys2Proof.Laws.InstrLength.serviceImageRestart  : Statement (.serviceImageRestart) := by
  exact of_step _ rfl rfl rfl
theorem Sys2Proof.Laws.InstrLength.setPowerCap  : Statement (.setPowerCap) := by
  exact of_step _ rfl rfl rfl
theorem Sys2Proof.Laws.InstrLength.grottoHandoverAdopt  : Statement (.grottoHandoverAdopt) := by
  exact of_step _ rfl rfl rfl
theorem Sys2Proof.Laws.InstrLength.replyWrite  : Statement (.replyWrite) := by
  exact of_step _ rfl rfl rfl
theorem Sys2Proof.Laws.InstrLength.strataLatch  : Statement (.strataLatch) := by
  exact of_step _ rfl rfl rfl
theorem Sys2Proof.Laws.InstrLength.thermalRecovery  : Statement (.thermalRecovery) := by
  exact of_step _ rfl rfl rfl
theorem Sys2Proof.Laws.InstrLength.inputOutOfLimits  : Statement (.inputOutOfLimits) := by
  exact of_step _ rfl rfl rfl
theorem Sys2Proof.Laws.InstrLength.deviceReset  : Statement (.deviceReset) := by
  exact of_step _ rfl rfl rfl
theorem Sys2Proof.Laws.InstrLength.bootStage  : Statement (.bootStage) := by
  exact of_step _ rfl rfl rfl
end

