-- ==== Sys2Proof/Laws/Translate.lean ====
section
/-! SUPPORT. What a translation can change: the translation caches, and what its walk makes of the L2 and asks of the stacks (R196). -/

namespace Sys2Proof.Machine

/-- A walk changes nothing but the L2 and the requests of the stacks (R196). -/
theorem State.walkL2_rest (s : State) (asid va root : Nat) :
    s.walkL2 asid va root = { s with l2 := (s.walkL2 asid va root).l2, pchans := (s.walkL2 asid va root).pchans } := by
  unfold State.walkL2
  generalize walkReads s.mem va 4 root = l
  induction l generalizing s with
  | nil => rfl
  | cons a rest ih =>
    simp only [List.foldl_cons]
    have h := ih (s.l2Read asid a Attr.none)
    generalize rest.foldl (fun s a => s.l2Read asid a Attr.none) (s.l2Read asid a Attr.none) = u at h
    rw [h]
    rfl

theorem State.lookup_rest (s : State) (core asid va : Nat) :
    (s.lookup core asid va).2 =
      { s with
        cores := (s.lookup core asid va).2.cores, dieTlb := (s.lookup core asid va).2.dieTlb
        l2 := (s.lookup core asid va).2.l2, pchans := (s.lookup core asid va).2.pchans } := by
  unfold State.lookup
  split
  · rfl
  · split
    · rfl
    · split
      · rfl
      · split
        · rfl
        · next x _ =>
          have h := s.walkL2_rest asid va (x.root * 4096)
          generalize s.walkL2 asid va (x.root * 4096) = u at h
          dsimp only
          split
          · rw [h]
          · rw [h]; rfl

theorem State.translate_rest (s : State) (core asid : Nat) (va : DWord) (want : Want) :
    (s.translate core asid va want).2 =
      { s with
        cores := (s.translate core asid va want).2.cores, dieTlb := (s.translate core asid va want).2.dieTlb
        l2 := (s.translate core asid va want).2.l2, pchans := (s.translate core asid va want).2.pchans } := by
  have h := s.lookup_rest core asid va.toNat
  unfold State.translate
  split
  · rfl
  · split
    · rfl
    · generalize s.lookup core asid va.toNat = r at h
      obtain ⟨o, u⟩ := r
      cases o <;> exact h

@[simp] theorem State.translate_mem (s : State) (core asid : Nat) (va : DWord) (want : Want) :
    (s.translate core asid va want).2.mem = s.mem := by rw [s.translate_rest core asid va want]

@[simp] theorem State.translate_cur (s : State) (core asid : Nat) (va : DWord) (want : Want) :
    (s.translate core asid va want).2.cur = s.cur := by rw [s.translate_rest core asid va want]

/-- The translations of a list of accesses together (R196). -/
theorem State.translateAll_rest (core asid : Nat) (want : Want) (l : List LaneAcc) (s : State) :
    (s.translateAll core asid want l).2 =
      { s with
        cores := (s.translateAll core asid want l).2.cores, dieTlb := (s.translateAll core asid want l).2.dieTlb
        l2 := (s.translateAll core asid want l).2.l2, pchans := (s.translateAll core asid want l).2.pchans } := by
  induction l generalizing s with
  | nil => rfl
  | cons a rest ih =>
    have h := s.translate_rest core asid a.va want
    have k := ih (s.translate core asid a.va want).2
    simp only [State.translateAll]
    generalize (s.translate core asid a.va want).2 = u at h k
    generalize (u.translateAll core asid want rest).2 = v at k
    rw [h] at k
    rw [k]

end Sys2Proof.Machine
end

