-- ==== Sys2Proof/Tests/Slice0.lean ====
section
/-! SUPPORT. Checks of the model on small cases, and for every statement with hypotheses a state and operands that meet them. The words
are written out from the encoding tables of the spec (R238 to R411). -/

namespace Sys2Proof.Tests

set_option Elab.async false

open Sys2Proof Sys2Proof.Machine

/-- An unguarded 64-bit header, and an unguarded longer one. -/
abbrev h : Hdr := ⟨⟨false, 47⟩, false, false⟩
abbrev h2 : Hdr2 := ⟨⟨false, 47⟩, ⟨false, 47⟩, false, false, false⟩

/-- The words decode to the instruction and leave nothing. -/
def decodesTo (ws : List Word) (i : Instr) : Bool :=
  match decodeBytes (wordBytes ws) with
  | .ok (j, []) => j == i
  | _ => false

/-- The words are refused for the reason. -/
def refusedWith (ws : List Word) (e : Reject) : Bool :=
  match decodeBytes (wordBytes ws) with
  | .error r => r == e
  | _ => false

/-- The words are refused for fields that do not go together. -/
def refusedTogether (ws : List Word) : Bool :=
  match decodeBytes (wordBytes ws) with
  | .error (.combination _) => true
  | _ => false

def allDecode (l : List (List Word × Instr)) : Bool := l.all fun p => decodesTo p.1 p.2

def allRefused (l : List (List Word × Reject)) : Bool := l.all fun p => refusedWith p.1 p.2

theorem test_decode_integer_arithmetic : allDecode [
    ([0x1045E000, 0x40FF0201], .iadd true ⟨h, .i32, .v 4, .v 1, .reg (.v 2)⟩),
    ([0x4065E010, 0x8080FFC3], .isub false ⟨h, .n64, .v 6, .s 3, .imm 0x80⟩),
    ([0x3025E020, 0x00FFBE04], .imul ⟨h, .i64, .v 2, .v 4, .reg (.v 190)⟩),
    ([0x2018A03C, 0x00FFFE02], .imulh ⟨⟨⟨true, 5⟩, true, true⟩, .n32, .v 1, .v 2, .reg (.s 62)⟩),
    ([0x4085E040, 0xC010C302], .imad true ⟨h, .n64, .v 8, .v 2, .s 3, .imm 0x10⟩),
    ([0x20A5E050, 0x00040302], .imadw ⟨h, false, .v 10, .v 2, .v 3, .reg (.v 4)⟩),
    ([0x2085E060, 0x20450400], .iaddc h true .n32 (.v 8) (.v 0) (.v 4) ⟨true, 5⟩),
    ([0x1085E070, 0x00FF0400], .imin ⟨h, .i32, .v 8, .v 0, .reg (.v 4)⟩),
    ([0x2085E080, 0x8004FF00], .imax ⟨h, .n32, .v 8, .v 0, .imm 4⟩),
    ([0x1055E090, 0x00FFFF07], .iabs ⟨h, false, .v 5, .v 7⟩),
    ([0x3065E0A0, 0x00FFFFC2], .ineg ⟨h, true, .v 6, .s 2⟩)] = true := by decide

theorem test_decode_logic_and_shifts_1 : allDecode [
    ([0x2065E0B0, 0x00FF0201], .and ⟨h, .n32, .v 6, .v 1, .reg (.v 2)⟩),
    ([0x1065E0C0, 0x8002FF01], .or ⟨h, .i32, .v 6, .v 1, .imm 2⟩),
    ([0x4065E0D0, 0x00FF0402], .xor ⟨h, .n64, .v 6, .v 2, .reg (.v 4)⟩),
    ([0x2065E0E0, 0x00FFFF03], .not ⟨h, .n32, .v 6, .v 3⟩),
    ([0x4085E0F1, 0x00C60402, 0x002F0004], .bool3 h2 4 .n64 (.v 8) (.v 2) (.v 4) (.reg (.s 6))),
    ([0x2085E100, 0x8002FF02], .shl ⟨h, .n32, .v 8, .v 2, .imm 2⟩),
    ([0x2085E110, 0x00FF0502], .shr ⟨h, .n32, .v 8, .v 2, .reg (.v 5)⟩),
    ([0x3065E120, 0x803FFF06], .shra ⟨h, .i64, .v 6, .v 6, .imm 0x3F⟩),
    ([0x2065E130, 0x80F80302], .shd ⟨h, false, .v 6, .v 2, .v 3, .imm 0xF8⟩),
    ([0x1065E140, 0x00FF0302], .rot ⟨h, .i32, .v 6, .v 2, .reg (.v 3)⟩),
    ([0x1035E150, 0x8004FF01], .bfe ⟨h, .i32, .v 3, .v 1, .zr, .imm 4⟩),
    ([0x2045E161, 0x80FF0201, 0x002F0408], .bfi h2 .n32 (.v 4) (.v 1) (.v 2) (.imm 8 4))] = true := by decide

theorem test_decode_logic_and_shifts_2 : allDecode [
    ([0x1045E161, 0x00090201, 0x002F0000], .bfi h2 .i32 (.v 4) (.v 1) (.v 2) (.reg (.v 9))),
    ([0x4055E170, 0x00FFFF02], .popc ⟨h, .n64, .v 5, .v 2⟩),
    ([0x1055E180, 0x00FFFF02], .clz ⟨h, .i32, .v 5, .v 2⟩),
    ([0x2055E190, 0x00FFFF02], .brev ⟨h, .n32, .v 5, .v 2⟩),
    ([0x0025E1A0, 0x0003FF01], .bsel h (.v 2) (.v 1) .zr (.v 3))] = true := by decide

theorem test_decode_moves_and_predicates : allDecode [
    ([0x1025E1B0, 0x50FFFF04], .icmp h .ge .i32 2 (.v 4) (.reg .zr)),
    ([0x2055E1C0, 0x00430201], .isel h .n32 (.v 5) (.v 1) (.v 2) ⟨true, 3⟩),
    ([0x4C45E1D0, 0x00FFFF02], .mov h .n64 (.s 4) (.v 2)),
    ([0x9035E1D0, 0x00FFFF02], .mov h .f32 (.v 3) (.v 2)),
    ([0x0C65E1E2, 0x10FFFFFF, 0x002F0000, 0x89ABCDEF], .movi h2 true (.s 6) 0x89ABCDEF),
    ([0x0C85E1F0, 0x06FFFFFF], .movsr h .clock (.s 8)),
    ([0x0085E201, 0x60FF01C2, 0x002F0040], .lea h2 true 2 (.v 8) ⟨.s 2, .v 1, 0x40⟩),
    ([0x0045ED80, 0x10FF4201], .pset h .or 4 ⟨false, 1⟩ ⟨true, 2⟩),
    ([0x0095ED90, 0x00FFFFFF], .pmov h (.toReg false (.v 9))),
    ([0x0FF5ED90, 0x30FFFF09], .pmov h (.fromReg true (.v 9)))] = true := by decide

theorem test_decode_floating_point : allDecode [
    ([0xA045E400, 0x40FFC106], .fadd ⟨h, .f64, .ru, false, .v 4, ⟨.v 6, false, false⟩, ⟨.s 1, false, false⟩⟩),
    ([0x9045E410, 0x14FF0201], .fsub ⟨h, .f32, .rn, true, .v 4, ⟨.v 1, false, false⟩, ⟨.v 2, true, false⟩⟩),
    ([0x9045E420, 0x62FF0201], .fmul ⟨h, .f32, .rd, false, .v 4, ⟨.v 1, false, true⟩, ⟨.v 2, false, false⟩⟩),
    ([0x9045E430, 0xA1030201], .ffma ⟨h, .f32, .rz, false, .v 4, ⟨.v 1, true, false⟩, ⟨.v 2, false, false⟩⟩ true (.v 3)),
    ([0x9055E440, 0x10FF0201], .fmin ⟨h, .f32, false, true, .v 5, ⟨.v 1, false, false⟩, ⟨.v 2, false, false⟩⟩),
    ([0xA085E450, 0x28FF0402], .fmax ⟨h, .f64, true, false, .v 8, ⟨.v 2, false, false⟩, ⟨.v 4, false, true⟩⟩),
    ([0x9035E460, 0x08080201], .fcmp h .f32 false 8 3 ⟨.v 1, false, false⟩ ⟨.v 2, false, true⟩),
    ([0xA045E470, 0x00410806], .fsel h .f64 (.v 4) (.v 6) (.v 8) ⟨true, 1⟩),
    ([0xA055E480, 0x00FFFF06], .fclass h .f64 (.v 5) (.v 6)),
    ([0x9055E490, 0x23FFFF06], .frnd ⟨h, .f32, .rz, false, .v 5, ⟨.v 6, true, true⟩⟩),
    ([0xA045E4A0, 0x40FF0706], .fscale ⟨h, .f64, .ru, false, .v 4, ⟨.v 6, false, false⟩⟩ (.v 7))] = true := by decide

theorem test_decode_special_functions : allDecode [
    ([0x9065E800, 0x00FFFF0A], .rcp ⟨h, .rn, false, .v 6, ⟨.v 10, false, false⟩⟩),
    ([0x9065E810, 0x11FFFF0B], .rsq ⟨h, .rn, true, .v 6, ⟨.v 11, true, false⟩⟩),
    ([0x9065E820, 0x22FFFF0C], .sqrt ⟨h, .rz, false, .v 6, ⟨.v 12, false, true⟩⟩),
    ([0x9065E830, 0x43FFFF0D], .exp2 ⟨h, .ru, false, .v 6, ⟨.v 13, true, true⟩⟩),
    ([0x9065E840, 0x60FFFF0E], .log2 ⟨h, .rd, false, .v 6, ⟨.v 14, false, false⟩⟩),
    ([0x9065E850, 0x01FFFF0F], .sin ⟨h, .rn, false, .v 6, ⟨.v 15, true, false⟩⟩),
    ([0x9065E860, 0x12FFFF10], .cos ⟨h, .rn, true, .v 6, ⟨.v 16, false, true⟩⟩),
    ([0x9065E870, 0x23FFFF11], .tanh ⟨h, .rz, false, .v 6, ⟨.v 17, true, true⟩⟩),
    ([0x9065E880, 0x40FFFF12], .sigm ⟨h, .ru, false, .v 6, ⟨.v 18, false, false⟩⟩)] = true := by decide

theorem test_decode_conversions_and_products_1 : allDecode [
    ([0x0065E901, 0xA0FFFF07, 0x022F000B], .cvt .rz ⟨h2, .v 6, .v 7, .zr, true, false, false, 11, 0, 2, 0⟩),
    ([0x0065E911, 0x10FF0807, 0x03C10005], .cvtSr (.v 8) ⟨{ h2 with g2 := ⟨true, 1⟩, gor := true }, .v 6, .v 7, .zr, false, true, false, 5, 0, 3, 0⟩),
    ([0x0085E921, 0x0009FF01, 0x022F0011], .cvtx .rn ⟨h2, .v 8, .v 1, .v 9, false, false, false, 0x11, 0, 2, 0⟩),
    ([0x0045E930, 0x04000302], .pack h .e16 (.v 4) (.v 2) (.v 3) 0),
    ([0x0025E940, 0x2301FF03], .unpk h .sign .e8 (.v 2) (.v 3) 1),
    ([0x0025E940, 0x400FFF03], .unpk h .t2 .e2 (.v 2) (.v 3) 15),
    ([0x0055E980, 0x10050201], .dp4 (.int false true) ⟨h, .v 5, .v 1, .v 2, .v 5⟩),
    ([0x0055E980, 0x23050201], .dp4 (.flt .rz false true) ⟨h, .v 5, .v 1, .v 2, .v 5⟩),
    ([0x0055E990, 0x20C00201], .dp8 (.int true false) ⟨h, .v 5, .v 1, .v 2, .s 0⟩),
    ([0x0055E9A0, 0x62050201], .dp2 (.flt .rd true) ⟨h, .v 5, .v 1, .v 2, .v 5⟩),
    ([0xC055E9B0, 0x10050201], .pfma .rn true true ⟨h, .v 5, .v 1, .v 2, .v 5⟩),
    ([0x0FF5E9C0, 0x20FFFFFF], .clrmx h false true)] = true := by decide

theorem test_decode_conversions_and_products_2 : allDecode [
    ([0x0055E9D0, 0x30FFFFFF], .rdmx h true true (.v 5))] = true := by decide

theorem test_decode_control_1 : allDecode [
    ([0x0FF0AC01, 0x00FFFFFF, 0xFF2FFFE3], .bra { h2 with g1 := ⟨false, 5⟩ } 0xFFFFE3),
    ([0x0FF5EC11, 0x00FFFFFF, 0x032F0201], .braAny h2 0x030201),
    ([0x0FF5EC21, 0x00FFFFFF, 0x00440001], .braAll { h2 with g2 := ⟨true, 4⟩ } 1),
    ([0x0C45EC31, 0x00FFFFFF, 0x002F0008], .call h2 (.s 4) (.disp 8)),
    ([0x0025EC31, 0x10FFFFC5, 0x002F0000], .call h2 (.v 2) (.reg (.s 5))),
    ([0x0FF5EC40, 0x00FFFFC4], .ret h (.s 4)),
    ([0x0FF5EC50, 0x00FFFF06], .jmpi h (.v 6)),
    ([0x0FF5EC82, 0x0007FF43, 0x002F000C, 0x00000010], .fork h2 7 ⟨true, 3⟩ 0xC 0x10),
    ([0x0FF5EC90, 0x0003FFFF], .endarm h 3),
    ([0x0FF5ECA0, 0x0001FFBF], .pub h 1 (.v 191)),
    ([0x0FF5ECA0, 0x1001FF2E], .pub h 1 (.p 46)),
    ([0x0075ECB0, 0x00020605], .join h 2 7 5 6)] = true := by decide

theorem test_decode_control_2 : allDecode [
    ([0x0065ECC0, 0x00014302], .joinp h 1 6 ⟨false, 2⟩ ⟨true, 3⟩),
    ([0x0FF5ECD0, 0x0004FFFF], .memdone h 4),
    ([0x0FF5ECE4, 0x00FFFFFF], .exit { h with sw := true }),
    ([0x0FF5ECF0, 0x00FFFFFF], .nop h),
    ([0x0FF5ED01, 0x00FFFFFF, 0x002F0000], .nopW h2)] = true := by decide

theorem test_decode_loads_and_stores : allDecode [
    ([0x4045F001, 0xB9FF0902, 0xFF2FFFFC], .ldg { h := h2, ahead := true, vec := .x2, ty := .n64, d := .v 4, m := ⟨.v 2, .v 9, 0xFFFFFC⟩ } true ⟨2, 1⟩),
    ([0x1FF5F011, 0x1001FFC3, 0x002F0010], .stg { h := h2, ahead := false, vec := .x1, ty := .i32, data := .v 1, m := ⟨.s 3, .zr, 0x10⟩ } true ⟨0, 0⟩),
    ([0x2045F021, 0x20FFFF01, 0x002F0040], .lds { h := h2, ahead := false, vec := .x2, ty := .n32, d := .v 4, m := ⟨.v 1, .zr, 0x40⟩ }),
    ([0x8FF5F031, 0x40050301, 0x002F8000], .sts { h := h2, ahead := false, vec := .x4, ty := .n8, data := .v 5, m := ⟨.v 1, .v 3, 0x8000⟩ }),
    ([0x9045F021, 0x13FFFF01, 0x5A2F0000], .ldsRemote { h := h2, ahead := false, vec := .x1, ty := .f32, d := .v 4, m := ⟨.v 1, .zr, 0⟩ } ⟨3, 5, 10⟩),
    ([0x2FF5F031, 0x1005FF02, 0x1B2F0000], .stsRemote { h := h2, ahead := false, vec := .x1, ty := .n32, data := .v 5, m := ⟨.v 2, .zr, 0⟩ } ⟨0, 1, 11⟩),
    ([0x5045F041, 0x04FFFFC0, 0x002F0000], .ldc { h := h2, ahead := false, vec := .x1, ty := .i16, d := .v 4, m := ⟨.s 0, .zr, 0⟩ } 1),
    ([0xC045F051, 0xC0FFFFC0, 0x002F0000], .ldt { h := h2, ahead := true, vec := .x4, ty := .bf16, d := .v 4, m := ⟨.s 0, .zr, 0⟩ } 0),
    ([0x0FF5F061, 0x2DFF01C4, 0x002F0200], .pref h2 .c ⟨.s 4, .v 1, 0x200⟩ ⟨3, 1⟩)] = true := by decide

theorem test_decode_atomics : allDecode [
    ([0x4045F101, 0x67060902, 0x002F0008], .atom ⟨h2, .acq, true⟩ .inc .n64 (.v 4) ⟨.v 2, .v 9, 8⟩ (.v 6)),
    ([0x3025F111, 0xC006FFC2, 0x042F0100], .cas ⟨h2, .ar, false⟩ .i64 (.v 2) ⟨.s 2, .zr, 0x100⟩ (.v 6) (.v 4)),
    ([0xC025F121, 0x0006FFC2, 0x002F0000], .atomf ⟨h2, .none, false⟩ .add .bf16 (.v 2) ⟨.s 2, .zr, 0⟩ (.v 6)),
    ([0x2025F131, 0x8106FFC2, 0xFF2F0000], .hop ⟨h2, .rel, false⟩ .bsub .n32 (.v 2) ⟨.s 2, .zr, 0⟩ (.v 6) .zr),
    ([0xAFF5F141, 0x02040AC2, 0x002F0000], .red h2 false (.flt .max .f64) ⟨.s 2, .v 10, 0⟩ (.v 4)),
    ([0x1FF5F141, 0x85040AC2, 0x002F0000], .red h2 true (.int .xor .i32) ⟨.s 2, .v 10, 0⟩ (.v 4)),
    ([0x4FF5F151, 0x02040AC2, 0x002F0000], .redu h2 false ⟨2, true⟩ ⟨.s 2, .v 10, 0⟩ (.v 4)),
    ([0x2035F161, 0x0001FF01, 0x002F8000], .atoms ⟨⟨h2, .none, false⟩, .int .add .n32 (.imm 1), .v 3, .v 1, .zr, 0⟩),
    ([0x3045F161, 0x09080601, 0x002F7FFC], .atoms ⟨⟨h2, .none, false⟩, .cas .i64 (.v 8), .v 4, .v 1, .v 6, 0x7FFC⟩),
    ([0x9045F161, 0x51080601, 0x252F0000], .atomsRemote ⟨⟨h2, .acq, false⟩, .flt .min (.v 8), .v 4, .v 1, .v 6, 0⟩ 2 5)] = true := by decide

theorem test_decode_fences_and_ranges : allDecode [
    ([0x0FF5F200, 0x00FFFFFF], .fence h),
    ([0x0FF5F210, 0x20FFFFFF], .pfence h false true),
    ([0x0FF5F221, 0x8040FFC6, 0x002F0000], .flush ⟨h2, .s 6, 0, .imm 0x40⟩),
    ([0x0FF5F231, 0x0004FFC6, 0x032F0201], .inval ⟨h2, .s 6, 0x030201, .reg (.v 4)⟩),
    ([0x0FF5F240, 0x00FFFFFF], .sdrain h),
    ([0x3045F251, 0x200601C3, 0x002F0000], .waitw { h := h2, cc := .lt, acq := false, ty := .i64, d := .v 4, m := ⟨.s 3, .v 1, 0⟩, b := .v 6 }),
    ([0x0FF5F260, 0x8002FF03], .sppin h (.v 3) (.imm 2)),
    ([0x0FF5F270, 0x00FF0203], .spunpin h (.v 3) (.reg (.v 2)))] = true := by decide

theorem test_decode_engines_1 : allDecode [
    ([0x0145F601, 0x10FF1615, 0x002F0509], .resv h2 true 9 5 (.v 20) (.v 21) (.v 22) .zr),
    ([0x0FF5F610, 0x0003FFFF], .relv h 3),
    ([0x0FF5F621, 0x1021201F, 0x012F0402], .obld ⟨h2, true, 2, 0x104, .v 31, .v 32, .v 33⟩),
    ([0x0FF5F631, 0x00201F1E, 0x002F0000], .obst ⟨h2, false, 0, 0, .v 30, .v 31, .v 32⟩),
    ([0x0FF0B640, 0x00FFFFD4], .mma { h with g1 := ⟨false, 5⟩ } (.s 20)),
    ([0x0285F654, 0x0003FFFF], .mmawait { h with sw := true } (.v 40) 3),
    ([0x0295F660, 0x00FFFFFF], .mqstat h (.v 41)),
    ([0x02A5F670, 0x10FFFFFF], .rowp h true (.v 42)),
    ([0x0FF5F702, 0x00FFFFFF, 0x002F0001, 0x00000010], .asLoop h2 1 (.imm 16)),
    ([0x0FF5F702, 0x00FFFF07, 0x002F0003, 0x00000000], .asLoop h2 3 (.reg (.v 7))),
    ([0x0FF5F712, 0x00FFFFC7, 0x002F0002, 0x00000000], .asAddr h2 (.base 2 (.s 7))),
    ([0x0FF5F712, 0x20FFFF07, 0x002F0002, 0x00000000], .asAddr h2 (.baseSp 2 (.v 7)))] = true := by decide

theorem test_decode_engines_2 : allDecode [
    ([0x0FF5F712, 0x10FFFFFF, 0x002F0400, 0x00000004], .asAddr h2 (.str 0 4 4)),
    ([0x9005F720, 0x00FF18FF], .asPush h 0 .f32 (.v 24)),
    ([0x8035F720, 0x00FF18FF], .asPush h 3 .n8 (.v 24)),
    ([0x0FF5F730, 0x00FFFFFF], .asEnd h),
    ([0x0FF5F730, 0x10FFFFFF], .asEndAbort h),
    ([0x0065F740, 0x0001FFFF], .pop h (.v 6) 1),
    ([0x0065F750, 0x0002FFFF], .fqstat h (.v 6) 2),
    ([0x0CE5F804, 0x00FFFFFF], .prom { h with sw := true } (.s 14)),
    ([0x0FF5F810, 0x10FFFFCE], .sleep h true (.s 14))] = true := by decide

theorem test_decode_masks_and_barriers : allDecode [
    ([0x0FF5FA00, 0x0BFFFFFF], .mjoin h 11),
    ([0x0FF5FA10, 0x03FFFFFF], .mleave h 3),
    ([0x0FF5FA20, 0x10FF09FF], .mwait h true 0 (.reg (.v 9))),
    ([0x0FF5FA30, 0x840FFFFF], .mset h 4 (.imm 0xF)),
    ([0x0CC5FA40, 0x01FFFFFF], .mget h (.s 12) 1),
    ([0x0FF5FA80, 0x0FFF03FF], .bar h 15 (.v 3)),
    ([0x0095FA90, 0x02FFC4FF], .bara h (.v 9) 2 (.s 4)),
    ([0x0FF5FAA0, 0x02FFFF09], .barw h 2 (.v 9)),
    ([0x0035FAB0, 0x0FFF0201], .sbar h (.v 3) 15 (.v 1) (.v 2))] = true := by decide

theorem test_decode_lanes : allDecode [
    ([0x0055FB00, 0x00FFFF41], .vote h (.ballot (.v 5)) ⟨true, 1⟩),
    ([0x0055FB00, 0x20FFFF01], .vote h (.any 5) ⟨false, 1⟩),
    ([0x2065FB10, 0x90FF0705], .shfl h .near .n32 (.v 6) (.v 5) (.imm 0xFF) (.v 7)),
    ([0x9065FB10, 0x3008FF05], .shfl h .xor .f32 (.v 6) (.v 5) (.reg (.v 8)) .zr),
    ([0xA065FB20, 0x10FFFF04], .matchI h true .f64 (.v 6) (.v 4)),
    ([0x9065FB30, 0x02FFFF04], .redux h .fmax (.v 6) (.v 4)),
    ([0x2065FB30, 0x05FFFF04], .redux h (.int 5 false) (.v 6) (.v 4)),
    ([0x0065FB40, 0x00FFFFFF], .elect h (.pred 6)),
    ([0x0065FB40, 0x10FFFFFF], .elect h (.id (.v 6)))] = true := by decide

theorem test_decode_launch_and_system : allDecode [
    ([0x0065FD00, 0x00FFFFC2], .launch h (.v 6) (.s 2) none),
    ([0x0065FD00, 0x124CFFC2], .launch h (.v 6) (.s 2) (some ⟨2, 4, 12⟩)),
    ([0x0FF5FD00, 0x20FFFF06], .launchCwait h (.v 6)),
    ([0x0FF5FD12, 0x00FFFFFF, 0x002F0000, 0x80000007], .trap h2 0x80000007),
    ([0x0FF5FD20, 0x00FFFFFF], .bkpt h 0xFF),
    ([0x0FF5FD30, 0x00FFFFFF], .halt h),
    ([0x0C15FD40, 0x1002FFFF], .perf h true 2 (.s 1)),
    ([0x0FF5FD50, 0x00FFFF09], .sampctlStart h (.v 9)),
    ([0x0FF5FD50, 0x10FFFFFF], .sampctlStop h),
    ([0x0085FD50, 0x20FFFFFF], .sampctlDrop h (.v 8))] = true := by decide

theorem test_decode_refused : allRefused [
    ([0x5045E000, 0x00FF0201], .illegalForm false),
    ([0x1045E000, 0x10FF0201], .illegalForm false),
    ([0x1045E000, 0x00030201], .illegalForm false),
    ([0x1045E000, 0x80030201], .illegalForm false),
    ([0x1045E000, 0x01FF0201], .illegalForm false),
    ([0x2085E0F1, 0x00060402, 0x002F0010], .illegalForm false),
    ([0x1305E1B0, 0x00FFFF04], .illegalForm false),
    ([0x1025E1B0, 0x60FFFF04], .illegalForm false),
    ([0x0065E1E2, 0x20FFFFFF, 0x002F0000, 0x00000000], .illegalForm false),
    ([0x0085E1F0, 0x0BFFFFFF], .illegalForm false),
    ([0x9035E440, 0x40FF0201], .illegalForm false),
    ([0x0065E901, 0x20FFFF07, 0x002F0024], .illegalForm false),
    ([0x0055E980, 0x05050201], .illegalForm false),
    ([0x0FF5E9C0, 0x00FFFFFF], .illegalForm false),
    ([0x0FF5EC90, 0x0008FFFF], .illegalForm false)] = true := by decide

theorem test_decode_refused_2 : allRefused [
    ([0xD045F001, 0x00FFFF02, 0x002F0000], .illegalForm false),
    ([0x2045F001, 0x60FFFF02, 0x002F0000], .illegalForm false),
    ([0x4045F101, 0x0906FF02, 0x002F0000], .illegalForm false),
    ([0x1FF5F151, 0x0F04FF02, 0x002F0000], .illegalForm false),
    ([0x0FF5F210, 0x00FFFFFF], .illegalForm false),
    ([0x0FF5F610, 0x0008FFFF], .illegalForm false),
    ([0x9045F720, 0x00FF18FF], .illegalForm false),
    ([0x0FF5FA00, 0x0CFFFFFF], .illegalForm false),
    ([0x0FF5FD50, 0x30FFFFFF], .illegalForm false),
    ([0x0FF60CF0, 0x00FFFFFF], .illegalForm true),
    ([0x0FF5ECF1, 0x00FFFFFF, 0x002F0000], .illegalForm false),
    ([0x0FF5ED11, 0x00FFFFFF, 0x002F0000], .illegalOpcode),
    ([0x0FF5FF00, 0x00FFFFFF], .illegalOpcode)] = true := by decide

/-- Fields that each pass check 7 and that the entry forbids together (R252 item 9): a condition of FCMP, a format of ATOMS, an operator of
REDUX, a selector of PERF. -/
theorem test_decode_combinations : ([[0x9035E460, 0x000E0201],
    [0x9035F161, 0x0001FF01, 0x002F8000],
    [0x9065FB30, 0x00FFFF04],
    [0x0025FD40, 0x0004FFFF]] : List (List Word)).all refusedTogether = true := by decide
/-! ### Ill-formed terms, one for each check of WellFormed -/

def noneFormed (l : List Instr) : Bool := l.all fun i => !i.wellFormed

theorem test_illformed_pairs : noneFormed [
    .iadd false ⟨h, .i64, .v 3, .v 2, .imm 1⟩, .iadd false ⟨h, .n64, .v 2, .v 3, .imm 1⟩, .iadd false ⟨h, .n64, .v 2, .v 2, .reg (.v 5)⟩,
    .imad false ⟨h, .i64, .v 2, .v 2, .v 7, .imm 1⟩, .imad false ⟨h, .i64, .v 2, .v 2, .v 6, .reg (.v 7)⟩, .imadw ⟨h, true, .v 1, .v 2, .v 3, .imm 0⟩,
    .iaddc h false .n64 (.v 2) (.v 4) (.v 5) ⟨false, 1⟩, .iabs ⟨h, true, .v 2, .v 1⟩, .not ⟨h, .n64, .v 1, .v 2⟩,
    .shl ⟨h, .n64, .v 1, .v 2, .imm 0⟩, .bfe ⟨h, .i64, .v 2, .v 1, .v 3, .imm 0⟩, .popc ⟨h, .n64, .v 2, .v 1⟩,
    .icmp h .eq .n64 1 (.v 2) (.reg (.v 3)), .isel h .n64 (.v 2) (.v 4) (.v 5) ⟨false, 0⟩, .mov h .f64 (.v 2) (.v 1), .movsr h .clock (.v 1),
    .lea h2 false 0 (.v 1) ⟨.s 0, .zr, 0⟩] = true := by decide

theorem test_illformed_float : noneFormed [
    .fadd ⟨h, .f64, .rn, false, .v 1, ⟨.v 2, false, false⟩, ⟨.v 4, false, false⟩⟩,
    .ffma ⟨h, .f64, .rn, false, .v 0, ⟨.v 2, false, false⟩, ⟨.v 4, false, false⟩⟩ false (.v 5),
    .fmin ⟨h, .f64, false, false, .v 0, ⟨.v 1, false, false⟩, ⟨.v 2, false, false⟩⟩, .fcmp h .f64 false 0 1 ⟨.v 2, false, false⟩ ⟨.v 3, false, false⟩,
    .fsel h .f64 (.v 2) (.v 4) (.v 5) ⟨false, 0⟩, .fclass h .f64 (.v 2) (.v 3), .frnd ⟨h, .f64, .rn, false, .v 1, ⟨.v 2, false, false⟩⟩,
    .fscale ⟨h, .f64, .rn, false, .v 2, ⟨.v 3, false, false⟩⟩ .zr, .cvt .rz ⟨h2, .v 1, .v 2, .zr, false, false, false, 36, 0, 0, 0⟩,
    .cvtSr .zr ⟨h2, .v 1, .v 2, .zr, false, false, false, 5, 63, 0, 0⟩, .clrmx h false false] = true := by decide

theorem test_illformed_second_guard : noneFormed [
    .movi { h2 with gor := true } false (.v 1) 0, .bool3 { h2 with g2 := ⟨false, 1⟩ } 0 .n32 (.v 1) (.v 1) (.v 1) (.imm 0),
    .bfi { h2 with g2 := ⟨true, 47⟩ } .n32 (.v 1) (.v 1) (.v 1) (.imm 0 0), .nopW { h2 with g2 := ⟨false, 1⟩ },
    .asLoop { h2 with gor := true } 0 (.imm 1), .asAddr { h2 with gor := true } (.str 0 0 0), .flush ⟨{ h2 with gor := true }, .s 0, 0, .imm 1⟩,
    .waitw { h := { h2 with gor := true }, cc := .eq, acq := false, ty := .n32, d := .v 1, m := ⟨.s 0, .zr, 0⟩, b := .zr },
    .sdrain { h with g1 := ⟨false, 1⟩ }, .asLoop h2 0 (.reg .zr)] = true := by decide

theorem test_illformed_memory : noneFormed [
    .ldg { h := h2, ahead := false, vec := .x1, ty := .n64, d := .v 1, m := ⟨.s 0, .zr, 0⟩ } false ⟨0, 0⟩,
    .stg { h := h2, ahead := false, vec := .x1, ty := .n32, data := .v 1, m := ⟨.v 3, .zr, 0⟩ } false ⟨0, 0⟩,
    .lds { h := h2, ahead := false, vec := .x1, ty := .f64, d := .v 1, m := ⟨.v 1, .zr, 0⟩ },
    .stsRemote { h := h2, ahead := false, vec := .x1, ty := .i64, data := .v 1, m := ⟨.v 1, .zr, 0⟩ } ⟨0, 0, 0⟩, .pref h2 .l1 ⟨.v 1, .zr, 0⟩ ⟨0, 0⟩,
    .atom ⟨h2, .none, false⟩ .add .i64 (.v 1) ⟨.s 0, .zr, 0⟩ (.v 2), .cas ⟨h2, .none, false⟩ .f64 (.v 2) ⟨.s 0, .zr, 0⟩ (.v 4) (.v 5),
    .atomf ⟨h2, .none, false⟩ .min .bf16 (.v 2) ⟨.s 0, .zr, 0⟩ (.v 4), .hop ⟨h2, .none, false⟩ .badd .i32 (.v 2) ⟨.s 0, .zr, 0⟩ (.v 4) (.v 5),
    .red h2 false (.int .exch .i32) ⟨.s 0, .zr, 0⟩ (.v 1), .red h2 false (.flt .max .bf16) ⟨.s 0, .zr, 0⟩ (.v 1),
    .redu h2 false ⟨0, false⟩ ⟨.s 0, .zr, 0⟩ (.v 1), .redu h2 false ⟨15, false⟩ ⟨.s 0, .zr, 0⟩ (.v 1), .redu h2 false ⟨10, true⟩ ⟨.s 0, .zr, 0⟩ (.v 1),
    .redu h2 false ⟨2, false⟩ ⟨.s 0, .zr, 0⟩ (.v 1), .atoms ⟨⟨h2, .none, false⟩, .cas .f64 (.v 2), .v 4, .v 1, .v 6, 0⟩,
    .atoms ⟨⟨h2, .none, false⟩, .int .add .i64 (.imm 1), .v 3, .v 1, .zr, 0⟩, .pfence h false false, .inval ⟨h2, .v 1, 0, .imm 1⟩] = true := by decide

theorem test_illformed_system : noneFormed [
    .call h2 (.v 1) (.disp 0), .call h2 (.s 0) (.reg (.v 3)), .ret h (.v 1), .jmpi h (.v 1), .obld ⟨h2, false, 0, 0, .v 1, .zr, .zr⟩, .mma h (.v 1),
    .asAddr h2 (.base 0 (.v 1)), .prom h (.v 1), .sleep h true (.v 1), .matchI h false .n64 (.v 1) (.v 3), .launch h (.v 1) (.v 3) none,
    .perf h false 0 (.v 1)] = true := by decide

/-- Members of a fused group that break one condition of R325 each: a type, a guard, a dependence, the zero register, a switch marker. -/
theorem test_illformed_fused : noneFormed [
    .fusedGroup (.mulAdd ⟨h, .f64, .rn, false, .v 4, ⟨.v 0, false, false⟩, ⟨.v 2, false, false⟩⟩ ⟨h, .f64, .rn, false, .v 6, ⟨.v 4, false, false⟩, ⟨.v 2, false, false⟩⟩),
    .fusedGroup (.mulAdd ⟨h, .f32, .rn, false, .v 4, ⟨.v 0, false, false⟩, ⟨.v 2, false, false⟩⟩ ⟨{ h with g1 := ⟨false, 1⟩ }, .f32, .rn, false, .v 6, ⟨.v 4, false, false⟩, ⟨.v 2, false, false⟩⟩),
    .fusedGroup (.mulAdd ⟨h, .f32, .rn, false, .v 4, ⟨.v 0, false, false⟩, ⟨.v 2, false, false⟩⟩ ⟨h, .f32, .rn, false, .v 6, ⟨.v 3, false, false⟩, ⟨.v 2, false, false⟩⟩),
    .fusedGroup (.addMax ⟨h, .f32, .rn, false, .zr, ⟨.v 0, false, false⟩, ⟨.v 2, false, false⟩⟩ ⟨h, .f32, false, false, .v 6, ⟨.zr, false, false⟩, ⟨.v 2, false, false⟩⟩),
    .fusedGroup (.fmaMax ⟨{ h with sw := true }, .f32, .rn, false, .v 4, ⟨.v 0, false, false⟩, ⟨.v 2, false, false⟩⟩ false .zr ⟨h, .f32, false, false, .v 6, ⟨.v 4, false, false⟩, ⟨.v 2, false, false⟩⟩)
    ] = true := by decide

theorem test_wellformed_fused : (Instr.fusedGroup (.mulAddMax
    ⟨h, .f32, .rn, false, .v 4, ⟨.v 0, false, false⟩, ⟨.v 2, false, false⟩⟩ ⟨h, .f32, .rz, false, .v 5, ⟨.v 3, false, false⟩, ⟨.v 4, true, false⟩⟩
    ⟨{ h with sw := true }, .f32, true, false, .v 6, ⟨.v 5, false, false⟩, ⟨.zr, false, false⟩⟩)).wellFormed = true := by decide

/-! ### A small state, and what its witnesses are made of -/

/-- A strand at 0x1000 whose lanes are 0 to 3. -/
def strand0 : Strand := { Strand.empty with valid := true, pc := 0x1000, mask := 15 }

/-- A gang of four threads on core 0, with p1 true on lane 0 and 64 vector registers. -/
def gang0 : Gang :=
  { Gang.empty with
    team := ⟨1, 0, 0⟩, ctxField := 1, nregs := 64, launched := 15, live := 15, resident := true, active := true, p := [(1, 1)]
    strands := strand0 :: List.replicate 15 Strand.empty }

/-- Its team, with a window of one page. -/
def team0 : Team :=
  { key := ⟨1, 0, 0⟩, core := 0, threads := 4, nregs := 64, pages := 1, sp := [], frames := [0x8000], held := [(0, 0)], unpinned := [], bars := List.replicate 16 Bar.empty
    placedAt := 0, started := true, stopping := false, preempted := false, runtime := 0, saved := [] }

/-- Its context, whose table stands at 0x1000. -/
def ctx1 : Ctx :=
  { num := 1, gen := 0, root := 1, coreset := 1, group := 0, slice := 1, quota := 0, remote := 0, limit := 0, hang := 0, debug := 0
    sbuf := none, digest := 0, serial := 0, held := [], deferred := [], events := [], waiting := [], eventSeq := 0, breaks := []
    haltOrder := [], bindings := [], waitGrid := none, retry := false }

/-- Tables at 0x1000 and 0x2000 that lead to one at 0x3000, whose first entry maps the first 1 GiB to itself, with W and X. -/
def tables : SMap 8 := [(0x1000, 0x01), (0x1001, 0x20), (0x2000, 0x01), (0x2001, 0x30), (0x3000, 0x1D)]

/-- The device with that gang issuing. -/
def b : State :=
  { State.reset with
    cur := gang0, teams := [team0], cores := [Core.empty 0], ctxs := [ctx1], clock := 1000, mem := tables, service := .full
    grottoUp := true, issueStopped := false }

/-- That state with another gang issuing. -/
def bG (f : Gang → Gang) : State := { b with cur := f gang0 }

theorem ready_iff (i : Instr) (s : State) : Ready i s ↔ s.curStrand < s.cur.strands.length ∧ s.strand.valid = true ∧
    allocated i s.cur = true ∧ hazard i s.cur s.strand = false :=
  ⟨fun r => ⟨r.slot, r.live, r.regs, r.free⟩, fun r => ⟨r.1, r.2.1, r.2.2.1, r.2.2.2⟩⟩

/-- The lines a translation needs to hold: every access on a page of memory. -/
def translatesB (s : State) (want : Want) (accs : List LaneAcc) : Bool :=
  (s.begin.translateAll s.cur.key.core s.cur.team.ctx want accs).1.all fun p =>
    match p.2 with
    | .ok pa _ => isRemote pa || decide (pa % 2 ^ 42 < 0x8000000000)
    | _ => false

theorem translates_of {s : State} {want : Want} {accs : List LaneAcc} (h : translatesB s want accs = true) :
    ∃ accs' u, Translates s want accs accs' u := by
  refine ⟨_, _, _, rfl, rfl, fun p hp => ?_⟩
  have := List.all_eq_true.mp h p hp
  split at this
  · next pa a e => exact ⟨pa, a, e, by simpa using this⟩
  · cases this

/-- Those lines, and what their result meets. -/
theorem translates_with {s : State} {want : Want} {accs : List LaneAcc} (P : State → LaneAcc → Bool) (h : translatesB s want accs = true)
    (hp : let r := s.begin.translateAll s.cur.key.core s.cur.team.ctx want accs; (r.1.map (·.1)).all (P r.2) = true) :
    ∃ accs' u, Translates s want accs accs' u ∧ ∀ a ∈ accs', P u a = true := by
  refine ⟨_, _, ⟨_, rfl, rfl, fun p hp => ?_⟩, fun a ha => List.all_eq_true.mp hp a ha⟩
  have := List.all_eq_true.mp h p hp
  split at this
  · next pa a e => exact ⟨pa, a, e, by simpa using this⟩
  · cases this

/-- The guard that passes on no lane, and the one that passes on lane 0 alone. -/
abbrev hN : Hdr := ⟨⟨true, 47⟩, false, false⟩
abbrev h1 : Hdr := ⟨⟨false, 1⟩, false, false⟩
abbrev h2N : Hdr2 := { h2 with g1 := ⟨true, 47⟩ }
abbrev h21 : Hdr2 := { h2 with g1 := ⟨false, 1⟩ }

/-! ### Hypotheses met: instructions that compute -/

theorem witness_IntegerArithmeticResults : ∀ i ∈ ([
    .iadd false ⟨h, .i32, .v 4, .v 1, .reg (.v 2)⟩, .iadd true ⟨h1, .n64, .s 4, .v 2, .imm 255⟩, .isub false ⟨h, .n64, .zr, .s 3, .imm 1⟩,
    .isub true ⟨hN, .i64, .v 62, .v 62, .reg (.s 62)⟩, .imul ⟨h, .i64, .v 2, .v 4, .reg .zr⟩, .imulh ⟨h, .n32, .v 63, .v 2, .reg (.v 3)⟩,
    .imin ⟨h, .i32, .v 8, .v 0, .reg (.v 4)⟩, .imax ⟨h, .n32, .v 8, .v 0, .imm 4⟩, .imad false ⟨h, .n64, .v 8, .v 2, .s 3, .imm 16⟩,
    .imad true ⟨h1, .i32, .v 8, .v 8, .v 8, .reg (.v 8)⟩, .imadw ⟨h, true, .v 10, .v 2, .v 3, .reg (.v 4)⟩, .iabs ⟨h, false, .v 5, .v 5⟩,
    .ineg ⟨h, true, .v 6, .s 2⟩, .iaddc h true .n32 (.v 8) (.v 0) (.v 4) ⟨true, 5⟩, .iaddc h false .n64 (.v 8) .zr (.v 4) ⟨false, 47⟩] : List Instr),
    Ready i b := by simp only [ready_iff]; decide

theorem witness_LogicShiftAndFieldResults : ∀ i ∈ ([
    .and ⟨h, .n32, .v 6, .v 1, .reg (.v 2)⟩, .or ⟨h, .i32, .zr, .v 1, .imm 2⟩, .xor ⟨h1, .n64, .v 6, .v 2, .reg (.v 4)⟩, .not ⟨h, .n32, .s 6, .v 3⟩,
    .bool3 h2 15 .n64 (.v 8) (.v 2) (.v 4) (.reg (.s 6)), .shl ⟨h, .n32, .v 8, .v 2, .imm 255⟩, .shr ⟨h, .n64, .v 8, .v 2, .reg (.v 5)⟩,
    .shra ⟨h, .i64, .v 6, .v 6, .imm 63⟩, .rot ⟨h, .i32, .v 6, .v 2, .reg (.v 3)⟩, .shd ⟨h, false, .v 6, .v 2, .v 3, .imm 0x80⟩,
    .bfe ⟨h, .i32, .v 3, .v 1, .zr, .imm 4⟩, .bfi h2 .n32 (.v 4) (.v 1) (.v 2) (.imm 31 255), .bfi h2 .n64 (.v 4) (.v 2) (.v 2) (.reg (.v 9)),
    .popc ⟨h, .n64, .v 5, .v 2⟩, .clz ⟨h, .i32, .v 5, .v 2⟩, .brev ⟨h, .n32, .v 5, .v 2⟩, .bsel h (.v 2) (.v 1) .zr (.v 3)] : List Instr),
    Ready i b := by simp only [ready_iff]; decide

theorem witness_CompareMoveAndSelectResults : ∀ i ∈ ([
    .icmp h .ge .i32 2 (.v 4) (.reg .zr), .icmp h .lt .n64 47 (.v 4) (.imm 1), .fcmp h .f32 false 13 3 ⟨.v 1, true, false⟩ ⟨.v 2, false, true⟩,
    .isel h .n32 (.v 5) (.v 1) (.v 2) ⟨true, 3⟩, .fsel h .f64 (.v 4) (.v 6) (.v 8) ⟨true, 1⟩, .mov h .n64 (.s 4) (.v 2), .movi h2 false (.v 6) 7,
    .movi h2 true (.s 62) 7, .movsr h .clock (.v 8), .movsr h .forkdepth .zr, .lea h2 true 3 (.v 8) ⟨.s 2, .v 1, 0xFFFFFF⟩,
    .pset h .xor 47 ⟨false, 1⟩ ⟨true, 2⟩, .pmov h (.toReg true (.v 9)), .pmov h1 (.fromReg false (.v 9))] : List Instr),
    Ready i b := by simp only [ready_iff]; decide

theorem witness_FloatArithmeticAndNaNResults : (∀ i ∈ ([
    .fadd ⟨h, .f64, .ru, false, .v 4, ⟨.v 6, false, false⟩, ⟨.s 1, false, false⟩⟩, .fsub ⟨h, .f32, .rn, true, .v 4, ⟨.v 1, false, false⟩, ⟨.v 2, true, false⟩⟩,
    .fmul ⟨h, .f32, .rd, false, .zr, ⟨.v 1, false, true⟩, ⟨.v 2, false, false⟩⟩, .ffma ⟨h, .f32, .rz, false, .v 4, ⟨.v 1, true, false⟩, ⟨.zr, false, false⟩⟩ true (.v 3),
    .fmin ⟨h, .f32, false, true, .v 5, ⟨.v 1, false, false⟩, ⟨.v 2, false, false⟩⟩, .fmax ⟨h1, .f64, true, false, .v 8, ⟨.v 2, false, false⟩, ⟨.v 4, false, true⟩⟩,
    .fclass h .f64 (.v 5) (.v 6), .frnd ⟨h, .f32, .rz, false, .v 5, ⟨.v 6, true, true⟩⟩, .fscale ⟨h, .f64, .ru, false, .v 4, ⟨.v 6, false, false⟩⟩ (.v 7)] :
    List Instr), Ready i b) ∧
    (f32.value 0x7F800001).isNan = true ∧ (f64.value 0x7FF8000000000000).isNan = true ∧ (f32.value 0).isNan = false := by
  simp only [ready_iff]; decide

theorem witness_SpecialFunctionUnitResults : (∀ i ∈ ([
    .rcp ⟨h, .rz, false, .v 6, ⟨.v 10, false, false⟩⟩, .sqrt ⟨h, .rn, true, .s 6, ⟨.v 10, true, false⟩⟩, .rsq ⟨h, .rn, false, .zr, ⟨.v 10, false, true⟩⟩,
    .exp2 ⟨h1, .rn, false, .v 6, ⟨.v 6, false, false⟩⟩, .log2 ⟨h, .rn, false, .v 6, ⟨.v 10, false, false⟩⟩, .sin ⟨h, .rn, false, .v 6, ⟨.v 10, false, false⟩⟩,
    .cos ⟨h, .rn, false, .v 6, ⟨.v 10, false, false⟩⟩, .tanh ⟨h, .rn, false, .v 6, ⟨.v 10, false, false⟩⟩,
    .sigm ⟨h, .rn, false, .v 6, ⟨.v 10, false, false⟩⟩] : List Instr), Ready i b ∧ b.part i ≠ 0) ∧
    f32.value 0x7FC00000 = .nan false ∧ f32.value 0x7F800001 = .nan true ∧ f32.value 0xFF800000 = .inf true ∧
    (∃ p q e, f32.value 0xBF800000 = .num true p q e ∧ p ≠ 0) := by
  refine ⟨by simp only [ready_iff]; decide, by decide, by decide, by decide, ⟨_, _, _, rfl, by decide⟩⟩

/-- 1 and 2; 1 and 1; 1 and 0; the greatest number twice. -/
theorem witness_FloatRoundingResults :
    (∀ a ∈ [0x3F800000, 0x40000000, 0, 0x7F7FFFFF], (f32.value a).isNum = true) ∧
    (let x := (f32.value 0x3F800000).rat
     let y := (f32.value 0x40000000).rat
     (x + y ≠ 0 ∧ f32.fits (x + y)) ∧ (x - y ≠ 0 ∧ f32.fits (x - y)) ∧ (x * y ≠ 0 ∧ f32.fits (x * y)) ∧ x - x = 0 ∧
       x + (f32.value 0xBF800000).rat = 0 ∧ x * (f32.value 0).rat = 0 ∧ (x * y + y ≠ 0 ∧ f32.fits (x * y + y))) ∧
    ¬ f32.fits ((f32.value 0x7F7FFFFF).rat + (f32.value 0x7F7FFFFF).rat) := by
  refine ⟨by decide, ?_, by unfold FFmt.fits; decide +kernel⟩
  unfold FFmt.fits; decide +kernel

/-- An FP32 element and a block element under a scale; the number 1.5 to FP16, to a block of FP8 and to INT8; FP8 products. -/
theorem witness_ExactConversionResults :
    ((nfmt 0).value 0x3FC00000).isNum = true ∧ blockOf 0 = none ∧ ((nfmt 17).value 0x3C).isNum = true ∧ blockOf 17 = some (5, false) ∧
    (scaleValue false 0x80).isNum = true ∧ (scaleValue false 0x80).rat ≠ 0 ∧
    (let v := (nfmt 0).value 0x3FC00000
     v.isNum = true ∧ v.rat ≠ 0 ∧ nfmt 3 = .flt f16 ∧ blockOf 3 = none ∧ f16.fits v.rat ∧ nfmt 17 = .flt f8e4 ∧
       f8e4.fits (v.rat / (scaleValue false 0x80).rat)) ∧
    (nfmt 10 = .int 8 true ∧ blockOf 10 = none ∧ isIntCode 0 = false) ∧
    (f8e4.width = f8e5.width ∧ (∀ x ∈ elemsOf (.flt f8e4) 0x38383838, x.isNum = true) ∧ (∀ x ∈ elemsOf (.flt f8e5) 0x3C3C3C3C, x.isNum = true) ∧
      (f32.value 0x3F800000).isNum = true ∧
      (let v := ((elemsOf (.flt f8e4) 0x38383838).zipWith (fun x y => x.rat * y.rat) (elemsOf (.flt f8e5) 0x3C3C3C3C)).sum + (f32.value 0x3F800000).rat
       v ≠ 0 ∧ f32.fits v)) := by
  unfold FFmt.fits; decide +kernel

theorem witness_ConversionAndPackedResults :
    (∀ p ∈ ([(.rz, ⟨h2, .v 6, .v 7, .zr, true, false, false, 11, 33, 2, 0⟩), (.rn, ⟨h2, .v 6, .v 7, .zr, false, false, false, 28, 0, 0, 0⟩)] :
      List (RM × Cvt)), cvtOk p.2 (cvtRmOk p.1 p.2) = true ∧ Ready (.cvt p.1 p.2) b ∧ Ready (.cvtx p.1 p.2) b) ∧
    (let o : Cvt := ⟨h2, .v 6, .v 7, .zr, false, false, false, 5, 0, 3, 0⟩; cvtOk o (Reg.v 8 != .zr) = true ∧ Ready (.cvtSr (.v 8) o) b) ∧
    (let o : Cvt := ⟨h2, .v 8, .v 1, .v 9, false, false, false, 0x11, 0, 2, 0⟩; cvtOk o (cvtRmOk .rn o) = true ∧ Ready (.cvtx .rn o) b) ∧
    (scalarReg (.v 4) = false ∧ (0#4).toNat + 1 < slotCount (EWidth.bitsOf .e16) ∧ Ready (.pack h .e16 (.v 4) (.v 2) (.v 3) 0) b) ∧
    ((15#4).toNat < slotCount (EWidth.bitsOf .e2) ∧ Ready (.unpk h .t2 .e2 (.v 2) (.v 3) 15) b) ∧
    ∀ i ∈ ([.dp4 (.int false true) ⟨h, .v 5, .v 1, .v 2, .v 5⟩, .dp4 (.flt .rz false true) ⟨h, .v 5, .v 1, .v 2, .v 5⟩,
      .dp8 (.int true false) ⟨h, .v 5, .v 1, .v 2, .s 0⟩, .dp8 (.flt .rn) ⟨h, .v 5, .v 1, .v 2, .zr⟩, .dp2 (.int true true) ⟨h, .v 5, .v 1, .v 2, .v 3⟩,
      .dp2 (.flt .rd true) ⟨h, .v 5, .v 1, .v 2, .v 5⟩, .pfma .rn true true ⟨h, .v 5, .v 1, .v 2, .v 5⟩] : List Instr), Ready i b := by
  simp only [ready_iff]; decide

theorem witness_FlagRegistersAndFusedGroups :
    let m : FArith := ⟨h, .f32, .rn, false, .v 4, ⟨.v 0, false, false⟩, ⟨.v 2, false, false⟩⟩
    let a : FArith := ⟨h, .f32, .rz, false, .v 5, ⟨.v 3, false, false⟩, ⟨.v 4, true, false⟩⟩
    let x : FMinMax := ⟨h, .f32, true, false, .v 6, ⟨.v 5, false, false⟩, ⟨.zr, false, false⟩⟩
    let y : FMinMax := ⟨h, .f32, true, false, .v 6, ⟨.v 4, false, false⟩, ⟨.zr, false, false⟩⟩
    (b.myCore.inflight.any (fun f => f.g == b.cur.key && f.sfu) = false) ∧
    (∀ i ∈ ([.clrmx h true true, .clrmx hN false true, .rdmx h true false (.v 5), .rdmx h1 false true (.s 5)] : List Instr), Ready i b) ∧
    ((Fused.mulAdd m a).ok = true ∧ Ready (.fusedGroup (.mulAdd m a)) b) ∧ ((Fused.addMax a x).ok = true ∧ Ready (.fusedGroup (.addMax a x)) b) ∧
    ((Fused.fmaMax m true .zr y).ok = true ∧ Ready (.fusedGroup (.fmaMax m true .zr y)) b) ∧
    ((Fused.mulAddMax m a x).ok = true ∧ Ready (.fusedGroup (.mulAddMax m a x)) b) := by
  simp only [ready_iff]; decide

/-! ### Branches, forks, arms, joins -/

/-- A register target: v2 and v3 hold `x` on the four lanes, but on lane 3 `y`. -/
def target (x y : DWord) : State := bG fun g => { g with
  v := [(64, x.setWidth 32), (65, x.setWidth 32), (66, x.setWidth 32), (67, y.setWidth 32), (96, x.extractLsb' 32 32), (97, x.extractLsb' 32 32),
    (98, x.extractLsb' 32 32), (99, y.extractLsb' 32 32)] }

/-- A guard that passes on no lane, on every lane, on some: each effect of the branches; and register targets that differ, are
misaligned, are too wide, are good. -/
theorem witness_BranchCallAndReturnResults :
    b.strand.mask ≠ 0 ∧
    (∀ i ∈ ([.bra h2N 3, .braAny h2N 3, .braAll h2N 3, .call h2N (.s 4) (.disp 8), .call h2N (.s 4) (.reg (.s 5)), .ret hN (.v 2), .jmpi hN (.v 2)] : List Instr),
      Ready i b ∧ b.part i = 0) ∧
    (∀ i ∈ ([.bra h2 0xFFFFFF, .braAny h2 3, .braAll h2 3, .call h2 (.s 4) (.disp 8), .call h2 (.v 4) (.disp 0x800000)] : List Instr),
      Ready i b ∧ b.part i = b.strand.mask) ∧
    (∀ i ∈ ([.bra h21 3, .braAny h21 3, .braAll h21 3, .call h21 (.s 4) (.disp 8), .call h21 (.s 4) (.reg (.s 5)), .ret h1 (.v 2), .jmpi h1 (.v 2)] : List Instr), Ready i b ∧ b.part i ≠ 0 ∧ b.part i ≠ b.strand.mask) ∧
    (∀ s ∈ [target 0x2000 0x2004, target 0x2002 0x2002, target (2 ^ 57) (2 ^ 57), target 0x2000 0x2000, target (2 ^ 57 - 4) (2 ^ 57 - 4)],
      ∀ i ∈ ([.call h2 (.v 2) (.reg (.v 2)), .ret h (.v 2), .jmpi h (.v 2)] : List Instr),
        Ready i s ∧ lowLane s.strand.mask = some 0 ∧ s.part i = s.strand.mask) ∧
    (target 0x2000 0x2004).cur.rd64 (.v 2) 3 ≠ (target 0x2000 0x2004).cur.rd64 (.v 2) 0 ∧
    ((target 0x2002 0x2002).cur.rd64 (.v 2) 0).toNat % 4 ≠ 0 ∧ 2 ^ 57 ≤ ((target (2 ^ 57) (2 ^ 57)).cur.rd64 (.v 2) 0).toNat ∧
    (∀ k, k < 32 → (target 0x2000 0x2000).strand.mask.getLsbD k = true → (target 0x2000 0x2000).cur.rd64 (.v 2) k = 0x2000) := by
  simp only [ready_iff]; decide +kernel

/-- A fork with lanes on both sides and two free slots, one with lanes on one side, and one that finds its entry busy. -/
theorem witness_ForkResults :
    let i : Instr := .fork h2 3 ⟨false, 1⟩ 12 16
    let j : Instr := .fork h2 3 ⟨false, 47⟩ 12 16
    let k : Instr := .fork h2 3 ⟨true, 47⟩ 12 16
    let free (s : State) := (List.range s.cur.strands.length).filter fun k => !(s.cur.strandAt k).valid && s.cur.openSlots.getLsbD k
    let busy : State := bG fun g => { g with forks := g.forks.set 3 { Fork.empty with busy := true } }
    let full : State := bG fun g => { g with strands := strand0 :: List.replicate 15 { strand0 with mask := 0, rank := 1 } }
    (∀ x ∈ [i, j, k], Ready x b ∧ b.strand.mask ≠ 0 ∧ b.cur.forks.length = 8 ∧ b.part x = b.strand.mask) ∧
    (b.cur.forkAt 3).busy = false ∧ b.cur.openForks.getLsbD 3 = true ∧ free b = 1 :: 2 :: (List.range 13).map (· + 3) ∧
    (b.strand.mask &&& b.cur.psrc ⟨false, 1⟩ ≠ 0 ∧ b.strand.mask &&& ~~~ b.cur.psrc ⟨false, 1⟩ ≠ 0) ∧
    b.strand.mask &&& ~~~ b.cur.psrc ⟨false, 47⟩ = 0 ∧ b.strand.mask &&& b.cur.psrc ⟨true, 47⟩ = 0 ∧
    (Ready i busy ∧ busy.part i = busy.strand.mask ∧ (busy.cur.forkAt 3).busy = true ∧ (busy.cur.forkAt 3).tend = false) ∧
    (Ready i full ∧ full.part i = full.strand.mask ∧ (free full).length < 2) ∧
    (Ready (.fork h21 3 ⟨false, 1⟩ 12 16) b ∧ b.part (.fork h21 3 ⟨false, 1⟩ 12 16) ≠ 0 ∧ b.part (.fork h21 3 ⟨false, 1⟩ 12 16) ≠ b.strand.mask) ∧
    (Ready (.fork h2N 3 ⟨false, 1⟩ 12 16) b ∧ b.part (.fork h2N 3 ⟨false, 1⟩ 12 16) = 0) := by
  simp only [ready_iff]; decide

/-- A strand in an arm of fork 3 (instance 5), with a sibling in slot 1 that is in the same arm or in the tail. -/
def inArm (side other : StrandKind) : State := bG fun g => { g with
  past := [⟨5, 3, false, 15, 16, []⟩]
  forks := g.forks.set 3 { Fork.empty with busy := true, tmask := 15, fmask := 16, inst := 5 }
  strands := [{ strand0 with kind := side, fork := 3, path := [⟨5, 3, side, 15, 16⟩] },
    { strand0 with rank := 1, kind := other, fork := 3, path := [⟨5, 3, other, 15, 16⟩], state := .joinWait }] ++ List.replicate 14 Strand.empty }

/-- A strand in a phase of fork 3 collapsed: lanes 0 to 3 took the true arm, lane 4 the false one. -/
def inPhase (phase : BitVec 2) : State := bG fun g => { g with
  past := [⟨5, 3, true, 15, 16, []⟩]
  strands := [{ strand0 with coll := [(3, phase ++ (16#32 : LaneMask) ++ (15#32 : LaneMask))], cstack := [⟨3, 5, 0x2000, 0x3000⟩] }] ++
    List.replicate 15 Strand.empty }

/-- A tail of fork 3 whose arms have published v5, v6, p2 and p3. -/
def inTail : State := bG fun g => { g with
  past := [⟨5, 3, false, 3, 12, []⟩]
  forks := g.forks.set 3 { Fork.empty with busy := true, tmask := 3, fmask := 12, inst := 5, tend := true, tpub := BitVec.allOnes 239, fend := true, fpub := BitVec.allOnes 239 }
  strands := { strand0 with kind := .tail, fork := 3, path := [⟨5, 3, .tail, 3, 12⟩] } :: List.replicate 15 Strand.empty }

/-- That phase of fork 3, with a strand in slot 1 that a fork within the phase made. -/
def phaseShared : State := bG fun g => { g with
  past := [⟨5, 3, true, 15, 16, []⟩]
  strands := [{ strand0 with coll := [(3, (0#2) ++ (16#32 : LaneMask) ++ (15#32 : LaneMask))], cstack := [⟨3, 5, 0x2000, 0x3000⟩] },
    { strand0 with mask := 0, rank := 1, cstack := [⟨3, 5, 0x2000, 0x3000⟩] }] ++ List.replicate 14 Strand.empty }

/-- A strand in the true arm of fork 3 that has gone through a collapsed FORK 3 within it, and is in that one's tail. -/
def armAfterPhase : State := bG fun g => { g with
  past := [⟨5, 3, false, 15, 16, []⟩, ⟨6, 3, true, 1, 14, [⟨5, 3, .trueArm, 15, 16⟩]⟩]
  forks := g.forks.set 3 { Fork.empty with busy := true, tmask := 15, fmask := 16, inst := 5 }
  strands := { strand0 with kind := .trueArm, fork := 3, path := [⟨5, 3, .trueArm, 15, 16⟩], cstack := [⟨3, 6, 0x2000, 0x3000⟩]
                            coll := [(3, (2#2) ++ (14#32 : LaneMask) ++ (1#32 : LaneMask))] } :: List.replicate 15 Strand.empty }

/-- In an arm alone and with another strand of it, in the arm's other side, in a phase alone and shared, past a collapsed fork within the
arm, and in no arm, whether no FORK 3 came before or the strand lies in its tail. -/
theorem witness_EndArmResults :
    (∀ s ∈ [inArm .trueArm .tail, inArm .falseArm .tail, inArm .trueArm .trueArm, armAfterPhase, inPhase 0, inPhase 1, phaseShared, b, inTail],
      Ready (.endarm h 3) s ∧ s.strand.mask ≠ 0 ∧ s.cur.forks.length = 8 ∧ s.part (.endarm h 3) = s.strand.mask) ∧
    (Governs (inArm .trueArm .tail) 3 (some (.line ⟨5, 3, .trueArm, 15, 16⟩)) ∧ Governs (inArm .falseArm .tail) 3 (some (.line ⟨5, 3, .falseArm, 15, 16⟩)) ∧
      Governs (inArm .trueArm .trueArm) 3 (some (.line ⟨5, 3, .trueArm, 15, 16⟩)) ∧ Governs armAfterPhase 3 (some (.coll ⟨2, 1, 14⟩)) ∧
      armAfterPhase.strand.lineOf 3 = some ⟨5, 3, .trueArm, 15, 16⟩) ∧
    (∀ k, k < 16 → k ≠ 0 → ((inArm .trueArm .tail).cur.strandAt k).inLine 5 .trueArm = false) ∧
    ((inArm .trueArm .trueArm).cur.strandAt 1).inLine 5 .trueArm = true ∧
    (∀ s ∈ [inPhase 0, phaseShared], Governs s 3 (some (.coll ⟨0, 15, 16⟩)) ∧ s.strand.cstack.find? (fun c => c.fork == 3) = some ⟨3, 5, 0x2000, 0x3000⟩ ∧
      s.strand.collOf (3 : Fin 8).val = some ⟨0, 15, 16⟩) ∧
    (Governs (inPhase 1) 3 (some (.coll ⟨1, 15, 16⟩)) ∧ (inPhase 1).strand.collOf (3 : Fin 8).val = some ⟨1, 15, 16⟩) ∧
    (∀ k, k < 16 → k ≠ 0 → ((inPhase 0).cur.strandAt k).valid = false) ∧ (phaseShared.cur.strandAt 1).valid = true ∧
    (⟨3, 5, 0x2000, 0x3000⟩ : CollEl) ∈ (phaseShared.cur.strandAt 1).cstack ∧ InNoArm b 3 ∧ InNoArm inTail 3 := by
  simp only [ready_iff, Governs, InNoArm]
  refine ⟨by decide, by decide, by decide, by decide, by decide, by decide, by decide, by decide, by decide, .inl (by decide), .inr ⟨⟨5, 3, .tail, 3, 12⟩, ?_⟩⟩
  decide

theorem witness_PublishAndMemdoneResults :
    (∀ i ∈ ([.pub h 3 (.v 7), .pub h 3 (.p 46), .memdone h 3] : List Instr),
      ∀ s ∈ [inArm .trueArm .tail, inArm .falseArm .tail, inPhase 0, inPhase 1, b, inTail],
        Ready i s ∧ s.strand.mask ≠ 0 ∧ s.part i = s.strand.mask) ∧
    (inArm .trueArm .tail).cur.entryOf ⟨5, 3, .trueArm, 15, 16⟩ = some { Fork.empty with busy := true, tmask := 15, fmask := 16, inst := 5 } ∧
    (inArm .falseArm .tail).cur.entryOf ⟨5, 3, .falseArm, 15, 16⟩ = some { Fork.empty with busy := true, tmask := 15, fmask := 16, inst := 5 } ∧
    Governs (inArm .trueArm .tail) 3 (some (.line ⟨5, 3, .trueArm, 15, 16⟩)) ∧ Governs (inArm .falseArm .tail) 3 (some (.line ⟨5, 3, .falseArm, 15, 16⟩)) ∧
    Governs (inPhase 0) 3 (some (.coll ⟨0, 15, 16⟩)) ∧ Governs (inPhase 1) 3 (some (.coll ⟨1, 15, 16⟩)) ∧ InNoArm b 3 ∧ InNoArm inTail 3 := by
  simp only [ready_iff, Governs, InNoArm]
  refine ⟨by decide, by decide, by decide, by decide, by decide, by decide, by decide, .inl (by decide), .inr ⟨⟨5, 3, .tail, 3, 12⟩, ?_⟩⟩
  decide

/-- In a tail, and in the tail phase of a collapsed fork: every lane's source is published; and with no governing fork, or in an arm. -/
theorem witness_JoinResults :
    (∀ i ∈ ([.join h 3 7 5 6, .join h 3 5 5 6, .joinp h 3 6 ⟨false, 2⟩ ⟨true, 47⟩] : List Instr),
      Ready i inTail ∧ Ready i (inPhase 2) ∧ Ready i b ∧ Ready i (inArm .trueArm .tail)) ∧
    (∀ l, l < 32 → (inTail.part (.join h 3 7 5 6)).getLsbD l = true → inTail.cur.gov inTail.strand 3 l = some (.line ⟨5, 3, .tail, 3, 12⟩)) ∧
    (Gov.line ⟨5, 3, .tail, 3, 12⟩).joinable ∧ (∀ n ∈ [5, 6, 194], ∀ arm, (Gov.line ⟨5, 3, .tail, 3, 12⟩).published inTail.cur arm n) ∧
    (∀ l, l < 32 → ((inPhase 2).part (.join h 3 7 5 6)).getLsbD l = true → (inPhase 2).cur.gov (inPhase 2).strand 3 l = some (.coll ⟨2, 15, 16⟩)) ∧
    (Gov.coll ⟨2, 15, 16⟩).joinable ∧ (∀ s ∈ [inTail, inPhase 2], s.cur.pendV = [] ∧ s.cur.pendX = [] ∧ s.cur.pendP = []) ∧
    ((b.part (.join h 3 7 5 6)).getLsbD 0 = true ∧ b.cur.gov b.strand 3 0 = none) ∧
    (inArm .trueArm .tail).cur.gov (inArm .trueArm .tail).strand 3 0 = some (.line ⟨5, 3, .trueArm, 15, 16⟩) ∧
    ¬ (Gov.line ⟨5, 3, .trueArm, 15, 16⟩).joinable := by
  simp only [ready_iff]
  refine ⟨by decide, by decide, rfl, by simp only [Gov.published]; decide, by decide, ?_, by decide, by decide, by decide, by simp [Gov.joinable, isArm]⟩
  simp [Gov.joinable]

theorem witness_ExitAndNopResults :
    (∀ i ∈ ([.exit h, .exit h1, .exit hN, .nop h, .nopW h2] : List Instr), Ready i b) ∧
    b.part (.exit h) = b.strand.mask ∧ b.part (.exit h1) ≠ b.strand.mask ∧ b.part (.exit h1) ≠ 0 ∧ b.part (.exit hN) = 0 ∧
    b.strand.cstack = [] ∧ b.cur.awaited b.strand true = none ∧ (∀ n, n < 16 → (b.barAt b.cur.team n).kind ≠ .hardAll) := by
  simp only [ready_iff]; decide
/-! ### Masks, barriers, lanes -/

theorem witness_MaskRegisterResults :
    (∀ i ∈ ([.mjoin h 11, .mleave h1 0, .mset h 3 (.imm 5), .mset h 3 (.reg (.v 2)), .mget h (.v 3) 1, .mget h .zr 1, .mwait h false 0 (.imm 15),
      .mwait h true 0 (.imm 15)] : List Instr), Ready i b ∧ lowLane (b.part i) = some 0 ∧ b.settledFor (b.part i) = true) ∧
    b.cur.awaited b.strand false = none ∧ (smGet b.cur.m 0 &&& b.cur.rdSrc32 (.imm 15) 0 = 0) ∧
    (smGet b.cur.m 0 &&& b.cur.rdSrc32 (.imm 15) 0 ≠ b.cur.rdSrc32 (.imm 15) 0) ∧
    ∀ i ∈ ([.mjoin hN 11, .mleave hN 0, .mset hN 3 (.imm 5), .mwait hN true 0 (.imm 15)] : List Instr), Ready i b ∧ b.part i = 0 := by
  simp only [ready_iff]; decide

/-- The state with barrier 2 of the team so. -/
def withBar (x : Bar) : State := { b with teams := [{ team0 with bars := team0.bars.set 2 x }] }

/-- Arrivals that leave an instance open (four of four threads are live, one arrives), complete it, and break each rule of R395 and R396;
a token of the open instance and of another. -/
theorem witness_BarrierResults :
    (∀ i ∈ ([.bar h1 2 .zr, .bar h 2 .zr, .bara h1 (.v 4) 2 .zr, .bara h (.v 4) 2 .zr, .barw h 2 .zr, .sbar h1 (.v 4) 2 (.v 1) .zr] : List Instr),
      Ready i b ∧ lowLane (b.part i) = some 0 ∧ b.settledFor (b.part i) = true) ∧
    b.teamAt b.cur.team = some team0 ∧ team0.bars.length = 16 ∧ b.cur.resident = true ∧ b.cur.awaited b.strand false = none ∧
    laneCount (b.part (.bar h1 2 .zr)) < b.aliveThreads ∧ b.aliveThreads ≤ laneCount (b.part (.bar h 2 .zr)) ∧
    (atD team0.bars 2 Bar.empty).inst = b.cur.rd32 .zr 0 ∧
    (∀ x ∈ [{ Bar.empty with kind := .soft, expect := 4 }, { Bar.empty with kind := .hardCount, expect := 4 },
        { Bar.empty with kind := .hardAll, arrived := 1, count := 1 }],
      (withBar x).teamAt b.cur.team = some { team0 with bars := team0.bars.set 2 x } ∧ Ready (.bar h1 2 .zr) (withBar x)) ∧
    (1#1024 &&& b.arrivals (b.part (.bar h1 2 .zr)) ≠ 0) ∧
    (let s : State := { withBar { Bar.empty with inst := 1 } with cur := { gang0 with v := [(32, 4), (33, 4), (34, 4), (35, 4)] } };
      Ready (.sbar h1 (.v 4) 2 (.v 1) (.v 1)) s ∧ (s.cur.rd32 (.v 1) 0).toNat = 4 ∧ Ready (.barw h 2 .zr) s ∧
        (s.barAt s.cur.team 2).inst ≠ s.cur.rd32 .zr 0) ∧
    (b.cur.rd32 (.v 1) 0).toNat = 0 := by
  simp only [ready_iff]; decide +kernel

theorem witness_LaneOperationResults : ∀ i ∈ ([
    .vote h (.ballot (.v 5)) ⟨true, 1⟩, .vote hN (.count (.s 5)) ⟨false, 1⟩, .vote h (.any 5) ⟨false, 1⟩, .vote h1 (.all 47) ⟨false, 1⟩,
    .shfl h .lane .n32 (.v 6) (.v 5) (.imm 31) .zr, .shfl h .near .n32 (.v 6) (.v 5) (.imm 0xFF) (.v 7), .shfl h .rot .i32 (.v 6) (.v 6) (.reg (.v 8)) (.v 5),
    .shfl h1 .xor .f32 (.v 6) (.v 5) (.reg (.v 8)) .zr, .matchI h false .f64 (.v 6) (.v 4), .matchI h true .n32 (.v 6) (.v 6), .redux h .fmax (.v 6) (.v 4),
    .redux h (.int 5 false) .zr (.v 4), .elect h (.pred 6), .elect h1 (.id (.v 6))] : List Instr), Ready i b := by
  simp only [ready_iff]; decide

/-! ### Memory instructions -/

/-- The address operand [zr + zr + off]. -/
abbrev at0 (off : BitVec 24) : GMem := ⟨.zr, .zr, off⟩
abbrev sp0 (off : BitVec 16) : SMem := ⟨.zr, .zr, off⟩

theorem witness_LoadAndPartResults :
    (∀ p ∈ ([(.ldg { h := h2, ahead := false, vec := .x4, ty := .n32, d := .v 4, m := at0 0x4000 } false ⟨0, 0⟩, 4),
        (.ldg { h := h21, ahead := false, vec := .x1, ty := .i8, d := .s 4, m := at0 0x4000 } true ⟨0, 0⟩, 1),
        (.ldc { h := h2, ahead := true, vec := .x1, ty := .n16, d := .v 4, m := at0 0x4000 } 0, 2),
        (.ldt { h := h2, ahead := false, vec := .x1, ty := .f64, d := .v 4, m := at0 0x4000 } 0, 8)] : List (Instr × Nat)),
      Ready p.1 b ∧ AccessOpen b (b.part p.1) false ∧ Aligned (b.part p.1) p.2 (fun l => GMem.addr (at0 0x4000) b.cur l)) ∧
    (RegisterFits true (.v 4) .x4 .n32 ∧ RegisterFits true (.v 4) .x1 .f64) ∧
    (∀ via ∈ [Via.view, .home, .path false, .path true], ∀ p ∈ [(4, 4), (1, 8)],
      ∃ accs u, Translates b .read (laneAccs 15 p.1 p.2 fun l => GMem.addr (at0 0x4000) b.cur l) accs u ∧
        ∀ a ∈ accs, (!u.meets (b.who 15 false) via a) = true) := by
  refine ⟨by simp only [ready_iff, AccessOpen, Aligned]; decide, ⟨⟨by decide, ?_, ?_⟩, by decide, ?_, ?_⟩, fun via hv p hp => ?_⟩
  · rintro n ⟨⟩; decide
  · rintro - n ⟨⟩
  · rintro n ⟨⟩; decide
  · rintro - n ⟨⟩
  · refine translates_with (fun u a => !u.meets (b.who 15 false) via a) ?_ ?_ <;> (revert p; revert via; decide)

/-- An access of lane 0 to word 0x1000, at 0x4000; a core whose view and paths hold that word, and one that holds nothing. -/
theorem witness_LoadParts :
    let a : LaneAcc := { mkAcc 0 0 4 0x4000 with ok := true, pa := 0x4000 }
    let who := b.who 1 false
    let c : Core := { Core.empty 0 with
      blocks := [⟨32, 0, [⟨.valid, 0x04030201, 0, 15, false⟩], 1, 0, none, 0⟩], cpath := [(0x1000, 0x04030201)], tpath := [(0x1000, 0x04030201)] }
    [a].map (c.sources who) = [[1, 2, 3, 4]].map (List.map Sup.byte) ∧ [a].map (c.pathBytes true) = [[1, 2, 3, 4]].map some ∧
    (∃ x ∈ (Core.empty 0).sources who a, ∀ y, x ≠ .byte y) ∧ (Core.empty 0).pathBytes false a = none ∧ c.rangeAfter who [a] = [] ∧
    a.pa / 512 < ({ a with pa := 0x4200 } : LaneAcc).pa / 512 := by
  refine ⟨by decide, by decide, ⟨.none, by decide, fun y h => by cases h⟩, by decide, by decide, by decide⟩

theorem witness_StoreResults :
    let i : Instr := .stg { h := h2, ahead := false, vec := .x2, ty := .n64, data := .v 4, m := at0 0x4000 } false ⟨1, 0⟩
    let j : Instr := .stg { h := h2, ahead := false, vec := .x1, ty := .i8, data := .s 1, m := at0 0x4001 } true ⟨0, 0⟩
    let k : Instr := .stg { h := h2, ahead := false, vec := .x1, ty := .n64, data := .zr, m := ⟨.s 9, .zr, 8⟩ } false ⟨0, 0⟩
    let s : State := bG fun g => { g with s := [(9, 0x01FFFFFFFFFFF000)] }
    (Ready i b ∧ AccessOpen b (b.part i) false ∧ Aligned (b.part i) 8 (fun l => GMem.addr (at0 0x4000) b.cur l) ∧ QueueRoom b (b.part i)) ∧
    (Ready j b ∧ AccessOpen b (b.part j) false ∧ Aligned (b.part j) 1 (fun l => GMem.addr (at0 0x4001) b.cur l) ∧ QueueRoom b (b.part j)) ∧
    (Ready k s ∧ AccessOpen s (s.part k) false ∧ Aligned (s.part k) 8 (fun l => GMem.addr ⟨.s 9, .zr, 8⟩ s.cur l) ∧ QueueRoom s (s.part k)) ∧
    highLane (b.part i) = some 3 ∧ (GMem.addr (at0 0x4000) b.cur 3).toNat / 4096 ≠ 0x1FFFFFFFFFFF ∧
    (GMem.addr ⟨.s 9, .zr, 8⟩ s.cur 3).toNat / 4096 = 0x1FFFFFFFFFFF ∧ ((GMem.addr ⟨.s 9, .zr, 8⟩ s.cur 3).toNat % 8 = 0 ∧ QueueRoom s (1#32 <<< 3)) ∧
    (RegisterFits false (.v 4) .x2 .n64 ∧ RegisterFits false (.s 1) .x1 .i8 ∧ RegisterFits false .zr .x1 .n64) := by
  simp only [ready_iff, AccessOpen, Aligned, QueueRoom]
  refine ⟨by decide, by decide, by decide, by decide, by decide, by decide, by decide, ⟨by decide, ?_, by simp⟩, ⟨by decide, ?_, by simp⟩, by decide, ?_, by simp⟩
  · rintro n ⟨⟩; decide
  · rintro n ⟨⟩
  · rintro n ⟨⟩

/-- Within the window of one page and at its last word; a word past its end; the remote forms with the team on logical core 0. -/
theorem witness_ScratchpadAccessResults :
    let l : LdS := { h := h2, ahead := false, vec := .x1, ty := .n32, d := .v 4, m := sp0 0xFFC }
    let l' : LdS := { l with m := sp0 0x1000 }
    let t : StS := { h := h2, ahead := false, vec := .x1, ty := .n32, data := .v 4, m := sp0 0 }
    let o (ord : Order) : Atoms := ⟨⟨h2, ord, false⟩, .int .add .n32 (.imm 1), .v 3, .zr, .zr, 0⟩
    (∀ i ∈ ([.lds l, .sts t, .ldsRemote l ⟨0, 0, 0⟩, .stsRemote t ⟨0, 0, 0⟩, .lds l', .atoms (o .none), .atoms (o .acq), .atoms (o .rel),
        .atomsRemote (o .ar) 0 0] : List Instr), Ready i b ∧ AccessOpen b (b.part i) false ∧ QueueRoom b (b.part i) ∧ b.part i = 15) ∧
    Aligned 15 4 (windowAddr l.m b) ∧ Aligned 15 4 (windowAddr t.m b) ∧ Aligned 15 4 (windowAddr l'.m b) ∧
    b.teamAt b.cur.team = some team0 ∧ InWindow team0 15 4 (windowAddr l.m b) ∧ b.remoteTeam ⟨0, 0, 0⟩ = some team0 ∧
    NoRemoteStore b 15 ∧
    (∀ place ∈ [b.teamAt b.cur.team, none], (((laneAccs 15 1 4 (windowAddr l'.m b)).filter
      fun a => !(place.any fun t => decide (a.va.toNat + a.size ≤ t.pages * 4096))).map (·.lane)) = [0, 1, 2, 3]) ∧
    (∀ m ∈ [l.m, t.m], CleanWindow b b.cur.team (laneAccs 15 1 4 (windowAddr m b))) ∧ b.anyStuck b.cur.key.core = false ∧
    b.clearBefore (b.who 15 false) = true ∧ RegisterFits true (.v 4) .x1 .n32 ∧ RegisterFits false (.v 4) .x1 .n32 := by
  simp only [ready_iff, AccessOpen, Aligned, QueueRoom, InWindow]
  refine ⟨by decide +kernel, by decide, by decide, by decide, by decide +kernel, by decide +kernel, by decide +kernel,
    fun e he => by simp [show (b.coreAt b.cur.key.core).sq = [] from rfl] at he, by decide +kernel,
    fun m _ x hx a _ w hw => by obtain rfl : team0 = x := Option.some.inj hx; simp [team0] at hw, by decide, by decide,
    ⟨by decide, ?_, ?_⟩, by decide, ?_, by simp⟩
  · rintro n ⟨⟩; decide
  · rintro - n ⟨⟩
  · rintro n ⟨⟩; decide

theorem witness_AtomicAndReductionResults :
    (∀ i ∈ ([.atom ⟨h2, .acq, false⟩ .add .n32 (.v 3) (at0 0x4000) (.v 6), .atom ⟨h2, .none, true⟩ .exch .i32 (.s 3) (at0 0x4000) .zr,
        .cas ⟨h2, .ar, false⟩ .f32 (.v 3) (sp0 0x4000) (.v 5) (.v 4), .atomf ⟨h2, .none, false⟩ .add .bf16 (.v 3) (at0 0x4000) (.v 6),
        .hop ⟨h21, .rel, false⟩ .merge .i32 (.v 3) (sp0 0x4000) (.v 6) .zr, .red h2 false (.flt .max .f32) (at0 0x4000) (.v 4),
        .redu h2 false ⟨10, false⟩ (at0 0x4000) (.v 4)] : List Instr), Ready i b ∧ AccessOpen b (b.part i) false ∧ QueueRoom b (b.part i)) ∧
    Aligned 15 4 (fun l => GMem.addr (at0 0x4000) b.cur l) ∧ Aligned 15 4 (fun l => SMem.addr (sp0 0x4000) b.cur l) ∧
    (∃ accs u, Translates b .write ((laneAccs 15 1 4 fun l => GMem.addr (at0 0x4000) b.cur l).map fun e => { e with x := b.cur.rd false (.v 6) e.lane, y := 0 })
      accs u ∧ ∀ a ∈ accs, (a.words.all fun w => !u.badWord w) = true) ∧
    ∀ a ∈ b.begin.peek (laneAccs 15 1 4 fun l => GMem.addr (at0 0x4000) b.cur l), ∀ x ∈ a.words, b.badWord x = false := by
  refine ⟨by simp only [ready_iff, AccessOpen, QueueRoom]; decide, by simp only [Aligned]; decide, by simp only [Aligned]; decide,
    translates_with (fun u a => a.words.all fun w => !u.badWord w) (by decide) (by decide), by decide⟩

/-- A gang whose third store waits for its check. -/
def unchecked : State := { b with
  nextId := 4
  cores := [{ Core.empty 0 with sq := [{ id := 3, who := b.who 15 false, slice := 0, kind := .store, order := .none, ssn := 0, pri := 0
                                         accs := [{ mkAcc 0 0 4 0x4000 with bytes := [1, 2, 3, 4] }], ty := some .n32, dst := none
                                         checked := false, held := false }] }] }

theorem witness_FenceAndRangeResults :
    (∀ i ∈ ([.fence h, .pfence h true false, .pfence h1 false true, .pfence h false false, .flush ⟨h2, .zr, 0x4000, .imm 64⟩,
      .inval ⟨h2, .zr, 0x4000, .reg .zr⟩] : List Instr), Ready i b ∧ AccessOpen b (b.part i) false ∧ lowLane (b.part i) = some 0 ∧ QueueRoom b 1) ∧
    Ready (.sdrain h) b ∧ (∀ e ∈ (b.coreAt b.cur.key.core).sq, e.checked = true) ∧ Ready (.sdrain h) unchecked ∧
    (∃ e ∈ (unchecked.coreAt unchecked.cur.key.core).sq, e.who.g = unchecked.cur.key ∧ e.kind.isStore = true ∧ e.checked = false ∧ e.id < unchecked.nextId) ∧
    Ready (.sdrain hN) b ∧ Ready (.sdrain h1) b := by
  simp only [ready_iff, AccessOpen, QueueRoom]; decide

theorem witness_PrefetchWaitAndPinResults :
    let w : WaitW := { h := h2, cc := .lt, acq := false, ty := .i32, d := .v 4, m := at0 0x4000, b := .v 6 }
    (∀ i ∈ ([.pref h2 .l1 (at0 0x4000) ⟨2, 1⟩, .pref h2 .l2 (at0 0x4000) ⟨0, 0⟩, .pref h2N .t (at0 0x4000) ⟨0, 0⟩, .waitw w] : List Instr), Ready i b) ∧
    (∀ i ∈ ([.spunpin h .zr (.imm 1), .sppin h .zr (.imm 1)] : List Instr), Ready i b ∧ lowLane (b.part i) = some 0 ∧ AccessOpen b (b.part i) false) ∧
    ((b.begin.translateAll 0 1 .read (laneAccs 15 1 1 fun l => GMem.addr (at0 0x4000) b.cur l)).1.all fun p => (match p.2 with
      | .ok pa _ => decide (pa % 2 ^ 42 < 0x8000000000)
      | _ => false) && p.1.attr.cache == 0 && ((b.coreAt 0).view (p.1.pa / 4)).isNone && ((b.coreAt 0).pathBytes true p.1).isNone) = true ∧
    AccessOpen b (b.part (.waitw w)) false ∧ Aligned 15 4 (fun l => GMem.addr (at0 0x4000) b.cur l) ∧ b.part (.waitw w) = 15 ∧
    (∃ accs u, Translates b .read (laneAccs 15 1 4 fun l => GMem.addr (at0 0x4000) b.cur l) accs u ∧
      ∀ a ∈ accs, (!u.meets (b.who 15 false) .fetch a && !u.meets (b.who 15 false) .home a) = true) ∧
    b.teamAt b.cur.team = some team0 ∧ b.pinnedPages b.cur.key.core + team0.pages ≤ 512 ∧
    (let t : Team := { team0 with held := [], unpinned := [0] }; let s : State := { b with teams := [t] };
      s.teamAt t.key = some t ∧ t.holds 0 = false ∧ s.freePage 0 = some 0 ∧ ∀ x ∈ s.teams, x.core = t.core → ∀ y ∈ x.held, y.2 ≠ 0) := by
  refine ⟨by simp only [ready_iff]; decide, by simp only [ready_iff, AccessOpen]; decide, by decide, by simp only [AccessOpen]; decide, by simp only [Aligned]; decide,
    by decide, translates_with (fun u a => !u.meets (b.who 15 false) .fetch a && !u.meets (b.who 15 false) .home a) (by decide) (by decide), by decide +kernel, by decide,
    by decide +kernel, by decide, by decide +kernel, by simp [team0]⟩

/-- The page of 0x4000 holds an uncorrectable error in its first sector. -/
def poisoned : State := { b with poison := [0x200] }

theorem witness_AccessTraps :
    let o (vec : Vec) (ty : MTy) (d : Reg) (off : BitVec 24) : Ld := { h := h2, ahead := false, vec := vec, ty := ty, d := d, m := at0 off }
    let l (o : Ld) : Instr := .ldg o false ⟨0, 0⟩
    let t (o : Ld) : Instr := .stg ⟨o.h, o.ahead, o.vec, o.ty, o.d, o.m⟩ false ⟨0, 0⟩
    let past : State := bG fun g => { g with
      strands := { strand0 with kind := .trueArm, fork := 3, path := [⟨5, 3, .trueArm, 15, 0⟩], mdone := 8 } :: List.replicate 15 Strand.empty }
    (∀ i ∈ [l (o .x4 .n64 (.v 8) 0), t (o .x4 .n64 (.v 8) 0), l (o .x4 .n32 (.v 2) 0), l (o .x1 .n32 (.v 4) 0x4001), t (o .x1 .n16 (.v 4) 0x4001)],
      Ready i b ∧ b.part i ≠ 0 ∧ QueueRoom b (b.part i)) ∧
    b.cur.awaited b.strand false = none ∧ (∀ x ∈ b.cur.holds, x.stops b (b.who 15 false) = false) ∧
    Ready (l (o .x1 .n32 (.v 4) 0)) past ∧ pastMemdone past.strand = true ∧ QueueRoom past 15 ∧ pastMemdone b.strand = false ∧
    lowLane (maskOf fun k => (15#32 : LaneMask).getLsbD k && decide ((GMem.addr (at0 0x4001) b.cur k).toNat % 4 ≠ 0)) = some 0 ∧
    (let s : State := bG fun g => { g with s := [(9, 0x01FFFFFFFFFFF001)] }
     let i : Instr := .stg { h := h2, ahead := false, vec := .x1, ty := .n64, data := .zr, m := ⟨.s 9, .zr, 8⟩ } false ⟨0, 0⟩
     Ready i s ∧ s.part i ≠ 0 ∧ QueueRoom s (s.part i) ∧ highLane (s.part i) = some 3 ∧
       (GMem.addr ⟨.s 9, .zr, 8⟩ s.cur 3).toNat / 4096 = 0x1FFFFFFFFFFF ∧ (GMem.addr ⟨.s 9, .zr, 8⟩ s.cur 3).toNat % 8 ≠ 0) ∧
    (let i := l (o .x1 .n32 (.v 4) 0x4000);
      Ready i poisoned ∧ AccessOpen poisoned (poisoned.part i) false ∧ QueueRoom poisoned (poisoned.part i) ∧
      Aligned (poisoned.part i) 4 (fun l => GMem.addr (at0 0x4000) poisoned.cur l)) ∧
    (∃ accs u, Translates poisoned .read (laneAccs 15 1 4 fun l => GMem.addr (at0 0x4000) poisoned.cur l) accs u ∧
      ∀ a ∈ accs, u.meets (poisoned.who 15 false) .view a = true) := by
  refine ⟨by simp only [ready_iff, QueueRoom]; decide, by decide, by decide, by simp only [ready_iff]; decide, by decide, by simp only [QueueRoom]; decide,
    by decide, by decide, by simp only [ready_iff, QueueRoom]; decide, by simp only [ready_iff, AccessOpen, QueueRoom, Aligned]; decide, translates_with (fun u a => u.meets (poisoned.who 15 false) .view a) (by decide) (by decide)⟩

/-! ### Engine, launch and system instructions -/

/-- A reservation ob0 (an accumulator) and ob1 of the issuing gang, of one unit each. -/
def res (id : Fin 8) (off : Nat) : Resv := { g := ⟨0, 0, 0⟩, id := id, off := off, len := 1, fmt := 0, pitch := 16, soff := 0, shr := false }

/-- A parameter block of a 1 by 1 by 1 product of FP32, A at byte 0 and B at byte 16 of ob1, accumulating from 0 in ob0. -/
def block1 : List Byte :=
  [0, 0, 0, 0, 1, 0, 0, 0, 16, 0, 0, 0, 1, 0, 0, 0] ++ List.replicate 32 0 ++ [1, 0, 0, 0, 1, 0, 0, 0, 1, 0, 0, 0, 0, 0, 3, 0] ++
    List.replicate 4 0 ++ [1, 0, 0, 0] ++ List.replicate 56 0

/-- The command of that block. -/
def cmd1 : MCmd := { MCmd.fresh .mma (b.who 15 false) with blk := block1, base := 0x4000 }

/-- The gang with both reservations, that command in its queue, and a slice with a stream. -/
def engaged (f : Gang → Gang) : State := { b with cur := f gang0, cores := [{ Core.empty 0 with resv := [res 0 0, res 1 1] }] }

/-- Statuses 0 to 3 of RESV, each check of its operands, RELV of a number not held, held, and named by a queued command. -/
theorem witness_CopyReservationResults : IsLeast {y | ∃ k, k < 1 ∧ 4096 + k * 16 ≤ y ∧ y < 4096 + k * 16 + 16 ∧ 4096 ≤ y} 4096 ∧
    (let v (off len pitch : Nat) (g : Gang) : Gang := { g with v := [(32, BitVec.ofNat 32 (len * 65536 + off)), (64, BitVec.ofNat 32 pitch)] }
    let i (shr : Bool) (n : Fin 8) : Instr := .resv h21 shr 0 n (.v 4) (.v 1) (.v 2) .zr
    (∀ s ∈ [engaged (v 0 0 16), engaged (v 2047 2 16), engaged (v 0 1 0), engaged (v 0 1 8), engaged (v 2 2046 16), engaged (v 1 1 16)],
      Ready (i false 2) s ∧ lowLane (s.part (i false 2)) = some 0) ∧
    ((engaged (v 2 2046 16)).cur.rd32 (.v 1) 0).toNat % 2 ^ 11 = 2 ∧ ((engaged (v 2 2046 16)).cur.rd32 (.v 1) 0).toNat / 2 ^ 16 % 2 ^ 12 = 2046 ∧
    (blockOf 0).isSome = false ∧ (∃ x ∈ [res 0 0, res 1 1], x.g = (engaged id).cur.key ∧ x.id = 1) ∧
    (¬ ∃ x ∈ [res 0 0, res 1 1], x.g = (engaged id).cur.key ∧ x.id = 2) ∧
    Ready (.relv h 2) (engaged id) ∧ (∀ c ∈ (engaged id).cur.mq, c.names 1 = false) ∧
    (∃ c ∈ (engaged fun g => { g with mq := [cmd1] }).cur.mq, c.names 1 = true) ∧
    (let o (sp : Bool) : Ob := ⟨h2, sp, 1, 0, .v 8, .v 9, .v 10⟩
     let w (base vsh : Word) (g : Gang) : Gang := { g with v := [(256, base), (288, 16), (320, vsh)] }
     (∀ s ∈ [engaged (w 0x4000 0x10010), engaged (w 0x4008 0x10010), engaged (w 0x4000 0x10018), engaged (w 0x4000 0x00010)],
        ∀ x ∈ [o true, o false], ∀ j ∈ [Instr.obld x, Instr.obst x], Ready j s ∧ AccessOpen s (s.part j) false ∧ lowLane (s.part j) = some 0 ∧
          QueueRoom s 1 ∧ s.cur.mq.length < 4 ∧
          (s.coreAt s.cur.key.core).resv.find? (fun r => r.g == s.cur.key && r.id.val == 1) = some (res 1 1)) ∧
     ((engaged (w 0x4000 0x10010)).cur.rd32 (.v 10) 0).toNat = 0x10010 ∧ ((engaged (w 0x4000 0x10010)).cur.rd64 (.v 8) 0).toNat % 16 = 0 ∧
     ((engaged (w 0xFF0 0x10010)).cur.rd32 (.v 8) 0).toNat + 16 ≤ team0.pages * 4096 ∧
     (∀ j ∈ [Instr.obld ⟨h2, false, 2, 0, .v 8, .v 9, .v 10⟩, .obst ⟨h2, true, 2, 0, .v 8, .v 9, .v 10⟩], Ready j (engaged (w 0x4000 0x10010))) ∧
     (∀ x ∈ ((engaged (w 0x4000 0x10010)).coreAt 0).resv, x.g = (engaged (w 0x4000 0x10010)).cur.key → x.id.val ≠ 2) ∧
     (Ready (.obld (o true)) (engaged (w 0x1000 0x10010)) ∧ ((engaged (w 0x1000 0x10010)).cur.rd32 (.v 8) 0).toNat = 4096))) := by
  refine ⟨⟨⟨0, by omega⟩, fun y ⟨_, h⟩ => h.2.2.2⟩, ?_⟩
  simp only [ready_iff, AccessOpen, QueueRoom]; (repeat' apply And.intro) <;> decide +kernel

/-- A block of zeros; one whose A, in memory, is not aligned. -/
theorem witness_MmaBlockChecks :
    (∀ blk ∈ [List.replicate 128 0, (block1.set 62 2).set 0 8],
      let c : MCmd := { cmd1 with blk := blk }
      let s : State := engaged fun g => { g with mq := [c] }
      c.who.g = s.cur.key ∧ s.cur.resident = true ∧ c.who.strand = s.curStrand ∧ s.curStrand < s.cur.strands.length ∧ (c.check s).isSome = true) ∧
    (let c : MCmd := { cmd1 with blk := (block1.set 62 2).set 0 8 }
     c.badFields = false ∧ c.badTob ((engaged id).coreAt 0) (engaged id).cur.key = false ∧ c.asrc = false ∧ leNat (c.blk.take 8) % 16 ≠ 0) ∧
    ∀ y ∈ ({ engaged id with cores := [{ Core.empty 0 with resv := [res 1 1] }] } : State).cores.flatMap (·.resv), y.id.val ≠ cmd1.acc := by
  decide +kernel

theorem witness_MatrixInstructionResults :
    let a (x : Word) (g : Gang) : Gang := { g with v := [(64, x)] }
    (∀ s ∈ [bG (a 0x4000), bG (a 0x4040)], Ready (.mma h1 (.v 2)) s ∧ AccessOpen s (s.part (.mma h1 (.v 2))) false ∧
      lowLane (s.part (.mma h1 (.v 2))) = some 0 ∧ s.cur.mq.length < 4 ∧ QueueRoom s 1) ∧
    ((bG (a 0x4000)).cur.rd64 (.v 2) 0).toNat % 128 = 0 ∧ ((bG (a 0x4040)).cur.rd64 (.v 2) 0).toNat % 128 ≠ 0 ∧
    (∃ accs u, Translates (bG (a 0x4000)) .read (laneAccs 1 32 4 fun _ => (bG (a 0x4000)).cur.rd64 (.v 2) 0) accs u ∧
      ∀ x ∈ accs, (!u.meets ((bG (a 0x4000)).who 1 false) .view x) = true) ∧
    (let s : State := engaged fun g => { g with mq := [cmd1] }
     cmd1.who.g = s.cur.key ∧ s.cur.resident = true ∧ cmd1 ∈ s.cur.mq ∧ cmd1.who.strand < s.cur.strands.length ∧ cmd1.check s = none ∧
      (∀ x ∈ s.cur.mq, x.who.seq = cmd1.who.seq → x = cmd1) ∧ (s.coreAt 0).sq.length < 24) ∧
    (let g : Gang := { gang0 with mCompleted := 3, strands := { strand0 with mmaWait := some ⟨.v 4, 15, 0, 2⟩ } :: List.replicate 15 Strand.empty }
     g.strands.length = 16 ∧ (g.strandAt 0).mmaWait = some ⟨.v 4, 15, 0, 2⟩ ∧ (∀ j, j < 16 → j ≠ 0 → (g.strandAt j).mmaWait = none) ∧
      (g.mCompleted - 2).toNat < 2 ^ 31) ∧
    (∀ i ∈ ([.mmawait h (.v 40) 3, .mqstat h (.v 41), .rowp h true (.v 42), .rowp h false (.v 42)] : List Instr),
      Ready i (engaged id) ∧ (engaged id).part i ≠ 0) ∧ (engaged id).strand.mmaWait = none ∧
    ∀ i ∈ ([.relv hN 1, .mqstat hN (.v 41), .rowp hN true (.v 42)] : List Instr), Ready i (engaged id) ∧ (engaged id).part i = 0 := by
  refine ⟨by simp only [ready_iff, AccessOpen, QueueRoom]; decide, by decide, by decide, translates_with (fun u x => !u.meets ((bG (fun g => { g with v := [(64, 0x4000)] })).who 1 false) .view x) (by decide) (by decide), by decide +kernel,
    by decide, by simp only [ready_iff]; decide, by decide, by simp only [ready_iff]; decide⟩

/-- A stream of a slice whose base and strides are multiples of 4, and one whose base is not. -/
def stream1 (base : DWord) : Stream := { base := base, strides := [4, 0, 0, 0, 4], vmask := 1, ty := some .f32, sp := false }
def slice1 (running : Bool) (base : DWord) : Slice :=
  { Slice.empty with running := running, streams := stream1 base :: Slice.empty.streams.tail }

theorem witness_AccessInstructionResults :
    let going : State := bG fun g => { g with slice := slice1 true 0x4000 }
    let set : State := bG fun g => { g with slice := slice1 false 0x4000, fq := ⟨[[(0, 7)]], []⟩ :: g.fq.tail }
    (∀ i ∈ ([.asLoop h2 3 (.imm 16), .asLoop h2 3 (.imm 0), .asLoop h2 3 (.reg (.v 7)), .asAddr h2 (.base 3 (.v 2)), .asAddr h2 (.baseSp 0 (.v 3)),
        .asAddr h2 (.str 0 4 4), .asPush h 3 .n8 (.v 2), .asEnd h, .asEndAbort h, .prom h (.v 2)] : List Instr),
      (Ready i b ∧ lowLane (b.part i) = some 0 ∧ AccessOpen b (b.part i) false ∧ QueueRoom b 1) ∧ Ready i going ∧ Ready i set) ∧
    b.cur.slice.running = false ∧ (b.cur.slice.streams[(3 : Fin 4).val]?).isSome = true ∧ going.cur.slice.running = true ∧
    (¬ ∃ x ∈ b.cur.slice.streams, x.ty.isSome = true) ∧ (∃ x ∈ set.cur.slice.streams, x.ty.isSome = true) ∧ set.cur.slice.streams.length = 4 ∧
    (0x4000#64).toNat % pushSize .f32 = 0 ∧ (∀ d ∈ (stream1 0x4000).strides, d.toNat % pushSize .f32 = 0) ∧
    (Ready (.pop h (.v 6) 0) set ∧ set.part (.pop h (.v 6) 0) ≠ 0 ∧ set.cur.fq[(0 : Fin 4).val]? = some ⟨[[(0, 7)]], []⟩ ∧
      (set.cur.pendOf (.v 6) 1 (set.part (.pop h (.v 6) 0))).all (· == 0) = true) ∧
    (Ready (.fqstat h (.v 6) 0) set ∧ set.part (.fqstat h (.v 6) 0) ≠ 0) ∧ (Ready (.pop hN (.v 6) 0) set ∧ set.part (.pop hN (.v 6) 0) = 0) ∧
    (∀ i ∈ ([.sleep h true (.s 4), .sleep h false (.v 4), .sleep h1 true (.v 4), .sleep hN true (.v 4)] : List Instr), Ready i b) ∧
    lowLane b.strand.mask = some 0 ∧ b.part (.sleep h true (.s 4)) = b.strand.mask ∧ b.part (.sleep hN true (.v 4)) = 0 ∧
    b.part (.sleep h1 true (.v 4)) ≠ 0 ∧ b.part (.sleep h1 true (.v 4)) ≠ b.strand.mask := by
  simp only [ready_iff, AccessOpen, QueueRoom]
  refine ⟨by decide +kernel, by decide, by decide, by decide, by decide, by decide, by decide, by decide, by simp [stream1, pushSize],
    by decide +kernel, by decide +kernel, by decide +kernel, by decide +kernel, by decide, by decide, by decide, by decide, by decide⟩

/-- A PROM before which a CGO store waits, stands unaccepted at its engine, or does not. -/
theorem witness_FeedAndPromiseResults :
    let w : PromWait := { seq := 5, strand := 0, d := .v 4, lanes := 15 }
    let e : SQEntry := { id := 3, who := { b.who 15 false with seq := 4 }, slice := 0, kind := .command, order := .none, ssn := 0, pri := 0
                         accs := [mkAcc 0 0 8 0x01FFFFFFFFFFF020], ty := some .n64, dst := none, checked := true, held := false }
    let s : State := bG fun g => { g with proms := [w], pendV := [(128, pendMark 5 0)] }
    s.cur.resident = true ∧ (∀ g ∈ s.gangs, g.key ≠ s.cur.key) ∧ s.cur.proms = [w] ∧ w.d = .v 4 ∧
    smGet s.cur.pendV (4 * 32 + 0) = pendMark w.seq w.strand ∧
    (e.who.g = s.cur.key ∧ e.kind = .command ∧ (∃ a ∈ e.accs, a.va.toNat % 4096 = 0x20) ∧ e.held = false ∧ e.who.seq < w.seq) ∧
    ({ s with cores := [{ Core.empty 0 with sq := [e] }] } : State).endProms.cur.proms = [w] ∧ (s.coreAt 0).sq = [] ∧
    (∀ q ∈ (s.coreAt 0).ces, q.queue = []) ∧ s.endProms.cur.proms = [] := by
  decide +kernel

/-- A launch descriptor of one team of 32 threads with 8 registers. -/
def desc1 : List Byte :=
  [0, 0x40, 0, 0, 0, 0, 0, 0, 1, 0, 0, 0, 1, 0, 0, 0, 1, 0, 0, 0, 32, 0, 1, 0] ++ List.replicate 8 0 ++ [7, 0, 0, 0, 0, 0, 0, 0] ++ List.replicate 24 0

theorem witness_LaunchResults :
    let i : Instr := .launch h (.v 4) (.v 2) none
    let a (x : Word) (g : Gang) : Gang := { g with v := [(64, x)] }
    let c : LCmd := { who := b.who 15 false, d := .v 4, lead := 0, place := none, badPlace := false, va := 0x4000, blk := desc1, need := [], entry := none }
    (∀ s ∈ [bG (a 0x4000), bG (a 0x4010), bG fun g => { a 0x4000 g with team := ⟨1, 0x90000000, 0⟩ }, bG fun g => { a 0x4000 g with gangId := 1 }],
      Ready i s ∧ AccessOpen s (s.part i) false ∧ QueueRoom s 1 ∧ (s.part i).getLsbD 0 = true) ∧
    (bG (a 0x4000)).cur.gangId = 0 ∧ b.cur.team.grid.toNat / 2 ^ 28 ≠ 9 ∧ (0x90000000 : Nat) / 2 ^ 28 = 9 ∧
    ((bG (a 0x4000)).cur.rd64 (.v 2) 0).toNat % 64 = 0 ∧ ((bG (a 0x4010)).cur.rd64 (.v 2) 0).toNat % 64 ≠ 0 ∧
    (∃ accs u, Translates (bG (a 0x4000)) .read (laneAccs 1 16 4 fun _ => (bG (a 0x4000)).cur.rd64 (.v 2) 0) accs u ∧
      ∀ x ∈ accs, (!u.meets ((bG (a 0x4000)).who 1 false) .view x) = true) ∧
    (let s : State := bG fun g => { g with launches := [c] }
     c.who.g = s.cur.key ∧ s.cur.resident = true ∧ c ∈ s.cur.launches ∧ c.who.strand < s.cur.strands.length ∧ badDescriptor c.blk = false ∧
      c.badPlace = false ∧ (∀ x ∈ s.cur.launches, x.who.seq = c.who.seq → x = c) ∧ (s.coreAt 0).sq.length < 24) ∧
    (badDescriptor (List.replicate 64 0) = true ∧ c.who.strand = b.curStrand ∧ b.curStrand < b.cur.strands.length ∧
      ({ c with badPlace := true } : LCmd).badPlace = true) ∧
    (Ready (.launchCwait h (.v 6)) b ∧ lowLane (b.part (.launchCwait h (.v 6))) = some 0) ∧
    (¬ ∃ g ∈ b.grids, g.ctx = b.cur.team.ctx ∧ g.id.toNat % 2 ^ 28 = 0) ∧
    (let s : State := { b with grids := [gridOf desc1 1 0 none none true 0] }
     Ready (.launchCwait h (.v 6)) s ∧ ∃ g ∈ s.grids, g.ctx = s.cur.team.ctx ∧ g.id.toNat % 2 ^ 28 = (s.cur.rd32 (.v 6) 0).toNat % 2 ^ 28) := by
  refine ⟨by simp only [ready_iff, AccessOpen, QueueRoom]; decide, by decide, by decide, by decide, by decide, by decide, translates_with (fun u x => !u.meets ((bG (fun g => { g with v := [(64, 0x4000)] })).who 1 false) .view x) (by decide) (by decide),
    by decide +kernel, by decide, by simp only [ready_iff]; decide, by decide, by simp only [ready_iff]; decide +kernel⟩

theorem witness_TrapAndCounterResults :
    let samp : Samp := { ctx := 1, running := true, period := 8, start := 0, ptr := 0x4000, drop := 3, last := 0, seen := 0 }
    let sampling : State := { b with
      cores := [{ Core.empty 0 with parts := { Part.empty with samp := [samp] } :: List.replicate 3 Part.empty }], ctxs := [{ ctx1 with sbuf := some (0x4000, 64), debug := 5 }]
      cur := { gang0 with v := [(32, 65535), (64, 0), (96, 65536)] } }
    (∀ i ∈ ([.trap h2 0x80000007, .bkpt h 255, .halt h, .perf h true 0 (.v 2), .perf h false 3 (.s 2), .sampctlDrop h (.v 4)] : List Instr),
      Ready i b ∧ b.part i ≠ 0) ∧
    (∀ i ∈ ([.trap h2N 0x80000007, .bkpt hN 255, .halt hN, .perf hN true 0 (.v 2)] : List Instr), Ready i b ∧ b.part i = 0) ∧
    (let r : PerfRead := { seq := 1, sel := 2, clr := true, d := .v 4, part := 15 }; ({ gang0 with perfReads := [r] } : Gang).perfReads = [r] ∧ r.d = .v 4) ∧ b.cur.resident = true ∧
    b.cur.halted = false ∧ (b.ctxAt b.cur.team.ctx = some ctx1 ∧ ctx1.debug = 0) ∧ (∃ x, sampling.ctxAt sampling.cur.team.ctx = some x ∧ x.debug ≠ 0) ∧
    (Ready (.halt h) sampling ∧ ∀ s ∈ [b, sampling], s.gangs = [] ∧ (∀ x ∈ s.teams, x.saved = [])) ∧
    (∀ i ∈ ([.sampctlStart h1 (.v 1), .sampctlStart h1 (.v 2), .sampctlStart h1 (.v 3), .sampctlStop h] : List Instr),
      Ready i sampling ∧ lowLane (sampling.part i) = some 0 ∧ Ready i b) ∧
    (sampling.coreAt 0).parts.length = 4 ∧ (sampling.ctxAt 1).bind (·.sbuf) = some (0x4000, 64) ∧ (b.ctxAt 1).bind (·.sbuf) = none ∧
    (sampling.cur.rd32 (.v 1) 0).toNat = 65535 ∧ (sampling.cur.rd32 (.v 2) 0).toNat = 0 ∧ 65536 ≤ (sampling.cur.rd32 (.v 3) 0).toNat ∧
    sampling.mySamp = some samp := by
  simp only [ready_iff]
  refine ⟨by decide, by decide, by decide, by decide, by decide, by decide +kernel, ⟨_, rfl, by decide⟩, by decide, by decide, by decide, by decide, by decide,
    by decide, by decide, by decide, by decide⟩

/-! ### Homes, the store queue, the scratchpad banks -/

theorem at_home_iff (s : State) (id : Nat) (r : OrnReq) : AtHome s id r ↔ s.orn.find? (fun x => x.id == id) = some r ∧
    s.firstFor r = true ∧ s.ownsPage (r.sector * 32) = true ∧ (∀ w ∈ r.words, w / 8 = r.sector) ∧
    (s.dirAt r.sector).eng = none ∧ (s.dirAt r.sector).uTag = 0 ∧ s.poison.contains r.sector = false :=
  ⟨fun x => ⟨x.found, x.first, x.owned, x.words, x.engines, x.updates, x.good⟩, fun x => ⟨⟨x.1, x.2.1, x.2.2.1, x.2.2.2.1, x.2.2.2.2.2.1, x.2.2.2.2.2.2⟩, x.2.2.2.2.1⟩⟩

theorem due_iff (s : State) (id : Nat) (r : OrnReq) : Due s id r ↔ s.orn.find? (fun x => x.id == id) = some r ∧
    s.firstFor r = true ∧ s.ownsPage (r.sector * 32) = true ∧ (∀ w ∈ r.words, w / 8 = r.sector) ∧
    (s.dirAt r.sector).uTag = 0 ∧ s.poison.contains r.sector = false :=
  ⟨fun x => ⟨x.found, x.first, x.owned, x.words, x.updates, x.good⟩, fun x => ⟨x.1, x.2.1, x.2.2.1, x.2.2.2.1, x.2.2.2.2.1, x.2.2.2.2.2⟩⟩

/-- An access of lane 0 to the word at 0x4000 (word 0x1000, sector 512), written through or not. -/
def acc0 (wt : Bool) : LaneAcc :=
  { mkAcc 0 0 4 0x4000 with ok := true, pa := 0x4000, bytes := [1, 2, 3, 4], x := 1, attr := { wt := wt, cache := 0, pri := 0, span := 0, pin := none } }

/-- A request of core 0 for it. -/
def req0 (kind : OrnKind) (wt : Bool) : OrnReq :=
  { id := 9, clock := 900, die := 0, pos := 0, agent := 0, core := 0, who := b.who 15 false, kind := kind, order := .none, entry := none
    sector := 512, accs := [acc0 wt], ty := some .n32, dst := some (.v 4), pri := 0, span := 0, after := [], late := false
    grp := 0, entered := none, spread := [], forced := [], done := [] }

/-- Core `n` whose view holds the word so. -/
def holding (n : Nat) (st : VState) (written : BitVec 4) : Core :=
  { Core.empty n with blocks := [⟨32, 0, [⟨st, 0x04030201, written, 15, false⟩], 1, 0, none, 0⟩] }

/-- That request at its point, with these cores and these owners of the word. -/
def atHome0 (kind : OrnKind) (wt : Bool) (cores : List Core) (owners : List Owner) : State :=
  { b with
    orn := [req0 kind wt], cores := cores
    dirs := if owners.isEmpty then [] else [{ sector := 512, owners := owners, eng := none, uTag := 0, uhold := 0, merging := false, recalled := [] }] }

/-- A store whose word nobody owns, that core 1 owns dirty, written through and not; a release; the three background moves. -/
theorem witness_RegistrationResults :
    (∀ wt ∈ [false, true], ∀ s ∈ [atHome0 .register wt [holding 0 .valid 0] [], atHome0 .register wt [holding 0 .valid 0, holding 1 .dirty 3] [⟨1, 1⟩]],
      AtHome s 9 (req0 .register wt) ∧ (req0 .register wt).done = [] ∧ (s.dirAt 512).owners.length ≤ 1 ∧ (s.coreAt 0).view 0x1000 = some ⟨.valid, 0x04030201, 0, 15, false⟩) ∧
    (acc0 false).words = [0x1000] ∧ (atHome0 .register false [holding 0 .valid 0] []).ownerOf 0x1000 = none ∧
    (let s := atHome0 .register false [holding 0 .valid 0, holding 1 .dirty 3] [⟨1, 1⟩]
     s.ownerOf 0x1000 = some 1 ∧ (s.coreAt 1).view 0x1000 = some ⟨.dirty, 0x04030201, 3, 15, false⟩) ∧
    (let s := atHome0 .release false [holding 0 .valid 0] []
     AtHome s 9 (req0 .release false) ∧ (s.dirAt 512).owners = [] ∧ (s.coreAt 0).view 0x1000 = some ⟨.valid, 0x04030201, 0, 15, false⟩ ∧
      (s.rel.filter fun y => y.home == homeOf (acc0 false).attr (4 * 0x1000)).length < 1024) ∧
    (∀ st ∈ [VState.dirty, .clean, .valid], let s : State := { atHome0 .register false [holding 0 st 0] [] with orn := [] };
      (s.coreAt 0).view 0x1000 = some ⟨st, 0x04030201, 0, 15, false⟩ ∧ s.unregistered 0 0x1000 = false) ∧
    (let s := atHome0 .register false [holding 0 .dirty 3] []
     (s.coreAt 0).view 0x1000 = some ⟨.dirty, 0x04030201, 3, 15, false⟩ ∧ s.unregistered 0 0x1000 = true ∧ s.engineOwns 0x1000 = false ∧
      (s.dirAt (0x1000 / 8)).uTag = 0 ∧ (s.dirAt (0x1000 / 8)).owners = []) := by
  simp only [at_home_iff]
  refine ⟨by decide +kernel, by decide, by decide, by decide, by decide +kernel, by decide +kernel, by decide +kernel⟩

/-- An atomic of each width that returns the word to v4. -/
theorem witness_HomeOperationValues :
    ∀ p ∈ [(MTy.n32, 4), (MTy.n64, 8)],
      let r : OrnReq := { req0 (.atomic (.int .add .n32)) false with accs := [{ acc0 false with size := p.2 }], ty := some p.1 }
      let s : State := { b with orn := [r] }
      AtHome s 9 r ∧ r.order = .none ∧ r.dst = some (.v 4) ∧ ∀ w ∈ r.words, s.ownerOf w = none := by
  simp only [at_home_iff]; decide +kernel

theorem witness_DrainAndInvalidateResults :
    let s (st : VState) (m : BitVec 4) : State := atHome0 .register false [holding 0 st m] []
    ((((s .clean 0).drainCore 0).coreAt 0).view 0x1000).isSome = true ∧
    ((s .clean 0).coreAt 0).view (0x4000 / 4) = some ⟨.clean, 0x04030201, 0, 15, false⟩ ∧ ((s .dirty 3).coreAt 0).view 0x1000 = some ⟨.dirty, 0x04030201, 3, 15, false⟩ ∧
    (((s .clean 0).invalidateCore 0).coreAt 0).view 0x1000 = some ⟨.clean, 0x04030201, 0, 15, false⟩ ∧
    (∀ w, b.unregistered 0 w = false) ∧ (∀ w, b.stuck 0 w = false) ∧ ∀ w v, (b.coreAt 0).view w = some v → v.bad = false :=
  ⟨by decide +kernel, by decide +kernel, by decide +kernel, by decide +kernel, fun _ => rfl, fun _ => rfl, fun w v h => by cases h⟩

/-- One request of each kind; a result on its way to the issuing gang, and a lane of WAITW that fetches again. -/
theorem witness_HomeReadResults :
    (∀ k ∈ [OrnKind.fetch, .pathFill false, .pathFill true, .acquireLoad, .atomic (.int .add .n32), .red (.int .add .n32)],
      AtHome (atHome0 k false [] []) 9 (req0 k false) ∧ (∀ w ∈ (req0 k false).words, (atHome0 k false [] []).ownerOf w = none ∧
        ((atHome0 k false [] []).coreAt 0).view w = none)) ∧
    ((atHome0 .fetch false [] []).coreAt 0).sq = [] ∧ ((atHome0 .fetch false [] []).coreAt 0).gone = [] ∧
    (let f : Flight := { id := 5, g := gang0.key, strand := 0, writes := [.v 4 2 7], flags := 1, seq := 3, sfu := false, words := [0x1000] }
     let o : Flight := { f with id := 4, writes := [.v 5 2 7], words := [0x1001] }
     let s : State := { b with cores := [{ Core.empty 0 with inflight := [o, f] }], cur := { gang0 with pendV := [(130, pendMark 3 0)] } }
     (s.coreAt 0).inflight.find? (fun y => y.id == 5) = some f ∧ s.cur.resident = true ∧ f.g = s.cur.key ∧
      (∀ y ∈ (s.coreAt 0).inflight.takeWhile (fun y => y.id != 5), ∀ w ∈ y.words, w ∉ f.words) ∧
      smGet s.cur.pendV (4 * 32 + 2) = pendMark f.seq f.strand) ∧
    (let w : Watch := { id := 5, who := b.who 15 false, lane := 0, va := 0x4000, pa := 0x4000, cc := .eq, ty := .n32, acq := false, cmp := 0, dst := .v 4
                        value := none, placed := false, again := true, home := 0 }
     ({ b with watches := [w] } : State).watches.find? (fun y => y.id == 5 && y.again && y.who.g.core == 0) = some w) := by
  simp only [at_home_iff]; decide +kernel

/-- Entering under the tag of ADD.f32, a contribution to a sector the core holds, and the last recall of a merge. -/
theorem witness_UpdateOnlyResults :
    (let s := atHome0 (.uEnter 10) false [] []
     AtHome s 9 (req0 (.uEnter 10) false) ∧ sectorOf (acc0 false).pa = 512 ∧ (s.dirAt 512).owners = [] ∧ (s.coreAt 0).ub = [] ∧ s.parked = [] ∧
      (Core.putUb (ubFor 0 (acc0 false) [] 0) (s.coreAt 0)).setFits (l1Set (512 / 16)) = true) ∧
    (let e : SQEntry := { id := 3, who := b.who 15 false, slice := 0, kind := .redu 10, order := .none, ssn := 0, pri := 0, accs := [acc0 false]
                          ty := some .f32, dst := none, checked := true, held := false }
     let u : UBSector := { sector := 512, tag := 10, parts := freshParts 10, home := 0, pri := 0, age := 0 }
     let d (merging : Bool) : Dir := { sector := 512, owners := [], eng := none, uTag := 10, uhold := 1, merging := merging, recalled := [] }
     let s : State := { b with cores := [{ Core.empty 0 with gone := [e], ub := [u] }], dirs := [d false] }
     (s.coreAt 0).gone.find? (fun y => y.id == 3) = some e ∧ (s.coreAt 0).earlierRedu e (acc0 false) = false ∧ (s.dirAt 512).uTag = 10 ∧
      (s.dirAt 512).merging = false ∧ s.ornWait ++ s.orn = [] ∧ s.fwd = [] ∧ s.claimsOpen 0 3 = false ∧ (∀ c ∈ s.cores, c.spq = []) ∧
      (s.coreAt 0).gone = [e] ∧ (s.coreAt 0).ub = [u] ∧
      (let m : State := { s with dirs := [d true], orn := [{ req0 .register false with kind := .askBack 0 }] }
       (m.dirAt 512).merging = true ∧ m.toRecall 512 = [0] ∧ (m.dirAt 512).uTag = 10 ∧
         ∃ r ∈ m.orn, r.kind = .askBack 0 ∧ r.sector = 512)) := by
  simp only [at_home_iff]; decide +kernel

/-- A store-queue entry of the issuing gang's lane 0. -/
def entry0 (kind : SQKind) (checked : Bool) : SQEntry :=
  { id := 3, who := { b.who 15 false with clock := 999 }, slice := 0, kind := kind, order := .none, ssn := 0, pri := 0
    accs := [if checked then acc0 false else mkAcc 0 0 4 0x4000], ty := some .n32, dst := some (.v 4), checked := checked, held := false }

def queued (e : SQEntry) (f : Gang → Gang) : State := { bG f with cores := [{ Core.empty 0 with sq := [e] }], nextId := 4 }

/-- The translation is to a page of memory; it is a fault. -/
def onPage (x : Tr) : Bool := match noDevice x with | .ok .. => true | _ => false
def offPage (x : Tr) : Bool := match noDevice x with | .fault _ => true | _ => false

/-- A core whose L1 has the word's set full of words that wait, retired and unregistered, for an engine's writes. -/
def fullSet : State :=
  let w (k : Nat) : Nat := (160 + 128 * k) * 128
  { queued (entry0 .store true) id with
    cores := [{ Core.empty 0 with
      sq := [entry0 .store true], blocks := (List.range 4).map fun k => ⟨160 + 128 * k, 0, List.replicate 128 ⟨.dirty, 0, 15, 15, false⟩, 1, 0, none, 0⟩ }]
    orn := (List.range 4).map fun k => { req0 .register false with id := 20 + k, sector := w k / 8, accs := [{ acc0 false with pa := 4 * w k }] }
    dirs := (List.range 4).map fun k =>
      { sector := w k / 8, owners := [], eng := some ⟨1, 0, 1⟩, uTag := 0, uhold := 0, merging := false, recalled := [] } }

/-- An entry of each kind that may retire, one with an earlier entry before it, a request presented; a store whose page may be written, one
whose page is not present, a record that waits with room and without. -/
theorem witness_StoreBufferResults :
    (∀ k ∈ [SQKind.release, .atomic (.int .add .n32), .red (.int .add .n32)],
      let s := queued (entry0 k true) id
      (s.coreAt 0).sq.find? (fun y => y.id == 3) = some (entry0 k true) ∧ s.mayRetire (entry0 k true) = true ∧ sectorsOf (entry0 k true).accs = [512] ∧
        ∀ a ∈ (entry0 k true).accs, s.forwards a.pa = false) ∧
    (∀ k ∈ [SQKind.matrix, .slice], let s := queued { entry0 k true with accs := [] } fun g => { g with slice := slice1 false 0x4000 }
      s.mayRetire { entry0 k true with accs := [] } = true ∧ s.cur.resident = true ∧ (entry0 k true).who.g = s.cur.key ∧
        s.cur.slice.running = false ∧ s.cur.slice.pushFrom 0 = some 0) ∧
    (let x : SQEntry := { entry0 .store false with who := { b.who 15 false with seq := 0 } }
     let e : SQEntry := { entry0 .store true with id := 7, who := { b.who 15 false with seq := 1 } }
     x.id ≠ e.id ∧ precedes x.who e.who = true) ∧
    (let s : State := { queued (entry0 .store true) id with cores := [{ holding 0 .valid 0 with sq := [entry0 .store true] }] }
     (s.coreAt 0).sq.find? (fun y => y.id == 3) = some (entry0 .store true) ∧ s.mayRetire (entry0 .store true) = true ∧
      viewWords (entry0 .store true).accs = [0x1000] ∧ (s.coreAt 0).view 0x1000 = some ⟨.valid, 0x04030201, 0, 15, false⟩ ∧
      (∀ a ∈ (entry0 .store true).accs, s.ownsPage a.pa = true) ∧ (s.coreAt 0).ub = [] ∧
      (s.storeView 0 (entry0 .store true)).storeHeld 0 (entry0 .store true) = true) ∧
    (let d : PageDir := { page := 0, st := 1, owner := 3, relrec := false, xfer := 0 }
     let s : State := { queued (entry0 .store true) id with pageDirs := [d] }
     (s.coreAt 0).sq.find? (fun y => y.id == 3) = some (entry0 .store true) ∧ ∃ a ∈ (entry0 .store true).accs, s.ownsPage a.pa = false) ∧
    (let r : OrnReq := { req0 .fetch false with who := { b.who 15 false with seq := 0 } }
     let e : SQEntry := { entry0 .store true with who := { b.who 15 false with seq := 1 } }
     r.entry = none ∧ r.ty.isSome = true ∧ precedes r.who e.who = true ∧ ∃ a ∈ r.accs, ∃ c ∈ e.accs, a.meets c = true) ∧
    ((fullSet.coreAt 0).sq.find? (fun y => y.id == 3) = some (entry0 .store true) ∧ fullSet.mayRetire (entry0 .store true) = true ∧ (∀ a ∈ (entry0 .store true).accs, fullSet.ownsPage a.pa = true) ∧
      (fullSet.storeView 0 (entry0 .store true)).storeHeld 0 (entry0 .store true) = false) ∧
    (let r : OrnReq := { req0 .register false with entered := some 900 }
     let s : State := { b with ornWait := [r] }
     s.presented r = true ∧ r.late = false) ∧
    (let s := queued (entry0 .store false) id
     let bad : State := { s with mem := [] }
     let e := entry0 .store false
     s.nextCheck s.cur.key = [e] ∧ s.cur.resident = true ∧ s.checkAhead s.cur.key e = false ∧ bad.checkAhead bad.cur.key e = false ∧ bad.nextCheck bad.cur.key = [e] ∧
      onPage (s.translate 0 1 0x4000 .write).1 = true ∧ offPage (bad.translate 0 1 0x4000 .write).1 = true) ∧
    (let k1 : GKey := { gang0.key with part := 1 }
     let x : SQEntry := { entry0 .store false with id := 2, kind := .remoteSts (some 0) }
     let e : SQEntry := { entry0 .store false with who := { (entry0 .store false).who with g := k1 } }
     let s : State := { b with gangs := [{ gang0 with key := k1 }], cores := [{ Core.empty 0 with sq := [x, e] }], nextId := 4 }
     s.nextCheck k1 = [e] ∧ s.checkAhead k1 e = true) ∧
    (let p (store : Bool) : PendRec := { store := store, found := 0, fr := ⟨0, 0, 0, 0, 0, 0⟩, g := gang0.key, strand := 0, team := gang0.team, write := false }
     (∀ x ∈ [p false, p true], ({ b with pendRecs := [x] } : State).pendRecs = [x]) ∧
      4096 ≤ (List.replicate 4096 (p true).fr).length) := by
  refine ⟨by decide +kernel, by decide +kernel, by decide, by decide +kernel, by decide +kernel, by decide, by decide +kernel, by decide +kernel, by decide +kernel,
    by decide +kernel, by decide, Nat.le_of_eq List.length_replicate.symm⟩

/-- A load, a store and an atomic at the banks of core 0, on a page that stands there. -/
theorem witness_ScratchpadBankResults :
    let r (op : SpOp) : SpReq := { src := 0, id := 5, who := b.who 15 false, team := gang0.team, op := op, order := .none
                                   accs := [{ mkAcc 0 0 4 16 with bytes := [1, 2, 3, 4] }], ty := some .n32, dst := some (.v 4), entry := none }
    (∀ op ∈ [SpOp.load, .store, .atomic (.int .add .n32)], let s : State := { b with cores := [{ Core.empty 0 with spq := [r op] }] }
      (s.coreAt 0).spq = [r op] ∧ (r op).src < 8 ∧ s.teamAt (r op).team = some team0 ∧ (∀ a ∈ (r op).accs, a.bytes.length = a.size) ∧
        ((spTurn (s.coreAt 0).spLast).findSome? fun k => ([r op].find? fun x => x.src == k).filter s.spReady) = some (r op)) ∧
    (∀ op, Standing b (r op)) ∧ ((spTurn (b.coreAt 0).spLast).findSome? fun k => ([].find? fun x : SpReq => x.src == k).filter b.spReady) = none := by
  refine ⟨by decide +kernel, fun op a ha => ?_, by decide⟩
  obtain rfl := List.mem_singleton.mp ha
  refine ⟨by decide, fun x hx p _ hp => ?_⟩
  obtain rfl : team0 = x := Option.some.inj hx
  obtain rfl : p = 0 := Nat.le_zero.mp hp
  decide
/-! ### Engines -/

theorem in_turn_iff (s : State) (core : Nat) (c : MCmd) (rest : List MCmd) : InTurn s core c rest ↔ s.cur.resident = true ∧
    s.cur.mq = c :: rest ∧ (∀ x ∈ rest, x.who.seq ≠ c.who.seq) ∧ c.who.g = s.cur.key ∧ s.cur.key.core = core ∧
    s.mxCmd core = none ∧ NoRequests s core 0 ∧ ∃ n, (slotTurn (s.coreAt core).mxLast).findSome? (fun k => ((s.slotGang core k).bind s.runnable).map fun x => (k, x)) = some (n, c) :=
  ⟨fun x => ⟨x.gang, x.queue, x.others, x.key, x.place, x.idle, x.quiet, x.turn⟩,
    fun x => ⟨x.1, x.2.1, x.2.2.1, x.2.2.2.1, x.2.2.2.2.1, x.2.2.2.2.2.1, x.2.2.2.2.2.2.1, x.2.2.2.2.2.2.2⟩⟩

/-- A transfer of one row of 16 bytes from the scratchpad to ob1, its row still to come or over. -/
def move1 (rows : Nat) : MCmd := { cmd1 with kind := .obld, sp := true, base := 16, vs := 16, vsh := 0x10010, res := 1, accepted := 1, rows := rows }

/-- A turn, begun at `since`, of a product of two steps, `rows` rows of its tile done. -/
def turnAt (since : DWord) (rows : Nat) : State :=
  let c : MCmd := { cmd1 with accepted := 1, started := true, rows := rows, blk := block1.set 56 64 }
  { bG fun g => { g with mq := [c] } with
    cores := [{ Core.empty 0 with resv := [res 0 0, res 1 1], mxTurn := some { g := gang0.key, row0 := 0, since := since, bs := some [] } }] }

/-- Its clauses but the rows done: `n` rows are due. -/
def turns (s : State) (n : Nat) : Prop :=
  s.cur.resident = true ∧ s.cur.key.core = 0 ∧ NoRequests s 0 0 ∧ ∃ c ∈ s.cur.mq, s.cur.mq = [c] ∧ c.who.g = s.cur.key ∧ c.kind = .mma ∧
    (s.coreAt 0).resvOf c.who.g c.acc = some (res 0 0) ∧ c.kstep + 1 < c.steps ∧ c.tileRows ≤ c.rows ∧
    (s.mxCmd 0).any (fun p => decide (p.2 = c ∧ p.1.due c s.clock = n) && p.1.bs.isSome) = true

/-- What the request of an engine's, or of Bridle's, point asks of the state. -/
theorem settled_of {s : State} {r : OrnReq} (none : s.ornWait = [] ∧ s.orn = [r]) (h : r.engine.isSome = true ∨ ∃ q id ty, r.kind = .push q id ty)
    (hw : ∀ w ∈ r.words, s.ownerOf w = .none ∧ s.badWord w = false) : Settled s r :=
  fun w m => ⟨(hw w m).1, (hw w m).2, fun core => by
    rw [State.unregistered, none.1, none.2]
    rcases h with h | ⟨q, id, ty, h⟩ <;> (simp [OrnReq.open]; intros; cases k : r.kind <;> simp_all [OrnReq.engine])⟩

/-- An engine's request at its point. -/
def engReq (kind : OrnKind) : State := atHome0 kind false [] []

/-- The same, the engine numbered so the sector's. -/
def engOwned (kind : OrnKind) (eng : Nat) : State :=
  { engReq kind with dirs := [{ sector := 512, owners := [], eng := some ⟨0, eng, 1⟩, uTag := 0, uhold := 0, merging := false, recalled := [] }] }

/-- A retired command; an engine's registration; a transfer and a product of one element whose turn has come; a head that is finished
and one that is not. -/
theorem witness_MatrixEngineResults :
    (let s : State := engaged fun g => { g with mq := [{ cmd1 with retired := true }] }
     s.cur.resident = true ∧ s.toAccept s.cur = some { cmd1 with retired := true } ∧ cmd1.who.g = s.cur.key ∧ cmd1.pieces = []) ∧
    (AtHome (atHome0 (.engReg 0) false [] []) 9 (req0 (.engReg 0) false) ∧ ((atHome0 (.engReg 0) false [] []).dirAt 512).owners = [] ∧
      ∀ w ∈ (req0 (.engReg 0) false).words, (atHome0 (.engReg 0) false [] []).unregistered 0 w = false) ∧
    (let r := req0 (.engRead 0) false
     AtHome (engReq (.engRead 0)) 9 r ∧ r.words ≠ [] ∧ Alone (engReq (.engRead 0)) r (fun x => x.isEng r.core 0)) ∧
    Settled (engReq (.engRead 0)) (req0 (.engRead 0) false) ∧
    (let r := req0 (.engWrite 0) false
     Due (engOwned (.engWrite 0) 0) 9 r ∧ r.accs = [acc0 false] ∧ Alone (engOwned (.engWrite 0) 0) r (fun x => x.isEng r.core 0) ∧
      ((engOwned (.engWrite 0) 0).dirAt 512).eng = some ⟨0, 0, 1⟩ ∧ ∀ w ∈ r.words, (1#8).getLsbD (w % 8) = true) ∧
    (let s : State := engaged fun g => { g with mq := [move1 0] }
     InTurn s 0 (move1 0) [] ∧ (move1 0).rows + 1 = (move1 0).rowCount ∧ s.teamAt s.cur.team = some team0 ∧
      (s.coreAt 0).resvOf (move1 0).who.g (move1 0).res.val = some (res 1 1) ∧ (move1 0).part = 0 ∧ (move1 0).rowBytes = 16 ∧
      ((move1 0).base + (move1 0).rows * (move1 0).vs + (move1 0).rowBytes - 1) / 4096 = 0 ∧ team0.holds 0 = true ∧ team0.spBad = []) ∧
    (let c : MCmd := { cmd1 with accepted := 1, started := true, blk := (block1.set 60 1).set 61 1 }
     let s : State := engaged fun g => { g with mq := [c] }
     InTurn s 0 c [] ∧ c.kind = .mma ∧ (s.coreAt 0).resvOf c.who.g c.acc = some (res 0 0) ∧ c.asrc = true ∧
      (s.coreAt 0).resvOf c.who.g (c.aaddr / 2 ^ 32 % 8) = some (res 1 1) ∧ blockOf c.afmt = none ∧ c.bsrc = true ∧
      (s.coreAt 0).resvOf c.who.g (c.baddr / 2 ^ 32 % 8) = some (res 1 1) ∧ blockOf c.bfmt = none ∧ c.m = 1 ∧ c.n = 1 ∧ c.tile = 0 ∧
      c.rows = 0 ∧ c.kstep < c.steps ∧ c.turnTime ≤ 64 ∧ (s.coreAt 0).tobBad = []) ∧
    turns (turnAt 800 64) 64 ∧ turns (turnAt 937 1) 32 ∧ (∀ s ∈ [turnAt 800 64], ∀ c ∈ s.cur.mq, c.rows = 64) ∧
    (∀ s ∈ [turnAt 937 1], ∀ c ∈ s.cur.mq, c.rows < 32) ∧
    ∀ p ∈ [(1, true), (0, false)], let s : State := engaged fun g => { g with mq := [move1 p.1] }
      s.cur.resident = true ∧ s.cur.mq = [move1 p.1] ∧ (move1 p.1).accepted ≠ 0 ∧ (move1 p.1).finished = p.2 ∧
        s.engWriting 0 0 (move1 p.1).who = false ∧ (s.coreAt 0).mxTurn = none := by
  simp only [at_home_iff, in_turn_iff, due_iff, Alone, turns, NoRequests]
  refine ⟨by decide +kernel, by decide +kernel, by decide +kernel, settled_of ⟨rfl, rfl⟩ (.inl rfl) (by decide +kernel), by decide +kernel,
    ⟨⟨by decide, by decide, by simp, by decide, by decide, by decide, by decide, 0, by decide +kernel⟩, by decide +kernel⟩,
    ⟨⟨by decide, by decide, by simp, by decide, by decide, by decide, by decide, 0, by decide +kernel⟩, by decide +kernel⟩, by decide +kernel,
    by decide +kernel, by decide, by decide, by decide +kernel⟩

/-- The physical address a translation gives. -/
def paOf (x : Tr) : Option Nat := match noDevice x with | .ok pa _ => some pa | _ => none

/-- A running slice of one stream, in the scratchpad or in memory. -/
def pushing (sp : Bool) : State :=
  bG fun g => { g with slice := { slice1 true 0 with who := b.who 15 false, streams := { stream1 (if sp then 16 else 0x4000) with sp := sp } :: Slice.empty.streams.tail } }

/-- Such slices, and a push whose elements have returned, the last one or not. -/
theorem witness_AccessEngineResults :
    (∀ sp ∈ [true, false], (pushing sp).orn = [] ∧ (pushing sp).cur.resident = true ∧ (pushing sp).cur.key.core = 0 ∧
      (slotTurn ((pushing sp).coreAt 0).brLast).findSome? (fun k => (((pushing sp).slotGang 0 k).filter fun g => g.pushReady && !(pushing sp).leaving g.team).map fun g => (k, g)) =
        some (0, (pushing sp).cur) ∧
      (pushing sp).cur.slice.streams[(pushing sp).cur.slice.q]? = some { stream1 (if sp then 16 else 0x4000) with sp := sp } ∧
      (pushing sp).cur.fq[(pushing sp).cur.slice.q]? = some ⟨[], []⟩) ∧
    (let x : Stream := { stream1 16 with sp := true }
     x.ty = some .f32 ∧ x.vmask ≠ 0 ∧ lanesOf x.vmask = [0] ∧ ((pushing true).cur.slice.addr x 0).toNat + pushSize .f32 ≤ (pushing true).windowOf (pushing true).cur ∧
      team0.spBad = []) ∧
    (let x : Stream := { stream1 0x1000 with sp := true }
     let s : State := bG fun g => { g with slice := { slice1 true 0 with who := b.who 15 false, streams := x :: Slice.empty.streams.tail } }
     ((lanesOf x.vmask).filter fun l => decide (s.windowOf s.cur < (s.cur.slice.addr x l).toNat + pushSize .f32)) = [0] ∧ s.faultQ.length < 4096 ∧
      s.pendRecs = [] ∧ (s.cur.slice.streams[s.cur.slice.q]? = some x)) ∧
    (let s := pushing false
     paOf (({ s with nextId := s.nextId + 1 } : State).translate 0 s.cur.slice.who.ctx
        (s.cur.slice.addr (stream1 0x4000) 0) .read).1 = some 0x4000) ∧
    (pushing false).cur.slice.who.g = (pushing false).cur.key ∧
    (let k : OrnKind := .push 0 5 .f32
     let r := req0 k false
     let p : Push := ⟨5, [], false, [0]⟩
     let s : State := { engReq k with cur := { gang0 with fq := ⟨[], [p]⟩ :: gang0.fq.tail } }
     AtHome s 9 r ∧ r.accs = [acc0 false] ∧ r.who.g = s.cur.key ∧
      Alone s r (fun x => x.core == r.core && match x.kind with | .push .. => true | _ => false) ∧ s.cur.fq[0]? = some ⟨[], [p]⟩) ∧
    (let k : OrnKind := .push 0 5 .f32; Settled { engReq k with cur := { gang0 with fq := ⟨[], [⟨5, [], false, [0]⟩]⟩ :: gang0.fq.tail } } (req0 k false)) ∧
    (∀ fin ∈ [false, true],
      let p : Push := ⟨5, [(0, 7)], true, []⟩
      let s : State := bG fun g => { g with fq := ⟨[], [p]⟩ :: g.fq.tail, slice := { slice1 true 0 with finished := fin } }
      s.cur.resident = true ∧ s.cur.fq[(0 : Fin 4).val]? = some ⟨[], [p]⟩ ∧ s.cur.slice.finished = fin ∧
        ∀ x ∈ s.cur.fq.tail, x.inflight = []) := by
  simp only [at_home_iff, Alone]
  refine ⟨by decide +kernel, by decide +kernel, by decide +kernel, by decide +kernel, by decide, by decide +kernel,
    settled_of ⟨rfl, rfl⟩ (.inr ⟨_, _, _, rfl⟩) (by decide +kernel), by decide +kernel⟩

/-- The registers of a copy of 64 bytes from 0x4000 to 0x5000, of a gather, a scatter and a reduce-copy of one element (R381). -/
def cq0 (op : Nat) : SMap 64 :=
  [(0, 0x4000), (1, 0x5000), (3, BitVec.ofNat 64 (op * 2 ^ 60 + (if op = 3 then 10 * 2 ^ 56 + 2 * 2 ^ 53 + 4 else if op = 0 then 64 else 1)))]

/-- A store to the command page, at a command register's offset or at CGO's, that may retire. -/
def cmd0 (off : Nat) : SQEntry :=
  { entry0 .command false with
    checked := true, accs := [{ mkAcc 0 0 8 (0x01FFFFFFFFFFF000 + BitVec.ofNat 64 off) with ok := true, bytes := [0, 0, 0, 0, 0, 0, 0, 0] }] }

/-- A copy that its engine has taken: `read` bytes of it read. -/
def ce0 (accepted : Bool) (read : Nat) (buf : List (Nat × List Byte)) : CeCmd :=
  { cqCommand (b.who 15 false) 3 (cq0 0) with accepted := accepted, promise := 900, read := read, buf := buf }

def copying (c : CeCmd) : State := { b with cores := [{ Core.empty 0 with ces := [⟨[c], 0⟩, ⟨[], 0⟩] }] }

theorem witness_CopyEngineResults :
    (let s := queued (cmd0 16) id
     s.cmdEntry 0 3 = some (cmd0 16) ∧ (cmd0 16).isCommand = false ∧ (cmd0 16).who.g = s.cur.key ∧ s.cur.resident = true ∧ (cmd0 16).cmdOffset / 8 < 4) ∧
    (∀ op ∈ [0, 1, 2, 3], let s := queued (cmd0 32) fun g => { g with cq := cq0 op, cqWritten := 15 }
      s.cgoEntry 0 3 = some (cmd0 32) ∧ cgoRefused s.cur (cmd0 32).cmdValue = false ∧ (cqCommand (cmd0 32).who 3 s.cur.cq).op = op ∧
        (s.coreAt 0).ces[cgoEngine (s.coreAt 0) (cmd0 32).cmdValue]? = some ⟨[], 0⟩ ∧ ([] : List CeCmd).length < 16) ∧
    (let c := ce0 false 0 []
     let s := copying c
     (s.coreAt 0).ces[0]? = some ⟨[c], 0⟩ ∧ (⟨[c], 0⟩ : CopyEng).toAccept = some c ∧ s.cur.resident = true ∧ c.who.g = s.cur.key ∧
      c.who.team = s.cur.team) ∧
    (let c := ce0 true 0 []
     let s := copying c
     let y : EngIn := { eng := 1, g := c.who.g, seq := c.who.seq, pa := 0x4000, n := 1, bytes := some [7] }
     c.faulted = false ∧ c.accepted = true ∧ c.who.g.core = 0 ∧ c.op = 0 ∧ c.esize = 0 ∧ c.mayRead = true ∧ s.registered c.pieces (some c.entry) = true ∧
      NoRequests s 0 1 ∧ (s.coreAt 0).engIn = [] ∧
      ([y].filter fun e => e.eng == 1 && e.g == c.who.g && e.seq == c.who.seq) = [y] ∧
      paOf (s.translate 0 c.who.ctx 0x4000 .read).1 = some 0x4000) ∧
    (let a : LaneAcc := { acc0 false with va := 0x5000, pa := 0x4000 }
     let r : OrnReq := { req0 (.engWrite 1) false with accs := [a] }
     let c := { ce0 true 4 [(0x5000, [1, 2, 3, 4])] with writing := true }
     let s : State := { engOwned (.engWrite 1) 1 with orn := [r], cores := [{ Core.empty 0 with ces := [⟨[c], 0⟩, ⟨[], 0⟩] }] }
     Due s 9 r ∧ Alone s r (fun x => x.isEng r.core 1) ∧ (s.dirAt 512).eng = some ⟨0, 1, 1⟩ ∧ (∀ w ∈ r.words, (1#8).getLsbD (w % 8) = true) ∧
      (s.coreAt 0).ces[0]? = some ⟨[c], 0⟩ ∧ c.who.g = r.who.g ∧ c.who.seq = r.who.seq ∧ c.op ≠ 3 ∧ c.buf = [(a.va.toNat, a.bytes)]) ∧
    (let c := ce0 true 4 [(0x5000, [1, 2, 3, 4])]
     let s := copying c
     s.ceMayWrite c = true ∧ c.writing = false ∧ NoRequests s 0 1 ∧ paOf (s.translate 0 c.who.ctx 0x5000 .write).1 = some 0x5000) ∧
    (copying (ce0 true 64 [])).ceDone (ce0 true 64 []) = true ∧
    (let c := ce0 true 4 []
     let s := copying c
     c.missed = false ∧ c.promise ≤ s.clock ∧ s.ceDone c = false ∧ s.faultQ.length < 4096 ∧ s.pendRecs = []) := by
  simp only [due_iff, Alone, NoRequests]
  refine ⟨by decide +kernel, by decide +kernel, by decide +kernel, by decide +kernel, by decide +kernel, by decide +kernel, by decide +kernel,
    by decide +kernel⟩

/-! ### Placement, scheduling, debug -/

/-- A grid of the test descriptor, and a LAUNCH of the issuing gang with its entry retired. -/
def grid0 : Grid := gridOf desc1 1 0 none none true 0
def launching : State :=
  { bG fun g => { g with launches := [{ who := b.who 15 false, d := .v 4, lead := 0, place := none, badPlace := false, va := 0x4000, blk := desc1
                                        need := [], entry := some 3 }] } with
    cores := [{ Core.empty 0 with gone := [{ entry0 .launch true with accs := [] }] }] }

theorem witness_PlacementResults :
    (let s : State := { b with grids := [grid0], teams := [], cur := Gang.empty }
     s.ctxAt 1 = some ctx1 ∧ s.nextPlace ctx1 = some (grid0, 0) ∧ s.served 1 = true ∧ s.boundaryWaits grid0 = false ∧ grid0.pages ≤ (s.unusedPages 0).length ∧
      s.teamAt ⟨ctx1.num, grid0.id, teamId (grid0.point grid0.placed)⟩ = none ∧
      ((gang0.key, 0) ∈ (s.teamPlaces 0 ((grid0.threads + 31) / 32)).zipIdx)) ∧
    (let s : State := { fullSet with grids := [grid0] }
     s.ctxAt 1 = some ctx1 ∧ s.nextPlace ctx1 = some (grid0, 0) ∧ grid0.host = true ∧ grid0.placed = 0 ∧
      ∃ c ∈ s.cores, ∃ w ∈ (s.coreAt c.num).wordsIn .dirty, s.engineOwns w = true ∧ s.unregistered c.num w = true) ∧
    (let two : Ctx := { ctx1 with num := 2 }
     let s : State := { b with grids := [grid0, { grid0 with ctx := 2 }], ctxs := [ctx1, two], lastServed := 1 }
     s.ctxAt 1 = some ctx1 ∧ s.nextPlace ctx1 = some (grid0, 0) ∧ two ∈ s.ctxs ∧ (s.nextPlace two).isSome = true ∧
      (two.num + 31 - s.lastServed % 32) % 32 < (1 + 31 - s.lastServed % 32) % 32) ∧
    (let g : Grid := { grid0 with pages := 513 }
     let s : State := { b with grids := [g] }
     ctx1.waitGrid = none ∧ s.turnGrid ctx1 = some g ∧ s.inTurn ctx1 0 = true ∧ g.place = none ∧
      ∀ c, c < 256 → s.fits ctx1 g c = false ∧ (s.inTurn ctx1 c = true → s.mayRun ctx1 c = true)) ∧
    (let x : Ctx := { ctx1 with waitGrid := some 0 }
     ({ b with ctxs := [x] } : State).ctxAt 1 = some x ∧ x.retry = false) ∧
    ((b.teamAt gang0.team = some team0 ∧ team0.started = true) ∧
      (let x : Team := { team0 with started := false }
       let img : CodeImg := ⟨1, ⟨0, 0x1020, 0, 0⟩, 0⟩
       let s (h : List CodeImg) : State := { b with teams := [x], grids := [{ grid0 with entry := 0x1000 }], codeHeap := h }
       (s []).teamAt gang0.team = some x ∧ x.placedAt.toNat + 64 ≤ (s []).clock.toNat ∧ ({ s [] with clock := 63 } : State).clock.toNat < x.placedAt.toNat + 64 ∧
        (s []).kernelWindows x = [] ∧ (s [img]).kernelWindows x = [0x1000] ∧ ((s [img]).coreAt x.core).line 1 0x1000 = none ∧
        paOf (((s [img]).modTeam gang0.team fun y => { y with started := true }).translate x.core 1 (BitVec.ofNat 64 0x1000) .fetch).1 = some 0x1000 ∧
        (s [img]).ownsPage 0x1000 = true ∧ ((s [img]).dirAt (0x1000 / 32)).eng = none ∧ ((s [img]).dirAt (0x1000 / 32)).uTag = 0 ∧
        (s [img]).poison.contains (0x1000 / 32) = false ∧
        (let l : ILine := ⟨1, 0x1000, 0⟩; let w : State := { s [img] with cores := [{ Core.empty 0 with ibuf := [⟨1, 0x2000, 0⟩, l] }] }
         w.kernelWindows x = [0x1000] ∧ (w.coreAt x.core).line 1 0x1000 = some l ∧ l ∈ (w.coreAt x.core).ibuf))) ∧
    ((launching.coreAt 0).gone.find? (fun y => y.id == 3 && y.kind == .launch) = some { entry0 .launch true with accs := [] } ∧
      ((launching.gangAt gang0.key).launches.find? (fun y => y.entry == some 3)).isSome = true ∧ launching.ctxAt 1 = some ctx1 ∧
      launching.serialLive 1 ctx1.serial = false ∧ launching.grids.length < 1024) ∧
    (let s : State := bG fun g => { g with live := 0 }
     s.teamAt gang0.team = some team0 ∧ team0.preempted = false ∧ (∀ g ∈ s.teamGangs gang0.team, g.live = 0) ∧
      s.teamQuiet gang0.team team0.core = true ∧ s.anyStuck team0.core = false) ∧ fullSet.anyStuck 0 = true ∧
    ∃ g ∈ b.teamGangs gang0.team, g.live ≠ 0 := by
  refine ⟨by decide +kernel, by decide +kernel, by decide +kernel, by decide +kernel, by decide +kernel, by decide +kernel, by decide +kernel, by decide +kernel,
    by decide +kernel, by decide +kernel⟩

/-- The device with the window at 0x1000 in core 0's instruction buffer: FADD of registers in each of its words. -/
def warm (f : Gang → Gang) : State :=
  { bG f with cores := [{ Core.empty 0 with ibuf := [⟨1, 0x1000, 0⟩], ces := [⟨[ce0 true 0 []], 0⟩, ⟨[], 0⟩] }] }

/-- The strand at 0x1000 sleeps until a cycle. -/
def asleep (w : Nat) (g : Gang) : Gang := { g with strands := { strand0 with state := .sleeping, waitOn := .wake (BitVec.ofNat 64 w) } :: g.strands.tail }

theorem witness_SchedulingResults :
    (let s := warm fun g => { g with strands := strand0 :: { strand0 with mask := 0xF0, rank := 1 } :: g.strands.tail.tail }
     ((s.picks 0 0 []).map (·.2) = [0, 1] ∧ (s.picks 0 0 [(gang0.key, 0)]).map (·.2) = [1] ∧ (s.picks 0 0 [(gang0.key, 0), (gang0.key, 1)]) = [])) ∧
    (let s := warm fun g => { g with strands := { strand0 with waitCount := 64 } :: g.strands.tail }
     (s.coreAt 0).parts[0]? = some Part.empty ∧ ∃ q ∈ s.readyIn 0 0, 64 ≤ (q.1.strandAt q.2).waitCount) ∧
    ((atD ((warm id).coreAt 0).parts 0 Part.empty).swapAt ≠ some (warm id).clock ∧
      ({ Part.empty with swapAt := some b.clock } : Part).swapAt = some b.clock) ∧
    (let s := warm fun g => { g with active := false, pendingFor := 2048 }
     (∃ g ∈ s.partGangs 0 0, s.pendingReady g = true) ∧ ((s.partGangs 0 0).filter (·.active)).length < 8) ∧
    (let s : State := { warm (fun g => { g with active := false, pendingFor := 2048 }) with
        gangs := (List.range 8).map fun k => { gang0 with key := ⟨0, 0, k + 1⟩, strands := List.replicate 16 Strand.empty } }
     (∃ g ∈ s.partGangs 0 0, s.pendingReady g = true ∧ 2048 ≤ g.pendingFor) ∧ 8 ≤ ((s.partGangs 0 0).filter (·.active)).length ∧
      (∃ a ∈ s.partGangs 0 0, a.active = true ∧ a.swappable = true) ∧ (s.lastActive (s.partGangs 0 0)).isSome = true) ∧
    (∀ w ∈ [2000, 899, 900], let s := warm (asleep w)
      s.cur.resident = true ∧ 0 < s.cur.strands.length ∧ (s.cur.strandAt 0).state = .sleeping ∧ (s.cur.strandAt 0).waitOn = .wake (BitVec.ofNat 64 w)) ∧
    (warm (asleep 2000)).clock < 2000 ∧ 900 ≤ (warm (asleep 900)).clock ∧ (warm (asleep 899)).promiseOpen gang0.key 899 = false ∧
    (warm (asleep 900)).promiseOpen gang0.key 900 = true ∧
    (let x : Bar := { Bar.empty with kind := .soft, deadline := 1000 }
     let tm : Team := { team0 with bars := team0.bars.set 2 x }
     (withBar x).teamAt gang0.team = some tm ∧ tm.preempted = false ∧ tm.bars[(2 : Fin 16).val]? = some x ∧ x.deadline ≠ 0 ∧ x.deadline ≤ (withBar x).clock) ∧
    (paOf (b.translate 0 1 (BitVec.ofNat 64 (0x1000 / 32 * 32)) .fetch).1 = some 0x1000 ∧ b.ownsPage 0x1000 = true ∧
      (b.dirAt (0x1000 / 32)).eng = none ∧ (b.dirAt (0x1000 / 32)).uTag = 0 ∧ b.poison.contains (0x1000 / 32) = false) ∧
    (let s : State := { b with poison := [0x1000 / 32] }
     paOf (s.translate 0 1 (BitVec.ofNat 64 (0x1000 / 32 * 32)) .fetch).1 = some 0x1000 ∧ s.ownsPage 0x1000 = true ∧
      (s.dirAt (0x1000 / 32)).eng = none ∧ (s.dirAt (0x1000 / 32)).uTag = 0 ∧ s.poison.contains (0x1000 / 32) = true ∧ s.cur.resident = true ∧
      s.fetchers 0 1 0x1000 = [(s.cur.key, 0)] ∧ s.faultQ.length < 4096 ∧ s.pendRecs = []) ∧
    (let s : State := { b with mem := [] }
     offPage (s.translate 0 1 (BitVec.ofNat 64 (0x1000 / 32 * 32)) .fetch).1 = true ∧ s.cur.resident = true ∧
      s.fetchers 0 1 0x1000 = [(s.cur.key, 0)] ∧ s.faultQ.length < 4096 ∧ s.pendRecs = []) := by
  decide +kernel

/-- A context whose debug right session 5 holds, with a sample buffer. -/
def debugged (f : Gang → Gang) : State := { bG f with ctxs := [{ ctx1 with debug := 5, sbuf := some (0x4000, 64) }] }

/-- A state whose page 0 another device owns. -/
def away (s : State) : State := { s with pageDirs := [{ page := 0, st := 1, owner := 3, relrec := false, xfer := 0 }] }

theorem witness_DebugAndSampleResults :
    (∀ halted ∈ [false, true],
      let s := debugged fun g => { g with halted := halted }
      s.cur.resident = true ∧ (∃ x, s.ctxAt s.cur.team.ctx = some x ∧ x.debug ≠ 0) ∧ s.cur.halted = halted ∧ s.partGangs 0 0 = [s.cur] ∧
        (s.coreAt 0).parts[0]? = some Part.empty ∧ (s.cur.strandAt 0).valid = true ∧ s.gangs = [] ∧ (∀ y ∈ s.teams, y.saved = []) ∧
        s.cur.nregs = 64 ∧ s.cur.strands.length = 16 ∧ s.cur.forks.length = 8) ∧
    (let s : State := { debugged id with cores := [{ Core.empty 0 with parts := { Part.empty with stopped := some 1 } :: List.replicate 3 Part.empty }] }
     s.partGangs 0 0 = [s.cur] ∧ (s.coreAt 0).parts[0]? = some { Part.empty with stopped := some s.cur.team.ctx }) ∧
    paOf ((debugged id).translate 0 1 0x4000 .read).1 = some 0x4000 ∧ (debugged id).codePa 1 0x1000 = some 0x1000 ∧
    (∃ x, (debugged id).ctxAt 1 = some x ∧ ∀ k ∈ x.breaks, k.va ≠ 0x1000) ∧
    ((debugged id).ownsPage 0x1000 = true ∧ (debugged id).ownsPage 0x4000 = true ∧ (away (debugged id)).ownsPage 0x1000 = false ∧
      (away (debugged id)).codePa 1 0x1000 = some 0x1000 ∧ b.partGangs 0 1 = []) ∧
    (∀ c, ((debugged id).dirAt c).uTag = 0 ∧ ((debugged id).dirAt c).owners = []) ∧ (b.ctxAt b.cur.team.ctx = some ctx1 ∧ ctx1.debug = 0 ∧
      b.cur ∈ b.partGangs 0 0 ∧ (b.coreAt 0).parts[0]? = some Part.empty) ∧
    ∀ ptr ∈ [0x4030, 0x4040],
      let x : Samp := { ctx := 1, running := true, period := 8, start := 0, ptr := ptr, drop := 3, last := 0, seen := 0 }
      let s : State := { debugged id with cores := [{ Core.empty 0 with parts := { Part.empty with samp := [x] } :: List.replicate 3 Part.empty }] }
      x.seen ≠ s.clock ∧ x.late = [] ∧ s.ownsPage 0x4030 = true ∧ (away s).ownsPage 0x4030 = false ∧
        paOf ((away s).translate 0 1 (BitVec.ofNat 64 0x4030) .write).1 = some 0x4030 ∧
        (let y : Samp := { x with running := false, late := [(0x4020, [1, 2])] }; y.running = false ∧ y.stopAt = none ∧ s.ownsPage 0x4020 = true) ∧ (s.clock.toNat - x.start.toNat) % x.period = 0 ∧ (s.ctxAt x.ctx).bind (·.sbuf) = some (0x4000, 64) ∧
        ((List.range 16).map fun k => (x.last + 1 + k) % 16).findSome?
          (fun n => ((s.partGangs 0 0).filter fun g => g.team.ctx == x.ctx).find? fun g => g.key.slot == n) = some gang0 ∧
        (0x4000 + 64 < x.ptr + 16 ↔ ptr = 0x4040) ∧ (ptr = 0x4030 → paOf (s.translate 0 1 (BitVec.ofNat 64 ptr) .write).1 = some ptr) := by
  refine ⟨?_, by decide +kernel, by decide +kernel, by decide +kernel, ⟨_, rfl, by decide⟩, by decide +kernel, fun c => ⟨rfl, rfl⟩, by decide +kernel, by decide +kernel⟩
  intro halted h
  simp only [List.mem_cons, List.not_mem_nil, or_false] at h
  rcases h with rfl | rfl
  · exact ⟨by decide, ⟨_, rfl, by decide⟩, by decide +kernel⟩
  · exact ⟨by decide, ⟨_, rfl, by decide⟩, by decide +kernel⟩

/-! ### Pages between devices, links, shootdowns -/

theorem witness_PageOwnershipResults :
    (let s : State := { b with pageWaits := [(3, 7)] }
     s.pageWaits.find? (fun w => w.1 == 3) = some (3, 7) ∧ (s.pageDirAt 3).st ≠ 2 ∧ (s.pageDirAt 3).owner ≠ 7) ∧
    (let s : State := { b with pageWaits := [(3, 7)], pageDirs := [{ page := 3, st := 2, owner := 0, relrec := false, xfer := 0 }] }
     isRemote (3 * 65536) = false ∧ (s.pageDirAt 3).st = 2 ∧ (s.pageDirAt 3).owner = s.devNum ∧ (s.pageDirAt 3).granted = none ∧ 7 ≠ s.devNum ∧
      s.pageWaits.find? (fun w => w.1 == 3) = some (3, 7) ∧ s.dirs = [] ∧ s.rel = [] ∧ s.giving = []) ∧
    (∀ c ∈ b.cores, c.wordsIn .dirty = []) ∧
    (let d : Dir := { Dir.empty 6144 with eng := some { core := 0, eng := 0, mask := 1 } }
     d ∈ ({ b with dirs := [d] } : State).dirs ∧ d.sector / 2048 = 3 ∧ d.eng.isSome = true) ∧
    (let d : PageDir := { page := 3, st := 2, owner := 9, relrec := false, xfer := 0 }
     let s : State := { b with pageWaits := [(3, 7)], pageDirs := [d] }
     (s.pageDirAt 3).owner = 9 ∧ (s.pageDirAt 3).st = 2 ∧ (s.pageDirAt 3).granted = none ∧ 7 ≠ s.devNum ∧
       s.pageWaits.find? (fun w => w.1 == 3) = some (3, 7) ∧ (({ s with pageDirs := [{ d with granted := some 7 }] } : State).pageDirAt 3).granted = some 7 ∧
       ({ s with giving := [(3, [5])] } : State).giving.find? (fun g => g.1 == 3) = some (3, [5])) ∧
    (let p := (512 + 5) * 2 ^ 26 + 3
     b.dirs = [] ∧ b.rel = [] ∧ b.giving = [] ∧ p ∈ ({ b with pageAsked := [p] } : State).pageAsked) ∧
    (let p := 2 ^ 35 + 5 * 2 ^ 26 + 3
     let s : State := { b with pageRecalls := [p], ownedRemote := [p] }
     isRemote (p * 65536) = true ∧ p ∈ s.pageRecalls ∧ p ∈ s.ownedRemote ∧ s.dirs = [] ∧ s.rel = [] ∧ s.giving = []) ∧
    (let o : RemOp := { id := 1, dev := 7, pa := 0x4000, op := .int .add .n32, x := 1, y := 0, order := .acq }
     let s : State := { b with remoteOps := [o] }
     s.remoteOps = [o] ∧ s.orn = [] ∧ s.ornWait = [] ∧
       (req0 (.remote 2 7 (.int .add .n32)) false).sector * 32 / 65536 = o.pa / 65536) ∧
    (∀ ord ∈ [Order.none, .acq, .ar], let r : OrnReq := { req0 (.remote 1 7 (.int .add .n32)) false with order := ord }
     let s : State := { b with orn := [r] }
     s.orn.find? (fun x => match x.kind with | .remote .. => true | _ => false) = some r ∧ AtHome s r.id r ∧
      (∀ w ∈ (acc0 false).words, s.ownerOf w = none) ∧ s.rel = []) := by
  simp only [at_home_iff]
  refine ⟨by decide +kernel, by decide +kernel, by decide +kernel, by decide +kernel, ?_⟩
  decide +kernel

/-- A device of a domain of two, with link 0 up to device 7. -/
def joined : State :=
  { b with
    domain := 9, members := 129, links := [{ Link.empty with replay := 4, tdrop := 5, peer := 7, lanes := 8, state := 2, reqFree := 64, dataFree := 128 }, Link.empty]
    routes := State.reset.routes.set 7 1
    fwd := [{ id := 1, dev := 7, core := 0, who := b.who 15 false, op := .int .add .n32, acc := acc0 false, ty := some .n32, dst := some (.v 4), entry := none }] }

theorem witness_ShootdownAndLinkResults :
    (let h (w : List (Nat × Nat)) : Shoot :=
      { asid := 1, ctx := 1, va := 0x4000, len := 4096, cores := 1, start := 900, xRemoved := true, waitSq := w, waitOrn := [], stalled := 0 }
     (({ b with shoots := [h []] } : State).shootDone (h []) = true ∧ b.tlog.length < 65536) ∧
      ({ queued (entry0 .store true) id with shoots := [h [(0, 3)]] } : State).shootDone (h [(0, 3)]) = false) ∧
    (joined.linkUp 0 = true ∧ joined.domain = 9 ∧ joined.members.getLsbD 7 = true ∧ joined.members.getLsbD 8 = false ∧ joined.domain ≠ 8 ∧
      (joined.fwd.find? (fun x => x.id == 1 && x.dev == 7)).isSome = true ∧ joined.linkUp 1 = false ∧ joined.service = .full ∧
      ({ joined with service := .lantern } : State).service ≠ .full) ∧
    (({ joined with pageDirs := [{ page := 0, st := 1, owner := 7, relrec := false, xfer := 0 }] } : State).pageDirAt (0x4000 / 65536)).owner = 7 ∧
    (joined.routeTo 7 = some 0 ∧ joined.routeTo 6 = none ∧ joined.devNum = 0 ∧ (joined.links[0]?).any (fun l => l.kept.isEmpty) = true ∧
      (({ joined with links := [{ Link.empty with peer := 7, lanes := 8, state := 2, kept := [.pageRequest 3] }] } : State).links[0]?).any (fun l => !l.kept.isEmpty) = true) ∧
    (∀ x ∈ [FlitBody.pageRequest 3, .homeWrite 5 0x4000 [1]],
      let o : Outgoing := { dev := 7, body := x, left := flitsOf x, link := none }
      ({ joined with outbox := [o] } : State).outbox = [o] ∧ flitsOf x ≤ 64 ∧ isDataFlit x = decide (x ≠ .pageRequest 3) ∧
        (({ joined with outbox := [o] } : State).sendOut.outbox = [])) ∧
    7 < joined.routes.length ∧ joined.inFlightTo 7 = true ∧ joined.inFlightTo 6 = false := by
  decide +kernel

/-! ### Recovery -/

/-- The tables of `tables` with two more levels: pages of 4 KiB at 0x1000 and 0x4000. -/
def deep : SMap 8 :=
  [(0x1000, 0x01), (0x1001, 0x20), (0x2000, 0x01), (0x2001, 0x30), (0x3000, 0x01), (0x3001, 0x60), (0x6000, 0x01), (0x6001, 0x70),
    (0x7008, 0x19), (0x7009, 0x10), (0x7020, 0x19), (0x7021, 0x40)]

def page4 : Page := ⟨0x4000, 4096⟩

/-- The device with those tables and its context so. -/
def deepB (f : Ctx → Ctx) (g : Gang → Gang) : State := { bG g with mem := deep, ctxs := [f ctx1] }

theorem witness_PreemptionAndWatchdogResults :
    (let x : Team := { team0 with stopping := true }
     let s : State := { b with teams := [x] }
     s.teamAt gang0.team = some x ∧ x.preempted = false ∧ s.watches = [] ∧ s.teamReturned gang0.team x.core = true) ∧
    (let v : Saved := { gang := gang0, resv := [], base := 0x10000 }
     let x : Team := { team0 with preempted := true, saved := [v] }
     let s : State := { b with cur := Gang.empty, teams := [x] }
     s.teamAt gang0.team = some x ∧ s.ctxAt gang0.team.ctx = some ctx1 ∧ s.mayRun ctx1 x.core = true ∧ s.placesFree x = true ∧ x.saved = [v] ∧
      v.resv = [] ∧ s.badSave v = false ∧ ∀ b ∈ x.bars, b.kind = .soft → b.deadline ≠ 0 → s.clock < b.deadline) ∧
    (let x : Ctx := { ctx1 with group := 2 }
     let s : State := { b with ctxs := [x] }
     s.turnOver 2 = true ∧ s.nextTurn 2 0 = some x) ∧
    (let s (n : Nat) : State := { bG (fun g => { g with strands := { strand0 with spinCount := n } :: g.strands.tail }) with clock := 2 ^ 20 + 5 }
     (s 65536).grottoUp = true ∧ (s 65536).tickWalk < (s 65536).clock.toNat / 2 ^ 20 ∧
      ((s 65536).cycleRecords 1048581 1 ++ (s 65536).longRecords 1 ++ (s 65536).spinRecords 1).length = 1 ∧
      (s 5).cycleRecords 1048581 1 ++ (s 5).longRecords 1 ++ (s 5).spinRecords 1 = []) ∧
    (let c : Ctx := { ctx1 with limit := 5 }
     let s : State := { b with ctxs := [c], teams := [{ team0 with runtime := 10 }] }
     s.cur.resident = true ∧ s.cur.live ≠ 0 ∧ s.teamGangs s.cur.team = [s.cur] ∧ s.teamAt s.cur.team = some { team0 with runtime := 10 } ∧
      s.ctxAt s.cur.team.ctx = some c ∧ c.limit ≠ 0 ∧ c.limit.toNat ≤ 10) ∧
    b.ctxAt gang0.team.ctx = some ctx1 ∧ ctx1.limit = 0 := by
  decide +kernel

/-- A record of the issuing gang's strand 0 that Grotto has not read, or has. -/
def todo0 (cause : Nat) (addr : DWord) (taken : Bool) : Todo :=
  { seq := 3, fr := ⟨BitVec.ofNat 32 cause, 0x10000, addr, 0x1000, 15, 3⟩, store := false, g := gang0.key, strand := 0, team := gang0.team, write := false
    taken := taken, due := none }

theorem witness_FaultServiceResults :
    (∀ cause ∈ [1, 0x11, 0x16, 0x17], let s : State := { deepB (fun x => { x with debug := if cause = 0x17 then 5 else 0 }) id with todo := [todo0 cause 0x4000 false] }
      s.grottoUp = true ∧ s.todo = [todo0 cause 0x4000 false] ∧ s.pendRecs = [] ∧ s.cur.resident = true ∧ s.cur.live ≠ 0 ∧
        (s.ctxAt gang0.team.ctx).isSome = true ∧ ((todo0 cause 0x4000 false).fr.w0.extractLsb' 0 8).toNat = cause ∧ s.teamAt gang0.team = some team0) ∧
    (let s := deepB id id
     s.ofWindow (todo0 1 0x4000 false) = false ∧ s.keptPage 1 0x4000 = false ∧ (0x4000 : Nat) < 2 ^ 57 ∧ isRemote 0x4000 = false ∧ s.pageAt ctx1 0x4000 = some (page4, 0x4019) ∧ pteCow 0x4019 = false ∧ page4 = ⟨0x4000, 4096⟩ ∧
      paOf (checkPte (some ctx1) { asid := 1, va := 0x4000, size := 4096, pte := 0x4019 } (todo0 1 0x4000 false).want 0x4000) = some 0x4000 ∧
      (todo0 0x16 0x4000 false).fr.w23.getLsbD 31 = false) ∧
    (let x : Ctx := { ctx1 with deferred := [page4] }
     let s : State := { deepB (fun _ => x) id with repairs := [⟨1, page4, false⟩, ⟨1, ⟨0x8000, 4096⟩, false⟩] }
     s.grottoUp = true ∧ s.ctxAt 1 = some x ∧ page4 ∈ x.deferred ∧ (⟨0x8000, 4096⟩ : Page) ∉ x.deferred ∧
      entryAt s.mem page4.va 0 4 (x.root * 4096) = some 0x7020 ∧ s.tlog.length < 65536) ∧
    (let x : Ctx := { ctx1 with held := [page4], deferred := [page4] }
     let s : State := { deepB (fun _ => x) id with repairs := [⟨1, page4, false⟩] }
     s.ctxAt 1 = some x ∧ (page4 ∈ x.held ++ x.deferred ∧ page4.has 0x4000 = true ∧ s.ofWindow (todo0 1 0x4000 false) = false) ∧
       ({ x with backing := [(page4, 0x9019)] } : Ctx).backing.find? (fun y => y.1 == page4) = some (page4, 0x9019)) ∧
    (page4 ∉ ctx1.held ∧ page4 ∉ ctx1.deferred) ∧
    (let d := todo0 1 0x4000 true
     d.ofPage = true ∧ d.done = false ∧ d.due = none ∧ d.team.ctx = 1 ∧ page4.has d.fr.w23.toNat = true ∧ d.copy = false ∧ d.store = false) ∧
    (∀ c, ((deepB id id).dirAt c).uTag = 0 ∧ ((deepB id id).dirAt c).owners = []) ∧
    (let y : Binding := ⟨6, 0x1000, 0x2000, false⟩
     let d := todo0 0x16 0x80000006 true
     let s : State := { deepB (fun x => { x with bindings := [y] }) id with todo := [d] }
     d.lazy = true ∧ [y].find? (fun y => y.sym == d.symbol && y.stub == d.fr.w45.toNat) = some y ∧ s.codePa 1 y.stub = some 0x1000 ∧ s.pendRecs = []) := by
  refine ⟨by decide +kernel, by decide +kernel, by decide +kernel, by decide +kernel, by decide, by decide +kernel, fun c => ⟨rfl, rfl⟩, by decide +kernel⟩

/-! ### Requests -/

theorem asked_iff (s : State) (r : Req) (k : Nat) : Asked s r k ↔ s.grottoUp = true ∧ s.reqs = [r] ∧ r.kind = k ∧ r.holder = 0 ∧ r.clean = true :=
  ⟨fun x => ⟨x.up, x.alone, x.kind, x.holder, x.clean⟩, fun x => ⟨x.1, x.2.1, x.2.2.1, x.2.2.2.1, x.2.2.2.2⟩⟩

/-- A request of a kind about context 1, words 2 on given. -/
def ask (k : Nat) (ws : List Nat) : Req :=
  { path := .pcie 0, holder := 0, arrived := 900
    words := [BitVec.ofNat 32 (65536 + k), 77] ++ ws.map (BitVec.ofNat 32) ++ List.replicate (14 - ws.length) 0 }

def asked (r : Req) (s : State) : State := { s with reqs := [r] }

theorem quiet_of {s : State} (h : s.dirs = []) : HomesQuiet s := fun c => by simp [State.dirAt, h, Dir.empty]

/-- A descriptor image at 0x5000: ROOT 3, core 1, a slice of 2^16 cycles, a quota of 1. -/
def imaged : State := { b with mem := tables ++ [(0x5000, 3), (0x5008, 2), (0x505D, 16), (0x505E, 1)] }

theorem witness_ContextRequestResults :
    (let r := ask 1 [2, 0x5000]
     Asked (asked r imaged) r 1 ∧ HomesQuiet (asked r imaged) ∧ (r.w 2).toNat = 2 ∧ (r.dw 3).toNat = 0x5000 ∧ 0x5000 + 128 ≤ hbmEnd ∧
      imaged.badImage (smBytes imaged.mem 0x5000 128) = false ∧
      (∀ y ∈ imaged.ctxs, y.num ≠ 2 ∧ clashes (imgF (smBytes imaged.mem 0x5000 128) 92 1) (BitVec.ofNat 256 (imgF (smBytes imaged.mem 0x5000 128) 8 32)) y = false)) ∧
    (let r := ask 1 [32, 0x5000]
     Asked (asked r b) r 1 ∧ HomesQuiet (asked r b) ∧ 31 < (r.w 2).toNat) ∧
    (let r := ask 2 [1]
     Asked (asked r b) r 2 ∧ b.ctxAt (r.w 2).toNat = some ctx1) ∧
    (let r := ask 8 [5]
     Asked (asked r b) r 8 ∧ b.reqCtx r = some ctx1 ∧ ctx1.debug = 0 ∧ r.w 2 ≠ 0 ∧
      (let r := ask 8 [6]
       Asked (asked r (debugged id)) r 8 ∧ ((debugged id).reqCtx r).map (·.debug) = some 5 ∧ r.w 2 ≠ 5)) ∧
    (let r := ask 9 []
     Asked (asked r (debugged id)) r 9 ∧ ((debugged id).reqCtx r).map (fun x => (x.debug, (debugged id).brkAway x)) = some (5, none) ∧
       (let x : Ctx := { ctx1 with debug := 5, breaks := [⟨0x1000, 7⟩] }
        let s := away { b with ctxs := [x] }
        Asked (asked r s) r 9 ∧ s.reqCtx r = some x ∧ s.brkAway x = some 0x1000)) ∧
    (let r := ask 10 [1, 2, 3, 4, 5, 6, 7, 8, 1]
     Asked (asked r b) r 10 ∧ b.ctxAt ((r.w 10).toNat % 32) = some ctx1) ∧
    (let r := ask 11 [0x4000, 0, 64]
     Asked (asked r b) r 11 ∧ b.reqCtx r = some ctx1 ∧ (r.dw 2).toNat % 16 = 0 ∧ (r.w 4).toNat % 16 = 0) ∧
    (let r := ask 13 [9]
     let d := todo0 0x16 0x4000 true
     let e : Event := { kind := 5, seq := 9, clock := 990, fr := d.fr, g := gang0.key, strand := 0, team := gang0.team }
     let x : Ctx := { ctx1 with events := [e] }
     let s : State := { b with ctxs := [x], todo := [d] }
     Asked (asked r s) r 13 ∧ s.reqCtx r = some x ∧ r.w 3 = 0 ∧ r.w 2 ≠ 0xFFFFFFFF#32 ∧ x.events.find? (fun y => y.seq == r.w 2) = some e ∧ d.seq = e.fr.w7 ∧
      d.team = e.team ∧ s.pendRecs = [] ∧ d.g = s.cur.key ∧ (d.fr.w0.extractLsb' 0 8).toNat = 0x16 ∧ d.strand < s.cur.strands.length) ∧
    (∀ k ∈ [1, 2, 12, 15, 16, 17, 18, 19], let r : Req := { ask k [] with holder := 1 }
      (asked r b).grottoUp = true ∧ (asked r b).reqs = [r] ∧ r.kind = k ∧ r.holder ≠ 0) ∧
    ∀ k ∈ [3, 5, 6, 7, 8, 9, 11, 13, 14], let r : Req := { ask k [] with holder := 2 }
      (asked r b).grottoUp = true ∧ (asked r b).reqs = [r] ∧ r.kind = k ∧ r.holder ≠ 0 ∧ r.field.toNat % 32 ≠ r.holder := by
  simp only [asked_iff]
  refine ⟨⟨by decide +kernel, quiet_of rfl, by decide +kernel⟩, ⟨by decide +kernel, quiet_of rfl, by decide +kernel⟩, by decide +kernel,
    by decide +kernel, by decide +kernel, by decide +kernel, by decide +kernel, by decide +kernel, by decide +kernel, by decide +kernel⟩

/-- A launch descriptor stands at 0x4000. -/
def described : State := { deepB id id with mem := smPut deep 0x4000 desc1 }

theorem witness_PageRequestResults :
    (∀ s ∈ [deepB id id, described, deepB (fun x => { x with held := [page4] }) id], HomesQuiet s) ∧
    (let r := ask 3 [0x4000, 0, 0, 0x4019]
     let s := deepB id id
     Asked (asked r s) r 3 ∧ s.reqCtx r = some ctx1 ∧ (r.dw 2).toNat < 2 ^ 57 ∧ (r.w 4).toNat % 8 = 0 ∧ pteSize64 (r.dw 5) = false ∧
      entryAt s.mem 0x4000 0 4 (ctx1.root * 4096) = some 0x7020 ∧ s.tlog.length < 65536) ∧
    (let r := ask 3 [0x4000, 0, 1, 1, 0x80]
     let s := deepB id id
     Asked (asked r s) r 3 ∧ s.reqCtx r = some ctx1 ∧ (r.w 4).toNat % 8 = 1 ∧ ptePresent (r.dw 5) = true ∧ pteLeaf (r.dw 5) = false ∧
      hbmEnd ≤ ptePfn (r.dw 5) * 4096) ∧
    (let r := ask 5 [0x4000]
     let s := deepB id id
     Asked (asked r s) r 5 ∧ s.reqCtx r = some ctx1 ∧ (r.dw 2).toNat = 0x4000 ∧ s.pageAt ctx1 0x4000 = some (page4, 0x4019) ∧ page4 ∉ ctx1.held ∧
      page4 ∉ ctx1.deferred ∧ ptePresent 0x4019 = true) ∧
    (let r := ask 6 [0x4000]
     let s := deepB (fun x => { x with held := [page4] }) id
     Asked (asked r s) r 6 ∧ s.reqCtx r = some { ctx1 with held := [page4] } ∧ [page4].find? (fun q => q.has (r.dw 2).toNat) = some page4 ∧ page4.size = 4096 ∧
       entryAt s.mem page4.va 0 4 (ctx1.root * 4096) = some 0x7020 ∧ ({ ctx1 with backing := [(page4, 0x9019)] } : Ctx).backing.find? (fun b => b.1 == page4) = some (page4, 0x9019) ∧
       (let d := todo0 1 0x4000 true; d.ofPage = true ∧ d.done = false ∧ d.due = none ∧ d.team.ctx = 1 ∧ page4.has d.fr.w23.toNat = true)) ∧
    (let r := ask 7 [0x4000, 0, 4096]
     let s := deepB id id
     Asked (asked r s) r 7 ∧ s.reqCtx r = some ctx1 ∧ (r.dw 2).toNat % 4096 = 0 ∧ (r.dw 4).toNat = 4096 ∧
      s.rangeOf ctx1 ((r.dw 2).toNat + (r.dw 4).toNat) 1 (r.dw 2).toNat = some [(page4, 0x4019)]) ∧
    (let r := ask 7 [0x4001, 0, 4096]
     Asked (asked r (deepB id id)) r 7 ∧ (deepB id id).reqCtx r = some ctx1 ∧ (r.dw 2).toNat % 4096 ≠ 0) ∧
    (let r := ask 4 [0x4000]
     (∀ s ∈ [described, deepB id id], Asked (asked r s) r 4 ∧ s.reqCtx r = some ctx1 ∧ (r.dw 2).toNat % 64 = 0 ∧ s.launchWaits ctx1 = false ∧
        s.readPa ctx1 (r.dw 2).toNat = some 0x4000 ∧ s.ownsPage 0x4000 = true ∧ s.serialLive 1 ctx1.serial = false ∧ s.grids.length < 1024) ∧
      badDescriptor (smBytes described.mem 0x4000 64) = false ∧ badDescriptor (smBytes (deepB id id).mem 0x4000 64) = true) := by
  simp only [asked_iff]
  refine ⟨?_, by decide +kernel, by decide +kernel, by decide +kernel, by decide +kernel, by decide +kernel, by decide +kernel, by decide +kernel⟩
  intro s h
  simp only [List.mem_cons, List.not_mem_nil, or_false] at h
  rcases h with rfl | rfl | rfl <;> exact quiet_of rfl

/-- An image of kind 1, its header and no more; whether its signature passes is Config's own (R438). -/
def image1 : List Byte := [0x47, 0x53, 0x33, 0x4B, 1, 0, 3, 0] ++ List.replicate 120 0

/-- The image is read where its signature passes. -/
theorem reads_image1 (h : Config.ed25519Ok 1 image1 = true) : readImage 1 image1 = some ⟨1, 3, image1⟩ := by
  have e : imgF image1 0 4 = 0x4B335347 ∧ imgF image1 4 2 = 1 ∧ imgF image1 6 2 ≤ 127 ∧ imgF image1 8 8 + 128 = image1.length ∧ imgF image1 16 48 = 0 := by
    decide +kernel
  unfold readImage
  exact (if_pos ⟨e.1, e.2.1, e.2.2.1, e.2.2.2.1, e.2.2.2.2, h⟩).trans rfl

theorem witness_DeviceRequestResults :
    (let r := ask 12 [161]
     Asked (asked r b) r 12 ∧ ((r.w 2).extractLsb' 4 5).toNat = 10) ∧
    (let r := ask 14 [2]
     Asked (asked r b) r 14 ∧ r.w 2 = 2 ∧ b.reqCtx r = some ctx1) ∧
    (let r := ask 15 [9, 7, 0]
     Asked (asked r b) r 15 ∧ (r.w 3).toNat % 512 < 320 ∧ r.w 4 = 0 ∧ b.members = 0 ∧ b.tlog.length < 65536) ∧
    (let r := ask 15 [9, 7, 1]
     let s (n : Nat) : State := { joined with fwd := [], departing := some (7, n) }
     (∀ n ∈ [1, 2, 3], Asked (asked r (s n)) r 15 ∧ r.w 4 = 1 ∧ (s n).members.getLsbD 7 = true ∧ r.w 2 = (s n).domain ∧
       (s n).departing = some ((r.w 3).toNat % 512, n)) ∧ (s 3).parted 7 = true ∧ (s 1).shoots = [] ∧ (s 2).allGiven 7 = true ∧
       ({ s 2 with ownedRemote := [(512 + 7) * 2 ^ 26], pageDirs := [{ page := 3, st := 1, owner := 7, relrec := false, xfer := 0 }] } : State).allGiven 7 = false) ∧
    (let r := ask 16 []
     Asked (asked r b) r 16 ∧ b.service = .full ∧ Asked (asked r { b with service := .lantern }) r 16) ∧
    (∀ slot ∈ [0, 1], let r := ask 17 [1, slot, 0x4000, 0, 128, 0, 1]
     let s : State := { b with mem := smPut tables 0x4000 image1 }
     Asked (asked r s) r 17 ∧ (r.w 2).toNat = 1 ∧ (r.w 3).toNat = slot ∧ (r.dw 4).toNat = 0x4000 ∧ (r.dw 6).toNat = 128 ∧ (r.w 8).getLsbD 1 = false ∧
      s.banks.length = 3 ∧ s.dirs = [] ∧ smBytes s.mem 0x4000 128 = image1) ∧
    (let r := ask 18 []
     Asked (asked r b) r 18 ∧ b.shoots = [] ∧ ∀ x ∈ b.ctxs, b.brkAway x = none) ∧
    ({ b with handover := some ⟨900, 0, 1, 0, 0, 0, 0⟩ } : State).handover = some ⟨900, 0, 1, 0, 0, 0, 0⟩ ∧
    (∀ n ∈ [600, 2200, 599, 2201], let r := ask 19 [n]
     Asked (asked r b) r 19 ∧ (r.w 2).toNat = n) ∧
    (Config.ed25519Ok 1 image1 = true → readImage 1 image1 = some ⟨1, 3, image1⟩) := by
  simp only [asked_iff]
  refine ⟨by decide +kernel, by decide +kernel, by decide +kernel, by decide +kernel, by decide +kernel, by decide +kernel, by decide +kernel, trivial,
    by decide +kernel, reads_image1⟩

/-! ### The host and the board -/

/-- A reply that waits to be written. -/
def reply1 (path : ReqPath) : Reply := { path := path, ctx := 1, status := 0, id := 77, result := 5, bulk := [] }

/-- The device with function 1's rings enabled or not, a reply and an event that wait. -/
def hosted (on : Word) : State :=
  { b with
    pcieUp := true, fns := [{ Fn.empty 1 with enable := on }], replies := [reply1 (.pcie 1)]
    ctxs := [{ ctx1 with waiting := [{ kind := 5, seq := 9, clock := 0, fr := ⟨0x16, 0, 0, 0, 0, 3⟩, g := gang0.key, strand := 0, team := gang0.team }] }] }

theorem witness_HostInterfaceResults :
    (∀ on ∈ [false, true], let s := hosted (if on then 1 else 0)
      s.presents 1 = true ∧ (s.fns.find? fun g => g.num == 1).map (·.enable.getLsbD 0) = some on) ∧
    (let f : Fn := { Fn.empty 1 with enable := 1 }
     let s := hosted 1
     s.fns.find? (fun g => g.num == 1) = some f ∧ (1 : Word) - f.reqHead = 1#32 ∧ s.reqs = [] ∧
      s.replies = [reply1 (.pcie 1)] ∧ (f.rplTail - f.rplHead).toNat < 2 ^ (6 + Nat.min (f.sizes.extractLsb' 4 4).toNat 10) ∧
      (∃ x, s.ctxAt 1 = some x ∧ x.waiting.length = 1) ∧ (f.evtTail - f.evtHead).toNat < 2 ^ (6 + Nat.min (f.sizes.extractLsb' 8 4).toNat 10)) ∧
    (let s : State := { b with jobs := [(4, 1)], replies := [reply1 (.uet 0 4)] }
     s.replies = [reply1 (.uet 0 4)] ∧ s.jobs.find? (fun j => j.1 == 4) = some (4, 1) ∧ (∀ q ∈ s.reqs, q.arrived ≠ s.clock) ∧ (∀ j ∈ s.jobs, j.1 ≠ 5) ∧
       ({ s with replies := [{ reply1 (.uet 0 4) with bulk := [1, 2, 3, 4] }] } : State).replies ≠ [] ∧
       ({ hosted 0 with jobs := [(4, 1)] } : State).jobs.find? (fun j => j.2 == 1) = some (4, 1)) ∧
    (hosted 1).presents 0 = true ∧ (hosted 1).service.hbmUp = true ∧ HomesQuiet (hosted 1) ∧
    (hosted 1).hbmOff.toNat + 0x4000 + 2 ≤ hbmEnd ∧ (hosted 1).ownsPage ((hosted 1).hbmOff.toNat + 0x4000) = true ∧
    (hosted 1).ownsPage ((hosted 1).hbmOff.toNat + 0x4000 + 2 - 1) = true := by
  refine ⟨by decide +kernel, ⟨by decide +kernel, by decide, by decide, by decide, by decide, ⟨_, rfl, by decide⟩, by decide⟩, by decide +kernel,
    by decide, by decide, quiet_of rfl, by decide +kernel, by decide +kernel, by decide +kernel⟩

theorem witness_MemoryStackResults :
    (let q : HReq := ⟨0x4000, false, 990⟩
     let p (owed : Nat) (reqs : List HReq) : PChan := { PChan.empty 3 with owed := owed, reqs := reqs }
     let s (x : PChan) : State := { b with pchans := [x] }
     (let l : HReq := ⟨0x4000, false, 10⟩; let t : State := { s (p 0 [q, l]) with clock := 1100 }
       (p 0 [q, l]).reqs.find? (fun q => !q.write && decide (q.since.toNat + t.scaled 1024 ≤ t.clock.toNat)) = some l) ∧
     (∀ x ∈ [p 1 [q], p 0 [q], p 8 []], (s x).pchans.find? (fun y => y.num == 3) = some x ∧ x.busy ≤ (s x).clock) ∧
      ((p 1 [q]).refreshBank).isSome = true ∧ (p 0 [q]).refreshBank = none ∧ (p 0 [q]).reqs = [q] ∧ (p 0 [q]).late = [] ∧ (p 8 []).owed = 8 ∧
      (let t : State := { s (p 8 []) with clock := 1220 }
       t.clock.toNat % t.scaled 610 = 0 ∧ (p 8 []).dueAt ≠ some t.clock)) ∧
    0x4000 < hbmEnd ∧ b.elog.length < 4096 ∧ b.sectorBusy (0x4000 / 32) = false ∧
    (let s (c : DWord) : State := { b with strata := { Strata.empty with on := true }, clock := c }
     (s 2048).strata.on = true ∧ (s 2048).clock.toNat % 2 ^ (s 2048).strata.k = 0 ∧ (s 2049).clock.toNat % 2 ^ (s 2049).strata.k ≠ 0) ∧
    (let x : L2Blk := { home := 0, frame := 32, lo := 0, hi := 3, dirty := 0, ctxs := [1, 1, 1, 1], pri := 0 }
     let s : State := { b with l2 := [x] }
     s.l2.find? (·.holds 512) = some x ∧ (∀ y ∈ s.l2, y.holds 516 = false) ∧ s.quotaOf 1 = 0 ∧ ∀ y ∈ s.l2, y.set ≠ (1, 516 / 16 / 256 % 512)) ∧
    ∀ st ∈ [VState.dirty, .clean, .valid], let s : State := { b with cores := [holding 0 st 3] }
      (s.coreAt 0).view 0x1000 = some ⟨st, 0x04030201, 3, 15, false⟩ ∧ s.sectorBusy (0x1000 / 8) = false := by
  decide +kernel

theorem witness_PowerAndBootResults :
    (let s : State := { b with clock := 65536 }
     s.clock.toNat % 256 = 0 ∧ s.estimates = [] ∧ s.clock.toNat % 2 ^ 16 = 0 ∧ s.pstateAt ≠ some s.clock ∧ s.service = .full ∧ s.service.runs = true ∧
      s.elog.length < 4096 ∧ s.cap = 2200 ∧ (∀ x ∈ s.tmax, x < 1440) ∧ s.cur.resident = true ∧ (∃ x ∈ s.teams, x.key = s.cur.team) ∧
      0 < s.tmax.length ∧ s.service ≠ .stopped ∧ s.service ≠ .lantern) ∧
    (let s : State := { b with tmax := [1600, 1519, 1519, 1519] }
     ∃ x ∈ s.tmax, 1600 ≤ x) ∧
    (let s : State := { b with service := .thermal, tmax := [1519, 0, 0, 0] }
     s.service = .thermal ∧ ∀ x ∈ s.tmax, x < 1520) ∧
    (∀ p ∈ [(1, 1), (3, 2), (4, 3)], let s : State := { b with service := .boot p.1 }
      s.service = .boot p.1 ∧ s.banks[p.2 - 1]? = some ImgBank.empty ∧ ImgBank.empty.choose p.2 (ImgBank.empty.blown % 2 == 1) = none) ∧
    (Config.ed25519Ok 1 image1 = true → ({ ImgBank.empty with a := some ⟨1, 3, image1⟩ } : ImgBank).choose 1 false = some (false, ⟨1, 3, image1⟩)) ∧
    (∀ t ∈ [false, true], let s : State := { b with service := .lantern, tripped := t }
      s.service = .lantern ∧ s.tripped = t ∧ s.elog.length < 4096) := by
  refine ⟨by decide +kernel, by decide +kernel, by decide +kernel, by decide +kernel, fun h => ?_, by decide +kernel⟩
  simp [ImgBank.choose, ImgBank.accepted, ImgBank.empty, reads_image1 h]

/-! ### Encodings, traps, translation, memory and the run -/

theorem witness_FormTraps :
    (let i : Instr := .iadd false ⟨h, .i32, .v 64, .v 1, .imm 1⟩
     i.isStep = false ∧ allocated i b.cur = false) ∧
    (let i : Instr := .iadd false ⟨h, .i32, .v 4, .v 1, .imm 1⟩
     let s : State := bG fun g => { g with pendV := [(32, pendMark 0 0)] }
     Claims.ungated i = true ∧ allocated i s.cur = true ∧ hazard i s.cur s.strand = true) ∧
    (∀ i ∈ ([.movi h2 true (.v 4) 1, .movi h2 true .zr 1, .pmov h (.toReg false (.s 4)), .pmov h (.fromReg true (.s 4)),
        .pack h .e8 (.s 4) (.v 1) (.v 2) 0, .pack h .e8 (.v 4) (.v 1) (.v 2) 3, .unpk h .zero .e8 (.s 4) (.v 1) 0, .unpk h .zero .e8 (.v 4) (.v 1) 4,
        .unpk h .t2 .e8 (.v 4) (.v 1) 0] : List Instr), Ready i b) ∧
    (let o : Cvt := ⟨h2, .v 8, .v 1, .v 9, false, false, false, 0, 0, 0, 0⟩
     cvtOk o (cvtRmOk .rn o) = false ∧ cvtOk o (Reg.v 3 != .zr) = false ∧ Ready (.cvt .rn o) b ∧ Ready (.cvtx .rn o) b ∧ Ready (.cvtSr (.v 3) o) b) ∧
    (gang0.key.core < 256 ∧ gang0.key.part < 4 ∧ gang0.key.slot < 16) := by
  simp only [ready_iff]; decide +kernel

theorem witness_ZeroRegisterAndTruePredicate :
    (let r (opc len g1 g2 c : Nat) : Raw :=
      { len := BitVec.ofNat 2 len, sw := 0, fb := 0, opc := BitVec.ofNat 9 opc, g1 := BitVec.ofNat 7 g1, d := 4, mod := 1, a := 1, b := 2
        c := BitVec.ofNat 8 c, hint := 0, sub := 0, e := 255, f := 255, g2 := BitVec.ofNat 7 g2, gc := 0, x := 0, imm := 0 }
     (∀ x ∈ [r 0x006 0 48 0 47, r 0x006 0 47 0 48, r 0x006 0 63 0 63], lenBytes x.len = some 8 ∧ opcLen x.opc = some 8) ∧
      Claims.predFields (r 0x006 0 47 0 48) = [48] ∧
      (lenBytes (r 0x00F 1 47 48 255).len = some 12 ∧ opcLen (r 0x00F 1 47 48 255).opc = some 12 ∧ (r 0x00F 1 47 48 255).len ≠ 0 ∧
        48 ≤ ((r 0x00F 1 47 48 255).g2.extractLsb' 0 6).toNat)) ∧
    (∃ bad, decodeBytes (wordBytes [0x0FF5ECF3, 0x00FFFFFF]) = .error (.illegalForm bad)) :=
  ⟨by decide +kernel, false, by decide +kernel⟩

theorem uncached_iff (s : State) (core asid : Nat) (va : DWord) : Uncached s core asid va ↔ va.toNat < 2 ^ 57 ∧ s.heldBy core asid va.toNat = false ∧
    va.toNat / 4096 ≠ 0x01FFFFFFFFFFF000 / 4096 ∧ (∀ e ∈ (s.coreAt core).tlb, e.covers asid va.toNat = false) ∧
    ∀ e ∈ s.dieTlb, e.1 = core / 64 → e.2.covers asid va.toNat = false :=
  ⟨fun x => ⟨x.narrow, x.free, x.memory, x.near, x.die⟩, fun x => ⟨x.1, x.2.1, x.2.2.1, x.2.2.2.1, x.2.2.2.2⟩⟩

/-- An address too wide, one held, one in the cache, and walks: with no entry at each level, to a page of each size, and to a page of 64 KiB. -/
theorem witness_TranslationResults :
    2 ^ 57 ≤ (0x0200000000000000#64).toNat ∧
    (let s : State := { b with shoots := [{ asid := 1, ctx := 1, va := 0x4000, len := 4096, cores := 1, start := 900, xRemoved := false, waitSq := [], waitOrn := []
                                            stalled := 0 }] }
     s.heldBy 0 1 0x4000 = true) ∧
    (let e : Tlb := ⟨1, 0x4000, 4096, 0x4019⟩
     let s : State := { b with cores := [{ Core.empty 0 with tlb := [e] }] }
     (s.coreAt 0).tlb.find? (·.covers 1 0x4000) = some e ∧ s.heldBy 0 1 0x4000 = false ∧ (s.ctxAt 1).isSome) ∧
    (∀ s ∈ [b, deepB id id], Uncached s 0 1 0x4000 ∧ s.ctxAt 1 = some ctx1) ∧
    (let s := deepB id id
     Leads (pteAt s 0x1000 4 0x4000) ∧ tableOf (pteAt s 0x1000 4 0x4000) = 0x2000 ∧ Leads (pteAt s 0x2000 3 0x4000) ∧ Leads (pteAt s 0x3000 2 0x4000) ∧
      Leads (pteAt s 0x6000 1 0x4000) ∧ (pteAt s 0x7000 0 0x4000).getLsbD 0 = true ∧ (pteAt s 0x7000 0 0x4000).getLsbD 1 = false ∧
      (pteAt s 0x7000 0 0x5000).getLsbD 0 = false ∧ (pteAt s 0x6000 1 0x200000).getLsbD 0 = false ∧ (pteAt s 0x3000 2 0x40000000).getLsbD 0 = false ∧
      ¬ Leads (pteAt s 0x2000 3 0x8000000000) ∧ ¬ Leads (pteAt s 0x1000 4 0x1000000000000)) ∧
    (pteAt b 0x3000 2 0x4000).getLsbD 0 = true ∧ (pteAt b 0x3000 2 0x4000).getLsbD 2 = true ∧
    (let s : State := { deepB id id with mem := smPut (smPut deep 0x6008 [0x05, 0, 0x20]) 0x7020 [0x1B] }
     (pteAt s 0x6000 1 0x204000).getLsbD 2 = true ∧ (pteAt s 0x7000 0 0x4000).getLsbD 1 = true) := by
  simp only [uncached_iff, Leads]; decide +kernel

/-- Core 0's buffer holds NOP at 0x1000, and the schedule's next move is its issue cycle. -/
def stepping0 : State :=
  { b with
    sched := [⟨0, .issue 0 []⟩]
    cores := [{ Core.empty 0 with ibuf := [⟨1, 0x1000, BitVec.ofNat 256 (bytesLE (wordBytes [0x0FF5ECF0, 0x00FFFFFF]))⟩] }] }

theorem only_strand_iff (s : State) (core part : Nat) (g : Gang) (k : Nat) : OnlyStrand s core part g k ↔ s.partGangs core part = [g] ∧
    (∀ q, q ≠ part → s.partGangs core q = []) ∧ (part < 4 ∧ k < 16 ∧ s.gangAt g.key = g) ∧ g.active = true ∧ s.couldIssue g k = true ∧
    (∀ j, j ≠ k → s.couldIssue g j = false) ∧ (g.strandAt k).own = 0 ∧ (g.strandAt k).mask ≠ 0 ∧ g.bad = [] :=
  ⟨fun x => ⟨x.gang, x.others, x.place, x.active, x.able, x.single, x.tried, x.lanes, x.good⟩,
    fun x => ⟨x.1, x.2.1, x.2.2.1, x.2.2.2.1, x.2.2.2.2.1, x.2.2.2.2.2.1, x.2.2.2.2.2.2.1, x.2.2.2.2.2.2.2.1, x.2.2.2.2.2.2.2.2⟩⟩

/-- The one gang of `stepping0` stands in partition 0, and of its strands only the first is there. -/
theorem stepping0_alone : (∀ q, q ≠ 0 → stepping0.partGangs 0 q = []) ∧ ∀ j, j ≠ 0 → stepping0.couldIssue gang0 j = false := by
  refine ⟨fun q hq => ?_, fun j hj => ?_⟩
  · have : stepping0.allGangs = [gang0] := by decide
    simp [State.partGangs, this, gang0, Gang.empty, Ne.symm hq]
  · have : gang0.strandAt j = Strand.empty := by
      obtain ⟨n, rfl⟩ := Nat.exists_eq_succ_of_ne_zero hj
      by_cases h : n < 15
      · interval_cases n <;> rfl
      · simp [Gang.strandAt, atD, gang0, h]
    have idle : (gang0.strandAt j).fetching = false := by rw [this]; rfl
    simp [State.couldIssue, State.mayTry, idle]

theorem witness_StepRunsDecodedInstruction :
    let s1 := ({ stepping0 with sched := [] } : State).pass exec 0
    let mine : Pick := { g := gang0.key, strand := 0, pc := (gang0.strandAt 0).pc }
    let chosen := (List.range 4).foldl (fun (u : State) q => u.modPart 0 q fun p =>
      { p with selectedAt := some s1.clock, selected := if q = 0 then [mine] else [] }) s1
    let s2 := ((chosen.touchSelected 0 [(gang0.key, 0)]).modCore 0 fun c => { c with issued := some s1.clock, busy := [] }).modPart 0 0
      fun p => { p with forced := none }
    let u := s2.focus gang0.key 0
    OnlyStrand s1 0 0 gang0 0 ∧ (s1.coreAt 0).issued ≠ some s1.clock ∧ s1.withheld = false ∧
      (∃ bs, Window u bs ∧ ∃ tail, decodeBytes bs = .ok (.nop h, tail)) ∧ u.strand.pc.toNat % 4 = 0 ∧ (stepping0.gangAt gang0.key).key = gang0.key ∧
      (stepping0.focus gang0.key 0).cur.key = gang0.key ∧ u.cur.bad = [] := by
  refine ⟨(only_strand_iff ..).mpr ⟨by decide +kernel, stepping0_alone.1, by decide +kernel, by decide, by decide +kernel, stepping0_alone.2, by decide +kernel⟩,
    by decide +kernel, by decide +kernel,
    ⟨wordBytes [0x0FF5ECF0, 0x00FFFFFF] ++ List.replicate 24 0, ⟨by decide +kernel, by decide +kernel⟩, List.replicate 24 0, by decide +kernel⟩,
    by decide +kernel, by decide +kernel, by decide +kernel, by decide +kernel⟩

theorem witness_EncodeDecodeRoundTrip :
    let i : Instr := .iadd true ⟨h, .i32, .v 4, .v 1, .reg (.v 2)⟩
    i.isStep = false ∧ (∀ g, i ≠ .fusedGroup g) ∧ i.wellFormed = true :=
  by
  refine ⟨by decide, fun g h => ?_, by decide⟩
  cases h

/-- The step answers a next state that meets the condition. -/
def goesTo (o : Host.Outcome State Fault Refusal) (p : State → Bool) : Bool := match o with | .next t => p t | _ => false

/-- A state that meets the invariant, and its step goes on. -/
theorem witness_StepKeepsInvariant : stepping0.Inv ∧ goesTo (step stepping0) (fun t => t.cur.strands.length == 16) = true :=
  ⟨⟨show Memory.wf tables = true by decide, ⟨by decide, by decide, by decide⟩, by decide, by decide⟩, by decide +kernel⟩

/-! ### One step each -/

/-- The placed word is the first instruction of the machine after reset (R270, R281): IADD.n32 v4, v1, 5. -/
theorem test_first_step : goesTo (step (State.reset.withFetchWord 64 0x8005FF012045E000)) (fun t => t.cur.rd32 (.v 4) 31 == 5 && t.strand.pc == 8) = true := by
  decide +kernel

/-- R270: 0xFFFFFFFF + 1 wraps to 0, and saturates at 0xFFFFFFFF as n32; R272: the most negative value negates to itself. -/
theorem test_iadd_wraps : goesTo (exec (.iadd false ⟨h, .n32, .v 4, .v 1, .imm 1⟩) (bG fun g => { g with v := [(32, 0xFFFFFFFF), (128, 9)] }))
    (fun t => t.cur.rd32 (.v 4) 0 == 0) = true := by decide +kernel
theorem test_iadd_saturates : goesTo (exec (.iadd true ⟨h, .n32, .v 4, .v 1, .imm 1⟩) (bG fun g => { g with v := [(32, 0xFFFFFFFF)] }))
    (fun t => t.cur.rd32 (.v 4) 0 == 0xFFFFFFFF) = true := by decide +kernel
theorem test_ineg_least : goesTo (exec (.ineg ⟨h, false, .v 4, .v 1⟩) (bG fun g => { g with v := [(32, 0x80000000)] }))
    (fun t => t.cur.rd32 (.v 4) 0 == 0x80000000) = true := by decide +kernel

/-- R270: the high half of -1 times 2 is -1 signed and 1 unsigned. -/
theorem test_imulh_signed : goesTo (exec (.imulh ⟨h, .i32, .v 4, .v 1, .imm 2⟩) (bG fun g => { g with v := [(32, 0xFFFFFFFF)] }))
    (fun t => t.cur.rd32 (.v 4) 0 == 0xFFFFFFFF) = true := by decide +kernel
theorem test_imulh_unsigned : goesTo (exec (.imulh ⟨h, .n32, .v 4, .v 1, .imm 2⟩) (bG fun g => { g with v := [(32, 0xFFFFFFFF)] }))
    (fun t => t.cur.rd32 (.v 4) 0 == 1) = true := by decide +kernel

/-- R247: a false guard leaves its lane alone and the PC moves on; R270: a source may be the destination. -/
theorem test_guard_lanes : goesTo (exec (.iadd false ⟨h1, .n32, .v 1, .v 1, .reg (.v 1)⟩) (bG fun g => { g with v := [(32, 3), (33, 3)] }))
    (fun t => t.cur.rd32 (.v 1) 0 == 6 && t.cur.rd32 (.v 1) 1 == 3 && t.strand.pc == 0x1008) = true := by decide +kernel

/-- R305: 1.0 + 1.0 = 2.0 in f32; 0x3F800000 + 0x33800000 (2^-24) is a tie and rounds to the even 1.0. -/
theorem test_fadd : goesTo (exec (.fadd ⟨h, .f32, .rn, false, .v 4, ⟨.v 1, false, false⟩, ⟨.v 1, false, false⟩⟩) (bG fun g => { g with v := [(32, 0x3F800000)] }))
    (fun t => t.cur.rd32 (.v 4) 0 == 0x40000000) = true := by decide +kernel
theorem test_fadd_tie : goesTo (exec (.fadd ⟨h, .f32, .rn, false, .v 4, ⟨.v 1, false, false⟩, ⟨.v 2, false, false⟩⟩)
    (bG fun g => { g with v := [(32, 0x3F800000), (64, 0x33800000)] })) (fun t => t.cur.rd32 (.v 4) 0 == 0x3F800000) = true := by decide +kernel

/-- R289: BRA by -6 words goes back 24 bytes. -/
theorem test_bra_back : goesTo (exec (.bra h2 0xFFFFFA) b) (fun t => t.strand.pc == 0xFE8) = true := by decide +kernel

/-- R36, R407: a TRAP parks the gang and leaves its record; EXIT of every lane ends the strand. -/
theorem test_trap_parks : goesTo (exec (.trap h2 7) b) (fun t => t.cur.trapParked && t.faultQ.length == 1) = true := by decide +kernel
theorem test_exit_ends : goesTo (exec (.exit h) b) (fun t => t.cur.live == 0 && !t.strand.valid) = true := by decide +kernel

/-- R437, R438: from reset with empty flash, boot stage 1 has no image to run and the device stays there. -/
theorem test_boot_stuck : goesTo (exec .bootStage State.reset) (fun t => t.service == .stuck 1) = true := by decide +kernel

end Sys2Proof.Tests
end

/-! PROOF. The zero register, the true predicate, and the predicate indices that no encoding may hold (R42). -/

namespace Sys2Proof

/-! ### Fields with an index from 48 to 63 -/

theorem fin?_eq_none {n w : Nat} {x : BitVec w} (h : n ≤ x.toNat) : fin? n x = none := by
  simp [fin?, Nat.not_lt.mpr h]

@[simp] theorem andThen_none {α β : Type} (f : α → Option β) : andThen none f = none := rfl

@[simp] theorem andThen_fun_none {α β : Type} (x : Option α) : andThen x (fun _ => (none : Option β)) = none := by
  cases x <;> rfl

/-- The low six bits of a field are no more than the field. -/
theorem low6_le (x : BitVec 8) : (x.extractLsb' 0 6).toNat ≤ x.toNat := by
  rw [BitVec.extractLsb'_toNat]
  exact Nat.mod_le x.toNat _

theorem PSrc.ofG_eq_none {g : BitVec 7} (h : 48 ≤ (g.extractLsb' 0 6).toNat) : PSrc.ofG g = none := by
  simp [PSrc.ofG, fin?_eq_none h]

theorem PSrc.of8_eq_none {x : BitVec 8} (h : 48 ≤ (x.extractLsb' 0 6).toNat) : PSrc.of8 x = none := by
  have low : (x.extractLsb' 0 7).extractLsb' 0 6 = x.extractLsb' 0 6 := by
    ext i hi; simp
  simp [PSrc.of8, PSrc.ofG_eq_none (low ▸ h)]

theorem pd8_eq_none {x : BitVec 8} (h : 48 ≤ (x.extractLsb' 0 6).toNat) : pd8 x = none :=
  fin?_eq_none (h.trans (low6_le x))

/-! ### What mending a field leaves alone -/

@[simp] theorem Raw.mend_opc (r : Raw) : r.mend.opc = r.opc := by
  simp only [Raw.mend, Raw.dotMend, Raw.atomsMend]
  repeat' split
  all_goals rfl

@[simp] theorem Raw.mend_g2 (r : Raw) : r.mend.g2 = r.g2 := by
  simp only [Raw.mend, Raw.dotMend, Raw.atomsMend]
  repeat' split
  all_goals rfl

/-- Of the opcodes with predicate operands only FCMP's fields are ever mended, and there its condition (R307). -/
theorem predFields_mend (r : Raw) : Machine.Claims.predFields r.mend = Machine.Claims.predFields r := by
  simp only [Machine.Claims.predFields, Raw.mend_opc]
  split <;> simp [Raw.mend, *]

/-! ### No instruction holds such a field -/

/-- The opcodes of the longer forms whose entries permit no second guard (R240). -/
def noSecond : List Nat := [0x00F, 0x016, 0x01E, 0x020, 0x0D0, 0x122, 0x123, 0x125, 0x170, 0x171]

theorem Raw.second_of_long {r : Raw} (hl : r.len ≠ 0) (ho : r.opc.toNat ∉ noSecond) : r.second = true := by
  simp_all [Raw.second, noSecond]

/-- The entries that permit no second guard still read its field with the header. -/
theorem decodeRaw_eq_none_of_g2 {r : Raw} (ho : r.opc.toNat ∈ noSecond) (h : PSrc.ofG r.g2 = none) : decodeRaw r = none := by
  have h2 : r.hdr2 = none := by cases hg : PSrc.ofG r.g1 <;> simp [Raw.hdr2, h, hg]
  have hr : r.rng = none := by simp [Raw.rng, h2]
  simp only [noSecond, List.mem_cons, List.not_mem_nil, or_false] at ho
  rcases ho with ho | ho | ho | ho | ho | ho | ho | ho | ho | ho <;>
    simp [decodeRaw, decodeInt, decodeControl, decodeMemory, decodeEngine, ho, h2, hr]

/-- SUB 61:60 of a VOTE that writes a predicate (R398). -/
theorem voteMode_of_bit1 {sub : BitVec 4} (h : sub.extractLsb' 1 1 = 1#1) :
    (sub.extractLsb' 0 2).toNat = 2 ∨ (sub.extractLsb' 0 2).toNat = 3 := by
  revert sub; decide

/-- By opcode: the entry reads the field as a predicate, which it is not with an index from 48 up (R266). -/
theorem decodeRaw_eq_none_of_predField {r : Raw} {f : BitVec 8} (hf : f ∈ Machine.Claims.predFields r)
    (h : 48 ≤ (f.extractLsb' 0 6).toNat) : decodeRaw r = none := by
  have src : PSrc.of8 f = none := PSrc.of8_eq_none h
  have dst : pd8 f = none := pd8_eq_none h
  unfold Machine.Claims.predFields at hf
  split at hf <;> rename_i ho
  case h_1 | h_2 | h_3 => -- IADDC, ISEL, FSEL: a source in C
    obtain rfl := List.mem_singleton.mp hf
    simp [decodeRaw, decodeInt, decodeFloat, ho, src]
  case h_4 | h_5 => -- ICMP, FCMP: a destination in D
    obtain rfl := List.mem_singleton.mp hf
    simp [decodeRaw, decodeInt, decodeFloat, ho, dst]
  case h_6 => -- FORK: a source in A
    obtain rfl := List.mem_singleton.mp hf
    simp [decodeRaw, decodeControl, ho, src]
  case h_7 => -- PUB of a predicate: p47 is refused too, and so the bound is 47
    have pub : fin? 47 f = none := fin?_eq_none (by have := low6_le f; omega)
    obtain ⟨hp, rfl⟩ : r.sb 0 = true ∧ f = r.a := by simpa using hf
    simp [decodeRaw, decodeControl, ho, hp, pub]
  case h_8 | h_9 => -- JOINP, PSET: a destination in D, sources in A and B
    simp only [List.mem_cons, List.not_mem_nil, or_false] at hf
    rcases hf with rfl | rfl | rfl <;> simp [decodeRaw, decodeControl, ho, src, dst]
  case h_10 => -- VOTE: a source in A, and in D a destination where SUB asks for any or all
    by_cases hd : r.sub.extractLsb' 1 1 = 1#1
    · have mode := voteMode_of_bit1 hd
      simp only [hd, if_true, List.mem_cons, List.not_mem_nil, or_false] at hf
      rcases mode with mode | mode <;> rcases hf with rfl | rfl <;> simp [decodeRaw, decodeSystem, ho, mode, src, dst]
    · obtain rfl : f = r.a := by simpa [hd] using hf
      simp [decodeRaw, decodeSystem, ho, src]
  case h_11 => -- ELECT of a predicate: a destination in D
    obtain ⟨hp, rfl⟩ : r.sb 0 = false ∧ f = r.d := by simpa using hf
    simp [decodeRaw, decodeSystem, ho, hp, dst]
  case h_12 => exact absurd hf List.not_mem_nil

/-! ### How the fields are refused -/

section
variable {r : Raw} {avail n : Nat} (hl : lenBytes r.len = some n) (ha : n ≤ avail) (ho : opcLen r.opc = some n)
include hl ha ho

theorem decodeFields_of_badGuard (h : r.badGuard = true) : decodeFields r avail = .error (.illegalForm true) := by
  simp [decodeFields, hl, ho, Nat.not_lt.mpr ha, h]

/-- Fields that give no instruction, mended or not, are refused by check 7 (R252). -/
theorem decodeFields_of_no_instr (h : decodeRaw r = none) (hm : decodeRaw r.mend = none) :
    ∃ b, decodeFields r avail = .error (.illegalForm b) := by
  cases hg : r.badGuard with
  | true => exact ⟨true, decodeFields_of_badGuard hl ha ho hg⟩
  | false => exact ⟨false, by simp [decodeFields, hl, ho, Nat.not_lt.mpr ha, hg, h, Raw.refusal, hm]⟩

theorem decodeFields_of_g1 (h : 48 ≤ (r.g1.extractLsb' 0 6).toNat) : decodeFields r avail = .error (.illegalForm true) :=
  decodeFields_of_badGuard hl ha ho (by simp [Raw.badGuard, PSrc.ofG_eq_none h])

theorem decodeFields_of_g2 (hlong : r.len ≠ 0) (h : 48 ≤ (r.g2.extractLsb' 0 6).toNat) :
    ∃ b, decodeFields r avail = .error (.illegalForm b) := by
  have bad : PSrc.ofG r.g2 = none := PSrc.ofG_eq_none h
  by_cases hop : r.opc.toNat ∈ noSecond
  · exact decodeFields_of_no_instr hl ha ho (decodeRaw_eq_none_of_g2 hop bad)
      (decodeRaw_eq_none_of_g2 (r.mend_opc.symm ▸ hop) (r.mend_g2.symm ▸ bad))
  · exact ⟨true, decodeFields_of_badGuard hl ha ho (by simp [Raw.badGuard, Raw.second_of_long hlong hop, bad])⟩

theorem decodeFields_of_predField {f : BitVec 8} (hf : f ∈ Machine.Claims.predFields r) (h : 48 ≤ (f.extractLsb' 0 6).toNat) :
    ∃ b, decodeFields r avail = .error (.illegalForm b) :=
  decodeFields_of_no_instr hl ha ho (decodeRaw_eq_none_of_predField hf h)
    (decodeRaw_eq_none_of_predField ((predFields_mend r).symm ▸ hf) h)

end

namespace Machine

theorem decodeIn_full_of_illegalForm {bs : List Byte} {b : Bool} (h : decodeBytes bs = .error (.illegalForm b)) :
    decodeIn .full bs = .error (.illegalForm b) := by
  simp [decodeIn, h, Service.lanternMode]

theorem rejectTrap_illegalForm (g : Gang) (st : Strand) (bs : List Byte) (b : Bool) :
    ∃ lanes, rejectTrap g st bs (.illegalForm b) = ⟨0x11, 0xFF, 0, lanes, false⟩ := ⟨_, rfl⟩

theorem nextIssue_full_of_illegalForm (g : Gang) (k : Nat) (st : Strand) (group : Bool) {bs : List Byte} {b : Bool}
    (h : decodeBytes bs = .error (.illegalForm b)) :
    ∃ lanes, nextIssue .full g k st group bs = .error ⟨0x11, 0xFF, 0, lanes, false⟩ := by
  obtain ⟨lanes, trap⟩ := rejectTrap_illegalForm g st bs b
  exact ⟨lanes, by simp [nextIssue, decodeIn_full_of_illegalForm h, trap]⟩

@[simp] theorem Gang.rd32_zr (g : Gang) (l : Nat) : g.rd32 .zr l = 0 := rfl
@[simp] theorem Gang.rd64_zr (g : Gang) (l : Nat) : g.rd64 .zr l = 0 := rfl
@[simp] theorem Gang.wr_zr (g : Gang) (wide : Bool) (part : LaneMask) (x : Nat → DWord) : g.wr wide .zr part x = g := rfl
@[simp] theorem Gang.wrP_47 (g : Gang) (part val : LaneMask) : g.wrP 47 part val = g := rfl

/-- Settles O51: zr and p47 by the accessors' own cases; a refused index leaves no instruction to decode, whether the other fields
are mended or not, so check 7 refuses the encoding, and full service keeps that refusal. -/
theorem zeroRegisterAndTruePredicate : Obligations.ZeroRegisterAndTruePredicate := by
  unfold Obligations.ZeroRegisterAndTruePredicate
  refine ⟨fun g l => ⟨g.rd32_zr l, g.rd64_zr l⟩, Gang.wr_zr, Gang.pmask_47, Gang.wrP_47, ?fields, ?issue⟩
  case fields =>
    intro r avail n hl ha ho
    exact ⟨fun h => ⟨true, decodeFields_of_g1 hl ha ho h⟩, decodeFields_of_g2 hl ha ho,
      fun _ hf h => decodeFields_of_predField hl ha ho hf h⟩
  case issue =>
    intro g k st group bs b h
    exact nextIssue_full_of_illegalForm g k st group h

end Machine
end Sys2Proof

/-! PROOF. The branches, calls and returns: what the guard lets through, the checks of a register target, and what a taken transfer
leaves (R38, R39, R288 to R292, R295). -/

namespace Sys2Proof.Machine

/-! ### The strand once it begins to issue -/

theorem State.modStrand_strand {s : State} (hs : s.curStrand < s.cur.strands.length) (f : Strand → Strand) :
    (s.modStrand f).strand = f s.strand :=
  (Gang.strandAt_modStrand ..).trans (if_pos ⟨rfl, hs⟩)

theorem State.begin_strand {s : State} (hs : s.curStrand < s.cur.strands.length) :
    s.begin.strand =
      { s.strand with state := .ready, wait := WaitFor.empty, waitOn := .none, waitCount := 0, heldVas := [], own := 0 } :=
  s.modStrand_strand hs _

theorem State.begin_mask {s : State} (hs : s.curStrand < s.cur.strands.length) : s.begin.strand.mask = s.strand.mask := by
  rw [s.begin_strand hs]

theorem State.begin_pc {s : State} (hs : s.curStrand < s.cur.strands.length) : s.begin.strand.pc = s.strand.pc := by
  rw [s.begin_strand hs]

theorem State.begin_slot {s : State} (hs : s.curStrand < s.cur.strands.length) : s.begin.curStrand < s.begin.cur.strands.length :=
  hs.trans_eq (Gang.modStrand_length ..).symm

theorem State.begin_otherStrand (s : State) {k : Nat} (hk : k ≠ s.curStrand) : s.begin.cur.strandAt k = s.cur.strandAt k :=
  Gang.modStrand_other _ _ _ _ hk

/-- A trap taken once the strand has begun to issue is one of the state before: the wait that ends is among what a trap clears. -/
theorem Trapped.of_begin {s t : State} {x : Trap} (hs : s.curStrand < s.cur.strands.length) (h : Trapped s.begin t x) : Trapped s t x := by
  have hrec : trapRecord s.begin.cur s.begin.curStrand x = trapRecord s.cur s.curStrand x := by
    have hst : s.begin.cur.strandAt s.begin.curStrand = s.begin.strand := rfl
    rw [trapRecord, hst, s.begin_strand hs]
    rfl
  obtain ⟨st, hst⟩ := h.strand
  have hr := h.record
  rw [hrec] at hr
  exact ⟨h.rest, h.gang, fun k hk => (h.strands k hk).trans (s.begin_otherStrand hk), ⟨st, by rw [hst, s.begin_strand hs]⟩, h.stop, hr⟩

/-! ### What a taken transfer leaves -/

/-- A gang changed in its registers, predicates and flags, and then counted. -/
theorem Local.counted {a g h : Gang} (x : Local a g) (y : Counted g h) :
    h = { a with
      v := h.v, p := h.p, s := h.s, sSeq := h.sSeq, fpflags := h.fpflags, maxabs := h.maxabs
      strands := h.strands, perf := h.perf, issueSeq := h.issueSeq, pcs := h.pcs } := by
  obtain ⟨e⟩ := y
  obtain ⟨e'⟩ := x
  rw [e, e']

/-- Counting an issue leaves a gang's registers, predicates and flags. -/
theorem Counted.data {g h : Gang} (c : Counted g h) :
    h.v = g.v ∧ h.p = g.p ∧ h.s = g.s ∧ h.fpflags = g.fpflags ∧ h.maxabs = g.maxabs := by
  rw [c.eq]
  exact ⟨rfl, rfl, rfl, rfl, rfl⟩

/-- A gang with the registers, predicates and flags of the issuing one reads as it does. -/
theorem sameData_of_fields {s t : State}
    (h : t.cur.v = s.cur.v ∧ t.cur.p = s.cur.p ∧ t.cur.s = s.cur.s ∧ t.cur.fpflags = s.cur.fpflags ∧ t.cur.maxabs = s.cur.maxabs) :
    SameData s t := by
  obtain ⟨hv, hp, hs, hf, hm⟩ := h
  exact ⟨⟨fun n l _ => by rw [Gang.vr, hv]; rfl, fun n => by rw [hs]⟩, fun n => by rw [Gang.pmask, hp]; rfl, hf, hm⟩

section
variable {s t : State} {f : Gang → Gang} {pc : VAddr} (hs : s.curStrand < s.cur.strands.length)
  (hf : Local s.begin.cur (f s.begin.cur))
include hs hf

/-- The strand as a taken transfer leaves it, before the issue is counted (R292, R434). -/
theorem State.branchTo_strand :
    ((s.begin.modCur f).branchTo pc).strand = { s.begin.strand with pc := pc, notBefore := s.clock + 3 } := by
  have hstr : (s.begin.modCur f).cur.strands = s.begin.cur.strands := by rw [State.modCur_cur, hf.eq]
  have hlen : (s.begin.modCur f).curStrand < (s.begin.modCur f).cur.strands.length := hstr ▸ s.begin_slot hs
  have hst : (s.begin.modCur f).strand = s.begin.strand := by rw [State.strand, Gang.strandAt, hstr]; rfl
  rw [State.branchTo, State.modStrand_strand hlen, hst]
  rfl

/-- A transfer whose own effect is a change `f` of the gang's registers goes to its target, issues there from the third cycle on, and
leaves the registers as `f` does (R171, R292, R434). -/
theorem Counts.goesTo (hc : Counts ((s.begin.modCur f).branchTo pc) t) :
    GoesTo pc s t ∧ t.strand.notBefore = s.clock + 3 ∧ Counted (f s.begin.cur) t.cur := by
  have hcur : Counted (f s.begin.cur) t.cur := (Gang.modStrand_counted _ _ _).trans ⟨hc.gang⟩
  have hothers : ∀ k, k ≠ s.curStrand → t.cur.strandAt k = s.cur.strandAt k := fun k hk => by
    have hstr : (f s.begin.cur).strandAt k = s.begin.cur.strandAt k := by rw [hf.eq]; rfl
    exact (hc.strands k hk).trans ((Gang.modStrand_other _ _ _ _ hk).trans (hstr.trans (s.begin_otherStrand hk)))
  obtain ⟨st, hst⟩ := hc.strand
  rw [State.branchTo_strand hs hf, s.begin_strand hs] at hst
  refine ⟨⟨by rw [hst], fun a => ?_, hc.rest, hf.counted hcur, hothers, by simp [hst]⟩, by rw [hst], hcur⟩
  rw [hc.rest]
  rfl

end

/-! ### From an instruction's operation to its result -/

section
variable {i : Instr} {body : LaneMask → State → Res} {s : State} (he : exec i s = issue i noGate body s) (hr : Ready i s)
include he hr

theorem fallsThrough_of_done (hb : body (s.part i) s.begin = .done s.begin) : FallsThrough i s := by
  obtain ⟨hw, hdata⟩ := wentTo_went (g := s.begin.cur) hr ⟨rfl⟩
  refine ⟨wentTo i s s.begin.cur, ?_, hw, sameData_of_fields hdata⟩
  rw [he, issue_ready hr rfl, hb]
  rfl

theorem goesTo_of_goto {f : Gang → Gang} {pc : VAddr} (hf : Local s.begin.cur (f s.begin.cur))
    (hb : body (s.part i) s.begin = .goto (s.begin.modCur f) pc) :
    ∃ t, exec i s = .next t ∧ GoesTo pc s t ∧ t.strand.notBefore = s.clock + 3 ∧ Counted (f s.begin.cur) t.cur := by
  obtain ⟨t, ht, hc⟩ := issue_goto (gate := noGate) hr rfl hb
  exact ⟨t, he.trans ht, Counts.goesTo hr.slot hf hc⟩

theorem jumps_of_goto {pc : VAddr} (hb : body (s.part i) s.begin = .goto s.begin pc) : Jumps i s pc := by
  obtain ⟨t, ht, hgo, hnb, hcur⟩ := goesTo_of_goto (f := id) he hr ⟨rfl⟩ hb
  exact ⟨t, ht, hgo, sameData_of_fields hcur.data, hnb⟩

theorem trapsWith_of_trap {x : Trap} (hx : x.cause ≠ 0) (hb : body (s.part i) s.begin = .trap x) : TrapsWith i s x := by
  refine ⟨s.begin.takeTrap x, ?_, .of_begin hr.slot (State.takeTrap_trapped _ x (s.begin_slot hr.slot) hx)⟩
  rw [he, issue_ready hr rfl, hb]

end

/-! ### The guard (R38, R295) -/

/-- The instruction's guard is uniform: false in every active lane it goes on, true in every one it does `yes`, else it traps. -/
def GuardsUniformly (i : Instr) (yes : LaneMask → State → Res) : Prop :=
  ∀ s, exec i s = issue i noGate (fun part u => uniformGuard part u.strand.mask (.done u) (yes part u)) s

theorem uniformGuard_none (mask : LaneMask) (no yes : Res) : uniformGuard 0 mask no yes = no := rfl

theorem uniformGuard_all {mask : LaneMask} (h : mask ≠ 0) (no yes : Res) : uniformGuard mask mask no yes = yes :=
  (if_neg h).trans (if_pos rfl)

theorem uniformGuard_some {part mask : LaneMask} (h0 : part ≠ 0) (hm : part ≠ mask) (no yes : Res) :
    uniformGuard part mask no yes = .trap ⟨0x14, 0xFF, 0, part, false⟩ :=
  (if_neg h0).trans (if_neg hm)

/-- A guard that passes in every active lane of a strand that has some, once the strand has begun to issue. -/
theorem uniformGuard_passes {i : Instr} {s : State} (hr : Ready i s) (hm : s.part i = s.strand.mask) (h0 : s.strand.mask ≠ 0)
    (no yes : Res) : uniformGuard (s.part i) s.begin.strand.mask no yes = yes := by
  rw [s.begin_mask hr.slot, hm]
  exact uniformGuard_all h0 ..

section
variable {i : Instr} {yes : LaneMask → State → Res} {s : State} (hu : GuardsUniformly i yes) (hr : Ready i s)
include hu hr

theorem GuardsUniformly.fallsThrough (h : s.part i = 0) : FallsThrough i s :=
  fallsThrough_of_done (hu s) hr (by rw [h, uniformGuard_none])

theorem GuardsUniformly.diverges (h0 : s.part i ≠ 0) (hm : s.part i ≠ s.strand.mask) :
    TrapsWith i s ⟨0x14, 0xFF, 0, s.part i, false⟩ :=
  trapsWith_of_trap (hu s) hr (Nat.succ_ne_zero _) (uniformGuard_some h0 (by rwa [s.begin_mask hr.slot]) ..)

variable (hm : s.part i = s.strand.mask) (h0 : s.strand.mask ≠ 0)
include hm h0

theorem GuardsUniformly.jumps {pc : VAddr} (hy : yes (s.part i) s.begin = .goto s.begin pc) : Jumps i s pc :=
  jumps_of_goto (hu s) hr ((uniformGuard_passes hr hm h0 ..).trans hy)

theorem GuardsUniformly.traps {x : Trap} (hx : x.cause ≠ 0) (hy : yes (s.part i) s.begin = .trap x) : TrapsWith i s x :=
  trapsWith_of_trap (hu s) hr hx ((uniformGuard_passes hr hm h0 ..).trans hy)

end

/-! ### A register target (R290, R291) -/

/-- What follows the check of a target: the transfer from `u`, or the check's trap. -/
def Res.transfer (u : State) : Except Trap VAddr → Res
  | .error e => .trap e
  | .ok pc => .goto u pc

/-- The two low bits of a target are clear exactly in a multiple of 4. -/
theorem extractLow2_eq_zero (x : DWord) : x.extractLsb' 0 2 = 0#2 ↔ x.toNat % 4 = 0 := by
  rw [← BitVec.toNat_inj, BitVec.extractLsb'_toNat]
  simp

/-- Bits 63:57 of a target are clear exactly below 2^57. -/
theorem extractHigh7_eq_zero (x : DWord) : x.extractLsb' 57 7 = 0#7 ↔ x.toNat < 2 ^ 57 := by
  rw [← BitVec.toNat_inj, BitVec.extractLsb'_toNat, Nat.shiftRight_eq_div_pow]
  have := x.isLt
  simp only [BitVec.toNat_ofNat]
  omega

/-- The checks of a register target, in the order of R290: one value in every lane, a multiple of 4, below 2^57. -/
theorem regTarget_checks {u : State} {r : Reg} {part : LaneMask} {l : Nat} {x : DWord} (hl : lowLane part = some l)
    (hx : u.cur.rd64 r l = x) :
    let same := ∀ k, k < 32 → part.getLsbD k = true → u.cur.rd64 r k = x
    (¬ same → regTarget u r part = .error ⟨0x14, 0xFF, 0, part, false⟩) ∧
    (same → x.toNat % 4 ≠ 0 → regTarget u r part = .error ⟨0x12, 0xFF, 0, part, false⟩) ∧
    (same → x.toNat % 4 = 0 → 2 ^ 57 ≤ x.toNat → regTarget u r part = .error ⟨0x01, 3, x, part, false⟩) ∧
    (same → x.toNat % 4 = 0 → x.toNat < 2 ^ 57 → regTarget u r part = .ok (x.setWidth 57)) := by
  intro same
  have hsame : ((lanesOf part).any fun k => u.cur.rd64 r k != x) = true ↔ ¬ same := by
    simp [mem_lanesOf, same, and_assoc]
  simp only [regTarget, hl, hx, hsame, ne_eq, extractLow2_eq_zero, extractHigh7_eq_zero]
  refine ⟨fun h => if_pos h, fun h h4 => ?_, fun h h4 h57 => ?_, fun h h4 h57 => ?_⟩
  · rw [if_neg (not_not.2 h), if_pos h4]; rfl
  · rw [if_neg (not_not.2 h), if_neg (not_not.2 h4), if_pos (Nat.not_lt.2 h57)]; rfl
  · rw [if_neg (not_not.2 h), if_neg (not_not.2 h4), if_neg (not_not.2 h57)]

/-- A guarded transfer to a register target: the checks with their traps, and, where they pass, what a transfer does. -/
theorem registerJump_of_guards {i : Instr} {r : Reg} {s : State} {leave : LaneMask → State → State} {went : State → VAddr → Prop}
    (hu : GuardsUniformly i fun part u => .transfer (leave part u) (regTarget u r part)) (hr : Ready i s)
    (hgo : ∀ pc, s.strand.mask ≠ 0 → s.part i = s.strand.mask →
      Res.transfer (leave (s.part i) s.begin) (regTarget s.begin r (s.part i)) = .goto (leave (s.part i) s.begin) pc → went s pc) :
    RegisterJump i r s went := by
  intro l hl hm x same
  have h0 : s.strand.mask ≠ 0 := fun h => by rw [lowLane_none.2 h] at hl; cases hl
  obtain ⟨hdiff, hmis, hhigh, hgood⟩ := regTarget_checks (u := s.begin) (r := r) (x := x) (hm ▸ hl) rfl
  rw [hm] at hdiff hmis hhigh hgood
  refine ⟨fun h => ?diverges, fun h h4 => ?misaligned, fun h h4 h57 => ?outOfRange, fun h h4 h57 => ?good⟩
  case diverges => exact hu.traps hr hm h0 (Nat.succ_ne_zero _) (by rw [hm, hdiff h]; rfl)
  case misaligned => exact hu.traps hr hm h0 (Nat.succ_ne_zero _) (by rw [hm, hmis h h4]; rfl)
  case outOfRange => exact hu.traps hr hm h0 (Nat.succ_ne_zero _) (by rw [hm, hhigh h h4 h57]; rfl)
  case good => exact hgo _ h0 hm (by rw [hm, hgood h h4 h57]; rfl)

/-! ### The instructions -/

theorem bra_guards (h : Hdr2) (disp : BitVec 24) :
    GuardsUniformly (.bra h disp) fun _ u => .goto u (labelTarget u.strand.pc disp) := fun _ => rfl

theorem exec_braAny (h : Hdr2) (disp : BitVec 24) (s : State) :
    exec (.braAny h disp) s = issue (.braAny h disp) noGate
      (fun part u => if part = 0 then .done u else .goto u (labelTarget u.strand.pc disp)) s := rfl

theorem exec_braAll (h : Hdr2) (disp : BitVec 24) (s : State) :
    exec (.braAll h disp) s = issue (.braAll h disp) noGate
      (fun part u => if part = u.strand.mask then .goto u (labelTarget u.strand.pc disp) else .done u) s := rfl

/-- The state with CALL's link written: the address 12 bytes on (R290). -/
def State.linked (link : Reg) (part : LaneMask) (u : State) : State :=
  u.modCur fun g => g.wr true link part fun _ => (u.pcAfter 12).setWidth 64

theorem call_guards (h : Hdr2) (link : Reg) (tgt : CallTarget) :
    GuardsUniformly (.call h link tgt) fun part u => .transfer (u.linked link part) (callTarget u tgt part) := fun _ => rfl

theorem ret_guards (h : Hdr) (r : Reg) : GuardsUniformly (.ret h r) fun part u => .transfer u (regTarget u r part) := fun _ => rfl

theorem jmpi_guards (h : Hdr) (r : Reg) : GuardsUniformly (.jmpi h r) fun part u => .transfer u (regTarget u r part) := fun _ => rfl

theorem bra_results (h : Hdr2) (disp : BitVec 24) (s : State) (hr : Ready (.bra h disp) s) (h0 : s.strand.mask ≠ 0) :
    (s.part (.bra h disp) = 0 → FallsThrough (.bra h disp) s) ∧
    (s.part (.bra h disp) = s.strand.mask → Jumps (.bra h disp) s (labelTarget s.strand.pc disp)) ∧
    (s.part (.bra h disp) ≠ 0 → s.part (.bra h disp) ≠ s.strand.mask →
      TrapsWith (.bra h disp) s ⟨0x14, 0xFF, 0, s.part (.bra h disp), false⟩) := by
  have hu := bra_guards h disp
  exact ⟨hu.fallsThrough hr, fun hm => hu.jumps hr hm h0 (by rw [s.begin_pc hr.slot]), hu.diverges hr⟩

theorem braAny_results (h : Hdr2) (disp : BitVec 24) (s : State) (hr : Ready (.braAny h disp) s) :
    (s.part (.braAny h disp) = 0 → FallsThrough (.braAny h disp) s) ∧
    (s.part (.braAny h disp) ≠ 0 → Jumps (.braAny h disp) s (labelTarget s.strand.pc disp)) := by
  have he := exec_braAny h disp s
  refine ⟨fun hp => fallsThrough_of_done he hr (if_pos hp), fun hp => jumps_of_goto he hr ?_⟩
  rw [if_neg hp, s.begin_pc hr.slot]

theorem braAll_results (h : Hdr2) (disp : BitVec 24) (s : State) (hr : Ready (.braAll h disp) s) :
    (s.part (.braAll h disp) ≠ s.strand.mask → FallsThrough (.braAll h disp) s) ∧
    (s.part (.braAll h disp) = s.strand.mask → Jumps (.braAll h disp) s (labelTarget s.strand.pc disp)) := by
  have he := exec_braAll h disp s
  have hmask := s.begin_mask hr.slot
  refine ⟨fun hp => fallsThrough_of_done he hr (if_neg (hmask ▸ hp)), fun hp => jumps_of_goto he hr ?_⟩
  rw [if_pos (hp.trans hmask.symm), s.begin_pc hr.slot]

/-- CALL taken to `pc`: the strand goes there, and the link holds the address 12 bytes on, in the lanes of Part. -/
def CallTaken (h : Hdr2) (link : Reg) (tgt : CallTarget) (s : State) (pc : VAddr) : Prop :=
  ∃ t, exec (.call h link tgt) s = .next t ∧ GoesTo pc s t ∧ t.strand.notBefore = s.clock + 3 ∧
    Wrote s t true link (s.part (.call h link tgt)) (fun _ => (s.strand.pc + 12).setWidth 64) ∧ SamePreds s t ∧ SameFlags s t

/-- A register write of the issuing gang, then counted: what the state reads as (R44, R45). -/
theorem wrote_of_counted {s t : State} {wide : Bool} {d : Reg} {part : LaneMask} {x : Nat → DWord}
    (hc : Counted (s.begin.cur.wr wide d part x) t.cur) : Wrote s t wide d part x ∧ SamePreds s t ∧ SameFlags s t := by
  obtain ⟨hv, hp, hs, hf, hm⟩ := hc.data
  have hframe := Gang.wr_frame s.begin.cur wide d part x
  refine ⟨⟨fun n l hl => ?_, fun n => ?_⟩, fun n => ?_, hf.trans ?_, hm.trans ?_⟩
  · rw [Gang.vr, hv]
    exact Gang.vr_wr s.begin.cur wide d part x n l hl
  · rw [hs]
    exact Gang.s_wr s.begin.cur wide d part x n
  · rw [Gang.pmask, hp, hframe]
    rfl
  · rw [hframe]
    rfl
  · rw [hframe]
    rfl

theorem callTaken_of_goto {h : Hdr2} {link : Reg} {tgt : CallTarget} {s : State} {pc : VAddr} (hr : Ready (.call h link tgt) s)
    (h0 : s.strand.mask ≠ 0) (hm : s.part (.call h link tgt) = s.strand.mask)
    (hy : Res.transfer (s.begin.linked link (s.part (.call h link tgt))) (callTarget s.begin tgt (s.part (.call h link tgt))) =
      .goto (s.begin.linked link (s.part (.call h link tgt))) pc) :
    CallTaken h link tgt s pc := by
  have hu := call_guards h link tgt
  obtain ⟨t, ht, hgo, hnb, hcur⟩ := goesTo_of_goto (hu s) hr (Gang.wr_local ..) ((uniformGuard_passes hr hm h0 ..).trans hy)
  have hpc : s.begin.pcAfter 12 = s.strand.pc + 12 := by rw [State.pcAfter, s.begin_pc hr.slot]; rfl
  rw [hpc] at hcur
  exact ⟨t, ht, hgo, hnb, wrote_of_counted hcur⟩

theorem callDisp_results (h : Hdr2) (link : Reg) (disp : BitVec 24) (s : State) (hr : Ready (.call h link (.disp disp)) s)
    (h0 : s.strand.mask ≠ 0) :
    (s.part (.call h link (.disp disp)) = 0 → FallsThrough (.call h link (.disp disp)) s) ∧
    (s.part (.call h link (.disp disp)) = s.strand.mask → CallTaken h link (.disp disp) s (labelTarget s.strand.pc disp)) ∧
    (s.part (.call h link (.disp disp)) ≠ 0 → s.part (.call h link (.disp disp)) ≠ s.strand.mask →
      TrapsWith (.call h link (.disp disp)) s ⟨0x14, 0xFF, 0, s.part (.call h link (.disp disp)), false⟩) := by
  have hu := call_guards h link (.disp disp)
  refine ⟨hu.fallsThrough hr, fun hm => callTaken_of_goto hr h0 hm ?_, hu.diverges hr⟩
  rw [callTarget, s.begin_pc hr.slot, Res.transfer]

theorem callReg_results (h : Hdr2) (link r : Reg) (s : State) (hr : Ready (.call h link (.reg r)) s) :
    (s.part (.call h link (.reg r)) = 0 → FallsThrough (.call h link (.reg r)) s) ∧
    (s.part (.call h link (.reg r)) ≠ 0 → s.part (.call h link (.reg r)) ≠ s.strand.mask →
      TrapsWith (.call h link (.reg r)) s ⟨0x14, 0xFF, 0, s.part (.call h link (.reg r)), false⟩) ∧
    RegisterJump (.call h link (.reg r)) r s (CallTaken h link (.reg r)) := by
  have hu := call_guards h link (.reg r)
  exact ⟨hu.fallsThrough hr, hu.diverges hr, registerJump_of_guards hu hr fun _ h0 hm => callTaken_of_goto hr h0 hm⟩

/-- RET and JMPI: a guarded transfer to a register target that writes nothing (R289 to R291). -/
theorem plainRegisterJump_results {i : Instr} {r : Reg} {s : State}
    (hu : GuardsUniformly i fun part u => .transfer u (regTarget u r part)) (hr : Ready i s) :
    (s.part i = 0 → FallsThrough i s) ∧
    (s.part i ≠ 0 → s.part i ≠ s.strand.mask → TrapsWith i s ⟨0x14, 0xFF, 0, s.part i, false⟩) ∧
    RegisterJump i r s fun s pc => Jumps i s pc :=
  ⟨hu.fallsThrough hr, hu.diverges hr,
    registerJump_of_guards (leave := fun _ u => u) hu hr fun _ h0 hm => hu.jumps hr hm h0⟩

/-- Settles O9: each instruction's guard sends it on, to its transfer or to the trap; a register target meets its checks in order; what
the transfer leaves is said once for every one of them, CALL's link being the one register written. -/
theorem branchCallAndReturnResults : Obligations.BranchCallAndReturnResults := by
  unfold Obligations.BranchCallAndReturnResults
  exact ⟨⟨bra_results, braAny_results, braAll_results⟩, callDisp_results, callReg_results,
    fun h r _ hr => plainRegisterJump_results (ret_guards h r) hr, fun h r _ hr => plainRegisterJump_results (jmpi_guards h r) hr⟩

end Sys2Proof.Machine
